-- ==== Sys2Proof/Word.lean ====
section
/-! DEFINITION. The word types and the plainest arithmetic over them (00 R4, 03 R59). -/

namespace Sys2Proof

/-- A byte of memory. -/
abbrev Byte := BitVec 8

/-- A 32-bit register or instruction word. -/
abbrev Word := BitVec 32

/-- A 64-bit value: a register pair, an address, a time. -/
abbrev DWord := BitVec 64

end Sys2Proof
end

