-- ==== Sys2Proof/Machine/Bits.lean ====
section
/-! DEFINITION. Bit fields, sign extension, pairs and byte order (00 R4): the helpers every other file reads bits with. -/

namespace Sys2Proof

/-- Bits [31:0] and [63:32] of a pair, joined. -/
def joinPair (lo hi : Word) : DWord := BitVec.ofNat 64 (lo.toNat + 2 ^ 32 * hi.toNat)

/-- Bits [31:0] of a 64-bit value. -/
def lowWord (x : DWord) : Word := BitVec.ofNat 32 x.toNat

/-- Bits [63:32] of a 64-bit value. -/
def highWord (x : DWord) : Word := BitVec.ofNat 32 (x.toNat / 2 ^ 32)

/-- Bits [hi:lo] of a number. -/
def natBits (x hi lo : Nat) : Nat := x / 2 ^ lo % 2 ^ (hi + 1 - lo)

/-- Bit n of a number. -/
def natBit (x n : Nat) : Bool := x / 2 ^ n % 2 == 1

/-- The number with bits [hi:lo] replaced by the low bits of v. -/
def setNatBits (x hi lo v : Nat) : Nat :=
  x % 2 ^ lo + 2 ^ lo * (v % 2 ^ (hi + 1 - lo)) + 2 ^ (hi + 1) * (x / 2 ^ (hi + 1))

/-- A Bool as a bit. -/
def b2n (b : Bool) : Nat := if b then 1 else 0

/-- The two's complement reading of the low w bits of n. -/
def sintOf (w n : Nat) : Int :=
  if n % 2 ^ w < 2 ^ (w - 1) then ((n % 2 ^ w : Nat) : Int) else ((n % 2 ^ w : Nat) : Int) - (2 ^ w : Nat)

/-- An integer's residue modulo 2^w, as a number. -/
def modPow (w : Nat) (x : Int) : Nat := (x % ((2 ^ w : Nat) : Int)).toNat

/-- A word from an integer, modulo 2^32. -/
def wordOfInt (x : Int) : Word := BitVec.ofNat 32 (modPow 32 x)

/-- The little-endian number of a list of bytes (R4). -/
def leNat : List Byte → Nat
  | [] => 0
  | b :: bs => b.toNat + 256 * leNat bs

/-- The n bytes of a number, little-endian (R4). -/
def leBytes : Nat → Nat → List Byte
  | 0, _ => []
  | n + 1, x => BitVec.ofNat 8 x :: leBytes n (x / 256)

/-- The fields of a word, named from its most significant bits down. -/
def packBits : List (Nat × Nat) → Nat
  | [] => 0
  | (_, v) :: r => v * 2 ^ (r.map Prod.fst).sum + packBits r

/-- The values of consecutive fields of the given widths, from the most significant bits down. -/
def fields : List Nat → Nat → List Nat
  | [], _ => []
  | w :: r, n => n / 2 ^ r.sum % 2 ^ w :: fields r n

end Sys2Proof
end

