-- ==== Sys2Proof/Syntax.lean ====
section
/-! DEFINITION. The instructions of the machine: the operand types of the lane and uniform words (04 R81-R105), and one constructor for every row of the opcode table, the device events and window commands among them. -/

namespace Sys2Proof

/-- The SCOPE of R91; its code is its place in the list. -/
inductive Scope where
  | plain | strand | grove | cluster | die | device | system
  deriving DecidableEq, Repr

/-- The ORDER of R91; its code is its place in the list. -/
inductive Order where
  | relaxed | acquire | release | acqRel
  deriving DecidableEq, Repr

/-- The HINT of R91; its code is its place in the list. -/
inductive Hint where
  | normal | stream | keep | bypassL1 | nonTemporal
  deriving DecidableEq, Repr

/-- The condition of FCMP and HCMP2 (R90); its code is its place in the list. -/
inductive FCond where
  | eq | ne | lt | le | gt | ge | ord | uno
  deriving DecidableEq, Repr

/-- The condition of ICMP and NCMP (R90); its code is its place in the list. -/
inductive ICond where
  | eq | ne | lt | le | gt | ge
  deriving DecidableEq, Repr

/-- The condition of a uniform Pred form (R93); its code is its place in the list. -/
inductive UCond where
  | eq | ne | lt | ge
  deriving DecidableEq, Repr

/-- The FRND selector (R90); its code is its place in the list. -/
inductive RndSel where
  | rne | rtz | rup | rdn | fpc
  deriving DecidableEq, Repr

/-- The SFN selector (R90); its code is its place in the list. -/
inductive SfnFn where
  | rcp | rsq | sqrt | exp2 | log2 | sin | cos | tanh | erf
  deriving DecidableEq, Repr

/-- The FUNC of ATS, ATG and SATG (R269); its code is its place in the list. -/
inductive AtFn where
  | add | min | max | nmax | and | or | xchg | cas
  deriving DecidableEq, Repr

/-- The FUNC of ATGX (R269); its code is its place in the list. -/
inductive AtxFn where
  | add64 | xchg64 | cas64 | xadd | radd | radd64 | ror | rnmax
  deriving DecidableEq, Repr

/-- The OPL of PSET (R147); its code is its place in the list. -/
inductive LogicOp where
  | and | or | xor
  deriving DecidableEq, Repr

/-- The FN of VOTE (R152); its code is its place in the list. -/
inductive VoteFn where
  | all | any | eq
  deriving DecidableEq, Repr

/-- The FN of SRED and SSCAN (R155); its code is its place in the list. -/
inductive RedFn where
  | add | min | max | nmin | nmax | and | or | xor | fsum | fmin | fmax | add64
  deriving DecidableEq, Repr

/-- The TY of CMMAB (R158); its code is its place in the list. -/
inductive CmmabTy where
  | bf16 | fp16
  deriving DecidableEq, Repr

/-- The TY of CMMAQ (R158); its code is its place in the list. -/
inductive CmmaqTy where
  | fp8e4 | fp8e5 | i8
  deriving DecidableEq, Repr

/-- The SIZE of PGINV (R339); its code is its place in the list. -/
inductive PgSize where
  | k64 | m2 | g1 | all
  deriving DecidableEq, Repr

/-- The TXF of MFILT (R198); its code is its place in the list. -/
inductive TxFmt where
  | fp16 | n8
  deriving DecidableEq, Repr

/-- The FMT of MDRAIN (R190); its code is its place in the list. -/
inductive DrainFmt where
  | fp32 | fp16 | bf16 | fp8e4 | fp8e5 | i32
  deriving DecidableEq, Repr

/-- The RND of MDRAIN (R190); its code is its place in the list. -/
inductive Rnd where
  | rne | rtz | rup | rdn | rna | rsr
  deriving DecidableEq, Repr

/-- The class tag of an accumulator unit (R68, R195); its code is its place in the list. -/
inductive TileClass where
  | empty | acw | acn | acz
  deriving DecidableEq, Repr

/-- The SEL of MCFG (R197); its code is its place in the list. -/
inductive McfgSel where
  | mcs0 | mcs1 | mcs2 | psel
  deriving DecidableEq, Repr

/-- The RANK of WLOAD (R186); its code is its place in the list. -/
inductive Rank where
  | r64 | r128 | r256 | r512
  deriving DecidableEq, Repr

/-- The PLACE of an engine command (R282); its code is its place in the list. -/
inductive Place where
  | issuing | dest | hub
  deriving DecidableEq, Repr

/-- The DM of an MMA form (R95); its code is its place in the list. -/
inductive Dm where
  | dense | sparse | expand | absorb
  deriving DecidableEq, Repr

/-- The MMA forms (R105). -/
inductive MmaForm where
  | mmaBf16 | mmaFp16 | mmaE4 | mmaE5 | mmaF6a | mmaF6b | mmaF4 | mmaMx4 | mmaMx6a | mmaMx8 | mmaI8 | mmaI4 | mmaI8bf | mmaI8e4 | mmaBfmx4 | mmaE4bf
  deriving DecidableEq, Repr

/-- The switch marker and the guard code of a word (R81). -/
structure Hdr where
  s : Bool
  g : Fin 8
  deriving DecidableEq, Repr

/-- Operand A of a lane word (R89): a V register, an S register, special slot 96 + n, or the literal. -/
inductive LaneA where
  | v (r : Fin 64) | s (r : Fin 32) | slot (n : Fin 23) | lit (w : Word)
  deriving DecidableEq, Repr

/-- Operand A of classes UA and UM (R93): an S register, special 32 + n, or the literal. -/
inductive UniA where
  | s (r : Fin 32) | sp (n : Fin 16) | lit (w : Word)
  deriving DecidableEq, Repr

/-- Operand B of class UA (R93): an S register, special 0x20 + n, the inline value n − 64 coded 0x40 + n, or the literal. -/
inductive UniB where
  | s (r : Fin 32) | sp (n : Fin 16) | imm (n : Fin 191) | lit (w : Word)
  deriving DecidableEq, Repr

/-- MODE and register of MSET (R151). -/
inductive MsetArg where
  | pair (b : Fin 64) | dflt | andPair (b : Fin 64)
  deriving DecidableEq, Repr

/-- I and C of a shuffle word (R152, R153). -/
inductive ShufSrc where
  | imm (c : Fin 64) | reg (c : Fin 64)
  deriving DecidableEq, Repr

/-- DIR, V and MASK of PMOV (R148). -/
inductive PmovArg where
  | toPred (v : Fin 64) (mask : Fin 128) | fromPred (v : Fin 64)
  deriving DecidableEq, Repr

/-- FMT, RND and CB of TDRAIN (R192). -/
inductive TdrainSel where
  | body (f : DrainFmt) (r : Rnd) (cb : Fin 8) | hdr (cb : Fin 2)
  deriving DecidableEq, Repr

/-- NA and SP of SBAR (R276): arrive and wait, or wait for a phase. -/
inductive SbarArg where
  | arrive | wait (p : Fin 32)
  deriving DecidableEq, Repr

/-- The fields every MMA form has (R95). -/
structure MmaArgs where
  ac : Fin 10
  ta : Fin 16
  wb : Fin 8
  t : Bool
  dm : Dm
  kc : Fin 16
  deriving DecidableEq, Repr

/-- The literal of the forms R105 marks (R96); ones is SCM = 01. -/
structure MmaLit where
  sstr : Fin 64
  svb : Fin 64
  sel : Fin 4
  ones : Bool
  deriving DecidableEq, Repr

/-- A firmware image of a boot (R345): its header and body, the public key that comes with it, whether the FIPS 205 check of its signature under that key passes (log 48), and the security version of its header. -/
structure BootImage where
  image : List Byte
  key : List Byte
  signed : Bool
  version : Nat
  deriving DecidableEq, Repr

/-- The fuse state of the part (R345): its bytes, whether it verifies, the 512-bit SHAKE256 digest of Calhamen's key, and the security version counters of the images of stages 2 to 5. -/
structure BootFuses where
  bytes : List Byte
  ok : Bool
  keyDigest : Nat
  counters : List Nat
  deriving DecidableEq, Repr

/-- The configuration record (R15, R23, R348): its bytes, whether its signature passes, the 512-bit digest of the identity public key that it carries, whether the control node has installed it since the last boot (R363), and its maps: fenced cores, dies, stacks as 8 × die + stack and Tabig ports, and faulty physical lanes by core. -/
structure BootRecord where
  bytes : List Byte
  signed : Bool
  digest : Nat
  fresh : Bool
  cores : List Nat
  dies : List Nat
  stacksOff : List Nat
  ports : List Nat
  lanes : List (Nat × Nat)
  deriving DecidableEq, Repr

/-- What the part and its surroundings bring to a boot (R345-R348, R379-R381, R387): the fuses, the firmware images of stages 2 to 5, the secret the PUF yields, if it yields one, the configuration record, the Tabig ports that fail training, the time of the domain's master when this device follows one, and the expanders' capacities in bytes by root port. -/
structure BootIn where
  fuses : BootFuses
  images : List BootImage
  secret : Option (List Byte)
  record : BootRecord
  portsDown : List Nat
  domain : Option Nat
  expanders : List Nat
  deriving DecidableEq, Repr

/-- What a spare-lane test of a core finds (R364): a mapped lane's results differ from the spare's, or a spare, one of the physical lanes, fails its own self-test. -/
inductive LaneTest where
  | mismatch (lane : Nat)
  | spareBad (phys : Nat)
  deriving DecidableEq, Repr

/-- A draining switch of a context, on a set of cores (R310). -/
structure CoreSwitch where
  ctx : Nat
  cores : List Nat
  deriving DecidableEq, Repr

/-- What a write through the management window goes to: a register, or the operation over a range of a home's offsets that is equivalent to PGINV, to which the value written says nothing (R338, log 49). -/
inductive WindowOp where
  | reg (off : Nat)
  | pginv (home lo hi : Nat)
  deriving DecidableEq, Repr

/-- What an uncorrectable error strikes (R172, R361): a core's thread or grove state, a memory granule, a scratchpad word, an A-tile row, a weight byte's record, an accumulator row, a scale register, an A′ row, a staging buffer or an operand path of the array command in flight (found again when its step is replayed, or only once), or a copy that is dropped and refetched. -/
inductive ErrSite where
  | state (gid : Nat) (who : Option Nat)
  | granule (key : Nat)
  | scratch (gid addr : Nat)
  | taRow (gid pos unit row : Nat)
  | wbByte (gid pos unit byte : Nat)
  | acRow (gid pos unit row : Nat)
  | scale (gid strand lane : Nat)
  | aPrime (gid row : Nat)
  | staging (gid : Nat)
  | operand (gid : Nat) (again : Bool)
  | copy
  deriving DecidableEq, Repr

/-- What an inbound peer access asks for (R340, R263). -/
inductive PeerOp where
  | load (n : Nat)
  | store (bytes : List Byte)
  | atom (f : AtFn) (ops : List Word)
  | atomx (f : AtxFn) (ops : List Word)
  deriving DecidableEq, Repr

/-- What comes from outside the device for an access of a unit: nothing; for a COLL (R288), members that disagree, or every member's input in sorted order; the answers of a peer (R241, R362): 0 done, 1 refused, 2 no route, 3 poison, with the bytes read by address. -/
inductive FabIn where
  | none
  | disagree
  | inputs (l : List (List Byte))
  | peer (fate : Nat) (bytes : List (Nat × Byte))
  deriving DecidableEq, Repr

/-- One constructor for each row of the opcode table. The rows without a word come first: they are events of the device, whose arguments name what they act on. The words follow and take the header first. (Compiled Lean cannot build a value of a constructor past the 245th, so the decoder is marked noncomputable; the kernel evaluates it.) -/
inductive Instr where
  | cmdNop (q : Nat)
  | launch (q : Nat)
  | waitev (q : Nat)
  | waitevSatisfied (q : Nat)
  | signal (q : Nat)
  | qcfgWrite (q : Nat) (v : Word)
  | qstatResume (q : Nat)
  | queueTailWrite (q : Nat) (v : Word)
  | registerWrite (w : WindowOp) (v : Word)
  | groveDispatch (l : Nat) (core : Nat) (slot : Nat) (rerun : Bool)
  | cogridDispatch (l : Nat) (places : List (Nat × Nat))
  | nodeGroveDispatch (r : Nat) (core : Nat) (slot : Nat)
  | contqFallback (r : Nat)
  | coreHandover (core : Nat)
  | groveRetire (gid : Nat)
  | segmentCommit (gid : Nat) (who : Option Nat)
  | loadAtHome (id : Nat)
  | loadReturn (id : Nat) (data : List Word) (fate : Nat)
  | storeArrival (id : Nat) (fate : Nat)
  | atomicAtHome (id : Nat)
  | clusterJunctionRelease (cluster : Nat) (store : Nat)
  | engineLineWrite (cmd : Nat) (c : FabIn)
  | serialTokenGrant (gid : Nat) (tid : Nat)
  | txnLineUnlock (line : Nat)
  | txnCommitComplete (gid : Nat) (tid : Nat)
  | snpData (line : Nat)
  | snpInv (line : Nat)
  | snpCur (line : Nat)
  | snoopResponse (line : Nat)
  | hubEviction (line : Nat)
  | hostMemRead (die : Nat) (off : Nat) (keep : Nat)
  | hostMemWrite (die : Nat) (off : Nat) (data : List Byte)
  | biRspI (line : Nat) (wb : Option (List Byte))
  | peerAccessArrival (dev : Nat) (ctx : Nat) (off : Nat) (op : PeerOp)
  | peerStoreAck (id : Nat)
  | gatheringComplete (gid : Nat) (tid : Nat)
  | barrierTimeout (gid : Nat) (who : Option Nat)
  | replayWaitTimeout (gid : Nat) (who : Option Nat)
  | sstepRelease (gid : Nat)
  | seedbedTimerExpiry (gid : Nat) (bed : Nat)
  | seedlingStandLaunch (gid : Nat) (bed : Nat) (entry : Word)
  | bteRayDone (ray : Nat) (c : FabIn)
  | beamComplete (beam : Nat) (c : FabIn)
  | atlasRequestComplete (beam : Nat) (c : FabIn)
  | sequencerChunk (gid : Nat) (c : FabIn)
  | arrayCommandComplete (gid : Nat)
  | loaderSlot (gid : Nat) (id : Nat) (c : FabIn)
  | tileLoadComplete (gid : Nat) (id : Nat)
  | pendingTrapDelivery (gid : Nat)
  | engineCommandComplete (cmd : Nat)
  | collTimeout (cmd : Nat)
  | timewaitDeadline (gid : Nat)
  | pginvComplete (id : Nat)
  | dfactRelease (die : Nat) (idx : Nat)
  | dfactKill (die : Nat) (idx : Nat)
  | haltInPlaceRequest (ctx : Nat)
  | haltReport (ctx : Nat) (core : Nat)
  | contextResume (ctx : Nat)
  | contextSwitch (w : CoreSwitch)
  | drainWatchdog (ctx : Nat)
  | temporalSliceExpiry (cluster : Nat)
  | clusterGrant (cluster : Nat) (ctx : Nat)
  | ctxcfgEnable (ctx : Nat) (v : Word)
  | ctxcfgEnd (ctx : Nat) (v : Word)
  | powerOn (b : BootIn)
  | deviceReset (b : BootIn)
  | cxlHotReset (b : BootIn)
  | freqreqWrite (die : Nat) (v : Word)
  | frequencyStep (die : Nat)
  | relockEnd (die : Nat)
  | powerLimitAction (die : Nat) (code : Nat)
  | carveWrite (die : Nat) (v : Word)
  | snapstatFree
  | snapshotExternal
  | mailboxAttest
  | mailboxExtend (k : Nat)
  | attestAnswerReady
  | scrubPass (key : Nat)
  | spareLaneTestDone (core : Nat) (r : LaneTest)
  | supplySag (cluster : Nat) (level : Nat)
  | sagLevelLower (cluster : Nat)
  | uncorrectableError (e : ErrSite)
  | hbmStackFailure (die : Nat) (stack : Nat)
  | linkFailure (link : Nat)
  | dieUnresponsive (die : Nat)
  | verifyCompare (l : Nat) (tag : Nat)
  | releasePerformed (gid : Nat) (who : Option Nat)
  | cxlCacheResponse (line : Nat) (data : List Byte)
  | expanderFailure (port : Nat)
  | iadd (h : Hdr) (d : Fin 64) (a : LaneA) (b : Fin 64)
  | isub (h : Hdr) (d : Fin 64) (a : LaneA) (b : Fin 64)
  | isubr (h : Hdr) (d : Fin 64) (a : LaneA) (b : Fin 64)
  | imul (h : Hdr) (d : Fin 64) (a : LaneA) (b : Fin 64)
  | imulhi (h : Hdr) (d : Fin 64) (a : LaneA) (b : Fin 64)
  | nmulhi (h : Hdr) (d : Fin 64) (a : LaneA) (b : Fin 64)
  | imad (h : Hdr) (d : Fin 64) (a : LaneA) (b : Fin 64)
  | imin (h : Hdr) (d : Fin 64) (a : LaneA) (b : Fin 64)
  | imax (h : Hdr) (d : Fin 64) (a : LaneA) (b : Fin 64)
  | nmin (h : Hdr) (d : Fin 64) (a : LaneA) (b : Fin 64)
  | nmax (h : Hdr) (d : Fin 64) (a : LaneA) (b : Fin 64)
  | iabs (h : Hdr) (d : Fin 64) (a : LaneA)
  | and (h : Hdr) (d : Fin 64) (a : LaneA) (b : Fin 64)
  | or (h : Hdr) (d : Fin 64) (a : LaneA) (b : Fin 64)
  | xor (h : Hdr) (d : Fin 64) (a : LaneA) (b : Fin 64)
  | andn (h : Hdr) (d : Fin 64) (a : LaneA) (b : Fin 64)
  | shl (h : Hdr) (d : Fin 64) (a : LaneA) (b : Fin 64)
  | shr (h : Hdr) (d : Fin 64) (a : LaneA) (b : Fin 64)
  | sar (h : Hdr) (d : Fin 64) (a : LaneA) (b : Fin 64)
  | rotl (h : Hdr) (d : Fin 64) (a : LaneA) (b : Fin 64)
  | bfx (h : Hdr) (d : Fin 64) (a : LaneA) (b : Fin 64)
  | bfxs (h : Hdr) (d : Fin 64) (a : LaneA) (b : Fin 64)
  | bfi (h : Hdr) (d : Fin 64) (a : LaneA) (b : Fin 64)
  | popc (h : Hdr) (d : Fin 64) (a : LaneA)
  | clz (h : Hdr) (d : Fin 64) (a : LaneA)
  | ctz (h : Hdr) (d : Fin 64) (a : LaneA)
  | brev (h : Hdr) (d : Fin 64) (a : LaneA)
  | iadd64 (h : Hdr) (d : Fin 64) (a : LaneA) (b : Fin 64)
  | isub64 (h : Hdr) (d : Fin 64) (a : LaneA) (b : Fin 64)
  | imul64 (h : Hdr) (d : Fin 64) (a : LaneA) (b : Fin 64)
  | shl64 (h : Hdr) (d : Fin 64) (a : LaneA) (b : Fin 64)
  | shr64 (h : Hdr) (d : Fin 64) (a : LaneA) (b : Fin 64)
  | icmp (h : Hdr) (k : Fin 8) (c : ICond) (a : LaneA) (b : Fin 64)
  | ncmp (h : Hdr) (k : Fin 8) (c : ICond) (a : LaneA) (b : Fin 64)
  | mov (h : Hdr) (d : Fin 64) (a : LaneA)
  | mov64 (h : Hdr) (d : Fin 64) (a : LaneA)
  | iadds (h : Hdr) (d : Fin 64) (a : LaneA) (b : Fin 64)
  | isubs (h : Hdr) (d : Fin 64) (a : LaneA) (b : Fin 64)
  | dot4i (h : Hdr) (d : Fin 64) (a : LaneA) (b : Fin 64)
  | dot4n (h : Hdr) (d : Fin 64) (a : LaneA) (b : Fin 64)
  | pack (h : Hdr) (d : Fin 64) (a : LaneA) (b : Fin 64)
  | permb (h : Hdr) (d : Fin 64) (a : LaneA) (b : Fin 64)
  | xswz (h : Hdr) (d : Fin 64) (a : LaneA) (b : Fin 64)
  | fadd (h : Hdr) (d : Fin 64) (a : LaneA) (b : Fin 64)
  | fsub (h : Hdr) (d : Fin 64) (a : LaneA) (b : Fin 64)
  | fmul (h : Hdr) (d : Fin 64) (a : LaneA) (b : Fin 64)
  | ffma (h : Hdr) (d : Fin 64) (a : LaneA) (b : Fin 64)
  | ffms (h : Hdr) (d : Fin 64) (a : LaneA) (b : Fin 64)
  | fmin (h : Hdr) (d : Fin 64) (a : LaneA) (b : Fin 64)
  | fmax (h : Hdr) (d : Fin 64) (a : LaneA) (b : Fin 64)
  | fminn (h : Hdr) (d : Fin 64) (a : LaneA) (b : Fin 64)
  | fmaxn (h : Hdr) (d : Fin 64) (a : LaneA) (b : Fin 64)
  | fabs (h : Hdr) (d : Fin 64) (a : LaneA)
  | fneg (h : Hdr) (d : Fin 64) (a : LaneA)
  | fcmp (h : Hdr) (k : Fin 8) (c : FCond) (a : LaneA) (b : Fin 64)
  | fclass (h : Hdr) (d : Fin 64) (a : LaneA)
  | frnd (h : Hdr) (d : Fin 64) (a : LaneA) (e : RndSel)
  | fldexp (h : Hdr) (d : Fin 64) (a : LaneA) (b : Fin 64)
  | ffract (h : Hdr) (d : Fin 64) (a : LaneA)
  | hadd2 (h : Hdr) (d : Fin 64) (a : LaneA) (b : Fin 64)
  | hmul2 (h : Hdr) (d : Fin 64) (a : LaneA) (b : Fin 64)
  | hfma2 (h : Hdr) (d : Fin 64) (a : LaneA) (b : Fin 64)
  | hmin2 (h : Hdr) (d : Fin 64) (a : LaneA) (b : Fin 64)
  | hmax2 (h : Hdr) (d : Fin 64) (a : LaneA) (b : Fin 64)
  | badd2 (h : Hdr) (d : Fin 64) (a : LaneA) (b : Fin 64)
  | bmul2 (h : Hdr) (d : Fin 64) (a : LaneA) (b : Fin 64)
  | bfma2 (h : Hdr) (d : Fin 64) (a : LaneA) (b : Fin 64)
  | hcmp2 (h : Hdr) (k : Fin 8) (c : FCond) (a : LaneA) (b : Fin 64)
  | cvt (h : Hdr) (d : Fin 64) (a : LaneA) (e : Fin 64)
  | cvtq (h : Hdr) (d : Fin 64) (a : LaneA) (e : Fin 64)
  | sfn (h : Hdr) (d : Fin 64) (a : LaneA) (e : SfnFn)
  | fdot2 (h : Hdr) (d : Fin 64) (a : LaneA) (b : Fin 64)
  | hdot2 (h : Hdr) (d : Fin 64) (a : LaneA) (b : Fin 64)
  | qdot4 (h : Hdr) (d : Fin 64) (a : LaneA) (b : Fin 64)
  | fsat (h : Hdr) (d : Fin 64) (a : LaneA)
  | lds (h : Hdr) (d : Fin 64) (a : LaneA) (w : Fin 8) (f : Fin 32)
  | lds2 (h : Hdr) (d : Fin 64) (a : LaneA) (w : Fin 8) (f : Fin 32)
  | lds4 (h : Hdr) (d : Fin 64) (a : LaneA) (w : Fin 8) (f : Fin 32)
  | sts (h : Hdr) (d : Fin 64) (a : LaneA) (w : Fin 8) (f : Fin 32)
  | sts2 (h : Hdr) (d : Fin 64) (a : LaneA) (w : Fin 8) (f : Fin 32)
  | sts4 (h : Hdr) (d : Fin 64) (a : LaneA) (w : Fin 8) (f : Fin 32)
  | ldg (h : Hdr) (d : Fin 64) (a : LaneA) (p : Scope) (r : Order) (t : Hint)
  | ldg2 (h : Hdr) (d : Fin 64) (a : LaneA) (p : Scope) (r : Order) (t : Hint)
  | ldg4 (h : Hdr) (d : Fin 64) (a : LaneA) (p : Scope) (r : Order) (t : Hint)
  | stg (h : Hdr) (d : Fin 64) (a : LaneA) (p : Scope) (r : Order) (t : Hint)
  | stg2 (h : Hdr) (d : Fin 64) (a : LaneA) (p : Scope) (r : Order) (t : Hint)
  | stg4 (h : Hdr) (d : Fin 64) (a : LaneA) (p : Scope) (r : Order) (t : Hint)
  | ats (h : Hdr) (d : Fin 64) (a : LaneA) (w : Fin 8) (u : AtFn)
  | atg (h : Hdr) (d : Fin 64) (a : LaneA) (p : Scope) (r : Order) (u : AtFn)
  | atgx (h : Hdr) (d : Fin 64) (a : LaneA) (p : Scope) (r : Order) (u : AtxFn)
  | prf (h : Hdr) (a : LaneA) (t : Hint)
  | nop (h : Hdr)
  | bra (h : Hdr) (o : Fin 524288)
  | brx (h : Hdr) (b : Fin 64)
  | call (h : Hdr) (o : Fin 524288)
  | callx (h : Hdr) (b : Fin 64)
  | ret (h : Hdr)
  | exit (h : Hdr)
  | loop (h : Hdr) (l : Fin 3) (n : Fin 256) (b : Fin 64)
  | loopi (h : Hdr) (l : Fin 3) (n : Fin 256) (c : Fin 512)
  | lbrk (h : Hdr)
  | spawn (h : Hdr) (e : Fin 64) (a : Fin 64)
  | spawng (h : Hdr) (a : Fin 64) (d : Fin 64) (n : Fin 64)
  | yield (h : Hdr)
  | trace (h : Hdr) (r : Fin 64) (c : Fin 64) (p : Fin 64) (y : Bool)
  | dqpop (h : Hdr) (d : Fin 64)
  | getsr (h : Hdr) (d : Fin 64) (r : Fin 23) (w : Option (Fin 64))
  | bar (h : Hdr) (j : Fin 64)
  | bara (h : Hdr) (j : Fin 64)
  | barw (h : Hdr) (j : Fin 64) (p : Fin 64)
  | gbar (h : Hdr)
  | fence (h : Hdr) (p : Scope) (r : Order)
  | mset (h : Hdr) (m : MsetArg)
  | syncm (h : Hdr)
  | shfl (h : Hdr) (d : Fin 64) (c : ShufSrc) (b : Fin 64)
  | shflx (h : Hdr) (d : Fin 64) (c : ShufSrc) (b : Fin 64)
  | shflu (h : Hdr) (d : Fin 64) (c : ShufSrc) (b : Fin 64)
  | shfld (h : Hdr) (d : Fin 64) (c : ShufSrc) (b : Fin 64)
  | vote (h : Hdr) (k : Fin 8) (q : Fin 8) (n : Bool) (f : VoteFn)
  | ballot (h : Hdr) (d : Fin 64) (q : Fin 8) (n : Bool)
  | sred (h : Hdr) (d : Fin 64) (f : RedFn) (b : Fin 64)
  | sscan (h : Hdr) (d : Fin 64) (f : RedFn) (x : Bool) (b : Fin 64)
  | cmmab (h : Hdr) (e : Fin 4) (a : Fin 16) (b : Fin 16) (t : CmmabTy)
  | cmmaq (h : Hdr) (e : Fin 4) (a : Fin 16) (b : Fin 16) (t : CmmaqTy)
  | tstore (h : Hdr) (b : Fin 64) (t : Fin 16) (c : Fin 8) (n : Fin 4)
  | tdrain (h : Hdr) (d : Fin 64) (c : Fin 16) (sel : TdrainSel)
  | pset (h : Hdr) (k : Fin 8) (a : Fin 8) (b : Fin 8) (o : LogicOp) (m : Bool) (n : Bool)
  | pmov (h : Hdr) (mv : PmovArg)
  | tbegin (h : Hdr) (o : Fin 524288)
  | tend (h : Hdr)
  | tabort (h : Hdr) (c : Fin 256)
  | trap (h : Hdr) (c : Fin 65536)
  | eretLane (h : Hdr)
  | bpt (h : Hdr) (c : Fin 65536)
  | qhop (h : Hdr) (d : Fin 64) (a : LaneA) (b : Fin 64)
  | sadd (h : Hdr) (d : Fin 32) (a : UniA) (b : UniB)
  | ssub (h : Hdr) (d : Fin 32) (a : UniA) (b : UniB)
  | ssubr (h : Hdr) (d : Fin 32) (a : UniA) (b : UniB)
  | smul (h : Hdr) (d : Fin 32) (a : UniA) (b : UniB)
  | smulhi (h : Hdr) (d : Fin 32) (a : UniA) (b : UniB)
  | snmulhi (h : Hdr) (d : Fin 32) (a : UniA) (b : UniB)
  | smad (h : Hdr) (d : Fin 32) (a : UniA) (b : UniB)
  | smin (h : Hdr) (d : Fin 32) (a : UniA) (b : UniB)
  | smax (h : Hdr) (d : Fin 32) (a : UniA) (b : UniB)
  | snmin (h : Hdr) (d : Fin 32) (a : UniA) (b : UniB)
  | snmax (h : Hdr) (d : Fin 32) (a : UniA) (b : UniB)
  | sand (h : Hdr) (d : Fin 32) (a : UniA) (b : UniB)
  | sor (h : Hdr) (d : Fin 32) (a : UniA) (b : UniB)
  | sxor (h : Hdr) (d : Fin 32) (a : UniA) (b : UniB)
  | sandn (h : Hdr) (d : Fin 32) (a : UniA) (b : UniB)
  | sshl (h : Hdr) (d : Fin 32) (a : UniA) (b : UniB)
  | sshr (h : Hdr) (d : Fin 32) (a : UniA) (b : UniB)
  | ssar (h : Hdr) (d : Fin 32) (a : UniA) (b : UniB)
  | sbfx (h : Hdr) (d : Fin 32) (a : UniA) (b : UniB)
  | sbfi (h : Hdr) (d : Fin 32) (a : UniA) (b : UniB)
  | spopc (h : Hdr) (d : Fin 32) (b : UniB)
  | sclz (h : Hdr) (d : Fin 32) (b : UniB)
  | smov (h : Hdr) (d : Fin 32) (b : UniB)
  | sadd64 (h : Hdr) (d : Fin 32) (a : UniA) (b : UniB)
  | ssub64 (h : Hdr) (d : Fin 32) (a : UniA) (b : UniB)
  | scmp (h : Hdr) (k : Fin 8) (c : UCond) (a : UniA) (b : UniB)
  | sncmp (h : Hdr) (k : Fin 8) (c : UCond) (a : UniA) (b : UniB)
  | sfadd (h : Hdr) (d : Fin 32) (a : UniA) (b : UniB)
  | sfmul (h : Hdr) (d : Fin 32) (a : UniA) (b : UniB)
  | sffma (h : Hdr) (d : Fin 32) (a : UniA) (b : UniB)
  | sfcmp (h : Hdr) (k : Fin 8) (c : UCond) (a : UniA) (b : UniB)
  | scvt (h : Hdr) (d : Fin 32) (e : Fin 64) (b : UniB)
  | ssel (h : Hdr) (d : Fin 32) (a : UniA) (b : UniB)
  | sldg (h : Hdr) (d : Fin 32) (a : UniA) (p : Scope) (r : Order) (f : Fin 32)
  | sldg2 (h : Hdr) (d : Fin 32) (a : UniA) (p : Scope) (r : Order) (f : Fin 32)
  | sldg4 (h : Hdr) (d : Fin 32) (a : UniA) (p : Scope) (r : Order) (f : Fin 32)
  | sstg (h : Hdr) (d : Fin 32) (a : UniA) (p : Scope) (r : Order) (f : Fin 32)
  | sstg2 (h : Hdr) (d : Fin 32) (a : UniA) (p : Scope) (r : Order) (f : Fin 32)
  | slds (h : Hdr) (d : Fin 32) (a : UniA) (w : Fin 8) (f : Fin 128)
  | ssts (h : Hdr) (d : Fin 32) (a : UniA) (w : Fin 8) (f : Fin 128)
  | satg (h : Hdr) (d : Fin 32) (a : UniA) (p : Scope) (r : Order) (u : AtFn)
  | sldk (h : Hdr) (d : Fin 32) (a : UniA) (f : Fin 128)
  | sprf (h : Hdr) (a : UniA) (f : Fin 32)
  | mmaBf16 (h : Hdr) (m : MmaArgs)
  | mmaFp16 (h : Hdr) (m : MmaArgs)
  | mmaE4 (h : Hdr) (m : MmaArgs)
  | mmaE5 (h : Hdr) (m : MmaArgs)
  | mmaF6a (h : Hdr) (m : MmaArgs)
  | mmaF6b (h : Hdr) (m : MmaArgs)
  | mmaF4 (h : Hdr) (m : MmaArgs)
  | mmaMx4 (h : Hdr) (m : MmaArgs) (t : MmaLit)
  | mmaMx6a (h : Hdr) (m : MmaArgs) (t : MmaLit)
  | mmaMx8 (h : Hdr) (m : MmaArgs) (t : MmaLit)
  | mmaI8 (h : Hdr) (m : MmaArgs)
  | mmaI4 (h : Hdr) (m : MmaArgs)
  | mmaI8bf (h : Hdr) (m : MmaArgs) (t : MmaLit)
  | mmaI8e4 (h : Hdr) (m : MmaArgs) (t : MmaLit)
  | mmaBfmx4 (h : Hdr) (m : MmaArgs) (t : MmaLit)
  | mmaE4bf (h : Hdr) (m : MmaArgs) (t : MmaLit)
  | medge (h : Hdr) (c : Fin 16) (v : Fin 16) (w : Fin 8)
  | mfilt (h : Hdr) (c : Fin 16) (t : Fin 16) (w : Fin 8) (x : TxFmt)
  | mblend (h : Hdr) (c : Fin 16) (t : Fin 16) (p : Fin 16)
  | mblendb (h : Hdr) (c : Fin 16) (t : Fin 16) (p : Fin 16) (q : Fin 16)
  | mdrain (h : Hdr) (c : Fin 16) (n : Fin 8) (f : DrainFmt) (r : Rnd) (x : Bool)
  | mspill (h : Hdr) (c : Fin 16) (n : Fin 8)
  | mfill (h : Hdr) (c : Fin 16) (n : Fin 8)
  | macc (h : Hdr) (c : Fin 16) (n : Fin 8)
  | mzero (h : Hdr) (c : Fin 16) (l : TileClass)
  | mwait (h : Hdr)
  | mcfg (h : Hdr) (e : McfgSel) (b : Fin 32)
  | wload (h : Hdr) (w : Fin 8) (n : Fin 8) (k : Rank)
  | tload (h : Hdr) (t : Fin 16) (m : Fin 16) (n : Fin 8)
  | tcopy (h : Hdr) (d : Fin 32) (j : Fin 32) (p : Place)
  | tcopym (h : Hdr) (d : Fin 32) (j : Fin 32) (p : Place)
  | gather (h : Hdr) (d : Fin 32) (j : Fin 32) (p : Place)
  | scatter (h : Hdr) (d : Fin 32) (j : Fin 32) (p : Place)
  | sortk (h : Hdr) (d : Fin 32) (j : Fin 32) (p : Place)
  | route (h : Hdr) (d : Fin 32) (j : Fin 32) (p : Place)
  | coll (h : Hdr) (d : Fin 32) (j : Fin 32) (p : Place)
  | cfence (h : Hdr)
  | beamgo (h : Hdr) (d : Fin 32)
  | beamgoReq (h : Hdr) (d : Fin 32) (n : Fin 32)
  | barnew (h : Hdr) (d : Fin 32) (c : Fin 32) (v : Bool)
  | barfree (h : Hdr) (j : Fin 32)
  | barexp (h : Hdr) (j : Fin 32) (b : Fin 32)
  | sbar (h : Hdr) (j : Fin 32) (w : SbarArg)
  | sbara (h : Hdr) (j : Fin 32)
  | sstep (h : Hdr)
  | dqpush (h : Hdr) (a : Fin 32)
  | dqclose (h : Hdr)
  | snop (h : Hdr)
  | sbra (h : Hdr) (o : Fin 524288)
  | sbrx (h : Hdr) (b : Fin 32)
  | scall (h : Hdr) (o : Fin 524288)
  | sret (h : Hdr)
  | sloop (h : Hdr) (l : Fin 3) (n : Fin 256) (b : Fin 32)
  | sloopi (h : Hdr) (l : Fin 3) (n : Fin 256) (c : Fin 512)
  | slbrk (h : Hdr)
  | sexit (h : Hdr)
  | swaits (h : Hdr)
  | sfence (h : Hdr) (p : Scope) (r : Order)
  | syield (h : Hdr)
  | sgetsr (h : Hdr) (d : Fin 32) (r : Fin 23) (w : Option (Fin 32))
  | timewait (h : Hdr) (a : Fin 32) (x : Bool)
  | strap (h : Hdr) (c : Fin 65536)
  | sbpt (h : Hdr) (c : Fin 65536)
  | eret (h : Hdr)
  | csrr (h : Hdr) (d : Fin 32) (a : Fin 32)
  | csrw (h : Hdr) (b : Fin 32) (a : Fin 32)
  | pginv (h : Hdr) (a : Fin 32) (z : PgSize)
  | halt (h : Hdr) (c : Fin 32)
  | snap (h : Hdr) (t : Fin 32768)
  | logmark (h : Hdr) (a : Fin 32)
  | digest (h : Hdr) (a : Fin 32)
  | sspawng (h : Hdr) (a : Fin 32) (d : Fin 32) (n : Fin 32)
  | qpset (h : Hdr) (k : Fin 8) (a : Fin 8) (b : Fin 8) (o : LogicOp) (m : Bool) (n : Bool)
  deriving DecidableEq, Repr

end Sys2Proof
end

