-- ==== Sys2Proof/WellFormed.lean ====
section
/-! DEFINITION. Which instructions the encodings admit: the reserved values and combinations of 04 R84 and R106 that the operand types do not already shut out. -/

namespace Sys2Proof

/-- A lane operand A that may stand in a 64-bit position: slots 116 and 118 may not (R89). -/
def LaneA.ok64 : LaneA → Bool
  | .slot n => n.val != 20 && n.val != 22
  | _ => true

/-- A uniform operand A that may stand in a 64-bit position: specials 44 and 46 may not (R93). -/
def UniA.ok64 : UniA → Bool
  | .sp n => n.val != 12 && n.val != 14
  | _ => true

/-- A uniform operand B that may stand in a 64-bit position (R93). -/
def UniB.ok64 : UniB → Bool
  | .sp n => n.val != 12 && n.val != 14
  | _ => true

/-- A class UA word takes at most one literal (R93, R106). -/
def oneLiteral : UniA → UniB → Bool
  | .lit _, .lit _ => false
  | _, _ => true

/-- The reserved combinations of SCOPE and ORDER in loads and stores (R91). -/
def accessOk (store : Bool) (p : Scope) (r : Order) : Bool :=
  (r == .relaxed || p != .plain) &&
    (r == .relaxed || r == (if store then Order.release else Order.acquire))

/-- An atomic names a scope (R91). -/
def atomicOk (p : Scope) : Bool := p != .plain

/-- The conversion codes of CVT and SCVT (R121). -/
def cvtOk (e : Fin 64) : Bool := e.val < 0x22

/-- The conversion codes of CVTQ (R121). -/
def cvtqOk (e : Fin 64) : Bool := 0x30 ≤ e.val && e.val < 0x38

/-- CVTQ codes 0x35 and 0x36 read operand A as 64 bits (R121). -/
def cvtqWide (e : Fin 64) : Bool := e.val == 0x35 || e.val == 0x36

/-- DM is permitted with the form (R165). -/
def Dm.permits : Dm → MmaForm → Bool
  | .dense, _ => true
  | .sparse, _ => true
  | .expand, f => f == .mmaBf16 || f == .mmaE4bf
  | .absorb, f => f == .mmaBf16

/-- SCM and the scale fields are legal for the form (R96). -/
def MmaLit.okFor (l : MmaLit) (f : MmaForm) : Bool :=
  if f == .mmaI8e4 || f == .mmaBfmx4 then
    l.ones && l.sstr.val == 0 && l.svb.val == 0 && l.sel.val == 0
  else true

/-- A TDRAIN rounding: RSR is reserved (R192). -/
def TdrainSel.ok : TdrainSel → Bool
  | .body _ r _ => r != .rsr
  | .hdr _ => true

/-- QHOP takes no literal (R92). -/
def LaneA.noLit : LaneA → Bool
  | .lit _ => false
  | _ => true

/-- The words the encodings admit. An event is admitted whatever its arguments: what it acts on is looked up when it happens. -/
def Instr.wf : Instr → Bool
  | .cmdNop .. => true
  | .launch .. => true
  | .waitev .. => true
  | .waitevSatisfied .. => true
  | .signal .. => true
  | .qcfgWrite .. => true
  | .qstatResume .. => true
  | .queueTailWrite .. => true
  | .registerWrite .. => true
  | .groveDispatch .. => true
  | .cogridDispatch .. => true
  | .nodeGroveDispatch .. => true
  | .contqFallback .. => true
  | .coreHandover .. => true
  | .groveRetire .. => true
  | .segmentCommit .. => true
  | .loadAtHome .. => true
  | .loadReturn .. => true
  | .storeArrival .. => true
  | .atomicAtHome .. => true
  | .clusterJunctionRelease .. => true
  | .engineLineWrite .. => true
  | .serialTokenGrant .. => true
  | .txnLineUnlock .. => true
  | .txnCommitComplete .. => true
  | .snpData .. => true
  | .snpInv .. => true
  | .snpCur .. => true
  | .snoopResponse .. => true
  | .hubEviction .. => true
  | .hostMemRead .. => true
  | .hostMemWrite .. => true
  | .biRspI .. => true
  | .peerAccessArrival .. => true
  | .peerStoreAck .. => true
  | .gatheringComplete .. => true
  | .barrierTimeout .. => true
  | .replayWaitTimeout .. => true
  | .sstepRelease .. => true
  | .seedbedTimerExpiry .. => true
  | .seedlingStandLaunch .. => true
  | .bteRayDone .. => true
  | .beamComplete .. => true
  | .atlasRequestComplete .. => true
  | .sequencerChunk .. => true
  | .arrayCommandComplete .. => true
  | .loaderSlot .. => true
  | .tileLoadComplete .. => true
  | .pendingTrapDelivery .. => true
  | .engineCommandComplete .. => true
  | .collTimeout .. => true
  | .timewaitDeadline .. => true
  | .pginvComplete .. => true
  | .dfactRelease .. => true
  | .dfactKill .. => true
  | .haltInPlaceRequest .. => true
  | .haltReport .. => true
  | .contextResume .. => true
  | .contextSwitch .. => true
  | .drainWatchdog .. => true
  | .temporalSliceExpiry .. => true
  | .clusterGrant .. => true
  | .ctxcfgEnable .. => true
  | .ctxcfgEnd .. => true
  | .powerOn .. => true
  | .deviceReset .. => true
  | .cxlHotReset .. => true
  | .freqreqWrite .. => true
  | .frequencyStep .. => true
  | .relockEnd .. => true
  | .powerLimitAction .. => true
  | .carveWrite .. => true
  | .snapstatFree => true
  | .snapshotExternal => true
  | .mailboxAttest => true
  | .mailboxExtend .. => true
  | .attestAnswerReady => true
  | .scrubPass .. => true
  | .spareLaneTestDone .. => true
  | .supplySag .. => true
  | .sagLevelLower .. => true
  | .uncorrectableError .. => true
  | .hbmStackFailure .. => true
  | .linkFailure .. => true
  | .dieUnresponsive .. => true
  | .verifyCompare .. => true
  | .releasePerformed .. => true
  | .cxlCacheResponse .. => true
  | .expanderFailure .. => true
  | .iadd .. => true
  | .isub .. => true
  | .isubr .. => true
  | .imul .. => true
  | .imulhi .. => true
  | .nmulhi .. => true
  | .imad .. => true
  | .imin .. => true
  | .imax .. => true
  | .nmin .. => true
  | .nmax .. => true
  | .iabs .. => true
  | .and .. => true
  | .or .. => true
  | .xor .. => true
  | .andn .. => true
  | .shl .. => true
  | .shr .. => true
  | .sar .. => true
  | .rotl .. => true
  | .bfx .. => true
  | .bfxs .. => true
  | .bfi .. => true
  | .popc .. => true
  | .clz .. => true
  | .ctz .. => true
  | .brev .. => true
  | .iadd64 _ _ a _ => a.ok64
  | .isub64 _ _ a _ => a.ok64
  | .imul64 _ _ a _ => a.ok64
  | .shl64 .. => true
  | .shr64 .. => true
  | .icmp _ k _ _ _ => k.val != 0
  | .ncmp _ k _ _ _ => k.val != 0
  | .mov .. => true
  | .mov64 _ _ a => a.ok64
  | .iadds .. => true
  | .isubs .. => true
  | .dot4i .. => true
  | .dot4n .. => true
  | .pack .. => true
  | .permb .. => true
  | .xswz .. => true
  | .fadd .. => true
  | .fsub .. => true
  | .fmul .. => true
  | .ffma .. => true
  | .ffms .. => true
  | .fmin .. => true
  | .fmax .. => true
  | .fminn .. => true
  | .fmaxn .. => true
  | .fabs .. => true
  | .fneg .. => true
  | .fcmp _ k _ _ _ => k.val != 0
  | .fclass .. => true
  | .frnd .. => true
  | .fldexp .. => true
  | .ffract .. => true
  | .hadd2 .. => true
  | .hmul2 .. => true
  | .hfma2 .. => true
  | .hmin2 .. => true
  | .hmax2 .. => true
  | .badd2 .. => true
  | .bmul2 .. => true
  | .bfma2 .. => true
  | .hcmp2 _ k _ _ _ => k.val != 0 && k.val != 7
  | .cvt _ _ _ e => cvtOk e
  | .cvtq _ _ a e => cvtqOk e && (!cvtqWide e || a.ok64)
  | .sfn .. => true
  | .fdot2 .. => true
  | .hdot2 .. => true
  | .qdot4 .. => true
  | .fsat .. => true
  | .lds .. => true
  | .lds2 .. => true
  | .lds4 .. => true
  | .sts .. => true
  | .sts2 .. => true
  | .sts4 .. => true
  | .ldg _ _ a p r _ => a.ok64 && accessOk false p r
  | .ldg2 _ _ a p r _ => a.ok64 && accessOk false p r
  | .ldg4 _ _ a p r _ => a.ok64 && accessOk false p r
  | .stg _ _ a p r _ => a.ok64 && accessOk true p r
  | .stg2 _ _ a p r _ => a.ok64 && accessOk true p r
  | .stg4 _ _ a p r _ => a.ok64 && accessOk true p r
  | .ats .. => true
  | .atg _ _ a p _ _ => a.ok64 && atomicOk p
  | .atgx _ _ a p _ _ => a.ok64 && atomicOk p
  | .prf _ a _ => a.ok64
  | .nop .. => true
  | .bra .. => true
  | .brx .. => true
  | .call .. => true
  | .callx .. => true
  | .ret .. => true
  | .exit .. => true
  | .loop .. => true
  | .loopi .. => true
  | .lbrk .. => true
  | .spawn .. => true
  | .spawng .. => true
  | .yield .. => true
  | .trace .. => true
  | .dqpop .. => true
  | .getsr .. => true
  | .bar .. => true
  | .bara .. => true
  | .barw .. => true
  | .gbar .. => true
  | .fence _ p r => p != .plain && r != .relaxed
  | .mset .. => true
  | .syncm .. => true
  | .shfl .. => true
  | .shflx .. => true
  | .shflu .. => true
  | .shfld .. => true
  | .vote _ k _ _ _ => k.val != 0
  | .ballot .. => true
  | .sred .. => true
  | .sscan .. => true
  | .cmmab .. => true
  | .cmmaq .. => true
  | .tstore .. => true
  | .tdrain _ _ _ sel => sel.ok
  | .pset _ k _ _ _ _ _ => k.val != 0
  | .pmov .. => true
  | .tbegin .. => true
  | .tend .. => true
  | .tabort .. => true
  | .trap .. => true
  | .eretLane .. => true
  | .bpt .. => true
  | .qhop _ _ a _ => a.noLit && a.ok64
  | .sadd _ _ a b => oneLiteral a b
  | .ssub _ _ a b => oneLiteral a b
  | .ssubr _ _ a b => oneLiteral a b
  | .smul _ _ a b => oneLiteral a b
  | .smulhi _ _ a b => oneLiteral a b
  | .snmulhi _ _ a b => oneLiteral a b
  | .smad _ _ a b => oneLiteral a b
  | .smin _ _ a b => oneLiteral a b
  | .smax _ _ a b => oneLiteral a b
  | .snmin _ _ a b => oneLiteral a b
  | .snmax _ _ a b => oneLiteral a b
  | .sand _ _ a b => oneLiteral a b
  | .sor _ _ a b => oneLiteral a b
  | .sxor _ _ a b => oneLiteral a b
  | .sandn _ _ a b => oneLiteral a b
  | .sshl _ _ a b => oneLiteral a b
  | .sshr _ _ a b => oneLiteral a b
  | .ssar _ _ a b => oneLiteral a b
  | .sbfx _ _ a b => oneLiteral a b
  | .sbfi _ _ a b => oneLiteral a b
  | .spopc .. => true
  | .sclz .. => true
  | .smov .. => true
  | .sadd64 _ _ a b => oneLiteral a b && a.ok64 && b.ok64
  | .ssub64 _ _ a b => oneLiteral a b && a.ok64 && b.ok64
  | .scmp _ k _ a b => k.val != 0 && oneLiteral a b
  | .sncmp _ k _ a b => k.val != 0 && oneLiteral a b
  | .sfadd _ _ a b => oneLiteral a b
  | .sfmul _ _ a b => oneLiteral a b
  | .sffma _ _ a b => oneLiteral a b
  | .sfcmp _ k _ a b => k.val != 0 && oneLiteral a b
  | .scvt _ _ e _ => cvtOk e
  | .ssel _ _ a b => oneLiteral a b
  | .sldg _ _ a p r _ => a.ok64 && accessOk false p r
  | .sldg2 _ _ a p r _ => a.ok64 && accessOk false p r
  | .sldg4 _ _ a p r _ => a.ok64 && accessOk false p r
  | .sstg _ _ a p r _ => a.ok64 && accessOk true p r
  | .sstg2 _ _ a p r _ => a.ok64 && accessOk true p r
  | .slds .. => true
  | .ssts .. => true
  | .satg _ _ a p _ _ => a.ok64 && atomicOk p
  | .sldk .. => true
  | .sprf _ a _ => a.ok64
  | .mmaBf16 _ m => m.dm.permits .mmaBf16
  | .mmaFp16 _ m => m.dm.permits .mmaFp16
  | .mmaE4 _ m => m.dm.permits .mmaE4
  | .mmaE5 _ m => m.dm.permits .mmaE5
  | .mmaF6a _ m => m.dm.permits .mmaF6a
  | .mmaF6b _ m => m.dm.permits .mmaF6b
  | .mmaF4 _ m => m.dm.permits .mmaF4
  | .mmaMx4 _ m t => m.dm.permits .mmaMx4 && t.okFor .mmaMx4
  | .mmaMx6a _ m t => m.dm.permits .mmaMx6a && t.okFor .mmaMx6a
  | .mmaMx8 _ m t => m.dm.permits .mmaMx8 && t.okFor .mmaMx8
  | .mmaI8 _ m => m.dm.permits .mmaI8
  | .mmaI4 _ m => m.dm.permits .mmaI4
  | .mmaI8bf _ m t => m.dm.permits .mmaI8bf && t.okFor .mmaI8bf
  | .mmaI8e4 _ m t => m.dm.permits .mmaI8e4 && t.okFor .mmaI8e4
  | .mmaBfmx4 _ m t => m.dm.permits .mmaBfmx4 && t.okFor .mmaBfmx4
  | .mmaE4bf _ m t => m.dm.permits .mmaE4bf && t.okFor .mmaE4bf
  | .medge .. => true
  | .mfilt .. => true
  | .mblend .. => true
  | .mblendb .. => true
  | .mdrain .. => true
  | .mspill .. => true
  | .mfill .. => true
  | .macc .. => true
  | .mzero .. => true
  | .mwait .. => true
  | .mcfg .. => true
  | .wload .. => true
  | .tload .. => true
  | .tcopy .. => true
  | .tcopym .. => true
  | .gather .. => true
  | .scatter .. => true
  | .sortk .. => true
  | .route .. => true
  | .coll .. => true
  | .cfence .. => true
  | .beamgo .. => true
  | .beamgoReq .. => true
  | .barnew .. => true
  | .barfree .. => true
  | .barexp .. => true
  | .sbar .. => true
  | .sbara .. => true
  | .sstep .. => true
  | .dqpush .. => true
  | .dqclose .. => true
  | .snop .. => true
  | .sbra .. => true
  | .sbrx .. => true
  | .scall .. => true
  | .sret .. => true
  | .sloop .. => true
  | .sloopi .. => true
  | .slbrk .. => true
  | .sexit .. => true
  | .swaits .. => true
  | .sfence _ p r => p != .plain && r != .relaxed
  | .syield .. => true
  | .sgetsr .. => true
  | .timewait .. => true
  | .strap .. => true
  | .sbpt .. => true
  | .eret .. => true
  | .csrr .. => true
  | .csrw .. => true
  | .pginv .. => true
  | .halt .. => true
  | .snap .. => true
  | .logmark .. => true
  | .digest .. => true
  | .sspawng .. => true
  | .qpset _ k _ _ _ _ _ => k.val != 0

end Sys2Proof
end

