-- ==== Sys2Proof/Decode.lean ====
section
/-! DEFINITION. The decoder of lane and uniform words with the refusals of 04 R84 and R106, and the encoder of the same tables. A refusal is the DETAIL of ILLEGAL_ENCODING: 2 a reserved opcode, 3 a reserved value, 4 a reserved slot or register number, 5 nonzero must-be-zero bits, 6 two literals. -/

namespace Sys2Proof

/-- The code of Scope: its place in the spec's table. -/
def Scope.code : Scope → Nat
  | .plain => 0
  | .strand => 1
  | .grove => 2
  | .cluster => 3
  | .die => 4
  | .device => 5
  | .system => 6

/-- The Scope that a code names. -/
def Scope.ofCode : Nat → Option Scope
  | 0 => some .plain
  | 1 => some .strand
  | 2 => some .grove
  | 3 => some .cluster
  | 4 => some .die
  | 5 => some .device
  | 6 => some .system
  | _ => none

/-- The code of Order: its place in the spec's table. -/
def Order.code : Order → Nat
  | .relaxed => 0
  | .acquire => 1
  | .release => 2
  | .acqRel => 3

/-- The Order that a code names. -/
def Order.ofCode : Nat → Option Order
  | 0 => some .relaxed
  | 1 => some .acquire
  | 2 => some .release
  | 3 => some .acqRel
  | _ => none

/-- The code of Hint: its place in the spec's table. -/
def Hint.code : Hint → Nat
  | .normal => 0
  | .stream => 1
  | .keep => 2
  | .bypassL1 => 3
  | .nonTemporal => 4

/-- The Hint that a code names. -/
def Hint.ofCode : Nat → Option Hint
  | 0 => some .normal
  | 1 => some .stream
  | 2 => some .keep
  | 3 => some .bypassL1
  | 4 => some .nonTemporal
  | _ => none

/-- The code of FCond: its place in the spec's table. -/
def FCond.code : FCond → Nat
  | .eq => 0
  | .ne => 1
  | .lt => 2
  | .le => 3
  | .gt => 4
  | .ge => 5
  | .ord => 6
  | .uno => 7

/-- The FCond that a code names. -/
def FCond.ofCode : Nat → Option FCond
  | 0 => some .eq
  | 1 => some .ne
  | 2 => some .lt
  | 3 => some .le
  | 4 => some .gt
  | 5 => some .ge
  | 6 => some .ord
  | 7 => some .uno
  | _ => none

/-- The code of ICond: its place in the spec's table. -/
def ICond.code : ICond → Nat
  | .eq => 0
  | .ne => 1
  | .lt => 2
  | .le => 3
  | .gt => 4
  | .ge => 5

/-- The ICond that a code names. -/
def ICond.ofCode : Nat → Option ICond
  | 0 => some .eq
  | 1 => some .ne
  | 2 => some .lt
  | 3 => some .le
  | 4 => some .gt
  | 5 => some .ge
  | _ => none

/-- The code of UCond: its place in the spec's table. -/
def UCond.code : UCond → Nat
  | .eq => 0
  | .ne => 1
  | .lt => 2
  | .ge => 3

/-- The UCond that a code names. -/
def UCond.ofCode : Nat → Option UCond
  | 0 => some .eq
  | 1 => some .ne
  | 2 => some .lt
  | 3 => some .ge
  | _ => none

/-- The code of RndSel: its place in the spec's table. -/
def RndSel.code : RndSel → Nat
  | .rne => 0
  | .rtz => 1
  | .rup => 2
  | .rdn => 3
  | .fpc => 4

/-- The RndSel that a code names. -/
def RndSel.ofCode : Nat → Option RndSel
  | 0 => some .rne
  | 1 => some .rtz
  | 2 => some .rup
  | 3 => some .rdn
  | 4 => some .fpc
  | _ => none

/-- The code of SfnFn: its place in the spec's table. -/
def SfnFn.code : SfnFn → Nat
  | .rcp => 0
  | .rsq => 1
  | .sqrt => 2
  | .exp2 => 3
  | .log2 => 4
  | .sin => 5
  | .cos => 6
  | .tanh => 7
  | .erf => 8

/-- The SfnFn that a code names. -/
def SfnFn.ofCode : Nat → Option SfnFn
  | 0 => some .rcp
  | 1 => some .rsq
  | 2 => some .sqrt
  | 3 => some .exp2
  | 4 => some .log2
  | 5 => some .sin
  | 6 => some .cos
  | 7 => some .tanh
  | 8 => some .erf
  | _ => none

/-- The code of AtFn: its place in the spec's table. -/
def AtFn.code : AtFn → Nat
  | .add => 0
  | .min => 1
  | .max => 2
  | .nmax => 3
  | .and => 4
  | .or => 5
  | .xchg => 6
  | .cas => 7

/-- The AtFn that a code names. -/
def AtFn.ofCode : Nat → Option AtFn
  | 0 => some .add
  | 1 => some .min
  | 2 => some .max
  | 3 => some .nmax
  | 4 => some .and
  | 5 => some .or
  | 6 => some .xchg
  | 7 => some .cas
  | _ => none

/-- The code of AtxFn: its place in the spec's table. -/
def AtxFn.code : AtxFn → Nat
  | .add64 => 0
  | .xchg64 => 1
  | .cas64 => 2
  | .xadd => 3
  | .radd => 4
  | .radd64 => 5
  | .ror => 6
  | .rnmax => 7

/-- The AtxFn that a code names. -/
def AtxFn.ofCode : Nat → Option AtxFn
  | 0 => some .add64
  | 1 => some .xchg64
  | 2 => some .cas64
  | 3 => some .xadd
  | 4 => some .radd
  | 5 => some .radd64
  | 6 => some .ror
  | 7 => some .rnmax
  | _ => none

/-- The code of LogicOp: its place in the spec's table. -/
def LogicOp.code : LogicOp → Nat
  | .and => 0
  | .or => 1
  | .xor => 2

/-- The LogicOp that a code names. -/
def LogicOp.ofCode : Nat → Option LogicOp
  | 0 => some .and
  | 1 => some .or
  | 2 => some .xor
  | _ => none

/-- The code of VoteFn: its place in the spec's table. -/
def VoteFn.code : VoteFn → Nat
  | .all => 0
  | .any => 1
  | .eq => 2

/-- The VoteFn that a code names. -/
def VoteFn.ofCode : Nat → Option VoteFn
  | 0 => some .all
  | 1 => some .any
  | 2 => some .eq
  | _ => none

/-- The code of RedFn: its place in the spec's table. -/
def RedFn.code : RedFn → Nat
  | .add => 0
  | .min => 1
  | .max => 2
  | .nmin => 3
  | .nmax => 4
  | .and => 5
  | .or => 6
  | .xor => 7
  | .fsum => 8
  | .fmin => 9
  | .fmax => 10
  | .add64 => 11

/-- The RedFn that a code names. -/
def RedFn.ofCode : Nat → Option RedFn
  | 0 => some .add
  | 1 => some .min
  | 2 => some .max
  | 3 => some .nmin
  | 4 => some .nmax
  | 5 => some .and
  | 6 => some .or
  | 7 => some .xor
  | 8 => some .fsum
  | 9 => some .fmin
  | 10 => some .fmax
  | 11 => some .add64
  | _ => none

/-- The code of CmmabTy: its place in the spec's table. -/
def CmmabTy.code : CmmabTy → Nat
  | .bf16 => 0
  | .fp16 => 1

/-- The CmmabTy that a code names. -/
def CmmabTy.ofCode : Nat → Option CmmabTy
  | 0 => some .bf16
  | 1 => some .fp16
  | _ => none

/-- The code of CmmaqTy: its place in the spec's table. -/
def CmmaqTy.code : CmmaqTy → Nat
  | .fp8e4 => 0
  | .fp8e5 => 1
  | .i8 => 2

/-- The CmmaqTy that a code names. -/
def CmmaqTy.ofCode : Nat → Option CmmaqTy
  | 0 => some .fp8e4
  | 1 => some .fp8e5
  | 2 => some .i8
  | _ => none

/-- The code of PgSize: its place in the spec's table. -/
def PgSize.code : PgSize → Nat
  | .k64 => 0
  | .m2 => 1
  | .g1 => 2
  | .all => 3

/-- The PgSize that a code names. -/
def PgSize.ofCode : Nat → Option PgSize
  | 0 => some .k64
  | 1 => some .m2
  | 2 => some .g1
  | 3 => some .all
  | _ => none

/-- The code of TxFmt: its place in the spec's table. -/
def TxFmt.code : TxFmt → Nat
  | .fp16 => 0
  | .n8 => 1

/-- The TxFmt that a code names. -/
def TxFmt.ofCode : Nat → Option TxFmt
  | 0 => some .fp16
  | 1 => some .n8
  | _ => none

/-- The code of DrainFmt: its place in the spec's table. -/
def DrainFmt.code : DrainFmt → Nat
  | .fp32 => 0
  | .fp16 => 1
  | .bf16 => 2
  | .fp8e4 => 3
  | .fp8e5 => 4
  | .i32 => 5

/-- The DrainFmt that a code names. -/
def DrainFmt.ofCode : Nat → Option DrainFmt
  | 0 => some .fp32
  | 1 => some .fp16
  | 2 => some .bf16
  | 3 => some .fp8e4
  | 4 => some .fp8e5
  | 5 => some .i32
  | _ => none

/-- The code of Rnd: its place in the spec's table. -/
def Rnd.code : Rnd → Nat
  | .rne => 0
  | .rtz => 1
  | .rup => 2
  | .rdn => 3
  | .rna => 4
  | .rsr => 5

/-- The Rnd that a code names. -/
def Rnd.ofCode : Nat → Option Rnd
  | 0 => some .rne
  | 1 => some .rtz
  | 2 => some .rup
  | 3 => some .rdn
  | 4 => some .rna
  | 5 => some .rsr
  | _ => none

/-- The code of TileClass: its place in the spec's table. -/
def TileClass.code : TileClass → Nat
  | .empty => 0
  | .acw => 1
  | .acn => 2
  | .acz => 3

/-- The TileClass that a code names. -/
def TileClass.ofCode : Nat → Option TileClass
  | 0 => some .empty
  | 1 => some .acw
  | 2 => some .acn
  | 3 => some .acz
  | _ => none

/-- The code of McfgSel: its place in the spec's table. -/
def McfgSel.code : McfgSel → Nat
  | .mcs0 => 0
  | .mcs1 => 1
  | .mcs2 => 2
  | .psel => 3

/-- The McfgSel that a code names. -/
def McfgSel.ofCode : Nat → Option McfgSel
  | 0 => some .mcs0
  | 1 => some .mcs1
  | 2 => some .mcs2
  | 3 => some .psel
  | _ => none

/-- The code of Rank: its place in the spec's table. -/
def Rank.code : Rank → Nat
  | .r64 => 0
  | .r128 => 1
  | .r256 => 2
  | .r512 => 3

/-- The Rank that a code names. -/
def Rank.ofCode : Nat → Option Rank
  | 0 => some .r64
  | 1 => some .r128
  | 2 => some .r256
  | 3 => some .r512
  | _ => none

/-- The code of Place: its place in the spec's table. -/
def Place.code : Place → Nat
  | .issuing => 0
  | .dest => 1
  | .hub => 2

/-- The Place that a code names. -/
def Place.ofCode : Nat → Option Place
  | 0 => some .issuing
  | 1 => some .dest
  | 2 => some .hub
  | _ => none

/-- The code of Dm: its place in the spec's table. -/
def Dm.code : Dm → Nat
  | .dense => 0
  | .sparse => 1
  | .expand => 2
  | .absorb => 3

/-- The Dm that a code names. -/
def Dm.ofCode : Nat → Option Dm
  | 0 => some .dense
  | 1 => some .sparse
  | 2 => some .expand
  | 3 => some .absorb
  | _ => none

/-- The 7-bit code of a lane operand A (R89). -/
def LaneA.code : LaneA → Nat
  | .v r => r.val
  | .s r => 64 + r.val
  | .slot n => 96 + n.val
  | .lit _ => 127

/-- The 6-bit code of a uniform operand A (R93). -/
def UniA.code : UniA → Nat
  | .s r => r.val
  | .sp n => 32 + n.val
  | .lit _ => 63

/-- The 8-bit code of a uniform operand B (R93). -/
def UniB.code : UniB → Nat
  | .s r => r.val
  | .sp n => 32 + n.val
  | .imm n => 64 + n.val
  | .lit _ => 255

/-- MODE and Vb of MSET (R151). -/
def MsetArg.code : MsetArg → Nat
  | .pair b => packBits [(2, 0), (11, 0), (6, b.val)]
  | .dflt => packBits [(2, 1), (11, 0), (6, 0)]
  | .andPair b => packBits [(2, 2), (11, 0), (6, b.val)]

/-- I and C of a shuffle word (R152). -/
def ShufSrc.code : ShufSrc → Nat
  | .imm c => packBits [(1, 1), (6, c.val)]
  | .reg c => packBits [(1, 0), (6, c.val)]

/-- DIR, V and MASK of PMOV (R148). -/
def PmovArg.code : PmovArg → Nat
  | .toPred v m => packBits [(1, 0), (6, v.val), (7, m.val), (5, 0)]
  | .fromPred v => packBits [(1, 1), (6, v.val), (7, 0), (5, 0)]

/-- FMT, RND and CB of TDRAIN (R192). -/
def TdrainSel.code : TdrainSel → Nat
  | .body f r cb => packBits [(3, f.code), (3, r.code), (3, cb.val)]
  | .hdr cb => packBits [(3, 6), (3, 0), (3, cb.val)]

/-- NA and SP of SBAR (R276). -/
def SbarArg.code : SbarArg → Nat
  | .arrive => packBits [(1, 0), (5, 0), (8, 0)]
  | .wait p => packBits [(1, 1), (5, p.val), (8, 0)]

/-- The source field of GETSR: bit W over Vb (R71). -/
def encSrc6 : Option (Fin 64) → Nat
  | none => 0
  | some b => 64 + b.val

/-- The source field of SGETSR: bit W over Sb (R71). -/
def encSrc5 : Option (Fin 32) → Nat
  | none => 0
  | some b => 32 + b.val

/-- Header, class and the 25 bits below them (R81). -/
def encHdr (set cls : Nat) (h : Hdr) (body : Nat) : Nat :=
  packBits [(1, set), (1, b2n h.s), (3, h.g.val), (2, cls), (25, body)]

/-- The 25 bits of a Bin, Ter or Un form (R89). -/
def encDab (op : Nat) (d : Fin 64) (a : LaneA) (b : Fin 64) : Nat :=
  packBits [(6, op), (6, d.val), (7, a.code), (6, b.val)]

/-- The 25 bits of a Pred form (R90). -/
def encPred (op : Nat) (k : Fin 8) (c : Nat) (a : LaneA) (b : Fin 64) : Nat :=
  packBits [(6, op), (6, packBits [(3, k.val), (3, c)]), (7, a.code), (6, b.val)]

/-- The 25 bits of a Sel form (R90). -/
def encSel (op : Nat) (d : Fin 64) (a : LaneA) (e : Nat) : Nat :=
  packBits [(6, op), (6, d.val), (7, a.code), (6, e)]

/-- The 25 bits of a scratchpad word (R91). -/
def encSp (op : Nat) (d : Fin 64) (a : LaneA) (w : Fin 8) (f : Nat) : Nat :=
  packBits [(4, op), (6, d.val), (7, a.code), (8, packBits [(3, w.val), (5, f)])]

/-- The 25 bits of a global word (R91). -/
def encGl (op : Nat) (d : Fin 64) (a : LaneA) (p : Scope) (r : Order) (t : Nat) : Nat :=
  packBits [(4, op), (6, d.val), (7, a.code), (8, packBits [(3, p.code), (2, r.code), (3, t)])]

/-- The 25 bits of a uniform Bin or Ter form (R93). -/
def encU (op : Nat) (d : Fin 32) (a : UniA) (b : UniB) : Nat :=
  packBits [(6, op), (5, d.val), (6, a.code), (8, b.code)]

/-- The 25 bits of a uniform Un or Sel form (R93). -/
def encUsel (op : Nat) (d : Fin 32) (e : Nat) (b : UniB) : Nat :=
  packBits [(6, op), (5, d.val), (6, e), (8, b.code)]

/-- The 25 bits of a uniform Pred form (R93). -/
def encUpred (op : Nat) (k : Fin 8) (c : UCond) (a : UniA) (b : UniB) : Nat :=
  packBits [(6, op), (5, packBits [(3, k.val), (2, c.code)]), (6, a.code), (8, b.code)]

/-- The 25 bits of a uniform global word (R94). -/
def encUgl (op : Nat) (d : Fin 32) (a : UniA) (p : Scope) (r : Order) (f : Nat) : Nat :=
  packBits [(4, op), (5, d.val), (6, a.code), (10, packBits [(3, p.code), (2, r.code), (5, f)])]

/-- The 25 bits of a uniform scratchpad or constant word (R94). -/
def encUsp (op : Nat) (d : Fin 32) (a : UniA) (w : Fin 8) (f : Fin 128) : Nat :=
  packBits [(4, op), (5, d.val), (6, a.code), (10, packBits [(3, w.val), (7, f.val)])]

/-- The 25 bits of an MMA form (R95). -/
def encMma (op : Nat) (m : MmaArgs) : Nat :=
  packBits [(6, op), (19, packBits [(4, m.ac.val), (4, m.ta.val), (3, m.wb.val), (1, b2n m.t), (3, m.dm.code), (4, m.kc.val)])]

/-- The literal of an operand A. -/
def LaneA.literal : LaneA → Option Word
  | .lit w => some w
  | _ => none

/-- The literal of a uniform operand A. -/
def UniA.literal : UniA → Option Word
  | .lit w => some w
  | _ => none

/-- The literal of a uniform operand B. -/
def UniB.literal : UniB → Option Word
  | .lit w => some w
  | _ => none

/-- The literal of the MMA forms R105 marks (R96). -/
def MmaLit.literal (t : MmaLit) : Option Word :=
  some (BitVec.ofNat 32 (packBits [(16, 0), (2, b2n t.ones), (2, t.sel.val), (6, t.svb.val), (6, t.sstr.val)]))

/-- The literal word that follows an instruction, if it has one (R82). -/
def Instr.literal : Instr → Option Word
  | .iadd _ _ a _ => a.literal
  | .isub _ _ a _ => a.literal
  | .isubr _ _ a _ => a.literal
  | .imul _ _ a _ => a.literal
  | .imulhi _ _ a _ => a.literal
  | .nmulhi _ _ a _ => a.literal
  | .imad _ _ a _ => a.literal
  | .imin _ _ a _ => a.literal
  | .imax _ _ a _ => a.literal
  | .nmin _ _ a _ => a.literal
  | .nmax _ _ a _ => a.literal
  | .iabs _ _ a => a.literal
  | .and _ _ a _ => a.literal
  | .or _ _ a _ => a.literal
  | .xor _ _ a _ => a.literal
  | .andn _ _ a _ => a.literal
  | .shl _ _ a _ => a.literal
  | .shr _ _ a _ => a.literal
  | .sar _ _ a _ => a.literal
  | .rotl _ _ a _ => a.literal
  | .bfx _ _ a _ => a.literal
  | .bfxs _ _ a _ => a.literal
  | .bfi _ _ a _ => a.literal
  | .popc _ _ a => a.literal
  | .clz _ _ a => a.literal
  | .ctz _ _ a => a.literal
  | .brev _ _ a => a.literal
  | .iadd64 _ _ a _ => a.literal
  | .isub64 _ _ a _ => a.literal
  | .imul64 _ _ a _ => a.literal
  | .shl64 _ _ a _ => a.literal
  | .shr64 _ _ a _ => a.literal
  | .icmp _ _ _ a _ => a.literal
  | .ncmp _ _ _ a _ => a.literal
  | .mov _ _ a => a.literal
  | .mov64 _ _ a => a.literal
  | .iadds _ _ a _ => a.literal
  | .isubs _ _ a _ => a.literal
  | .dot4i _ _ a _ => a.literal
  | .dot4n _ _ a _ => a.literal
  | .pack _ _ a _ => a.literal
  | .permb _ _ a _ => a.literal
  | .xswz _ _ a _ => a.literal
  | .fadd _ _ a _ => a.literal
  | .fsub _ _ a _ => a.literal
  | .fmul _ _ a _ => a.literal
  | .ffma _ _ a _ => a.literal
  | .ffms _ _ a _ => a.literal
  | .fmin _ _ a _ => a.literal
  | .fmax _ _ a _ => a.literal
  | .fminn _ _ a _ => a.literal
  | .fmaxn _ _ a _ => a.literal
  | .fabs _ _ a => a.literal
  | .fneg _ _ a => a.literal
  | .fcmp _ _ _ a _ => a.literal
  | .fclass _ _ a => a.literal
  | .frnd _ _ a _ => a.literal
  | .fldexp _ _ a _ => a.literal
  | .ffract _ _ a => a.literal
  | .hadd2 _ _ a _ => a.literal
  | .hmul2 _ _ a _ => a.literal
  | .hfma2 _ _ a _ => a.literal
  | .hmin2 _ _ a _ => a.literal
  | .hmax2 _ _ a _ => a.literal
  | .badd2 _ _ a _ => a.literal
  | .bmul2 _ _ a _ => a.literal
  | .bfma2 _ _ a _ => a.literal
  | .hcmp2 _ _ _ a _ => a.literal
  | .cvt _ _ a _ => a.literal
  | .cvtq _ _ a _ => a.literal
  | .sfn _ _ a _ => a.literal
  | .fdot2 _ _ a _ => a.literal
  | .hdot2 _ _ a _ => a.literal
  | .qdot4 _ _ a _ => a.literal
  | .fsat _ _ a => a.literal
  | .lds _ _ a _ _ => a.literal
  | .lds2 _ _ a _ _ => a.literal
  | .lds4 _ _ a _ _ => a.literal
  | .sts _ _ a _ _ => a.literal
  | .sts2 _ _ a _ _ => a.literal
  | .sts4 _ _ a _ _ => a.literal
  | .ldg _ _ a _ _ _ => a.literal
  | .ldg2 _ _ a _ _ _ => a.literal
  | .ldg4 _ _ a _ _ _ => a.literal
  | .stg _ _ a _ _ _ => a.literal
  | .stg2 _ _ a _ _ _ => a.literal
  | .stg4 _ _ a _ _ _ => a.literal
  | .ats _ _ a _ _ => a.literal
  | .atg _ _ a _ _ _ => a.literal
  | .atgx _ _ a _ _ _ => a.literal
  | .prf _ a _ => a.literal
  | .sadd _ _ a b => (a.literal).orElse fun _ => b.literal
  | .ssub _ _ a b => (a.literal).orElse fun _ => b.literal
  | .ssubr _ _ a b => (a.literal).orElse fun _ => b.literal
  | .smul _ _ a b => (a.literal).orElse fun _ => b.literal
  | .smulhi _ _ a b => (a.literal).orElse fun _ => b.literal
  | .snmulhi _ _ a b => (a.literal).orElse fun _ => b.literal
  | .smad _ _ a b => (a.literal).orElse fun _ => b.literal
  | .smin _ _ a b => (a.literal).orElse fun _ => b.literal
  | .smax _ _ a b => (a.literal).orElse fun _ => b.literal
  | .snmin _ _ a b => (a.literal).orElse fun _ => b.literal
  | .snmax _ _ a b => (a.literal).orElse fun _ => b.literal
  | .sand _ _ a b => (a.literal).orElse fun _ => b.literal
  | .sor _ _ a b => (a.literal).orElse fun _ => b.literal
  | .sxor _ _ a b => (a.literal).orElse fun _ => b.literal
  | .sandn _ _ a b => (a.literal).orElse fun _ => b.literal
  | .sshl _ _ a b => (a.literal).orElse fun _ => b.literal
  | .sshr _ _ a b => (a.literal).orElse fun _ => b.literal
  | .ssar _ _ a b => (a.literal).orElse fun _ => b.literal
  | .sbfx _ _ a b => (a.literal).orElse fun _ => b.literal
  | .sbfi _ _ a b => (a.literal).orElse fun _ => b.literal
  | .spopc _ _ b => b.literal
  | .sclz _ _ b => b.literal
  | .smov _ _ b => b.literal
  | .sadd64 _ _ a b => (a.literal).orElse fun _ => b.literal
  | .ssub64 _ _ a b => (a.literal).orElse fun _ => b.literal
  | .scmp _ _ _ a b => (a.literal).orElse fun _ => b.literal
  | .sncmp _ _ _ a b => (a.literal).orElse fun _ => b.literal
  | .sfadd _ _ a b => (a.literal).orElse fun _ => b.literal
  | .sfmul _ _ a b => (a.literal).orElse fun _ => b.literal
  | .sffma _ _ a b => (a.literal).orElse fun _ => b.literal
  | .sfcmp _ _ _ a b => (a.literal).orElse fun _ => b.literal
  | .scvt _ _ _ b => b.literal
  | .ssel _ _ a b => (a.literal).orElse fun _ => b.literal
  | .sldg _ _ a _ _ _ => a.literal
  | .sldg2 _ _ a _ _ _ => a.literal
  | .sldg4 _ _ a _ _ _ => a.literal
  | .sstg _ _ a _ _ _ => a.literal
  | .sstg2 _ _ a _ _ _ => a.literal
  | .slds _ _ a _ _ => a.literal
  | .ssts _ _ a _ _ => a.literal
  | .satg _ _ a _ _ _ => a.literal
  | .sldk _ _ a _ => a.literal
  | .sprf _ a _ => a.literal
  | .mmaMx4 _ _ t => t.literal
  | .mmaMx6a _ _ t => t.literal
  | .mmaMx8 _ _ t => t.literal
  | .mmaI8bf _ _ t => t.literal
  | .mmaI8e4 _ _ t => t.literal
  | .mmaBfmx4 _ _ t => t.literal
  | .mmaE4bf _ _ t => t.literal
  | _ => none

/-- The constructor is an instruction word, not a device event. -/
def Instr.isWord : Instr → Bool
  | .cmdNop .. => false
  | .launch .. => false
  | .waitev .. => false
  | .waitevSatisfied .. => false
  | .signal .. => false
  | .qcfgWrite .. => false
  | .qstatResume .. => false
  | .queueTailWrite .. => false
  | .registerWrite .. => false
  | .groveDispatch .. => false
  | .cogridDispatch .. => false
  | .nodeGroveDispatch .. => false
  | .contqFallback .. => false
  | .coreHandover .. => false
  | .groveRetire .. => false
  | .segmentCommit .. => false
  | .loadAtHome .. => false
  | .loadReturn .. => false
  | .storeArrival .. => false
  | .atomicAtHome .. => false
  | .clusterJunctionRelease .. => false
  | .engineLineWrite .. => false
  | .serialTokenGrant .. => false
  | .txnLineUnlock .. => false
  | .txnCommitComplete .. => false
  | .snpData .. => false
  | .snpInv .. => false
  | .snpCur .. => false
  | .snoopResponse .. => false
  | .hubEviction .. => false
  | .hostMemRead .. => false
  | .hostMemWrite .. => false
  | .biRspI .. => false
  | .peerAccessArrival .. => false
  | .peerStoreAck .. => false
  | .gatheringComplete .. => false
  | .barrierTimeout .. => false
  | .replayWaitTimeout .. => false
  | .sstepRelease .. => false
  | .seedbedTimerExpiry .. => false
  | .seedlingStandLaunch .. => false
  | .bteRayDone .. => false
  | .beamComplete .. => false
  | .atlasRequestComplete .. => false
  | .sequencerChunk .. => false
  | .arrayCommandComplete .. => false
  | .loaderSlot .. => false
  | .tileLoadComplete .. => false
  | .pendingTrapDelivery .. => false
  | .engineCommandComplete .. => false
  | .collTimeout .. => false
  | .timewaitDeadline .. => false
  | .pginvComplete .. => false
  | .dfactRelease .. => false
  | .dfactKill .. => false
  | .haltInPlaceRequest .. => false
  | .haltReport .. => false
  | .contextResume .. => false
  | .contextSwitch .. => false
  | .drainWatchdog .. => false
  | .temporalSliceExpiry .. => false
  | .clusterGrant .. => false
  | .ctxcfgEnable .. => false
  | .ctxcfgEnd .. => false
  | .powerOn .. => false
  | .deviceReset .. => false
  | .cxlHotReset .. => false
  | .freqreqWrite .. => false
  | .frequencyStep .. => false
  | .relockEnd .. => false
  | .powerLimitAction .. => false
  | .carveWrite .. => false
  | .snapstatFree => false
  | .snapshotExternal => false
  | .mailboxAttest => false
  | .mailboxExtend .. => false
  | .attestAnswerReady => false
  | .scrubPass .. => false
  | .spareLaneTestDone .. => false
  | .supplySag .. => false
  | .sagLevelLower .. => false
  | .uncorrectableError .. => false
  | .hbmStackFailure .. => false
  | .linkFailure .. => false
  | .dieUnresponsive .. => false
  | .verifyCompare .. => false
  | .releasePerformed .. => false
  | .cxlCacheResponse .. => false
  | .expanderFailure .. => false
  | _ => true

/-- The word of an instruction, as a number; an event has none and gives 0. -/
def Instr.wordNat : Instr → Nat
  | .iadd h d a b => encHdr 0 0 h (encDab 0 d a b)
  | .isub h d a b => encHdr 0 0 h (encDab 1 d a b)
  | .isubr h d a b => encHdr 0 0 h (encDab 2 d a b)
  | .imul h d a b => encHdr 0 0 h (encDab 3 d a b)
  | .imulhi h d a b => encHdr 0 0 h (encDab 4 d a b)
  | .nmulhi h d a b => encHdr 0 0 h (encDab 5 d a b)
  | .imad h d a b => encHdr 0 0 h (encDab 6 d a b)
  | .imin h d a b => encHdr 0 0 h (encDab 7 d a b)
  | .imax h d a b => encHdr 0 0 h (encDab 8 d a b)
  | .nmin h d a b => encHdr 0 0 h (encDab 9 d a b)
  | .nmax h d a b => encHdr 0 0 h (encDab 10 d a b)
  | .iabs h d a => encHdr 0 0 h (encDab 11 d a 0)
  | .and h d a b => encHdr 0 0 h (encDab 12 d a b)
  | .or h d a b => encHdr 0 0 h (encDab 13 d a b)
  | .xor h d a b => encHdr 0 0 h (encDab 14 d a b)
  | .andn h d a b => encHdr 0 0 h (encDab 15 d a b)
  | .shl h d a b => encHdr 0 0 h (encDab 16 d a b)
  | .shr h d a b => encHdr 0 0 h (encDab 17 d a b)
  | .sar h d a b => encHdr 0 0 h (encDab 18 d a b)
  | .rotl h d a b => encHdr 0 0 h (encDab 19 d a b)
  | .bfx h d a b => encHdr 0 0 h (encDab 20 d a b)
  | .bfxs h d a b => encHdr 0 0 h (encDab 21 d a b)
  | .bfi h d a b => encHdr 0 0 h (encDab 22 d a b)
  | .popc h d a => encHdr 0 0 h (encDab 23 d a 0)
  | .clz h d a => encHdr 0 0 h (encDab 24 d a 0)
  | .ctz h d a => encHdr 0 0 h (encDab 25 d a 0)
  | .brev h d a => encHdr 0 0 h (encDab 26 d a 0)
  | .iadd64 h d a b => encHdr 0 0 h (encDab 27 d a b)
  | .isub64 h d a b => encHdr 0 0 h (encDab 28 d a b)
  | .imul64 h d a b => encHdr 0 0 h (encDab 29 d a b)
  | .shl64 h d a b => encHdr 0 0 h (encDab 30 d a b)
  | .shr64 h d a b => encHdr 0 0 h (encDab 31 d a b)
  | .icmp h k c a b => encHdr 0 0 h (encPred 32 k c.code a b)
  | .ncmp h k c a b => encHdr 0 0 h (encPred 33 k c.code a b)
  | .mov h d a => encHdr 0 0 h (encDab 34 d a 0)
  | .mov64 h d a => encHdr 0 0 h (encDab 35 d a 0)
  | .iadds h d a b => encHdr 0 0 h (encDab 36 d a b)
  | .isubs h d a b => encHdr 0 0 h (encDab 37 d a b)
  | .dot4i h d a b => encHdr 0 0 h (encDab 38 d a b)
  | .dot4n h d a b => encHdr 0 0 h (encDab 39 d a b)
  | .pack h d a b => encHdr 0 0 h (encDab 40 d a b)
  | .permb h d a b => encHdr 0 0 h (encDab 41 d a b)
  | .xswz h d a b => encHdr 0 0 h (encDab 42 d a b)
  | .fadd h d a b => encHdr 0 1 h (encDab 0 d a b)
  | .fsub h d a b => encHdr 0 1 h (encDab 1 d a b)
  | .fmul h d a b => encHdr 0 1 h (encDab 2 d a b)
  | .ffma h d a b => encHdr 0 1 h (encDab 3 d a b)
  | .ffms h d a b => encHdr 0 1 h (encDab 4 d a b)
  | .fmin h d a b => encHdr 0 1 h (encDab 5 d a b)
  | .fmax h d a b => encHdr 0 1 h (encDab 6 d a b)
  | .fminn h d a b => encHdr 0 1 h (encDab 7 d a b)
  | .fmaxn h d a b => encHdr 0 1 h (encDab 8 d a b)
  | .fabs h d a => encHdr 0 1 h (encDab 9 d a 0)
  | .fneg h d a => encHdr 0 1 h (encDab 10 d a 0)
  | .fcmp h k c a b => encHdr 0 1 h (encPred 11 k c.code a b)
  | .fclass h d a => encHdr 0 1 h (encDab 12 d a 0)
  | .frnd h d a e => encHdr 0 1 h (encSel 13 d a e.code)
  | .fldexp h d a b => encHdr 0 1 h (encDab 14 d a b)
  | .ffract h d a => encHdr 0 1 h (encDab 15 d a 0)
  | .hadd2 h d a b => encHdr 0 1 h (encDab 16 d a b)
  | .hmul2 h d a b => encHdr 0 1 h (encDab 17 d a b)
  | .hfma2 h d a b => encHdr 0 1 h (encDab 18 d a b)
  | .hmin2 h d a b => encHdr 0 1 h (encDab 19 d a b)
  | .hmax2 h d a b => encHdr 0 1 h (encDab 20 d a b)
  | .badd2 h d a b => encHdr 0 1 h (encDab 21 d a b)
  | .bmul2 h d a b => encHdr 0 1 h (encDab 22 d a b)
  | .bfma2 h d a b => encHdr 0 1 h (encDab 23 d a b)
  | .hcmp2 h k c a b => encHdr 0 1 h (encPred 24 k c.code a b)
  | .cvt h d a e => encHdr 0 1 h (encSel 25 d a e)
  | .cvtq h d a e => encHdr 0 1 h (encSel 26 d a e)
  | .sfn h d a e => encHdr 0 1 h (encSel 27 d a e.code)
  | .fdot2 h d a b => encHdr 0 1 h (encDab 28 d a b)
  | .hdot2 h d a b => encHdr 0 1 h (encDab 29 d a b)
  | .qdot4 h d a b => encHdr 0 1 h (encDab 30 d a b)
  | .fsat h d a => encHdr 0 1 h (encDab 31 d a 0)
  | .lds h d a w f => encHdr 0 2 h (encSp 0 d a w f)
  | .lds2 h d a w f => encHdr 0 2 h (encSp 1 d a w f)
  | .lds4 h d a w f => encHdr 0 2 h (encSp 2 d a w f)
  | .sts h d a w f => encHdr 0 2 h (encSp 3 d a w f)
  | .sts2 h d a w f => encHdr 0 2 h (encSp 4 d a w f)
  | .sts4 h d a w f => encHdr 0 2 h (encSp 5 d a w f)
  | .ldg h d a p r t => encHdr 0 2 h (encGl 6 d a p r t.code)
  | .ldg2 h d a p r t => encHdr 0 2 h (encGl 7 d a p r t.code)
  | .ldg4 h d a p r t => encHdr 0 2 h (encGl 8 d a p r t.code)
  | .stg h d a p r t => encHdr 0 2 h (encGl 9 d a p r t.code)
  | .stg2 h d a p r t => encHdr 0 2 h (encGl 10 d a p r t.code)
  | .stg4 h d a p r t => encHdr 0 2 h (encGl 11 d a p r t.code)
  | .ats h d a w u => encHdr 0 2 h (encSp 12 d a w u.code)
  | .atg h d a p r u => encHdr 0 2 h (encGl 13 d a p r u.code)
  | .atgx h d a p r u => encHdr 0 2 h (encGl 14 d a p r u.code)
  | .prf h a t => encHdr 0 2 h (encGl 15 0 a .plain .relaxed t.code)
  | .sadd h d a b => encHdr 1 0 h (encU 0 d a b)
  | .ssub h d a b => encHdr 1 0 h (encU 1 d a b)
  | .ssubr h d a b => encHdr 1 0 h (encU 2 d a b)
  | .smul h d a b => encHdr 1 0 h (encU 3 d a b)
  | .smulhi h d a b => encHdr 1 0 h (encU 4 d a b)
  | .snmulhi h d a b => encHdr 1 0 h (encU 5 d a b)
  | .smad h d a b => encHdr 1 0 h (encU 6 d a b)
  | .smin h d a b => encHdr 1 0 h (encU 7 d a b)
  | .smax h d a b => encHdr 1 0 h (encU 8 d a b)
  | .snmin h d a b => encHdr 1 0 h (encU 9 d a b)
  | .snmax h d a b => encHdr 1 0 h (encU 10 d a b)
  | .sand h d a b => encHdr 1 0 h (encU 11 d a b)
  | .sor h d a b => encHdr 1 0 h (encU 12 d a b)
  | .sxor h d a b => encHdr 1 0 h (encU 13 d a b)
  | .sandn h d a b => encHdr 1 0 h (encU 14 d a b)
  | .sshl h d a b => encHdr 1 0 h (encU 15 d a b)
  | .sshr h d a b => encHdr 1 0 h (encU 16 d a b)
  | .ssar h d a b => encHdr 1 0 h (encU 17 d a b)
  | .sbfx h d a b => encHdr 1 0 h (encU 18 d a b)
  | .sbfi h d a b => encHdr 1 0 h (encU 19 d a b)
  | .spopc h d b => encHdr 1 0 h (encUsel 20 d 0 b)
  | .sclz h d b => encHdr 1 0 h (encUsel 21 d 0 b)
  | .smov h d b => encHdr 1 0 h (encUsel 22 d 0 b)
  | .sadd64 h d a b => encHdr 1 0 h (encU 23 d a b)
  | .ssub64 h d a b => encHdr 1 0 h (encU 24 d a b)
  | .scmp h k c a b => encHdr 1 0 h (encUpred 25 k c a b)
  | .sncmp h k c a b => encHdr 1 0 h (encUpred 26 k c a b)
  | .sfadd h d a b => encHdr 1 0 h (encU 27 d a b)
  | .sfmul h d a b => encHdr 1 0 h (encU 28 d a b)
  | .sffma h d a b => encHdr 1 0 h (encU 29 d a b)
  | .sfcmp h k c a b => encHdr 1 0 h (encUpred 30 k c a b)
  | .scvt h d e b => encHdr 1 0 h (encUsel 31 d e b)
  | .ssel h d a b => encHdr 1 0 h (encU 32 d a b)
  | .sldg h d a p r f => encHdr 1 1 h (encUgl 0 d a p r f)
  | .sldg2 h d a p r f => encHdr 1 1 h (encUgl 1 d a p r f)
  | .sldg4 h d a p r f => encHdr 1 1 h (encUgl 2 d a p r f)
  | .sstg h d a p r f => encHdr 1 1 h (encUgl 3 d a p r f)
  | .sstg2 h d a p r f => encHdr 1 1 h (encUgl 4 d a p r f)
  | .slds h d a w f => encHdr 1 1 h (encUsp 5 d a w f)
  | .ssts h d a w f => encHdr 1 1 h (encUsp 6 d a w f)
  | .satg h d a p r u => encHdr 1 1 h (encUgl 7 d a p r (4 * u.code))
  | .sldk h d a f => encHdr 1 1 h (encUsp 8 d a 0 f)
  | .sprf h a f => encHdr 1 1 h (encUgl 9 0 a .plain .relaxed f)
  | .nop h => encHdr 0 3 h (packBits [(6, 0), (19, packBits [(19, 0)])])
  | .bra h o => encHdr 0 3 h (packBits [(6, 1), (19, packBits [(19, o.val)])])
  | .brx h b => encHdr 0 3 h (packBits [(6, 2), (19, packBits [(13, 0), (6, b.val)])])
  | .call h o => encHdr 0 3 h (packBits [(6, 3), (19, packBits [(19, o.val)])])
  | .callx h b => encHdr 0 3 h (packBits [(6, 4), (19, packBits [(13, 0), (6, b.val)])])
  | .ret h => encHdr 0 3 h (packBits [(6, 5), (19, packBits [(19, 0)])])
  | .exit h => encHdr 0 3 h (packBits [(6, 6), (19, packBits [(19, 0)])])
  | .loop h l n b => encHdr 0 3 h (packBits [(6, 7), (19, packBits [(2, l.val), (8, n.val), (3, 0), (6, b.val)])])
  | .loopi h l n c => encHdr 0 3 h (packBits [(6, 8), (19, packBits [(2, l.val), (8, n.val), (9, c.val)])])
  | .lbrk h => encHdr 0 3 h (packBits [(6, 9), (19, packBits [(19, 0)])])
  | .spawn h e a => encHdr 0 3 h (packBits [(6, 10), (19, packBits [(6, e.val), (6, a.val), (7, 0)])])
  | .spawng h a d n => encHdr 0 3 h (packBits [(6, 11), (19, packBits [(6, a.val), (6, d.val), (6, n.val), (1, 0)])])
  | .yield h => encHdr 0 3 h (packBits [(6, 12), (19, packBits [(19, 0)])])
  | .trace h r c p y => encHdr 0 3 h (packBits [(6, 13), (19, packBits [(6, r.val), (6, c.val), (6, p.val), (1, b2n y)])])
  | .dqpop h d => encHdr 0 3 h (packBits [(6, 14), (19, packBits [(6, d.val), (13, 0)])])
  | .getsr h d r w => encHdr 0 3 h (packBits [(6, 15), (19, packBits [(6, d.val), (6, r.val), (7, encSrc6 w)])])
  | .bar h j => encHdr 0 3 h (packBits [(6, 16), (19, packBits [(6, j.val), (13, 0)])])
  | .bara h j => encHdr 0 3 h (packBits [(6, 17), (19, packBits [(6, j.val), (13, 0)])])
  | .barw h j p => encHdr 0 3 h (packBits [(6, 18), (19, packBits [(6, j.val), (6, p.val), (7, 0)])])
  | .gbar h => encHdr 0 3 h (packBits [(6, 19), (19, packBits [(19, 0)])])
  | .fence h p r => encHdr 0 3 h (packBits [(6, 20), (19, packBits [(3, p.code), (2, r.code), (14, 0)])])
  | .mset h m => encHdr 0 3 h (packBits [(6, 21), (19, packBits [(19, m.code)])])
  | .syncm h => encHdr 0 3 h (packBits [(6, 22), (19, packBits [(19, 0)])])
  | .shfl h d c b => encHdr 0 3 h (packBits [(6, 23), (19, packBits [(6, d.val), (7, c.code), (6, b.val)])])
  | .shflx h d c b => encHdr 0 3 h (packBits [(6, 24), (19, packBits [(6, d.val), (7, c.code), (6, b.val)])])
  | .shflu h d c b => encHdr 0 3 h (packBits [(6, 25), (19, packBits [(6, d.val), (7, c.code), (6, b.val)])])
  | .shfld h d c b => encHdr 0 3 h (packBits [(6, 26), (19, packBits [(6, d.val), (7, c.code), (6, b.val)])])
  | .vote h k q n f => encHdr 0 3 h (packBits [(6, 27), (19, packBits [(3, k.val), (3, q.val), (1, b2n n), (2, f.code), (10, 0)])])
  | .ballot h d q n => encHdr 0 3 h (packBits [(6, 28), (19, packBits [(6, d.val), (3, q.val), (1, b2n n), (9, 0)])])
  | .sred h d f b => encHdr 0 3 h (packBits [(6, 29), (19, packBits [(6, d.val), (4, f.code), (3, 0), (6, b.val)])])
  | .sscan h d f x b => encHdr 0 3 h (packBits [(6, 30), (19, packBits [(6, d.val), (4, f.code), (1, b2n x), (2, 0), (6, b.val)])])
  | .cmmab h e a b t => encHdr 0 3 h (packBits [(6, 31), (19, packBits [(2, e.val), (4, a.val), (4, b.val), (2, t.code), (7, 0)])])
  | .cmmaq h e a b t => encHdr 0 3 h (packBits [(6, 32), (19, packBits [(2, e.val), (4, a.val), (4, b.val), (2, t.code), (7, 0)])])
  | .tstore h b t c n => encHdr 0 3 h (packBits [(6, 33), (19, packBits [(6, b.val), (4, t.val), (3, c.val), (2, n.val), (4, 0)])])
  | .tdrain h d c sel => encHdr 0 3 h (packBits [(6, 34), (19, packBits [(6, d.val), (4, c.val), (9, sel.code)])])
  | .pset h k a b o m n => encHdr 0 3 h (packBits [(6, 35), (19, packBits [(3, k.val), (3, a.val), (3, b.val), (2, o.code), (1, b2n m), (1, b2n n), (6, 0)])])
  | .pmov h mv => encHdr 0 3 h (packBits [(6, 36), (19, packBits [(19, mv.code)])])
  | .tbegin h o => encHdr 0 3 h (packBits [(6, 37), (19, packBits [(19, o.val)])])
  | .tend h => encHdr 0 3 h (packBits [(6, 38), (19, packBits [(19, 0)])])
  | .tabort h c => encHdr 0 3 h (packBits [(6, 39), (19, packBits [(11, 0), (8, c.val)])])
  | .trap h c => encHdr 0 3 h (packBits [(6, 40), (19, c.val)])
  | .eretLane h => encHdr 0 3 h (packBits [(6, 40), (19, 262144)])
  | .bpt h c => encHdr 0 3 h (packBits [(6, 41), (19, c.val)])
  | .qhop h d a b => encHdr 0 3 h (packBits [(6, 42), (19, packBits [(6, d.val), (7, a.code), (6, b.val)])])
  | .snop h => encHdr 1 3 h (packBits [(6, 0), (19, packBits [(19, 0)])])
  | .sbra h o => encHdr 1 3 h (packBits [(6, 1), (19, packBits [(19, o.val)])])
  | .sbrx h b => encHdr 1 3 h (packBits [(6, 2), (19, packBits [(5, b.val), (14, 0)])])
  | .scall h o => encHdr 1 3 h (packBits [(6, 3), (19, packBits [(19, o.val)])])
  | .sret h => encHdr 1 3 h (packBits [(6, 4), (19, packBits [(19, 0)])])
  | .sloop h l n b => encHdr 1 3 h (packBits [(6, 5), (19, packBits [(2, l.val), (8, n.val), (4, 0), (5, b.val)])])
  | .sloopi h l n c => encHdr 1 3 h (packBits [(6, 6), (19, packBits [(2, l.val), (8, n.val), (9, c.val)])])
  | .slbrk h => encHdr 1 3 h (packBits [(6, 7), (19, packBits [(19, 0)])])
  | .sexit h => encHdr 1 3 h (packBits [(6, 8), (19, packBits [(19, 0)])])
  | .swaits h => encHdr 1 3 h (packBits [(6, 9), (19, packBits [(19, 0)])])
  | .sfence h p r => encHdr 1 3 h (packBits [(6, 10), (19, packBits [(3, p.code), (2, r.code), (14, 0)])])
  | .syield h => encHdr 1 3 h (packBits [(6, 11), (19, packBits [(19, 0)])])
  | .sgetsr h d r w => encHdr 1 3 h (packBits [(6, 12), (19, packBits [(5, d.val), (6, r.val), (8, 4 * encSrc5 w)])])
  | .timewait h a x => encHdr 1 3 h (packBits [(6, 13), (19, packBits [(5, a.val), (1, b2n x), (13, 0)])])
  | .strap h c => encHdr 1 3 h (packBits [(6, 14), (19, packBits [(3, 0), (16, c.val)])])
  | .sbpt h c => encHdr 1 3 h (packBits [(6, 15), (19, packBits [(3, 0), (16, c.val)])])
  | .eret h => encHdr 1 3 h (packBits [(6, 16), (19, packBits [(19, 0)])])
  | .csrr h d a => encHdr 1 3 h (packBits [(6, 17), (19, packBits [(5, d.val), (5, a.val), (9, 0)])])
  | .csrw h b a => encHdr 1 3 h (packBits [(6, 18), (19, packBits [(5, b.val), (5, a.val), (9, 0)])])
  | .pginv h a z => encHdr 1 3 h (packBits [(6, 19), (19, packBits [(5, a.val), (2, z.code), (12, 0)])])
  | .halt h c => encHdr 1 3 h (packBits [(6, 20), (19, packBits [(5, c.val), (14, 0)])])
  | .snap h t => encHdr 1 3 h (packBits [(6, 21), (19, packBits [(4, 0), (15, t.val)])])
  | .logmark h a => encHdr 1 3 h (packBits [(6, 22), (19, packBits [(5, a.val), (14, 0)])])
  | .digest h a => encHdr 1 3 h (packBits [(6, 23), (19, packBits [(5, a.val), (14, 0)])])
  | .sspawng h a d n => encHdr 1 3 h (packBits [(6, 24), (19, packBits [(5, a.val), (5, d.val), (5, n.val), (4, 0)])])
  | .qpset h k a b o m n => encHdr 1 3 h (packBits [(6, 25), (19, packBits [(3, k.val), (3, a.val), (3, b.val), (2, o.code), (1, b2n m), (1, b2n n), (6, 0)])])
  | .mmaBf16 h m => encHdr 1 2 h (encMma 0 m)
  | .mmaFp16 h m => encHdr 1 2 h (encMma 1 m)
  | .mmaE4 h m => encHdr 1 2 h (encMma 2 m)
  | .mmaE5 h m => encHdr 1 2 h (encMma 3 m)
  | .mmaF6a h m => encHdr 1 2 h (encMma 4 m)
  | .mmaF6b h m => encHdr 1 2 h (encMma 5 m)
  | .mmaF4 h m => encHdr 1 2 h (encMma 6 m)
  | .mmaMx4 h m _ => encHdr 1 2 h (encMma 7 m)
  | .mmaMx6a h m _ => encHdr 1 2 h (encMma 8 m)
  | .mmaMx8 h m _ => encHdr 1 2 h (encMma 9 m)
  | .mmaI8 h m => encHdr 1 2 h (encMma 10 m)
  | .mmaI4 h m => encHdr 1 2 h (encMma 11 m)
  | .mmaI8bf h m _ => encHdr 1 2 h (encMma 12 m)
  | .mmaI8e4 h m _ => encHdr 1 2 h (encMma 13 m)
  | .mmaBfmx4 h m _ => encHdr 1 2 h (encMma 14 m)
  | .mmaE4bf h m _ => encHdr 1 2 h (encMma 15 m)
  | .medge h c v w => encHdr 1 2 h (packBits [(6, 16), (19, packBits [(4, c.val), (4, v.val), (3, w.val), (8, 0)])])
  | .mfilt h c t w x => encHdr 1 2 h (packBits [(6, 17), (19, packBits [(4, c.val), (4, t.val), (3, w.val), (2, x.code), (6, 0)])])
  | .mblend h c t p => encHdr 1 2 h (packBits [(6, 18), (19, packBits [(4, c.val), (4, t.val), (4, p.val), (7, 0)])])
  | .mblendb h c t p q => encHdr 1 2 h (packBits [(6, 19), (19, packBits [(4, c.val), (4, t.val), (4, p.val), (4, q.val), (3, 0)])])
  | .mdrain h c n f r x => encHdr 1 2 h (packBits [(6, 20), (19, packBits [(4, c.val), (3, n.val), (3, f.code), (3, r.code), (1, b2n x), (5, 0)])])
  | .mspill h c n => encHdr 1 2 h (packBits [(6, 21), (19, packBits [(4, c.val), (3, n.val), (12, 0)])])
  | .mfill h c n => encHdr 1 2 h (packBits [(6, 22), (19, packBits [(4, c.val), (3, n.val), (12, 0)])])
  | .macc h c n => encHdr 1 2 h (packBits [(6, 23), (19, packBits [(4, c.val), (3, n.val), (12, 0)])])
  | .mzero h c l => encHdr 1 2 h (packBits [(6, 24), (19, packBits [(4, c.val), (2, l.code), (13, 0)])])
  | .mwait h => encHdr 1 2 h (packBits [(6, 25), (19, packBits [(19, 0)])])
  | .mcfg h e b => encHdr 1 2 h (packBits [(6, 26), (19, packBits [(2, e.code), (5, b.val), (12, 0)])])
  | .wload h w n k => encHdr 1 2 h (packBits [(6, 27), (19, packBits [(3, w.val), (3, n.val), (2, k.code), (11, 0)])])
  | .tload h t m n => encHdr 1 2 h (packBits [(6, 28), (19, packBits [(4, t.val), (4, m.val), (3, n.val), (8, 0)])])
  | .tcopy h d j p => encHdr 1 2 h (packBits [(6, 32), (19, packBits [(5, d.val), (5, j.val), (2, p.code), (7, 0)])])
  | .tcopym h d j p => encHdr 1 2 h (packBits [(6, 33), (19, packBits [(5, d.val), (5, j.val), (2, p.code), (7, 0)])])
  | .gather h d j p => encHdr 1 2 h (packBits [(6, 34), (19, packBits [(5, d.val), (5, j.val), (2, p.code), (7, 0)])])
  | .scatter h d j p => encHdr 1 2 h (packBits [(6, 35), (19, packBits [(5, d.val), (5, j.val), (2, p.code), (7, 0)])])
  | .sortk h d j p => encHdr 1 2 h (packBits [(6, 36), (19, packBits [(5, d.val), (5, j.val), (2, p.code), (7, 0)])])
  | .route h d j p => encHdr 1 2 h (packBits [(6, 37), (19, packBits [(5, d.val), (5, j.val), (2, p.code), (7, 0)])])
  | .coll h d j p => encHdr 1 2 h (packBits [(6, 38), (19, packBits [(5, d.val), (5, j.val), (2, p.code), (7, 0)])])
  | .cfence h => encHdr 1 2 h (packBits [(6, 39), (19, packBits [(19, 0)])])
  | .beamgo h d => encHdr 1 2 h (packBits [(6, 40), (19, packBits [(5, d.val), (14, 0)])])
  | .beamgoReq h d n => encHdr 1 2 h (packBits [(6, 40), (19, packBits [(5, d.val), (1, 1), (5, n.val), (8, 0)])])
  | .barnew h d c v => encHdr 1 2 h (packBits [(6, 48), (19, packBits [(5, d.val), (5, c.val), (1, b2n v), (8, 0)])])
  | .barfree h j => encHdr 1 2 h (packBits [(6, 49), (19, packBits [(5, j.val), (14, 0)])])
  | .barexp h j b => encHdr 1 2 h (packBits [(6, 50), (19, packBits [(5, j.val), (5, b.val), (9, 0)])])
  | .sbar h j w => encHdr 1 2 h (packBits [(6, 51), (19, packBits [(5, j.val), (14, w.code)])])
  | .sbara h j => encHdr 1 2 h (packBits [(6, 52), (19, packBits [(5, j.val), (14, 0)])])
  | .sstep h => encHdr 1 2 h (packBits [(6, 53), (19, packBits [(19, 0)])])
  | .dqpush h a => encHdr 1 2 h (packBits [(6, 54), (19, packBits [(5, a.val), (14, 0)])])
  | .dqclose h => encHdr 1 2 h (packBits [(6, 55), (19, packBits [(19, 0)])])
  | _ => 0

/-- The words of an instruction: the word, and its literal when it has one (R82). -/
def encode (i : Instr) : List Word :=
  BitVec.ofNat 32 i.wordNat :: i.literal.toList

/-- The number of words an instruction takes (R82). -/
def Instr.length (i : Instr) : Nat :=
  match i.literal with
  | none => 1
  | some _ => 2

/-- A reading of a field: its value, or the DETAIL of the refusal. -/
abbrev Dec (α : Type) := Except Nat α

/-- Applies one more field. When both fail, the check that R84 puts first is reported. -/
def Dec.ap {α β : Type} (f : Dec (α → β)) (x : Dec α) : Dec β :=
  match f, x with
  | .ok g, .ok y => .ok (g y)
  | .ok _, .error e => .error e
  | .error e, .ok _ => .error e
  | .error e, .error e' => .error (min e e')

/-- A further check on a reading: when it fails too, the earlier check of R84 is reported. -/
def Dec.guard {α : Type} (e : Nat) (ok : Bool) (x : Dec α) : Dec α :=
  if ok then x else
    match x with
    | .ok _ => .error e
    | .error e' => .error (min e e')

/-- Bits that must be zero (R84 check 6). -/
def Dec.zero {α : Type} (z : Nat) (x : Dec α) : Dec α := Dec.guard 5 (z == 0) x

/-- A value, or refusal e. -/
def Dec.opt {α : Type} (e : Nat) : Option α → Dec α
  | some x => .ok x
  | none => .error e

/-- A field every value of which is assigned. -/
def Dec.fin (n : Nat) (x : Nat) : Dec (Fin n) :=
  if h : x < n then .ok ⟨x, h⟩ else .error 3

/-- A one-bit field. -/
def Dec.bool (x : Nat) : Dec Bool := .ok (x == 1)

/-- LEVEL of a loop word: 0b11 is reserved (R313). -/
def Dec.lvl (x : Nat) : Dec (Fin 3) := Dec.fin 3 x

/-- A special register number: 0x17 and above are reserved (R70). -/
def Dec.sr (x : Nat) : Dec (Fin 23) := if h : x < 23 then .ok ⟨x, h⟩ else .error 4

/-- A destination predicate: 000 is reserved (R90, R147). -/
def Dec.prd (x : Nat) : Dec (Fin 8) := Dec.guard 3 (x != 0) (Dec.fin 8 x)

/-- SCOPE of a fence: 0 and 7 are reserved (R272). -/
def Dec.fenceScope (x : Nat) : Dec Scope := Dec.guard 3 (x != 0) (Dec.opt 3 (Scope.ofCode x))

/-- ORDER of a fence: 0 is reserved (R272). -/
def Dec.fenceOrder (x : Nat) : Dec Order := Dec.guard 3 (x != 0) (Dec.opt 3 (Order.ofCode x))

/-- W and B of GETSR: B must be zero when W is 0 (R71). -/
def Dec.src6 (x : Nat) : Dec (Option (Fin 64)) :=
  match fields [1, 6] x with
  | [w, b] => if w = 0 then Dec.zero b (.ok none) else Dec.ap (.ok some) (Dec.fin 64 b)
  | _ => .error 2

/-- W, B and the low two bits of SGETSR (R71). -/
def Dec.src5 (x : Nat) : Dec (Option (Fin 32)) :=
  match fields [1, 5, 2] x with
  | [w, b, z] =>
    Dec.zero z (if w = 0 then Dec.zero b (.ok none) else Dec.ap (.ok some) (Dec.fin 32 b))
  | _ => .error 2

/-- MODE and B of MSET (R151). -/
def Dec.mset (x : Nat) : Dec MsetArg :=
  match fields [2, 11, 6] x with
  | [m, z, b] =>
    Dec.zero z (match m with
      | 0 => Dec.ap (.ok MsetArg.pair) (Dec.fin 64 b)
      | 1 => Dec.zero b (.ok .dflt)
      | 2 => Dec.ap (.ok MsetArg.andPair) (Dec.fin 64 b)
      | _ => .error 3)
  | _ => .error 2

/-- I and C of a shuffle word (R152). -/
def Dec.shuf (x : Nat) : Dec ShufSrc :=
  match fields [1, 6] x with
  | [i, c] => if i = 1 then Dec.ap (.ok ShufSrc.imm) (Dec.fin 64 c) else Dec.ap (.ok ShufSrc.reg) (Dec.fin 64 c)
  | _ => .error 2

/-- DIR, V and MASK of PMOV (R148). -/
def Dec.pmov (x : Nat) : Dec PmovArg :=
  match fields [1, 6, 7, 5] x with
  | [i, v, m, z] =>
    Dec.zero z (if i = 0 then Dec.ap (Dec.ap (.ok PmovArg.toPred) (Dec.fin 64 v)) (Dec.fin 128 m)
      else Dec.zero m (Dec.ap (.ok PmovArg.fromPred) (Dec.fin 64 v)))
  | _ => .error 2

/-- FMT, RND and CB of TDRAIN (R192). -/
def Dec.tdrain (x : Nat) : Dec TdrainSel :=
  match fields [3, 3, 3] x with
  | [f, r, cb] =>
    if f = 6 then
      Dec.guard 3 (r == 0) (if h : cb < 2 then .ok (.hdr ⟨cb, h⟩) else .error 3)
    else
      Dec.ap (Dec.ap (Dec.ap (.ok TdrainSel.body) (Dec.opt 3 (DrainFmt.ofCode f)))
        (Dec.guard 3 (r < 5) (Dec.opt 3 (Rnd.ofCode r)))) (Dec.fin 8 cb)
  | _ => .error 2

/-- NA and SP of SBAR (R276). -/
def Dec.sbar (x : Nat) : Dec SbarArg :=
  match fields [1, 5, 8] x with
  | [na, p, z] =>
    Dec.zero z (if na = 0 then Dec.zero p (.ok .arrive) else Dec.ap (.ok SbarArg.wait) (Dec.fin 32 p))
  | _ => .error 2

/-- Operand A of a lane word (R89); l is the literal that follows. -/
def Dec.laneA (l : Word) (x : Nat) : Dec LaneA :=
  if h : x < 64 then .ok (.v ⟨x, h⟩)
  else if h : x - 64 < 32 then .ok (.s ⟨x - 64, h⟩)
  else if h : x - 96 < 23 then .ok (.slot ⟨x - 96, h⟩)
  else if x = 127 then .ok (.lit l) else .error 4

/-- A lane operand A in a 64-bit position (R89). -/
def Dec.laneA64 (l : Word) (x : Nat) : Dec LaneA :=
  Dec.guard 4 (x != 116 && x != 118) (Dec.laneA l x)

/-- Operand A of QHOP: 127 is a reserved slot (R92). -/
def Dec.laneAq (x : Nat) : Dec LaneA :=
  Dec.guard 4 (x != 127) (Dec.laneA64 0 x)

/-- Operand A of a uniform word (R93). -/
def Dec.uniA (l : Word) (x : Nat) : Dec UniA :=
  if h : x < 32 then .ok (.s ⟨x, h⟩)
  else if h : x - 32 < 16 then .ok (.sp ⟨x - 32, h⟩)
  else if x = 63 then .ok (.lit l) else .error 4

/-- A uniform operand A in a 64-bit position (R93). -/
def Dec.uniA64 (l : Word) (x : Nat) : Dec UniA :=
  Dec.guard 4 (x != 44 && x != 46) (Dec.uniA l x)

/-- Operand B of a uniform word (R93). -/
def Dec.uniB (l : Word) (x : Nat) : Dec UniB :=
  if h : x < 32 then .ok (.s ⟨x, h⟩)
  else if h : x - 32 < 16 then .ok (.sp ⟨x - 32, h⟩)
  else if x < 64 then .error 4
  else if h : x - 64 < 191 then .ok (.imm ⟨x - 64, h⟩) else .ok (.lit l)

/-- A uniform operand B in a 64-bit position (R93). -/
def Dec.uniB64 (l : Word) (x : Nat) : Dec UniB :=
  Dec.guard 4 (x != 44 && x != 46) (Dec.uniB l x)

/-- Bin and Ter forms (R90). -/
def Dec.bin (f : Fin 64 → LaneA → Fin 64 → Instr) (d a b : Nat) (l : Word) : Dec Instr :=
  Dec.ap (Dec.ap (Dec.ap (.ok f) (Dec.fin 64 d)) (Dec.laneA l a)) (Dec.fin 64 b)

/-- Bin forms over pairs (R89). -/
def Dec.bin64 (f : Fin 64 → LaneA → Fin 64 → Instr) (d a b : Nat) (l : Word) : Dec Instr :=
  Dec.ap (Dec.ap (Dec.ap (.ok f) (Dec.fin 64 d)) (Dec.laneA64 l a)) (Dec.fin 64 b)

/-- Un forms (R90). -/
def Dec.un (f : Fin 64 → LaneA → Instr) (d a b : Nat) (l : Word) : Dec Instr :=
  Dec.zero b (Dec.ap (Dec.ap (.ok f) (Dec.fin 64 d)) (Dec.laneA l a))

/-- Un forms over a pair (R89). -/
def Dec.un64 (f : Fin 64 → LaneA → Instr) (d a b : Nat) (l : Word) : Dec Instr :=
  Dec.zero b (Dec.ap (Dec.ap (.ok f) (Dec.fin 64 d)) (Dec.laneA64 l a))

/-- A Pred form whose conditions cond reads (R90). -/
def Dec.pred {γ : Type} (cond : Nat → Option γ) (f : Fin 8 → γ → LaneA → Fin 64 → Instr) (d a b : Nat)
    (l : Word) : Dec Instr :=
  match fields [3, 3] d with
  | [k, c] =>
    Dec.ap (Dec.ap (Dec.ap (Dec.ap (.ok f) (Dec.prd k)) (Dec.opt 3 (cond c))) (Dec.laneA l a)) (Dec.fin 64 b)
  | _ => .error 2

/-- ICMP and NCMP (R90). -/
def Dec.predI (f : Fin 8 → ICond → LaneA → Fin 64 → Instr) (d a b : Nat) (l : Word) : Dec Instr :=
  Dec.pred ICond.ofCode f d a b l

/-- FCMP (R90). -/
def Dec.predF (f : Fin 8 → FCond → LaneA → Fin 64 → Instr) (d a b : Nat) (l : Word) : Dec Instr :=
  Dec.pred FCond.ofCode f d a b l

/-- HCMP2: k = 7 is reserved too (R90). -/
def Dec.predH (f : Fin 8 → FCond → LaneA → Fin 64 → Instr) (d a b : Nat) (l : Word) : Dec Instr :=
  Dec.guard 3 (d / 8 != 7) (Dec.pred FCond.ofCode f d a b l)

/-- FRND (R90). -/
def Dec.selR (f : Fin 64 → LaneA → RndSel → Instr) (d a b : Nat) (l : Word) : Dec Instr :=
  Dec.ap (Dec.ap (Dec.ap (.ok f) (Dec.fin 64 d)) (Dec.laneA l a)) (Dec.opt 3 (RndSel.ofCode b))

/-- CVT (R121). -/
def Dec.selC (f : Fin 64 → LaneA → Fin 64 → Instr) (d a b : Nat) (l : Word) : Dec Instr :=
  Dec.guard 3 (b < 0x22) (Dec.bin f d a b l)

/-- CVTQ (R121). -/
def Dec.selQ (f : Fin 64 → LaneA → Fin 64 → Instr) (d a b : Nat) (l : Word) : Dec Instr :=
  Dec.guard 3 (0x30 ≤ b && b < 0x38)
    (if b == 0x35 || b == 0x36 then Dec.bin64 f d a b l else Dec.bin f d a b l)

/-- SFN (R90). -/
def Dec.selS (f : Fin 64 → LaneA → SfnFn → Instr) (d a b : Nat) (l : Word) : Dec Instr :=
  Dec.ap (Dec.ap (Dec.ap (.ok f) (Dec.fin 64 d)) (Dec.laneA l a)) (Dec.opt 3 (SfnFn.ofCode b))

/-- Uniform Bin and Ter forms (R93). -/
def Dec.ubin (f : Fin 32 → UniA → UniB → Instr) (d a b : Nat) (l : Word) : Dec Instr :=
  Dec.guard 6 (!(a == 63 && b == 255))
    (Dec.ap (Dec.ap (Dec.ap (.ok f) (Dec.fin 32 d)) (Dec.uniA l a)) (Dec.uniB l b))

/-- Uniform Bin forms over pairs (R93). -/
def Dec.ubin64 (f : Fin 32 → UniA → UniB → Instr) (d a b : Nat) (l : Word) : Dec Instr :=
  Dec.guard 6 (!(a == 63 && b == 255))
    (Dec.ap (Dec.ap (Dec.ap (.ok f) (Dec.fin 32 d)) (Dec.uniA64 l a)) (Dec.uniB64 l b))

/-- Uniform Un forms (R93). -/
def Dec.uun (f : Fin 32 → UniB → Instr) (d a b : Nat) (l : Word) : Dec Instr :=
  Dec.zero a (Dec.ap (Dec.ap (.ok f) (Dec.fin 32 d)) (Dec.uniB l b))

/-- Uniform Pred forms (R93). -/
def Dec.upred (f : Fin 8 → UCond → UniA → UniB → Instr) (d a b : Nat) (l : Word) : Dec Instr :=
  match fields [3, 2] d with
  | [k, c] =>
    Dec.guard 6 (!(a == 63 && b == 255))
      (Dec.ap (Dec.ap (Dec.ap (Dec.ap (.ok f) (Dec.prd k)) (Dec.opt 3 (UCond.ofCode c))) (Dec.uniA l a)) (Dec.uniB l b))
  | _ => .error 2

/-- SCVT: field A is the conversion code (R93, R121). -/
def Dec.usel (f : Fin 32 → Fin 64 → UniB → Instr) (d a b : Nat) (l : Word) : Dec Instr :=
  Dec.guard 3 (a < 0x22)
    (Dec.ap (Dec.ap (Dec.ap (.ok f) (Dec.fin 32 d)) (Dec.fin 64 a)) (Dec.uniB l b))

/-- Scratchpad loads and stores (R91). -/
def Dec.sp (f : Fin 64 → LaneA → Fin 8 → Fin 32 → Instr) (d a m : Nat) (l : Word) : Dec Instr :=
  match fields [3, 5] m with
  | [w, o] =>
    Dec.ap (Dec.ap (Dec.ap (Dec.ap (.ok f) (Dec.fin 64 d)) (Dec.laneA l a)) (Dec.fin 8 w)) (Dec.fin 32 o)
  | _ => .error 2

/-- The reserved combinations of SCOPE and ORDER, by code (R91). -/
def Dec.combo (store : Bool) (p r : Nat) : Bool :=
  (r == 0 || p != 0) && (r == 0 || r == (if store then 2 else 1))

/-- Global loads and stores (R91). -/
def Dec.gl (store : Bool) (f : Fin 64 → LaneA → Scope → Order → Hint → Instr) (d a m : Nat) (l : Word) : Dec Instr :=
  match fields [3, 2, 3] m with
  | [p, r, t] =>
    Dec.guard 3 (Dec.combo store p r)
      (Dec.ap (Dec.ap (Dec.ap (Dec.ap (Dec.ap (.ok f) (Dec.fin 64 d)) (Dec.laneA64 l a)) (Dec.opt 3 (Scope.ofCode p)))
        (Dec.opt 3 (Order.ofCode r))) (Dec.opt 3 (Hint.ofCode t)))
  | _ => .error 2

/-- ATS (R91). -/
def Dec.ats (f : Fin 64 → LaneA → Fin 8 → AtFn → Instr) (d a m : Nat) (l : Word) : Dec Instr :=
  match fields [3, 2, 3] m with
  | [w, z, u] =>
    Dec.zero z
      (Dec.ap (Dec.ap (Dec.ap (Dec.ap (.ok f) (Dec.fin 64 d)) (Dec.laneA l a)) (Dec.fin 8 w)) (Dec.opt 3 (AtFn.ofCode u)))
  | _ => .error 2

/-- ATG and ATGX, whose functions fn reads (R91). -/
def Dec.atomic {γ : Type} (fn : Nat → Option γ) (f : Fin 64 → LaneA → Scope → Order → γ → Instr) (d a m : Nat)
    (l : Word) : Dec Instr :=
  match fields [3, 2, 3] m with
  | [p, r, u] =>
    Dec.guard 3 (p != 0)
      (Dec.ap (Dec.ap (Dec.ap (Dec.ap (Dec.ap (.ok f) (Dec.fin 64 d)) (Dec.laneA64 l a)) (Dec.opt 3 (Scope.ofCode p)))
        (Dec.opt 3 (Order.ofCode r))) (Dec.opt 3 (fn u)))
  | _ => .error 2

/-- ATG (R91). -/
def Dec.atg (f : Fin 64 → LaneA → Scope → Order → AtFn → Instr) (d a m : Nat) (l : Word) : Dec Instr :=
  Dec.atomic AtFn.ofCode f d a m l

/-- ATGX (R91). -/
def Dec.atgx (f : Fin 64 → LaneA → Scope → Order → AtxFn → Instr) (d a m : Nat) (l : Word) : Dec Instr :=
  Dec.atomic AtxFn.ofCode f d a m l

/-- PRF: D must be zero (R91). -/
def Dec.prf (f : LaneA → Hint → Instr) (d a m : Nat) (l : Word) : Dec Instr :=
  match fields [5, 3] m with
  | [z, t] => Dec.zero d (Dec.zero z (Dec.ap (Dec.ap (.ok f) (Dec.laneA64 l a)) (Dec.opt 3 (Hint.ofCode t))))
  | _ => .error 2

/-- Uniform global loads and stores (R94). -/
def Dec.ugl (store : Bool) (f : Fin 32 → UniA → Scope → Order → Fin 32 → Instr) (d a m : Nat) (l : Word) : Dec Instr :=
  match fields [3, 2, 5] m with
  | [p, r, o] =>
    Dec.guard 3 (Dec.combo store p r)
      (Dec.ap (Dec.ap (Dec.ap (Dec.ap (Dec.ap (.ok f) (Dec.fin 32 d)) (Dec.uniA64 l a)) (Dec.opt 3 (Scope.ofCode p)))
        (Dec.opt 3 (Order.ofCode r))) (Dec.fin 32 o))
  | _ => .error 2

/-- SLDS and SSTS (R94). -/
def Dec.usp (f : Fin 32 → UniA → Fin 8 → Fin 128 → Instr) (d a m : Nat) (l : Word) : Dec Instr :=
  match fields [3, 7] m with
  | [w, o] =>
    Dec.ap (Dec.ap (Dec.ap (Dec.ap (.ok f) (Dec.fin 32 d)) (Dec.uniA l a)) (Dec.fin 8 w)) (Dec.fin 128 o)
  | _ => .error 2

/-- SATG (R94). -/
def Dec.usatg (f : Fin 32 → UniA → Scope → Order → AtFn → Instr) (d a m : Nat) (l : Word) : Dec Instr :=
  match fields [3, 2, 3, 2] m with
  | [p, r, u, z] =>
    Dec.zero z (Dec.guard 3 (p != 0)
      (Dec.ap (Dec.ap (Dec.ap (Dec.ap (Dec.ap (.ok f) (Dec.fin 32 d)) (Dec.uniA64 l a)) (Dec.opt 3 (Scope.ofCode p)))
        (Dec.opt 3 (Order.ofCode r))) (Dec.opt 3 (AtFn.ofCode u))))
  | _ => .error 2

/-- SLDK (R94). -/
def Dec.usldk (f : Fin 32 → UniA → Fin 128 → Instr) (d a m : Nat) (l : Word) : Dec Instr :=
  match fields [3, 7] m with
  | [z, o] => Dec.zero z (Dec.ap (Dec.ap (Dec.ap (.ok f) (Dec.fin 32 d)) (Dec.uniA l a)) (Dec.fin 128 o))
  | _ => .error 2

/-- SPRF: D must be zero (R94). -/
def Dec.usprf (f : UniA → Fin 32 → Instr) (d a m : Nat) (l : Word) : Dec Instr :=
  match fields [5, 5] m with
  | [z, o] => Dec.zero d (Dec.zero z (Dec.ap (Dec.ap (.ok f) (Dec.uniA64 l a)) (Dec.fin 32 o)))
  | _ => .error 2

/-- The fields of an MMA form, with the combinations of DM that R165 permits. -/
def Dec.mmaArgs (form : MmaForm) (p : Nat) : Dec MmaArgs :=
  match fields [4, 4, 3, 1, 3, 4] p with
  | [c, t, w, x, m, k] =>
    match Dec.ap (Dec.ap (Dec.ap (Dec.ap (Dec.ap (Dec.ap (.ok MmaArgs.mk) (Dec.fin 10 c)) (Dec.fin 16 t)) (Dec.fin 8 w))
      (Dec.bool x)) (Dec.opt 3 (Dm.ofCode m))) (Dec.fin 16 k) with
    | .ok a => if a.dm.permits form then .ok a else .error 3
    | .error e => .error e
  | _ => .error 2

/-- An MMA form without a literal (R95). -/
def Dec.mma (form : MmaForm) (f : MmaArgs → Instr) (p : Nat) : Dec Instr :=
  Dec.ap (.ok f) (Dec.mmaArgs form p)

/-- The literal of R96. -/
def Dec.mmaScale (form : MmaForm) (l : Word) : Dec MmaLit :=
  match fields [16, 2, 2, 6, 6] l.toNat with
  | [z, m, e, v, s] =>
    let one := form == .mmaI8e4 || form == .mmaBfmx4
    Dec.zero z (Dec.guard 5 (!one || (e == 0 && v == 0 && s == 0))
      (Dec.guard 3 (m < 2 && (!one || m == 1))
        (Dec.ap (Dec.ap (Dec.ap (Dec.ap (.ok MmaLit.mk) (Dec.fin 64 s)) (Dec.fin 64 v)) (Dec.fin 4 e)) (Dec.bool m))))
  | _ => .error 2

/-- An MMA form with a literal (R96). -/
def Dec.mmaLit (form : MmaForm) (f : MmaArgs → MmaLit → Instr) (p : Nat) (l : Word) : Dec Instr :=
  Dec.ap (Dec.ap (.ok f) (Dec.mmaArgs form p)) (Dec.mmaScale form l)

/-- TRAP, and ERET of a lane thread as TRAP with RET = 1 (R354, R355). -/
noncomputable def Dec.trap (h : Hdr) (p : Nat) : Dec Instr :=
  match fields [1, 2, 16] p with
  | [r, z, c] =>
    Dec.zero z (if r = 1 then Dec.zero c (.ok (.eretLane h)) else Dec.ap (.ok (Instr.trap h)) (Dec.fin 65536 c))
  | _ => .error 2

/-- BPT: RET = 1 is a reserved value (R354). -/
noncomputable def Dec.bpt (h : Hdr) (p : Nat) : Dec Instr :=
  match fields [1, 2, 16] p with
  | [r, z, c] => Dec.zero z (Dec.guard 3 (r == 0) (Dec.ap (.ok (Instr.bpt h)) (Dec.fin 65536 c)))
  | _ => .error 2

/-- BEAMGO and its request form (R326). -/
noncomputable def Dec.beamgo (h : Hdr) (p : Nat) : Dec Instr :=
  match fields [5, 1, 5, 8] p with
  | [d, r, n, z] =>
    Dec.zero z (if r = 1 then Dec.ap (Dec.ap (.ok (Instr.beamgoReq h)) (Dec.fin 32 d)) (Dec.fin 32 n)
      else Dec.zero n (Dec.ap (.ok (Instr.beamgo h)) (Dec.fin 32 d)))
  | _ => .error 2

/-- Class A (R98). -/
def decodeA (h : Hdr) (l : Word) (w : Nat) : Dec Instr :=
  match fields [6, 6, 7, 6] w with
  | [op, d, a, b] => match op with
    | 0 => Dec.bin (Instr.iadd h) d a b l
    | 1 => Dec.bin (Instr.isub h) d a b l
    | 2 => Dec.bin (Instr.isubr h) d a b l
    | 3 => Dec.bin (Instr.imul h) d a b l
    | 4 => Dec.bin (Instr.imulhi h) d a b l
    | 5 => Dec.bin (Instr.nmulhi h) d a b l
    | 6 => Dec.bin (Instr.imad h) d a b l
    | 7 => Dec.bin (Instr.imin h) d a b l
    | 8 => Dec.bin (Instr.imax h) d a b l
    | 9 => Dec.bin (Instr.nmin h) d a b l
    | 10 => Dec.bin (Instr.nmax h) d a b l
    | 11 => Dec.un (Instr.iabs h) d a b l
    | 12 => Dec.bin (Instr.and h) d a b l
    | 13 => Dec.bin (Instr.or h) d a b l
    | 14 => Dec.bin (Instr.xor h) d a b l
    | 15 => Dec.bin (Instr.andn h) d a b l
    | 16 => Dec.bin (Instr.shl h) d a b l
    | 17 => Dec.bin (Instr.shr h) d a b l
    | 18 => Dec.bin (Instr.sar h) d a b l
    | 19 => Dec.bin (Instr.rotl h) d a b l
    | 20 => Dec.bin (Instr.bfx h) d a b l
    | 21 => Dec.bin (Instr.bfxs h) d a b l
    | 22 => Dec.bin (Instr.bfi h) d a b l
    | 23 => Dec.un (Instr.popc h) d a b l
    | 24 => Dec.un (Instr.clz h) d a b l
    | 25 => Dec.un (Instr.ctz h) d a b l
    | 26 => Dec.un (Instr.brev h) d a b l
    | 27 => Dec.bin64 (Instr.iadd64 h) d a b l
    | 28 => Dec.bin64 (Instr.isub64 h) d a b l
    | 29 => Dec.bin64 (Instr.imul64 h) d a b l
    | 30 => Dec.bin (Instr.shl64 h) d a b l
    | 31 => Dec.bin (Instr.shr64 h) d a b l
    | 32 => Dec.predI (Instr.icmp h) d a b l
    | 33 => Dec.predI (Instr.ncmp h) d a b l
    | 34 => Dec.un (Instr.mov h) d a b l
    | 35 => Dec.un64 (Instr.mov64 h) d a b l
    | 36 => Dec.bin (Instr.iadds h) d a b l
    | 37 => Dec.bin (Instr.isubs h) d a b l
    | 38 => Dec.bin (Instr.dot4i h) d a b l
    | 39 => Dec.bin (Instr.dot4n h) d a b l
    | 40 => Dec.bin (Instr.pack h) d a b l
    | 41 => Dec.bin (Instr.permb h) d a b l
    | 42 => Dec.bin (Instr.xswz h) d a b l
    | _ => .error 2
  | _ => .error 2

/-- Class F (R99). -/
def decodeF (h : Hdr) (l : Word) (w : Nat) : Dec Instr :=
  match fields [6, 6, 7, 6] w with
  | [op, d, a, b] => match op with
    | 0 => Dec.bin (Instr.fadd h) d a b l
    | 1 => Dec.bin (Instr.fsub h) d a b l
    | 2 => Dec.bin (Instr.fmul h) d a b l
    | 3 => Dec.bin (Instr.ffma h) d a b l
    | 4 => Dec.bin (Instr.ffms h) d a b l
    | 5 => Dec.bin (Instr.fmin h) d a b l
    | 6 => Dec.bin (Instr.fmax h) d a b l
    | 7 => Dec.bin (Instr.fminn h) d a b l
    | 8 => Dec.bin (Instr.fmaxn h) d a b l
    | 9 => Dec.un (Instr.fabs h) d a b l
    | 10 => Dec.un (Instr.fneg h) d a b l
    | 11 => Dec.predF (Instr.fcmp h) d a b l
    | 12 => Dec.un (Instr.fclass h) d a b l
    | 13 => Dec.selR (Instr.frnd h) d a b l
    | 14 => Dec.bin (Instr.fldexp h) d a b l
    | 15 => Dec.un (Instr.ffract h) d a b l
    | 16 => Dec.bin (Instr.hadd2 h) d a b l
    | 17 => Dec.bin (Instr.hmul2 h) d a b l
    | 18 => Dec.bin (Instr.hfma2 h) d a b l
    | 19 => Dec.bin (Instr.hmin2 h) d a b l
    | 20 => Dec.bin (Instr.hmax2 h) d a b l
    | 21 => Dec.bin (Instr.badd2 h) d a b l
    | 22 => Dec.bin (Instr.bmul2 h) d a b l
    | 23 => Dec.bin (Instr.bfma2 h) d a b l
    | 24 => Dec.predH (Instr.hcmp2 h) d a b l
    | 25 => Dec.selC (Instr.cvt h) d a b l
    | 26 => Dec.selQ (Instr.cvtq h) d a b l
    | 27 => Dec.selS (Instr.sfn h) d a b l
    | 28 => Dec.bin (Instr.fdot2 h) d a b l
    | 29 => Dec.bin (Instr.hdot2 h) d a b l
    | 30 => Dec.bin (Instr.qdot4 h) d a b l
    | 31 => Dec.un (Instr.fsat h) d a b l
    | _ => .error 2
  | _ => .error 2

/-- Class M (R100). -/
def decodeM (h : Hdr) (l : Word) (w : Nat) : Dec Instr :=
  match fields [4, 6, 7, 8] w with
  | [op, d, a, m] => match op with
    | 0 => Dec.sp (Instr.lds h) d a m l
    | 1 => Dec.sp (Instr.lds2 h) d a m l
    | 2 => Dec.sp (Instr.lds4 h) d a m l
    | 3 => Dec.sp (Instr.sts h) d a m l
    | 4 => Dec.sp (Instr.sts2 h) d a m l
    | 5 => Dec.sp (Instr.sts4 h) d a m l
    | 6 => Dec.gl false (Instr.ldg h) d a m l
    | 7 => Dec.gl false (Instr.ldg2 h) d a m l
    | 8 => Dec.gl false (Instr.ldg4 h) d a m l
    | 9 => Dec.gl true (Instr.stg h) d a m l
    | 10 => Dec.gl true (Instr.stg2 h) d a m l
    | 11 => Dec.gl true (Instr.stg4 h) d a m l
    | 12 => Dec.ats (Instr.ats h) d a m l
    | 13 => Dec.atg (Instr.atg h) d a m l
    | 14 => Dec.atgx (Instr.atgx h) d a m l
    | 15 => Dec.prf (Instr.prf h) d a m l
    | _ => .error 2
  | _ => .error 2

/-- Class X (R101). -/
noncomputable def decodeX (h : Hdr) (w : Nat) : Dec Instr :=
  match fields [6, 19] w with
  | [op, p] => match op with
    | 0 => match fields [19] p with | [x0] => Dec.zero x0 (.ok (Instr.nop h)) | _ => .error 2
    | 1 => match fields [19] p with | [x0] => Dec.ap (.ok (Instr.bra h)) (Dec.fin 524288 x0) | _ => .error 2
    | 2 => match fields [13, 6] p with | [x0, x1] => Dec.zero x0 (Dec.ap (.ok (Instr.brx h)) (Dec.fin 64 x1)) | _ => .error 2
    | 3 => match fields [19] p with | [x0] => Dec.ap (.ok (Instr.call h)) (Dec.fin 524288 x0) | _ => .error 2
    | 4 => match fields [13, 6] p with | [x0, x1] => Dec.zero x0 (Dec.ap (.ok (Instr.callx h)) (Dec.fin 64 x1)) | _ => .error 2
    | 5 => match fields [19] p with | [x0] => Dec.zero x0 (.ok (Instr.ret h)) | _ => .error 2
    | 6 => match fields [19] p with | [x0] => Dec.zero x0 (.ok (Instr.exit h)) | _ => .error 2
    | 7 => match fields [2, 8, 3, 6] p with | [x0, x1, x2, x3] => Dec.zero x2 (Dec.ap (Dec.ap (Dec.ap (.ok (Instr.loop h)) (Dec.lvl x0)) (Dec.fin 256 x1)) (Dec.fin 64 x3)) | _ => .error 2
    | 8 => match fields [2, 8, 9] p with | [x0, x1, x2] => Dec.ap (Dec.ap (Dec.ap (.ok (Instr.loopi h)) (Dec.lvl x0)) (Dec.fin 256 x1)) (Dec.fin 512 x2) | _ => .error 2
    | 9 => match fields [19] p with | [x0] => Dec.zero x0 (.ok (Instr.lbrk h)) | _ => .error 2
    | 10 => match fields [6, 6, 7] p with | [x0, x1, x2] => Dec.zero x2 (Dec.ap (Dec.ap (.ok (Instr.spawn h)) (Dec.fin 64 x0)) (Dec.fin 64 x1)) | _ => .error 2
    | 11 => match fields [6, 6, 6, 1] p with | [x0, x1, x2, x3] => Dec.zero x3 (Dec.ap (Dec.ap (Dec.ap (.ok (Instr.spawng h)) (Dec.fin 64 x0)) (Dec.fin 64 x1)) (Dec.fin 64 x2)) | _ => .error 2
    | 12 => match fields [19] p with | [x0] => Dec.zero x0 (.ok (Instr.yield h)) | _ => .error 2
    | 13 => match fields [6, 6, 6, 1] p with | [x0, x1, x2, x3] => Dec.ap (Dec.ap (Dec.ap (Dec.ap (.ok (Instr.trace h)) (Dec.fin 64 x0)) (Dec.fin 64 x1)) (Dec.fin 64 x2)) (Dec.bool x3) | _ => .error 2
    | 14 => match fields [6, 13] p with | [x0, x1] => Dec.zero x1 (Dec.ap (.ok (Instr.dqpop h)) (Dec.fin 64 x0)) | _ => .error 2
    | 15 => match fields [6, 6, 7] p with | [x0, x1, x2] => Dec.ap (Dec.ap (Dec.ap (.ok (Instr.getsr h)) (Dec.fin 64 x0)) (Dec.sr x1)) (Dec.src6 x2) | _ => .error 2
    | 16 => match fields [6, 13] p with | [x0, x1] => Dec.zero x1 (Dec.ap (.ok (Instr.bar h)) (Dec.fin 64 x0)) | _ => .error 2
    | 17 => match fields [6, 13] p with | [x0, x1] => Dec.zero x1 (Dec.ap (.ok (Instr.bara h)) (Dec.fin 64 x0)) | _ => .error 2
    | 18 => match fields [6, 6, 7] p with | [x0, x1, x2] => Dec.zero x2 (Dec.ap (Dec.ap (.ok (Instr.barw h)) (Dec.fin 64 x0)) (Dec.fin 64 x1)) | _ => .error 2
    | 19 => match fields [19] p with | [x0] => Dec.zero x0 (.ok (Instr.gbar h)) | _ => .error 2
    | 20 => match fields [3, 2, 14] p with | [x0, x1, x2] => Dec.zero x2 (Dec.ap (Dec.ap (.ok (Instr.fence h)) (Dec.fenceScope x0)) (Dec.fenceOrder x1)) | _ => .error 2
    | 21 => match fields [19] p with | [x0] => Dec.ap (.ok (Instr.mset h)) (Dec.mset x0) | _ => .error 2
    | 22 => match fields [19] p with | [x0] => Dec.zero x0 (.ok (Instr.syncm h)) | _ => .error 2
    | 23 => match fields [6, 7, 6] p with | [x0, x1, x2] => Dec.ap (Dec.ap (Dec.ap (.ok (Instr.shfl h)) (Dec.fin 64 x0)) (Dec.shuf x1)) (Dec.fin 64 x2) | _ => .error 2
    | 24 => match fields [6, 7, 6] p with | [x0, x1, x2] => Dec.ap (Dec.ap (Dec.ap (.ok (Instr.shflx h)) (Dec.fin 64 x0)) (Dec.shuf x1)) (Dec.fin 64 x2) | _ => .error 2
    | 25 => match fields [6, 7, 6] p with | [x0, x1, x2] => Dec.ap (Dec.ap (Dec.ap (.ok (Instr.shflu h)) (Dec.fin 64 x0)) (Dec.shuf x1)) (Dec.fin 64 x2) | _ => .error 2
    | 26 => match fields [6, 7, 6] p with | [x0, x1, x2] => Dec.ap (Dec.ap (Dec.ap (.ok (Instr.shfld h)) (Dec.fin 64 x0)) (Dec.shuf x1)) (Dec.fin 64 x2) | _ => .error 2
    | 27 => match fields [3, 3, 1, 2, 10] p with | [x0, x1, x2, x3, x4] => Dec.zero x4 (Dec.ap (Dec.ap (Dec.ap (Dec.ap (.ok (Instr.vote h)) (Dec.prd x0)) (Dec.fin 8 x1)) (Dec.bool x2)) (Dec.opt 3 (VoteFn.ofCode x3))) | _ => .error 2
    | 28 => match fields [6, 3, 1, 9] p with | [x0, x1, x2, x3] => Dec.zero x3 (Dec.ap (Dec.ap (Dec.ap (.ok (Instr.ballot h)) (Dec.fin 64 x0)) (Dec.fin 8 x1)) (Dec.bool x2)) | _ => .error 2
    | 29 => match fields [6, 4, 3, 6] p with | [x0, x1, x2, x3] => Dec.zero x2 (Dec.ap (Dec.ap (Dec.ap (.ok (Instr.sred h)) (Dec.fin 64 x0)) (Dec.opt 3 (RedFn.ofCode x1))) (Dec.fin 64 x3)) | _ => .error 2
    | 30 => match fields [6, 4, 1, 2, 6] p with | [x0, x1, x2, x3, x4] => Dec.zero x3 (Dec.ap (Dec.ap (Dec.ap (Dec.ap (.ok (Instr.sscan h)) (Dec.fin 64 x0)) (Dec.opt 3 (RedFn.ofCode x1))) (Dec.bool x2)) (Dec.fin 64 x4)) | _ => .error 2
    | 31 => match fields [2, 4, 4, 2, 7] p with | [x0, x1, x2, x3, x4] => Dec.zero x4 (Dec.ap (Dec.ap (Dec.ap (Dec.ap (.ok (Instr.cmmab h)) (Dec.fin 4 x0)) (Dec.fin 16 x1)) (Dec.fin 16 x2)) (Dec.opt 3 (CmmabTy.ofCode x3))) | _ => .error 2
    | 32 => match fields [2, 4, 4, 2, 7] p with | [x0, x1, x2, x3, x4] => Dec.zero x4 (Dec.ap (Dec.ap (Dec.ap (Dec.ap (.ok (Instr.cmmaq h)) (Dec.fin 4 x0)) (Dec.fin 16 x1)) (Dec.fin 16 x2)) (Dec.opt 3 (CmmaqTy.ofCode x3))) | _ => .error 2
    | 33 => match fields [6, 4, 3, 2, 4] p with | [x0, x1, x2, x3, x4] => Dec.zero x4 (Dec.ap (Dec.ap (Dec.ap (Dec.ap (.ok (Instr.tstore h)) (Dec.fin 64 x0)) (Dec.fin 16 x1)) (Dec.fin 8 x2)) (Dec.fin 4 x3)) | _ => .error 2
    | 34 => match fields [6, 4, 9] p with | [x0, x1, x2] => Dec.ap (Dec.ap (Dec.ap (.ok (Instr.tdrain h)) (Dec.fin 64 x0)) (Dec.fin 16 x1)) (Dec.tdrain x2) | _ => .error 2
    | 35 => match fields [3, 3, 3, 2, 1, 1, 6] p with | [x0, x1, x2, x3, x4, x5, x6] => Dec.zero x6 (Dec.ap (Dec.ap (Dec.ap (Dec.ap (Dec.ap (Dec.ap (.ok (Instr.pset h)) (Dec.prd x0)) (Dec.fin 8 x1)) (Dec.fin 8 x2)) (Dec.opt 3 (LogicOp.ofCode x3))) (Dec.bool x4)) (Dec.bool x5)) | _ => .error 2
    | 36 => match fields [19] p with | [x0] => Dec.ap (.ok (Instr.pmov h)) (Dec.pmov x0) | _ => .error 2
    | 37 => match fields [19] p with | [x0] => Dec.ap (.ok (Instr.tbegin h)) (Dec.fin 524288 x0) | _ => .error 2
    | 38 => match fields [19] p with | [x0] => Dec.zero x0 (.ok (Instr.tend h)) | _ => .error 2
    | 39 => match fields [11, 8] p with | [x0, x1] => Dec.zero x0 (Dec.ap (.ok (Instr.tabort h)) (Dec.fin 256 x1)) | _ => .error 2
    | 40 => Dec.trap h p
    | 41 => Dec.bpt h p
    | 42 => match fields [6, 7, 6] p with | [x0, x1, x2] => Dec.ap (Dec.ap (Dec.ap (.ok (Instr.qhop h)) (Dec.fin 64 x0)) (Dec.laneAq x1)) (Dec.fin 64 x2) | _ => .error 2
    | _ => .error 2
  | _ => .error 2

/-- Class UA (R102). -/
noncomputable def decodeUA (h : Hdr) (l : Word) (w : Nat) : Dec Instr :=
  match fields [6, 5, 6, 8] w with
  | [op, d, a, b] => match op with
    | 0 => Dec.ubin (Instr.sadd h) d a b l
    | 1 => Dec.ubin (Instr.ssub h) d a b l
    | 2 => Dec.ubin (Instr.ssubr h) d a b l
    | 3 => Dec.ubin (Instr.smul h) d a b l
    | 4 => Dec.ubin (Instr.smulhi h) d a b l
    | 5 => Dec.ubin (Instr.snmulhi h) d a b l
    | 6 => Dec.ubin (Instr.smad h) d a b l
    | 7 => Dec.ubin (Instr.smin h) d a b l
    | 8 => Dec.ubin (Instr.smax h) d a b l
    | 9 => Dec.ubin (Instr.snmin h) d a b l
    | 10 => Dec.ubin (Instr.snmax h) d a b l
    | 11 => Dec.ubin (Instr.sand h) d a b l
    | 12 => Dec.ubin (Instr.sor h) d a b l
    | 13 => Dec.ubin (Instr.sxor h) d a b l
    | 14 => Dec.ubin (Instr.sandn h) d a b l
    | 15 => Dec.ubin (Instr.sshl h) d a b l
    | 16 => Dec.ubin (Instr.sshr h) d a b l
    | 17 => Dec.ubin (Instr.ssar h) d a b l
    | 18 => Dec.ubin (Instr.sbfx h) d a b l
    | 19 => Dec.ubin (Instr.sbfi h) d a b l
    | 20 => Dec.uun (Instr.spopc h) d a b l
    | 21 => Dec.uun (Instr.sclz h) d a b l
    | 22 => Dec.uun (Instr.smov h) d a b l
    | 23 => Dec.ubin64 (Instr.sadd64 h) d a b l
    | 24 => Dec.ubin64 (Instr.ssub64 h) d a b l
    | 25 => Dec.upred (Instr.scmp h) d a b l
    | 26 => Dec.upred (Instr.sncmp h) d a b l
    | 27 => Dec.ubin (Instr.sfadd h) d a b l
    | 28 => Dec.ubin (Instr.sfmul h) d a b l
    | 29 => Dec.ubin (Instr.sffma h) d a b l
    | 30 => Dec.upred (Instr.sfcmp h) d a b l
    | 31 => Dec.usel (Instr.scvt h) d a b l
    | 32 => Dec.ubin (Instr.ssel h) d a b l
    | _ => .error 2
  | _ => .error 2

/-- Class UM (R103). -/
noncomputable def decodeUM (h : Hdr) (l : Word) (w : Nat) : Dec Instr :=
  match fields [4, 5, 6, 10] w with
  | [op, d, a, m] => match op with
    | 0 => Dec.ugl false (Instr.sldg h) d a m l
    | 1 => Dec.ugl false (Instr.sldg2 h) d a m l
    | 2 => Dec.ugl false (Instr.sldg4 h) d a m l
    | 3 => Dec.ugl true (Instr.sstg h) d a m l
    | 4 => Dec.ugl true (Instr.sstg2 h) d a m l
    | 5 => Dec.usp (Instr.slds h) d a m l
    | 6 => Dec.usp (Instr.ssts h) d a m l
    | 7 => Dec.usatg (Instr.satg h) d a m l
    | 8 => Dec.usldk (Instr.sldk h) d a m l
    | 9 => Dec.usprf (Instr.sprf h) d a m l
    | _ => .error 2
  | _ => .error 2

/-- Class UE (R105). -/
noncomputable def decodeUE (h : Hdr) (l : Word) (w : Nat) : Dec Instr :=
  match fields [6, 19] w with
  | [op, p] => match op with
    | 0 => Dec.mma .mmaBf16 (Instr.mmaBf16 h) p
    | 1 => Dec.mma .mmaFp16 (Instr.mmaFp16 h) p
    | 2 => Dec.mma .mmaE4 (Instr.mmaE4 h) p
    | 3 => Dec.mma .mmaE5 (Instr.mmaE5 h) p
    | 4 => Dec.mma .mmaF6a (Instr.mmaF6a h) p
    | 5 => Dec.mma .mmaF6b (Instr.mmaF6b h) p
    | 6 => Dec.mma .mmaF4 (Instr.mmaF4 h) p
    | 7 => Dec.mmaLit .mmaMx4 (Instr.mmaMx4 h) p l
    | 8 => Dec.mmaLit .mmaMx6a (Instr.mmaMx6a h) p l
    | 9 => Dec.mmaLit .mmaMx8 (Instr.mmaMx8 h) p l
    | 10 => Dec.mma .mmaI8 (Instr.mmaI8 h) p
    | 11 => Dec.mma .mmaI4 (Instr.mmaI4 h) p
    | 12 => Dec.mmaLit .mmaI8bf (Instr.mmaI8bf h) p l
    | 13 => Dec.mmaLit .mmaI8e4 (Instr.mmaI8e4 h) p l
    | 14 => Dec.mmaLit .mmaBfmx4 (Instr.mmaBfmx4 h) p l
    | 15 => Dec.mmaLit .mmaE4bf (Instr.mmaE4bf h) p l
    | 16 => match fields [4, 4, 3, 8] p with | [x0, x1, x2, x3] => Dec.zero x3 (Dec.ap (Dec.ap (Dec.ap (.ok (Instr.medge h)) (Dec.fin 16 x0)) (Dec.fin 16 x1)) (Dec.fin 8 x2)) | _ => .error 2
    | 17 => match fields [4, 4, 3, 2, 6] p with | [x0, x1, x2, x3, x4] => Dec.zero x4 (Dec.ap (Dec.ap (Dec.ap (Dec.ap (.ok (Instr.mfilt h)) (Dec.fin 16 x0)) (Dec.fin 16 x1)) (Dec.fin 8 x2)) (Dec.opt 3 (TxFmt.ofCode x3))) | _ => .error 2
    | 18 => match fields [4, 4, 4, 7] p with | [x0, x1, x2, x3] => Dec.zero x3 (Dec.ap (Dec.ap (Dec.ap (.ok (Instr.mblend h)) (Dec.fin 16 x0)) (Dec.fin 16 x1)) (Dec.fin 16 x2)) | _ => .error 2
    | 19 => match fields [4, 4, 4, 4, 3] p with | [x0, x1, x2, x3, x4] => Dec.zero x4 (Dec.ap (Dec.ap (Dec.ap (Dec.ap (.ok (Instr.mblendb h)) (Dec.fin 16 x0)) (Dec.fin 16 x1)) (Dec.fin 16 x2)) (Dec.fin 16 x3)) | _ => .error 2
    | 20 => match fields [4, 3, 3, 3, 1, 5] p with | [x0, x1, x2, x3, x4, x5] => Dec.zero x5 (Dec.ap (Dec.ap (Dec.ap (Dec.ap (Dec.ap (.ok (Instr.mdrain h)) (Dec.fin 16 x0)) (Dec.fin 8 x1)) (Dec.opt 3 (DrainFmt.ofCode x2))) (Dec.opt 3 (Rnd.ofCode x3))) (Dec.bool x4)) | _ => .error 2
    | 21 => match fields [4, 3, 12] p with | [x0, x1, x2] => Dec.zero x2 (Dec.ap (Dec.ap (.ok (Instr.mspill h)) (Dec.fin 16 x0)) (Dec.fin 8 x1)) | _ => .error 2
    | 22 => match fields [4, 3, 12] p with | [x0, x1, x2] => Dec.zero x2 (Dec.ap (Dec.ap (.ok (Instr.mfill h)) (Dec.fin 16 x0)) (Dec.fin 8 x1)) | _ => .error 2
    | 23 => match fields [4, 3, 12] p with | [x0, x1, x2] => Dec.zero x2 (Dec.ap (Dec.ap (.ok (Instr.macc h)) (Dec.fin 16 x0)) (Dec.fin 8 x1)) | _ => .error 2
    | 24 => match fields [4, 2, 13] p with | [x0, x1, x2] => Dec.zero x2 (Dec.ap (Dec.ap (.ok (Instr.mzero h)) (Dec.fin 16 x0)) (Dec.opt 3 (TileClass.ofCode x1))) | _ => .error 2
    | 25 => match fields [19] p with | [x0] => Dec.zero x0 (.ok (Instr.mwait h)) | _ => .error 2
    | 26 => match fields [2, 5, 12] p with | [x0, x1, x2] => Dec.zero x2 (Dec.ap (Dec.ap (.ok (Instr.mcfg h)) (Dec.opt 3 (McfgSel.ofCode x0))) (Dec.fin 32 x1)) | _ => .error 2
    | 27 => match fields [3, 3, 2, 11] p with | [x0, x1, x2, x3] => Dec.zero x3 (Dec.ap (Dec.ap (Dec.ap (.ok (Instr.wload h)) (Dec.fin 8 x0)) (Dec.fin 8 x1)) (Dec.opt 3 (Rank.ofCode x2))) | _ => .error 2
    | 28 => match fields [4, 4, 3, 8] p with | [x0, x1, x2, x3] => Dec.zero x3 (Dec.ap (Dec.ap (Dec.ap (.ok (Instr.tload h)) (Dec.fin 16 x0)) (Dec.fin 16 x1)) (Dec.fin 8 x2)) | _ => .error 2
    | 32 => match fields [5, 5, 2, 7] p with | [x0, x1, x2, x3] => Dec.zero x3 (Dec.ap (Dec.ap (Dec.ap (.ok (Instr.tcopy h)) (Dec.fin 32 x0)) (Dec.fin 32 x1)) (Dec.opt 3 (Place.ofCode x2))) | _ => .error 2
    | 33 => match fields [5, 5, 2, 7] p with | [x0, x1, x2, x3] => Dec.zero x3 (Dec.ap (Dec.ap (Dec.ap (.ok (Instr.tcopym h)) (Dec.fin 32 x0)) (Dec.fin 32 x1)) (Dec.opt 3 (Place.ofCode x2))) | _ => .error 2
    | 34 => match fields [5, 5, 2, 7] p with | [x0, x1, x2, x3] => Dec.zero x3 (Dec.ap (Dec.ap (Dec.ap (.ok (Instr.gather h)) (Dec.fin 32 x0)) (Dec.fin 32 x1)) (Dec.opt 3 (Place.ofCode x2))) | _ => .error 2
    | 35 => match fields [5, 5, 2, 7] p with | [x0, x1, x2, x3] => Dec.zero x3 (Dec.ap (Dec.ap (Dec.ap (.ok (Instr.scatter h)) (Dec.fin 32 x0)) (Dec.fin 32 x1)) (Dec.opt 3 (Place.ofCode x2))) | _ => .error 2
    | 36 => match fields [5, 5, 2, 7] p with | [x0, x1, x2, x3] => Dec.zero x3 (Dec.ap (Dec.ap (Dec.ap (.ok (Instr.sortk h)) (Dec.fin 32 x0)) (Dec.fin 32 x1)) (Dec.opt 3 (Place.ofCode x2))) | _ => .error 2
    | 37 => match fields [5, 5, 2, 7] p with | [x0, x1, x2, x3] => Dec.zero x3 (Dec.ap (Dec.ap (Dec.ap (.ok (Instr.route h)) (Dec.fin 32 x0)) (Dec.fin 32 x1)) (Dec.opt 3 (Place.ofCode x2))) | _ => .error 2
    | 38 => match fields [5, 5, 2, 7] p with | [x0, x1, x2, x3] => Dec.zero x3 (Dec.ap (Dec.ap (Dec.ap (.ok (Instr.coll h)) (Dec.fin 32 x0)) (Dec.fin 32 x1)) (Dec.opt 3 (Place.ofCode x2))) | _ => .error 2
    | 39 => match fields [19] p with | [x0] => Dec.zero x0 (.ok (Instr.cfence h)) | _ => .error 2
    | 40 => Dec.beamgo h p
    | 48 => match fields [5, 5, 1, 8] p with | [x0, x1, x2, x3] => Dec.zero x3 (Dec.ap (Dec.ap (Dec.ap (.ok (Instr.barnew h)) (Dec.fin 32 x0)) (Dec.fin 32 x1)) (Dec.bool x2)) | _ => .error 2
    | 49 => match fields [5, 14] p with | [x0, x1] => Dec.zero x1 (Dec.ap (.ok (Instr.barfree h)) (Dec.fin 32 x0)) | _ => .error 2
    | 50 => match fields [5, 5, 9] p with | [x0, x1, x2] => Dec.zero x2 (Dec.ap (Dec.ap (.ok (Instr.barexp h)) (Dec.fin 32 x0)) (Dec.fin 32 x1)) | _ => .error 2
    | 51 => match fields [5, 14] p with | [x0, x1] => Dec.ap (Dec.ap (.ok (Instr.sbar h)) (Dec.fin 32 x0)) (Dec.sbar x1) | _ => .error 2
    | 52 => match fields [5, 14] p with | [x0, x1] => Dec.zero x1 (Dec.ap (.ok (Instr.sbara h)) (Dec.fin 32 x0)) | _ => .error 2
    | 53 => match fields [19] p with | [x0] => Dec.zero x0 (.ok (Instr.sstep h)) | _ => .error 2
    | 54 => match fields [5, 14] p with | [x0, x1] => Dec.zero x1 (Dec.ap (.ok (Instr.dqpush h)) (Dec.fin 32 x0)) | _ => .error 2
    | 55 => match fields [19] p with | [x0] => Dec.zero x0 (.ok (Instr.dqclose h)) | _ => .error 2
    | _ => .error 2
  | _ => .error 2

/-- Class UX (R104). -/
noncomputable def decodeUX (h : Hdr) (w : Nat) : Dec Instr :=
  match fields [6, 19] w with
  | [op, p] => match op with
    | 0 => match fields [19] p with | [x0] => Dec.zero x0 (.ok (Instr.snop h)) | _ => .error 2
    | 1 => match fields [19] p with | [x0] => Dec.ap (.ok (Instr.sbra h)) (Dec.fin 524288 x0) | _ => .error 2
    | 2 => match fields [5, 14] p with | [x0, x1] => Dec.zero x1 (Dec.ap (.ok (Instr.sbrx h)) (Dec.fin 32 x0)) | _ => .error 2
    | 3 => match fields [19] p with | [x0] => Dec.ap (.ok (Instr.scall h)) (Dec.fin 524288 x0) | _ => .error 2
    | 4 => match fields [19] p with | [x0] => Dec.zero x0 (.ok (Instr.sret h)) | _ => .error 2
    | 5 => match fields [2, 8, 4, 5] p with | [x0, x1, x2, x3] => Dec.zero x2 (Dec.ap (Dec.ap (Dec.ap (.ok (Instr.sloop h)) (Dec.lvl x0)) (Dec.fin 256 x1)) (Dec.fin 32 x3)) | _ => .error 2
    | 6 => match fields [2, 8, 9] p with | [x0, x1, x2] => Dec.ap (Dec.ap (Dec.ap (.ok (Instr.sloopi h)) (Dec.lvl x0)) (Dec.fin 256 x1)) (Dec.fin 512 x2) | _ => .error 2
    | 7 => match fields [19] p with | [x0] => Dec.zero x0 (.ok (Instr.slbrk h)) | _ => .error 2
    | 8 => match fields [19] p with | [x0] => Dec.zero x0 (.ok (Instr.sexit h)) | _ => .error 2
    | 9 => match fields [19] p with | [x0] => Dec.zero x0 (.ok (Instr.swaits h)) | _ => .error 2
    | 10 => match fields [3, 2, 14] p with | [x0, x1, x2] => Dec.zero x2 (Dec.ap (Dec.ap (.ok (Instr.sfence h)) (Dec.fenceScope x0)) (Dec.fenceOrder x1)) | _ => .error 2
    | 11 => match fields [19] p with | [x0] => Dec.zero x0 (.ok (Instr.syield h)) | _ => .error 2
    | 12 => match fields [5, 6, 8] p with | [x0, x1, x2] => Dec.ap (Dec.ap (Dec.ap (.ok (Instr.sgetsr h)) (Dec.fin 32 x0)) (Dec.sr x1)) (Dec.src5 x2) | _ => .error 2
    | 13 => match fields [5, 1, 13] p with | [x0, x1, x2] => Dec.zero x2 (Dec.ap (Dec.ap (.ok (Instr.timewait h)) (Dec.fin 32 x0)) (Dec.bool x1)) | _ => .error 2
    | 14 => match fields [3, 16] p with | [x0, x1] => Dec.zero x0 (Dec.ap (.ok (Instr.strap h)) (Dec.fin 65536 x1)) | _ => .error 2
    | 15 => match fields [3, 16] p with | [x0, x1] => Dec.zero x0 (Dec.ap (.ok (Instr.sbpt h)) (Dec.fin 65536 x1)) | _ => .error 2
    | 16 => match fields [19] p with | [x0] => Dec.zero x0 (.ok (Instr.eret h)) | _ => .error 2
    | 17 => match fields [5, 5, 9] p with | [x0, x1, x2] => Dec.zero x2 (Dec.ap (Dec.ap (.ok (Instr.csrr h)) (Dec.fin 32 x0)) (Dec.fin 32 x1)) | _ => .error 2
    | 18 => match fields [5, 5, 9] p with | [x0, x1, x2] => Dec.zero x2 (Dec.ap (Dec.ap (.ok (Instr.csrw h)) (Dec.fin 32 x0)) (Dec.fin 32 x1)) | _ => .error 2
    | 19 => match fields [5, 2, 12] p with | [x0, x1, x2] => Dec.zero x2 (Dec.ap (Dec.ap (.ok (Instr.pginv h)) (Dec.fin 32 x0)) (Dec.opt 3 (PgSize.ofCode x1))) | _ => .error 2
    | 20 => match fields [5, 14] p with | [x0, x1] => Dec.zero x1 (Dec.ap (.ok (Instr.halt h)) (Dec.fin 32 x0)) | _ => .error 2
    | 21 => match fields [4, 15] p with | [x0, x1] => Dec.zero x0 (Dec.ap (.ok (Instr.snap h)) (Dec.fin 32768 x1)) | _ => .error 2
    | 22 => match fields [5, 14] p with | [x0, x1] => Dec.zero x1 (Dec.ap (.ok (Instr.logmark h)) (Dec.fin 32 x0)) | _ => .error 2
    | 23 => match fields [5, 14] p with | [x0, x1] => Dec.zero x1 (Dec.ap (.ok (Instr.digest h)) (Dec.fin 32 x0)) | _ => .error 2
    | 24 => match fields [5, 5, 5, 4] p with | [x0, x1, x2, x3] => Dec.zero x3 (Dec.ap (Dec.ap (Dec.ap (.ok (Instr.sspawng h)) (Dec.fin 32 x0)) (Dec.fin 32 x1)) (Dec.fin 32 x2)) | _ => .error 2
    | 25 => match fields [3, 3, 3, 2, 1, 1, 6] p with | [x0, x1, x2, x3, x4, x5, x6] => Dec.zero x6 (Dec.ap (Dec.ap (Dec.ap (Dec.ap (Dec.ap (Dec.ap (.ok (Instr.qpset h)) (Dec.prd x0)) (Dec.fin 8 x1)) (Dec.fin 8 x2)) (Dec.opt 3 (LogicOp.ofCode x3))) (Dec.bool x4)) (Dec.bool x5)) | _ => .error 2
    | _ => .error 2
  | _ => .error 2

/-- The header of a word (R81). -/
def hdrOf (s g : Nat) : Hdr := ⟨s == 1, ⟨g % 8, Nat.mod_lt g (by decide)⟩⟩

/-- Decode of one word with the literal that follows it (R84, checks 3 to 7). -/
noncomputable def decodeNat (w : Nat) (l : Word) : Dec Instr :=
  match fields [1, 1, 3, 2, 25] w with
  | [set, s, g, cls, body] =>
    match set, cls with
    | 0, 0 => decodeA (hdrOf s g) l body
    | 0, 1 => decodeF (hdrOf s g) l body
    | 0, 2 => decodeM (hdrOf s g) l body
    | 0, _ => decodeX (hdrOf s g) body
    | _, 0 => decodeUA (hdrOf s g) l body
    | _, 1 => decodeUM (hdrOf s g) l body
    | _, 2 => decodeUE (hdrOf s g) l body
    | _, _ => decodeUX (hdrOf s g) body
  | _ => .error 2

/-- Decode of a word and the literal that follows it. -/
noncomputable def decode (w l : Word) : Dec Instr := decodeNat w.toNat l

/-- The set bit: the word belongs to the front thread's stream (R81). -/
def frontWord (w : Word) : Bool := w.toNat / 2 ^ 31 == 1

/-- The word takes a literal in its own stream (R82): an assigned opcode whose form reads the literal code; a UA word that names both codes takes none, whatever its form (R93). -/
def takesLiteral (w : Word) : Bool :=
  match fields [1, 1, 3, 2, 25] w.toNat with
  | [set, _, _, cls, body] =>
    match set, cls with
    | 0, 0 => body / 2 ^ 19 < 0x2B && natBits body 12 6 == 127
    | 0, 1 => body / 2 ^ 19 < 0x20 && natBits body 12 6 == 127
    | 0, 2 => natBits body 14 8 == 127
    | 0, _ => false
    | _, 0 =>
      let op := body / 2 ^ 19
      let readsA := !(op == 0x14 || op == 0x15 || op == 0x16 || op == 0x1F)
      let la := natBits body 13 8 == 63
      let lb := natBits body 7 0 == 255
      op < 0x21 && !(la && lb) && (readsA && la || lb)
    | _, 1 => body / 2 ^ 21 < 0xA && natBits body 15 10 == 63
    | _, 2 =>
      let op := body / 2 ^ 19
      (7 ≤ op && op ≤ 9) || (12 ≤ op && op ≤ 15)
    | _, _ => false
  | _ => false

/-- The instruction the decoder reads from w, whose first word is bits [31:0] and whose literal is bits [63:32]. -/
noncomputable def decodeTableWord (_nbits w : Nat) : Option Instr :=
  match decode (BitVec.ofNat 32 w) (BitVec.ofNat 32 (w / 2 ^ 32)) with
  | .ok i => some i
  | .error _ => none

end Sys2Proof
end

