-- ==== Sys2Proof/Config.lean ====
section
/-! DEFINITION. The free values of the machine: what the spec leaves open and no reader of the model may rely on. None has a body. -/

namespace Sys2Proof.Config

/-- The result code of an SFN whose rounding the model's precision ladder did not settle: selector, operand, rounding mode (log 8). -/
opaque sfnUnsettled : Nat → Nat → Nat → Nat

/-- What the model's precision ladder leaves unsettled of an opacity × e^q (R214, R215, log 8): 0 the code of α, 1 whether it is clamped, 2 the code of a product with e^q; with the factor and the exponent, each as integer and power of two. -/
opaque splatUnsettled : Nat → List Int → Nat

/-- The 64-bit code of a depth-plane coefficient whose integer lies outside I64, where the spec states no result (R206, log 20). -/
opaque planeUnstated : Int → Nat

/-- The SLH-DSA-SHAKE-256s public key that FIPS 205 generates from 96 seed bytes (R347, log 48). -/
opaque slhPublic : List Byte → List Byte

/-- Byte i of the signature of a message under the key of a seed (R347, R349, log 48). -/
opaque signature : List Byte → List Byte → Nat → Byte

/-- Length of certificate k, 0 alias and 1 identity, of the two keys' seeds (R347, R349, log 48). -/
opaque certLength : Nat → List Byte → List Byte → Nat
/-- Byte i of certificate k. -/
opaque certByte : Nat → List Byte → List Byte → Nat → Byte

/-- Where the spill area of live ray k of a cluster lies in its die's HBM, in pieces of 1 KiB; the spec gives no place (R203, log 30). -/
opaque spillArea : Nat → Nat → Nat

/-- The snapshot data, whose layout the spec does not give: word i of snapshot n (R366, log 16). -/
opaque snapshotWord : Nat → Nat → Word

/-- The mean package power in watts at a time (R384). -/
opaque powerNow : Nat → Nat

end Sys2Proof.Config
end

