-- ==== Sys2Proof/Machine/Tab.lean ====
section
/-! DEFINITION. Sparse tables: lists of key and value, keys strictly rising, no entry equal to the default an unlisted key reads as. -/

namespace Sys2Proof.Machine

/-- The value at a key, d where none is listed. -/
def tabGet {α : Type} (d : α) : List (Nat × α) → Nat → α
  | [], _ => d
  | (j, x) :: r, k => if j = k then x else tabGet d r k

/-- Lists a value at a key, before the first larger key. -/
def tabInsert {α : Type} (k : Nat) (v : α) : List (Nat × α) → List (Nat × α)
  | [] => [(k, v)]
  | (j, x) :: r => if k < j then (k, v) :: (j, x) :: r else if k = j then (k, v) :: r else (j, x) :: tabInsert k v r

/-- Unlists a key. -/
def tabErase {α : Type} (k : Nat) (t : List (Nat × α)) : List (Nat × α) := t.filter fun e => e.1 != k

/-- The table with a value at a key; the default is unlisted. -/
def tabSet {α : Type} [DecidableEq α] (d : α) (t : List (Nat × α)) (k : Nat) (v : α) : List (Nat × α) :=
  if v = d then tabErase k t else tabInsert k v t

/-- The canonical form: keys strictly rising, no default listed. -/
def tabWf {α : Type} [DecidableEq α] (d : α) : List (Nat × α) → Bool
  | [] => true
  | (k, v) :: r => decide (v ≠ d) && (r.all fun e => k < e.1) && tabWf d r

end Sys2Proof.Machine
end

