-- ==== Sys2Proof/Machine/State.lean ====
section
/-! DEFINITION. The state of the machine as plain data: threads, groves, cores, homes, queues, contexts and the hub (03, 11, 12, 14, 16, 17, 18), and the state after reset. -/

namespace Sys2Proof.Machine

/-- A register a word may write: V or S register n, or predicate Pn or Qn (R59). -/
inductive Reg where
  | gpr (n : Nat) | pred (n : Nat)
  deriving DecidableEq, Repr

/-- One result of a word of an open segment (R86): the word's place, the register, and the value once it has returned. -/
structure Result where
  idx : Nat
  reg : Reg
  fixed : Bool
  val : Option Word
  deriving DecidableEq, Repr

/-- A loop frame: level, body start S and body end E (R314). -/
structure Frame where
  level : Nat
  start : Word
  last : Word
  deriving DecidableEq, Repr

/-- The control state of a thread: PC, return stack (hardware part and spill, top first), loop frames (innermost first), loop counters and MM (R59, R62, R314). -/
structure Ctl where
  pc : Word
  hw : List Word
  spill : List Word
  frames : List Frame
  lc : List (Nat × Word)
  mm : DWord
  deriving DecidableEq, Repr

/-- A precise trap met at a word of a segment and not yet taken (R65, R88). -/
structure TrapInfo where
  idx : Nat
  pc : Word
  cause : Nat
  detail : Nat
  decode : Bool
  txn : Bool
  tval : DWord
  /-- TMASK, once every thread of the stand has its home checks answered -/
  mask : Option DWord
  deriving DecidableEq, Repr

/-- A parkable fault met at a word of a segment (R88, R356): the access and its kind (0 load, 1 store or atomic). -/
structure ParkInfo where
  idx : Nat
  pc : Word
  va : Nat
  kind : Nat
  die : Nat
  deriving DecidableEq, Repr

/-- How a segment ends (R85): still open, ended, ended by an exit, or by a return from a handler. -/
inductive SegEnd where
  | running | ended | exits | erets
  deriving DecidableEq, Repr

/-- A pending write of a special register (R72). -/
structure SrWrite where
  idx : Nat
  sr : Nat
  val : Word
  deriving DecidableEq, Repr

/-- An open segment of a thread (R85-R88). -/
structure Seg where
  words : Nat
  pcs : List Word
  results : List Result
  nvar : Nat
  writes : List SrWrite
  flags : List (Nat × Nat)
  checks : List Nat
  trap : Option TrapInfo
  park : Option ParkInfo
  abort : Option (Nat × Nat)
  ctl : Ctl
  /-- the last word took a transfer (R314) -/
  moved : Bool
  fin : SegEnd
  /-- special registers at the segment's start that change by themselves (R72) -/
  start : List (Nat × Word)
  /-- the word at which its stand has stopped: the segment ends after it (R350) -/
  limit : Option Nat
  deriving DecidableEq, Repr

/-- What a thread waits for. -/
inductive Wait where
  /-- nothing -/
  | none
  /-- a word that is tried again at issue (R105); push is true for DQPUSH (R42) -/
  | issue (push : Bool)
  /-- a gathering at a cross-lane word (R149): the word, whether the guard is true, and when the wait began -/
  | gather (i : Instr) (on : Bool) (since : Nat)
  /-- a phase of a barrier entry (R276) -/
  | bar (handle : Nat) (phase : Nat) (since : Nat)
  /-- a GBAR phase (R317) -/
  | gbar (phase : Nat) (since : Nat)
  /-- a record of the decision queue (R37) -/
  | dqpop (d : Nat)
  /-- the stores a release fence names (R251) -/
  | fence (p : Scope)
  /-- a global time (R273) -/
  | until (deadline : Nat)
  /-- SSTEP number k: before arrival, or arrived and waiting (R260) -/
  | sstep (k : Nat) (arrived : Bool) (since : Nat)
  /-- the serial token (R259) -/
  | serial
  /-- TEND's release (R258), and whether a lower lane of its stand then wins (R259) -/
  | tend (loses : Bool)
  /-- a commit at visibility time vc (R258) -/
  | commit (vc : Nat)
  /-- PGINV's lease wait, known by its id (R339) -/
  | pginv (id : Nat)
  /-- a logged choice of a REPLAY launch (R224) -/
  | replay (since : Nat)
  deriving DecidableEq, Repr

/-- The transaction of a thread (R257, R278): TXST's fields, the abort target, the lines read with the store each load returned, and the buffered bytes. -/
structure Txn where
  isOpen : Bool
  serial : Bool
  cause : Nat
  nconf : Nat
  code : Nat
  target : Word
  reads : List (Nat × Nat)
  wlines : List Nat
  buf : List (Nat × Byte)
  /-- after a FAULT abort: the abort target an ERET goes to, unless the handler wrote TPC (R280) -/
  eretTo : Option Word
  deriving DecidableEq, Repr

/-- Whether a thread exists and runs (R30, R43, R356). -/
inductive Life where
  | empty | run | parked | exited
  deriving DecidableEq, Repr

/-- A lane thread or a front thread (R59). -/
structure Thread where
  front : Bool
  tid : Nat
  strand : Nat
  lane : Nat
  width : Nat
  seedling : Bool
  core : Nat
  life : Life
  regs : List (Nat × Word)
  preds : List (Nat × Bool)
  ctl : Ctl
  fpc : Nat
  flg : Nat
  tpc : Word
  tcause : Word
  tmask : DWord
  tval : DWord
  th : Bool
  bankRegs : List (Nat × Word)
  bankLc : List (Nat × Word)
  bankMm : DWord
  bankFrames : List Frame
  seedw : List (Nat × Word)
  seg : Option Seg
  /-- the stand the thread belongs to for its segment (R31), 0 for none, and the part of it that it issues with while a wait holds others back (log 23) -/
  team : Nat
  stand : Nat
  wait : Wait
  txn : Txn
  dqPos : Nat
  gbars : Nat
  /-- the SSTEPs the front thread has executed (R260), and those at which it has arrived -/
  ssteps : Nat
  arrived : Nat
  /-- GT of the last SSTEP arrival, and the GBAR or SSTEP a time-out left, to whose phase a return goes back (R305, R317) -/
  arriveGt : Nat
  again : Option Word
  /-- ordinals of SPAWN, TRACE, posts and BEAMGO (R222), and the record position of a REPLAY -/
  spawnOrd : Nat
  traceOrd : Nat
  postOrd : Nat
  beamOrd : Nat
  /-- the order number of its last issue, from which the wait age is judged, and whether SYIELD was that issue (R299, R316) -/
  age : Nat
  yielded : Bool
  /-- the core cycle from which the wait age counts, and one more than the cycle of the last issue (R299) -/
  since : Nat
  issuedAt : Nat
  deriving DecidableEq, Repr

/-- An entry of a barrier table (R274). -/
structure Barrier where
  gen : Nat
  live : Bool
  count : Nat
  arr : Nat
  pend : Int
  phase : Nat
  deriving DecidableEq, Repr

/-- A row of an accumulator unit: poison, OVF, COUNT, the flags DF of drains, and the elements as value and flag F (R127-R130); and whether an error has struck it that no read has found (R172). -/
structure AcRow where
  poison : Bool
  ovf : Bool
  count : Nat
  df : Nat
  elems : List (Nat × Int × Nat)
  bad : Bool
  deriving DecidableEq, Repr

/-- An accumulator unit: its class tag, whether it lies inside an ACW tile, and its 64 rows (R67, R68). -/
structure AcUnit where
  cls : TileClass
  interior : Bool
  rows : List (Nat × AcRow)
  deriving DecidableEq, Repr

/-- A pending trap of a front thread (R173, R178). -/
structure PendTrap where
  cause : Nat
  detail : Nat
  tval : Nat
  pc : Word
  deriving DecidableEq, Repr

/-- The sequenced array commands with their fields (R105, R177). -/
inductive ArrayCmd where
  | mma (f : MmaForm) (m : MmaArgs) (l : Option MmaLit)
  | medge (v w : Nat)
  | mfilt (t w : Nat) (x : TxFmt)
  | mblend (t p : Nat)
  | mblendb (t p q : Nat)
  | mdrain (f : DrainFmt) (r : Rnd) (clr : Bool)
  | mspill | mfill | macc
  | mzero (l : TileClass)
  deriving DecidableEq, Repr

/-- A command of the matrix array in flight (R69, R174): the word and its place, what it captured at issue (FPC, stage words, PSEL, its S group), its place in issue order, how far it has run, the units it holds (R175), the rank of a latent mode, the A scales of the K chunk in progress, the first overflowing step with the lowest overflowing row (R173), and the pending trap it leaves. -/
structure Msq where
  cmd : ArrayCmd
  pc : Word
  fpc : Nat
  mcs0 : Word
  mcs1 : Word
  mcs2 : Word
  psel : Nat
  sregs : List Word
  start : Nat
  step : Nat
  total : Nat
  ac : Nat
  units : List Nat
  tas : List Nat
  wbs : List Nat
  rank : Nat
  scales : List (Nat × Nat)
  overflow : Option (Nat × Nat)
  fault : Option PendTrap
  held : Bool
  deriving DecidableEq, Repr

/-- A tile load in flight (R177, R185, R186): its order of issue, its first unit, its bytes, WLOAD's rank code, source, handle and row stride, and the bytes written. -/
structure TileLoad where
  id : Nat
  weight : Bool
  unit : Nat
  size : Nat
  rank : Nat
  src : Nat
  handle : Nat
  stride : Nat
  done : Nat
  pc : Word
  psel : Nat
  deriving DecidableEq, Repr

/-- What a launch fixes for its groves: the descriptor's fields (R78), or a node entry's (R79) with its launch's. -/
structure Desc where
  image : Nat
  lentry : Word
  fentry : Word
  ngx : Nat
  ngy : Nat
  ngz : Nat
  width : Nat
  pair : Bool
  nstr : Nat
  seedl : Nat
  vregs : Nat
  mode : Nat
  placed : Bool
  cogrid : Bool
  superstep : Bool
  verify : Bool
  regs : Nat
  scratch : Nat
  l1 : Nat
  callstk : Nat
  tas : Nat
  wbs : Nat
  acs : Nat
  seedt : Nat
  fpc0 : Nat
  const : Nat
  nodes : Nat
  nnode : Nat
  spill : Nat
  spilln : Nat
  seed : Nat
  event : Nat
  evinc : Nat
  deriving DecidableEq, Repr

/-- A resident grove (R25-R30). -/
structure Grove where
  id : Nat
  ctx : Nat
  launch : Nat
  ltag : Nat
  linear : Nat
  /-- the node tag of a node grove (R221), and whether the grove is one -/
  node : Bool
  nodeTag : Nat
  gx : Nat
  gy : Nat
  gz : Nat
  core : Nat
  slot : Nat
  /-- CORE of R29 in a PLACED launch; elsewhere CORE is the thread's own core -/
  coreName : Option Nat
  desc : Desc
  realtime : Bool
  lanes : List Thread
  front : Thread
  /-- the decision queue (R37): records by number, the number of the next, closed -/
  dq : List (Nat × List Word)
  dqNext : Nat
  dqClosed : Bool
  bars : List (Nat × Barrier)
  /-- both halves, the partner half from 2^31 up (R57) -/
  scratch : List (Nat × Byte)
  scratchPoison : List (Nat × Bool)
  /-- per pair position p: TA byte a at 2^24·p + a, WB byte at 2^24·p + a, AC unit u at 16·p + u -/
  ta : List (Nat × Byte)
  taPoison : List (Nat × Bool)
  wb : List (Nat × Byte)
  wbPoison : List (Nat × Bool)
  wbRank : List (Nat × Nat)
  ac : List (Nat × AcUnit)
  mcs0 : Word
  mcs1 : Word
  mcs2 : Word
  psel : Nat
  msq : Option Msq
  loads : List TileLoad
  pending : List PendTrap
  /-- commands issued before this number complete before a later one starts (CFENCE, R283) -/
  cfence : Nat
  /-- the run of a VERIFY selection: 0 not selected, 1 original, 2 re-run; its digest; the re-run's shadow by virtual address, and whether it outgrew 8,192 lines (R369-R371) -/
  verify : Nat
  digest : Nat
  shadow : List (Nat × Byte)
  skipped : Bool
  /-- the largest VT + Skew of its own stores (R49) -/
  relTime : Nat
  deriving DecidableEq, Repr

/-- A copy of a line in an L1: physical home and line, the context it was filled for (R333), lease expiry, permission code, bytes (R234, R246). -/
structure L1Line where
  key : Nat
  ctx : Nat
  expiry : Nat
  code : Nat
  bytes : List Byte
  deriving DecidableEq, Repr

/-- A seed in a seedbed (R40): its bed, grove, entry, argument words, its place in planting order, and its key in a logged launch (R221). -/
structure Seed where
  bed : Nat
  gid : Nat
  entry : Word
  args : List (Nat × Word)
  born : Nat
  key : Nat
  deriving DecidableEq, Repr

/-- A core (R14): who owns it, its L1, its seedbeds and their timers. -/
structure Core where
  owner : Option Nat
  /-- fenced at boot (R23); logical lanes that mismatched once, and those found faulty, with which it takes no new grove (R15) -/
  fenced : Bool
  mismatch : List Nat
  faulty : List Nat
  /-- the physical lanes that the logical lanes are mapped onto since boot, in ascending order; none listed is the identity (R15) -/
  laneMap : List Nat
  l1 : List L1Line
  /-- the L1 carve, in granules of 64 KiB, that the groves of the core last asked for (R232, R234) -/
  l1Size : Nat
  seeds : List Seed
  /-- the core cycle at which grove g's timer in bed b expires, at 16·g + b -/
  timers : List (Nat × Nat)
  /-- the largest VT + Skew of the stores that have passed through the L1 or been read early (R251) -/
  relTime : Nat
  /-- the largest VT of those stores (R260) -/
  lastVt : Nat
  /-- one more than the cycle of the last lane issue, the issues of that cycle, and the PC group whose stands it is forming (R299) -/
  laneAt : Nat
  laneCount : Nat
  group : Option (Nat × Word)
  /-- one more than the cycle of the last uniform issue, and the slot served (R300); the slot of the last sequencer chunk (R174) -/
  uniAt : Nat
  lastFront : Nat
  lastMsq : Nat
  deriving DecidableEq, Repr

/-- A cluster: its temporal grant (R331), its supply-sag level (R365). -/
structure Cluster where
  grant : Option Nat
  since : Nat
  /-- the context that held it last (R331), and when its draining switch began (R310) -/
  lastCtx : Nat
  drainAt : Option Nat
  sag : Nat
  deriving DecidableEq, Repr

/-- What a home holds for a line: lease horizon H, VT of the last accepted store P, that store, the locking thread, the owning engine command, and the VT at which a committed lock ends (R245, R246, R255, R258). -/
structure Line where
  h : Nat
  p : Nat
  last : Nat
  lock : Option (Nat × Nat)
  lockUntil : Option Nat
  owner : Option Nat
  /-- the physical key it was last found at -/
  phys : Option Nat
  deriving DecidableEq, Repr

/-- An accepted store that is not yet visible to every agent (R245, R249): its line, VT, the core it came through, whether it has passed that core's cluster junction, and bytes by physical address. -/
structure Store where
  id : Nat
  line : Nat
  vt : Nat
  core : Option Nat
  shared : Bool
  bytes : List (Nat × Byte)
  deriving DecidableEq, Repr

/-- An operation a request carries. -/
inductive ReqOp where
  | load | store | atom (f : AtFn) | atomx (f : AtxFn) | prefetch | trace (any : Bool)
  deriving DecidableEq, Repr

/-- Where a global address goes: a physical home, the device a peer-table entry names, or ADDRESS_HOME (R53-R55, R241). -/
inductive HomeRes where
  | phys (h : Nat) | peer (entry : Nat) | bad
  deriving DecidableEq, Repr

/-- A global access on its way (R88, R230, R265, R270). -/
structure Req where
  id : Nat
  gid : Nat
  front : Bool
  tid : Nat
  core : Nat
  idx : Nat
  pc : Word
  op : ReqOp
  va : Nat
  /-- the home or peer fixed when the core checked the address (R230, R241) -/
  dest : HomeRes
  size : Nat
  hint : Hint
  scope : Scope
  order : Order
  /-- operand words: the store's data, or the operands of an atomic -/
  data : List Word
  daz : Bool
  regs : List Reg
  /-- the release condition has been met, or none is asked (R251) -/
  released : Bool
  /-- a message for it has gone to a peer (R241) -/
  sent : Bool
  /-- the words to deliver, once the home has answered -/
  answer : Option (List Word)
  txn : Bool
  /-- it has reached its home and waits there for the owner of its line, or for the host over a physical line (R255, R262) -/
  atOwner : Bool
  atHost : Option Nat
  /-- a load that waited is served from this time on, the VT of the store it waited for (R255, R262) -/
  after : Nat
  deriving DecidableEq, Repr

/-- A store or atomic to a peer that has not been acknowledged (R263): the core it counts for, and its grove. -/
structure PeerStore where
  id : Nat
  core : Nat
  gid : Nat
  deriving DecidableEq, Repr

/-- Who issues the word being run: a stand of lane threads or a front thread, with the word and its literal as fetched. -/
inductive Cur where
  | none | lane (gid stand : Nat) (word lit : Word) | front (gid : Nat) (word lit : Word)
  deriving DecidableEq, Repr

/-- Who moves next: a PC group of lane threads, a front thread, a device event, or the clock by a number of ticks. -/
inductive Turn where
  | lane (gid tid : Nat) | front (gid : Nat) | event (e : Instr) | tick (n : Nat)
  deriving DecidableEq, Repr

/-- The engine commands (R282-R288). -/
inductive EngOp where
  | tcopy | tcopym | gather | scatter | sortk | route | coll
  deriving DecidableEq, Repr

/-- Bytes an engine moves, inside one destination line: to dst from src, or the bytes themselves, each with its poison, once they have been read. A scratchpad address a of the grove lies at 2^64 + a. -/
structure Move where
  dst : Nat
  src : Nat
  len : Nat
  bytes : Option (List (Byte × Bool))
  deriving DecidableEq, Repr

/-- An outstanding engine command (R282, R283): the word, the descriptor and handle, the die of its engine (9 the hub), the commands it starts after, whether it has started and since when, whether its descriptor has been read, the moves still to make, the line it owns with that line's address and the bytes to write there by offset, the largest VT + Skew of its stores, and what it delivers to each handle at completion (R284, R285). -/
structure EngCmd where
  id : Nat
  gid : Nat
  ctx : Nat
  op : EngOp
  pc : Word
  desc : Nat
  handle : Nat
  place : Place
  die : Nat
  after : Nat
  started : Bool
  since : Nat
  planned : Bool
  moves : List Move
  owned : Option (Nat × Nat)
  buf : List (Nat × Byte × Bool)
  vt : Nat
  deliver : List (Nat × Nat)
  deriving DecidableEq, Repr

/-- A seed a BTE has still to plant: the GT it waits for, its entry, argument words and key (R221, R322). -/
structure Held where
  ready : Nat
  entry : Word
  args : List (Nat × Word)
  key : Nat
  deriving DecidableEq, Repr

/-- A traced ray in the BTE (R321, R322), with the number of its spill area among its cluster's rays (R203). -/
structure Ray where
  id : Nat
  gid : Nat
  tid : Nat
  ctx : Nat
  core : Nat
  ord : Nat
  regs : List Word
  payload : Word
  any : Bool
  root : Nat
  miss : Word
  hit : Word
  ahit : Word
  rmask : Nat
  attr : Nat
  /-- traversal has ended; the seeds still to plant -/
  traced : Bool
  plant : List Held
  slot : Nat
  deriving DecidableEq, Repr

/-- A BEAMGO in the BTE (R204, R210, R326): its list, whether it is the request form and its count, its ordinal, the commands it starts after, whether traversal has ended, the seeds still to plant, and the handle, bytes and time of the arrival at its end. -/
structure Beam where
  id : Nat
  gid : Nat
  ctx : Nat
  core : Nat
  pc : Word
  list : Nat
  req : Bool
  count : Nat
  ord : Nat
  after : Nat
  traced : Bool
  plant : List Held
  handle : Nat
  bytes : Nat
  vt : Nat
  deriving DecidableEq, Repr

/-- The re-run of a VERIFY grove (R369, R370, R372): its tag, the original's core, the node record it started from if it is a node grove, whether the re-run has been dispatched, and the digests of the two once they have retired; and whether the check ended early. -/
structure Rerun where
  tag : Nat
  core : Nat
  node : Option (Nat × List (Nat × Word) × Nat)
  started : Bool
  partner : Nat
  orig : Option Nat
  again : Option Nat
  skipped : Bool
  deriving DecidableEq, Repr

/-- A launch that has been submitted (R292, R293). -/
structure Launch where
  id : Nat
  ctx : Nat
  queue : Nat
  cls : Nat
  ltag : Nat
  desc : Desc
  nodes : List Desc
  log : Nat
  /-- launch groves dispatched -/
  next : Nat
  /-- REPLAY: the records read from the log, and those consumed -/
  replay : List (List Byte)
  reruns : List Rerun
  /-- records dequeued (R221) -/
  nnodes : Nat
  /-- the latest VT + Skew its retired groves leave (R251, R292) -/
  relTime : Nat
  deriving DecidableEq, Repr

/-- A queued continuation record (R45-R48). -/
structure ContRec where
  id : Nat
  die : Nat
  cluster : Nat
  launch : Nat
  cls : Nat
  node : Nat
  /-- the CONTQ record of its dequeue (R222) -/
  record : Nat
  args : List (Nat × Word)
  daddr : Nat
  born : Nat
  /-- offered to every core of its die (R46) -/
  wide : Bool
  slot : Option Nat
  deriving DecidableEq, Repr

/-- A launch queue and its ring (R290-R292, R376). -/
structure Queue where
  cls : Nat
  en : Bool
  ctx : Nat
  stopped : Bool
  reason : Nat
  cidx : Nat
  ring : Nat
  ringn : Nat
  head : Nat
  tail : Nat
  /-- the launch being dispatched, or the event and target of the WAITEV being waited on -/
  launch : Option Nat
  wait : Option (Nat × Nat)
  deriving DecidableEq, Repr

/-- The order log of a context's LOGGED or REPLAY launch (R220-R224). -/
structure OrderLog where
  launch : Nat
  base : Nat
  size : Nat
  written : Nat
  full : Bool
  consumed : List Nat
  deriving DecidableEq, Repr

/-- A context beyond its CSRs: halts, switches, its diagnostic ring position, its order logs. -/
structure Ctx where
  haltReq : Bool
  halted : Bool
  reported : List Nat
  /-- when the last core reported and the context stood halted (R307) -/
  haltAt : Nat
  /-- the cores that draining switches are to hand over, each with the GT at which its switch began (R310) -/
  drainSet : List (Nat × Nat)
  diagPos : Nat
  logs : List OrderLog
  deriving DecidableEq, Repr

/-- A faulting access set aside in a die's deadfall queue (R356-R358). -/
structure Deadfall where
  idx : Nat
  gid : Nat
  front : Bool
  tid : Nat
  ctx : Nat
  va : Nat
  kind : Nat
  pc : Word
  gt : Nat
  state : Nat
  deriving DecidableEq, Repr

/-- A host snoop held at the hub (R261): 0 SnpData, 1 SnpInv, 2 SnpCur. -/
structure Snoop where
  line : Nat
  kind : Nat
  deriving DecidableEq, Repr

/-- A PGINV in its lease wait (R339). -/
structure Pginv where
  id : Nat
  home : Nat
  /-- the offsets of the range -/
  lo : Nat
  hi : Nat
  /-- LMAX + Δ; the GT before which it does not begin; and its invalidation point -/
  span : Nat
  start : Nat
  point : Option Nat
  /-- the physical lines of the range that the host held at the invalidation point and has not given up since -/
  copies : List Nat
  deriving DecidableEq, Repr

/-- What a message to a peer asks for (R241, R342): the device and target context of the table entry, the operation, its offset and size. -/
structure PeerMsg where
  dev : Nat
  tctx : Nat
  op : ReqOp
  offset : Nat
  size : Nat
  deriving DecidableEq, Repr

/-- A message that has left the device: a notice to the host and the control node (R377), a peer access, a CXL request or response. -/
structure OutMsg where
  kind : Nat
  a : Nat
  b : Nat
  data : List Byte
  peer : Option PeerMsg
  deriving DecidableEq, Repr

/-- A read of a peer that a unit of the device has asked for (R241): its id, context, address and length, and what the peer answered, with the fate. -/
structure UnitRead where
  id : Nat
  ctx : Nat
  va : Nat
  len : Nat
  answer : Option (Nat × List Byte)
  deriving DecidableEq, Repr

/-- A store of a unit of the device that waits at its home (R255, R258, R261, R262): its context, home, address and bytes. -/
structure UnitWrite where
  ctx : Nat
  home : Nat
  va : Nat
  bytes : List Byte
  deriving DecidableEq, Repr

/-- What the hub holds beside the queues and contexts: live stacks and carve counts of the dies, the machine-check log, the snapshot registers, measurement chains, mailbox, clocks and power, expanders, telemetry (16, 17, 18). -/
structure Hub where
  /-- live stack numbers of die d (R238), a mask; 0 for a die that is fenced or lost -/
  stackMasks : List (Nat × Nat)
  carve : List (Nat × Nat)
  /-- dies fenced at boot, or failed since (R23, R363) -/
  dieFailed : List (Nat × Bool)
  mclog : List Nat
  snapCfg : Nat
  snapMask : Nat
  snapStat : Nat
  snapGt : Nat
  snapId : Nat
  mch : List (Nat × Nat)
  mbStatus : Nat
  /-- the nonce of the request being served (R349, R388) -/
  mbReq : List Byte
  mbBuf : List (Nat × Byte)
  fuse : List Byte
  /-- physical lanes found faulty, and spare lanes withdrawn, by core (R15, R364) -/
  badLanes : List (Nat × Nat)
  fenceReq : List Nat
  record : List Byte
  /-- the PUF's secret and the seeds of the identity and alias keys (R347) -/
  secret : List Byte
  idSeed : List Byte
  aliasSeed : List Byte
  /-- Tabig ports fenced, or down since their training failed (R23, R379) -/
  portsDown : List Nat
  /-- uncorrectable granules of the last second: stack as 8 × die + stack, granule and GT (R363) -/
  granules : List (Nat × Nat × Nat)
  /-- GT at the last reset -/
  resetGt : Nat
  ready : Bool
  recovery : Bool
  stage : Nat
  freqReq : List (Nat × Nat)
  freqCur : List (Nat × Nat)
  /-- the code of the step in progress (R382) -/
  freqNext : List (Nat × Nat)
  relockEnd : List (Nat × Nat)
  allowed : List (Nat × Nat)
  cyc : List (Nat × Nat)
  ncyc : List (Nat × Nat)
  /-- cycle phase of each die, in units of 1/(1000·den) cycle -/
  cycPhase : List (Nat × Nat)
  stepCnt : List (Nat × Nat)
  steps : List (Nat × Nat)
  pwrLim : Nat
  /-- expander map entries: base and size of port p, and those that have failed -/
  expBase : List (Nat × Nat)
  expSize : List (Nat × Nat)
  expFailed : List (Nat × Bool)
  telemetry : List (Nat × Nat)
  refused : Nat
  deriving DecidableEq, Repr

/-- Reasons the machine stops. -/
inductive Fault where
  /-- raised by exec when a lane or uniform word is run with no stand or front thread of its set issuing it; step never does that. Safe: the model stops. -/
  | noIssuer
  deriving DecidableEq, Repr

/-- Instructions without a meaning in the model. -/
inductive Refusal where
  /-- raised by a refused arm of exec: the instruction has no meaning yet. Safe: the model stops. -/
  | notModelled (mnemonic : String)
  deriving DecidableEq, Repr

/-- The whole device. -/
structure State where
  /-- global time, ticks of 1 ns (R20) -/
  gt : Nat
  sched : List Turn
  autoCount : Nat
  cur : Cur
  nextId : Nat
  groves : List Grove
  cores : List (Nat × Core)
  clusters : List (Nat × Cluster)
  /-- the bytes of every physical space: die 0, die 1, tier-2 and host memory, space p from p × 2^52 up -/
  mem : List Host.Cell
  pend : List Store
  lines : List (Nat × Line)
  /-- stores held at cluster junctions: cluster, store, VT -/
  junction : List (Nat × Nat × Nat)
  poison : List (Nat × Bool)
  reqs : List Req
  peerStores : List PeerStore
  /-- stores of peers accepted here whose acknowledgement goes out at their VT (R263): the peer's id and the VT -/
  acksDue : List (Nat × Nat)
  /-- reads of peers and held stores of the device's own units -/
  unitReads : List UnitRead
  unitWrites : List UnitWrite
  /-- translation entries kept: home × 2^54 + page base, with the page size and the leaf -/
  tlb : List (Nat × Nat × Nat)
  cmds : List EngCmd
  rays : List Ray
  beams : List Beam
  launches : List Launch
  conts : List ContRec
  ltagNext : Nat
  queues : List (Nat × Queue)
  /-- per class, the queue whose turn was last (R294) -/
  turns : List (Nat × Nat)
  events : List (Nat × Nat)
  serial : Option (Nat × Nat)
  /-- context CSR NUM of context c at 4096·c + NUM (R328); the device block (R343) -/
  csr : List (Nat × Word)
  devb : List (Nat × Word)
  ctxs : List (Nat × Ctx)
  dbars : List (Nat × Barrier)
  deadfalls : List (Nat × List Deadfall)
  dfidx : List (Nat × Nat)
  pginvs : List Pginv
  /-- host lines: MESI state 1 S, 2 E, 3 M (R261); HDM lines the host caches: 1 S or E, 2 M (R262) -/
  mesi : List (Nat × Nat)
  snoopFilter : List (Nat × Nat)
  snoops : List Snoop
  outbox : List OutMsg
  hub : Hub
  /-- requests the hub has sent to the host and that are unanswered: line, kind (0 RdShared, 1 RdOwn, 2 RdOwnNoData, 3 BISnpInv, 4 BISnpData) -/
  hostReqs : List (Nat × Nat)
  deriving DecidableEq, Repr


/-- The hub right after reset (16 R346, 17 R366, 18 R380-R388); values the spec does not give are named in log 12. -/
def Hub.reset : Hub where
  stackMasks := []
  carve := []
  dieFailed := []
  mclog := []
  snapCfg := 0
  snapMask := 0
  snapStat := 0
  snapGt := 0
  snapId := 0
  mch := []
  mbStatus := 0
  mbReq := []
  mbBuf := []
  fuse := []
  badLanes := []
  fenceReq := []
  record := []
  secret := []
  idSeed := []
  aliasSeed := []
  portsDown := []
  granules := []
  resetGt := 0
  ready := false
  recovery := false
  stage := 0
  freqReq := []
  freqCur := []
  freqNext := []
  relockEnd := []
  allowed := []
  cyc := []
  ncyc := []
  cycPhase := []
  stepCnt := []
  steps := []
  pwrLim := 3200
  expBase := []
  expSize := []
  expFailed := []
  telemetry := []
  refused := 0

/-- The device right after power-on reset, before bring-up has run (18 R380): no context enabled, nothing resident, memory with nothing listed, every register at its reset value. -/
def State.reset : State where
  gt := 0
  sched := []
  autoCount := 0
  cur := .none
  nextId := 1
  groves := []
  cores := []
  clusters := []
  mem := []
  pend := []
  lines := []
  junction := []
  poison := []
  reqs := []
  peerStores := []
  acksDue := []
  unitReads := []
  unitWrites := []
  tlb := []
  cmds := []
  rays := []
  beams := []
  launches := []
  conts := []
  ltagNext := 0
  queues := []
  turns := []
  events := []
  serial := none
  csr := []
  devb := []
  ctxs := []
  dbars := []
  deadfalls := []
  dfidx := []
  pginvs := []
  mesi := []
  snoopFilter := []
  snoops := []
  outbox := []
  hub := Hub.reset
  hostReqs := []
end Sys2Proof.Machine
end

