-- ==== Sys2Proof/Machine/Mem.lean ====
section
/-! DEFINITION. Memory at the homes: physical bytes, visibility times, leases, page walks and domain checks (11 R235-R239, 12 R244-R249, 16 R330-R337). -/

namespace Sys2Proof.Machine

/-- Δ, the largest difference of two readings of GT (R244). -/
def delta : Nat := 20

/-- The canonical form of memory (R237): addresses strictly rising, no byte equal to what an unlisted address reads as. -/
abbrev Memory.wf (m : List Host.Cell) : Bool := tabWf (0 : Byte) m

/-- What a physical byte that nothing has written reads as (log 3). -/
def unlistedByte : Byte := 0

/-- The byte of memory at a physical key, as every agent sees it. -/
def readByte (m : List Host.Cell) (k : Nat) : Byte := tabGet unlistedByte m k

/-- Writes one byte. -/
def writeByte (m : List Host.Cell) (k : Nat) (b : Byte) : List Host.Cell := tabSet unlistedByte m k b

/-- Writes bytes from a list of key and byte, in order. -/
def writeBytes (m : List Host.Cell) : List (Nat × Byte) → List Host.Cell
  | [] => m
  | (k, b) :: r => writeBytes (writeByte m k b) r

/-- The bytes of a store laid at consecutive keys. -/
def atKeys (k : Nat) : List Byte → List (Nat × Byte)
  | [] => []
  | b :: r => (k, b) :: atKeys (k + 1) r

/-- A byte as a list of stores in order leaves it. -/
def overlayByte (k : Nat) : List Store → Byte → Byte
  | [], b => b
  | st :: r, b => overlayByte k r ((st.bytes.lookup k).getD b)

/-- The die of a core (R13). -/
def dieOfCore (core : Nat) : Nat := core / 128

/-- The cluster of a core, counted over the package (R13). -/
def clusterOfCore (core : Nat) : Nat := core / 4

/-- A store not yet visible to all can be seen on a core: it came through that core, or has passed the junction of that core's cluster (R249). -/
def Store.seenBy (core : Nat) (st : Store) : Bool :=
  match st.core with
  | some c => c == core || st.shared && clusterOfCore c == clusterOfCore core
  | none => false

/-- The byte an agent sees: the visible value, then, on a core, the stores that have their core or cluster time there (R249). -/
def State.byteFor (s : State) (core : Option Nat) (k : Nat) : Byte :=
  match core with
  | none => readByte s.mem k
  | some c => overlayByte k (s.pend.filter (Store.seenBy c)) (readByte s.mem k)

/-- The byte in the latest store in coherence order (R254). -/
def State.byteLatest (s : State) (k : Nat) : Byte := overlayByte k s.pend (readByte s.mem k)

/-- n bytes from a key, as an agent on a core or elsewhere sees them. -/
def State.bytesFor (s : State) (core : Option Nat) (k n : Nat) : List Byte :=
  (List.range n).map fun i => s.byteFor core (k + i)

/-- n bytes from a key, latest accepted. -/
def State.bytesLatest (s : State) (k n : Nat) : List Byte := (List.range n).map fun i => s.byteLatest (k + i)

/-- The first key of physical space p: 0 and 1 the dies, 2 tier-2, 3 the host. -/
def spaceBase (p : Nat) : Nat := p * 2 ^ 52

/-- The reset value of a context CSR (R328). -/
def csrReset (num : Nat) : Word :=
  if num = 1 then 512 else if num = 7 then 250000 else if num = 8 then 100000 else 0

/-- A context CSR as stored. -/
def State.csrRaw (s : State) (ctx num : Nat) : Word := tabGet (csrReset num) s.csr (4096 * ctx + num)

/-- Writes a context CSR. -/
def State.setCsrRaw (s : State) (ctx num : Nat) (v : Word) : State :=
  { s with csr := tabSet (csrReset num) s.csr (4096 * ctx + num) v }

/-- A device-block register (R343). -/
def State.devReg (s : State) (num : Nat) : Word := tabGet 0 s.devb num

/-- The context is enabled (R329). -/
def State.ctxEnabled (s : State) (ctx : Nat) : Bool := (s.csrRaw ctx 0).toNat % 2 == 1

/-- The lease length of a context (R246, R328). -/
def State.lease (s : State) (ctx : Nat) : Nat := (s.csrRaw ctx 1).toNat % 2 ^ 13

/-- The live stacks of a die, as a mask (R238). -/
def State.stackMask (s : State) (die : Nat) : Nat := tabGet 0x3F s.hub.stackMasks die

/-- The number of live stacks N (R238). -/
def State.liveStacks (s : State) (die : Nat) : Nat := ((List.range 6).filter fun i => natBit (s.stackMask die) i).length

/-- The live stacks of a die in ascending number (R238). -/
def State.stackList (s : State) (die : Nat) : List Nat := (List.range 6).filter fun i => natBit (s.stackMask die) i

/-- The hash h of a physical HBM address (R238). -/
def placeHash (pa : Nat) : Nat :=
  let g := pa / 256
  g ^^^ g / 2 ^ 12 ^^^ g / 2 ^ 24

/-- Where a physical HBM address of a die lies: the physical stack, and the byte within it (R238). -/
def State.place (s : State) (die pa : Nat) : Nat × Nat :=
  let n := s.liveStacks die
  ((s.stackList die).getD (placeHash pa % n) 0, placeHash pa / n * 256 + pa % 256)

/-- The carve count C of a die (R236). -/
def State.carveOf (s : State) (die : Nat) : Nat := tabGet 1 s.hub.carve die

/-- The cluster mask of a context on a die, 0 for a die without live stacks (R328, R330). -/
def State.partMask (s : State) (ctx die : Nat) : Nat :=
  if s.stackMask die = 0 then 0 else (s.csrRaw ctx (3 + die)).toNat

/-- The die bound to home 0 (R330). -/
def State.die0 (s : State) (ctx : Nat) : Nat :=
  if s.partMask ctx 0 ≠ 0 then 0
  else if s.partMask ctx 1 ≠ 0 then 1
  else if s.stackMask 0 = 0 then 1 else 0

/-- Home 1 is bound (R330). -/
def State.home1 (s : State) (ctx : Nat) : Bool := s.partMask ctx 0 != 0 && s.partMask ctx 1 != 0

/-- HOMES as it reads: DIE0 and H1 follow from the masks (R330). -/
def State.homesReg (s : State) (ctx : Nat) : Nat :=
  s.die0 ctx + 2 * b2n (s.home1 ctx) + (s.csrRaw ctx 2).toNat / 4 % 8 * 4

/-- Peer table entry p, when bound (R342). -/
def State.peerEntry (s : State) (ctx p : Nat) : Option Nat :=
  let e := (s.csrRaw ctx (0x400 + p)).toNat
  if p < (s.csrRaw ctx 0x1B).toNat ∧ natBit e 30 then some e else none

/-- The home of a global virtual address in a context (R53-R55, R330). -/
def State.homeOf (s : State) (ctx va : Nat) : HomeRes :=
  if va / 2 ^ 57 ≠ 0 then .bad
  else
    match natBits va 56 54 with
    | 0 => .phys (s.die0 ctx)
    | 1 => if s.home1 ctx then .phys 1 else .bad
    | 2 => if natBit (s.homesReg ctx) 2 then .phys 2 else .bad
    | 3 => if natBit (s.homesReg ctx) 3 then .phys 3 else .bad
    | 4 =>
      if natBit (s.homesReg ctx) 4 then
        (match s.peerEntry ctx (natBits va 53 44) with
        | some e => .peer e
        | none => .bad)
      else .bad
    | _ => .bad

/-- The line of an offset in a physical home (R234). -/
def lineKey (home off : Nat) : Nat := home * 2 ^ 54 + off / 128 * 128

/-- A physical address of a die names storage: HBM of the live stacks, or the carve window (R237). -/
def State.dieMapped (s : State) (die pa : Nat) : Bool :=
  pa < s.liveStacks die * 2 ^ 36 || (2 ^ 40 ≤ pa && pa < 2 ^ 40 + (s.carveOf die - 1) * 2 ^ 25)

/-- A tier-2 physical address lies on a port whose expander works (R240, R387). -/
def State.tier2Mapped (s : State) (pa : Nat) : Bool :=
  (List.range 6).any fun p =>
    tabGet 0 s.hub.expBase p ≤ pa && pa < tabGet 0 s.hub.expBase p + tabGet 0 s.hub.expSize p && !tabGet false s.hub.expFailed p

/-- Every byte of a page of 2^bits bytes names storage (R335). -/
def State.pageMapped (s : State) (home pa bits : Nat) : Bool :=
  match home with
  | 0 | 1 => s.dieMapped home pa && s.dieMapped home (pa + 2 ^ bits - 1)
  | _ => true

/-- The physical space in which the tables of a home lie: a die's own, and that of the lowest live die for homes 2 and 3 (R334). -/
def State.tableSpace (s : State) (home : Nat) : Nat :=
  if home < 2 then home else if s.stackMask 0 = 0 then 1 else 0

/-- A page-table entry read as the physical memory holds it (R334). -/
def State.readEntry (s : State) (home pa : Nat) : Nat :=
  leNat (s.bytesFor none (spaceBase (s.tableSpace home) + pa) 8)

/-- What a walk finds: a leaf with its page size in bits, a demand-paged hole, or a fault (R336). -/
inductive Walk where
  | leaf (entry bits : Nat) | demand | bad
  deriving DecidableEq, Repr

/-- Page bits below a level, and the offset bits a level indexes (R334). -/
def levelShift : Nat → Nat
  | 0 => 42
  | 1 => 30
  | 2 => 21
  | _ => 16

/-- The index of an offset at a level (R334). -/
def levelIndex (level off : Nat) : Nat :=
  match level with
  | 0 => natBits off 53 42
  | 1 => natBits off 41 30
  | 2 => natBits off 29 21
  | _ => natBits off 20 16

/-- The walk from a level, with at most fuel levels left (R334-R336). -/
def State.walkFrom (s : State) (home off : Nat) : Nat → Nat → Nat → Walk
  | 0, _, _ => .bad
  | fuel + 1, level, table =>
    let e := s.readEntry home (table + 8 * levelIndex level off)
    let pa := natBits e 51 12 * 2 ^ 12
    if !natBit e 0 then (if natBit e 8 then .demand else .bad)
    else if natBit e 1 then
      if level = 0 then .bad
      else
        let bits := levelShift level
        if pa % 2 ^ bits ≠ 0 ∨ s.pageMapped home pa bits = false then .bad else .leaf e bits
    else if level = 3 then .bad
    else if level = 0 ∧ pa % 2 ^ 15 ≠ 0 then .bad
    else s.walkFrom home off fuel (level + 1) pa

/-- The root of a home's table (R343). -/
def State.rootOf (s : State) (home : Nat) : Nat :=
  (joinPair (s.devReg (2 * home)) (s.devReg (2 * home + 1))).toNat

/-- A kept translation of an offset (R336): page size in bits and leaf. -/
def State.kept (s : State) (home off : Nat) : Option (Nat × Nat) :=
  (s.tlb.find? fun e => e.1 / 2 ^ 54 == home && e.1 % 2 ^ 54 / 2 ^ e.2.1 == off / 2 ^ e.2.1).map fun e => e.2

/-- The walk of an access: the kept leaf, or a walk from level 0 (R336). -/
def State.walk (s : State) (home off : Nat) : Walk :=
  match s.kept home off with
  | some (bits, e) => .leaf e bits
  | none => s.walkFrom home off 4 0 (s.rootOf home)

/-- The state after a walk: a valid leaf is kept until a PGINV (log 5). -/
def State.keepWalk (s : State) (home off : Nat) : State :=
  match s.kept home off with
  | some _ => s
  | none =>
    match s.walkFrom home off 4 0 (s.rootOf home) with
    | .leaf e bits => { s with tlb := (home * 2 ^ 54 + off / 2 ^ bits * 2 ^ bits, bits, e) :: s.tlb }
    | _ => s

/-- The kinds of access a domain code tells apart (R337). -/
inductive AccKind where
  | load | store | fetch
  deriving DecidableEq, Repr

/-- A domain code allows an access (R337). -/
def codeAllows : Nat → AccKind → Bool
  | 1, .load => true
  | 2, .load => true
  | 2, .store => true
  | 3, .load => true
  | 3, .fetch => true
  | _, _ => false

/-- The 2-bit code of a domain in DMAP, or in XDMAP for inbound accesses (R337). -/
def State.domCode (s : State) (ctx : Nat) (inbound : Bool) (dom : Nat) : Nat :=
  (s.csrRaw ctx ((if inbound then 0x14 else 0x10) + dom / 16)).toNat / 2 ^ (2 * (dom % 16)) % 4

/-- The fate of an access at a home (R230, R336, R337). -/
inductive Fate where
  /-- the access goes on at a physical key, granted by a code -/
  | ok (key code : Nat)
  /-- a demand-paged miss in a context that takes them (R336) -/
  | demand
  /-- TRANSLATION, or an expander that has failed -/
  | translation
  /-- PROTECTION -/
  | protection
  deriving DecidableEq, Repr

/-- The home's checks of an access to an offset of a physical home (R230, R336, R337). -/
def State.fate (s : State) (ctx : Nat) (inbound : Bool) (kind : AccKind) (home off : Nat) : Fate :=
  match s.walk home off with
  | .leaf e bits =>
    let c := s.domCode ctx inbound (natBits e 7 2)
    let pa := natBits e 51 12 * 2 ^ 12 + off % 2 ^ bits
    if home = 2 ∧ s.tier2Mapped pa = false then .translation
    else if codeAllows c kind = false then .protection
    else .ok (spaceBase home + pa) c
  | .demand => if natBit (s.csrRaw ctx 0).toNat 2 then .demand else .translation
  | .bad => .translation

/-- A line at its home. -/
def Line.init : Line := ⟨0, 0, 0, none, none, none, none⟩

/-- The line of a key. -/
def State.line (s : State) (k : Nat) : Line := tabGet Line.init s.lines k

/-- Replaces a line. -/
def State.setLine (s : State) (k : Nat) (l : Line) : State := { s with lines := tabSet Line.init s.lines k l }

/-- A granule is poisoned (R362). -/
def State.poisoned (s : State) (key : Nat) : Bool := tabGet false s.poison (key / 32)

/-- Some granule of n bytes from a key is poisoned. -/
def State.anyPoison (s : State) (key n : Nat) : Bool :=
  (List.range ((key + n - 1) / 32 + 1 - key / 32)).any fun i => tabGet false s.poison (key / 32 + i)

/-- A core, as at reset where nothing is listed. -/
def Core.init : Core := ⟨none, false, [], [], [], [], 0, [], [], 0, 0, 0, 0, none, 0, 3, 3⟩

/-- A core by number (R13). -/
def State.core (s : State) (c : Nat) : Core := tabGet Core.init s.cores c

/-- Replaces a core. -/
def State.setCore (s : State) (c : Nat) (x : Core) : State := { s with cores := tabSet Core.init s.cores c x }

/-- Updates a core. -/
def State.modCore (s : State) (c : Nat) (f : Core → Core) : State := s.setCore c (f (s.core c))

/-- A core has let a store with a VT and a Skew through, or read it early (R251). -/
def Core.noteVt (vt sk : Nat) (c : Core) : Core := { c with relTime := max c.relTime (vt + sk), lastVt := max c.lastVt vt }

/-- The bytes of an L1 copy after a store (R249). -/
def L1Line.update (pa : Nat) (bytes : List (Nat × Byte)) (l : L1Line) : L1Line :=
  { l with bytes := (List.range 128).map fun i => (bytes.lookup (pa + i)).getD (l.bytes.getD i 0) }

/-- The copies of a line in a core's L1 take what the core now sees at some physical keys (R249). -/
def State.refreshL1 (s : State) (core key pa : Nat) (ks : List Nat) : State :=
  let bytes := ks.map fun k => (k, s.byteFor (some core) k)
  s.modCore core fun c => { c with l1 := c.l1.map fun l => if l.key == key then l.update pa bytes else l }

/-- Skew(core's die, home) (R244): homes 0 and 1 are the dies. -/
def skew (die home : Nat) : Nat := if die = home then 0 else delta

/-- The visibility time the home gives a store that arrives now (R245). -/
def State.vtOf (s : State) (key : Nat) : Nat := max s.gt (max (s.line key).h (s.line key).p) + 1

/-- The home accepts a store at a visibility time (R245): key is its line, pa the line's physical key, core the core it came through, if any. Its core time is now; its cluster time comes when it passes the junction (R249, log 4). -/
def State.acceptAt (s : State) (key pa : Nat) (core : Option Nat) (bytes : List (Nat × Byte)) (vt : Nat) : State :=
  let id := s.nextId
  let s := { s with nextId := id + 1, pend := s.pend ++ [Store.mk id key vt core false bytes] }
  let s := s.setLine key { s.line key with p := vt, last := id, phys := some pa }
  match core with
  | none => s
  | some c => ({ s with junction := s.junction ++ [(clusterOfCore c, id, vt)] }).refreshL1 c key pa (bytes.map Prod.fst)

/-- The home accepts a store that arrives now (R245). -/
def State.accept (s : State) (key pa : Nat) (core : Option Nat) (bytes : List (Nat × Byte)) : State :=
  s.acceptAt key pa core bytes (s.vtOf key)

/-- A store passes its cluster junction: the cluster's other three L1s take it, and loads of any core of the cluster may return it (R249). -/
def State.passJunction (s : State) (id : Nat) : State :=
  match s.pend.find? fun st => st.id == id with
  | none => s
  | some st =>
    match st.core with
    | none => s
    | some c =>
      let s := { s with pend := s.pend.map fun x => if x.id == id then { x with shared := true } else x }
      let ks := st.bytes.map Prod.fst
      ((List.range 4).filter fun i => 4 * clusterOfCore c + i != c).foldl
        (fun s i => s.refreshL1 (4 * clusterOfCore c + i) st.line (ks.headD 0 / 128 * 128) ks) s

/-- The smallest VT above t among the accepted stores of a line (R246). -/
def nextVt (key t : Nat) : List Store → Option Nat
  | [] => none
  | st :: r =>
    let m := nextVt key t r
    if st.line = key ∧ t < st.vt then
      some (match m with
        | none => st.vt
        | some v => min v st.vt)
    else m

/-- The expiry of a lease granted now (R246). -/
def State.leaseEnd (s : State) (ctx home key : Nat) : Nat :=
  let l := if home = 3 then min (s.lease ctx) 1000 else s.lease ctx
  match nextVt key s.gt s.pend with
  | none => s.gt + l
  | some v => min (s.gt + l) (v - 1)

/-- An L1 after a fill: a carve of a number of granules holds 512 lines each for a context, and the last of the list makes room, which is the line filled longest ago or one filled as a stream (R234, R266, log 21); lines of another context are left alone (R333). -/
def fillL1 (granules : Nat) (hint : Hint) (x : L1Line) (l1 : List L1Line) : List L1Line :=
  let mine := (l1.filter fun y => y.ctx == x.ctx && y.key != x.key).take (512 * granules - 1)
  (if hint = .stream then mine ++ [x] else x :: mine) ++ l1.filter fun y => y.ctx != x.ctx

/-- Grants a lease on a line and fills an L1 with it (R246): pa is the line's physical key, granules the size of the L1 carve. -/
def State.fill (s : State) (ctx granules : Nat) (hint : Hint) (core home key pa code : Nat) : State :=
  let e := s.leaseEnd ctx home key
  let l := s.line key
  let s := s.setLine key { l with h := max l.h e, phys := some pa }
  let bytes := s.bytesFor (some core) pa 128
  s.modCore core fun c => { c with l1 := fillL1 granules hint (L1Line.mk key ctx e code bytes) c.l1 }

/-- The L1 copy of a line a core may serve a context's access from now (R246, R333, R337). -/
def State.l1Hit (s : State) (ctx core home key : Nat) (kind : AccKind) : Option L1Line :=
  (s.core core).l1.find? fun l =>
    l.key == key && l.ctx == ctx && s.gt + skew (dieOfCore core) home ≤ l.expiry && codeAllows l.code kind

/-- The stores whose visibility time has come become the memory's bytes, in order of acceptance (R245). -/
def State.settleStores (s : State) : State :=
  { s with
    mem := (s.pend.filter fun st => st.vt ≤ s.gt).foldl (fun m st => writeBytes m st.bytes) s.mem
    pend := s.pend.filter fun st => s.gt < st.vt }

/-- A message that leaves the device: kind 0 a notice (R377), 4 a request to the host (R261, R262), 6 a fault notice to a peer (R373). -/
def State.emit (s : State) (kind a b : Nat) (data : List Byte) : State :=
  { s with outbox := s.outbox ++ [OutMsg.mk kind a b data none] }

/-- An access goes over the fabric to the device and context that a peer table entry names (R241, R342): message kind 5 with the request's id. -/
def State.emitPeer (s : State) (id entry : Nat) (op : ReqOp) (va size : Nat) (data : List Byte) : State :=
  { s with outbox := s.outbox ++
      [OutMsg.mk 5 id va data (some ⟨natBits entry 15 0, natBits entry 21 16, op, va % 2 ^ 44, size⟩)] }

/-- What the host must answer first for an access to a physical line (R261, R262): kinds 0 RdShared, 1 RdOwn, 2 RdOwnNoData, 3 BISnpInv, 4 BISnpData; none when nothing. -/
def State.hostNeed (s : State) (home pline : Nat) (write : Bool) : Option Nat :=
  if home = 3 then
    match tabGet 0 s.mesi pline, write with
    | 0, false => some 0
    | 0, true => some 1
    | 1, true => some 2
    | _, _ => none
  else if home < 2 then
    match tabGet 0 s.snoopFilter pline, write with
    | 0, _ => none
    | _, true => some 3
    | 2, false => some 4
    | _, false => none
  else none

/-- A snoop of the host waits on a physical line (R261). -/
def State.snooped (s : State) (home pline : Nat) : Bool := home == 3 && s.snoops.any fun x => x.line == pline

/-- The die does not relock (R383). -/
def State.clocked (s : State) (die : Nat) : Bool := tabGet 0 s.hub.relockEnd die == 0

/-- A home runs: a relocking die's stands still, those of the hub run on (R383). -/
def State.homeRuns (s : State) (home : Nat) : Bool := 2 ≤ home || s.clocked home

/-- The first physical key of a ray's spill area of 1,024 bytes (R203, log 30). -/
def Ray.spillKey (r : Ray) : Nat := spaceBase (dieOfCore r.core) + Config.spillArea (clusterOfCore r.core) r.slot % 2 ^ 26 * 1024

/-- A physical line lies in the spill area of a ray that has not ended (R203, R255). -/
def State.rayHolds (s : State) (pline : Nat) : Bool := s.rays.any fun r => r.spillKey / 128 ≤ pline && pline < r.spillKey / 128 + 8

/-- Accesses to a physical line of a home wait: for a snoop of the host, for the end of a ray, or for the clock of a relocking die (R203, R261, R383). -/
def State.barred (s : State) (home pline : Nat) : Bool := s.snooped home pline || s.rayHolds pline || !s.homeRuns home

/-- The hub asks the host, once (R261, R262). -/
def State.askHost (s : State) (pline kind : Nat) : State :=
  if s.hostReqs.contains (pline, kind) then s
  else ({ s with hostReqs := (pline, kind) :: s.hostReqs }).emit 4 pline kind []

/-- What an access of the device's own units (fetch, command processor, logs, diagnostics) comes to: it is made, it is refused with a cause and a DETAIL (R353), or it waits in the state given. -/
inductive Got (α : Type) where
  | ok (x : α) | refused (cause detail : Nat) | wait (s : State)

/-- A line at its home is held by no engine and no transaction (R255, R258). -/
def State.lineFree (s : State) (lk : Nat) : Bool := (s.line lk).owner.isNone && (s.line lk).lock.isNone

/-- The line takes a store of an engine, the host or the hub whose VT is still to come; a unit's read is made once it has come (R255, R262, log 45). -/
def State.lineComing (s : State) (lk : Nat) : Bool := s.pend.any fun st => st.line == lk && st.core.isNone

/-- A unit's read of a peer (R241): it is asked for once, and what the peer answers serves the read when it is tried again. -/
def State.readPeer (s : State) (ctx entry va n : Nat) : Got (List Byte) :=
  match s.unitReads.find? fun u => u.ctx == ctx && u.va == va && u.len == n with
  | none =>
    .wait (({ s with nextId := s.nextId + 1, unitReads := s.unitReads ++ [UnitRead.mk s.nextId ctx va n none] }).emitPeer
      s.nextId entry .load va n [])
  | some u =>
    match u.answer with
    | none => .wait s
    | some (0, bs) => .ok ((List.range n).map fun i => bs.getD i 0)
    | some (1, _) => .refused 0x06 3
    | some (2, _) => .refused 0x07 0
    | some _ => .refused 0x0D 0x100

/-- A context's read of n bytes of one line by a unit of the device, checked and placed as any access (R230, R241, R242, R255, R261, R262). -/
def State.readVa (s : State) (ctx : Nat) (kind : AccKind) (core : Option Nat) (va n : Nat) : Got (List Byte) :=
  match s.homeOf ctx va with
  | .phys h =>
    let lk := lineKey h (va % 2 ^ 54)
    match s.fate ctx false kind h (va % 2 ^ 54) with
    | .ok key _ =>
      if !s.lineFree lk || s.lineComing lk || s.barred h (key / 128) then .wait s
      else match s.hostNeed h (key / 128) false with
        | some k => .wait (s.askHost (key / 128) k)
        | none => if s.anyPoison key n then .refused 0x0D 0x100 else .ok (s.bytesFor core key n)
    | .protection => .refused 0x06 (if kind = .fetch then 2 else 0)
    | _ => .refused 0x07 0
  | .peer e => s.readPeer ctx e va n
  | .bad => .refused 0x05 0

/-- A read has been used: its walk is kept, and a peer's answer to it is used up. -/
def State.keepVa (s : State) (ctx va : Nat) : State :=
  match s.homeOf ctx va with
  | .phys h => s.keepWalk h (va % 2 ^ 54)
  | _ => { s with unitReads := s.unitReads.filter fun u => !(u.ctx == ctx && u.va == va) }

/-- Reads bytes that may cross lines and pages, piece by piece of at most 64 bytes. -/
def State.readLong (s : State) (ctx : Nat) (kind : AccKind) (core : Option Nat) : Nat → Nat → Nat → Got (List Byte)
  | 0, _, _ => .ok []
  | fuel + 1, va, n =>
    if n = 0 then .ok []
    else
      let k := min n (64 - va % 64)
      match s.readVa ctx kind core va k with
      | .refused c d => .refused c d
      | .wait s => .wait s
      | .ok bs =>
        match s.readLong ctx kind core fuel (va + k) (n - k) with
        | .refused c d => .refused c d
        | .wait s => .wait s
        | .ok r => .ok (bs ++ r)

/-- The pieces of a long read have been used. -/
def State.keepLong (s : State) (ctx : Nat) : Nat → Nat → Nat → State
  | 0, _, _ => s
  | fuel + 1, va, n =>
    if n = 0 then s
    else (s.keepVa ctx va).keepLong ctx fuel (va + min n (64 - va % 64)) (n - min n (64 - va % 64))

/-- A unit's store reaches its home at a physical key: it is accepted, or held while an earlier one, an owner, a transaction, a snoop or the host keeps it waiting (R245, R255, R258, R261, R262). -/
def State.unitArrive (s : State) (u : UnitWrite) (key : Nat) : State :=
  let off := u.va % 2 ^ 54
  let lk := lineKey u.home off
  let hold := fun s : State => { s with unitWrites := s.unitWrites ++ [u] }
  if s.unitWrites.any (fun x => x.home == u.home && x.va / 128 == u.va / 128) || !s.lineFree lk || s.barred u.home (key / 128) then hold s
  else match s.hostNeed u.home (key / 128) true with
    | some k => hold (s.askHost (key / 128) k)
    | none =>
      let s := (s.keepWalk u.home off).accept lk (key - off % 128) none (atKeys key u.bytes)
      if u.home = 3 then { s with mesi := tabSet 0 s.mesi (key / 128) 3 } else s

/-- The held stores of the units are tried again, in order; one whose home now refuses it is dropped. -/
def State.retryUnits (s : State) : State :=
  s.unitWrites.foldl (fun s u =>
    match s.fate u.ctx false .store u.home (u.va % 2 ^ 54) with
    | .ok key _ => s.unitArrive u key
    | _ => s) { s with unitWrites := [] }

/-- A context's store of bytes inside one line by a unit of the device, or the refusal (R230, R241, R353). -/
def State.writeVa (s : State) (ctx va : Nat) (bs : List Byte) : Got State :=
  match s.homeOf ctx va with
  | .phys h =>
    match s.fate ctx false .store h (va % 2 ^ 54) with
    | .ok key _ => .ok (s.unitArrive ⟨ctx, h, va, bs⟩ key)
    | .protection => .refused 0x06 1
    | _ => .refused 0x07 0
  | .peer e =>
    .ok (({ s with nextId := s.nextId + 1, peerStores := PeerStore.mk s.nextId 1023 0 :: s.peerStores }).emitPeer s.nextId e .store va bs.length bs)
  | .bad => .refused 0x05 0

/-- A store of bytes that may cross lines, line by line, and whether all of it was made; a refused line ends it. -/
def State.writeLong (s : State) (ctx : Nat) : Nat → Nat → List Byte → State × Bool
  | 0, _, _ => (s, true)
  | fuel + 1, va, bs =>
    if bs.isEmpty then (s, true)
    else
      let k := 128 - va % 128
      match s.writeVa ctx va (bs.take k) with
      | .ok s => s.writeLong ctx fuel (va + k) (bs.drop k)
      | _ => (s, false)

end Sys2Proof.Machine
end

