-- ==== Sys2Proof/Machine/Ops.lean ====
section
/-! DEFINITION. The shared operations: threads and groves, open segments and their commit (04 R85-R88, 03 R72), taking a trap and returning from it (03 R65, R66, 17 R350-R355), machine checks and the end of a context (17 R359, R360, 16 R344), and the frame every lane word and every uniform word runs in. -/

namespace Sys2Proof.Machine

/-- The outcome of an instruction. -/
abbrev Out := Host.Outcome State Fault Refusal

/-- Which thread of a grove: a lane thread by TID, or the front thread. -/
abbrev Who := Option Nat

/-- A resident grove by id. -/
def State.grove? (s : State) (gid : Nat) : Option Grove := s.groves.find? fun g => g.id == gid

/-- Updates a resident grove. -/
def State.modGrove (s : State) (gid : Nat) (f : Grove → Grove) : State :=
  { s with groves := s.groves.map fun g => if g.id == gid then f g else g }

/-- Updates the lane threads that p picks. -/
def Grove.modLanes (g : Grove) (p : Thread → Bool) (f : Thread → Thread) : Grove :=
  { g with lanes := g.lanes.map fun t => if p t then f t else t }

/-- A thread of a grove. -/
def Grove.thread? (g : Grove) : Who → Option Thread
  | none => some g.front
  | some tid => g.lanes.find? fun t => t.tid == tid

/-- Updates a thread of a grove. -/
def Grove.modThread (g : Grove) (w : Who) (f : Thread → Thread) : Grove :=
  match w with
  | none => { g with front := f g.front }
  | some tid => g.modLanes (fun t => t.tid == tid) f

/-- A thread by grove. -/
def State.thread? (s : State) (gid : Nat) (w : Who) : Option Thread := (s.grove? gid).bind fun g => g.thread? w

/-- Updates a thread by grove. -/
def State.modThread (s : State) (gid : Nat) (w : Who) (f : Thread → Thread) : State :=
  s.modGrove gid fun g => g.modThread w f

/-- The control state a thread issues from. -/
def Thread.now (t : Thread) : Ctl :=
  match t.seg with
  | some g => g.ctl
  | none => t.ctl

/-- A new segment from a control state. -/
def Seg.new (c : Ctl) (start : List (Nat × Word)) : Seg :=
  ⟨0, [], [], 0, [], [], [], none, none, none, c, false, .running, start, none⟩

/-- The thread has an open segment: it keeps the one it has. -/
def Thread.openSeg (start : List (Nat × Word)) (t : Thread) : Thread :=
  match t.seg with
  | some _ => t
  | none => { t with seg := some (Seg.new t.ctl start) }

/-- Updates the open segment of a thread. -/
def Thread.modSeg (f : Seg → Seg) (t : Thread) : Thread := { t with seg := t.seg.map f }

/-- The register as its last committed write left it. -/
def Thread.arch (t : Thread) : Reg → Word
  | .gpr n => tabGet 0 t.regs n
  | .pred n => if tabGet false t.preds n then 1 else 0

/-- The latest fixed-latency result of a list for a register, newest first (R86). -/
def bypass (r : Reg) : List Result → Option Word
  | [] => none
  | x :: rest => if x.fixed && x.reg == r then some (x.val.getD 0) else bypass r rest

/-- A source register as a word of the open segment reads it (R86). -/
def Thread.src (t : Thread) (r : Reg) : Word :=
  match t.seg with
  | none => t.arch r
  | some g => (bypass r g.results).getD (t.arch r)

/-- A source V or S register. -/
def Thread.reg (t : Thread) (n : Nat) : Word := t.src (.gpr n)

/-- A source pair from its even register (R60). -/
def Thread.pair (t : Thread) (n : Nat) : DWord := joinPair (t.reg n) (t.reg (n + 1))

/-- A source predicate; code 0 reads true (R61). -/
def Thread.predSrc (t : Thread) (k : Nat) : Bool := k == 0 || t.src (.pred k) != 0

/-- The guard of a word (R83). -/
def Thread.guard (t : Thread) (h : Hdr) : Bool := t.predSrc h.g.val

/-- A committed register written. -/
def Thread.setArch (t : Thread) (r : Reg) (v : Word) : Thread :=
  match r with
  | .gpr n => { t with regs := tabSet 0 t.regs n v }
  | .pred n => { t with preds := tabSet false t.preds n (v != 0) }

/-- The place of the word being issued in its segment. -/
def Thread.idx (t : Thread) : Nat :=
  match t.seg with
  | some g => g.words - 1
  | none => 0

/-- The address of the word being issued. -/
def Thread.wordPc (t : Thread) : Word :=
  match t.seg with
  | some g => g.pcs.headD t.ctl.pc
  | none => t.ctl.pc

/-- Adds results of the word being issued, the last first. -/
def Thread.put (fixed : Bool) (ws : List (Reg × Word)) (t : Thread) : Thread :=
  t.modSeg fun g => { g with results := (ws.map fun w => Result.mk (g.words - 1) w.1 fixed (some w.2)) ++ g.results }

/-- Registers of the word being issued whose results have not returned. -/
def Thread.expect (rs : List Reg) (t : Thread) : Thread :=
  t.modSeg fun g => { g with results := (rs.map fun r => Result.mk (g.words - 1) r false none) ++ g.results }

/-- Fills the awaited results of a word, register by register. -/
def fillResults (idx : Nat) (vs : List (Reg × Word)) : List Result → List Result
  | [] => []
  | x :: r =>
    (if x.idx == idx && x.val == none then
      { x with val := vs.lookup x.reg }
    else x) :: fillResults idx vs r

/-- Flags raised by the word being issued (R72). -/
def Thread.raiseFlags (fl : Nat) (t : Thread) : Thread :=
  if fl = 0 then t else t.modSeg fun g => { g with flags := (g.words - 1, fl) :: g.flags }

/-- A trap of the word being issued: its own results are dropped and the segment ends (R88). -/
def Thread.trap (cause detail : Nat) (decode : Bool) (tval : DWord) (t : Thread) : Thread :=
  { t with
    wait := .none
    seg := t.seg.map fun g =>
      { g with
        results := g.results.filter fun x => x.idx < g.words - 1
        writes := g.writes.filter fun x => x.idx < g.words - 1
        flags := g.flags.filter fun x => x.1 < g.words - 1
        trap := some ⟨g.words - 1, g.pcs.headD t.ctl.pc, cause, detail, decode, t.txn.isOpen, tval, none⟩
        fin := .ended } }

/-- An abort of the open transaction at the word being issued (R279). -/
def Thread.abortTxn (cause : Nat) (t : Thread) : Thread :=
  { t with
    wait := .none
    seg := t.seg.map fun g =>
      { g with
        results := g.results.filter fun x => x.idx < g.words - 1
        writes := g.writes.filter fun x => x.idx < g.words - 1
        flags := g.flags.filter fun x => x.1 < g.words - 1
        abort := some (g.words - 1, cause)
        fin := .ended } }

/-- Replaces the control state the segment will leave. -/
def Thread.setCtl (f : Ctl → Ctl) (t : Thread) : Thread := t.modSeg fun g => { g with ctl := f g.ctl }

/-- A taken transfer of control: the next word address (R312). -/
def Thread.jump (pc : Word) (t : Thread) : Thread :=
  t.modSeg fun g => { g with ctl := { g.ctl with pc := pc }, moved := true }

/-- The word is counted and the PC moves past it (R82). -/
def Thread.advance (len : Nat) (t : Thread) : Thread :=
  t.modSeg fun g =>
    { g with
      words := g.words + 1
      pcs := g.ctl.pc :: g.pcs
      moved := false
      ctl := { g.ctl with pc := g.ctl.pc + BitVec.ofNat 32 len } }

/-- The end test of loop frames after an instruction whose words lie from pc to pc + len − 1 (R314): the frames, counters and PC left, or none when the innermost frame does not end there; it goes on only to a frame that ends at the same word. -/
def endTest (pc : Word) (len : Nat) (moved : Bool) : List Frame → Ctl → Option Ctl
  | [], _ => none
  | f :: r, c =>
    if (f.last - pc).toNat < len then
      let n := tabGet 0 c.lc f.level - 1
      let c := { c with lc := tabSet 0 c.lc f.level n }
      if n ≠ 0 then some { c with pc := f.start, frames := f :: r }
      else
        let c := { c with frames := r, pc := f.last + 1 }
        if moved then some c
        else match (if (r.head?.map Frame.last) = some f.last then endTest pc len false r c else none) with
          | some c' => some c'
          | none => some c
    else none

/-- The end of a word in a thread that did not trap: the loop end test, then the end of the segment when the word has S = 1 or ends segments (R85, R314). -/
def Thread.endWord (len : Nat) (ends : Bool) (t : Thread) : Thread :=
  t.modSeg fun g =>
    if g.fin != .running then g
    else
      let g := if ends then { g with fin := .ended } else g
      if g.moved then g
      else match endTest (g.pcs.headD 0) len false g.ctl.frames g.ctl with
        | some c => { g with ctl := c, fin := .ended }
        | none => g

/-- The thread's segment has stopped at its last word: a trap, a park or an abort. -/
def Thread.stopped (t : Thread) : Bool :=
  match t.seg with
  | some g => g.trap.isSome || g.park.isSome || g.abort.isSome
  | none => false

/-- Ends the segment after the word just issued (R350). -/
def Thread.endHere (t : Thread) : Thread :=
  t.modSeg fun g => if g.fin == .running then { g with fin := .ended } else g

/-- The thread issues with its stand: it runs, its segment is open, and it does not wait. -/
def Thread.issuing (stand : Nat) (t : Thread) : Bool :=
  t.life == .run && t.stand == stand && (match t.seg with
    | some g => g.fin == .running
    | none => true)

/-- The thread is held by a wait other than a word tried again at issue. -/
def Thread.waiting (t : Thread) : Bool :=
  match t.wait with
  | .none => false
  | .issue _ => false
  | _ => true

/-- Cuts a segment back to its words up to and including word k (keep), or before it: what later words left is discarded and the thread goes on after the cut; a segment that has not come to word k ends after it (R350). -/
def Thread.cut (k : Nat) (keep : Bool) (t : Thread) : Thread :=
  match t.seg with
  | none => t
  | some g =>
    if keep && g.words ≤ k then { t with seg := some { g with limit := some (min k (g.limit.getD k)) } }
    else
    let inCut := fun i : Nat => i < k || (keep && i == k)
    let later := decide (k + 1 < g.words)
    let g' : Seg :=
      { g with
        results := g.results.filter fun x => inCut x.idx
        writes := g.writes.filter fun x => inCut x.idx
        flags := g.flags.filter fun x => inCut x.1
        checks := g.checks.filter fun i => i < k
        trap := g.trap.filter fun x => x.idx ≤ k
        park := g.park.filter fun x => x.idx ≤ k
        abort := g.abort.filter fun x => x.1 ≤ k
        ctl := if later then { t.ctl with pc := g.pcs.getD (g.words - 2 - k) t.ctl.pc } else g.ctl
        words := if later then k + 1 else g.words
        pcs := if later then g.pcs.drop (g.words - 1 - k) else g.pcs
        fin := if later then .ended else if g.fin == .running then .ended else g.fin }
    { t with seg := some g', wait := if later then .none else t.wait }

/-- TCAUSE (R65). -/
def tcauseWord (front : Bool) (ti : TrapInfo) : Word :=
  BitVec.ofNat 32 (ti.cause + 2 ^ 8 * b2n front + 2 ^ 9 * b2n ti.decode + 2 ^ 10 * b2n ti.txn + 2 ^ 16 * (ti.detail % 2 ^ 16))

/-- Exchanges eight registers from r with the bank (R66). -/
def swapBank (r : Nat) : Nat → List (Nat × Word) → List (Nat × Word) → List (Nat × Word) × List (Nat × Word)
  | 0, regs, bank => (regs, bank)
  | k + 1, regs, bank =>
    swapBank r k (tabSet 0 regs (r + k) (tabGet 0 bank k)) (tabSet 0 bank k (tabGet 0 regs (r + k)))

/-- The first banked register: V(n − 8), or S24 (R66). -/
def bankFirst (front : Bool) (n : Nat) : Nat := if front then 24 else n - 8

/-- MM after a write: bits at or above W clear, the thread's own bit set (R151). -/
def fixMm (width lane : Nat) (x : DWord) : DWord := BitVec.ofNat 64 (x.toNat % 2 ^ width ||| 2 ^ lane)

/-- TAKING A TRAP in a thread with a handler at entry (R65, R66, R315, R352): the trap registers are written, the bank exchanged, LC, MM and the frames saved, TH set, and the PC goes to the handler. n is the V allocation. -/
def Thread.enterTrap (n : Nat) (entry : Word) (ti : TrapInfo) (t : Thread) : Thread :=
  let sw := swapBank (bankFirst t.front n) 8 t.regs t.bankRegs
  let mask := if t.front then 0 else ti.mask.getD (BitVec.ofNat 64 (2 ^ t.lane))
  { t with
    tpc := ti.pc
    tcause := tcauseWord t.front ti
    tmask := if t.front then t.tmask else mask
    tval := ti.tval
    th := true
    regs := sw.1
    bankRegs := sw.2
    bankLc := t.ctl.lc
    bankMm := t.ctl.mm
    bankFrames := t.ctl.frames
    wait := .none
    ctl := { t.ctl with
      pc := entry
      frames := []
      lc := if t.front then t.bankLc else t.ctl.lc
      mm := if t.front then t.ctl.mm else fixMm t.width t.lane mask } }

/-- RETURNING from a handler (R66, R315, R355, R280): the bank is exchanged back, LC, MM and the frames are restored, TH is cleared, and the PC goes to TPC, or to the abort target of a FAULT abort whose handler left TPC alone. -/
def Thread.leaveTrap (n : Nat) (t : Thread) : Thread :=
  let sw := swapBank (bankFirst t.front n) 8 t.regs t.bankRegs
  { t with
    th := false
    regs := sw.1
    bankRegs := sw.2
    bankLc := if t.front then t.ctl.lc else t.bankLc
    txn := { t.txn with eretTo := none }
    again := t.again.filter fun p => p == t.txn.eretTo.getD t.tpc
    ctl := { t.ctl with
      pc := t.txn.eretTo.getD t.tpc
      frames := t.bankFrames
      lc := t.bankLc
      mm := if t.front then t.ctl.mm else t.bankMm } }

/-- The handler entry TVEC names for a stream, when it is present (R351). -/
def State.handler (s : State) (ctx : Nat) (front : Bool) : Option Word :=
  let v := (s.csrRaw ctx 6).toNat
  if front then (if natBit v 16 then some (BitVec.ofNat 32 (8 * natBits v 31 17)) else none)
  else (if natBit v 0 then some (BitVec.ofNat 32 (8 * natBits v 15 1)) else none)

/-- Raises a notice (R377): an MSI-X vector to the host, message kind 0, and the Klolen notice of the same number to the control node, kind 1. -/
def State.notice (s : State) (vector : Nat) : State := (s.emit 0 vector 0 []).emit 1 vector 0 []

/-- Latches a snapshot when one is armed and none is held; of triggers in one tick the lowest SRC is kept (R366). -/
def State.snapshot (s : State) (src cause ctx tag : Nat) : State :=
  if natBit s.hub.snapCfg 0 && !natBit s.hub.snapStat 0 then
    ({ s with hub := { s.hub with
        snapStat := 1 + 2 * src + 8 * cause + 2 ^ 11 * ctx + 2 ^ 17 * tag
        snapGt := s.gt
        snapId := s.hub.snapId + 1 } } : State).notice 4
  else if natBit s.hub.snapCfg 0 && s.hub.snapGt == s.gt && src < s.hub.snapStat / 2 % 4 then
    { s with hub := { s.hub with snapStat := 1 + 2 * src + 8 * cause + 2 ^ 11 * ctx + 2 ^ 17 * tag } }
  else s

/-- A context beyond its CSRs, as at reset. -/
def Ctx.init : Ctx := ⟨false, false, [], 0, [], 0, []⟩

/-- A context by number. -/
def State.ctx (s : State) (c : Nat) : Ctx := tabGet Ctx.init s.ctxs c

/-- Updates a context. -/
def State.modCtx (s : State) (c : Nat) (f : Ctx → Ctx) : State := { s with ctxs := tabSet Ctx.init s.ctxs c (f (s.ctx c)) }

/-- Adds to a telemetry counter (R364): 0 corrected errors, 1 uncorrected, 2 sags, 3 retries, 4 parks, 5 skipped checks. -/
def State.count (s : State) (k : Nat) : State :=
  { s with hub := { s.hub with telemetry := tabSet 0 s.hub.telemetry k (tabGet 0 s.hub.telemetry k + 1) } }

/-- The address of the diagnostic ring's next record, when the context has one (R305, R328). -/
def State.diagAddr (s : State) (ctx : Nat) : Option Nat :=
  let n := (s.csrRaw ctx 0xB).toNat % 2 ^ 16
  if n = 0 then none
  else some ((joinPair (s.csrRaw ctx 9) (s.csrRaw ctx 0xA)).toNat + 528 * ((s.ctx ctx).diagPos % n))

/-- Writes a diagnostic record at the ring's next position: the state, and the record's address or 0 (R305). A record whose write faults is dropped whole, and the position stays. -/
def State.writeDiag (s : State) (ctx : Nat) (bytes : List Byte) : State × Nat :=
  match s.diagAddr ctx with
  | none => (s, 0)
  | some a =>
    let n := (s.csrRaw ctx 0xB).toNat % 2 ^ 16
    match s.writeLong ctx 16 a bytes with
    | (s', true) => (s'.modCtx ctx fun c => { c with diagPos := (c.diagPos + 1) % n }, a)
    | (_, false) => (s, 0)

/-- What a machine check reports (R360). -/
structure Report where
  src : Nat
  cause : Nat
  cause0 : Nat
  pc : Nat
  tid : Nat
  slot : Nat
  core : Nat
  tval : Nat
  detail : Nat
  deriving DecidableEq, Repr

/-- A report that no thread caused. -/
def Report.plain (src cause : Nat) : Report := ⟨src, cause, 0, 0, 0, 0, 0, 0, 0⟩

/-- The 512-bit record of an end (R360). -/
def Report.record (r : Report) (gt ctx : Nat) : Nat :=
  packBits [(248, 0), (8, ctx), (32, r.detail), (64, r.tval), (10, 0), (8, r.core), (2, r.slot), (12, r.tid),
    (64, gt % 2 ^ 64), (32, r.pc), (4, 0), (4, r.src), (8, r.cause0), (8, r.cause), (8, 6)]

/-- The entry of a line in the table of lines, unless it is as an unlisted line. -/
def keepLine (k : Nat) (l : Line) : Option (Nat × Line) := if l = Line.init then none else some (k, l)

/-- Unlocks every line a thread holds (R258). -/
def State.unlockAll (s : State) (gid tid : Nat) : State :=
  let lines := s.lines.filterMap fun (e : Nat × Line) =>
    keepLine e.1 (if e.2.lock == some (gid, tid) then { e.2 with lock := none, lockUntil := none } else e.2)
  { s with lines := lines }

/-- A core without the seeds and timers of some groves. -/
def Core.dropGroves (gone : List Nat) (c : Core) : Core :=
  { c with
    seeds := c.seeds.filter fun x => !gone.contains x.gid
    timers := c.timers.filter fun x => !gone.contains (x.1 / 16) }

/-- A cluster without the grant of a context. -/
def Cluster.dropCtx (ctx : Nat) (x : Cluster) : Cluster := if x.grant == some ctx then { x with grant := none } else x

/-- A line without the locks of some groves and the ownership of some commands. -/
def Line.dropHolders (gone cmds : List Nat) (l : Line) : Line :=
  { l with
    lock := l.lock.filter fun x => !gone.contains x.1
    owner := l.owner.filter fun x => !cmds.contains x }

/-- A queue whose context has ended stops dispatching (R344). -/
def Queue.dropCtx (ctx : Nat) (q : Queue) : Queue := if q.ctx == ctx then { q with launch := none, wait := none } else q

/-- The devices bound in a context's peer table or allow list (R373). -/
def State.partners (s : State) (c : Nat) : List Nat :=
  ((List.range 1024).filterMap fun p => (s.peerEntry c p).map fun e => e % 2 ^ 16) ++
  ((List.range 64).filterMap fun k =>
    let e := (s.csrRaw c (0x100 + k)).toNat
    if natBit e 16 then some (e % 2 ^ 16) else none)

/-- The fault notice of a context's end goes to each device it deals with (R373). -/
def State.faultNotice (s : State) (c : Nat) : State := (s.partners c).dedup.foldl (fun s d => s.emit 6 d c []) s

/-- The end of a context (R344, steps 1 to 5): its groves, seeds, records and commands are gone, its queues stop, EN reads 0, and the end is written to the machine-check log and the context's ring (R360). -/
def State.endContext (s : State) (c : Nat) (r : Report) : State :=
  if s.ctxEnabled c = false then s
  else
    let rec_ := r.record s.gt c
    let gone := (s.groves.filter fun g => g.ctx == c).map Grove.id
    let s := (s.writeDiag c (leBytes 528 rec_)).1
    let cores := s.cores.map fun (e : Nat × Core) => (e.1, e.2.dropGroves gone)
    let clusters := s.clusters.map fun (e : Nat × Cluster) => (e.1, e.2.dropCtx c)
    let conts := s.conts.filter fun (q : ContRec) => !s.launches.any fun (l : Launch) => l.id == q.launch && l.ctx == c
    let mine := (s.cmds.filter fun (k : EngCmd) => k.ctx == c).map EngCmd.id
    let lines := s.lines.filterMap fun (e : Nat × Line) => keepLine e.1 (e.2.dropHolders gone mine)
    let deadfalls := s.deadfalls.map fun (e : Nat × List Deadfall) => (e.1, e.2.filter fun d => d.ctx != c)
    let queues := s.queues.map fun (e : Nat × Queue) => (e.1, e.2.dropCtx c)
    let s := { s with
      hub := { s.hub with mclog := s.hub.mclog ++ [rec_] }
      groves := s.groves.filter fun g => g.ctx != c
      cores := cores
      clusters := clusters
      launches := s.launches.filter fun l => l.ctx != c
      conts := conts
      cmds := s.cmds.filter fun e => e.ctx != c
      unitReads := s.unitReads.filter fun u => u.ctx != c
      rays := s.rays.filter fun e => e.ctx != c
      beams := s.beams.filter fun e => e.ctx != c
      lines := lines
      deadfalls := deadfalls
      queues := queues
      serial := s.serial.filter fun x => !gone.contains x.1 }
    let s := s.modCtx c fun x => { x with haltReq := false, halted := false, drainSet := [], reported := [] }
    ((s.setCsrRaw c 0 (BitVec.ofNat 32 (setNatBits (s.csrRaw c 0).toNat 0 0 0))).faultNotice c).notice 2

/-- The identity a report gives a thread (R305, R360). -/
def Thread.reportTid (t : Thread) : Nat := if t.front then 0xFFF else t.tid

/-- A precise trap reaches its thread (R352): the handler is entered, or, with none or with TH = 1, the context ends with a machine check. -/
def State.takeTrap (s : State) (gid : Nat) (w : Who) (ti : TrapInfo) : State :=
  match s.grove? gid with
  | none => s
  | some g =>
    match g.thread? w with
    | none => s
    | some t =>
      let s := if natBit s.hub.snapMask ti.cause then s.snapshot 3 ti.cause g.ctx 0 else s
      let rep : Report := ⟨0, ti.cause, 0, ti.pc.toNat, t.reportTid, g.slot, t.core, ti.tval.toNat, ti.detail⟩
      if t.th then s.endContext g.ctx { rep with cause0 := t.tcause.toNat % 256 }
      else
        match s.handler g.ctx t.front with
        | none => s.endContext g.ctx { rep with src := 1 }
        | some e => s.modThread gid w fun t => t.enterTrap g.desc.vregs e ti

/-- Every result of the segment has returned. -/
def Seg.returned (g : Seg) : Bool := g.results.all fun x => x.val.isSome

/-- The pending FLG value at the end of a segment (R72). -/
def Seg.flgAfter (g : Seg) (flg : Nat) : Nat :=
  match g.writes.find? fun x => x.sr == 1 with
  | some w => (g.flags.filter fun x => w.idx < x.1).foldl (fun a x => a ||| x.2) w.val.toNat
  | none => g.flags.foldl (fun a x => a ||| x.2) flg

/-- The segment's results and special-register writes become architectural, in program order (R72, R86). -/
def Thread.commitRegs (t : Thread) : Thread :=
  match t.seg with
  | none => t
  | some g =>
    let t' := g.results.reverse.foldl (fun t x => t.setArch x.reg (x.val.getD 0)) t
    let wr := fun n => g.writes.find? fun x => x.sr == n
    { t' with
      fpc := match wr 0 with
        | some w => w.val.toNat
        | none => t.fpc
      flg := g.flgAfter t.flg
      tpc := match wr 4 with
        | some w => w.val
        | none => t.tpc
      txn := match wr 4 with
        | some _ => { t.txn with eretTo := none }
        | none => t.txn
      ctl := g.ctl
      seg := none
      team := 0
      stand := 0 }

/-- The state of a transaction after an abort (R257, R259, R278): the buffer is discarded, the cause recorded, consecutive conflicts counted. -/
def Txn.aborted (cause : Nat) (x : Txn) : Txn :=
  { x with isOpen := false, cause := cause, reads := [], wlines := [], buf := []
           nconf := if cause = 1 then min 8 (x.nconf + 1) else 0 }

/-- Gives back the serial token a thread holds (R259). -/
def State.freeSerial (s : State) (gid : Nat) (w : Who) : State :=
  if s.serial == some (gid, w.getD 0xFFF) then { s with serial := none } else s

/-- The number of records a die's deadfall queue holds (R357). -/
def deadfallMax : Nat := 4096

/-- The lowest index a die's deadfall queue has free. -/
def freeIndex (l : List Deadfall) : Nat → Nat → Nat
  | 0, k => k
  | fuel + 1, k => if l.any fun d => d.idx == k then freeIndex l fuel (k + 1) else k

/-- A thread parks (R356), or traps TRANSLATION with DETAIL 1 when the queue is full. -/
def State.parkThread (s : State) (gid : Nat) (w : Who) (p : ParkInfo) : State :=
  match s.grove? gid, s.thread? gid w with
  | some g, some t =>
    let q := tabGet [] s.deadfalls p.die
    if deadfallMax ≤ q.length then
      s.takeTrap gid w ⟨p.idx, p.pc, 0x07, 1, false, false, BitVec.ofNat 64 p.va, none⟩
    else
      let d : Deadfall := ⟨freeIndex q deadfallMax 0, gid, t.front, t.tid, g.ctx, p.va, p.kind, p.pc, s.gt, 0⟩
      ((({ s with deadfalls := tabSet [] s.deadfalls p.die (q ++ [d]) } : State).modThread gid w fun t =>
        { t with life := .parked, wait := .none }).notice p.die).count 4
  | _, _ => s

/-- A launch thread that exists and has not exited (R37). -/
def Thread.liveLaunch (t : Thread) : Bool := !t.seedling && (t.life == .run || t.life == .parked)

/-- The smallest read position of a list of threads, at most n. -/
def minPos (n : Nat) : List Thread → Nat
  | [] => n
  | t :: r => min t.dqPos (minPos n r)

/-- The records of the decision queue that some live launch thread has still to read (R37, R323). -/
def Grove.unfreed (g : Grove) : Nat := g.dqNext - minPos g.dqNext (g.lanes.filter Thread.liveLaunch)

/-- The registers DQPOP names (R323). -/
def dqRegs (d : Nat) : List Reg := [.gpr d, .gpr (d + 1), .gpr (d + 2), .gpr (d + 3), .pred 7]

/-- A thread at DQPOP takes what the queue holds for it: a record, the news that it is closed, or nothing yet (R37). -/
def Grove.dqTake (g : Grove) (d : Nat) (t : Thread) : Option Thread :=
  match g.dq.lookup t.dqPos with
  | some ws =>
    some { t.put false ((dqRegs d).zip (ws ++ [1])) with dqPos := t.dqPos + 1, wait := .none }
  | none => if g.dqClosed then some { t.put false [(.pred 7, 0)] with wait := .none } else none

/-- The front thread's DQPUSH or DQCLOSE, or its exit, releases the threads that wait for a record or for the close (R37); records that every live launch thread has read are freed. -/
def Grove.dqWake (g : Grove) : Grove :=
  let g := { g with lanes := g.lanes.map fun (t : Thread) =>
    match t.wait with
    | .dqpop d => (g.dqTake d t).getD t
    | _ => t }
  { g with dq := g.dq.filter fun e => g.dqNext - g.unfreed ≤ e.1 }

/-- The launch groves of a grove's grid, of the re-runs only itself (R317, R369). -/
def State.gridPeers (s : State) (g : Grove) : List Grove :=
  s.groves.filter fun o => o.launch == g.launch && !o.node && (o.verify != 2 || o.id == g.id)

/-- Every launch thread of the grid has arrived at its k-th GBAR or has exited (R317). -/
def State.gbarDone (s : State) (g : Grove) (k : Nat) : Bool :=
  (s.gridPeers g).all fun o => o.lanes.all fun t => t.seedling || t.life == .exited || decide (k ≤ t.gbars)

/-- The threads of a grid whose GBAR phase is complete go on (R317). -/
def State.gbarWake (s : State) (launch : Nat) : State :=
  { s with groves := s.groves.map fun g =>
      if g.launch == launch then
        g.modLanes (fun _ => true) fun t =>
          match t.wait with
          | .gbar k _ => if s.gbarDone g k then { t with wait := .none } else t
          | _ => t
      else g }

/-- The commit of a thread's ended segment (R86, R88): its results become architectural, and then it takes its trap, parks, aborts, exits, returns from its handler, or goes on. -/
def State.commitThread (s : State) (gid : Nat) (w : Who) : State :=
  match s.grove? gid with
  | none => s
  | some gr =>
    match gr.thread? w with
    | none => s
    | some t =>
      match t.seg with
      | none => s
      | some g =>
        let cutCtl := fun pc => { t.ctl with pc := pc }
        match g.trap, g.park, g.abort with
        | some ti, _, _ =>
          let t' := ({ t.commitRegs with ctl := cutCtl ti.pc } : Thread)
          let t' := if ti.txn then
              { t' with txn := { t'.txn.aborted 5 with eretTo := some t'.txn.target } } else t'
          let s := s.modThread gid w fun _ => t'
          let s := if ti.txn then (s.unlockAll gid (w.getD 0xFFF)).freeSerial gid w else s
          s.takeTrap gid w ti
        | none, some p, _ =>
          (s.modThread gid w fun _ => { t.commitRegs with ctl := cutCtl p.pc }).parkThread gid w p
        | none, none, some (_, c) =>
          let t' := ({ t.commitRegs with ctl := cutCtl t.txn.target } : Thread)
          ((s.modThread gid w fun _ => { t' with txn := t'.txn.aborted c }).unlockAll gid (w.getD 0xFFF)).freeSerial gid w
        | none, none, none =>
          match g.fin with
          | .exits =>
            let s := s.modGrove gid fun gr =>
              let gr := gr.modThread w fun _ =>
                { t.commitRegs with
                  life := .exited, wait := .none
                  ctl := { g.ctl with hw := [], spill := [], frames := [] } }
              if w.isNone then ({ gr with dqClosed := true } : Grove).dqWake else gr
            s.gbarWake gr.launch
          | .erets => s.modThread gid w fun _ => t.commitRegs.leaveTrap gr.desc.vregs
          | _ => s.modThread gid w fun _ => t.commitRegs

/-- Some thread of a stand has a home-side check that is not answered (R88). -/
def Grove.unanswered (g : Grove) (team : Nat) : Bool :=
  g.lanes.any fun t => t.team == team && (match t.seg with
    | some x => !x.checks.isEmpty
    | none => false)

/-- TMASK of each trapped thread of a stand: the lanes of its strand that trapped on the same word (R65). -/
def Grove.fixMasks (g : Grove) (team : Nat) : Grove :=
  let trapAt := fun (t : Thread) => if t.team == team then (t.seg.bind fun x => x.trap) else none
  g.modLanes (fun t => (trapAt t).isSome) fun t =>
    let bits := (g.lanes.filter fun u => u.strand == t.strand && (trapAt u).map TrapInfo.idx == (trapAt t).map TrapInfo.idx).foldl
      (fun a u => a ||| 2 ^ u.lane) 0
    t.modSeg fun x => { x with trap := x.trap.map fun ti => if ti.mask.isNone then { ti with mask := some (BitVec.ofNat 64 bits) } else ti }

/-- The thread's ended segment may commit: it waits for nothing and its results have returned. -/
def Thread.commitReady (t : Thread) : Bool :=
  match t.seg with
  | some g => g.fin != .running && !t.waiting && g.returned && g.checks.isEmpty
  | none => false

/-- The segment of the thread has a next word. -/
def Thread.running (t : Thread) : Bool :=
  match t.seg with
  | some g => g.fin == .running
  | none => false

/-- Some thread of a stand has stopped at its last word, and one of those still waits for results or the stand has not all come to that word. -/
def Grove.stopsOpen (g : Grove) (team : Nat) : Bool :=
  g.lanes.any (fun t => t.team == team && t.stopped && !t.commitReady) ||
    (g.lanes.any fun t => t.team == team && t.stopped) && g.lanes.any fun t => t.team == team && t.running

/-- The faults of a stand that find a die's deadfall queue full, room being what it still takes, in ascending TID: they trap TRANSLATION with DETAIL 1 (R356). -/
def trapFull (room : Nat → Nat) (team : Nat) : List Thread → List Thread
  | [] => []
  | t :: r =>
    match if t.team == team then (t.seg.bind fun x => x.park) else none with
    | none => t :: trapFull room team r
    | some p =>
      if room p.die = 0 then
        t.modSeg (fun x => { x with
          park := none, trap := some ⟨p.idx, p.pc, 0x07, 1, false, false, BitVec.ofNat 64 p.va, none⟩ }) :: trapFull room team r
      else t :: trapFull (fun d => if d = p.die then room d - 1 else room d) team r

/-- Commits every thread of a stand that is ready, once no home-side check of the stand is unanswered; in ascending TID (R86, R88). Those that trap or park do so together, so that TMASK names every lane that trapped on the word and the records stand in ascending TID (R65, R356). -/
def State.commitStand (s : State) (gid team : Nat) : State :=
  match s.grove? gid with
  | none => s
  | some g =>
    if g.unanswered team then s
    else
      let stops := !g.stopsOpen team
      let ready := (g.lanes.filter fun t => t.team == team && t.commitReady && (stops || !t.stopped)).map Thread.tid
      let s :=
        if stops then
          s.modGrove gid fun g =>
            ({ g with lanes := trapFull (fun d => deadfallMax - (tabGet [] s.deadfalls d).length) team g.lanes } : Grove).fixMasks team
        else s
      ready.foldl (fun s tid => s.commitThread gid (some tid)) s

/-- Commits the front thread's ended segment when it is ready. -/
def State.commitFront (s : State) (gid : Nat) : State :=
  match s.grove? gid with
  | none => s
  | some g => if g.front.commitReady then s.commitThread gid none else s

/-- A trap, park or abort at word k stops a stand there: requests of later words are dropped, the other threads end after word k (R350). -/
def State.stopStand (s : State) (gid team k : Nat) : State :=
  match s.grove? gid with
  | none => s
  | some g =>
    let tids := (g.lanes.filter fun t => t.team == team).map Thread.tid
    let s := { s with reqs := s.reqs.filter fun r => !(r.gid == gid && !r.front && tids.contains r.tid && k < r.idx) }
    s.modGrove gid fun g => g.modLanes (fun t => t.team == team && t.seg.isSome) fun t => t.cut k true

/-- What the words of a lane stand see beside their own thread: times, grid, identity, and the S registers (R29, R36). -/
structure Env where
  gt : Nat
  cyc : Nat
  gx : Nat
  gy : Nat
  gz : Nat
  ngx : Nat
  ngy : Nat
  ngz : Nat
  core : Option Nat
  vdie : Nat
  nstr : Nat
  sregs : List (Nat × Word)
  paired : Bool
  deriving DecidableEq, Repr

/-- CORE of a thread (R29): its logical core in a PLACED launch, at its own position of a logical pair. -/
def Env.coreNumber (e : Env) (t : Thread) : Nat :=
  match e.core with
  | some c => if e.paired then c + t.core % 2 else c
  | none => t.core

/-- The virtual die of a core's die in a context (R29). -/
def State.vdie (s : State) (ctx core : Nat) : Nat := if s.home1 ctx then dieOfCore core else 0

/-- The environment of a grove's words. -/
def State.env (s : State) (g : Grove) : Env :=
  ⟨s.gt, tabGet 0 s.hub.cyc (dieOfCore g.core), g.gx, g.gy, g.gz, g.desc.ngx, g.desc.ngy, g.desc.ngz, g.coreName, s.vdie g.ctx g.core,
    g.desc.nstr, g.front.regs, g.desc.pair⟩

/-- MSQST (R70). -/
def msqst (m : Option Msq) : Nat :=
  match m with
  | none => 0
  | some m => 1 + 2 * ((m.total - m.step + 15) / 16) + 2 ^ 8 * m.ac + 2 ^ 12 * b2n m.held

/-- Special registers that change by themselves, at a segment's start (R72): NCYC, DQST, MSQST. -/
def State.srStart (s : State) (g : Grove) : List (Nat × Word) :=
  let n := tabGet 0 s.hub.ncyc (dieOfCore g.core)
  [(0x12, BitVec.ofNat 32 n), (0x13, BitVec.ofNat 32 (n / 2 ^ 32)),
    (0x15, BitVec.ofNat 32 (g.unfreed + 128 * b2n g.dqClosed)), (0x16, BitVec.ofNat 32 (msqst g.msq))]

/-- A register, unit or strand a word names, for checks 8 to 10 of R84. -/
inductive Need where
  | v (r count align : Nat) | s (r count align : Nat) | ta (u : Nat) | wb (u : Nat) | ac (u : Nat) | acw (u : Nat) | strands (k : Nat) | ok (b : Bool)
  deriving DecidableEq, Repr

/-- Check 8: the register lies beyond the allocation (R60). -/
def Need.beyond (n : Nat) : Need → Bool
  | .v r c _ => n < r + c
  | .s r c _ => 32 < r + c
  | _ => false

/-- Check 9: a group that is not aligned (R60). -/
def Need.misaligned : Need → Bool
  | .v r _ a => r % a != 0
  | .s r _ a => r % a != 0
  | _ => false

/-- Check 10: a unit beyond the grove's count, or a wrong ACW base (R67). -/
def Need.noUnit (d : Desc) : Need → Bool
  | .ta u => d.tas ≤ u
  | .wb u => d.wbs ≤ u
  | .ac u => d.acs ≤ u
  | .acw u => !(u == 0 || u == 5) || d.acs < u + 5
  | .strands k => k % (64 / d.width) != 0 || d.nstr < k + 64 / d.width
  | .ok b => !b
  | _ => false

/-- Checks 8 to 11 of R84 for a word that names needs and returns nvar variable-latency results after used of them: cause and DETAIL of the first that fails. -/
def decodeCheck (d : Desc) (needs : List Need) (nvar used : Nat) : Option (Nat × Nat) :=
  if needs.any (Need.beyond d.vregs) then some (0x02, 1)
  else if needs.any Need.misaligned then some (0x02, 2)
  else if needs.any (Need.noUnit d) then some (0x02, 3)
  else if 16 < used + nvar then some (0x10, 0)
  else none

/-- TVAL of a decode trap: the word and its literal (R84). -/
def wordTval (w l : Word) (len : Nat) : DWord := joinPair w (if len = 2 then l else 0)

/-- The shape of a word: header, length in words, whether it ends its segment, variable-latency results, and what it names. -/
structure Shape where
  h : Hdr
  len : Nat
  ends : Bool
  nvar : Nat
  needs : List Need

/-- The results a segment has counted (R87). -/
def Thread.used (t : Thread) : Nat :=
  match t.seg with
  | some g => g.nvar
  | none => 0

/-- Counts the word's results (R87). -/
def Thread.countVar (n : Nat) (t : Thread) : Thread := t.modSeg fun g => { g with nvar := g.nvar + n }

/-- The word just issued is the last that the thread's segment may hold (R350). -/
def Thread.atLimit (t : Thread) : Bool :=
  match t.seg with
  | some g => g.limit == some (g.words - 1)
  | none => false

/-- The end of a word for the threads that issued it (R85, R350). -/
def Grove.endWord (tids : List Nat) (sh : Shape) (g : Grove) : Grove :=
  let mine := fun (t : Thread) => tids.contains t.tid
  let stop := g.lanes.any fun t => mine t && t.stopped
  g.modLanes mine fun t =>
    let t := t.endWord sh.len (sh.h.s || sh.ends || t.atLimit)
    if stop then t.endHere else t

/-- A word that stopped a thread which issued it stops the rest of their stand there too (R350). -/
def State.haltMates (s : State) (gid team : Nat) (tids : List Nat) : State :=
  match s.grove? gid with
  | none => s
  | some g =>
    match g.lanes.find? fun t => tids.contains t.tid && t.stopped with
    | none => s
    | some t => if g.lanes.any fun u => u.team == team && !tids.contains u.tid then s.stopStand gid team t.idx else s

/-- A lane word in its stand (R83-R88): decode checks; while hold is true of the threads whose guard is true the word does not issue; then eff in each of those threads, in ascending TID, the end of the word, and what can commit. -/
def laneIssue (sh : Shape) (hold : State → Grove → Nat → List Thread → Bool) (eff : Nat → Nat → State → State) (s : State) : Out :=
  match s.cur with
  | .lane gid stand w l =>
    match s.grove? gid with
    | none => .fault .noIssuer
    | some g =>
      let start := s.srStart g
      let mem := g.lanes.filter (Thread.issuing stand)
      let tids := mem.map Thread.tid
      let used := ((mem.head?).map Thread.used).getD 0
      let team := ((mem.head?).map Thread.team).getD 0
      let begun := s.modGrove gid fun g => g.modLanes (fun t => tids.contains t.tid) fun t =>
        { ((t.openSeg start).advance sh.len).countVar sh.nvar with wait := .none }
      match decodeCheck g.desc sh.needs sh.nvar used with
      | some (c, d) =>
        let s := begun.modGrove gid fun g => g.modLanes (fun t => tids.contains t.tid) fun t => t.trap c d true (wordTval w l sh.len)
        .next ((s.modGrove gid fun g => g.endWord tids sh).commitStand gid team)
      | none =>
        let on := mem.filter fun t => t.guard sh.h
        if hold s g stand on then .next s
        else
          let s := (on.map Thread.tid).foldl (fun s tid => eff gid tid s) begun
          .next (((s.modGrove gid fun g => g.endWord tids sh).haltMates gid team tids).commitStand gid team)
  | _ => .fault .noIssuer

/-- A word whose effect leaves the thread waits at issue while an earlier word of its stand has a home-side check unanswered (R88). -/
def standHeld (_ : State) (g : Grove) (_ : Nat) (on : List Thread) : Bool := on.any fun t => g.unanswered t.team

/-- Every home-side check of the thread's open segment has been answered. -/
def Thread.checked (t : Thread) : Bool :=
  match t.seg with
  | some g => g.checks.isEmpty
  | none => true

/-- A lane word that waits for nothing at issue. -/
def laneWord (sh : Shape) (eff : Nat → Nat → State → State) (s : State) : Out := laneIssue sh (fun _ _ _ _ => false) eff s

/-- A uniform word in its front thread, in the same frame (R83-R88); a word held at issue leaves the front thread waiting (R105). -/
def uniIssue (sh : Shape) (push : Bool) (hold : State → Grove → Bool) (eff : Nat → State → State) (s : State) : Out :=
  match s.cur with
  | .front gid w l =>
    match s.grove? gid with
    | none => .fault .noIssuer
    | some g =>
      let start := s.srStart g
      let begun := s.modThread gid none fun t => { ((t.openSeg start).advance sh.len).countVar sh.nvar with wait := .none }
      match decodeCheck g.desc sh.needs sh.nvar g.front.used with
      | some (c, d) =>
        let s := begun.modThread gid none fun t => t.trap c d true (wordTval w l sh.len)
        .next ((s.modThread gid none fun t => t.endWord sh.len (sh.h.s || sh.ends || t.atLimit)).commitFront gid)
      | none =>
        if g.front.guard sh.h && hold s g then .next (s.modThread gid none fun t => { t with wait := .issue push })
        else
          let s := if g.front.guard sh.h then eff gid begun else begun
          .next ((s.modThread gid none fun t => t.endWord sh.len (sh.h.s || sh.ends || t.atLimit)).commitFront gid)
  | _ => .fault .noIssuer

/-- A uniform word that waits for nothing at issue. -/
def uniWord (sh : Shape) (eff : Nat → State → State) (s : State) : Out := uniIssue sh false (fun _ _ => false) eff s

/-- What a word that touches only its own thread does: results, flags, or a trap after the guard. -/
structure WordOut where
  writes : List (Reg × Word)
  flags : Nat
  trap : Option (Nat × Nat × DWord)

/-- Results without flags. -/
def WordOut.of (ws : List (Reg × Word)) : WordOut := ⟨ws, 0, none⟩

/-- Applies the outcome of a word to its thread. -/
def Thread.apply (fixed : Bool) (o : WordOut) (t : Thread) : Thread :=
  match o.trap with
  | some (c, d, v) => t.trap c d false v
  | none => (t.put fixed o.writes).raiseFlags o.flags

/-- A lane word that touches only registers and flags of its own thread. -/
def lanePure (sh : Shape) (fixed : Bool) (f : Env → Thread → WordOut) (s : State) : Out :=
  match s.cur with
  | .lane gid _ _ _ =>
    match s.grove? gid with
    | none => .fault .noIssuer
    | some g =>
      let e := s.env g
      laneWord sh (fun gid tid s => s.modThread gid (some tid) fun t => t.apply fixed (f e t)) s
  | _ => .fault .noIssuer

/-- A uniform word that touches only registers and flags of the front thread. -/
def uniPure (sh : Shape) (fixed : Bool) (f : Env → Thread → WordOut) (s : State) : Out :=
  match s.cur with
  | .front gid _ _ =>
    match s.grove? gid with
    | none => .fault .noIssuer
    | some g =>
      let e := s.env g
      uniWord sh (fun gid s => s.modThread gid none fun t => t.apply fixed (f e t)) s
  | _ => .fault .noIssuer

end Sys2Proof.Machine
end

