-- ==== Sys2Proof/Machine/Groves.lean ====
section
/-! DEFINITION. Threads and groves at grove start, and in a seedling strand at launch (02 R26-R30, R38, R43, R46). -/

namespace Sys2Proof.Machine

/-- No transaction has run (R278). -/
def Txn.init : Txn := ⟨false, false, 0, 0, 0, 0, [], [], [], none⟩

/-- The control state a thread starts with. -/
def Ctl.start (pc : Word) (mm : DWord) : Ctl := ⟨pc, [], [], [], [], mm⟩

/-- A thread in the state of R30. -/
def Thread.start (front : Bool) (tid strand lane width core : Nat) (pc : Word) (fpc : Nat) (mm : DWord) (seedw : List (Nat × Word)) : Thread where
  front := front
  tid := tid
  strand := strand
  lane := lane
  width := width
  seedling := false
  core := core
  life := .run
  regs := []
  preds := []
  ctl := Ctl.start pc mm
  fpc := fpc
  flg := 0
  tpc := 0
  tcause := 0
  tmask := 0
  tval := 0
  th := false
  bankRegs := []
  bankLc := []
  bankMm := 0
  bankFrames := []
  seedw := seedw
  seg := none
  team := 0
  stand := 0
  wait := .none
  txn := Txn.init
  dqPos := 0
  gbars := 0
  ssteps := 0
  arrived := 0
  arriveGt := 0
  again := none
  spawnOrd := 0
  traceOrd := 0
  postOrd := 0
  beamOrd := 0
  age := 0
  yielded := false
  since := 0
  issuedAt := 0

/-- MM of a full strand of a width. -/
def fullMm (width : Nat) : DWord := BitVec.ofNat 64 (2 ^ width - 1)

/-- The core of a strand: in a paired grove the core at pair position s mod 2 (R27). -/
def strandCore (pair : Bool) (core strand : Nat) : Nat := if pair then core + strand % 2 else core

/-- The launch threads and the empty seedling lanes of a grove, in ascending TID (R26). -/
def Desc.lanes (d : Desc) (core : Nat) (seedw : List (Nat × Word)) : List Thread :=
  ((List.range d.nstr).flatMap fun st =>
    (List.range d.width).map fun l =>
      Thread.start false (st * d.width + l) st l d.width (strandCore d.pair core st) d.lentry d.fpc0 (fullMm d.width) seedw) ++
  ((List.range d.seedl).flatMap fun k =>
    (List.range 32).map fun l =>
      { Thread.start false (d.nstr * d.width + 32 * k + l) (d.nstr + k) l 32 (strandCore d.pair core (d.nstr + k)) 0 d.fpc0 0 [] with
        seedling := true, life := .empty })

/-- The kernel has no front section (R38, R78). -/
def noFront : Word := 0xFFFFFFFF

/-- The front thread of a grove at grove start; without a front section it has exited (R38). -/
def Desc.front (d : Desc) (core : Nat) (sregs : List (Nat × Word)) : Thread :=
  let t := { Thread.start true 0xFFF 0 0 32 core d.fentry d.fpc0 0 [] with regs := sregs }
  if d.fentry = noFront then { t with life := .exited } else t

/-- A grove as it is dispatched (R26-R30, R68). -/
def Desc.grove (d : Desc) (id ctx launch ltag core slot : Nat) (lanes : List Thread) (front : Thread) : Grove where
  id := id
  ctx := ctx
  launch := launch
  ltag := ltag
  linear := 0
  node := false
  nodeTag := 0
  gx := 0
  gy := 0
  gz := 0
  core := core
  slot := slot
  coreName := none
  desc := d
  realtime := false
  lanes := lanes
  front := front
  dq := []
  dqNext := 0
  dqClosed := d.fentry = noFront
  bars := []
  scratch := []
  scratchPoison := []
  ta := []
  taPoison := []
  wb := []
  wbPoison := []
  wbRank := []
  ac := []
  mcs0 := 0
  mcs1 := 0
  mcs2 := 0
  psel := 0
  msq := none
  loads := []
  pending := []
  cfence := 0
  verify := 0
  digest := 0
  shadow := []
  skipped := false
  relTime := 0

end Sys2Proof.Machine
end

