-- ==== Sys2Proof/Machine/Num.lean ====
section
/-! DEFINITION. The element formats, RoundOnce and exact sums of 05 R108-R120 and 06 R157, over exact rationals. -/

namespace Sys2Proof.Machine

/-- The floating element formats (R108). -/
inductive Fmt where
  | fp32 | fp16 | bf16 | fp8e5 | fp8e4 | fp8e4z | fp6e3 | fp6e2 | fp4
  deriving DecidableEq, Repr

/-- Width in bits (R108). -/
def Fmt.width : Fmt → Nat
  | .fp32 => 32 | .fp16 => 16 | .bf16 => 16 | .fp8e5 => 8 | .fp8e4 => 8 | .fp8e4z => 8 | .fp6e3 => 6 | .fp6e2 => 6 | .fp4 => 4

/-- Mantissa width p (R108). -/
def Fmt.mant : Fmt → Nat
  | .fp32 => 23 | .fp16 => 10 | .bf16 => 7 | .fp8e5 => 2 | .fp8e4 => 3 | .fp8e4z => 3 | .fp6e3 => 2 | .fp6e2 => 3 | .fp4 => 1

/-- Exponent bias (R108). -/
def Fmt.bias : Fmt → Nat
  | .fp32 => 127 | .fp16 => 15 | .bf16 => 127 | .fp8e5 => 15 | .fp8e4 => 7 | .fp8e4z => 8 | .fp6e3 => 3 | .fp6e2 => 1 | .fp4 => 1

/-- The magnitude code of the largest finite value (R108). -/
def Fmt.maxCode : Fmt → Nat
  | .fp32 => 0x7F7FFFFF | .fp16 => 0x7BFF | .bf16 => 0x7F7F | .fp8e5 => 0x7B | .fp8e4 => 0x7E | .fp8e4z => 0x7F
  | .fp6e3 => 0x1F | .fp6e2 => 0x1F | .fp4 => 0x7

/-- The format has infinities (R108). -/
def Fmt.hasInf : Fmt → Bool
  | .fp32 => true | .fp16 => true | .bf16 => true | .fp8e5 => true | _ => false

/-- The canonical NaN code, in the formats that have one (R110). -/
def Fmt.canonNaN : Fmt → Option Nat
  | .fp32 => some 0x7FC00000 | .fp16 => some 0x7E00 | .bf16 => some 0x7FC0 | .fp8e5 => some 0x7E
  | .fp8e4 => some 0x7F | .fp8e4z => some 0x80 | _ => none

/-- The exponent of the smallest subnormal (R108). -/
def Fmt.qmin (f : Fmt) : Int := 1 - (f.bias : Int) - (f.mant : Int)

/-- The sign bit of a code. -/
def Fmt.signBit (f : Fmt) : Nat := 2 ^ (f.width - 1)

/-- Flag bits of FLG (R64). -/
def flagNV : Nat := 1
/-- Division by zero (R64). -/
def flagDZ : Nat := 2
/-- Overflow (R64). -/
def flagOF : Nat := 4
/-- Underflow (R64). -/
def flagUF : Nat := 8
/-- Inexact (R64). -/
def flagNX : Nat := 16
/-- Integer saturation (R64). -/
def flagIS : Nat := 32

/-- A decoded element: a NaN with its sign, payload and payload width (0 for a NaN without payload), an infinity, or (−1)^neg × m × 2^e. -/
inductive FVal where
  | nan (sig neg : Bool) (pay width : Nat)
  | inf (neg : Bool)
  | fin (neg : Bool) (m : Nat) (e : Int)
  deriving DecidableEq, Repr

/-- What one rounding needs of FPC and of the instruction (R63, R120). -/
structure FEnv where
  rm : Rnd
  daz32 : Bool
  ftz32 : Bool
  daz16 : Bool
  ftz16 : Bool
  dazbf : Bool
  ftzbf : Bool
  daz8 : Bool
  ftz8 : Bool
  nprop : Bool
  satn : Bool
  deriving DecidableEq, Repr

/-- The rounding mode a 2-bit code names (R63). -/
def rmOf (n : Nat) : Rnd :=
  match n % 4 with
  | 0 => .rne
  | 1 => .rtz
  | 2 => .rup
  | _ => .rdn

/-- The environment that FPC gives (R63). -/
def FEnv.ofFpc (x : Nat) : FEnv :=
  ⟨rmOf x, natBit x 2, natBit x 3, natBit x 4, natBit x 5, natBit x 6, natBit x 7, natBit x 8, natBit x 9, natBit x 10, natBit x 11⟩

/-- The operand-flush bit of a format (R118). -/
def FEnv.daz (v : FEnv) : Fmt → Bool
  | .fp32 => v.daz32 | .fp16 => v.daz16 | .bf16 => v.dazbf | _ => v.daz8

/-- The result-flush bit of a format (R118). -/
def FEnv.ftz (v : FEnv) : Fmt → Bool
  | .fp32 => v.ftz32 | .fp16 => v.ftz16 | .bf16 => v.ftzbf | _ => v.ftz8

/-- The exponent field of a code. -/
def Fmt.expOf (f : Fmt) (c : Nat) : Nat := c % f.signBit / 2 ^ f.mant

/-- The mantissa field of a code. -/
def Fmt.manOf (f : Fmt) (c : Nat) : Nat := c % 2 ^ f.mant

/-- The sign of a code. -/
def Fmt.negOf (f : Fmt) (c : Nat) : Bool := natBit c (f.width - 1)

/-- The value of a code that is neither infinity nor NaN (R109). -/
def Fmt.finite (f : Fmt) (c : Nat) : FVal :=
  if f.expOf c = 0 then .fin (f.negOf c) (f.manOf c) f.qmin
  else .fin (f.negOf c) (2 ^ f.mant + f.manOf c) (f.qmin + (f.expOf c : Int) - 1)

/-- The element a code stands for (R108-R110), read without flushing. -/
def Fmt.unpack (f : Fmt) (c : Nat) : FVal :=
  let top := 2 ^ (f.width - 1 - f.mant) - 1
  match f with
  | .fp8e4 => if c % 128 = 127 then .nan false (f.negOf c) 0 0 else f.finite c
  | .fp8e4z => if c % 256 = 128 then .nan false false 0 0 else f.finite c
  | .fp6e3 | .fp6e2 | .fp4 => f.finite c
  | _ =>
    if f.expOf c = top then
      if f.manOf c = 0 then .inf (f.negOf c)
      else .nan (!natBit c (f.mant - 1)) (f.negOf c) (f.manOf c) f.mant
    else f.finite c

/-- The code is subnormal: exponent field 0, mantissa not 0. -/
def Fmt.isSub (f : Fmt) (c : Nat) : Bool := f.expOf c == 0 && f.manOf c != 0

/-- A source code under the operand flush of its format (R118). -/
def FEnv.flush (v : FEnv) (f : Fmt) (c : Nat) : Nat :=
  if v.daz f && f.isSub c then (if f == .fp8e4z then 0 else c / f.signBit % 2 * f.signBit) else c

/-- A source element as an instruction reads it (R118): a flushed subnormal is a zero of its own sign, also in FP8E4Z, which has no code for −0. -/
def FEnv.read (v : FEnv) (f : Fmt) (c : Nat) : FVal :=
  if f == .fp8e4z && v.daz f && f.isSub c then .fin (f.negOf c) 0 0 else f.unpack (v.flush f c)

/-- A code and the flags raised in making it. -/
abbrev Rounded := Nat × Nat

/-- A zero of a sign: formats without −0 give +0 with UF and NX (R118). -/
def zeroOf (f : Fmt) (neg : Bool) (fl : Nat) : Rounded :=
  if neg then (if f == .fp8e4z then (0, fl ||| flagUF ||| flagNX) else (f.signBit, fl)) else (0, fl)

/-- Overflow (R117). -/
def overflowOf (v : FEnv) (f : Fmt) (mode : Rnd) (neg : Bool) (fl : Nat) : Rounded :=
  let s := if neg then f.signBit else 0
  let infCode := s + f.maxCode + 1
  let big := s + f.maxCode
  let fl := fl ||| flagOF ||| flagNX
  if f.hasInf then
    match mode with
    | .rtz => (big, fl)
    | .rup => (if neg then big else infCode, fl)
    | .rdn => (if neg then infCode else big, fl)
    | _ => (infCode, fl)
  else
    match (if v.satn then f.canonNaN else none) with
    | some c => (c, fl)
    | none => (big, fl)

/-- Floor of log2 of num / den, both nonzero. -/
def floorLog2 (num den : Nat) : Int :=
  let k : Int := (Nat.log2 num : Int) - (Nat.log2 den : Int)
  if (if 0 ≤ k then den * 2 ^ k.toNat ≤ num else den ≤ num * 2 ^ (-k).toNat) then k else k - 1

/-- Whether the magnitude is rounded up, away from zero, for a remainder rem of den (R116). -/
def roundsUp (mode : Rnd) (r : Nat) (neg odd : Bool) (rem den : Nat) : Bool :=
  match mode with
  | .rne => den < 2 * rem || (den == 2 * rem && odd)
  | .rna => den ≤ 2 * rem
  | .rtz => false
  | .rup => !neg
  | .rdn => neg
  | .rsr => if neg then !(r < (den - rem) * 2 ^ 24 / den) else r < rem * 2 ^ 24 / den

/-- RoundOnce of (−1)^neg × num / den, num and den nonzero (R116-R118). -/
def roundNonzero (v : FEnv) (f : Fmt) (mode : Rnd) (r : Nat) (neg : Bool) (num den : Nat) : Rounded :=
  let e := floorLog2 num den
  let q := max (e - (f.mant : Int)) f.qmin
  let n := if 0 ≤ q then num else num * 2 ^ (-q).toNat
  let d := if 0 ≤ q then den * 2 ^ q.toNat else den
  let c := n / d
  let rem := n % d
  let up := rem != 0 && roundsUp mode r neg (c % 2 == 1) rem d
  let c' := if up then c + 1 else c
  let fl := if rem = 0 then 0 else flagNX
  let code := (q - f.qmin).toNat * 2 ^ f.mant + c'
  if f.maxCode < code then overflowOf v f mode neg fl
  else if c' = 0 then zeroOf f neg (fl ||| flagUF)
  else if code < 2 ^ f.mant then
    if v.ftz f then zeroOf f neg (fl ||| flagUF ||| flagNX)
    else ((if neg then f.signBit else 0) + code, if rem = 0 then fl else fl ||| flagUF)
  else ((if neg then f.signBit else 0) + code, fl)

/-- RoundOnce of an exact rational; neg gives the sign of a zero (R116). -/
def roundQ (v : FEnv) (f : Fmt) (mode : Rnd) (r : Nat) (neg : Bool) (num den : Nat) : Rounded :=
  if num = 0 then zeroOf f neg 0 else roundNonzero v f mode r neg num den

/-- RoundOnce of (−1)^neg × m × 2^e. -/
def roundDyadic (v : FEnv) (f : Fmt) (mode : Rnd) (r : Nat) (neg : Bool) (m : Nat) (e : Int) : Rounded :=
  if 0 ≤ e then roundQ v f mode r neg (m * 2 ^ e.toNat) 1 else roundQ v f mode r neg m (2 ^ (-e).toNat)

/-- The element is a NaN. -/
def FVal.isNaN : FVal → Bool
  | .nan .. => true
  | _ => false

/-- The element is a signalling NaN (R110). -/
def FVal.isSig : FVal → Bool
  | .nan s _ _ _ => s
  | _ => false

/-- The element is an infinity. -/
def FVal.isInf : FVal → Bool
  | .inf _ => true
  | _ => false

/-- The element is a zero. -/
def FVal.isZero : FVal → Bool
  | .fin _ 0 _ => true
  | _ => false

/-- The sign of an element. -/
def FVal.neg : FVal → Bool
  | .nan _ n _ _ => n
  | .inf n => n
  | .fin n _ _ => n

/-- The element with its sign inverted. -/
def FVal.negate : FVal → FVal
  | .nan s n p w => .nan s (!n) p w
  | .inf n => .inf (!n)
  | .fin n m e => .fin (!n) m e

/-- A propagated NaN in a format (R119). -/
def propagate (f : Fmt) : FVal → Option Nat
  | .nan _ neg pay w =>
    let s := if neg then f.signBit else 0
    match f with
    | .fp8e4 => some (s + 0x7F)
    | .fp8e4z => some 0x80
    | .fp6e3 | .fp6e2 | .fp4 => none
    | _ =>
      let p := if w = 0 then 0 else if f.mant ≤ w then pay / 2 ^ (w - f.mant) else pay * 2 ^ (f.mant - w)
      some (s + (f.maxCode + 1) + (p ||| 2 ^ (f.mant - 1)))
  | _ => none

/-- A NaN result: the first NaN source under NPROP, else the canonical NaN; formats with no NaN code give +0 and NV (R119). -/
def nanResult (v : FEnv) (f : Fmt) (srcs : List FVal) (fl : Nat) : Rounded :=
  match f.canonNaN with
  | none => (0, fl ||| flagNV)
  | some c =>
    if v.nprop then
      match srcs.find? FVal.isNaN with
      | some x => ((propagate f x).getD c, fl)
      | none => (c, fl)
    else (c, fl)

/-- A term of an exact sum (R157). -/
inductive Term where
  | invalid
  | inf (neg : Bool)
  | fin (neg : Bool) (m : Nat) (e : Int)
  deriving DecidableEq, Repr

/-- A source as a term; a NaN gives no term, since the sources are looked at first. -/
def FVal.term : FVal → List Term
  | .nan .. => []
  | .inf n => [.inf n]
  | .fin n m e => [.fin n m e]

/-- The product of two elements as a term: Inf × 0 gives the invalid mark (R157). -/
def prodTerm : FVal → FVal → List Term
  | .nan .., _ => []
  | _, .nan .. => []
  | .inf a, .inf b => [.inf (a != b)]
  | .inf a, .fin b m _ => if m = 0 then [.invalid] else [.inf (a != b)]
  | .fin a m _, .inf b => if m = 0 then [.invalid] else [.inf (a != b)]
  | .fin a m e, .fin b n k => [.fin (a != b) (m * n) (e + k)]

/-- The least exponent of a list of terms. -/
def minExp : List Term → Int → Int
  | [], x => x
  | .fin _ m e :: r, x => minExp r (if m ≠ 0 ∧ e < x then e else x)
  | _ :: r, x => minExp r x

/-- The sum of the finite terms, in units of 2^base. -/
def sumAt (base : Int) : List Term → Int
  | [] => 0
  | .fin n m e :: r =>
    (if n then -((m * 2 ^ (e - base).toNat : Nat) : Int) else ((m * 2 ^ (e - base).toNat : Nat) : Int)) + sumAt base r
  | _ :: r => sumAt base r

/-- The term is −0. -/
def Term.isNegZero : Term → Bool
  | .fin true 0 _ => true
  | _ => false

/-- The term is +0. -/
def Term.isPosZero : Term → Bool
  | .fin false 0 _ => true
  | _ => false

/-- ExactFloatSum into a format (R157): srcs are the sources of R119 in order, terms the exact terms. -/
def exactSum (v : FEnv) (f : Fmt) (srcs : List FVal) (terms : List Term) : Rounded :=
  let hasInv := terms.contains .invalid
  let both := terms.contains (.inf false) && terms.contains (.inf true)
  if srcs.any FVal.isNaN || hasInv || both then
    nanResult v f srcs (if srcs.any FVal.isSig || hasInv || both then flagNV else 0)
  else if terms.contains (.inf false) then
    (if f.hasInf then (f.maxCode + 1, 0) else overflowOf v f v.rm false 0)
  else if terms.contains (.inf true) then
    (if f.hasInf then (f.signBit + f.maxCode + 1, 0) else overflowOf v f v.rm true 0)
  else
    let base := minExp terms 0
    let s := sumAt base terms
    if s = 0 then
      zeroOf f (terms.all Term.isNegZero || (v.rm == .rdn && !terms.all Term.isPosZero)) 0
    else roundDyadic v f v.rm 0 (s < 0) s.natAbs base

/-- A + B in a format (R137, R140). -/
def faddOp (v : FEnv) (f : Fmt) (a b : Nat) : Rounded :=
  let x := v.read f a; let y := v.read f b
  exactSum v f [x, y] (x.term ++ y.term)

/-- A − B (R138). -/
def fsubOp (v : FEnv) (f : Fmt) (a b : Nat) : Rounded :=
  let x := v.read f a; let y := v.read f b
  exactSum v f [x, y] (x.term ++ y.negate.term)

/-- A × B (R137): a zero product takes the exclusive OR of the signs. -/
def fmulOp (v : FEnv) (f : Fmt) (a b : Nat) : Rounded :=
  let x := v.read f a; let y := v.read f b
  match prodTerm x y with
  | [.fin n 0 _] => zeroOf f n 0
  | t => exactSum v f [x, y] t

/-- A × B + C, or A × B − C, with one rounding (R138, R140). -/
def ffmaOp (v : FEnv) (f : Fmt) (sub : Bool) (a b c : Nat) : Rounded :=
  let x := v.read f a; let y := v.read f b; let z := v.read f c
  exactSum v f [x, y, z] (prodTerm x y ++ (if sub then z.negate else z).term)

/-- The order of two numbers of one format, −0 below +0 (R139). -/
def fkey (f : Fmt) (c : Nat) : Int :=
  if f.negOf c then -((c % f.signBit : Nat) : Int) - 1 else ((c % f.signBit : Nat) : Int)

/-- FMIN, FMAX (num false) and FMINN, FMAXN (num true) (R139). -/
def fminmax (v : FEnv) (f : Fmt) (isMax num : Bool) (a b : Nat) : Rounded :=
  let a := v.flush f a; let b := v.flush f b
  let x := f.unpack a; let y := f.unpack b
  let fl := if x.isSig || y.isSig then flagNV else 0
  if x.isNaN && y.isNaN || (x.isNaN || y.isNaN) && !num then nanResult v f [x, y] fl
  else if x.isNaN then (b, fl)
  else if y.isNaN then (a, fl)
  else if isMax then (if fkey f a < fkey f b then b else a, fl)
  else (if fkey f b < fkey f a then b else a, fl)

/-- FCMP, HCMP2 of one half, and SFCMP: the truth of A cond B and the flags (R139, R324). -/
def fcmpOp (v : FEnv) (f : Fmt) (c : FCond) (a b : Nat) : Bool × Nat :=
  let a := v.flush f a; let b := v.flush f b
  let x := f.unpack a; let y := f.unpack b
  let anyNaN := x.isNaN || y.isNaN
  let sig := x.isSig || y.isSig
  let k := fkey f a; let l := fkey f b
  match c with
  | .eq => (!anyNaN && k == l, if sig then flagNV else 0)
  | .ne => (anyNaN || k != l, if sig then flagNV else 0)
  | .lt => (!anyNaN && k < l, if anyNaN then flagNV else 0)
  | .le => (!anyNaN && k ≤ l, if anyNaN then flagNV else 0)
  | .gt => (!anyNaN && l < k, if anyNaN then flagNV else 0)
  | .ge => (!anyNaN && l ≤ k, if anyNaN then flagNV else 0)
  | .ord => (!anyNaN, if sig then flagNV else 0)
  | .uno => (anyNaN, if sig then flagNV else 0)

/-- Element i of a register of elements of a width. -/
def elemAt (w i x : Nat) : Nat := x / 2 ^ (w * i) % 2 ^ w

/-- A dot word: D plus the products of elements, rounded once (R141). -/
def dotOp (v : FEnv) (f : Fmt) (n a b c : Nat) : Rounded :=
  let xs := (List.range n).map fun i => v.read f (elemAt f.width i a)
  let ys := (List.range n).map fun i => v.read f (elemAt f.width i b)
  let z := v.read .fp32 c
  exactSum v .fp32 (xs ++ ys ++ [z]) (((xs.zip ys).flatMap fun p => prodTerm p.1 p.2) ++ z.term)

/-- The class number of FCLASS (R142). -/
def fclassOp (a : Nat) : Nat :=
  match Fmt.fp32.unpack a with
  | .nan sig _ _ _ => if sig then 0 else 1
  | .inf n => if n then 2 else 9
  | .fin n m _ =>
    if m = 0 then (if n then 5 else 6)
    else if Fmt.fp32.isSub a then (if n then 4 else 7) else (if n then 3 else 8)

/-- An integer nearest a dyadic magnitude m × 2^e by a mode, as a magnitude (R123, R143), with whether it was inexact. -/
def roundInt (mode : Rnd) (neg : Bool) (m : Nat) (e : Int) : Nat × Bool :=
  if 0 ≤ e then (m * 2 ^ e.toNat, false)
  else
    let d := 2 ^ (-e).toNat
    let c := m / d
    let rem := m % d
    (if rem != 0 && roundsUp mode 0 neg (c % 2 == 1) rem d then c + 1 else c, rem != 0)

/-- FRND (R143). -/
def frndOp (v : FEnv) (mode : Rnd) (a : Nat) : Rounded :=
  let a := v.flush .fp32 a
  match Fmt.fp32.unpack a with
  | .nan sig n p w => nanResult v .fp32 [.nan sig n p w] (if sig then flagNV else 0)
  | .inf _ => (a, 0)
  | .fin n m e =>
    let k := roundInt mode n m e
    if m = 0 || !k.2 then (a, 0) else ((roundQ v .fp32 .rne 0 n k.1 1).1, 0)

/-- A scale exponent held to a range beyond which every FP32 result is the same (R143). -/
def clampExp (x : Int) : Int := if x < -1000 then -1000 else if 1000 < x then 1000 else x

/-- FLDEXP (R143). -/
def fldexpOp (v : FEnv) (a b : Nat) : Rounded :=
  match v.read .fp32 a with
  | .nan sig n p w => nanResult v .fp32 [.nan sig n p w] (if sig then flagNV else 0)
  | .inf n => (if n then 0xFF800000 else 0x7F800000, 0)
  | .fin n m e => roundDyadic v .fp32 v.rm 0 n m (e + clampExp (sintOf 32 b))

/-- FFRACT (R143). -/
def ffractOp (v : FEnv) (a : Nat) : Rounded :=
  match v.read .fp32 a with
  | .nan sig n p w => nanResult v .fp32 [.nan sig n p w] (if sig then flagNV else 0)
  | .inf n => nanResult v .fp32 [.inf n] flagNV
  | .fin n m e =>
    if 0 ≤ e then (0, 0)
    else
      let d := 2 ^ (-e).toNat
      let fr := if n then (d - m % d) % d else m % d
      if fr = 0 then (0, 0)
      else
        let y := roundQ v .fp32 v.rm 0 false fr d
        if y.1 = 0x3F800000 then (0x3F7FFFFF, y.2 ||| flagNX) else y

/-- FSAT (R143): the clamped value is rounded into FP32 under R137, so FTZ32 flushes a subnormal. -/
def fsatOp (v : FEnv) (a : Nat) : Rounded :=
  match v.read .fp32 a with
  | .nan sig _ _ _ => (0, if sig then flagNV else 0)
  | .inf n => (if n then 0 else 0x3F800000, 0)
  | .fin n m e =>
    if n || m == 0 then (0, 0)
    else if 0 ≤ floorLog2 m 1 + e then (0x3F800000, 0)
    else roundDyadic v .fp32 v.rm 0 false m e

end Sys2Proof.Machine
end

