-- ==== Sys2Proof/Machine/Convert.lean ====
section
/-! DEFINITION. The conversion codes of 05 R121-R125 and the residues of ACZ elements. -/

namespace Sys2Proof.Machine

/-- A float source rounded into a narrower or wider format (R122). -/
def cvtFF (v : FEnv) (src dst : Fmt) (c : Nat) : Rounded :=
  match v.read src c with
  | .nan sig n p w => nanResult v dst [.nan sig n p w] (if sig then flagNV else 0)
  | .inf n => if dst.hasInf then ((if n then dst.signBit else 0) + dst.maxCode + 1, 0) else overflowOf v dst v.rm n 0
  | .fin n m e => roundDyadic v dst v.rm 0 n m e

/-- A widening conversion: exact, with no flag but NV for a signalling NaN (R122). -/
def cvtWiden (v : FEnv) (src : Fmt) (c : Nat) : Rounded :=
  let w := cvtFF { v with ftz32 := false } src .fp32 c
  match v.read src c with
  | .nan .. => w
  | _ => (w.1, 0)

/-- Float to integer in [lo, hi] (R123), as an integer; an integer equal to its source, 0 from −0 too, raises no flag (log 47). -/
def cvtFI (v : FEnv) (mode : Rnd) (lo hi : Int) (c : Nat) : Int × Nat :=
  match v.read .fp32 c with
  | .nan .. => (0, flagNV)
  | .inf n => (if n then lo else hi, flagNV)
  | .fin n m e =>
    let k := roundInt mode n m e
    let x : Int := if n then -(k.1 : Int) else (k.1 : Int)
    if x < lo then (lo, flagNV) else if hi < x then (hi, flagNV) else (x, if k.2 then flagNX else 0)

/-- Integer to FP32 (R123). -/
def cvtIF (v : FEnv) (x : Int) : Rounded := roundQ v .fp32 v.rm 0 (x < 0) x.natAbs 1

/-- Integer to integer in [lo, hi] (R123). -/
def cvtII (lo hi x : Int) : Int × Nat :=
  if x < lo then (lo, flagIS) else if hi < x then (hi, flagIS) else (x, 0)

/-- The product of the three moduli (R125). -/
def residueM : Nat := 511 * 512 * 513

/-- The residue element of an integer (R125). -/
def residueEnc (x : Int) : Nat :=
  (x % 511).toNat + 512 * (x % 512).toNat + 2 ^ 18 * (x % 513).toNat

/-- The integer of the window whose residues an element holds, or none when it is malformed (R125). -/
def residueDec (w : Nat) : Option Int :=
  let a := natBits w 8 0
  let b := natBits w 17 9
  let c := natBits w 27 18
  if w / 2 ^ 28 ≠ 0 ∨ 511 ≤ a ∨ 513 ≤ c then none
  else
    -- the Chinese remainder theorem: 512 ≡ 1 and 513 ≡ 2 mod 511, and 511 ≡ −1 mod 512, 511 ≡ −2 mod 513
    let x := (a * (512 * 513) * 256 + b * (511 * 513) * 511 + c * (511 * 512) * 257) % residueM
    some (if 2 ^ 26 < x then (x : Int) - (residueM : Int) else (x : Int))

/-- The lower and upper end of the residue window (R125). -/
def residueLo : Int := -67108351
/-- The upper end of the residue window (R125). -/
def residueHi : Int := 2 ^ 26

/-- A signed result as a 32-bit code. -/
def asI32 (r : Int × Nat) : Rounded := (modPow 32 r.1, r.2)

/-- The conversion a code names, of a 64-bit reading of the source: the result (64 bits for code 0x37) and the flags (R121-R125). -/
def convert (v : FEnv) (code x : Nat) : Rounded :=
  let lo := x % 2 ^ 32
  match code with
  | 0x00 => cvtFF v .fp32 .fp16 lo
  | 0x01 => cvtFF v .fp32 .bf16 lo
  | 0x02 => cvtWiden v .fp16 (natBits x 15 0)
  | 0x03 => cvtWiden v .fp16 (natBits x 31 16)
  | 0x04 => cvtWiden v .bf16 (natBits x 15 0)
  | 0x05 => cvtWiden v .bf16 (natBits x 31 16)
  | 0x06 => cvtFF v .fp32 .fp8e4 lo
  | 0x07 => cvtFF v .fp32 .fp8e4z lo
  | 0x08 => cvtFF v .fp32 .fp8e5 lo
  | 0x09 => cvtFF v .fp32 .fp6e3 lo
  | 0x0A => cvtFF v .fp32 .fp6e2 lo
  | 0x0B => cvtFF v .fp32 .fp4 lo
  | 0x0C => cvtWiden v .fp8e4 (natBits x 7 0)
  | 0x0D => cvtWiden v .fp8e4z (natBits x 7 0)
  | 0x0E => cvtWiden v .fp8e5 (natBits x 7 0)
  | 0x0F => cvtWiden v .fp6e3 (natBits x 5 0)
  | 0x10 => cvtWiden v .fp6e2 (natBits x 5 0)
  | 0x11 => cvtWiden v .fp4 (natBits x 3 0)
  | 0x12 => asI32 (cvtFI v v.rm (-(2 ^ 31)) (2 ^ 31 - 1) lo)
  | 0x13 => asI32 (cvtFI v .rtz (-(2 ^ 31)) (2 ^ 31 - 1) lo)
  | 0x14 => asI32 (cvtFI v v.rm 0 (2 ^ 32 - 1) lo)
  | 0x15 => asI32 (cvtFI v .rtz 0 (2 ^ 32 - 1) lo)
  | 0x16 => cvtIF v (sintOf 32 lo)
  | 0x17 => cvtIF v lo
  | 0x18 => asI32 (cvtFI v v.rm (-(2 ^ 15)) (2 ^ 15 - 1) lo)
  | 0x19 => asI32 (cvtFI v v.rm 0 (2 ^ 16 - 1) lo)
  | 0x1A => asI32 (cvtFI v v.rm (-128) 127 lo)
  | 0x1B => asI32 (cvtFI v v.rm 0 255 lo)
  | 0x1C => asI32 (cvtII (-(2 ^ 15)) (2 ^ 15 - 1) (sintOf 32 lo))
  | 0x1D => asI32 (cvtII (-128) 127 (sintOf 32 lo))
  | 0x1E => asI32 (cvtII (-8) 7 (sintOf 32 lo))
  | 0x1F => asI32 (cvtII 0 (2 ^ 16 - 1) lo)
  | 0x20 => asI32 (cvtII 0 255 lo)
  | 0x21 => asI32 (cvtII 0 15 lo)
  | 0x30 =>
    match residueDec lo with
    | some k => (modPow 32 k, 0)
    | none => (0x80000000, flagNV)
  | 0x31 =>
    let k := cvtII residueLo residueHi (sintOf 32 lo)
    (residueEnc k.1, k.2)
  | 0x32 =>
    match residueDec lo with
    | some k => cvtIF v k
    | none => (0x7FC00000, flagNV)
  | 0x33 =>
    let e := natBits x 7 0
    if e = 255 then (0x7FC00000, 0) else roundDyadic v .fp32 v.rm 0 false 1 ((e : Int) - 127)
  | 0x34 =>
    match v.read .fp32 lo with
    | .fin _ m e =>
      if m = 0 then (0, 0)
      else
        let k := floorLog2 m 1 + e + 127
        ((if k < 0 then 0 else if 0xFE < k then 0xFE else k.toNat), 0)
    | _ => (0xFF, 0)
  | 0x35 => cvtIF v (sintOf 64 x)
  | 0x36 => cvtIF v ((x % 2 ^ 64 : Nat) : Int)
  | _ =>
    let k := cvtFI v .rtz (-(2 ^ 63)) (2 ^ 63 - 1) lo
    (modPow 64 k.1, k.2)

end Sys2Proof.Machine
end

