-- ==== Sys2Proof/Machine/Operands.lean ====
section
/-! DEFINITION. The operand forms: operand A and B of the lane and uniform words (02 R29, 03 R74, 04 R89-R94), the registers a form names (R60), and the frames of the register-to-register forms (R90, R93). -/

namespace Sys2Proof.Machine

/-- FP32 1.0 (R29). -/
def fone : Word := 0x3F800000

/-- Special slot 96 + n of a lane thread (R29). -/
def Env.slot (e : Env) (t : Thread) : Nat → Word
  | 0 => 0
  | 1 => 1
  | 2 => fone
  | 3 => BitVec.ofNat 32 t.lane
  | 4 => BitVec.ofNat 32 t.tid
  | 5 => BitVec.ofNat 32 t.strand
  | 6 => BitVec.ofNat 32 t.width
  | 7 => BitVec.ofNat 32 e.gx
  | 8 => BitVec.ofNat 32 e.gy
  | 9 => BitVec.ofNat 32 e.gz
  | 10 => BitVec.ofNat 32 e.ngx
  | 11 => BitVec.ofNat 32 e.ngy
  | 12 => BitVec.ofNat 32 e.ngz
  | 13 => BitVec.ofNat 32 (e.coreNumber t)
  | 14 => BitVec.ofNat 32 e.vdie
  | 15 => tabGet 0 t.seedw 0
  | 16 => tabGet 0 t.seedw 1
  | 17 => tabGet 0 t.seedw 2
  | 18 => tabGet 0 t.seedw 3
  | 19 => BitVec.ofNat 32 e.gt
  | 20 => BitVec.ofNat 32 (e.gt / 2 ^ 32)
  | 21 => BitVec.ofNat 32 e.cyc
  | _ => BitVec.ofNat 32 (e.cyc / 2 ^ 32)

/-- Uniform special 32 + n (R74). -/
def Env.uslot (e : Env) (t : Thread) : Nat → Word
  | 0 => 0
  | 1 => 1
  | 2 => fone
  | 3 => BitVec.ofNat 32 e.gx
  | 4 => BitVec.ofNat 32 e.gy
  | 5 => BitVec.ofNat 32 e.gz
  | 6 => BitVec.ofNat 32 e.ngx
  | 7 => BitVec.ofNat 32 e.ngy
  | 8 => BitVec.ofNat 32 e.ngz
  | 9 => BitVec.ofNat 32 (e.coreNumber t)
  | 10 => BitVec.ofNat 32 e.vdie
  | 11 => BitVec.ofNat 32 e.gt
  | 12 => BitVec.ofNat 32 (e.gt / 2 ^ 32)
  | 13 => BitVec.ofNat 32 e.cyc
  | 14 => BitVec.ofNat 32 (e.cyc / 2 ^ 32)
  | _ => BitVec.ofNat 32 e.nstr

/-- A word sign-extended to 64 bits (R89). -/
def signExt64 (w : Word) : DWord := w.signExtend 64

/-- Operand A of a lane word, 32 bits (R89). -/
def readA (e : Env) (t : Thread) : LaneA → Word
  | .v r => t.reg r.val
  | .s r => tabGet 0 e.sregs r.val
  | .slot n => e.slot t n.val
  | .lit w => w

/-- Operand A of a lane word, 64 bits (R89). -/
def readA64 (e : Env) (t : Thread) : LaneA → DWord
  | .v r => t.pair r.val
  | .s r => joinPair (tabGet 0 e.sregs r.val) (tabGet 0 e.sregs (r.val + 1))
  | .slot n =>
    if n.val = 19 then BitVec.ofNat 64 e.gt
    else if n.val = 21 then BitVec.ofNat 64 e.cyc
    else (e.slot t n.val).setWidth 64
  | .lit w => signExt64 w

/-- Operand A of a uniform word, 32 bits (R93). -/
def readUA (e : Env) (t : Thread) : UniA → Word
  | .s r => t.reg r.val
  | .sp n => e.uslot t n.val
  | .lit w => w

/-- Operand B of a uniform word, 32 bits (R93). -/
def readUB (e : Env) (t : Thread) : UniB → Word
  | .s r => t.reg r.val
  | .sp n => e.uslot t n.val
  | .imm n => wordOfInt ((n.val : Int) - 64)
  | .lit w => w

/-- A uniform special in a 64-bit position (R93). -/
def Env.uslot64 (e : Env) (t : Thread) (n : Nat) : DWord :=
  if n = 11 then BitVec.ofNat 64 e.gt
  else if n = 13 then BitVec.ofNat 64 e.cyc
  else (e.uslot t n).setWidth 64

/-- Operand A of a uniform word, 64 bits (R93). -/
def readUA64 (e : Env) (t : Thread) : UniA → DWord
  | .s r => t.pair r.val
  | .sp n => e.uslot64 t n.val
  | .lit w => signExt64 w

/-- Operand B of a uniform word, 64 bits (R93). -/
def readUB64 (e : Env) (t : Thread) : UniB → DWord
  | .s r => t.pair r.val
  | .sp n => e.uslot64 t n.val
  | .imm n => signExt64 (wordOfInt ((n.val : Int) - 64))
  | .lit w => signExt64 w

/-- One V register. -/
def v1 (r : Fin 64) : List Need := [.v r.val 1 1]
/-- A V pair. -/
def v2 (r : Fin 64) : List Need := [.v r.val 2 2]
/-- A group of n V registers. -/
def vGroup (r : Fin 64) (n : Nat) : List Need := [.v r.val n n]
/-- An S pair. -/
def s2 (r : Fin 32) : List Need := [.s r.val 2 2]
/-- A group of n S registers. -/
def sGroup (r : Fin 32) (n : Nat) : List Need := [.s r.val n n]

/-- What operand A names. -/
def needA : LaneA → List Need
  | .v r => v1 r
  | _ => []

/-- What operand A names in a 64-bit position (R60). -/
def needA64 : LaneA → List Need
  | .v r => v2 r
  | .s r => s2 r
  | _ => []

/-- What operand A of a uniform word names in a 64-bit position (R60). -/
def needUA64 : UniA → List Need
  | .s r => s2 r
  | _ => []

/-- What operand B of a uniform word names in a 64-bit position (R60). -/
def needUB64 : UniB → List Need
  | .s r => s2 r
  | _ => []

/-- Words a lane word with this operand A takes (R82). -/
def lenA : LaneA → Nat
  | .lit _ => 2
  | _ => 1

/-- Words a uniform word with this operand A takes. -/
def lenUA : UniA → Nat
  | .lit _ => 2
  | _ => 1

/-- Words a uniform word with these operands takes. -/
def uniLen : UniA → UniB → Nat
  | .lit _, _ => 2
  | _, .lit _ => 2
  | _, _ => 1

/-- A word of one location that names needs. -/
def wordShape (h : Hdr) (ends : Bool) (nvar : Nat) (needs : List Need) : Shape := ⟨h, 1, ends, nvar, needs⟩

/-- A word with operand A that names needs. -/
def aShape (h : Hdr) (a : LaneA) (nvar : Nat) (needs : List Need) : Shape := ⟨h, lenA a, false, nvar, needs⟩

/-- A uniform word with operands A and B that names needs. -/
def uShape (h : Hdr) (a : UniA) (b : UniB) (needs : List Need) : Shape := ⟨h, uniLen a b, false, 0, needs⟩

/-- A V or S register written. -/
def wr (r : Nat) (v : Word) : List (Reg × Word) := [(.gpr r, v)]
/-- A pair written (R60). -/
def wr64 (r : Nat) (v : DWord) : List (Reg × Word) := [(.gpr r, lowWord v), (.gpr (r + 1), highWord v)]
/-- A predicate written. -/
def wrP (k : Nat) (b : Bool) : List (Reg × Word) := [(.pred k, if b then 1 else 0)]

/-- A 32-bit code as a word. -/
def w32 (n : Nat) : Word := BitVec.ofNat 32 n

/-- Bin and Ter forms of 32-bit integer words: f takes A, B and D (R132). -/
def laneBin (h : Hdr) (d : Fin 64) (a : LaneA) (b : Fin 64) (f : Word → Word → Word → Word) (s : State) : Out :=
  lanePure (aShape h a 0 (v1 d ++ needA a ++ v1 b)) true
    (fun e t => .of (wr d.val (f (readA e t a) (t.reg b.val) (t.reg d.val)))) s

/-- Un form of a 32-bit integer word. -/
def laneUn (h : Hdr) (d : Fin 64) (a : LaneA) (f : Word → Word) (s : State) : Out :=
  lanePure (aShape h a 0 (v1 d ++ needA a)) true (fun e t => .of (wr d.val (f (readA e t a)))) s

/-- Bin form over 64-bit A, B and D. -/
def laneBin64 (h : Hdr) (d : Fin 64) (a : LaneA) (b : Fin 64) (f : DWord → DWord → DWord) (s : State) : Out :=
  lanePure (aShape h a 0 (v2 d ++ needA64 a ++ v2 b)) true
    (fun e t => .of (wr64 d.val (f (readA64 e t a) (t.pair b.val)))) s

/-- Bin form with a 32-bit A and 64-bit B and D. -/
def laneShift64 (h : Hdr) (d : Fin 64) (a : LaneA) (b : Fin 64) (f : Word → DWord → DWord) (s : State) : Out :=
  lanePure (aShape h a 0 (v2 d ++ needA a ++ v2 b)) true
    (fun e t => .of (wr64 d.val (f (readA e t a) (t.pair b.val)))) s

/-- Pred form of an integer word. -/
def lanePredI (h : Hdr) (k : Fin 8) (a : LaneA) (b : Fin 64) (f : Word → Word → Bool) (s : State) : Out :=
  lanePure (aShape h a 0 (needA a ++ v1 b)) true (fun e t => .of (wrP k.val (f (readA e t a) (t.reg b.val)))) s

/-- Bin and Ter forms of words that raise flags: f takes FPC's environment, A, B and D. -/
def laneBinF (h : Hdr) (d : Fin 64) (a : LaneA) (b : Fin 64) (f : FEnv → Nat → Nat → Nat → Rounded) (s : State) : Out :=
  lanePure (aShape h a 0 (v1 d ++ needA a ++ v1 b)) true
    (fun e t =>
      let r := f (FEnv.ofFpc t.fpc) (readA e t a).toNat (t.reg b.val).toNat (t.reg d.val).toNat
      ⟨wr d.val (w32 r.1), r.2, none⟩) s

/-- Un and Sel forms of words that raise flags, fixed-latency or not. -/
def laneUnF (h : Hdr) (fixed : Bool) (d : Fin 64) (a : LaneA) (f : FEnv → Nat → Rounded) (s : State) : Out :=
  lanePure (aShape h a (if fixed then 0 else 1) (v1 d ++ needA a)) fixed
    (fun e t =>
      let r := f (FEnv.ofFpc t.fpc) (readA e t a).toNat
      ⟨wr d.val (w32 r.1), r.2, none⟩) s

/-- Bin and Ter forms of 32-bit uniform integer words: f takes A, B and D (R93). -/
def uniBin (h : Hdr) (d : Fin 32) (a : UniA) (b : UniB) (f : Word → Word → Word → Word) (s : State) : Out :=
  uniPure (uShape h a b []) true
    (fun e t => .of (wr d.val (f (readUA e t a) (readUB e t b) (t.reg d.val)))) s

/-- Un form of a uniform integer word. -/
def uniUn (h : Hdr) (d : Fin 32) (b : UniB) (f : Word → Word) (s : State) : Out :=
  uniPure (uShape h (.sp 0) b []) true (fun e t => .of (wr d.val (f (readUB e t b)))) s

/-- Bin form over S pairs. -/
def uniBin64 (h : Hdr) (d : Fin 32) (a : UniA) (b : UniB) (f : DWord → DWord → DWord) (s : State) : Out :=
  uniPure (uShape h a b (s2 d ++ needUA64 a ++ needUB64 b)) true
    (fun e t => .of (wr64 d.val (f (readUA64 e t a) (readUB64 e t b)))) s

/-- Pred form of a uniform word: the predicate's value and flags. -/
def uniPred (h : Hdr) (k : Fin 8) (a : UniA) (b : UniB) (f : FEnv → Word → Word → Bool × Nat) (s : State) : Out :=
  uniPure (uShape h a b []) true
    (fun e t =>
      let r := f (FEnv.ofFpc t.fpc) (readUA e t a) (readUB e t b)
      ⟨wrP k.val r.1, r.2, none⟩) s

/-- Bin and Ter forms of uniform float words. -/
def uniBinF (h : Hdr) (d : Fin 32) (a : UniA) (b : UniB) (f : FEnv → Nat → Nat → Nat → Rounded) (s : State) : Out :=
  uniPure (uShape h a b []) true
    (fun e t =>
      let r := f (FEnv.ofFpc t.fpc) (readUA e t a).toNat (readUB e t b).toNat (t.reg d.val).toNat
      ⟨wr d.val (w32 r.1), r.2, none⟩) s

end Sys2Proof.Machine
end

