-- ==== Sys2Proof/Machine/Sfn.lean ====
section
/-! DEFINITION. The functions of SFN (06 R145), correctly rounded: exact rationals and square roots directly, the rest by bounds of growing precision. -/

namespace Sys2Proof.Machine

/-- The integer square root of n, one bit at a time from bit k down. -/
def isqrtGo (n : Nat) : Nat → Nat → Nat
  | 0, r => r
  | k + 1, r => isqrtGo n k (if (r + 2 ^ k) * (r + 2 ^ k) ≤ n then r + 2 ^ k else r)

/-- The integer square root. -/
def isqrt (n : Nat) : Nat := isqrtGo n (Nat.log2 n / 2 + 1) 0

/-- The rounded square root of num / den: one bit below the root keeps whether it was exact. -/
def roundSqrt (v : FEnv) (num den : Nat) : Rounded :=
  -- root of num / den = root of (num × den) / den; 2^320 keeps more bits than FP32 needs
  let n := num * den * 2 ^ 320
  let c := isqrt n
  roundQ v .fp32 v.rm 0 false (2 * c + (if c * c = n then 0 else 1)) (2 * den * 2 ^ 160)

/-- Sum of t, t·x/1, … by the rule next k t, until the term is 0 or the fuel ends. -/
def seriesGo (next : Nat → Int → Int) : Nat → Nat → Int → Int → Int
  | 0, _, _, acc => acc
  | fuel + 1, k, t, acc => if t = 0 then acc else seriesGo next fuel (k + 1) (next k t) (acc + t)

/-- atan(1/n) in units of 2^−w. -/
def atanInvGo (n : Nat) : Nat → Nat → Int → Int → Int
  | 0, _, _, acc => acc
  | fuel + 1, k, p, acc =>
    if p = 0 then acc
    else atanInvGo n fuel (k + 1) (-(p / (n * n : Nat))) (acc + p / (2 * k + 1 : Nat))

/-- π in units of 2^−w, by Machin's formula. -/
def piFix (w : Nat) : Int :=
  16 * atanInvGo 5 (w + 8) 0 ((2 ^ w : Nat) / 5) 0 - 4 * atanInvGo 239 (w + 8) 0 ((2 ^ w : Nat) / 239) 0

/-- 2 atanh(a / b) in units of 2^−w, for 0 ≤ a < b / 2. -/
def atanh2Go (a b : Nat) : Nat → Nat → Nat → Nat → Nat
  | 0, _, _, acc => acc
  | fuel + 1, k, p, acc =>
    if p = 0 then acc else atanh2Go a b fuel (k + 1) (p * a * a / (b * b)) (acc + 2 * (p / (2 * k + 1)))

/-- The natural logarithm of a / b, 1 ≤ a / b ≤ 2, in units of 2^−w. -/
def lnFix (w a b : Nat) : Nat :=
  atanh2Go (a - b) (a + b) (w + 8) 0 (2 ^ w * (a - b) / (a + b)) 0

/-- ln 2 in units of 2^−w. -/
def ln2Fix (w : Nat) : Nat := lnFix w 2 1

/-- e^(r / 2^w) in units of 2^−w, for 0 ≤ r < 2^w. -/
def expFix (w : Nat) (r : Nat) : Nat :=
  (seriesGo (fun k t => t * (r : Int) / ((2 ^ w * k : Nat) : Int)) (2 * w + 16) 1 (2 ^ w : Nat) 0).toNat

/-- sin and cos of r / 2^w in units of 2^−w, 0 ≤ r. -/
def sinFix (w : Nat) (r : Int) : Int :=
  seriesGo (fun k t => -(t * r / (2 ^ w : Nat) * r / (2 ^ w : Nat)) / ((2 * k) * (2 * k + 1) : Nat)) (2 * w + 16) 1 r 0

/-- cos of r / 2^w in units of 2^−w. -/
def cosFix (w : Nat) (r : Int) : Int :=
  seriesGo (fun k t => -(t * r / (2 ^ w : Nat) * r / (2 ^ w : Nat)) / ((2 * k - 1) * (2 * k) : Nat)) (2 * w + 16) 1 (2 ^ w : Nat) 0

/-- The number of guard bits: the floor divisions of one evaluation lose fewer than 2^64 units in all. -/
def guardBits : Nat := 64

/-- The precisions tried in turn. They go on far beyond any distance that a value of these functions at an operand of the device keeps from a rounding boundary (log 8). -/
def sfnLadder : List Nat := [96, 192, 384, 640, 1024] ++ (List.range 48).map fun i => 2 ^ (11 + i)

/-- The rounding of the one real value that lies strictly between lo and hi, in units of 2^−p, when both bounds round alike. -/
def settle (v : FEnv) (lo hi : Int) (p : Nat) : Option Rounded :=
  if lo < 0 ∧ 0 ≤ hi ∨ lo ≤ 0 ∧ 0 < hi then none
  else
    let neg := decide (hi ≤ 0)
    -- half a unit inside each bound, so that the value is inexact as the true value is
    let a := roundQ v .fp32 v.rm 0 neg (2 * lo + 1).natAbs (2 * 2 ^ p)
    let b := roundQ v .fp32 v.rm 0 neg (2 * hi - 1).natAbs (2 * 2 ^ p)
    let c := roundQ v .fp32 v.rm 0 neg (4 * lo + 1).natAbs (4 * 2 ^ p)
    let d := roundQ v .fp32 v.rm 0 neg (4 * hi - 1).natAbs (4 * 2 ^ p)
    if a = b ∧ c = d ∧ a = c then some a else none

/-- Tries the ladder of precisions on an approximation f whose value at precision p is within one unit of 2^−p. -/
def settleOn (v : FEnv) (f : Nat → Int) : List Nat → Option Rounded
  | [] => none
  | p :: r =>
    match settle v (f p - 1) (f p + 1) p with
    | some x => some x
    | none => settleOn v f r

/-- m × 2^e in units of 2^−w, rounded down. -/
def dyadicFix (w m : Nat) (e : Int) : Nat :=
  if 0 ≤ e + (w : Int) then m * 2 ^ (e + (w : Int)).toNat else m / 2 ^ (-(e + (w : Int))).toNat

/-- Units of 2^−(p + guard) to units of 2^−p. -/
def dropGuard (x : Int) : Int := x / (2 ^ guardBits : Nat)

/-- An integer times a power of two, in the same units. -/
def scaleInt (x : Int) (k : Int) : Int :=
  if 0 ≤ k then x * (2 ^ k.toNat : Nat) else x / (2 ^ (-k).toNat : Nat)

/-- 2^x for x = ±m × 2^e that is not an integer, |x| < 256. -/
def exp2Approx (neg : Bool) (m : Nat) (e : Int) (p : Nat) : Int :=
  let w := p + guardBits + 320
  let d := 2 ^ (-e).toNat
  let n : Int := if neg then -((m / d : Nat) : Int) - 1 else ((m / d : Nat) : Int)
  let fr := if neg then d - m % d else m % d
  let y := expFix w (ln2Fix w * fr / d)
  dropGuard (scaleInt y n / (2 ^ 320 : Nat))

/-- log2 of m × 2^e, not a power of two. -/
def log2Approx (m : Nat) (e : Int) (p : Nat) : Int :=
  let w := p + guardBits
  let k := Nat.log2 m
  let l := lnFix w m (2 ^ k)
  dropGuard (((k : Int) + e) * (2 ^ w : Nat) + ((l * 2 ^ w / ln2Fix w : Nat) : Int))

/-- sin (cosine false) or cos of m × 2^e, which is positive. -/
def sincosApprox (cosine : Bool) (m : Nat) (e : Int) (p : Nat) : Int :=
  let w := p + guardBits + 160
  -- the operand is k × π/2 + r with 0 ≤ r; k may be as large as 2^128, so π has 160 bits more
  let wp := w + 160
  let xp : Int := dyadicFix wp m e
  let pi := piFix wp
  let k := (2 * xp) / pi
  let r := (2 * xp - k * pi) / 2 / (2 ^ 160 : Nat)
  let q := ((k + (if cosine then 1 else 0)) % 4).toNat
  let y := match q with
    | 0 => sinFix w r
    | 1 => cosFix w r
    | 2 => -(sinFix w r)
    | _ => -(cosFix w r)
  dropGuard (y / (2 ^ 160 : Nat))

/-- tanh of m × 2^e, positive and below 32. -/
def tanhApprox (m : Nat) (e : Int) (p : Nat) : Int :=
  let w := p + guardBits + 128
  let y := dyadicFix w (2 * m) e
  let l := ln2Fix w
  let n := y / l
  let ex := expFix w (y - n * l) * 2 ^ n
  dropGuard ((((ex - 2 ^ w) * 2 ^ w / (ex + 2 ^ w) : Nat) : Int) / (2 ^ 128 : Nat))

/-- erf of m × 2^e, positive and below 6. -/
def erfApprox (m : Nat) (e : Int) (p : Nat) : Int :=
  let w := p + guardBits + 128
  let x : Int := dyadicFix w m e
  let one : Int := (2 ^ w : Nat)
  -- Σ (−1)^n x^(2n+1) / (n! (2n+1)): the term carried is x^(2n+1) / n!
  let s := (List.range (w + 64)).foldl (fun (st : Int × Int) n =>
      (-(st.1 * x / one * x / one) / ((n + 1 : Nat) : Int), st.2 + st.1 / ((2 * n + 1 : Nat) : Int))) (x, 0)
  let rp : Int := isqrt ((piFix w).toNat * 2 ^ w)
  dropGuard (2 * s.2 * one / rp / (2 ^ 128 : Nat))

/-- The rounding of a value that lies just below 1 (or, negated, just above −1). -/
def nearOne (v : FEnv) (neg : Bool) : Rounded := roundQ v .fp32 v.rm 0 neg (2 ^ 100 - 1) (2 ^ 100)

/-- The result of a settled or unsettled approximation; what the ladder leaves unsettled is a free value (log 8). -/
def settled (v : FEnv) (sel a : Nat) : Option Rounded → Rounded
  | some x => x
  | none => (Config.sfnUnsettled sel a v.rm.ctorIdx % 2 ^ 32, flagNX)

/-- The mirror of a mode: what rounding −x by it does to x. -/
def mirror (v : FEnv) : FEnv :=
  { v with rm := match v.rm with
    | .rup => .rdn
    | .rdn => .rup
    | x => x }

/-- An odd function's result from that of the magnitude. -/
def oddResult (v : FEnv) (neg : Bool) (f : FEnv → Rounded) : Rounded :=
  if neg then
    let x := f (mirror v)
    (x.1 ^^^ 0x80000000, x.2)
  else f v

/-- SFN of a finite nonzero operand ±m × 2^e (R145). -/
def sfnFinite (v : FEnv) (fn : SfnFn) (a : Nat) (neg : Bool) (m : Nat) (e : Int) : Rounded :=
  let num := if 0 ≤ e then m * 2 ^ e.toNat else m
  let den := if 0 ≤ e then 1 else 2 ^ (-e).toNat
  let invalid := nanResult v .fp32 [] flagNV
  match fn with
  | .rcp => roundQ v .fp32 v.rm 0 neg den num
  | .rsq => if neg then invalid else roundSqrt v den num
  | .sqrt => if neg then invalid else roundSqrt v num den
  | .exp2 =>
    if num % den = 0 then
      let k : Int := if neg then -((num / den : Nat) : Int) else ((num / den : Nat) : Int)
      roundDyadic v .fp32 v.rm 0 false 1 (clampExp k)
    else if 256 ≤ num / den then roundDyadic v .fp32 v.rm 0 false 1 (if neg then -1000 else 1000)
    else settled v 3 a (settleOn v (exp2Approx neg num (-(Nat.log2 den : Int))) sfnLadder)
  | .log2 =>
    if neg then invalid
    else if m = 2 ^ Nat.log2 m then cvtI v ((Nat.log2 m : Int) + e)
    else settled v 4 a (settleOn v (log2Approx m e) sfnLadder)
  | .sin => oddResult v neg fun u => settled u 5 a (settleOn u (sincosApprox false m e) sfnLadder)
  | .cos => settled v 6 a (settleOn v (sincosApprox true m e) sfnLadder)
  | .tanh =>
    oddResult v neg fun u =>
      if 32 ≤ num / den then nearOne u false else settled u 7 a (settleOn u (tanhApprox m e) sfnLadder)
  | .erf =>
    oddResult v neg fun u =>
      if 6 ≤ num / den then nearOne u false else settled u 8 a (settleOn u (erfApprox m e) sfnLadder)
where
  /-- An integer result. -/
  cvtI (v : FEnv) (x : Int) : Rounded := roundQ v .fp32 v.rm 0 (x < 0) x.natAbs 1

/-- SFN of an infinity or a zero (R145, the table of special operands). -/
def sfnSpecial (v : FEnv) (fn : SfnFn) (isInf neg : Bool) : Rounded :=
  let invalid := nanResult v .fp32 [] flagNV
  let one := 0x3F800000
  let sgn := if neg then 0x80000000 else 0
  let infC := 0x7F800000
  match fn with
  | .rcp => if isInf then (sgn, 0) else (sgn + infC, flagDZ)
  | .rsq => if isInf then (if neg then invalid else (0, 0)) else (sgn + infC, flagDZ)
  | .sqrt => if isInf then (if neg then invalid else (infC, 0)) else (sgn, 0)
  | .exp2 => if isInf then (if neg then (0, 0) else (infC, 0)) else (one, 0)
  | .log2 => if isInf then (if neg then invalid else (infC, 0)) else (0x80000000 + infC, flagDZ)
  | .sin => if isInf then invalid else (sgn, 0)
  | .cos => if isInf then invalid else (one, 0)
  | .tanh => if isInf then (sgn + one, 0) else (sgn, 0)
  | .erf => if isInf then (sgn + one, 0) else (sgn, 0)

/-- SFN (R145). -/
def sfnOp (v : FEnv) (fn : SfnFn) (a : Nat) : Rounded :=
  match v.read .fp32 a with
  | .nan sig n p w => nanResult v .fp32 [.nan sig n p w] (if sig then flagNV else 0)
  | .inf n => sfnSpecial v fn true n
  | .fin n m e => if m = 0 then sfnSpecial v fn false n else sfnFinite v fn a n m e

end Sys2Proof.Machine
end

