-- ==== Sys2Proof/Machine/Flags.lean ====
section
/-! DEFINITION. Results with flags built from the number operations: clamped sums, the halves of packed words, conditions, and writes of FPC and FLG (03 R63, R64, 04 R90, R93, 06 R134-R140). -/

namespace Sys2Proof.Machine

/-- The truth of an integer condition, signed or unsigned (R90). -/
def icond (c : ICond) (x y : Int) : Bool :=
  match c with
  | .eq => x == y
  | .ne => x != y
  | .lt => x < y
  | .le => x ≤ y
  | .gt => y < x
  | .ge => y ≤ x

/-- The truth of a uniform integer condition (R93). -/
def ucond (c : UCond) (x y : Int) : Bool :=
  match c with
  | .eq => x == y
  | .ne => x != y
  | .lt => x < y
  | .ge => y ≤ x

/-- The float condition a uniform condition code names (R93). -/
def ucondF : UCond → FCond
  | .eq => .eq
  | .ne => .ne
  | .lt => .lt
  | .ge => .ge

/-- An exact sum clamped to a signed word; a clamp raises IS (R134). -/
def clamp32 (x : Int) : Rounded :=
  if x < -(2 ^ 31) then (0x80000000, flagIS)
  else if 2 ^ 31 - 1 < x then (0x7FFFFFFF, flagIS)
  else (modPow 32 x, 0)

/-- Both halves of packed words, each computed on its own, flags merged (R140). -/
def halves (f : Nat → Nat → Nat → Rounded) (a b d : Nat) : Rounded :=
  let lo := f (natBits a 15 0) (natBits b 15 0) (natBits d 15 0)
  let hi := f (natBits a 31 16) (natBits b 31 16) (natBits d 31 16)
  (lo.1 % 2 ^ 16 + 2 ^ 16 * (hi.1 % 2 ^ 16), lo.2 ||| hi.2)

/-- A value FPC accepts (R63). -/
def fpcOk (w : Word) : Bool := w.toNat < 2 ^ 12

end Sys2Proof.Machine
end

