-- ==== Sys2Proof/Machine/Control.lean ====
section
/-! DEFINITION. Transfers, loops, exits and yields, special registers, software traps and returns, the decision queue and QHOP (15 R311-R318, R323, 03 R70-R72, 17 R354, R355). -/

namespace Sys2Proof.Machine

/-- A lane word that acts on its own thread, given the word with its literal. -/
def laneEach (sh : Shape) (f : DWord → Env → Grove → Thread → Thread) (s : State) : Out :=
  match s.cur with
  | .lane gid _ w l =>
    match s.grove? gid with
    | none => .fault .noIssuer
    | some g =>
      let e := s.env g
      laneWord sh (fun gid tid s => s.modThread gid (some tid) (f (wordTval w l sh.len) e g)) s
  | _ => .fault .noIssuer

/-- A uniform word that acts on the front thread, given the word with its literal. -/
def uniEach (sh : Shape) (f : DWord → Env → Grove → Thread → Thread) (s : State) : Out :=
  match s.cur with
  | .front gid w l =>
    match s.grove? gid with
    | none => .fault .noIssuer
    | some g =>
      let e := s.env g
      uniWord sh (fun gid s => s.modThread gid none (f (wordTval w l sh.len) e g)) s
  | _ => .fault .noIssuer

/-- A trap of the word itself after the guard (R84). -/
def Thread.fail (cause detail : Nat) (tval : DWord) (t : Thread) : Thread := t.trap cause detail false tval

/-- A word that only ends its segment. -/
def endShape (h : Hdr) (needs : List Need) : Shape := wordShape h true 0 needs

/-- The target of a branch (R312): the offset is counted from the next word. -/
def Thread.target (t : Thread) (o : Fin 524288) : Word := t.wordPc + 1 + wordOfInt (sintOf 19 o.val)

/-- Push on the return stack, with a spill area of n words (R62, R312); none when both parts are full. -/
def Ctl.push (n : Nat) (link : Word) (c : Ctl) : Option Ctl :=
  if c.hw.length < 8 then some { c with hw := link :: c.hw }
  else if c.spill.length < n then some { c with hw := link :: c.hw.take 7, spill := c.hw.getD 7 0 :: c.spill }
  else none

/-- Pop from the return stack, refilled from the spill area when its hardware part is empty (R62, R312). -/
def Ctl.pop (c : Ctl) : Option (Word × Ctl) :=
  match c.hw, c.spill with
  | x :: r, _ => some (x, { c with hw := r })
  | [], x :: r => some (x, { c with spill := r })
  | [], [] => none

/-- The control state of the open segment, or the thread's own. -/
def Thread.ctlNow (t : Thread) : Ctl := t.now

/-- CALL: push the link, then go (R312). -/
def Thread.call (n : Nat) (target : Word) (t : Thread) : Thread :=
  match t.ctlNow.push n (t.wordPc + 1) with
  | some c => (t.setCtl fun _ => c).jump target
  | none => t.fail 0x0C 0 0

/-- RET: pop the link and go there (R312). -/
def Thread.ret (t : Thread) : Thread :=
  match t.ctlNow.pop with
  | some (x, c) => (t.setCtl fun _ => c).jump x
  | none => t.fail 0x0B 0 0

/-- NOP (R311). -/
def execNop (h : Hdr) (s : State) : Out := laneEach (wordShape h false 0 []) (fun _ _ _ t => t) s
/-- BRA (R312). -/
def execBra (h : Hdr) (o : Fin 524288) (s : State) : Out := laneEach (endShape h []) (fun _ _ _ t => t.jump (t.target o)) s
/-- BRX (R312). -/
def execBrx (h : Hdr) (b : Fin 64) (s : State) : Out := laneEach (endShape h (v1 b)) (fun _ _ _ t => t.jump (t.reg b.val)) s
/-- CALL (R312). -/
def execCall (h : Hdr) (o : Fin 524288) (s : State) : Out :=
  laneEach (endShape h []) (fun _ _ g t => t.call g.desc.callstk (t.target o)) s
/-- CALLX (R312). -/
def execCallx (h : Hdr) (b : Fin 64) (s : State) : Out :=
  laneEach (endShape h (v1 b)) (fun _ _ g t => t.call g.desc.callstk (t.reg b.val)) s
/-- RET (R312). -/
def execRet (h : Hdr) (s : State) : Out := laneEach (endShape h []) (fun _ _ _ t => t.ret) s
/-- SNOP (R311). -/
def execSnop (h : Hdr) (s : State) : Out := uniEach (wordShape h false 0 []) (fun _ _ _ t => t) s
/-- SBRA (R312). -/
def execSbra (h : Hdr) (o : Fin 524288) (s : State) : Out := uniEach (endShape h []) (fun _ _ _ t => t.jump (t.target o)) s
/-- SBRX (R312). -/
def execSbrx (h : Hdr) (b : Fin 32) (s : State) : Out := uniEach (endShape h []) (fun _ _ _ t => t.jump (t.reg b.val)) s
/-- SCALL (R312). -/
def execScall (h : Hdr) (o : Fin 524288) (s : State) : Out :=
  uniEach (endShape h []) (fun _ _ g t => t.call g.desc.callstk (t.target o)) s
/-- SRET (R312). -/
def execSret (h : Hdr) (s : State) : Out := uniEach (endShape h []) (fun _ _ _ t => t.ret) s

/-- A loop word (R314): level, LEN, and the count. -/
def Thread.loop (level len : Nat) (n : Word) (t : Thread) : Thread :=
  let c := t.ctlNow
  if c.frames.length = 3 then t.fail 0x14 1 0
  else if level ≠ c.frames.length then t.fail 0x14 3 0
  else
    let pc := t.wordPc
    let lc := tabSet 0 c.lc level n
    if n = 0 then t.setCtl fun c => { c with lc := lc, pc := pc + 1 + BitVec.ofNat 32 len }
    else t.setCtl fun c => { c with lc := lc, frames := ⟨level, pc + 1, pc + BitVec.ofNat 32 len⟩ :: c.frames }

/-- LBRK and SLBRK (R314). -/
def Thread.loopBreak (t : Thread) : Thread :=
  match t.ctlNow.frames with
  | [] => t.fail 0x14 2 0
  | f :: r => t.setCtl fun c => { c with frames := r, pc := f.last + 1 }

/-- LOOP (R314). -/
def execLoop (h : Hdr) (l : Fin 3) (n : Fin 256) (b : Fin 64) (s : State) : Out :=
  laneEach (endShape h (v1 b)) (fun _ _ _ t => t.loop l.val (n.val + 1) (t.reg b.val)) s
/-- LOOPI (R314). -/
def execLoopi (h : Hdr) (l : Fin 3) (n : Fin 256) (c : Fin 512) (s : State) : Out :=
  laneEach (endShape h []) (fun _ _ _ t => t.loop l.val (n.val + 1) (w32 c.val)) s
/-- LBRK (R314). -/
def execLbrk (h : Hdr) (s : State) : Out := laneEach (endShape h []) (fun _ _ _ t => t.loopBreak) s
/-- SLOOP (R314). -/
def execSloop (h : Hdr) (l : Fin 3) (n : Fin 256) (b : Fin 32) (s : State) : Out :=
  uniEach (endShape h []) (fun _ _ _ t => t.loop l.val (n.val + 1) (t.reg b.val)) s
/-- SLOOPI (R314). -/
def execSloopi (h : Hdr) (l : Fin 3) (n : Fin 256) (c : Fin 512) (s : State) : Out :=
  uniEach (endShape h []) (fun _ _ _ t => t.loop l.val (n.val + 1) (w32 c.val)) s
/-- SLBRK (R314). -/
def execSlbrk (h : Hdr) (s : State) : Out := uniEach (endShape h []) (fun _ _ _ t => t.loopBreak) s

/-- EXIT (R316): with a transaction open it aborts with UNSUPPORTED. -/
def execExit (h : Hdr) (s : State) : Out :=
  laneEach (endShape h [])
    (fun _ _ _ t => if t.txn.isOpen then t.abortTxn 3 else t.modSeg fun g => { g with fin := .exits }) s
/-- YIELD (R316). -/
def execYield (h : Hdr) (s : State) : Out := laneEach (endShape h []) (fun _ _ _ t => t) s
/-- SYIELD (R316). -/
def execSyield (h : Hdr) (s : State) : Out := uniEach (endShape h []) (fun _ _ _ t => { t with yielded := true }) s
/-- SEXIT (R316): it waits until the MSQ is idle. -/
def execSexit (h : Hdr) (s : State) : Out :=
  uniIssue (endShape h []) false (fun _ g => g.msq.isSome)
    (fun gid s => s.modThread gid none fun t => t.modSeg fun g => { g with fin := .exits }) s

/-- TRACE or BEAMGO work of a grove is outstanding in a BTE (R42). -/
def State.bteBusy (s : State) (gid : Nat) : Bool := s.rays.any (fun r => r.gid == gid) || s.beams.any (fun b => b.gid == gid)

/-- A seed of a grove remains in a seedbed (R49). -/
def State.hasSeeds (s : State) (gid : Nat) : Bool := s.cores.any fun (e : Nat × Core) => e.2.seeds.any fun x => x.gid == gid

/-- Every lane thread of a grove has exited, or its lane is empty (R316). -/
def Grove.strandsDone (g : Grove) : Bool := g.lanes.all fun t => t.life == .exited || t.life == .empty

/-- SWAITS (R316). -/
def execSwaits (h : Hdr) (s : State) : Out :=
  uniIssue (endShape h []) false
    (fun s g => g.msq.isSome || !g.strandsDone || s.hasSeeds g.id || s.bteBusy g.id) (fun _ s => s) s

/-- TXST (R278). -/
def Txn.reg (x : Txn) : Nat := b2n x.isOpen + 2 * b2n x.serial + 4 * x.cause + 32 * x.nconf + 512 * x.code

/-- A special register as a word of the open segment reads it: the value at the segment's start (R70-R72); none for a register of the other stream. -/
def Thread.special (g : Grove) (t : Thread) (n : Nat) : Option Word :=
  let started := (t.seg.bind fun x => x.start.lookup n).getD 0
  let lane := fun w : Word => if t.front then none else some w
  match n with
  | 0x00 => some (w32 t.fpc)
  | 0x01 => some (w32 t.flg)
  | 0x02 => lane (lowWord t.ctl.mm)
  | 0x03 => lane (highWord t.ctl.mm)
  | 0x04 => some t.tpc
  | 0x05 => some t.tcause
  | 0x06 => lane (lowWord t.tmask)
  | 0x07 => lane (highWord t.tmask)
  | 0x08 => some (lowWord t.tval)
  | 0x09 => some (highWord t.tval)
  | 0x0A => some (tabGet 0 t.ctl.lc 0)
  | 0x0B => some (tabGet 0 t.ctl.lc 1)
  | 0x0C => some (tabGet 0 t.ctl.lc 2)
  | 0x0D => some (w32 (t.ctl.hw.length + 16 * t.ctl.spill.length))
  | 0x0E => some (w32 (t.ctl.frames.length + 4 * b2n t.th))
  | 0x0F => some (w32 g.slot)
  | 0x10 => some (w32 g.ltag)
  | 0x11 => some (w32 g.ctx)
  | 0x12 => some started
  | 0x13 => some started
  | 0x14 => lane (w32 t.txn.reg)
  | _ => if t.front then some started else none

/-- A value a special register takes when written, none where the write traps (R63, R64, R70). -/
def specialWrite (n : Nat) (v : Word) : Option Word :=
  match n with
  | 0x00 => if fpcOk v then some v else none
  | 0x01 => some (w32 (v.toNat % 64))
  | 0x04 => some v
  | _ => none

/-- GETSR and SGETSR (R71): the old value, and the exchange. -/
def Thread.getsr (g : Grove) (n d : Nat) (src : Option Nat) (tval : DWord) (t : Thread) : Thread :=
  match t.special g n, src with
  | none, _ => t.fail 0x02 0 tval
  | some old, none => t.put false (wr d old)
  | some old, some b =>
    match specialWrite n (t.reg b) with
    | none => t.fail 0x02 0 tval
    | some v => (t.modSeg fun x => { x with writes := ⟨x.words - 1, n, v⟩ :: x.writes }).put false (wr d old)

/-- GETSR (R71). -/
def execGetsr (h : Hdr) (d : Fin 64) (r : Fin 23) (w : Option (Fin 64)) (s : State) : Out :=
  laneEach (wordShape h false 1 (v1 d ++ (w.map v1).getD []))
    (fun tv _ g t => t.getsr g r.val d.val (w.map Fin.val) tv) s
/-- SGETSR (R71). -/
def execSgetsr (h : Hdr) (d : Fin 32) (r : Fin 23) (w : Option (Fin 32)) (s : State) : Out :=
  uniEach (wordShape h false 1 []) (fun tv _ g t => t.getsr g r.val d.val (w.map Fin.val) tv) s

/-- TRAP (R354). -/
def execTrap (h : Hdr) (c : Fin 65536) (s : State) : Out := laneEach (endShape h []) (fun _ _ _ t => t.fail 0x15 c.val 0) s
/-- BPT (R354). -/
def execBpt (h : Hdr) (c : Fin 65536) (s : State) : Out := laneEach (endShape h []) (fun _ _ _ t => t.fail 0x16 c.val 0) s
/-- STRAP (R354). -/
def execStrap (h : Hdr) (c : Fin 65536) (s : State) : Out := uniEach (endShape h []) (fun _ _ _ t => t.fail 0x15 c.val 0) s
/-- SBPT (R354). -/
def execSbpt (h : Hdr) (c : Fin 65536) (s : State) : Out := uniEach (endShape h []) (fun _ _ _ t => t.fail 0x16 c.val 0) s

/-- ERET in a thread (R355). -/
def Thread.eret (tval : DWord) (t : Thread) : Thread :=
  if t.th then t.modSeg fun g => { g with fin := .erets } else t.fail 0x02 0 tval

/-- ERET of a lane thread (R355). -/
def execEretLane (h : Hdr) (s : State) : Out := laneEach (endShape h []) (fun tv _ _ t => t.eret tv) s
/-- ERET of the front thread (R355). -/
def execEret (h : Hdr) (s : State) : Out := uniEach (endShape h []) (fun tv _ _ t => t.eret tv) s

/-- DQPOP in a thread (R37, R323). -/
def Thread.dqPop (g : Grove) (d : Nat) (t : Thread) : Thread :=
  if t.seedling then t.fail 0x0F 2 0 else (g.dqTake d t).getD { t with wait := .dqpop d }

/-- DQPOP (R323). -/
def execDqpop (h : Hdr) (d : Fin 64) (s : State) : Out :=
  laneIssue (wordShape h false 5 (vGroup d 4)) standHeld
    (fun gid tid s => s.modGrove gid fun g => g.modThread (some tid) (Thread.dqPop g d.val)) s

/-- DQPUSH (R323): it waits at issue while 64 records are unfreed. -/
def execDqpush (h : Hdr) (a : Fin 32) (s : State) : Out :=
  uniIssue (wordShape h false 0 (sGroup a 4)) true (fun _ g => !g.front.checked || !g.dqClosed && 64 ≤ g.unfreed)
    (fun gid s => s.modGrove gid fun g =>
      if g.dqClosed then { g with front := g.front.fail 0x0F 1 0 }
      else
        let rec_ := (List.range 4).map fun i => g.front.reg (a.val + i)
        ({ g with dq := g.dq ++ [(g.dqNext, rec_)], dqNext := g.dqNext + 1 } : Grove).dqWake) s

/-- DQCLOSE (R37). -/
def execDqclose (h : Hdr) (s : State) : Out :=
  uniIssue (wordShape h false 0 []) false (fun _ g => !g.front.checked)
    (fun gid s => s.modGrove gid fun g => ({ g with dqClosed := true } : Grove).dqWake) s

/-- Where an operand of QHOP leads: the hub, a die, or a peer with its device and hops (R56, R318). -/
inductive HopEnd where
  | hub | die (d : Nat) | peer (dev hops : Nat)
  deriving DecidableEq, Repr

/-- The end an address names, none where QHOP traps ADDRESS_HOME (R318). -/
def State.hopEnd (s : State) (ctx va : Nat) : Option HopEnd :=
  match s.homeOf ctx va with
  | .phys h => some (if h < 2 then .die h else .hub)
  | .peer e => some (.peer (natBits e 15 0) (natBits e 29 22))
  | .bad => none

/-- The hop distance of two ends (R56). -/
def hops : HopEnd → HopEnd → Nat
  | .peer a m, .peer b n => if a = b then 0 else 2 + m + n
  | .peer _ m, _ => 2 + m
  | _, .peer _ n => 2 + n
  | x, y => if x = y then 0 else 1

/-- QHOP (R318): fixed-latency; each operand is checked in turn. -/
def execQhop (h : Hdr) (d : Fin 64) (a : LaneA) (b : Fin 64) (s : State) : Out :=
  lanePure (aShape h a 0 (v1 d ++ needA64 a ++ v2 b)) true
    (fun e t =>
      let x := readA64 e t a
      let y := t.pair b.val
      let ctx := match s.cur with
        | .lane gid _ _ _ => ((s.grove? gid).map Grove.ctx).getD 0
        | _ => 0
      match s.hopEnd ctx x.toNat, s.hopEnd ctx y.toNat with
      | some p, some q => .of (wr d.val (w32 (hops p q)))
      | some _, none => ⟨[], 0, some (0x05, 0, y)⟩
      | none, _ => ⟨[], 0, some (0x05, 0, x)⟩) s

end Sys2Proof.Machine
end

