-- ==== Sys2Proof/Machine/Issue.lean ====
section
/-! DEFINITION. From a turn to the word it issues: readiness, stands, fetch and decode checks 1 to 7 (02 R31-R35, 04 R82-R84, 14 R299), and the passing of time (01 R19, R20, 18 R382). -/

namespace Sys2Proof.Machine

/-- What a turn comes to: a state in which no instruction runs, or an instruction to run. -/
inductive IssueRes where
  | idle (s : State) | run (i : Instr) (s : State)

/-- The threads of a grove on a core may issue: the context is enabled, the core has not reported it halted, and the die's clock runs (R308, R329, R383). -/
def State.mayRun (s : State) (g : Grove) (core : Nat) : Bool :=
  s.ctxEnabled g.ctx && (g.realtime || !(s.ctx g.ctx).reported.contains core) && s.clocked (dieOfCore core)

/-- The thread has a next word and waits for nothing (R299). -/
def Thread.ready (t : Thread) : Bool :=
  t.life == .run && !t.waiting && (match t.seg with
    | some g => g.fin == .running
    | none => true)

/-- The home lane of a thread (R32). -/
def Thread.homeLane (t : Thread) : Nat :=
  if t.width = 64 then t.lane % 32 else if t.width = 16 then t.lane + 16 * (t.strand % 2) else t.lane

/-- The threads of a list in ascending TID that one stand takes: distinct home lanes, at most 32 (R31). -/
def takeStand : List Nat → Nat → List Thread → List Nat
  | _, 0, _ => []
  | _, _, [] => []
  | used, n + 1, t :: r =>
    if used.contains t.homeLane then takeStand used (n + 1) r
    else t.tid :: takeStand (t.homeLane :: used) n r

/-- The stand that issues at a thread's turn: a new one from its PC group, or the one it is in, whose members stay its members until their segments end; while a wait holds some of them the others issue as a part of their own (R31, R33, R149, log 23). The state and the number of the stand or part. -/
def State.formStand (s : State) (g : Grove) (t : Thread) : State × Nat :=
  let id := s.nextId
  let give := fun (first : Bool) (tids : List Nat) =>
    (({ s with nextId := id + 1 }).modGrove g.id fun g =>
      g.modLanes (fun u => tids.contains u.tid) fun u => { u with team := if first then id else u.team, stand := id }, id)
  if t.stand = 0 then
    give true (takeStand [] 32 (g.lanes.filter fun u => u.ready && u.stand == 0 && u.core == t.core && u.now.pc == t.now.pc))
  else
    let mine := g.lanes.filter (Thread.issuing t.stand)
    if mine.any Thread.waiting then give false ((mine.filter fun u => !u.waiting).map Thread.tid) else (s, t.stand)

/-- The core cycle of a core (R382). -/
def State.cycleNow (s : State) (core : Nat) : Nat := tabGet 0 s.hub.cyc (dieOfCore core)

/-- The ready lane threads of a core that have not issued in this cycle, with their groves (R299). -/
def State.readyOn (s : State) (core : Nat) : List (Grove × Thread) :=
  s.groves.flatMap fun g =>
    if s.mayRun g core then
      (g.lanes.filter fun t => t.core == core && t.ready && t.issuedAt != s.cycleNow core + 1).map fun t => (g, t)
    else []

/-- Two ready threads belong to one candidate: a formed stand, or a PC group (R299). -/
def sameCandidate (x y : Grove × Thread) : Bool :=
  x.1.id == y.1.id && x.2.stand == y.2.stand && (x.2.stand != 0 || x.2.now.pc == y.2.now.pc)

/-- A ready thread comes before another: by wait age, then the lower slot, then the lower PC (R299). -/
def issuesBefore (x y : Grove × Thread) : Bool :=
  decide (x.2.since < y.2.since) || (x.2.since == y.2.since &&
    (decide (x.1.slot < y.1.slot) || (x.1.slot == y.1.slot && decide (x.2.now.pc.toNat < y.2.now.pc.toNat))))

/-- It is a thread's candidate that the core issues next (R299): a PC group whose stands the cycle is forming goes on until it is used up, and else the candidate of the oldest ready thread; at most 8 issues in a core cycle. -/
def State.laneTurn (s : State) (g : Grove) (t : Thread) : Bool :=
  let c := s.core t.core
  let this := c.laneAt == s.cycleNow t.core + 1
  let l := s.readyOn t.core
  let open' := fun (x : Grove × Thread) => this && x.2.stand == 0 && c.group == some (x.1.id, x.2.now.pc)
  (!this || decide (c.laneCount < 8)) &&
    (if l.any open' then open' (g, t)
    else (l.filter (sameCandidate (g, t))).any fun x => l.all fun y => !issuesBefore y x)

/-- A core has issued a lane word for a candidate (R299). -/
def State.noteLane (s : State) (core gid : Nat) (t : Thread) : State :=
  let now := s.cycleNow core + 1
  s.modCore core fun c =>
    { c with
      laneAt := now
      laneCount := if c.laneAt == now then c.laneCount + 1 else 1
      group := if t.stand = 0 then some (gid, t.now.pc) else if c.laneAt == now then c.group else none }

/-- The global address of a word of a kernel image (R82). -/
def fetchAddr (image : Nat) (pc : Word) : Nat := (image + 4 * pc.toNat) % 2 ^ 64

/-- A word fetched from a kernel image, or the refusal (R82, R353). -/
def State.fetch (s : State) (ctx core image : Nat) (pc : Word) : Got Word :=
  match s.readVa ctx .fetch (some core) (fetchAddr image pc) 4 with
  | .ok bs => .ok (BitVec.ofNat 32 (leNat bs))
  | .refused c d => .refused c d
  | .wait s => .wait s

/-- What fetch and the decode checks 1 to 7 make of the words at a PC in a stream: an instruction with its words, the trap (R82, R84) with cause, DETAIL, whether decode raised it and TVAL, or a wait for the words. -/
inductive Fetched where
  | instr (i : Instr) (word lit : Word)
  | trap (cause detail : Nat) (decode : Bool) (tval : DWord)
  | wait (s : State)

/-- Fetch of a word, and of its literal when it takes one, and decode (R82, R84). -/
noncomputable def State.fetchInstr (s : State) (front : Bool) (ctx core image : Nat) (pc : Word) : Fetched :=
  match s.fetch ctx core image pc with
  | .refused c d => .trap c d false (BitVec.ofNat 64 (fetchAddr image pc))
  | .wait s => .wait s
  | .ok w =>
    if frontWord w != front then .trap 0x01 1 true (wordTval w 0 1)
    else if takesLiteral w then
      match s.fetch ctx core image (pc + 1) with
      | .refused c d => .trap c d false (BitVec.ofNat 64 (fetchAddr image (pc + 1)))
      | .wait s => .wait s
      | .ok l =>
        match decode w l with
        | .ok i => .instr i w l
        | .error d => .trap 0x01 d true (wordTval w l 2)
    else
      match decode w 0 with
      | .ok i => .instr i w 0
      | .error d => .trap 0x01 d true (wordTval w 0 1)

/-- The translations a fetch walked through stay kept (R336). -/
def State.keepFetch (s : State) (ctx image : Nat) (pc : Word) : State :=
  (s.keepVa ctx (fetchAddr image pc)).keepVa ctx (fetchAddr image (pc + 1))

/-- A trap that fetch or decode raises in every thread of a stand (R84, R350). -/
def State.trapStand (s : State) (gid stand : Nat) (cause detail : Nat) (dec : Bool) (tval : DWord) : State :=
  match s.grove? gid with
  | none => s
  | some g =>
    let tids := (g.lanes.filter (Thread.issuing stand)).map Thread.tid
    let start := s.srStart g
    let team := ((g.lanes.find? fun t => tids.contains t.tid).map Thread.team).getD 0
    (s.modGrove gid fun g => g.modLanes (fun t => tids.contains t.tid) fun t =>
      ((t.openSeg start).advance 1).trap cause detail dec tval).commitStand gid team

/-- The same in the front thread. -/
def State.trapFront (s : State) (gid : Nat) (cause detail : Nat) (dec : Bool) (tval : DWord) : State :=
  match s.grove? gid with
  | none => s
  | some g =>
    let start := s.srStart g
    (s.modThread gid none fun t => ((t.openSeg start).advance 1).trap cause detail dec tval).commitFront gid

/-- The turn of a lane thread's PC group or stand, when it is the core's next (R31, R299). -/
noncomputable def State.issueLane (s : State) (gid tid : Nat) : IssueRes :=
  match s.grove? gid, s.thread? gid (some tid) with
  | some g, some t =>
    if t.ready && s.mayRun g t.core && s.laneTurn g t then
      let pc := t.now.pc
      match s.fetchInstr false g.ctx t.core g.desc.image pc with
      | .wait s => .idle s
      | r =>
        let f := s.formStand g t
        let s := ({ f.1 with nextId := f.1.nextId + 1 } : State).noteLane t.core gid t
        let now := s.cycleNow t.core
        let s := s.modGrove gid fun g => g.modLanes (fun u => u.stand == f.2) fun u =>
          { u with age := s.nextId, since := now, issuedAt := now + 1 }
        let s := s.keepFetch g.ctx g.desc.image pc
        match r with
        | .trap c d dec v => .idle (s.trapStand gid f.2 c d dec v)
        | .instr i w l => .run i { s with cur := .lane gid f.2 w l }
        | .wait s => .idle s
    else .idle s
  | _, _ => .idle s

/-- The front thread of a grove could issue on its core: it is ready, and no pending trap comes before its next word (R173, R299). -/
def State.frontReady (s : State) (g : Grove) : Bool := g.front.ready && s.mayRun g g.core && (g.front.th || g.pending.isEmpty)

/-- The front thread gives way: it yielded, and another ready front thread of its core has not been served since (R316). -/
def State.givesWay (s : State) (g : Grove) : Bool :=
  g.front.yielded && s.groves.any fun o => o.id != g.id && o.core == g.core && decide (o.front.age < g.front.age) && s.frontReady o

/-- The place of a slot in the order of service after the last one served (R300). -/
def slotOrder (last slot : Nat) : Nat := (slot + 3 - last % 4) % 4

/-- It is the front thread's turn in the uniform pipe (R300): the first ready one in ascending slot order after the last served, one word a core cycle. -/
def State.frontTurn (s : State) (g : Grove) : Bool :=
  let c := s.core g.core
  c.uniAt != s.cycleNow g.core + 1 && !s.givesWay g &&
    s.groves.all fun o => !(o.core == g.core && s.frontReady o && !s.givesWay o && decide (slotOrder c.lastFront o.slot < slotOrder c.lastFront g.slot))

/-- The turn of a front thread; a pending trap that can be delivered comes before its next word (R173, R300). -/
noncomputable def State.issueFront (s : State) (gid : Nat) : IssueRes :=
  match s.grove? gid with
  | some g =>
    let t := g.front
    if s.frontReady g && s.frontTurn g then
      let pc := t.now.pc
      match s.fetchInstr true g.ctx g.core g.desc.image pc with
      | .wait s => .idle s
      | r =>
        let s := ({ s with nextId := s.nextId + 1 } : State).modCore g.core fun c =>
          { c with uniAt := s.cycleNow g.core + 1, lastFront := g.slot }
        let s := s.modThread gid none fun t => { t with age := s.nextId, yielded := false }
        let s := s.keepFetch g.ctx g.desc.image pc
        match r with
        | .trap c d dec v => .idle (s.trapFront gid c d dec v)
        | .instr i w l => .run i { s with cur := .front gid w l }
        | .wait s => .idle s
    else .idle s
  | none => .idle s

/-- The running frequency of a die in MHz (R382). -/
def State.freqMhz (s : State) (die : Nat) : Nat := 800 + 25 * tabGet 48 s.hub.freqCur die

/-- RATIO: a quotient rounded to nearest, ties to even (R382). -/
def ratioOf (mhz : Nat) : Nat :=
  let n := 2000 * 65536
  let q := n / mhz
  let r := n % mhz
  if 2 * r > mhz ∨ (2 * r = mhz ∧ q % 2 = 1) then q + 1 else q

/-- CYC and NCYC of a die after n ticks: they stand still while it relocks (R382, R383). The phase counts thousandths of a cycle. -/
def State.cycle (s : State) (n die : Nat) : State :=
  if s.clocked die then
    let f := s.freqMhz die
    let p := tabGet 0 s.hub.cycPhase die + n * f
    let k := p / 1000
    { s with hub := { s.hub with
        cycPhase := tabSet 0 s.hub.cycPhase die (p % 1000)
        cyc := tabSet 0 s.hub.cyc die ((tabGet 0 s.hub.cyc die + k) % 2 ^ 64)
        ncyc := tabSet 0 s.hub.ncyc die ((tabGet 0 s.hub.ncyc die + k * ratioOf f) % 2 ^ 64) } }
  else s

/-- The wait age of a lane thread that is not ready counts from now at the earliest (R299). -/
def State.stampWaits (s : State) : State :=
  { s with groves := s.groves.map fun g =>
      g.modLanes (fun t => !(t.ready && s.mayRun g t.core)) fun t => { t with since := s.cycleNow t.core } }

/-- The acknowledgements of stores of peers whose VT has come leave for the peers, as messages of kind 11 (R263). -/
def State.sendAcks (s : State) : State :=
  (s.acksDue.filter fun e => e.2 ≤ s.gt).foldl (fun s e => s.emit 11 e.1 e.2 []) { s with acksDue := s.acksDue.filter fun e => s.gt < e.2 }

/-- n ticks of global time (R20): the dies' cycle counters run, stores whose visibility time has come are visible (R245), and held stores of the device's units are tried again. -/
def State.tick (s : State) (n : Nat) : State :=
  (((({ s with gt := s.gt + n } : State).cycle n 0).cycle n 1)).stampWaits.settleStores.sendAcks.retryUnits

end Sys2Proof.Machine
end

