-- ==== Sys2Proof/Machine/CrossLane.lean ====
section
/-! DEFINITION. The cross-lane words: participants and gatherings, what each contributor receives, and MSET (06 R149-R159). -/

namespace Sys2Proof.Machine

/-- The thread is there and has not exited. -/
def Thread.alive (t : Thread) : Bool := t.life == .run || t.life == .parked

/-- The participants of a thread at a cross-lane word (R149). -/
def Grove.participants (g : Grove) (t : Thread) : List Thread :=
  g.lanes.filter fun u => u.strand == t.strand && u.alive && natBit t.ctl.mm.toNat u.lane

/-- The thread waits at a cross-lane word: the word and whether its guard is true. -/
def Thread.gathering (t : Thread) : Option (Instr × Bool) :=
  match t.wait with
  | .gather i on _ => some (i, on)
  | _ => none

/-- The gathering a waiting thread belongs to, if one has formed (R149). -/
def Grove.gatheringOf (g : Grove) (t : Thread) : Option (List Thread) :=
  let p := g.participants t
  let same := fun (u : Thread) =>
    u.gathering.isSome && u.wordPc == t.wordPc && (g.participants u).map Thread.tid == p.map Thread.tid
  if t.gathering.isSome && p.all same then some p else none

/-- A cross-lane word: every thread of the stand, its guard true or false, waits there (R149, R150). -/
def crossWord (h : Hdr) (ends : Bool) (nvar : Nat) (needs : List Need) (i : Instr) (s : State) : Out :=
  laneIssue (wordShape { h with g := 0 } ends nvar needs) standHeld
    (fun gid tid s => s.modThread gid (some tid) fun t => { t with wait := .gather i (t.guard h) s.gt }) s

/-- FPC's environment of a thread. -/
def Thread.fenv (t : Thread) : FEnv := FEnv.ofFpc t.fpc

/-- The source register of a shuffle as a number: C (R153). -/
def shufC (t : Thread) : ShufSrc → Nat
  | .imm c => c.val
  | .reg c => (t.reg c.val).toNat % 64

/-- What a shuffle delivers from a source lane: that contributor's B, or the thread's own (R153). -/
def shuffle (cs : List Thread) (t : Thread) (lane : Option Nat) (b : Nat) : Word :=
  match lane.bind fun l => cs.find? fun u => u.lane == l with
  | some u => u.reg b
  | none => t.reg b

/-- The bit a contributor supplies to VOTE and BALLOT (R154). -/
def voteBit (q : Fin 8) (n : Bool) (t : Thread) : Bool := t.predSrc q.val != n

/-- All of a list are equal. -/
def allEqual : List Bool → Bool
  | [] => true
  | x :: r => r.all fun y => y == x

/-- An integer function of SRED on unsigned codes of 32 bits, or 64 for ADD64, with its identity (R155). -/
def redInt (f : RedFn) : (Nat → Nat → Nat) × Nat :=
  let pick := fun (lt : Nat → Nat → Bool) (x y : Nat) => if lt y x then y else x
  let less := fun x y : Nat => decide (sintOf 32 x < sintOf 32 y)
  match f with
  | .add => (fun x y => (x + y) % 2 ^ 32, 0)
  | .min => (pick less, 0x7FFFFFFF)
  | .max => (pick fun x y => less y x, 0x80000000)
  | .nmin => (pick fun x y => x < y, 0xFFFFFFFF)
  | .nmax => (pick fun x y => y < x, 0)
  | .and => (fun x y => x &&& y, 0xFFFFFFFF)
  | .or => (fun x y => x ||| y, 0)
  | .xor => (fun x y => x ^^^ y, 0)
  | _ => (fun x y => (x + y) % 2 ^ 64, 0)

/-- FMIN or FMAX over contributors' codes, each already flushed by its own DAZ32 (R155, R156). -/
def redFminmax (v : FEnv) (isMax : Bool) (codes : List Nat) : Rounded :=
  let f := Fmt.fp32
  let fl := if codes.any fun c => (f.unpack c).isSig then flagNV else 0
  match codes.filter fun c => !(f.unpack c).isNaN with
  | [] => if codes.isEmpty then (if isMax then 0xFF800000 else 0x7F800000, 0) else nanResult v f (codes.map f.unpack) fl
  | c :: r => (r.foldl (fun x y => if isMax then (if fkey f x < fkey f y then y else x) else (if fkey f y < fkey f x then y else x)) c, fl)

/-- The reduction of B over a list of contributors, for a receiver (R155-R157); an empty range gives the identity. -/
def reduce (f : RedFn) (b : Nat) (cs : List Thread) (t : Thread) : Rounded :=
  match f with
  | .fsum =>
    let xs := cs.map fun u => u.fenv.read .fp32 (u.reg b).toNat
    if cs.isEmpty then (0, 0) else exactSum t.fenv .fp32 xs (xs.flatMap FVal.term)
  | .fmin => redFminmax t.fenv false (cs.map fun u => u.fenv.flush .fp32 (u.reg b).toNat)
  | .fmax => redFminmax t.fenv true (cs.map fun u => u.fenv.flush .fp32 (u.reg b).toNat)
  | .add64 => (cs.foldl (fun x u => (redInt f).1 x (u.pair b).toNat) (redInt f).2, 0)
  | _ => (cs.foldl (fun x u => (redInt f).1 x (u.reg b).toNat) (redInt f).2, 0)

/-- The registers a reduction writes. -/
def redOut (f : RedFn) (d : Nat) (r : Rounded) : WordOut :=
  ⟨if f = .add64 then wr64 d (BitVec.ofNat 64 r.1) else wr d (w32 r.1), r.2, none⟩

/-- Element k of width w of a thread's registers from a base (R158). -/
def matElem (w base k : Nat) (t : Thread) : Nat :=
  let per := 32 / w
  elemAt w (k % per) (t.reg (base + k / per)).toNat

/-- Row of D of CMMAB and of the float forms of CMMAQ, for a contributor (R159): f the element format. -/
def cmmaFloat (f : Fmt) (d a b : Nat) (cs : List Thread) (t : Thread) : WordOut :=
  let row := (List.range 16).map fun k => t.fenv.read f (matElem f.width a k t)
  let one := fun j : Nat =>
    let col := match cs.find? fun u => u.lane == t.lane / 16 * 16 + j with
      | some u => (List.range 16).map fun k => u.fenv.read f (matElem f.width b k u)
      | none => List.replicate 16 (f.unpack 0)
    let c := t.fenv.read .fp32 (t.reg (d + j)).toNat
    exactSum t.fenv .fp32 (row ++ col ++ [c]) (c.term ++ (row.zip col).flatMap fun p => prodTerm p.1 p.2)
  let rs := (List.range 16).map fun j => (j, one j)
  ⟨rs.map fun r => (.gpr (d + r.1), w32 r.2.1), rs.foldl (fun x r => x ||| r.2.2) 0, none⟩

/-- Row of D of CMMAQ.I8 (R159). -/
def cmmaInt (d a b : Nat) (cs : List Thread) (t : Thread) : WordOut :=
  let row := (List.range 16).map fun k => sintOf 8 (matElem 8 a k t)
  let one := fun j : Nat =>
    let col := match cs.find? fun u => u.lane == t.lane / 16 * 16 + j with
      | some u => (List.range 16).map fun k => sintOf 8 (matElem 8 b k u)
      | none => List.replicate 16 0
    wordOfInt ((t.reg (d + j)).toInt + ((row.zip col).map fun p => p.1 * p.2).sum)
  .of ((List.range 16).map fun j => (.gpr (d + j), one j))

/-- What a contributor receives from a completed gathering of contributors in lane order (R153-R159). -/
def crossResult (i : Instr) (cs : List Thread) (t : Thread) : WordOut :=
  match i with
  | .shfl _ d c b => .of (wr d.val (shuffle cs t (some (shufC t c % t.width)) b.val))
  | .shflx _ d c b => .of (wr d.val (shuffle cs t (some (t.lane ^^^ shufC t c % t.width)) b.val))
  | .shflu _ d c b => .of (wr d.val (shuffle cs t (if t.lane < shufC t c then none else some (t.lane - shufC t c)) b.val))
  | .shfld _ d c b => .of (wr d.val (shuffle cs t (if t.width ≤ t.lane + shufC t c then none else some (t.lane + shufC t c)) b.val))
  | .vote _ k q n f =>
    let vs := cs.map (voteBit q n)
    .of (wrP k.val (match f with
      | .all => vs.all id
      | .any => vs.any id
      | .eq => allEqual vs))
  | .ballot _ d q n =>
    .of (wr64 d.val (BitVec.ofNat 64 ((cs.filter (voteBit q n)).foldl (fun x u => x ||| 2 ^ u.lane) 0)))
  | .sred _ d f b => redOut f d.val (reduce f b.val cs t)
  | .sscan _ d f x b => redOut f d.val (reduce f b.val (cs.filter fun u => u.lane < t.lane || (!x && u.lane == t.lane)) t)
  | .cmmab _ e a b ty => cmmaFloat (match ty with
      | .bf16 => .bf16
      | .fp16 => .fp16) (16 * e.val) (4 * a.val) (4 * b.val) cs t
  | .cmmaq _ e a b ty =>
    match ty with
    | .fp8e4 => cmmaFloat .fp8e4 (16 * e.val) (4 * a.val) (4 * b.val) cs t
    | .fp8e5 => cmmaFloat .fp8e5 (16 * e.val) (4 * a.val) (4 * b.val) cs t
    | .i8 => cmmaInt (16 * e.val) (4 * a.val) (4 * b.val) cs t
  | _ => .of []

/-- Threads by ascending lane. -/
def byLane (ts : List Thread) : List Thread := (List.range 64).flatMap fun l => ts.filter fun t => t.lane == l

/-- A gathering completes: its contributors receive their results, and its members leave the word (R149, R150). -/
def Grove.gatherDone (g : Grove) (mem : List Thread) : Grove :=
  let cs := byLane (mem.filter fun t => (t.gathering.map Prod.snd).getD false)
  g.modLanes (fun t => mem.any fun u => u.tid == t.tid) fun t =>
    match t.gathering with
    | some (i, true) => { t.apply false (crossResult i cs t) with wait := .none }
    | _ => { t with wait := .none }

/-- A thread of a core belongs to a gathering that has formed and not yet delivered its results (R149, R150). -/
def Grove.gathered (g : Grove) (core : Nat) : Bool := g.lanes.any fun t => t.core == core && (g.gatheringOf t).isSome

/-- GATHERING_COMPLETE: the gathering of a thread completes, if it has formed (R149); not on a core that has reported halted (R150). -/
def execGatheringComplete (gid tid : Nat) (s : State) : Out :=
  .next (match s.grove? gid, s.thread? gid (some tid) with
    | some g, some t =>
      if !s.mayRun g t.core then s
      else match g.gatheringOf t with
        | some mem => s.modGrove gid fun g => g.gatherDone mem
        | none => s
    | _, _ => s)

/-- The V register a shuffle reads C from. -/
def shufNeed : ShufSrc → List Need
  | .imm _ => []
  | .reg c => v1 c

/-- SHFL (R153). -/
def execShfl (h : Hdr) (d : Fin 64) (c : ShufSrc) (b : Fin 64) (s : State) : Out :=
  crossWord h false 1 (v1 d ++ shufNeed c ++ v1 b) (.shfl h d c b) s
/-- SHFLX (R153). -/
def execShflx (h : Hdr) (d : Fin 64) (c : ShufSrc) (b : Fin 64) (s : State) : Out :=
  crossWord h false 1 (v1 d ++ shufNeed c ++ v1 b) (.shflx h d c b) s
/-- SHFLU (R153). -/
def execShflu (h : Hdr) (d : Fin 64) (c : ShufSrc) (b : Fin 64) (s : State) : Out :=
  crossWord h false 1 (v1 d ++ shufNeed c ++ v1 b) (.shflu h d c b) s
/-- SHFLD (R153). -/
def execShfld (h : Hdr) (d : Fin 64) (c : ShufSrc) (b : Fin 64) (s : State) : Out :=
  crossWord h false 1 (v1 d ++ shufNeed c ++ v1 b) (.shfld h d c b) s
/-- VOTE (R154). -/
def execVote (h : Hdr) (k q : Fin 8) (n : Bool) (f : VoteFn) (s : State) : Out := crossWord h false 1 [] (.vote h k q n f) s
/-- BALLOT (R154). -/
def execBallot (h : Hdr) (d : Fin 64) (q : Fin 8) (n : Bool) (s : State) : Out := crossWord h false 2 (v2 d) (.ballot h d q n) s

/-- What SRED and SSCAN name: pairs under ADD64 (R156). -/
def redNeeds (f : RedFn) (d b : Fin 64) : List Need := if f = .add64 then v2 d ++ v2 b else v1 d ++ v1 b

/-- SRED (R155). -/
def execSred (h : Hdr) (d : Fin 64) (f : RedFn) (b : Fin 64) (s : State) : Out :=
  crossWord h false (if f = .add64 then 2 else 1) (redNeeds f d b) (.sred h d f b) s
/-- SSCAN (R155). -/
def execSscan (h : Hdr) (d : Fin 64) (f : RedFn) (x : Bool) (b : Fin 64) (s : State) : Out :=
  crossWord h false (if f = .add64 then 2 else 1) (redNeeds f d b) (.sscan h d f x b) s
/-- CMMAB (R158). -/
def execCmmab (h : Hdr) (e : Fin 4) (a b : Fin 16) (t : CmmabTy) (s : State) : Out :=
  crossWord h false 16 [.v (16 * e.val) 16 16, .v (4 * a.val) 8 8, .v (4 * b.val) 8 8] (.cmmab h e a b t) s
/-- CMMAQ (R158). -/
def execCmmaq (h : Hdr) (e : Fin 4) (a b : Fin 16) (t : CmmaqTy) (s : State) : Out :=
  crossWord h false 16 [.v (16 * e.val) 16 16, .v (4 * a.val) 4 4, .v (4 * b.val) 4 4] (.cmmaq h e a b t) s
/-- SYNCM (R151). -/
def execSyncm (h : Hdr) (s : State) : Out := crossWord h true 0 [] (.syncm h) s

/-- The MM that R30 or R43 gives a thread (R151). -/
def Grove.defaultMm (g : Grove) (t : Thread) : DWord :=
  if t.seedling then
    BitVec.ofNat 64 ((g.lanes.filter fun u => u.strand == t.strand && u.life != .empty).foldl (fun x u => x ||| 2 ^ u.lane) 0)
  else BitVec.ofNat 64 (2 ^ t.width - 1)

/-- The new MM of MSET (R151). -/
def Grove.newMm (g : Grove) (m : MsetArg) (t : Thread) : DWord :=
  fixMm t.width t.lane (match m with
    | .pair b => t.pair b.val
    | .dflt => g.defaultMm t
    | .andPair b => t.ctl.mm &&& t.pair b.val)

/-- MSET (R151): MM changes at the segment's end. -/
def execMset (h : Hdr) (m : MsetArg) (s : State) : Out :=
  laneEach (endShape h (match m with
    | .pair b => v2 b
    | .dflt => []
    | .andPair b => v2 b))
    (fun _ _ g t => t.setCtl fun c => { c with mm := g.newMm m t }) s

end Sys2Proof.Machine
end

