-- ==== Sys2Proof/Machine/LaneInt.lean ====
section
/-! DEFINITION. Class A: the integer words of 06 R134-R136, one meaning for each, over shared integer operations. -/

namespace Sys2Proof.Machine

/-- SInt of a word (R134). -/
def si (x : Word) : Int := sintOf 32 x.toNat

/-- Bits [63:32] of an exact product. -/
def hiWord (x : Int) : Word := BitVec.ofNat 32 (modPow 64 x / 2 ^ 32)

/-- A shift count: bits [7:0] (R134). -/
def cnt (x : Word) : Nat := x.toNat % 256

/-- B shifted left; 0 from 32 up (R134). -/
def shlW (c b : Word) : Word := b <<< cnt c

/-- B shifted right logically (R134). -/
def shrW (c b : Word) : Word := b >>> cnt c

/-- B shifted right arithmetically (R134). -/
def sarW (c b : Word) : Word := b.sshiftRight (cnt c)

/-- Position and length of a bit field (R135). -/
def fieldOf (x : Word) : Nat × Nat :=
  let pos := x.toNat % 32
  (pos, min (natBits x.toNat 13 8) (32 - pos))

/-- BFX: the field of b that x names (R135). -/
def bfxW (x b : Word) : Word :=
  let p := fieldOf x
  w32 (b.toNat / 2 ^ p.1 % 2 ^ p.2)

/-- BFXS: the field, sign-extended (R135). -/
def bfxsW (x b : Word) : Word :=
  let p := fieldOf x
  let f := b.toNat / 2 ^ p.1 % 2 ^ p.2
  if p.2 = 0 then 0 else wordOfInt (sintOf p.2 f)

/-- BFI: the low bits of b inserted into d (R135). -/
def bfiW (x b d : Word) : Word :=
  let p := fieldOf x
  let m : Word := w32 ((2 ^ p.2 - 1) * 2 ^ p.1)
  (d &&& ~~~m) ||| ((b <<< p.1) &&& m)

/-- The number of 1 bits of a word. -/
def popcW (x : Word) : Word := w32 ((List.range 32).filter fun i => natBit x.toNat i).length

/-- Leading zero bits; 32 for 0. -/
def clzW (x : Word) : Word := if x = 0 then 32 else w32 (31 - Nat.log2 x.toNat)

/-- Trailing zero bits; 32 for 0. -/
def ctzW (x : Word) : Word := w32 (((List.range 32).find? fun i => natBit x.toNat i).getD 32)

/-- Bit i moved to bit 31 − i. -/
def brevW (x : Word) : Word := w32 ((List.range 32).foldl (fun a i => 2 * a + b2n (natBit x.toNat i)) 0)

/-- |SInt(A)| modulo 2^32. -/
def absW (x : Word) : Word := wordOfInt (si x).natAbs

/-- Byte i of a word. -/
def byteW (x : Word) (i : Nat) : Nat := elemAt 8 i x.toNat

/-- D plus the products of the four bytes, read signed or unsigned (R134). -/
def dot4 (signed : Bool) (a b d : Word) : Word :=
  let rd := fun (x : Nat) => if signed then sintOf 8 x else (x : Int)
  wordOfInt ((List.range 4).foldl (fun s i => s + rd (byteW a i) * rd (byteW b i)) (d.toNat : Int))

/-- PERMB (R136). -/
def permbW (a b : Word) : Word :=
  let byte := fun (i : Nat) =>
    let s := elemAt 4 i b.toNat
    let x := byteW a (s % 4)
    if natBit s 3 then 0 else if natBit s 2 then (if natBit x 7 then 255 else 0) else x
  w32 (byte 0 + 2 ^ 8 * byte 1 + 2 ^ 16 * byte 2 + 2 ^ 24 * byte 3)

/-- The scratchpad swizzle of R91 for code k. -/
def swizzle (k x : Nat) : Nat :=
  if k = 0 then x else setNatBits x 6 4 (Nat.xor (natBits x 6 4) (natBits x (k + 8) (k + 6)))

/-- PACK (R134). -/
def packW (a b : Word) : Word := w32 (a.toNat % 2 ^ 16 + 2 ^ 16 * (b.toNat % 2 ^ 16))

/-- IADD (R134). -/
def execIadd (h : Hdr) (d : Fin 64) (a : LaneA) (b : Fin 64) (s : State) : Out := laneBin h d a b (fun x y _ => x + y) s
/-- ISUB (R134). -/
def execIsub (h : Hdr) (d : Fin 64) (a : LaneA) (b : Fin 64) (s : State) : Out := laneBin h d a b (fun x y _ => x - y) s
/-- ISUBR (R134). -/
def execIsubr (h : Hdr) (d : Fin 64) (a : LaneA) (b : Fin 64) (s : State) : Out := laneBin h d a b (fun x y _ => y - x) s
/-- IMUL (R134). -/
def execImul (h : Hdr) (d : Fin 64) (a : LaneA) (b : Fin 64) (s : State) : Out := laneBin h d a b (fun x y _ => x * y) s
/-- IMULHI (R134). -/
def execImulhi (h : Hdr) (d : Fin 64) (a : LaneA) (b : Fin 64) (s : State) : Out :=
  laneBin h d a b (fun x y _ => hiWord (si x * si y)) s
/-- NMULHI (R134). -/
def execNmulhi (h : Hdr) (d : Fin 64) (a : LaneA) (b : Fin 64) (s : State) : Out :=
  laneBin h d a b (fun x y _ => hiWord ((x.toNat * y.toNat : Nat) : Int)) s
/-- IMAD (R134). -/
def execImad (h : Hdr) (d : Fin 64) (a : LaneA) (b : Fin 64) (s : State) : Out := laneBin h d a b (fun x y z => x * y + z) s
/-- IMIN (R134). -/
def execImin (h : Hdr) (d : Fin 64) (a : LaneA) (b : Fin 64) (s : State) : Out :=
  laneBin h d a b (fun x y _ => if si y < si x then y else x) s
/-- IMAX (R134). -/
def execImax (h : Hdr) (d : Fin 64) (a : LaneA) (b : Fin 64) (s : State) : Out :=
  laneBin h d a b (fun x y _ => if si x < si y then y else x) s
/-- NMIN (R134). -/
def execNmin (h : Hdr) (d : Fin 64) (a : LaneA) (b : Fin 64) (s : State) : Out :=
  laneBin h d a b (fun x y _ => if y < x then y else x) s
/-- NMAX (R134). -/
def execNmax (h : Hdr) (d : Fin 64) (a : LaneA) (b : Fin 64) (s : State) : Out :=
  laneBin h d a b (fun x y _ => if x < y then y else x) s
/-- IABS (R134). -/
def execIabs (h : Hdr) (d : Fin 64) (a : LaneA) (s : State) : Out := laneUn h d a absW s
/-- AND (R134). -/
def execAnd (h : Hdr) (d : Fin 64) (a : LaneA) (b : Fin 64) (s : State) : Out := laneBin h d a b (fun x y _ => x &&& y) s
/-- OR (R134). -/
def execOr (h : Hdr) (d : Fin 64) (a : LaneA) (b : Fin 64) (s : State) : Out := laneBin h d a b (fun x y _ => x ||| y) s
/-- XOR (R134). -/
def execXor (h : Hdr) (d : Fin 64) (a : LaneA) (b : Fin 64) (s : State) : Out := laneBin h d a b (fun x y _ => x ^^^ y) s
/-- ANDN (R134). -/
def execAndn (h : Hdr) (d : Fin 64) (a : LaneA) (b : Fin 64) (s : State) : Out := laneBin h d a b (fun x y _ => x &&& ~~~y) s
/-- SHL (R134). -/
def execShl (h : Hdr) (d : Fin 64) (a : LaneA) (b : Fin 64) (s : State) : Out := laneBin h d a b (fun x y _ => shlW x y) s
/-- SHR (R134). -/
def execShr (h : Hdr) (d : Fin 64) (a : LaneA) (b : Fin 64) (s : State) : Out := laneBin h d a b (fun x y _ => shrW x y) s
/-- SAR (R134). -/
def execSar (h : Hdr) (d : Fin 64) (a : LaneA) (b : Fin 64) (s : State) : Out := laneBin h d a b (fun x y _ => sarW x y) s
/-- ROTL (R134). -/
def execRotl (h : Hdr) (d : Fin 64) (a : LaneA) (b : Fin 64) (s : State) : Out :=
  laneBin h d a b (fun x y _ => y.rotateLeft (x.toNat % 32)) s
/-- BFX (R135). -/
def execBfx (h : Hdr) (d : Fin 64) (a : LaneA) (b : Fin 64) (s : State) : Out := laneBin h d a b (fun x y _ => bfxW x y) s
/-- BFXS (R135). -/
def execBfxs (h : Hdr) (d : Fin 64) (a : LaneA) (b : Fin 64) (s : State) : Out := laneBin h d a b (fun x y _ => bfxsW x y) s
/-- BFI (R135). -/
def execBfi (h : Hdr) (d : Fin 64) (a : LaneA) (b : Fin 64) (s : State) : Out := laneBin h d a b bfiW s
/-- POPC (R134). -/
def execPopc (h : Hdr) (d : Fin 64) (a : LaneA) (s : State) : Out := laneUn h d a popcW s
/-- CLZ (R134). -/
def execClz (h : Hdr) (d : Fin 64) (a : LaneA) (s : State) : Out := laneUn h d a clzW s
/-- CTZ (R134). -/
def execCtz (h : Hdr) (d : Fin 64) (a : LaneA) (s : State) : Out := laneUn h d a ctzW s
/-- BREV (R134). -/
def execBrev (h : Hdr) (d : Fin 64) (a : LaneA) (s : State) : Out := laneUn h d a brevW s
/-- IADD64 (R134). -/
def execIadd64 (h : Hdr) (d : Fin 64) (a : LaneA) (b : Fin 64) (s : State) : Out := laneBin64 h d a b (fun x y => x + y) s
/-- ISUB64 (R134). -/
def execIsub64 (h : Hdr) (d : Fin 64) (a : LaneA) (b : Fin 64) (s : State) : Out := laneBin64 h d a b (fun x y => x - y) s
/-- IMUL64 (R134). -/
def execImul64 (h : Hdr) (d : Fin 64) (a : LaneA) (b : Fin 64) (s : State) : Out := laneBin64 h d a b (fun x y => x * y) s
/-- SHL64 (R134). -/
def execShl64 (h : Hdr) (d : Fin 64) (a : LaneA) (b : Fin 64) (s : State) : Out := laneShift64 h d a b (fun x y => y <<< cnt x) s
/-- SHR64 (R134). -/
def execShr64 (h : Hdr) (d : Fin 64) (a : LaneA) (b : Fin 64) (s : State) : Out := laneShift64 h d a b (fun x y => y >>> cnt x) s
/-- ICMP (R134). -/
def execIcmp (h : Hdr) (k : Fin 8) (c : ICond) (a : LaneA) (b : Fin 64) (s : State) : Out :=
  lanePredI h k a b (fun x y => icond c (si x) (si y)) s
/-- NCMP (R134). -/
def execNcmp (h : Hdr) (k : Fin 8) (c : ICond) (a : LaneA) (b : Fin 64) (s : State) : Out :=
  lanePredI h k a b (fun x y => icond c x.toNat y.toNat) s
/-- MOV (R134). -/
def execMov (h : Hdr) (d : Fin 64) (a : LaneA) (s : State) : Out := laneUn h d a (fun x => x) s
/-- MOV64 (R134). -/
def execMov64 (h : Hdr) (d : Fin 64) (a : LaneA) (s : State) : Out :=
  lanePure (aShape h a 0 (v2 d ++ needA64 a)) true (fun e t => .of (wr64 d.val (readA64 e t a))) s
/-- IADDS (R134). -/
def execIadds (h : Hdr) (d : Fin 64) (a : LaneA) (b : Fin 64) (s : State) : Out :=
  laneBinF h d a b (fun _ x y _ => clamp32 (sintOf 32 x + sintOf 32 y)) s
/-- ISUBS (R134). -/
def execIsubs (h : Hdr) (d : Fin 64) (a : LaneA) (b : Fin 64) (s : State) : Out :=
  laneBinF h d a b (fun _ x y _ => clamp32 (sintOf 32 x - sintOf 32 y)) s
/-- DOT4I (R134). -/
def execDot4i (h : Hdr) (d : Fin 64) (a : LaneA) (b : Fin 64) (s : State) : Out := laneBin h d a b (dot4 true) s
/-- DOT4N (R134). -/
def execDot4n (h : Hdr) (d : Fin 64) (a : LaneA) (b : Fin 64) (s : State) : Out := laneBin h d a b (dot4 false) s
/-- PACK (R134). -/
def execPack (h : Hdr) (d : Fin 64) (a : LaneA) (b : Fin 64) (s : State) : Out := laneBin h d a b (fun x y _ => packW x y) s
/-- PERMB (R136). -/
def execPermb (h : Hdr) (d : Fin 64) (a : LaneA) (b : Fin 64) (s : State) : Out := laneBin h d a b (fun x y _ => permbW x y) s
/-- XSWZ (R136). -/
def execXswz (h : Hdr) (d : Fin 64) (a : LaneA) (b : Fin 64) (s : State) : Out :=
  laneBin h d a b (fun x y _ => w32 (swizzle (x.toNat % 8) y.toNat)) s

end Sys2Proof.Machine
end

