-- ==== Sys2Proof/Machine/Shake.lean ====
section
/-! DEFINITION. SHAKE256 (FIPS 202): the hash of boot measurements, log headers, VERIFY selection and digests (10 R223, 16 R346, 17 R369-R371). -/

namespace Sys2Proof.Machine

/-- A lane of the Keccak state, at x + 5·y. -/
def kLane (a : List DWord) (i : Nat) : DWord := a.getD i 0

/-- Rotation left by n. -/
def kRot (x : DWord) (n : Nat) : DWord := x.rotateLeft n

/-- The rotation of lane x + 5·y in ρ. -/
def kRho : List Nat :=
  [0, 1, 62, 28, 27, 36, 44, 6, 55, 20, 3, 10, 43, 25, 39, 41, 45, 15, 21, 8, 18, 2, 61, 56, 14]

/-- The round constants of ι. -/
def kIota : List DWord :=
  [0x0000000000000001, 0x0000000000008082, 0x800000000000808A, 0x8000000080008000, 0x000000000000808B, 0x0000000080000001,
   0x8000000080008081, 0x8000000000008009, 0x000000000000008A, 0x0000000000000088, 0x0000000080008009, 0x000000008000000A] ++
  [0x000000008000808B, 0x800000000000008B, 0x8000000000008089, 0x8000000000008003, 0x8000000000008002, 0x8000000000000080,
   0x000000000000800A, 0x800000008000000A, 0x8000000080008081, 0x8000000000008080, 0x0000000080000001, 0x8000000080008008]

/-- θ: each lane takes in the parities of two columns. -/
def kTheta (a : List DWord) : List DWord :=
  let c := (List.range 5).map fun x =>
    kLane a x ^^^ kLane a (x + 5) ^^^ kLane a (x + 10) ^^^ kLane a (x + 15) ^^^ kLane a (x + 20)
  (List.range 25).map fun i => kLane a i ^^^ c.getD ((i + 4) % 5) 0 ^^^ kRot (c.getD ((i + 1) % 5) 0) 1

/-- ρ and π: lane x + 5·y goes, rotated, to y + 5·((2x + 3y) mod 5); read here from the target. -/
def kRhoPi (a : List DWord) : List DWord :=
  (List.range 25).map fun j =>
    let y := j % 5
    let x := (j / 5 * 3 + y) % 5
    kRot (kLane a (x + 5 * y)) (kRho.getD (x + 5 * y) 0)

/-- χ: each lane is mixed with the two to its right. -/
def kChi (a : List DWord) : List DWord :=
  (List.range 25).map fun i =>
    let row := i / 5 * 5
    kLane a i ^^^ (~~~(kLane a (row + (i + 1) % 5)) &&& kLane a (row + (i + 2) % 5))

/-- One round. -/
def kRound (a : List DWord) (rc : DWord) : List DWord :=
  match kChi (kRhoPi (kTheta a)) with
  | [] => []
  | x :: r => (x ^^^ rc) :: r

/-- Keccak-f[1600]. -/
def keccakF (a : List DWord) : List DWord := kIota.foldl kRound a

/-- The 17 lanes of a 136-byte block. -/
def kBlock : Nat → List Byte → List DWord
  | 0, _ => []
  | n + 1, bs => BitVec.ofNat 64 (leNat (bs.take 8)) :: kBlock n (bs.drop 8)

/-- Absorbs whole blocks. -/
def kAbsorb : Nat → List Byte → List DWord → List DWord
  | 0, _, a => a
  | n + 1, bs, a =>
    let b := kBlock 17 (bs.take 136)
    kAbsorb n (bs.drop 136) (keccakF ((List.range 25).map fun i => kLane a i ^^^ b.getD i 0))

/-- The padded message: the SHAKE suffix, zeros, and the final bit. -/
def kPad (bs : List Byte) : List Byte :=
  let k := 136 - bs.length % 136
  if k = 1 then bs ++ [0x9F] else bs ++ (0x1F :: List.replicate (k - 2) 0) ++ [0x80]

/-- The first 136 bytes of SHAKE256 of a message. -/
def shake (bs : List Byte) : List Byte :=
  let m := kPad bs
  (kAbsorb (m.length / 136) m (List.replicate 25 0)).flatMap fun x => leBytes 8 x.toNat

/-- The first n bytes of SHAKE256 as an unsigned integer, little-endian; n is at most 64. -/
def shakeNat (n : Nat) (bs : List Byte) : Nat := leNat ((shake bs).take n)

end Sys2Proof.Machine
end

