-- ==== Sys2Proof/Machine/OrderLog.lean ====
section
/-! DEFINITION. The order log of LOGGED and REPLAY launches (10 R220-R224), and the shadow and digest of VERIFY groves (17 R370). -/

namespace Sys2Proof.Machine

/-- The grove tag (R221). -/
def Grove.tag (g : Grove) : Nat := if g.node then g.nodeTag else g.linear

/-- The launch runs FREE; the re-run of a VERIFY grove is never logged (R50, R369). -/
def Grove.unlogged (g : Grove) : Bool := g.desc.mode == 0 || g.verify == 2

/-- The grove consumes a log (R224). -/
def Grove.replays (g : Grove) : Bool := g.desc.mode == 2 && g.verify != 2

/-- A log record as a 128-bit number (R222). -/
def logRec (kind arg gtag thr aux : Nat) : Nat :=
  packBits [(12, aux), (12, thr), (40, gtag % 2 ^ 40), (60, arg % 2 ^ 60), (4, kind)]

/-- KIND of a record. -/
def recKind (r : Nat) : Nat := natBits r 3 0
/-- ARG of a record, at its own bit numbers less 4. -/
def recArg (r : Nat) : Nat := natBits r 63 4
/-- GTAG and THR of a record. -/
def recActor (r : Nat) : Nat := natBits r 115 64

/-- ARG of an ATOMIC record for a global address (R222); an 8-byte atomic counts at its first word (log 46). -/
def atomArg (va : Nat) : Nat := natBits va 56 54 + 2 ^ 3 * natBits va 53 2
/-- ARG of an ATOMIC record for a word of the scratchpad (R222): k is the grove's address of it, whose bit 31 is the pair position of its half, so that one word has one order point from either position (log 46). -/
def atomScratchArg (k : Nat) : Nat := 7 + 2 ^ 3 * natBits k 31 2

/-- The order point of a record (R220). -/
def recPoint (r : Nat) : Nat × Nat × Nat :=
  match recKind r with
  | 1 => (1, recArg r, if recArg r % 8 = 7 then recActor r % 2 ^ 40 else 0)
  | 3 => (3, recActor r % 2 ^ 40, 0)
  | 4 => (4, natBits (recArg r) 37 32, 0)
  | 5 => (5, recActor r, 0)
  | k => (k, 0, 0)

/-- Whose choice a record is, at its point: the poster's ordinal counts for CONTQ. -/
def recOwner (r : Nat) : Nat × Nat :=
  match recKind r with
  | 4 => (recActor r, natBits (recArg r) 31 0)
  | _ => (recActor r, 0)

/-- No log of a launch. -/
def OrderLog.none : OrderLog := ⟨0, 0, 0, 0, false, []⟩

/-- The log of a launch. -/
def State.orderLog (s : State) (ctx launch : Nat) : OrderLog :=
  ((s.ctx ctx).logs.find? fun l => l.launch == launch).getD OrderLog.none

/-- Updates the log of a launch. -/
def State.modLog (s : State) (ctx launch : Nat) (f : OrderLog → OrderLog) : State :=
  s.modCtx ctx fun c => { c with logs := c.logs.map fun l => if l.launch == launch then f l else l }

/-- Writes the header words NREC and the flags of a log (R223). -/
def State.writeLogHeader (s : State) (ctx : Nat) (l : OrderLog) (done : Bool) : State :=
  let s := (s.writeLong ctx 2 (l.base + 8) (leBytes 8 l.written)).1
  (s.writeLong ctx 2 (l.base + 24) (leBytes 1 (b2n done + 2 * b2n l.full))).1

/-- A LOGGED choice is appended (R222, R223): false when the log is full, and then FULL is set. -/
def State.logAppend (s : State) (ctx launch rec : Nat) : State × Bool :=
  let l := s.orderLog ctx launch
  if l.size ≤ l.written then
    let l := { l with full := true }
    ((s.modLog ctx launch fun _ => l).writeLogHeader ctx l false, false)
  else
    let s := (s.writeLong ctx 2 (l.base + 64 + 16 * l.written) (leBytes 16 rec)).1
    let l := { l with written := l.written + 1 }
    ((s.modLog ctx launch fun _ => l).writeLogHeader ctx l false, true)

/-- What a REPLAY log says of a choice (R224): its turn, with the record's index; its record comes later; or it has none, with the index TVAL shows. -/
inductive ReplayTurn where
  | now (k : Nat) | wait (k : Nat) | diverge (k : Nat)
  deriving DecidableEq, Repr

/-- The records of a launch's log with their indexes, those consumed left out. -/
def State.unconsumed (s : State) (ctx launch : Nat) : List (Nat × Nat) :=
  let recs := match s.launches.find? fun l => l.id == launch with
    | some l => l.replay.map leNat
    | none => []
  ((List.range recs.length).zip recs).filter fun e => !(s.orderLog ctx launch).consumed.contains e.1

/-- The turn of a choice at its order point (R224). -/
def State.replayTurn (s : State) (ctx launch rec : Nat) : ReplayTurn :=
  let here := (s.unconsumed ctx launch).filter fun e => recPoint e.2 == recPoint rec
  match here with
  | [] => .diverge 0xFFFFFFFF
  | e :: _ =>
    if recOwner e.2 = recOwner rec then .now e.1
    else match here.find? fun x => recOwner x.2 == recOwner rec with
      | some x => .wait x.1
      | none => .diverge e.1

/-- A record is consumed. -/
def State.consume (s : State) (ctx launch k : Nat) : State := s.modLog ctx launch fun l => { l with consumed := k :: l.consumed }

/-- A record as it stands in a log. -/
def State.recordAt (s : State) (launch k : Nat) : Nat :=
  match s.launches.find? fun l => l.id == launch with
  | some l => leNat (l.replay.getD k [])
  | none => 0

/-- The bytes an access of a re-run sees: its shadow over what the machine holds (R370). -/
def Grove.overlay (g : Grove) (va : Nat) (bs : List Byte) : List Byte :=
  if g.verify = 2 then
    ((List.range bs.length).zip bs).map fun e => (g.shadow.lookup (va + e.1)).getD e.2
  else bs

/-- A term of the digest (R370). -/
def digestTerm (bs : List Byte) : Nat := shakeNat 16 bs

/-- Adds a term to a grove's digest, in an original or a re-run (R370). -/
def Grove.addDigest (g : Grove) (bs : List Byte) : Grove :=
  if g.verify = 0 then g else { g with digest := (g.digest + digestTerm bs) % 2 ^ 128 }

/-- The 4-byte locations of a write, each with its new value (R370). -/
def writtenWords (va : Nat) : Nat → List Byte → List (List Byte)
  | 0, _ => []
  | n + 1, bs => (leBytes 8 va ++ bs.take 4) :: writtenWords (va + 4) n (bs.drop 4)

/-- A performed or shadowed write of whole locations counts in the digest (R370). -/
def Grove.digestWrite (g : Grove) (va : Nat) (bs : List Byte) : Grove :=
  if g.verify = 0 then g else (writtenWords va (bs.length / 4) bs).foldl Grove.addDigest g

/-- Lines the shadow holds. -/
def shadowLines (sh : List (Nat × Byte)) : List Nat := (sh.map fun e => e.1 / 128).dedup

/-- A re-run's write goes to its shadow; past 8,192 lines its check ends (R370). -/
def Grove.shadowWrite (g : Grove) (va : Nat) (bs : List Byte) : Grove :=
  if g.skipped then g
  else
    let sh := (atKeys va bs).foldl (fun m e => tabInsert e.1 e.2 m) g.shadow
    if 8192 < (shadowLines sh).length then { g with skipped := true }
    else { g with shadow := sh }

end Sys2Proof.Machine
end

