-- ==== Sys2Proof/Machine/Access.lean ====
section
/-! DEFINITION. Memory accesses of threads at issue: address checks, scratchpad accesses, what an L1 serves, the buffer of a transaction, the functions of the atomics, and the requests that leave the core (11 R229-R234, 12 R246-R250, R254, R257, 13 R264-R271). -/

namespace Sys2Proof.Machine

/-- The TID of a request. -/
def Who.rid (w : Who) : Nat := w.getD 0xFFF

/-- A thread's precise trap after the guard. -/
def State.trapWho (s : State) (gid : Nat) (w : Who) (cause detail : Nat) (tval : Nat) : State :=
  s.modThread gid w (Thread.trap cause detail false (BitVec.ofNat 64 tval))

/-- The words of a list of bytes (R4). -/
def wordsOf : Nat → List Byte → List Word
  | 0, _ => []
  | n + 1, bs => BitVec.ofNat 32 (leNat (bs.take 4)) :: wordsOf n (bs.drop 4)

/-- The bytes of a list of words (R4). -/
def bytesOf (ws : List Word) : List Byte := ws.flatMap fun w => leBytes 4 w.toNat

/-- A group of registers from its first. -/
def regGroup (r n : Nat) : List Reg := (List.range n).map fun i => .gpr (r + i)

/-- The values of a group of registers. -/
def Thread.group (t : Thread) (r n : Nat) : List Word := (List.range n).map fun i => t.reg (r + i)

/-! ### Scratchpad -/

/-- The pair position of a thread's core (R27). -/
def Grove.position (g : Grove) (t : Thread) : Nat := t.core - g.core

/-- The checks of a scratchpad access of a size (R57, R230): the cause of the refusal. -/
def Grove.scratchCheck (g : Grove) (ea size : Nat) : Option Nat :=
  if ea % size ≠ 0 then some 0x04
  else if natBit ea 31 && !g.desc.pair then some 0x08
  else if g.desc.scratch * 65536 < ea % 2 ^ 31 + size then some 0x08
  else none

/-- The key of a scratchpad address of a thread in a position of its pair: bit 31 names the other half (R57). -/
def scratchKey (pos ea : Nat) : Nat := (pos + ea / 2 ^ 31) % 2 * 2 ^ 31 + ea % 2 ^ 31

/-- n bytes of the scratchpad. -/
def Grove.scratchBytes (g : Grove) (k n : Nat) : List Byte := (List.range n).map fun i => tabGet 0 g.scratch (k + i)

/-- Bytes written to the scratchpad. -/
def Grove.scratchWrite (g : Grove) (k : Nat) (bs : List Byte) : Grove :=
  { g with scratch := (atKeys k bs).foldl (fun m e => tabSet 0 m e.1 e.2) g.scratch }

/-- Some 4-byte word of n bytes of the scratchpad is poisoned (R362). -/
def Grove.scratchPoisoned (g : Grove) (k n : Nat) : Bool := (List.range ((n + 3) / 4)).any fun i => tabGet false g.scratchPoison (k / 4 + i)

/-- A scratchpad load of a thread: n words into a register group (R265). -/
def State.scratchLoad (s : State) (gid : Nat) (w : Who) (ea d n : Nat) : State :=
  match s.grove? gid, s.thread? gid w with
  | some g, some t =>
    match g.scratchCheck ea (4 * n) with
    | some c => s.trapWho gid w c 0 ea
    | none =>
      let k := scratchKey (g.position t) ea
      if g.scratchPoisoned k (4 * n) then s.trapWho gid w 0x0D 0x200 ea
      else s.modThread gid w (Thread.put false ((regGroup d n).zip (wordsOf n (g.scratchBytes k (4 * n)))))
  | _, _ => s

/-- A scratchpad store of a thread (R265): a store of a whole word does not clear its poison. -/
def State.scratchStore (s : State) (gid : Nat) (w : Who) (ea : Nat) (ws : List Word) : State :=
  match s.grove? gid, s.thread? gid w with
  | some g, some t =>
    match g.scratchCheck ea (4 * ws.length) with
    | some c => s.trapWho gid w c 0 ea
    | none => s.modGrove gid fun g => g.scratchWrite (scratchKey (g.position t) ea) (bytesOf ws)
  | _, _ => s

/-! ### Atomic functions -/

/-- FUNC of ATS, ATG and SATG (R269): the new value from the old, with v in D and w in D + 1. -/
def atNew (f : AtFn) (old v w : Word) : Word :=
  match f with
  | .add => old + v
  | .min => if si v < si old then v else old
  | .max => if si old < si v then v else old
  | .nmax => if old.toNat < v.toNat then v else old
  | .and => old &&& v
  | .or => old ||| v
  | .xchg => v
  | .cas => if old = v then w else old

/-- The largest finite code of an XADD cell plus one: positive saturation (R271). -/
def xPoss : Int := 2 ^ 127 - 1
/-- Negative saturation (R271). -/
def xNegs : Int := -(2 ^ 127)
/-- The NaN code (R271). -/
def xNan : Int := -(2 ^ 127) + 1

/-- XADD (R271): the cell after an FP32 addend, read under the thread's DAZ32. -/
def xaddNew (daz : Bool) (cell : Int) (x : Word) : Int :=
  let v : FEnv := { FEnv.ofFpc 0 with daz32 := daz }
  if cell = xNan then cell
  else
    match v.read .fp32 x.toNat with
    | .nan .. => xNan
    | .inf false => if cell = xNegs then xNan else xPoss
    | .inf true => if cell = xPoss then xNan else xNegs
    | .fin neg m e =>
      if cell = xPoss ∨ cell = xNegs then cell
      else
        let r := (roundInt .rne neg m (e + 64)).1
        let s := cell + (if neg then -(r : Int) else (r : Int))
        if 2 ^ 127 - 2 < s then xPoss else if s < -(2 ^ 127) + 2 then xNegs else s

/-- Bytes of an ATGX function (R269). -/
def atxSize : AtxFn → Nat
  | .add64 => 8
  | .xchg64 => 8
  | .cas64 => 8
  | .xadd => 16
  | .radd => 4
  | .radd64 => 8
  | .ror => 4
  | .rnmax => 4

/-- Registers an ATGX function returns (R269). -/
def atxResults : AtxFn → Nat
  | .add64 => 2
  | .xchg64 => 2
  | .cas64 => 2
  | _ => 0

/-- Operand registers of an ATGX function, from D (R269). -/
def atxOperands : AtxFn → Nat
  | .add64 => 2
  | .xchg64 => 2
  | .cas64 => 4
  | .radd64 => 2
  | _ => 1

/-- The value of two words as a 64-bit number. -/
def pairNat (ws : List Word) (i : Nat) : Nat := (joinPair (ws.getD i 0) (ws.getD (i + 1) 0)).toNat

/-- ATGX on the old bytes of its location (R269, R271). -/
def atxNew (f : AtxFn) (daz : Bool) (ops : List Word) (old : List Byte) : List Byte :=
  let o := leNat old
  let v := ops.getD 0 0
  match f with
  | .add64 => leBytes 8 (o + pairNat ops 0)
  | .xchg64 => leBytes 8 (pairNat ops 0)
  | .cas64 => leBytes 8 (if o = pairNat ops 0 then pairNat ops 2 else o)
  | .xadd => leBytes 16 (modPow 128 (xaddNew daz (sintOf 128 o) v))
  | .radd => leBytes 4 (atNew .add (w32 o) v 0).toNat
  | .radd64 => leBytes 8 (o + pairNat ops 0)
  | .ror => leBytes 4 (atNew .or (w32 o) v 0).toNat
  | .rnmax => leBytes 4 (atNew .nmax (w32 o) v 0).toNat

/-- The new bytes an atomic request writes over the old (R269, R270). -/
def ReqOp.newBytes (op : ReqOp) (daz : Bool) (ops : List Word) (old : List Byte) : List Byte :=
  match op with
  | .atom f => leBytes 4 (atNew f (w32 (leNat old)) (ops.getD 0 0) (ops.getD 1 0)).toNat
  | .atomx f => atxNew f daz ops old
  | _ => old

/-- A logged function: one that returns (R220, R270). -/
def ReqOp.logged : ReqOp → Bool
  | .atom _ => true
  | .atomx f => atxResults f != 0
  | _ => false

/-- The request writes memory. -/
def ReqOp.writes : ReqOp → Bool
  | .store => true
  | .atom _ => true
  | .atomx _ => true
  | _ => false

/-- The request reads a trace record (R321). -/
def ReqOp.isTrace : ReqOp → Bool
  | .trace _ => true
  | _ => false

/-- The request is an atomic. -/
def ReqOp.isAtomic : ReqOp → Bool
  | .atom _ => true
  | .atomx _ => true
  | _ => false

/-! ### Global accesses -/

/-- The line of a global address, by virtual home and offset (R257). -/
def vline (va : Nat) : Nat := va / 128

/-- The checks the core makes of a global address (R230): the cause of the refusal. -/
def State.addrCheck (s : State) (ctx ea size : Nat) : Option Nat :=
  match s.homeOf ctx ea with
  | .bad => some 0x05
  | _ => if ea % size ≠ 0 then some 0x04 else none

/-- ORDER makes later accesses of the thread wait (R251). -/
def acquires : Order → Bool
  | .acquire => true
  | .acqRel => true
  | _ => false

/-- ORDER makes the access wait for earlier ones (R251). -/
def releases : Order → Bool
  | .release => true
  | .acqRel => true
  | _ => false

/-- The request belongs to a thread. -/
def Req.of (r : Req) (gid : Nat) (w : Who) : Bool := r.gid == gid && r.front == w.isNone && r.tid == w.rid

/-- An acquire of the thread has not completed (R251). -/
def State.acquiring (s : State) (gid : Nat) (w : Who) : Bool := s.reqs.any fun r => r.of gid w && acquires r.order

/-- A load of the thread must wait: an acquire is open, or its own store or atomic to the line is still on its way, or its own earlier load of the line has not been served (R248, R251). -/
def State.loadHeld (s : State) (gid : Nat) (w : Who) (ea : Nat) : Bool :=
  s.acquiring gid w ||
    s.reqs.any fun r => r.of gid w && (r.op.writes || (r.op == .load && r.answer.isNone)) && vline r.va == vline ea

/-- The largest VT among the accepted stores of a line that a core has read before their VT (R251): of those it can see, or all of them. -/
def earlySeen (core key : Nat) (all : Bool) : List Store → Nat
  | [] => 0
  | st :: r =>
    let x := earlySeen core key all r
    if st.line = key ∧ (all || st.seenBy core) then max st.vt x else x

/-- A store of a grove that came through a core has a VT (R49, R251). -/
def State.noteVt (s : State) (gid core home vt : Nat) : State :=
  (s.modCore core (Core.noteVt vt (skew (dieOfCore core) home))).modGrove gid fun g =>
    { g with relTime := max g.relTime (vt + skew (dieOfCore core) home) }

/-- A core has read stores of a line early (R251). -/
def State.noteEarly (s : State) (core home key : Nat) (all : Bool) : State :=
  let v := earlySeen core key all s.pend
  if v = 0 then s else s.modCore core (Core.noteVt v (skew (dieOfCore core) home))

/-- A load hint that fills the L1 and may be served from it (R266). -/
def usesL1 : Hint → Bool
  | .bypassL1 => false
  | .nonTemporal => false
  | _ => true

/-- The words an L1 serves for a load now, if it can (R246): its copy's bytes, unless one is poisoned. -/
def State.l1Words (s : State) (g : Grove) (core home off va n : Nat) : Option (List Word) :=
  let key := lineKey home off
  match s.l1Hit g.ctx core home key .load with
  | none => none
  | some l =>
    if s.anyPoison ((s.line key).phys.getD 0 + off % 128) (4 * n) then none
    else some (wordsOf n (g.overlay va ((List.range (4 * n)).map fun i => l.bytes.getD (off % 128 + i) 0)))

/-- A request of a thread for the word being issued. -/
def Thread.request (t : Thread) (id gid : Nat) (op : ReqOp) (va size : Nat) (scope : Scope) (order : Order) (hint : Hint)
    (data : List Word) (regs : List Reg) (txn : Bool) : Req :=
  ⟨id, gid, t.front, t.tid, t.core, t.idx, t.wordPc, op, va, .bad, size, hint, scope, order, data, natBit t.fpc 2, regs,
    !releases order, false, none, txn, false, none, 0⟩

/-- Where the core's check of a grove's address sends an access (R230, R241). -/
def State.destOf (s : State) (gid va : Nat) : HomeRes := s.homeOf (((s.grove? gid).map Grove.ctx).getD 0) va

/-- A request leaves the thread for the home or peer that its address names now: its results are awaited, and its home-side check is open unless it is a prefetch (R88, R230, R241). -/
def State.send (s : State) (gid : Nat) (w : Who) (r : Req) : State :=
  let s := { s with nextId := s.nextId + 1, reqs := s.reqs ++ [{ r with dest := s.destOf gid r.va }] }
  s.modThread gid w fun t =>
    let t := t.expect r.regs
    if r.op == .prefetch then t else t.modSeg fun x => { x with checks := t.idx :: x.checks }

/-- The read lines of a transaction, those of its loads on their way included (R257). -/
def State.readLines (s : State) (gid : Nat) (w : Who) (t : Thread) : List Nat :=
  (t.txn.reads.map Prod.fst ++ (s.reqs.filter fun r => r.of gid w && r.txn).map fun r => vline r.va).dedup

/-- A transactional load (R257): from the thread's own buffer when that holds every byte, else at the home. -/
def State.txnLoad (s : State) (gid : Nat) (w : Who) (t : Thread) (ctx ea n d : Nat) (scope : Scope) (order : Order) (hint : Hint) : State :=
  match s.homeOf ctx ea with
  | .phys h =>
    let mine := (List.range (4 * n)).map fun i => t.txn.buf.lookup (ea + i)
    if 2 ≤ h then s.modThread gid w (Thread.abortTxn 3)
    else if mine.all Option.isSome then
      s.modThread gid w (Thread.put false ((regGroup d n).zip (wordsOf n (mine.map fun b => b.getD 0))))
    else
      let lines := s.readLines gid w t
      if !lines.contains (vline ea) && 32 ≤ lines.length then s.modThread gid w (Thread.abortTxn 2)
      else s.send gid w (t.request s.nextId gid .load ea (4 * n) scope order hint [] (regGroup d n) true)
  | _ => s.modThread gid w (Thread.abortTxn 3)

/-- A global load of n words into a register group (R265). -/
def State.globalLoad (s : State) (gid : Nat) (w : Who) (ea n d : Nat) (scope : Scope) (order : Order) (hint : Hint) : State :=
  match s.grove? gid, s.thread? gid w with
  | some g, some t =>
    match s.addrCheck g.ctx ea (4 * n) with
    | some c => s.trapWho gid w c 0 ea
    | none =>
      if t.txn.isOpen then s.txnLoad gid w t g.ctx ea n d scope order hint
      else
        let r := t.request s.nextId gid .load ea (4 * n) scope order hint [] (regGroup d n) false
        match s.homeOf g.ctx ea with
        | .phys h =>
          let off := ea % 2 ^ 54
          match if usesL1 hint then s.l1Words g t.core h off ea n else none with
          | some ws => (s.modThread gid w (Thread.put false ((regGroup d n).zip ws))).noteEarly t.core h (lineKey h off) false
          | none => s.send gid w r
        | _ => s.send gid w r
  | _, _ => s

/-- A transactional store goes to the thread's buffer (R257). -/
def State.txnStore (s : State) (gid : Nat) (w : Who) (t : Thread) (ctx ea : Nat) (ws : List Word) : State :=
  match s.homeOf ctx ea with
  | .phys h =>
    if 2 ≤ h then s.modThread gid w (Thread.abortTxn 3)
    else if !t.txn.wlines.contains (vline ea) && 16 ≤ t.txn.wlines.length then s.modThread gid w (Thread.abortTxn 2)
    else s.modThread gid w fun t => { t with txn := { t.txn with
      wlines := if t.txn.wlines.contains (vline ea) then t.txn.wlines else vline ea :: t.txn.wlines
      buf := (atKeys ea (bytesOf ws)).foldl (fun m e => tabInsert e.1 e.2 m) t.txn.buf } }
  | _ => s.modThread gid w (Thread.abortTxn 3)

/-- A global store of words (R265). -/
def State.globalStore (s : State) (gid : Nat) (w : Who) (ea : Nat) (ws : List Word) (scope : Scope) (order : Order) (hint : Hint) : State :=
  match s.grove? gid, s.thread? gid w with
  | some g, some t =>
    match s.addrCheck g.ctx ea (4 * ws.length) with
    | some c => s.trapWho gid w c 0 ea
    | none =>
      if t.txn.isOpen then s.txnStore gid w t g.ctx ea ws
      else s.send gid w (t.request s.nextId gid .store ea (4 * ws.length) scope order hint ws [] false)
  | _, _ => s

/-- The L1 of a thread's core may execute an atomic on a line now (R254): scope strand or grove, a FREE launch, a usable lease that permits stores, no release to wait for, no write of the core to the line on its way, and a line no one holds. -/
def State.l1Atomic (s : State) (g : Grove) (t : Thread) (h ea size : Nat) (scope : Scope) (order : Order) : Bool :=
  let off := ea % 2 ^ 54
  let key := lineKey h off
  let l := s.line key
  (scope == .strand || scope == .grove) && g.unlogged && g.verify == 0 && !releases order &&
    (s.l1Hit g.ctx t.core h key .store).isSome && l.lock.isNone && l.owner.isNone && h < 2 &&
    tabGet 0 s.snoopFilter (l.phys.getD 0 / 128) == 0 &&
    !(s.reqs.any fun r => r.core == t.core && r.op.writes && vline r.va == vline ea) &&
    !s.anyPoison (l.phys.getD 0 + off % 128) size &&
    (match s.fate g.ctx false .store h off with
      | .ok _ _ => true
      | _ => false)

/-- A global atomic (R270): size bytes, operand words, and the registers that take the old value. -/
def State.globalAtomic (s : State) (gid : Nat) (w : Who) (op : ReqOp) (ea size : Nat) (ops : List Word) (regs : List Reg)
    (scope : Scope) (order : Order) : State :=
  match s.grove? gid, s.thread? gid w with
  | some g, some t =>
    match s.addrCheck g.ctx ea size with
    | some c => s.trapWho gid w c 0 ea
    | none =>
      if t.txn.isOpen then s.modThread gid w (Thread.abortTxn 3)
      else
        let r := t.request s.nextId gid op ea size scope order .normal ops regs false
        match s.homeOf g.ctx ea with
        | .phys h =>
          let off := ea % 2 ^ 54
          let key := lineKey h off
          if s.l1Atomic g t h ea size scope order then
            match s.l1Hit g.ctx t.core h key .store, s.fate g.ctx false .store h off with
            | some l, .ok pk _ =>
              let old := (List.range size).map fun i => l.bytes.getD (off % 128 + i) 0
              let new := op.newBytes r.daz ops old
              let s := s.noteEarly t.core h key false
              let vt := s.vtOf key
              let s := s.accept key (pk - off % 128) (some t.core) (atKeys pk new)
              let s := s.noteVt gid t.core h vt
              s.modThread gid w (Thread.put false (regs.zip (wordsOf (size / 4) old)))
            | _, _ => s.send gid w r
          else s.send gid w r
        | _ => s.send gid w r
  | _, _ => s

/-- A prefetch (R268): dropped inside a transaction, at a peer, and where its address would fault. -/
def State.prefetch (s : State) (gid : Nat) (w : Who) (ea : Nat) (hint : Hint) : State :=
  match s.grove? gid, s.thread? gid w with
  | some g, some t =>
    match s.homeOf g.ctx ea with
    | .phys _ => if t.txn.isOpen then s else s.send gid w (t.request s.nextId gid .prefetch ea 128 .plain .relaxed hint [] [] false)
    | _ => s
  | _, _ => s

end Sys2Proof.Machine
end

