-- ==== Sys2Proof/Machine/MemWords.lean ====
section
/-! DEFINITION. The memory words of the lane and uniform streams: loads, stores, prefetches and atomics (13 R264-R271). -/

namespace Sys2Proof.Machine

/-- Needs of a V group of n registers. -/
def vN (d : Fin 64) (n : Nat) : List Need := if n = 1 then v1 d else vGroup d n

/-- Needs of an S group of n registers. -/
def sN (d : Fin 32) (n : Nat) : List Need := if n = 1 then [] else sGroup d n

/-- Some thread of a list has an acquire open (R251). -/
def anyAcquiring (s : State) (g : Grove) (_ : Nat) (on : List Thread) : Bool := on.any fun t => s.acquiring g.id (some t.tid)

/-- A store, atomic or prefetch of a stand waits at issue: earlier checks are open (R88), or an acquire is (R251). -/
def effectHeld (s : State) (g : Grove) (stand : Nat) (on : List Thread) : Bool := standHeld s g stand on || anyAcquiring s g stand on

/-- A store, atomic or prefetch of the front thread waits at issue. -/
def frontHeld (s : State) (g : Grove) : Bool := !g.front.checked || s.acquiring g.id none

/-- The address of a scratchpad word (R91). -/
def scratchAddr (base : Word) (off size swz : Nat) : Nat := swizzle swz ((base.toNat + off * size) % 2 ^ 32)

/-- A scratchpad load word of n registers (R264). -/
def laneLds (h : Hdr) (d : Fin 64) (a : LaneA) (w : Fin 8) (f : Fin 32) (n : Nat) (s : State) : Out :=
  laneIssue (aShape h a n (vN d n ++ needA a)) anyAcquiring
    (fun gid tid s => match s.grove? gid, s.thread? gid (some tid) with
      | some g, some t => s.scratchLoad gid (some tid) (scratchAddr (readA (s.env g) t a) f.val (4 * n) w.val) d.val n
      | _, _ => s) s

/-- A scratchpad store word of n registers (R264). -/
def laneSts (h : Hdr) (d : Fin 64) (a : LaneA) (w : Fin 8) (f : Fin 32) (n : Nat) (s : State) : Out :=
  laneIssue (aShape h a 0 (vN d n ++ needA a)) effectHeld
    (fun gid tid s => match s.grove? gid, s.thread? gid (some tid) with
      | some g, some t =>
        s.scratchStore gid (some tid) (scratchAddr (readA (s.env g) t a) f.val (4 * n) w.val) (t.group d.val n)
      | _, _ => s) s

/-- A global load word of n registers (R264). -/
def laneLdg (h : Hdr) (d : Fin 64) (a : LaneA) (p : Scope) (r : Order) (t : Hint) (n : Nat) (s : State) : Out :=
  laneIssue (aShape h a n (vN d n ++ needA64 a))
    (fun s g _ on => on.any fun u => s.loadHeld g.id (some u.tid) (readA64 (s.env g) u a).toNat)
    (fun gid tid s => match s.grove? gid, s.thread? gid (some tid) with
      | some g, some u => s.globalLoad gid (some tid) (readA64 (s.env g) u a).toNat n d.val p r t
      | _, _ => s) s

/-- A global store word of n registers (R264). -/
def laneStg (h : Hdr) (d : Fin 64) (a : LaneA) (p : Scope) (r : Order) (t : Hint) (n : Nat) (s : State) : Out :=
  laneIssue (aShape h a 0 (vN d n ++ needA64 a)) effectHeld
    (fun gid tid s => match s.grove? gid, s.thread? gid (some tid) with
      | some g, some u => s.globalStore gid (some tid) (readA64 (s.env g) u a).toNat (u.group d.val n) p r t
      | _, _ => s) s

/-- LDS (R264, R265). -/
def execLds (h : Hdr) (d : Fin 64) (a : LaneA) (w : Fin 8) (f : Fin 32) (s : State) : Out := laneLds h d a w f 1 s
/-- STS (R264, R265). -/
def execSts (h : Hdr) (d : Fin 64) (a : LaneA) (w : Fin 8) (f : Fin 32) (s : State) : Out := laneSts h d a w f 1 s
/-- LDG (R264, R265). -/
def execLdg (h : Hdr) (d : Fin 64) (a : LaneA) (p : Scope) (r : Order) (t : Hint) (s : State) : Out := laneLdg h d a p r t 1 s
/-- STG (R264, R265). -/
def execStg (h : Hdr) (d : Fin 64) (a : LaneA) (p : Scope) (r : Order) (t : Hint) (s : State) : Out := laneStg h d a p r t 1 s

/-- LDS2 (R264, R265). -/
def execLds2 (h : Hdr) (d : Fin 64) (a : LaneA) (w : Fin 8) (f : Fin 32) (s : State) : Out := laneLds h d a w f 2 s
/-- STS2 (R264, R265). -/
def execSts2 (h : Hdr) (d : Fin 64) (a : LaneA) (w : Fin 8) (f : Fin 32) (s : State) : Out := laneSts h d a w f 2 s
/-- LDG2 (R264, R265). -/
def execLdg2 (h : Hdr) (d : Fin 64) (a : LaneA) (p : Scope) (r : Order) (t : Hint) (s : State) : Out := laneLdg h d a p r t 2 s
/-- STG2 (R264, R265). -/
def execStg2 (h : Hdr) (d : Fin 64) (a : LaneA) (p : Scope) (r : Order) (t : Hint) (s : State) : Out := laneStg h d a p r t 2 s

/-- LDS4 (R264, R265). -/
def execLds4 (h : Hdr) (d : Fin 64) (a : LaneA) (w : Fin 8) (f : Fin 32) (s : State) : Out := laneLds h d a w f 4 s
/-- STS4 (R264, R265). -/
def execSts4 (h : Hdr) (d : Fin 64) (a : LaneA) (w : Fin 8) (f : Fin 32) (s : State) : Out := laneSts h d a w f 4 s
/-- LDG4 (R264, R265). -/
def execLdg4 (h : Hdr) (d : Fin 64) (a : LaneA) (p : Scope) (r : Order) (t : Hint) (s : State) : Out := laneLdg h d a p r t 4 s
/-- STG4 (R264, R265). -/
def execStg4 (h : Hdr) (d : Fin 64) (a : LaneA) (p : Scope) (r : Order) (t : Hint) (s : State) : Out := laneStg h d a p r t 4 s

/-- PRF (R268). -/
def execPrf (h : Hdr) (a : LaneA) (t : Hint) (s : State) : Out :=
  laneIssue (aShape h a 0 (needA64 a)) effectHeld
    (fun gid tid s => match s.grove? gid, s.thread? gid (some tid) with
      | some g, some u => s.prefetch gid (some tid) (readA64 (s.env g) u a).toNat t
      | _, _ => s) s

/-- An atomic on the scratchpad performed by its bank (R254, R269, R270). -/
def State.scratchAtomic (s : State) (gid : Nat) (w : Who) (f : AtFn) (k d : Nat) (v u : Word) : State :=
  match s.grove? gid with
  | none => s
  | some g =>
    let old := w32 (leNat (g.scratchBytes k 4))
    (s.modGrove gid fun g => g.scratchWrite k (leBytes 4 (atNew f old v u).toNat)).modThread gid w (Thread.put false (wr d old))

/-- ATS in a thread (R269, R270): in a LOGGED launch its choice is logged, and in a REPLAY launch it waits for its record (R220, R224); such a request names address 2^64 + ea. -/
def State.ats (s : State) (gid tid : Nat) (f : AtFn) (ea : Nat) (d : Nat) : State :=
  let w : Who := some tid
  match s.grove? gid, s.thread? gid w with
  | some g, some t =>
    if t.txn.isOpen then s.modThread gid w (Thread.abortTxn 3)
    else
      match g.scratchCheck ea 4 with
      | some c => s.trapWho gid w c 0 ea
      | none =>
        let k := scratchKey (g.position t) ea
        let v := t.reg d
        let u := if f = .cas then t.reg (d + 1) else 0
        if g.scratchPoisoned k 4 then s.trapWho gid w 0x0D 0x200 ea
        else if g.unlogged then s.scratchAtomic gid w f k d v u
        else if g.replays then
          (s.send gid w (t.request s.nextId gid (.atom f) (2 ^ 64 + ea) 4 .plain .relaxed .normal [v, u] [.gpr d] false)).modThread gid w
            fun t => { t with wait := .replay s.gt }
        else
          match s.logAppend g.ctx g.launch (logRec 1 (atomScratchArg k) g.tag t.tid 0) with
          | (s, true) => s.scratchAtomic gid w f k d v u
          | (s, false) => s.trapWho gid w 0x13 2 0
  | _, _ => s

/-- ATS (R269, R270). -/
def execAts (h : Hdr) (d : Fin 64) (a : LaneA) (w : Fin 8) (u : AtFn) (s : State) : Out :=
  laneIssue (aShape h a 1 ((if u = .cas then v2 d else v1 d) ++ needA a)) effectHeld
    (fun gid tid s => match s.grove? gid, s.thread? gid (some tid) with
      | some g, some t => s.ats gid tid u (scratchAddr (readA (s.env g) t a) 0 0 w.val) d.val
      | _, _ => s) s

/-- Operand words of a 4-byte atomic function. -/
def atOps (u : AtFn) : Nat := if u = .cas then 2 else 1

/-- ATG (R269, R270). -/
def execAtg (h : Hdr) (d : Fin 64) (a : LaneA) (p : Scope) (r : Order) (u : AtFn) (s : State) : Out :=
  laneIssue (aShape h a 1 (vN d (atOps u) ++ needA64 a)) effectHeld
    (fun gid tid s => match s.grove? gid, s.thread? gid (some tid) with
      | some g, some t =>
        s.globalAtomic gid (some tid) (.atom u) (readA64 (s.env g) t a).toNat 4 (t.group d.val (atOps u)) [.gpr d.val] p r
      | _, _ => s) s

/-- ATGX (R269-R271). -/
def execAtgx (h : Hdr) (d : Fin 64) (a : LaneA) (p : Scope) (r : Order) (u : AtxFn) (s : State) : Out :=
  laneIssue (aShape h a (atxResults u) (vN d (atxOperands u) ++ needA64 a)) effectHeld
    (fun gid tid s => match s.grove? gid, s.thread? gid (some tid) with
      | some g, some t =>
        s.globalAtomic gid (some tid) (.atomx u) (readA64 (s.env g) t a).toNat (atxSize u) (t.group d.val (atxOperands u))
          (regGroup d.val (atxResults u)) p r
      | _, _ => s) s

/-- A shape of a uniform memory word. -/
def umShape (h : Hdr) (a : UniA) (nvar : Nat) (needs : List Need) : Shape := ⟨h, lenUA a, false, nvar, needs⟩

/-- The address of a uniform global word (R267). -/
def uniAddr (s : State) (g : Grove) (a : UniA) (off : Nat) : Nat := ((readUA64 (s.env g) g.front a).toNat + off) % 2 ^ 64

/-- A uniform global load of n registers (R267). -/
def uniLdg (h : Hdr) (d : Fin 32) (a : UniA) (p : Scope) (r : Order) (f : Fin 32) (n : Nat) (s : State) : Out :=
  uniIssue (umShape h a n (sN d n ++ needUA64 a)) false (fun s g => s.loadHeld g.id none (uniAddr s g a (f.val * (4 * n))))
    (fun gid s => match s.grove? gid with
      | some g => s.globalLoad gid none (uniAddr s g a (f.val * (4 * n))) n d.val p r .normal
      | none => s) s

/-- A uniform global store of n registers (R267). -/
def uniStg (h : Hdr) (d : Fin 32) (a : UniA) (p : Scope) (r : Order) (f : Fin 32) (n : Nat) (s : State) : Out :=
  uniIssue (umShape h a 0 (sN d n ++ needUA64 a)) false frontHeld
    (fun gid s => match s.grove? gid with
      | some g => s.globalStore gid none (uniAddr s g a (f.val * (4 * n))) (g.front.group d.val n) p r .normal
      | none => s) s

/-- SLDG (R267). -/
def execSldg (h : Hdr) (d : Fin 32) (a : UniA) (p : Scope) (r : Order) (f : Fin 32) (s : State) : Out := uniLdg h d a p r f 1 s
/-- SLDG2 (R267). -/
def execSldg2 (h : Hdr) (d : Fin 32) (a : UniA) (p : Scope) (r : Order) (f : Fin 32) (s : State) : Out := uniLdg h d a p r f 2 s
/-- SLDG4 (R267). -/
def execSldg4 (h : Hdr) (d : Fin 32) (a : UniA) (p : Scope) (r : Order) (f : Fin 32) (s : State) : Out := uniLdg h d a p r f 4 s
/-- SSTG (R267). -/
def execSstg (h : Hdr) (d : Fin 32) (a : UniA) (p : Scope) (r : Order) (f : Fin 32) (s : State) : Out := uniStg h d a p r f 1 s
/-- SSTG2 (R267). -/
def execSstg2 (h : Hdr) (d : Fin 32) (a : UniA) (p : Scope) (r : Order) (f : Fin 32) (s : State) : Out := uniStg h d a p r f 2 s

/-- SLDS (R267). -/
def execSlds (h : Hdr) (d : Fin 32) (a : UniA) (w : Fin 8) (f : Fin 128) (s : State) : Out :=
  uniIssue (umShape h a 1 []) false (fun s g => s.acquiring g.id none)
    (fun gid s => match s.grove? gid with
      | some g => s.scratchLoad gid none (scratchAddr (readUA (s.env g) g.front a) f.val 4 w.val) d.val 1
      | none => s) s
/-- SSTS (R267). -/
def execSsts (h : Hdr) (d : Fin 32) (a : UniA) (w : Fin 8) (f : Fin 128) (s : State) : Out :=
  uniIssue (umShape h a 0 []) false frontHeld
    (fun gid s => match s.grove? gid with
      | some g => s.scratchStore gid none (scratchAddr (readUA (s.env g) g.front a) f.val 4 w.val) [g.front.reg d.val]
      | none => s) s
/-- SATG (R269, R270). -/
def execSatg (h : Hdr) (d : Fin 32) (a : UniA) (p : Scope) (r : Order) (u : AtFn) (s : State) : Out :=
  uniIssue (umShape h a 1 (sN d (atOps u) ++ needUA64 a)) false frontHeld
    (fun gid s => match s.grove? gid with
      | some g => s.globalAtomic gid none (.atom u) (uniAddr s g a 0) 4 (g.front.group d.val (atOps u)) [.gpr d.val] p r
      | none => s) s

/-- SLDK in the front thread (R267): the constant block read as a load that fills no L1. -/
def State.constLoad (s : State) (gid : Nat) (g : Grove) (tval : DWord) (addr d : Nat) : State :=
  if addr % 4 ≠ 0 then s.trapWho gid none 0x04 0 addr
  else if 65536 ≤ addr then s.modThread gid none (Thread.fail 0x02 0 tval)
  else if g.desc.const = 0 then s.modThread gid none (Thread.put false (wr d 0))
  else s.globalLoad gid none ((g.desc.const + addr) % 2 ^ 64) 1 d .device .relaxed .bypassL1

/-- SLDK (R267). -/
def execSldk (h : Hdr) (d : Fin 32) (a : UniA) (f : Fin 128) (s : State) : Out :=
  let tval := match s.cur with
    | .front _ w l => wordTval w l (lenUA a)
    | _ => 0
  uniIssue (umShape h a 1 []) false
    (fun s g => s.loadHeld g.id none (g.desc.const + (readUA (s.env g) g.front a).toNat + 4 * f.val))
    (fun gid s => match s.grove? gid with
      | some g => s.constLoad gid g tval ((readUA (s.env g) g.front a).toNat + 4 * f.val) d.val
      | none => s) s
/-- SPRF (R268). -/
def execSprf (h : Hdr) (a : UniA) (f : Fin 32) (s : State) : Out :=
  uniIssue (umShape h a 0 (needUA64 a)) false frontHeld
    (fun gid s => match s.grove? gid with
      | some g => s.prefetch gid none (uniAddr s g a (4 * f.val)) .normal
      | none => s) s

end Sys2Proof.Machine
end

