-- ==== Sys2Proof/Machine/Homes.lean ====
section
/-! DEFINITION. What happens at the homes and on the way back: loads, stores and atomics arriving, refusals and parks, returns, releases performed, and the commit of a segment (11 R230, 12 R245-R254, R261, R262, 17 R356). -/

namespace Sys2Proof.Machine

/-- A request by id. -/
def State.req? (s : State) (id : Nat) : Option Req := s.reqs.find? fun r => r.id == id

/-- Who sent a request. -/
def Req.who (r : Req) : Who := if r.front then none else some r.tid

/-- A request is gone. -/
def State.dropReq (s : State) (id : Nat) : State := { s with reqs := s.reqs.filter fun r => r.id != id }

/-- Updates a request. -/
def State.modReq (s : State) (id : Nat) (f : Req → Req) : State :=
  { s with reqs := s.reqs.map fun r => if r.id == id then f r else r }

/-- The home has answered the check of a request (R88). -/
def State.checkDone (s : State) (r : Req) : State :=
  s.modThread r.gid r.who (Thread.modSeg fun x => { x with checks := x.checks.erase r.idx })

/-- The segment of a request's thread ends at its word: later words are undone, in it and in its stand (R88, R350), and f records how. -/
def State.endAt (s : State) (r : Req) (f : Seg → Seg) : State :=
  let s := { s with reqs := s.reqs.filter fun x => !(x.of r.gid r.who && x.op != ReqOp.prefetch && r.idx ≤ x.idx) }
  let team := ((s.thread? r.gid r.who).map Thread.team).getD 0
  let s := s.modThread r.gid r.who fun t => { (t.cut r.idx false).modSeg f with wait := .none }
  if r.front then s else s.stopStand r.gid team r.idx

/-- The home refuses an access: a precise trap of its word (R230, R353). -/
def State.refuse (s : State) (r : Req) (cause detail tval : Nat) : State :=
  let open_ := ((s.thread? r.gid r.who).map fun t => t.txn.isOpen).getD false
  s.endAt r fun x => { x with trap := some ⟨r.idx, r.pc, cause, detail, false, open_, BitVec.ofNat 64 tval, none⟩, fin := .ended }

/-- A demand-paged miss parks the access, inside a transaction it traps (R257, R356). -/
def State.parkReq (s : State) (r : Req) (home : Nat) : State :=
  if r.txn then s.refuse r 0x07 0 r.va
  else s.endAt r fun x =>
    { x with park := some ⟨r.idx, r.pc, r.va, b2n r.op.writes, if home < 2 then home else s.tableSpace home⟩, fin := .ended }

/-- A refused access: dropped for a prefetch (R268). -/
def State.turnAway (s : State) (r : Req) (home : Nat) (f : Fate) : State :=
  if r.op == .prefetch then s.dropReq r.id
  else match f with
    | .demand => if r.op.isTrace then s.refuse r 0x07 0 r.va else s.parkReq r home
    | .protection => s.refuse r 0x06 (b2n r.op.writes) r.va
    | _ => s.refuse r 0x07 0 r.va

/-- The line is held by no engine, and by no transaction but the request's own thread, whose prefetch gets no lease on it either (R246, R255, R258). -/
def State.lineOpen (s : State) (r : Req) (lk : Nat) : Bool :=
  let l := s.line lk
  l.owner.isNone && (l.lock.isNone || (l.lock == some (r.gid, r.who.rid) && r.op != .prefetch))

/-- A request that has reached a line which an engine owns waits for the engine's store (R255). -/
def State.waitOwner (s : State) (r : Req) (lk : Nat) : State :=
  if (s.line lk).owner.isSome then s.modReq r.id fun r => { r with atOwner := true } else s

/-- A request waits for the host's answer over a physical line (R261, R262). -/
def State.waitHost (s : State) (r : Req) (pline kind : Nat) : State :=
  (s.modReq r.id fun r => { r with atHost := some pline }).askHost pline kind

/-- The requests that have waited for a store of a line's owner or of the host are not served before its visibility time (R255, R262). -/
def State.wakeWaiters (s : State) (p : Req → Bool) (vt : Nat) : State :=
  { s with reqs := s.reqs.map fun r => if p r then { r with atOwner := false, atHost := none, after := max r.after vt } else r }

/-- What a request asks of a peer: a re-run's atomic only reads there (R241, R370). -/
def Req.peerOp (r : Req) (g : Grove) : ReqOp := if g.verify = 2 && r.op.isAtomic then .load else r.op

/-- A message for a request goes to the device its entry names, once (R241). -/
def State.sendPeer (s : State) (g : Grove) (r : Req) (entry : Nat) : State :=
  if r.sent then s
  else (s.modReq r.id fun r => { r with sent := true }).emitPeer r.id entry (r.peerOp g) r.va r.size
    (if g.verify = 2 then [] else bytesOf r.data)

/-- A transactional load records the line and the store it returned; in serial mode it locks the line (R257, R259). -/
def State.noteTxnRead (s : State) (r : Req) (lk : Nat) : State :=
  let hidden := s.pend.any fun st => st.line == lk && !st.seenBy r.core
  let seen := if hidden then 0 else (s.line lk).last
  let serial := ((s.thread? r.gid r.who).map fun t => t.txn.serial).getD false
  let s := s.modThread r.gid r.who fun t => { t with txn := { t.txn with reads := (vline r.va, seen) :: t.txn.reads } }
  if serial then s.setLine lk { s.line lk with lock := some (r.gid, r.who.rid) } else s

/-- A core has read a line at its home: what it does next comes after the line's stores that were visible (R260, log 25). -/
def State.noteRead (s : State) (core lk : Nat) : State :=
  s.modCore core fun c => { c with lastVt := max c.lastVt (min (s.line lk).p s.gt) }

/-- A load or a prefetch is served at its home (R246, R247). -/
def State.serve (s : State) (g : Grove) (r : Req) (home pk code : Nat) : State :=
  let off := r.va % 2 ^ 54
  let lk := lineKey home off
  let buf := ((s.thread? r.gid r.who).map fun t => t.txn.buf).getD []
  let bs := g.overlay r.va (s.bytesFor (some r.core) pk r.size)
  let bs := if r.txn then ((List.range bs.length).zip bs).map fun e => (buf.lookup (r.va + e.1)).getD e.2 else bs
  let s := (if usesL1 r.hint && !r.txn then s.fill g.ctx g.desc.l1 r.hint r.core home lk (pk - off % 128) code else s).noteRead r.core lk
  if r.op == .prefetch then s.dropReq r.id
  else
    let s := s.noteEarly r.core home lk false
    let s := if r.txn then s.noteTxnRead r lk else s
    (s.modReq r.id fun r => { r with answer := some (wordsOf (r.size / 4) bs) }).checkDone r

/-- The lowest number, of n more from k, that is not in a list. -/
def lowestFree (l : List Nat) : Nat → Nat → Nat
  | 0, k => k
  | n + 1, k => if l.contains k then lowestFree l n (k + 1) else k

/-- The spill area a new ray of a core's cluster takes (R203, log 30). -/
def State.spillSlot (s : State) (core : Nat) : Nat :=
  let l := (s.rays.filter fun r => clusterOfCore r.core == clusterOfCore core).map Ray.slot
  lowestFree l l.length 0

/-- The BTE accepts the ray of a TRACE whose record it has read, unless ROOT or ATTR is misaligned (R321). -/
def State.acceptRay (s : State) (r : Req) (any : Bool) (bs : List Byte) : State :=
  let f := fun o n => leNat ((bs.drop o).take n)
  let root := f 0 8
  let attr := f 24 8
  if root % 128 ≠ 0 then s.refuse r 0x04 0 root
  else if attr % 8 ≠ 0 then s.refuse r 0x04 0 attr
  else match s.grove? r.gid, s.thread? r.gid r.who with
    | some g, some t =>
      let ray : Ray := ⟨s.nextId, g.id, r.tid, g.ctx, r.core, t.traceOrd, r.data.take 8, r.data.getD 8 0, any, root, w32 (f 8 4), w32 (f 12 4),
        w32 (f 16 4), f 20 1, attr, false, [], s.spillSlot r.core⟩
      ((({ s with nextId := s.nextId + 1, rays := s.rays ++ [ray] } : State).modThread r.gid r.who fun t =>
        { t with traceOrd := t.traceOrd + 1 }).checkDone r).dropReq r.id
    | _, _ => s.dropReq r.id

/-- An earlier TRACE of the thread has not been accepted, so that its ray keeps the lower ordinal (R221). -/
def State.traceWaits (s : State) (r : Req) : Bool := s.reqs.any fun x => decide (x.id < r.id) && x.op.isTrace && x.of r.gid r.who

/-- A trace record read at its home reaches the BTE; a load or prefetch is served (R247, R321). -/
def State.serveOrTrace (s : State) (g : Grove) (r : Req) (home pk code : Nat) : State :=
  match r.op with
  | .trace any => s.acceptRay r any (g.overlay r.va (s.bytesFor none pk 32))
  | _ => s.serve g r home pk code

/-- LOAD_AT_HOME: a load, a prefetch or the read of a trace record arrives at its home (R230, R247, R321). -/
def execLoadAtHome (id : Nat) (s : State) : Out :=
  .next (match s.req? id with
    | none => s
    | some r =>
      match s.grove? r.gid with
      | none => s.dropReq id
      | some g =>
        if r.op.writes || r.answer.isSome || (r.op.isTrace && s.traceWaits r) || decide (s.gt < r.after) then s
        else match r.dest with
          | .bad => s.refuse r 0x05 0 r.va
          | .peer e => s.sendPeer g r e
          | .phys h =>
            let lk := lineKey h (r.va % 2 ^ 54)
            if !s.lineOpen r lk then s.waitOwner r lk
            else match s.fate g.ctx false .load h (r.va % 2 ^ 54) with
              | .ok pk code =>
                let s := s.keepWalk h (r.va % 2 ^ 54)
                if s.barred h (pk / 128) then s
                else match s.hostNeed h (pk / 128) false with
                  | some k => s.waitHost r (pk / 128) k
                  | none =>
                    if r.op != .prefetch && s.anyPoison pk r.size then s.refuse r 0x0D 0x100 r.va
                    else s.serveOrTrace g r h pk code
              | f => s.turnAway r h f)

/-- The results of a request reach the return buffer (R247). -/
def State.deliver (s : State) (r : Req) (ws : List Word) : State :=
  (s.modThread r.gid r.who (Thread.modSeg fun x => { x with results := fillResults r.idx (r.regs.zip ws) x.results })).dropReq r.id

/-- What a peer's answer comes to: 0 accepted, 1 refused, 2 no route, 3 poison (R241, R263). -/
def State.peerAnswer (s : State) (r : Req) (fate : Nat) (ok : State → State) : State :=
  match fate with
  | 0 => ok (s.checkDone r)
  | 1 => s.refuse r 0x06 3 r.va
  | 2 => s.refuse r 0x07 0 r.va
  | _ => s.refuse r 0x0D 0x100 r.va

/-- A list of words cut or filled with zeros to a length. -/
def fitWords (n : Nat) (ws : List Word) : List Word := (List.range n).map fun i => ws.getD i 0

/-- What a peer's answer to a load or atomic leaves (R241, R263, R370): the value, with the bytes of a re-run's shadow over it; an atomic's store awaits its acknowledgement, and a re-run's goes to the shadow. -/
def State.peerValue (s : State) (r : Req) (data : List Word) : State :=
  let bs := bytesOf (fitWords (max r.regs.length ((r.size + 3) / 4)) data)
  match s.grove? r.gid with
  | none => s.dropReq r.id
  | some g =>
    let bs := g.overlay r.va (bs.take r.size)
    let ws := fitWords r.regs.length (wordsOf (r.size / 4) bs)
    if !r.op.isAtomic then s.deliver r ws
    else
      let new := r.op.newBytes r.daz r.data bs
      let s := s.modGrove g.id fun g => (if g.verify = 2 then g.shadowWrite r.va new else g).digestWrite r.va new
      (if g.verify = 2 then s else { s with peerStores := PeerStore.mk r.id r.core r.gid :: s.peerStores }).deliver r ws

/-- LOAD_RETURN: a load's or atomic's value returns; for a peer the value and its fate come with the event, which may also answer a read that a unit of the device has asked a peer for (R241, R247, log 10). -/
def execLoadReturn (id : Nat) (data : List Word) (fate : Nat) (s : State) : Out :=
  .next (match s.req? id with
    | none => { s with unitReads := s.unitReads.map fun u =>
        if u.id == id && u.answer.isNone then { u with answer := some (fate, bytesOf data) } else u }
    | some r =>
      if !s.clocked (dieOfCore r.core) then s
      else match r.answer with
      | some ws => s.deliver r ws
      | none =>
        if r.sent && r.op != .store then
          s.peerAnswer r fate fun s => match r.op with
            | .trace any => s.acceptRay r any (bytesOf (fitWords 8 data))
            | _ => s.peerValue r data
        else s)

/-- The largest VT + Skew of the stores that the cores of a core's cluster have let through or read early: releases are cumulative over the cores whose stores the core may have seen (R251, R253). -/
def State.clusterTime (s : State) (core : Nat) : Nat :=
  (List.range 4).foldl (fun m i => max m (s.core (4 * clusterOfCore core + i)).relTime) 0

/-- A store of a core's cluster has still to pass the junction (R249). -/
def State.unshared (s : State) (core : Nat) : Bool :=
  s.pend.any fun st => !st.shared && st.core.any fun c => clusterOfCore c == clusterOfCore core

/-- A store or atomic of a core's cluster to a peer awaits its acknowledgement (R263). -/
def State.unacked (s : State) (core : Nat) : Bool := s.peerStores.any fun x => clusterOfCore x.core == clusterOfCore core

/-- The release condition of an access or fence of a thread (R251): every earlier load has returned, every earlier store of the thread and every store its core let through has been accepted, and the scope's condition on junctions, times and acknowledgements holds. -/
def State.releaseMet (s : State) (gid : Nat) (w : Who) (core : Nat) (scope : Scope) (bound : Nat) : Bool :=
  let earlier := fun (r : Req) => decide (r.id < bound) && r.op != .prefetch
  let own := s.reqs.any fun r => earlier r && r.of gid w
  let core' := s.reqs.any fun r => earlier r && r.op.writes && r.core == core && r.released
  !own && !core' && (match scope with
    | .grove => !(((s.grove? gid).map fun g => g.desc.pair).getD false && s.unshared core)
    | .cluster => !s.unshared core
    | .die => decide (s.clusterTime core ≤ s.gt)
    | .device => decide (s.clusterTime core ≤ s.gt)
    | .system => decide (s.clusterTime core ≤ s.gt) && !s.unacked core
    | _ => true)

/-- A request's release condition is met, or none is asked. -/
def State.mayPerform (s : State) (r : Req) : Bool :=
  r.released || s.releaseMet r.gid r.who r.core r.scope r.id

/-- An earlier write to the line must arrive first: of the same thread, or of the same word and stand at a lower TID (R231, R245, R270). -/
def State.writeWaits (s : State) (g : Grove) (r : Req) : Bool :=
  s.reqs.any fun x => decide (x.id < r.id) && x.op.writes && vline x.va == vline r.va &&
    (x.of r.gid r.who || (x.gid == r.gid && x.pc == r.pc && !x.front && !r.front && !(g.replays && r.op.logged)))

/-- The bytes of a write reach the home: an original's are accepted (R245), a re-run's go to its shadow (R370). -/
def State.performWrite (s : State) (g : Grove) (r : Req) (home pk : Nat) (bs : List Byte) : State :=
  let off := r.va % 2 ^ 54
  let lk := lineKey home off
  if g.verify = 2 then s.modGrove g.id fun g => (g.shadowWrite r.va bs).digestWrite r.va bs
  else
    let vt := s.vtOf lk
    let s := s.accept lk (pk - off % 128) (some r.core) (atKeys pk bs)
    let s := if home = 3 then { s with mesi := tabSet 0 s.mesi (pk / 128) 3 } else s
    let s := s.noteVt g.id r.core home vt
    s.modGrove g.id fun g => g.digestWrite r.va bs

/-- A write arrives at a physical home (R230, R255, R258, R261, R262): it waits, is refused, or ok goes on with the physical key. -/
def State.writeAtHome (s : State) (g : Grove) (r : Req) (h : Nat) (ok : Nat → State → State) : State :=
  let off := r.va % 2 ^ 54
  let lk := lineKey h off
  if !s.lineOpen r lk then s.waitOwner r lk
  else match s.fate g.ctx false .store h off with
    | .ok pk _ =>
      let s := s.keepWalk h off
      if g.verify = 2 then ok pk s
      else if s.barred h (pk / 128) then s
      else match s.hostNeed h (pk / 128) true with
        | some k => s.waitHost r (pk / 128) k
        | none => ok pk s
    | f => s.turnAway r h f

/-- A store arrives at its home and is given a visibility time (R245); for a peer its fate comes with the event, and a re-run's goes to its shadow (R370). -/
def State.storeArrives (s : State) (g : Grove) (r : Req) (fate : Nat) : State :=
  if r.op != .store || !s.mayPerform r || s.writeWaits g r then s
  else match r.dest with
    | .bad => s.refuse r 0x05 0 r.va
    | .peer e =>
      if g.verify = 2 then
        let bs := bytesOf r.data
        ((s.modGrove g.id fun g => (g.shadowWrite r.va bs).digestWrite r.va bs).checkDone r).dropReq r.id
      else if r.sent then
        s.peerAnswer r fate fun s =>
          (({ s with peerStores := PeerStore.mk r.id r.core r.gid :: s.peerStores }).modGrove g.id fun g =>
            g.digestWrite r.va (bytesOf r.data)).dropReq r.id
      else s.sendPeer g r e
    | .phys h => s.writeAtHome g r h fun pk s => ((s.performWrite g r h pk (bytesOf r.data)).checkDone r).dropReq r.id

/-- STORE_ARRIVAL: a store arrives at its home (R245). -/
def execStoreArrival (id fate : Nat) (s : State) : Out :=
  .next (match s.req? id with
    | none => s
    | some r =>
      match s.grove? r.gid with
      | none => s.dropReq id
      | some g => s.storeArrives g r fate)

/-- What the log says of an atomic about to execute (R220, R223, R224): go on in the state given, or the state in which it waits or is refused. -/
def State.atomicTurn (s : State) (g : Grove) (r : Req) (arg : Nat) (go : State → State) : State :=
  if g.unlogged || !r.op.logged then go s
  else
    let rec_ := logRec 1 arg g.tag r.who.rid 0
    if g.replays then
      match s.replayTurn g.ctx g.launch rec_ with
      | .now k => go ((s.consume g.ctx g.launch k).modThread r.gid r.who fun t => { t with wait := .none })
      | .wait _ => s.modThread r.gid r.who fun t =>
          match t.wait with
          | .replay _ => t
          | _ => { t with wait := .replay s.gt }
      | .diverge k => s.refuse r 0x1A 1 k
    else
      match s.logAppend g.ctx g.launch rec_ with
      | (s, true) => go s
      | (s, false) => s.refuse r 0x13 2 0

/-- An atomic executes at its home: it reads the latest store in coherence order and writes next after it (R254, R270). -/
def State.atomicHere (s : State) (g : Grove) (r : Req) (h pk : Nat) : State :=
  if s.anyPoison pk r.size then s.refuse r 0x0D 0x100 r.va
  else s.atomicTurn g r (atomArg r.va) fun s =>
    let lk := lineKey h (r.va % 2 ^ 54)
    let old := g.overlay r.va (if g.verify = 2 then s.bytesFor (some r.core) pk r.size else s.bytesLatest pk r.size)
    let s := s.noteEarly r.core h lk true
    let s := (s.performWrite g r h pk (r.op.newBytes r.daz r.data old)).checkDone r
    if r.regs.isEmpty then s.dropReq r.id
    else s.modReq r.id fun r => { r with answer := some (wordsOf (r.size / 4) old) }

/-- A replayed atomic on the scratchpad is performed in its turn (R224, R254). -/
def State.atomicScratch (s : State) (g : Grove) (r : Req) : State :=
  let ea := r.va - 2 ^ 64
  let k := scratchKey (r.core - g.core) ea
  s.atomicTurn g r (atomScratchArg k) fun s =>
    let old := w32 (leNat (g.scratchBytes k 4))
    let s := s.modGrove g.id fun g => g.scratchWrite k (r.op.newBytes r.daz r.data (leBytes 4 old.toNat))
    (s.checkDone r).deliver r [old]

/-- A logged atomic at a peer takes its place in the log as it is sent, and none to the same word is sent before it has returned, so that the order sent is the order taken (R220, R224, log 46). -/
def State.atomicToPeer (s : State) (g : Grove) (r : Req) (entry : Nat) : State :=
  if r.sent then s
  else if s.reqs.any fun x => x.sent && x.op.logged && x.answer.isNone && x.dest == r.dest && atomArg x.va == atomArg r.va then s
  else s.atomicTurn g r (atomArg r.va) fun s => s.sendPeer g r entry

/-- An atomic arrives where it executes (R254). -/
def State.atomicArrives (s : State) (g : Grove) (r : Req) : State :=
  if !r.op.isAtomic || r.answer.isSome || !s.mayPerform r || s.writeWaits g r then s
  else if 2 ^ 64 ≤ r.va then s.atomicScratch g r
  else match r.dest with
    | .bad => s.refuse r 0x05 0 r.va
    | .peer e => s.atomicToPeer g r e
    | .phys h => s.writeAtHome g r h fun pk s => s.atomicHere g r h pk

/-- ATOMIC_AT_HOME: an atomic arrives where it executes (R254). -/
def execAtomicAtHome (id : Nat) (s : State) : Out :=
  .next (match s.req? id with
    | none => s
    | some r =>
      match s.grove? r.gid with
      | none => s.dropReq id
      | some g => s.atomicArrives g r)

/-- The stores and atomics that the host has kept waiting over a physical line arrive now, in the order in which they were sent (R262). -/
def State.heldArrive (s : State) (pline : Nat) : State :=
  ((s.reqs.filter fun r => r.atHost == some pline && r.op.writes).map Req.id).foldl (fun s id =>
    match s.req? id with
    | none => s
    | some r =>
      match s.grove? r.gid with
      | none => s
      | some g => if r.op.isAtomic then s.atomicArrives g r else s.storeArrives g r 0) s

/-- CLUSTER_JUNCTION_RELEASE: a store passes the junction to the other cores of its cluster; once GT has reached its VT the junction lets it go (R249). -/
def execClusterJunctionRelease (cluster store : Nat) (s : State) : Out :=
  .next (if !s.clocked (cluster / 32) then s
    else if s.pend.any fun st => st.id == store && !st.shared && (st.core.map clusterOfCore) == some cluster then s.passJunction store
    else { s with junction := s.junction.filter fun e => !(e.1 == cluster && e.2.1 == store && e.2.2 ≤ s.gt) })

/-- PEER_STORE_ACK: a peer acknowledges a store (R263). -/
def execPeerStoreAck (id : Nat) (s : State) : Out :=
  .next { s with peerStores := s.peerStores.filter fun x => x.id != id }

/-- SEGMENT_COMMIT: a segment whose results have returned becomes architectural, for a front thread or for a lane thread's stand (R86, R88); a halted core holds its segments (R308). -/
def execSegmentCommit (gid : Nat) (who : Option Nat) (s : State) : Out :=
  .next (match s.grove? gid, s.thread? gid who with
    | some g, some t =>
      if !s.mayRun g t.core then s
      else match who with
        | none => s.commitFront gid
        | some _ => s.commitStand gid t.team
    | _, _ => s)

/-- CXL_CACHE_RESPONSE: the host answers a request of the hub for a host line with its data (R261). -/
def execCxlCacheResponse (line : Nat) (data : List Byte) (s : State) : Out :=
  .next (match s.hostReqs.find? fun e => e.1 == line && e.2 < 3 with
    | none => s
    | some e =>
      let bytes := (List.range 128).map fun i => data.getD i 0
      let mem := if e.2 = 2 then s.mem else writeBytes s.mem (atKeys (line * 128) bytes)
      { s with
        hostReqs := s.hostReqs.erase e
        mem := mem
        mesi := tabSet 0 s.mesi line (if e.2 = 0 then 1 else 2) })

end Sys2Proof.Machine
end

