-- ==== Sys2Proof/Machine/Sync.lean ====
section
/-! DEFINITION. Synchronisation: barrier objects and their deliveries, fences, TIMEWAIT, GBAR, SSTEP, and time-outs of waits (12 R251, R256, R260, 13 R272-R281, 14 R305, 15 R317). -/

namespace Sys2Proof.Machine

/-! ### Barrier objects -/

/-- The pair a word's trap shows (R84). -/
def State.curTval (s : State) : DWord :=
  match s.cur with
  | .lane _ _ w _ => wordTval w 0 1
  | .front _ w _ => wordTval w 0 1
  | .none => 0

/-- An entry that is not allocated, of generation 0 (R274). -/
def Barrier.init : Barrier := ⟨0, false, 0, 0, 0, 0⟩

/-- DEV of a handle: the entry lies in the context's device table (R274). -/
def handleDev (h : Nat) : Bool := natBit h 19

/-- INDEX of a handle (R274). -/
def handleIndex (h : Nat) : Nat := h % 2 ^ 19

/-- Key of an entry in its table. -/
def barKey (ctx h : Nat) : Nat := if handleDev h then 4096 * ctx + handleIndex h else handleIndex h

/-- The entry a handle names in the tables of a grove, none for a stale handle (R274). -/
def State.barrier (s : State) (g : Grove) (h : Nat) : Option Barrier :=
  let b := tabGet Barrier.init (if handleDev h then s.dbars else g.bars) (barKey g.ctx h)
  if h = 0xFFFFFFFF ∨ (if handleDev h then 4096 else 32) ≤ handleIndex h then none
  else if b.live && b.gen == natBits h 31 20 then some b
  else none

/-- Replaces the entry of a handle. -/
def State.setBarrier (s : State) (g : Grove) (h : Nat) (b : Barrier) : State :=
  if handleDev h then { s with dbars := tabSet Barrier.init s.dbars (barKey g.ctx h) b }
  else s.modGrove g.id fun g => { g with bars := tabSet Barrier.init g.bars (barKey g.ctx h) b }

/-- A wait for phase p is complete once the entry counts this phase (R276). -/
def phaseDone (phase p : Nat) : Bool := (phase + 2 ^ 33 - p - 1) % 2 ^ 32 < 2 ^ 31

/-- The groves whose threads can hold a handle of a grove (R274). -/
def handleShared (g : Grove) (h : Nat) (o : Grove) : Bool := if handleDev h then o.ctx == g.ctx else o.id == g.id

/-- Updates every thread that waits on the entry of a handle. -/
def State.modWaiters (s : State) (g : Grove) (h : Nat) (f : Nat → Thread → Thread) : State :=
  let one := fun (t : Thread) =>
    match t.wait with
    | .bar h' p _ => if h' = h then f p t else t
    | _ => t
  { s with groves := s.groves.map fun o =>
      if handleShared g h o then { o.modLanes (fun _ => true) one with front := one o.front } else o }

/-- The completion test of an entry after an arrival, a delivery or a BAREXP (R276). -/
def State.barTest (s : State) (g : Grove) (h : Nat) (b : Barrier) : State :=
  if b.arr = b.count ∧ b.pend = 0 then
    let b := { b with phase := (b.phase + 1) % 2 ^ 32, arr := 0 }
    (s.setBarrier g h b).modWaiters g h fun p t => if phaseDone b.phase p then { t with wait := .none } else t
  else s.setBarrier g h b

/-- A signed 40-bit count (R274). -/
def pendOk (x : Int) : Bool := -(2 ^ 39) ≤ x && x < 2 ^ 39

/-- Bytes added to PEND of an entry, by BAREXP, or taken from it, by a delivery: the state, or the cause (R275, R276). -/
def State.barAdd (s : State) (g : Grove) (h : Nat) (x : Int) : Except Nat State :=
  match s.barrier g h with
  | none => .error 0x09
  | some b => if pendOk (b.pend + x) then .ok (s.barTest g h { b with pend := b.pend + x }) else .error 0x02

/-- A pending trap of a front thread (R178). -/
def Grove.addPending (x : PendTrap) (g : Grove) : Grove := { g with pending := g.pending ++ [x] }

/-- A delivery of bytes to an entry by a command of a grove, its word at pc and its unit relative to the grove (R276): what the delivery cannot do becomes a pending trap (R178, R274, R275). -/
def State.deliverBytes (s : State) (gid h bytes unit : Nat) (pc : Word) : State :=
  if h = 0xFFFFFFFF then s
  else
    match s.grove? gid with
    | none => s
    | some g =>
      match s.barAdd g h (-(bytes : Int)) with
      | .ok s => s
      | .error c => s.modGrove gid (Grove.addPending ⟨c, unit, if c = 9 then h else 0, pc⟩)

/-- Scope of an entry's arrivals (R277). -/
def handleScope (h : Nat) : Scope := if handleDev h then .device else .grove

/-- An arrival must wait: the thread's release at the entry's scope is not met (R277). -/
def State.arriveHeld (s : State) (g : Grove) (w : Who) (t : Thread) (h : Nat) : Bool :=
  !s.releaseMet g.id w t.core (handleScope h) s.nextId

/-- A barrier word in a thread: it arrives, or only waits, at the entry of a handle (R274, R276, R277); p is the phase a word that only waits names. -/
def State.barWord (s : State) (gid : Nat) (w : Who) (h : Nat) (arrives waits : Bool) (p : Nat) : State :=
  match s.grove? gid, s.thread? gid w with
  | some g, some t =>
    if t.txn.isOpen then s.modThread gid w (Thread.abortTxn 3)
    else
      match s.barrier g h with
      | none => s.trapWho gid w 0x09 0 h
      | some b =>
        if arrives && b.arr == b.count then s.modThread gid w (Thread.fail 0x02 0 s.curTval)
        else
          let p := if arrives then b.phase else p
          let s := if arrives then s.barTest g h { b with arr := b.arr + 1 } else s
          let now := match (s.grove? gid).bind fun g => s.barrier g h with
            | some b => b.phase
            | none => b.phase
          if waits && !phaseDone now p then s.modThread gid w fun t => { t with wait := .bar h p s.gt } else s
  | _, _ => s

/-- A lane barrier word (R276). -/
def laneBar (sh : Shape) (j : Nat) (arrives waits : Bool) (p : Thread → Nat) (s : State) : Out :=
  laneIssue sh
    (fun s g stand on => standHeld s g stand on || arrives && on.any fun t => !t.txn.isOpen && s.arriveHeld g (some t.tid) t (t.reg j).toNat)
    (fun gid tid s => match s.thread? gid (some tid) with
      | some t => s.barWord gid (some tid) (t.reg j).toNat arrives waits (p t)
      | none => s) s

/-- BAR (R276). -/
def execBar (h : Hdr) (j : Fin 64) (s : State) : Out := laneBar (wordShape h true 0 (v1 j)) j.val true true (fun _ => 0) s
/-- BARA (R276). -/
def execBara (h : Hdr) (j : Fin 64) (s : State) : Out := laneBar (wordShape h false 0 (v1 j)) j.val true false (fun _ => 0) s
/-- BARW (R276). -/
def execBarw (h : Hdr) (j p : Fin 64) (s : State) : Out :=
  laneBar (wordShape h true 0 (v1 j ++ v1 p)) j.val false true (fun t => (t.reg p.val).toNat) s

/-- A uniform barrier word (R276). -/
def uniBar (sh : Shape) (j : Nat) (arrives waits : Bool) (p : Thread → Nat) (s : State) : Out :=
  uniIssue sh false
    (fun s g => !g.front.checked || arrives && s.arriveHeld g none g.front (g.front.reg j).toNat)
    (fun gid s => match s.thread? gid none with
      | some t => s.barWord gid none (t.reg j).toNat arrives waits (p t)
      | none => s) s

/-- SBAR (R276). -/
def execSbar (h : Hdr) (j : Fin 32) (w : SbarArg) (s : State) : Out :=
  match w with
  | .arrive => uniBar (wordShape h true 0 []) j.val true true (fun _ => 0) s
  | .wait p => uniBar (wordShape h true 0 []) j.val false true (fun t => (t.reg p.val).toNat) s
/-- SBARA (R276). -/
def execSbara (h : Hdr) (j : Fin 32) (s : State) : Out := uniBar (wordShape h false 0 []) j.val true false (fun _ => 0) s

/-- The lowest entry from k that is not LIVE, of n more. -/
def freeBar (l : List (Nat × Barrier)) (base : Nat) : Nat → Nat → Option Nat
  | 0, _ => none
  | n + 1, k => if (tabGet Barrier.init l (base + k)).live then freeBar l base n (k + 1) else some k

/-- BARNEW in the front thread (R275): the state and the handle. -/
def State.barNew (s : State) (g : Grove) (dev : Bool) (count : Nat) : State × Nat :=
  let base := if dev then 4096 * g.ctx else 0
  let l := if dev then s.dbars else g.bars
  match freeBar l base (if dev then 4096 else 32) 0 with
  | none => (s, 0xFFFFFFFF)
  | some k =>
    let gen := (tabGet Barrier.init l (base + k)).gen
    let h := 2 ^ 20 * gen + 2 ^ 19 * b2n dev + k
    (s.setBarrier g h ⟨gen, true, count, 0, 0, 0⟩, h)

/-- BARNEW (R275). -/
def execBarnew (h : Hdr) (d c : Fin 32) (v : Bool) (s : State) : Out :=
  uniIssue (wordShape h false 1 []) false (fun _ g => !g.front.checked)
    (fun gid s => match s.grove? gid with
      | none => s
      | some g =>
        let n := (g.front.reg c.val).toNat
        if n = 0 ∨ 2 ^ 20 < n then s.modThread gid none (Thread.fail 0x02 0 s.curTval)
        else
          let r := s.barNew g v n
          r.1.modThread gid none (Thread.put false (wr d.val (w32 r.2)))) s

/-- BARFREE (R275): the entry's waiting threads trap BARRIER_STALE. -/
def State.barFree (s : State) (gid h : Nat) : State :=
  match s.grove? gid with
  | none => s
  | some g =>
    match s.barrier g h with
    | none => s.trapWho gid none 0x09 0 h
    | some b =>
      (s.setBarrier g h { b with live := false, gen := (b.gen + 1) % 4096 }).modWaiters g h
        fun _ t => t.trap 0x09 0 false (BitVec.ofNat 64 h)

/-- BARFREE (R275). -/
def execBarfree (h : Hdr) (j : Fin 32) (s : State) : Out :=
  uniIssue (wordShape h false 0 []) false (fun _ g => !g.front.checked)
    (fun gid s => match s.thread? gid none with
      | some t => s.barFree gid (t.reg j.val).toNat
      | none => s) s

/-- BAREXP (R275). -/
def execBarexp (h : Hdr) (j b : Fin 32) (s : State) : Out :=
  uniIssue (wordShape h false 0 []) false (fun _ g => !g.front.checked)
    (fun gid s => match s.grove? gid with
      | none => s
      | some g =>
        let x := (g.front.reg j.val).toNat
        match s.barAdd g x (g.front.reg b.val).toNat with
        | .ok s => s
        | .error c =>
          if c = 9 then s.trapWho gid none 0x09 0 x else s.modThread gid none (Thread.fail 0x02 0 s.curTval)) s

/-! ### Fences, TIMEWAIT -/

/-- A fence in a thread: one with a release waits until that is performed (R251, R272). -/
def Thread.fence (p : Scope) (r : Order) (t : Thread) : Thread :=
  if t.txn.isOpen then t.abortTxn 3 else if releases r then { t with wait := .fence p } else t

/-- FENCE (R272). -/
def execFence (h : Hdr) (p : Scope) (r : Order) (s : State) : Out :=
  laneIssue (wordShape h true 0 []) standHeld (fun gid tid s => s.modThread gid (some tid) (Thread.fence p r)) s
/-- SFENCE (R272). -/
def execSfence (h : Hdr) (p : Scope) (r : Order) (s : State) : Out :=
  uniIssue (wordShape h true 0 []) false (fun _ g => !g.front.checked) (fun gid s => s.modThread gid none (Thread.fence p r)) s

/-- TIMEWAIT (R273). -/
def execTimewait (h : Hdr) (a : Fin 32) (x : Bool) (s : State) : Out :=
  uniIssue (wordShape h true 0 (s2 a)) false (fun _ _ => false)
    (fun gid s => s.modThread gid none fun t =>
      let v := (t.pair a.val).toNat
      let deadline := if x then (s.gt + v) % 2 ^ 64 else v
      if deadline ≤ s.gt % 2 ^ 64 then t else { t with wait := .until deadline }) s

/-- TIMEWAIT_DEADLINE: a front thread's deadline has come (R273). -/
def execTimewaitDeadline (gid : Nat) (s : State) : Out :=
  .next (s.modThread gid none fun t =>
    match t.wait with
    | .until d => if d ≤ s.gt % 2 ^ 64 then { t with wait := .none } else t
    | _ => t)

/-! ### GBAR and SSTEP -/

/-- GBAR in a thread (R317); one that a time-out left waits for its phase again. -/
def State.gbar (s : State) (gid tid : Nat) : State :=
  match s.grove? gid, s.thread? gid (some tid) with
  | some g, some t =>
    if !g.desc.cogrid || t.seedling || g.node then s.trapWho gid (some tid) 0x11 0 0
    else if t.txn.isOpen then s.modThread gid (some tid) (Thread.abortTxn 3)
    else
      let back := t.again == some t.wordPc
      (s.modThread gid (some tid) fun t =>
        if back then { t with again := none, wait := .gbar t.gbars s.gt }
        else { t with gbars := t.gbars + 1, wait := .gbar (t.gbars + 1) s.gt }).gbarWake g.launch
  | _, _ => s

/-- GBAR (R317). -/
def execGbar (h : Hdr) (s : State) : Out :=
  laneIssue (wordShape h true 0 [])
    (fun s g stand on => standHeld s g stand on || g.desc.cogrid && on.any fun t => !t.txn.isOpen && !s.releaseMet g.id (some t.tid) t.core .device s.nextId)
    (fun gid tid s => s.gbar gid tid) s

/-- SSTEP (R260, R281): the front thread begins to wait; one that a time-out left goes back to its step. -/
def execSstep (h : Hdr) (s : State) : Out :=
  uniIssue (wordShape h true 0 []) false (fun _ g => !g.front.checked)
    (fun gid s => match s.grove? gid with
      | none => s
      | some g =>
        s.modThread gid none fun t =>
          if !g.desc.superstep then t.fail 0x02 0 s.curTval
          else if t.again = some t.wordPc then { t with again := none, wait := .sstep t.ssteps (t.arrived == t.ssteps) s.gt }
          else { t with ssteps := t.ssteps + 1, wait := .sstep (t.ssteps + 1) false s.gt }) s

/-- A front thread may arrive at SSTEP (R260, R281): its engine commands, MSQ and loads are done, and its release of system scope is met. -/
def State.sstepReady (s : State) (g : Grove) : Bool :=
  !(s.cmds.any fun c => c.gid == g.id) && g.msq.isNone && g.loads.isEmpty && !(s.beams.any fun b => b.gid == g.id) &&
    s.releaseMet g.id none g.front.core .system s.nextId

/-- The groves of a launch number this many (R29). -/
def Desc.size (d : Desc) : Nat := d.ngx * d.ngy * d.ngz

/-- Every grove of the grid has arrived at its k-th SSTEP or has retired, and GT has reached the step's release time, the largest VT + Δ of the stores before its arrivals (R260, log 25). -/
def State.sstepDone (s : State) (g : Grove) (k : Nat) : Bool :=
  (match s.launches.find? fun l => l.id == g.launch with
    | some l => decide (l.next = g.desc.size)
    | none => true) &&
  (s.gridPeers g).all fun o => decide (k ≤ o.front.arrived ∧ (o.front.arrived = k → o.front.arriveGt ≤ s.gt))

/-- SSTEP_RELEASE: the front threads of a grid leave a step (R260). -/
def execSstepRelease (gid : Nat) (s : State) : Out :=
  .next (match s.grove? gid with
    | none => s
    | some g =>
      match g.front.wait with
      | .sstep k true _ =>
        if s.sstepDone g k then
          let peers := (s.gridPeers g).map Grove.id
          { s with groves := s.groves.map fun o =>
              if peers.contains o.id && (match o.front.wait with
                | .sstep j true _ => j == k
                | _ => false) then { o with front := { o.front with wait := .none } } else o }
        else s
      | _ => s)

/-! ### Time-outs -/

/-- The barrier time-out of a context in ticks (R305, R328). -/
def State.bto (s : State) (ctx : Nat) : Nat := 1000 * ((s.csrRaw ctx 7).toNat % 2 ^ 28)

/-- What a wait of R305 waits on: KIND, WHAT, and what tells instances of one kind apart. -/
structure Inst where
  kind : Nat
  what : Nat
  key : List Nat
  since : Nat
  deriving DecidableEq, Repr

/-- The instance a thread waits on (R305). -/
def Grove.instOf (g : Grove) (t : Thread) : Option Inst :=
  match t.wait with
  | .bar h p since => some ⟨if handleDev h then 2 else 1, h, if handleDev h then [g.ctx, p] else [g.id, p], since⟩
  | .gather _ _ since => some ⟨3, t.wordPc.toNat, [g.id, t.strand], since⟩
  | .gbar k since => some ⟨4, t.wordPc.toNat, [g.launch, k], since⟩
  | .sstep k _ since => some ⟨5, t.wordPc.toNat, [g.launch, k], since⟩
  | _ => none

/-- Two waits on one instance: GBAR and SSTEP of one phase may stand at different words. -/
def Inst.same (x y : Inst) : Bool := x.kind == y.kind && x.key == y.key && (4 ≤ x.kind || x.what == y.what)

/-- The threads of a grove, the front last. -/
def Grove.threads (g : Grove) : List (Who × Thread) := g.lanes.map (fun t => (some t.tid, t)) ++ [(none, g.front)]

/-- The threads of the device that wait on an instance; those of a gathering that has formed complete with it and wait no longer (R149). -/
def State.waiters (s : State) (x : Inst) : List (Grove × Who × Thread) :=
  s.groves.flatMap fun g => (g.threads.filter fun e => match g.instOf e.2 with
    | some y => x.same y && (g.gatheringOf e.2).isNone
    | none => false).map fun e => (g, e.1, e.2)

/-- The threads among which the missing ones of an instance are sought (R305). -/
def State.candidates (s : State) (x : Inst) (ws : List (Grove × Who × Thread)) : List (Grove × Who × Thread) :=
  let all := fun (g : Grove) => g.threads.map fun e => (g, e.1, e.2)
  match x.kind with
  | 3 => ws.head?.toList.flatMap fun e => (e.1.participants e.2.2).map fun t => (e.1, some t.tid, t)
  | 4 => ws.head?.toList.flatMap fun e => (s.gridPeers e.1).flatMap all
  | 5 => ws.head?.toList.flatMap fun e => (s.gridPeers e.1).map fun g => (g, none, g.front)
  | _ => (s.groves.filter fun g => ws.any fun e => e.1.id == g.id).flatMap all

/-- Insertion into a list sorted by key. -/
def insertBy (k : Nat) (v : Nat) : List (Nat × Nat) → List (Nat × Nat)
  | [] => [(k, v)]
  | (j, x) :: r => if k < j then (k, v) :: (j, x) :: r else (j, x) :: insertBy k v r

/-- The word address of a thread: of the word it waits at, or of its next. -/
def Thread.at (t : Thread) : Word := if t.waiting then t.wordPc else t.now.pc

/-- The entries of missing threads in ascending (CORE, SLOT, TID) (R305). -/
def missingEntries (l : List (Grove × Who × Thread)) : List Nat :=
  (l.foldl (fun acc e =>
    let t := e.2.2
    let k := packBits [(8, t.core), (2, e.1.slot), (12, e.2.1.rid)]
    insertBy k (packBits [(1, b2n (t.life == .parked)), (8, t.core), (2, e.1.slot), (12, e.2.1.rid), (32, t.at.toNat)]) acc) []).map Prod.snd

/-- The 528 bytes of a record of R305. -/
def timeoutRecord (x : Inst) (gt : Nat) (es : List Nat) : List Byte :=
  leBytes 16 (packBits [(64, gt % 2 ^ 64), (32, x.what), (15, 0), (1, b2n (64 < es.length)), (8, min 64 es.length), (8, x.kind)]) ++
    (List.range 64).flatMap fun i => leBytes 8 (es.getD i 0)

/-- A time-out in a waiting thread (R305, R317). -/
def Thread.timeOut (kind : Nat) (addr : Nat) (t : Thread) : Thread :=
  let t' := t.trap 0x0A kind false (BitVec.ofNat 64 addr)
  if 4 ≤ kind then { t' with again := some t.wordPc } else t'

/-- BARRIER_TIMEOUT: an instance a thread waits on has outlasted the time-out (R305). -/
def execBarrierTimeout (gid : Nat) (who : Option Nat) (s : State) : Out :=
  .next (match s.grove? gid, s.thread? gid who with
    | some g, some t =>
      match g.instOf t with
      | none => s
      | some x =>
        let ws := s.waiters x
        let since := ws.foldl (fun m e => match e.1.instOf e.2.2 with
          | some y => min m y.since
          | none => m) x.since
        if (s.ctx g.ctx).halted || s.gt < since + s.bto g.ctx || (g.gatheringOf t).isSome then s
        else
          let isWaiting := fun (e : Grove × Who × Thread) => ws.any fun w => w.1.id == e.1.id && w.2.1 == e.2.1
          let missing := (s.candidates x ws).filter fun e => e.2.2.alive && !isWaiting e
          let r := s.writeDiag g.ctx (timeoutRecord x s.gt (missingEntries missing))
          ws.foldl (fun s e => s.modThread e.1.id e.2.1 (Thread.timeOut x.kind r.2)) r.1
    | _, _ => s)

/-- The index of the record a replayed choice of a thread waits for (R224). -/
def State.awaited (s : State) (g : Grove) (rec_ : Nat) : Nat :=
  match s.replayTurn g.ctx g.launch rec_ with
  | .now k => k
  | .wait k => k
  | .diverge k => k

/-- The record an atomic request of a replayed launch consumes (R222). -/
def Req.record (g : Grove) (r : Req) : Nat :=
  logRec 1 (if 2 ^ 64 ≤ r.va then atomScratchArg (scratchKey (r.core - g.core) (r.va - 2 ^ 64)) else atomArg r.va) g.tag r.who.rid 0

/-- REPLAY_WAIT_TIMEOUT: a wait for a record has outlasted the time-out (R224). -/
def execReplayWaitTimeout (gid : Nat) (who : Option Nat) (s : State) : Out :=
  .next (match s.grove? gid, s.thread? gid who with
    | some g, some t =>
      match t.wait with
      | .replay since =>
        if (s.ctx g.ctx).halted || s.gt < since + s.bto g.ctx then s
        else if t.txn.isOpen then s.trapWho gid who 0x1A 2 (s.awaited g (logRec 2 0 g.tag (who.getD 0xFFF) 0))
        else
          match s.reqs.find? fun r => r.of gid who && r.op.isAtomic && r.answer.isNone with
          | some r => s.refuse r 0x1A 2 (s.awaited g (r.record g))
          | none => s
      | _ => s
    | _, _ => s)

end Sys2Proof.Machine
end

