-- ==== Sys2Proof/Machine/Txn.lean ====
section
/-! DEFINITION. Transactions, the serial token, and releases performed (12 R251, R257-R260, 13 R278-R280, 10 R224). -/

namespace Sys2Proof.Machine

/-- A transaction opens (R257, R279). -/
def Txn.start (serial : Bool) (target : Word) (x : Txn) : Txn :=
  { x with isOpen := true, serial := serial, target := target, reads := [], wlines := [], buf := [] }

/-- TBEGIN in a thread (R279): an open transaction aborts; after eight conflicts the thread waits for the serial token, but not in REPLAY (R259). -/
def Thread.tbegin (g : Grove) (o : Fin 524288) (t : Thread) : Thread :=
  if t.txn.isOpen then t.abortTxn 3
  else if t.txn.nconf = 8 ∧ g.replays = false then
    { t with txn := { t.txn with target := t.target o }, wait := .serial }
  else { t with txn := t.txn.start false (t.target o) }

/-- TBEGIN (R278, R279). -/
def execTbegin (h : Hdr) (o : Fin 524288) (s : State) : Out :=
  laneIssue (wordShape h true 0 []) standHeld
    (fun gid tid s => match s.grove? gid with
      | some g => s.modThread gid (some tid) (Thread.tbegin g o)
      | none => s) s

/-- TABORT (R279): with no open transaction it has no effect. -/
def execTabort (h : Hdr) (c : Fin 256) (s : State) : Out :=
  laneIssue (wordShape h true 0 []) standHeld
    (fun gid tid s => s.modThread gid (some tid) fun t =>
      if t.txn.isOpen then { t with txn := { t.txn with code := c.val } }.abortTxn 4 else t) s

/-- The lines of a thread's transaction that it writes meet those another reads or writes (R259). -/
def meets (x y : Thread) : Bool := x.txn.wlines.any fun l => y.txn.wlines.contains l || (y.txn.reads.map Prod.fst).contains l

/-- The thread loses to a lower lane of its strand that issues TEND in the same stand (R259); a serial attempt does not. -/
def losesTo (on : List Thread) (t : Thread) : Bool :=
  !t.txn.serial && on.any fun u => u.strand == t.strand && u.lane < t.lane && u.txn.isOpen && (meets u t || meets t u)

/-- TEND (R279): the threads of the stand are compared (R259); each waits for its release, after which those that lose abort and the others commit (R258). -/
def execTend (h : Hdr) (s : State) : Out :=
  let on := match s.cur with
    | .lane gid stand _ _ => ((s.grove? gid).map fun g => (g.lanes.filter (Thread.issuing stand)).filter fun t => t.guard h).getD []
    | _ => []
  laneIssue (wordShape h true 0 []) standHeld
    (fun gid tid s => s.modThread gid (some tid) fun t =>
      if !t.txn.isOpen then t.fail 0x02 0 s.curTval
      else { t with wait := .tend (losesTo on t) }) s

/-- The home and offset of a line of a transaction. -/
def lineHome (s : State) (ctx vl : Nat) : Nat × Nat :=
  match s.homeOf ctx (vl * 128) with
  | .phys h => (h, vl * 128 % 2 ^ 54)
  | _ => (0, 0)

/-- What the homes answer to a commit (R258): another access holds a line and the commit waits; the host must answer first; a line is locked or has changed; a store is refused; or all lines can be locked, at Vc. -/
inductive Verdict where
  | wait | ask (pline kind : Nat) | conflict | refused (cause detail va : Nat) | go (vc : Nat)
  deriving DecidableEq, Repr

/-- The lines of a transaction. -/
def Txn.lines (x : Txn) : List Nat := (x.reads.map Prod.fst ++ x.wlines).dedup

/-- The home's answer for one line of a commit (R255, R258, R259). -/
def State.lineVerdict (s : State) (g : Grove) (t : Thread) (who : Nat) (vl : Nat) : Verdict :=
  let (h, off) := lineHome s g.ctx vl
  let lk := lineKey h off
  let l := s.line lk
  if l.owner.isSome then .wait
  else if l.lock.isSome && l.lock != some (g.id, who) then (if t.txn.serial then .wait else .conflict)
  else if !t.txn.serial && t.txn.reads.any fun e => e.1 == vl && e.2 != l.last then .conflict
  else if t.txn.wlines.contains vl then
    match s.fate g.ctx false .store h off with
    | .ok pk _ =>
      match s.hostNeed h (pk / 128) true with
      | some k => .ask (pk / 128) k
      | none => .go (max s.gt (max l.h l.p) + 1)
    | .protection => .refused 0x06 1 (vl * 128)
    | _ => .refused 0x07 0 (vl * 128)
  else .go (max s.gt (max l.h l.p) + 1)

/-- The answers of two lines together: a conflict outweighs a refusal, a refusal a wait. -/
def Verdict.and : Verdict → Verdict → Verdict
  | .conflict, _ => .conflict
  | _, .conflict => .conflict
  | .refused c d v, _ => .refused c d v
  | _, .refused c d v => .refused c d v
  | .wait, _ => .wait
  | _, .wait => .wait
  | .ask p k, _ => .ask p k
  | _, .ask p k => .ask p k
  | .go x, .go y => .go (max x y)

/-- The answer to a commit (R258): Vc is Δ later when the lines lie on both dies. -/
def State.verdict (s : State) (g : Grove) (t : Thread) (who : Nat) : Verdict :=
  let ls := t.txn.lines
  match ls.foldl (fun v l => v.and (s.lineVerdict g t who l)) (Verdict.go s.gt) with
  | .go v =>
    let homes := ls.map fun l => (lineHome s g.ctx l).1
    .go (if homes.contains 0 && homes.contains 1 then v + delta else v)
  | v => v

/-- One line of a commit is locked, and its buffered bytes accepted with VT = Vc (R258). -/
def State.commitLine (s : State) (g : Grove) (t : Thread) (who vc vl : Nat) : State :=
  let (h, off) := lineHome s g.ctx vl
  let lk := lineKey h off
  let s :=
    if t.txn.wlines.contains vl then
      match s.fate g.ctx false .store h off with
      | .ok pk _ =>
        let bytes := (t.txn.buf.filter fun e => vline e.1 == vl).map fun e => (pk + e.1 % 128, e.2)
        ((s.keepWalk h off).acceptAt lk pk (some t.core) bytes vc).noteVt g.id t.core h vc
      | _ => s
    else s
  s.setLine lk { s.line lk with lock := some (g.id, who), lockUntil := some vc }

/-- The words a transaction has buffered, at their addresses. -/
def Txn.words (x : Txn) : List (Nat × List Byte) :=
  (x.buf.filter fun e => e.1 % 4 == 0).map fun e => (e.1, (List.range 4).map fun i => (x.buf.lookup (e.1 + i)).getD 0)

/-- A commit takes effect (R258); a re-run's goes to its shadow (R370). -/
def State.commitTxn (s : State) (g : Grove) (t : Thread) (w : Who) (vc : Nat) : State :=
  let ws := t.txn.words
  let s :=
    if g.verify = 2 then s.modGrove g.id fun g => ws.foldl (fun g e => (g.shadowWrite e.1 e.2).digestWrite e.1 e.2) g
    else (t.txn.lines.foldl (fun s l => s.commitLine g t w.rid vc l) s).modGrove g.id fun g => ws.foldl (fun g e => g.digestWrite e.1 e.2) g
  s.modThread g.id w fun t => { t with wait := .commit vc }

/-- A commit that fails validation aborts with CONFLICT (R258). -/
def Thread.conflict (t : Thread) : Thread := t.abortTxn 1

/-- The commit of a thread at TEND whose release is performed (R224, R258): in its turn of a replayed log, it validates, is logged, and takes effect. -/
def State.tryCommit (s : State) (g : Grove) (t : Thread) (w : Who) : State :=
  let rec_ := logRec 2 0 g.tag w.rid 0
  let validate := fun (s : State) (logged : State → State × Bool) =>
    match s.verdict g t w.rid with
    | .wait => s
    | .ask p k => s.askHost p k
    | .conflict => s.modThread g.id w Thread.conflict
    | .refused c d v => s.trapWho g.id w c d v
    | .go vc =>
      match logged s with
      | (s, true) => s.commitTxn g t w vc
      | (s, false) => s.trapWho g.id w 0x13 2 0
  if g.unlogged then validate s fun s => (s, true)
  else if g.replays then
    match s.replayTurn g.ctx g.launch rec_ with
    | .now k => validate s fun s => (s.consume g.ctx g.launch k, true)
    | .wait _ => s.modThread g.id w fun t =>
        match t.wait with
        | .replay _ => t
        | _ => { t with wait := .replay s.gt }
    | .diverge k => s.trapWho g.id w 0x1A 1 k
  else validate s fun s => s.logAppend g.ctx g.launch rec_

/-- The largest VT of the stores that may happen before what a core does now: those its cluster's cores have let through or read (R253, R260, log 25). -/
def State.storesBefore (s : State) (core : Nat) : Nat :=
  (List.range 4).foldl (fun m i => max m (s.core (4 * clusterOfCore core + i)).lastVt) 0

/-- A front thread whose SSTEP conditions hold arrives, with the release time its stores give the step (R260). -/
def State.sstepArrive (s : State) (g : Grove) (k since : Nat) : State :=
  if s.sstepReady g then
    s.modThread g.id none fun t => { t with arrived := k, arriveGt := s.storesBefore g.front.core + delta, wait := .sstep k true since }
  else s

/-- RELEASE_PERFORMED: the release a thread's access, fence, TEND or SSTEP waits for is performed (R251, R258, R260). -/
def execReleasePerformed (gid : Nat) (who : Option Nat) (s : State) : Out :=
  .next (match s.grove? gid, s.thread? gid who with
    | some g, some t =>
      let met := fun (r : Req) => r.of gid who && !r.released && s.releaseMet gid who r.core r.scope r.id
      let s := { s with reqs := s.reqs.map fun (r : Req) => if met r then { r with released := true } else r }
      match t.wait with
      | .fence p =>
        if s.releaseMet gid who t.core p s.nextId then s.modThread gid who fun t => { t with wait := .none } else s
      | .tend loses =>
        if !s.releaseMet gid who t.core .device s.nextId then s
        else if loses then s.modThread gid who Thread.conflict
        else s.tryCommit g t who
      | .replay _ => if t.txn.isOpen then s.tryCommit g t who else s
      | .sstep k false since => s.sstepArrive g k since
      | _ => s
    | _, _ => s)

/-- SERIAL_TOKEN_GRANT: the device's serial token goes to a thread that waits at TBEGIN (R259). -/
def execSerialTokenGrant (gid tid : Nat) (s : State) : Out :=
  .next (match s.thread? gid (some tid) with
    | some t =>
      if t.wait == .serial && s.serial.isNone then
        ({ s with serial := some (gid, tid) }).modThread gid (some tid) fun t =>
          { t with txn := t.txn.start true t.txn.target, wait := .none }
      else s
    | none => s)

/-- TXN_LINE_UNLOCK: the home's time has reached Vc (R258). -/
def execTxnLineUnlock (line : Nat) (s : State) : Out :=
  .next (match (s.line line).lockUntil with
    | some v => if v ≤ s.gt then s.setLine line { s.line line with lock := none, lockUntil := none } else s
    | none => s)

/-- TXN_COMMIT_COMPLETE: the committing thread goes on at GT ≥ Vc + Δ (R258, R259). -/
def execTxnCommitComplete (gid tid : Nat) (s : State) : Out :=
  .next (match s.thread? gid (some tid) with
    | some t =>
      match t.wait with
      | .commit vc =>
        if vc + delta ≤ s.gt then
          ((s.modThread gid (some tid) fun t =>
            { t with
              wait := .none
              txn := { t.txn with isOpen := false, nconf := 0, reads := [], wlines := [], buf := [] } }).unlockAll gid tid).freeSerial
            gid (some tid)
        else s
      | _ => s
    | none => s)

end Sys2Proof.Machine
end

