-- ==== Sys2Proof/Machine/Seeds.lean ====
section
/-! DEFINITION. Seeds, seedbeds and seedling stands, and the posting of continuation records (02 R40-R48, 10 R221-R224, 15 R319, R320). -/

namespace Sys2Proof.Machine

/-! ### Seedbeds -/

/-- The seedbed of an entry (R40). -/
def seedbedOf (w : Word) : Nat := ((w ^^^ (w >>> 4) ^^^ (w >>> 8) ^^^ (w >>> 12)).toNat) % 16

/-- Seed keys (R221): of SPAWN, of a traced ray's seed, of an atlas request. -/
def spawnKey (tid ord : Nat) : Nat := packBits [(4, 0), (32, tid), (32, ord), (32, 0)]
/-- Key of a hit or miss seed. -/
def traceKey (tid ord rank : Nat) : Nat := packBits [(4, 1), (32, tid), (32, ord), (32, rank)]
/-- Key of an atlas request seed. -/
def atlasKey (ord pos : Nat) : Nat := packBits [(4, 2), (32, ord), (32, pos), (32, 0)]

/-- The context of a grove. -/
def State.ctxOf (s : State) (gid : Nat) : Nat := ((s.grove? gid).map Grove.ctx).getD 64

/-- The seeds of a context in a bed of a core (R40, R333). -/
def State.bedCount (s : State) (core bed ctx : Nat) : Nat :=
  ((s.core core).seeds.filter fun x => x.bed == bed && s.ctxOf x.gid == ctx).length

/-- The key of a grove's timer in a bed. -/
def timerKey (gid bed : Nat) : Nat := 16 * gid + bed

/-- CYC of a core's die. -/
def State.cycOf (s : State) (core : Nat) : Nat := tabGet 0 s.hub.cyc (dieOfCore core)

/-- A core has reported a grove's context halted, and has not resumed: the grove's timers there hold what they have still to run (R52, R308). -/
def State.stopped (s : State) (g : Grove) (core : Nat) : Bool := !g.realtime && (s.ctx g.ctx).reported.contains core

/-- Starts a grove's timer in a bed afresh while the bed holds a seed of it, and drops it otherwise (R41). -/
def State.setTimer (s : State) (g : Grove) (core bed : Nat) : State :=
  let v := if s.stopped g core then g.desc.seedt else s.cycOf core + g.desc.seedt
  s.modCore core fun c =>
    let rest := c.timers.filter fun e => e.1 != timerKey g.id bed
    { c with timers := if c.seeds.any fun x => x.gid == g.id && x.bed == bed then (timerKey g.id bed, v) :: rest else rest }

/-- Plants a seed of a grove in the bed of its entry on a core (R40, R41). -/
def State.plant (s : State) (g : Grove) (core : Nat) (entry : Word) (args : List (Nat × Word)) (key : Nat) : State :=
  let bed := seedbedOf entry
  let first := !(s.core core).seeds.any fun x => x.gid == g.id && x.bed == bed
  let s := { s with nextId := s.nextId + 1 }
  let s := s.modCore core fun c => { c with seeds := c.seeds ++ [⟨bed, g.id, entry, args, s.nextId, key⟩] }
  if first then s.setTimer g core bed else s

/-- Four registers as argument words. -/
def argWords (ws : List Word) : List (Nat × Word) := (List.range ws.length).zip ws

/-- SPAWN in a thread (R319). -/
def State.spawn (s : State) (gid tid : Nat) (e a : Nat) : State :=
  let w : Who := some tid
  match s.grove? gid, s.thread? gid w with
  | some g, some t =>
    if g.desc.seedl = 0 then s.modThread gid w (Thread.fail 0x02 0 s.curTval)
    else if t.txn.isOpen then s.modThread gid w (Thread.abortTxn 3)
    else
      let entry := t.reg e
      if 256 ≤ s.bedCount t.core (seedbedOf entry) g.ctx then s.trapWho gid w 0x12 (seedbedOf entry) entry.toNat
      else
        (s.plant g t.core entry (argWords (t.group a 4)) (spawnKey tid t.spawnOrd)).modThread gid w fun t =>
          { t with spawnOrd := t.spawnOrd + 1 }
  | _, _ => s

/-- Some thread of a list has a release of a scope still to make (R44, R47). -/
def anyUnreleased (p : Scope) (s : State) (g : Grove) (stand : Nat) (on : List Thread) : Bool :=
  standHeld s g stand on || on.any fun t => !t.txn.isOpen && !s.releaseMet g.id (some t.tid) t.core p s.nextId

/-- SPAWN (R319): its thread's earlier stores are released at grove scope (R44). -/
def execSpawn (h : Hdr) (e a : Fin 64) (s : State) : Out :=
  laneIssue (wordShape h false 0 (v1 e ++ vGroup a 4)) (anyUnreleased .grove) (fun gid tid s => s.spawn gid tid e.val a.val) s

/-! ### Seedling stands -/

/-- The thread is quiescent (R42). -/
def Thread.quiet (t : Thread) : Bool :=
  match t.life with
  | .run =>
    match t.wait with
    | .bar .. => true
    | .gather .. => true
    | .gbar .. => true
    | .dqpop _ => true
    | .issue true => true
    | .sstep .. => true
    | _ => false
  | _ => true

/-- The grove waits for its seeds in LOGGED and REPLAY launches, and in the re-runs of their groves (R221, R369). -/
def Grove.orderly (g : Grove) : Bool := g.desc.mode != 0

/-- Held seeds a BTE could plant but for room (R221). -/
def heldNow (gt : Nat) (l : List Held) : Bool := !l.isEmpty && l.all fun h => h.ready ≤ gt

/-- The grove quiesces (R42, R221). -/
def State.quiesced (s : State) (g : Grove) : Bool :=
  g.threads.all (fun e => e.2.quiet) &&
  (if g.orderly then
    (s.rays.all fun r => r.gid != g.id || r.traced && heldNow s.gt r.plant) &&
      s.beams.all fun b => b.gid != g.id || b.traced && b.req && heldNow s.gt b.plant
  else !s.bteBusy g.id)

/-- The cores of a grove. -/
def Grove.cores (g : Grove) : List Nat := if g.desc.pair then [g.core, g.core + 1] else [g.core]

/-- A held seed as it would stand in its bed, after every planted one. -/
def Held.seed (gid : Nat) (h : Held) : Seed := ⟨seedbedOf h.entry, gid, h.entry, h.args, 2 ^ 64, h.key⟩

/-- The seeds of a grove with their cores: those planted, and in orderly groves those a BTE holds (R221). -/
def State.seedsOf (s : State) (g : Grove) : List (Nat × Seed) :=
  (g.cores.flatMap fun c => ((s.core c).seeds.filter fun x => x.gid == g.id).map fun x => (c, x)) ++
  (if g.orderly then
    ((s.rays.filter fun r => r.gid == g.id).flatMap fun r => r.plant.map fun h => (r.core, h.seed g.id)) ++
    ((s.beams.filter fun b => b.gid == g.id).flatMap fun b => b.plant.map fun h => (b.core, h.seed g.id))
  else [])

/-- Inserts a seed by rank. -/
def rankIn (f : Nat × Seed → Nat) (x : Nat × Seed) : List (Nat × Seed) → List (Nat × Seed)
  | [] => [x]
  | y :: r => if f x < f y then x :: y :: r else y :: rankIn f x r

/-- Seeds by rank. -/
def ranked (f : Nat × Seed → Nat) (l : List (Nat × Seed)) : List (Nat × Seed) := l.foldl (fun acc x => rankIn f x acc) []

/-- The order in which a grove's seeds launch at quiescence: by entry and key in orderly groves (R221), oldest first elsewhere (R41). -/
def seedRank (orderly : Bool) (x : Nat × Seed) : Nat := if orderly then x.2.entry.toNat * 2 ^ 100 + x.2.key else x.2.born

/-- The lowest seedling strand of a grove that is free (R43), from index k. -/
def Grove.freeStrandFrom (g : Grove) : Nat → Nat → Option Nat
  | 0, _ => none
  | n + 1, k =>
    if g.lanes.all fun t => t.strand != k || t.life == .empty || t.life == .exited then some k else g.freeStrandFrom n (k + 1)

/-- A free seedling strand. -/
def Grove.freeStrand (g : Grove) : Option Nat := g.freeStrandFrom g.desc.seedl g.desc.nstr

/-- A lane of a seedling strand at launch (R43): a seed's thread, or empty. -/
def Thread.seedling' (fpc : Nat) (mm : DWord) (sd : Option Seed) (t : Thread) : Thread :=
  match sd with
  | some x =>
    { Thread.start false t.tid t.strand t.lane 32 t.core x.entry fpc mm x.args with
      seedling := true, spawnOrd := t.spawnOrd, traceOrd := t.traceOrd, postOrd := t.postOrd }
  | none =>
    { Thread.start false t.tid t.strand t.lane 32 t.core 0 fpc 0 [] with
      seedling := true, life := .empty, spawnOrd := t.spawnOrd, traceOrd := t.traceOrd, postOrd := t.postOrd }

/-- Seeds leave their beds, or a BTE, for a strand (R41, R43). -/
def State.launchSeeds (s : State) (g : Grove) (core bed strand : Nat) (chosen : List Seed) : State :=
  let keys := chosen.map Seed.key
  let gone := fun (h : Held) => keys.contains h.key
  let s := s.modCore core fun c => { c with seeds := c.seeds.filter fun x => !(x.gid == g.id && keys.contains x.key) }
  let s := { s with
    rays := s.rays.map fun (r : Ray) => if r.gid == g.id then { r with plant := r.plant.filter fun h => !gone h } else r
    beams := s.beams.map fun (b : Beam) => if b.gid == g.id then { b with plant := b.plant.filter fun h => !gone h } else b }
  let mm := BitVec.ofNat 64 (2 ^ chosen.length - 1)
  (s.modGrove g.id fun g =>
    g.modLanes (fun t => t.strand == strand) fun t =>
      { t.seedling' g.desc.fpc0 mm (chosen[t.lane]?) with since := s.cycleNow t.core }).setTimer g core bed

/-- The SEEDL record of a stand launch (R222). -/
def seedlRec (g : Grove) (bed strand : Nat) (entry : Word) (n : Nat) : Nat :=
  logRec 3 (bed + 16 * entry.toNat) g.tag strand n

/-- Strand k of a grove is a free seedling strand (R43). -/
def Grove.strandFree (g : Grove) (k : Nat) : Bool :=
  decide (g.desc.nstr ≤ k ∧ k < g.desc.nstr + g.desc.seedl) && g.lanes.all fun t => t.strand != k || t.life == .empty || t.life == .exited

/-- What the log says of a stand launch (R220, R224): it takes place in the state given, in the strand that its record names where that is free, or the context ends. -/
def State.seedLogged (s : State) (g : Grove) (strand rec_ : Nat) (go : Nat → State → State) : State :=
  let stop := fun (s : State) (cause detail k : Nat) =>
    s.endContext g.ctx { Report.plain 3 cause with detail := detail, tval := k }
  if g.unlogged then go strand s
  else if g.replays then
    match (s.unconsumed g.ctx g.launch).find? fun e => recPoint e.2 == recPoint rec_ with
    | none => stop s 0x1A 3 0xFFFFFFFF
    | some e =>
      if recArg e.2 = recArg rec_ ∧ natBits e.2 127 116 = natBits rec_ 127 116 then
        go (if g.strandFree (natBits e.2 115 104) then natBits e.2 115 104 else strand) (s.consume g.ctx g.launch e.1)
      else stop s 0x1A 3 e.1
  else
    match s.logAppend g.ctx g.launch rec_ with
    | (s, true) => go strand s
    | (s, false) => stop s 0x13 2 0

/-- A group of a grove launches a stand: up to 32 of its seeds, in rank, into a free strand (R41, R43). -/
def State.launchGroup (s : State) (g : Grove) (core bed : Nat) (entry : Word) : State :=
  match g.freeStrand with
  | none => s
  | some strand =>
    let mine := (s.seedsOf g).filter fun x => x.1 == core && x.2.bed == bed && x.2.entry == entry
    let chosen := ((ranked (seedRank g.orderly) mine).take 32).map Prod.snd
    if chosen.isEmpty then s
    else s.seedLogged g strand (seedlRec g bed strand entry chosen.length) fun strand s => s.launchSeeds g core bed strand chosen

/-- A group launches all its stands, as free strands allow (R41, R221). -/
def State.launchStands (s : State) (gid core bed : Nat) (entry : Word) : Nat → State
  | 0 => s
  | n + 1 =>
    match s.grove? gid with
    | none => s
    | some g => (s.launchGroup g core bed entry).launchStands gid core bed entry n

/-- At quiescence every group of a grove launches, one after the other, as free strands allow (R41, R221). -/
def State.launchAll (s : State) (gid : Nat) : Nat → State
  | 0 => s
  | n + 1 =>
    match s.grove? gid with
    | none => s
    | some g =>
      match ranked (seedRank g.orderly) (s.seedsOf g), g.freeStrand with
      | x :: _, some _ => (s.launchStands gid x.1 x.2.bed x.2.entry g.desc.seedl).launchAll gid n
      | _, _ => s

/-- A grove's timer in a bed has expired (R41). -/
def State.timerDue (s : State) (g : Grove) (core bed : Nat) : Bool :=
  match (s.core core).timers.lookup (timerKey g.id bed) with
  | some v => decide (v ≤ s.cycOf core)
  | none => false

/-- The oldest seed of a grove in a bed. -/
def State.oldestIn (s : State) (g : Grove) (core bed : Nat) : Option Seed :=
  (s.core core).seeds.find? fun x => x.gid == g.id && x.bed == bed

/-- A group is due in a FREE launch: it has 32 seeds, or its grove's timer has expired and it holds the oldest seed (R41). -/
def State.groupDue (s : State) (g : Grove) (core bed : Nat) (entry : Word) : Bool :=
  let n := ((s.core core).seeds.filter fun x => x.gid == g.id && x.bed == bed && x.entry == entry).length
  !g.orderly && (32 ≤ n || s.timerDue g core bed && ((s.oldestIn g core bed).map Seed.entry) == some entry)

/-- SEEDLING_STAND_LAUNCH: a group that is due launches a stand, or, when its grove quiesces, every group does (R41, R221). -/
def execSeedlingStandLaunch (gid bed : Nat) (entry : Word) (s : State) : Out :=
  .next (match s.grove? gid with
    | none => s
    | some g =>
      if g.cores.all (s.mayRun g) && s.quiesced g then s.launchAll gid g.desc.seedl
      else match g.cores.find? fun c => s.mayRun g c && s.groupDue g c bed entry with
        | some c => s.launchGroup g c bed entry
        | none => s)

/-- SEEDBED_TIMER_EXPIRY: a grove's timer in a bed expires; the group of its oldest seed there launches (R41, R301). -/
def execSeedbedTimerExpiry (gid bed : Nat) (s : State) : Out :=
  .next (match s.grove? gid with
    | none => s
    | some g =>
      match g.cores.find? fun c => s.mayRun g c && !g.orderly && s.timerDue g c bed with
      | none => s
      | some c =>
        match s.oldestIn g c bed with
        | some x => s.launchGroup g c bed x.entry
        | none => s)

/-! ### Continuation records -/

/-- The cluster a data address routes to (R45). -/
def contCluster (daddr : Nat) : Nat :=
  let g := natBits daddr 53 8
  (g ^^^ (g / 2 ^ 5) ^^^ (g / 2 ^ 10) ^^^ (g / 2 ^ 15)) % 32

/-- A record's 32 bytes (R45). -/
def contBytes (node ltag : Nat) (args : List Word) (daddr : Nat) : List Byte :=
  leBytes 32 (packBits [(32, 0), (64, daddr), (32, (args.getD 3 0).toNat), (32, (args.getD 2 0).toNat),
    (32, (args.getD 1 0).toNat), (32, (args.getD 0 0).toNat), (16, ltag % 2 ^ 16), (4, 0), (12, node)])

/-- Records a die's part of the queue holds (R48). -/
def contMax : Nat := 2 ^ 20

/-- The lowest number from k that is not in a list, of n more. -/
def freeNumber (l : List Nat) : Nat → Nat → Option Nat
  | 0, _ => none
  | n + 1, k => if l.contains k then freeNumber l n (k + 1) else some k

/-- Where a record finds room (R48): in the die's part of the queue, or in the lowest free slot of its launch's spill region (log 52). -/
def State.contRoom (s : State) (g : Grove) (die : Nat) : Option (Option Nat) :=
  if (s.conts.filter fun c => c.die == die && c.slot.isNone).length < contMax then some none
  else
    let used := s.conts.filterMap fun c => if c.launch == g.launch then c.slot else none
    (freeNumber used (min g.desc.spilln (used.length + 1)) 0).map some

/-- A thread's post (R45, R48, R222, R370): the record is queued, or the thread traps. -/
def State.post (s : State) (gid : Nat) (w : Who) (node : Word) (daddr : Nat) (args : List Word) : State :=
  match s.grove? gid, s.thread? gid w with
  | some g, some t =>
    let res := s.homeOf g.ctx daddr
    -- a peer that the context has not bound is no fault of the address of a record (R45)
    let peer := decide (daddr / 2 ^ 57 = 0 ∧ natBits daddr 56 54 = 4) && natBit (s.homesReg g.ctx) 4
    if g.desc.nnode ≤ node.toNat then s.modThread gid w (Thread.fail 0x02 0 s.curTval)
    else if res = .bad ∧ peer = false then s.trapWho gid w 0x05 0 daddr
    else if g.desc.mode ≠ 0 ∧ 2 ^ 32 ≤ t.postOrd then s.trapWho gid w 0x13 3 daddr
    else
      let die := match res with
        | .phys h => if h < 2 then h else dieOfCore t.core
        | _ => dieOfCore t.core
      let bytes := contBytes node.toNat g.ltag args daddr
      let count := fun (s : State) =>
        (s.modGrove gid fun g => g.addDigest (List.replicate 8 0xFE ++ bytes)).modThread gid w fun t => { t with postOrd := t.postOrd + 1 }
      if g.verify = 2 then count s
      else
        match s.contRoom g die with
        | none => s.trapWho gid w 0x13 1 daddr
        | some slot =>
          let c := contCluster daddr
          let rec_ := logRec 4 (t.postOrd % 2 ^ 32 + 2 ^ 32 * c + 2 ^ 37 * s.vdie g.ctx (128 * die)) g.tag w.rid 0
          let cls := ((s.launches.find? fun l => l.id == g.launch).map Launch.cls).getD 2
          let s := match slot with
            | some k => (s.writeLong g.ctx 2 (g.desc.spill + 32 * k) bytes).1
            | none => s
          count { s with
            nextId := s.nextId + 1
            conts := s.conts ++ [⟨s.nextId, die, c, g.launch, cls, node.toNat, rec_, argWords args, daddr, s.gt, false, slot⟩] }
  | _, _ => s

/-- SPAWNG (R320): its thread's earlier stores are released at device scope (R47). -/
def execSpawng (h : Hdr) (a d n : Fin 64) (s : State) : Out :=
  laneIssue (wordShape h false 0 (vGroup a 4 ++ v2 d ++ v1 n)) (anyUnreleased .device)
    (fun gid tid s => match s.thread? gid (some tid) with
      | some t =>
        if t.txn.isOpen then s.modThread gid (some tid) (Thread.abortTxn 3)
        else s.post gid (some tid) (t.reg n.val) (t.pair d.val).toNat (t.group a.val 4)
      | none => s) s

/-- SSPAWNG (R320). -/
def execSspawng (h : Hdr) (a d n : Fin 32) (s : State) : Out :=
  uniIssue (wordShape h false 0 (sGroup a 4 ++ s2 d)) false
    (fun s g => !g.front.checked || !s.releaseMet g.id none g.front.core .device s.nextId)
    (fun gid s => match s.thread? gid none with
      | some t => s.post gid none (t.reg n.val) (t.pair d.val).toNat (t.group a.val 4)
      | none => s) s

end Sys2Proof.Machine
end

