-- ==== Sys2Proof/Machine/Csr.lean ====
section
/-! DEFINITION. Context registers and the device block, the privileged words, and the words of snapshots, marks and digests (16 R328-R330, R338-R344, 17 R366-R371). -/

namespace Sys2Proof.Machine

/-! ### Context registers -/

/-- NUM names a register of a context (R328). -/
def csrListed (num : Nat) : Bool :=
  num ≤ 0xC || (0x10 ≤ num && num ≤ 0x1B) || (0x100 ≤ num && num ≤ 0x13F) || (0x400 ≤ num && num ≤ 0x7FF)

/-- A context register as it reads (R328, R330): a lost die's mask reads 0. -/
def State.csrRead (s : State) (ctx num : Nat) : Word :=
  match num with
  | 2 => BitVec.ofNat 32 (s.homesReg ctx)
  | 3 => BitVec.ofNat 32 (s.partMask ctx 0)
  | 4 => BitVec.ofNat 32 (s.partMask ctx 1)
  | _ => s.csrRaw ctx num

/-- A value kept in its field, if its range allows it. -/
def keepIf (b : Bool) (v : Nat) : Option Nat := if b then some v else none

/-- What a write leaves in a register whose rule stands alone (R328): reserved bits ignored (R2), none where the value is refused. -/
def csrField (num v : Nat) : Option Nat :=
  match num with
  | 1 => keepIf (128 ≤ v % 2 ^ 13 && v % 2 ^ 13 ≤ 4096) (v % 2 ^ 13)
  | 2 => some (v / 4 % 8 * 4)
  | 5 => some (v % 2 ^ 24)
  | 7 => keepIf (v % 2 ^ 28 != 0) (v % 2 ^ 28)
  | 8 => keepIf (v % 2 ^ 28 != 0) (v % 2 ^ 28)
  | 9 => keepIf (v % 64 == 0) v
  | 0xB => some (v % 2 ^ 16)
  | 0xC => keepIf (natBits v 24 12 ≤ 4096 && v % 2 ^ 12 + natBits v 24 12 ≤ 4096) (v % 2 ^ 25)
  | 0x18 => keepIf (v % 2 ^ 16 == 0) v
  | 0x19 => keepIf (v / 2 ^ 25 == 0 && natBits v 24 22 ≤ 1) v
  | 0x1A => some (v % 2 ^ 24)
  | 0x1B => keepIf (v % 2 ^ 11 ≤ 1024) (v % 2 ^ 11)
  | n =>
    if 0x100 ≤ n ∧ n ≤ 0x13F then some (v % 2 ^ 17)
    else if 0x400 ≤ n then some (v % 2 ^ 31)
    else some v

/-- Two ranges of counters meet; an empty one meets none. -/
def rangesMeet (v w : Nat) : Bool :=
  natBits v 24 12 != 0 && natBits w 24 12 != 0 &&
    v % 2 ^ 12 < w % 2 ^ 12 + natBits w 24 12 && w % 2 ^ 12 < v % 2 ^ 12 + natBits v 24 12

/-- An EVRANGE overlaps that of another enabled context (R328). -/
def State.evClash (s : State) (ctx v : Nat) : Bool :=
  (List.range 64).any fun c => c != ctx && s.ctxEnabled c && rangesMeet v (s.csrRaw c 0xC).toNat

/-- The context has work that fixes its homes (R330). -/
def State.ctxBusy (s : State) (ctx : Nat) : Bool :=
  (s.launches.any fun l => l.ctx == ctx) || (s.groves.any fun g => g.ctx == ctx) || s.cmds.any fun k => k.ctx == ctx

/-- A context is enabled (R329): its device barrier table and its order-log state start afresh. -/
def State.enableCtx (s : State) (c : Nat) (v : Nat) : State :=
  let dbars := s.dbars.filter fun (e : Nat × Barrier) => e.1 / 4096 != c
  (({ s with dbars := dbars }).setCsrRaw c 0 (BitVec.ofNat 32 (v % 8))).modCtx c fun x =>
    { x with logs := [], haltReq := false, halted := false, reported := [], drainSet := [], diagPos := 0 }

/-- The end of a context by software (R344, R359). -/
def State.haltCtx (s : State) (c : Nat) : State := s.endContext c (Report.plain 7 0x15)

/-- A write of CTXCFG (R329). -/
def State.writeCtxcfg (s : State) (c v : Nat) : State :=
  if s.ctxEnabled c then
    if natBit v 0 then s.setCsrRaw c 0 (BitVec.ofNat 32 (v % 8))
    else (s.haltCtx c).setCsrRaw c 0 (BitVec.ofNat 32 (v % 8))
  else if natBit v 0 then s.enableCtx c v
  else s.setCsrRaw c 0 (BitVec.ofNat 32 (v % 8))

/-- A write of a listed context register (R328-R330), none where it is refused. -/
def State.csrWrite (s : State) (c num : Nat) (v : Word) : Option State :=
  let x := v.toNat
  if num = 0 then some (s.writeCtxcfg c x)
  else if num = 0xC ∧ s.evClash c x then none
  else if num = 3 ∨ num = 4 then
    let s' := s.setCsrRaw c num v
    if (s'.die0 c, s'.home1 c) ≠ (s.die0 c, s.home1 c) ∧ s.ctxBusy c then none else some s'
  else (csrField num x).map fun y => s.setCsrRaw c num (BitVec.ofNat 32 y)

/-! ### The device block -/

/-- NUM names a register of the device block (R343). -/
def devListed (num : Nat) : Bool := num ≤ 9

/-- A write of a device-block register (R343): a root only while its home keeps no translation, DEVID only through the window while no context is enabled. -/
def State.devWrite (s : State) (num : Nat) (v : Word) (window : Bool) : Option State :=
  let set := fun (x : Nat) => some { s with devb := tabSet 0 s.devb num (BitVec.ofNat 32 x) }
  if num < 8 then
    if (s.tlb.any fun e => e.1 / 2 ^ 54 == num / 2) || (num % 2 == 0 && v.toNat % 2 ^ 15 != 0) then none else set v.toNat
  else if num = 8 then set (v.toNat % 2 ^ 7)
  else if window && !(List.range 64).any fun c => s.ctxEnabled c then set (v.toNat % 2 ^ 16)
  else none

/-- A register address of CSRR and CSRW (R343): device block or context, and number; none where it is illegal. -/
def csrAddr (a : Nat) : Option (Bool × Nat × Nat) :=
  let dev := natBit a 18
  let c := natBits a 17 12
  let num := a % 2 ^ 12
  if a / 2 ^ 19 ≠ 0 then none
  else if dev then (if c = 0 ∧ devListed num then some (true, c, num) else none)
  else if csrListed num then some (false, c, num)
  else none

/-! ### Privileged words -/

/-- The context of a grove may issue privileged words (R329). -/
def State.privileged (s : State) (g : Grove) : Bool := natBit (s.csrRaw g.ctx 0).toNat 1

/-- A privileged word: it traps PRIVILEGED in a context without PRIV (R343). -/
def privWord (sh : Shape) (hold : State → Grove → Bool) (eff : Grove → State → State) (s : State) : Out :=
  uniIssue sh false (fun s g => !g.front.checked || s.privileged g && hold s g)
    (fun gid s => match s.grove? gid with
      | none => s
      | some g => if s.privileged g then eff g s else s.modThread gid none (Thread.fail 0x03 0 s.curTval)) s

/-- ILLEGAL_OPERAND in the front thread. -/
def State.illegal (s : State) (gid : Nat) : State := s.modThread gid none (Thread.fail 0x02 0 s.curTval)

/-- CSRR (R343). -/
def execCsrr (h : Hdr) (d a : Fin 32) (s : State) : Out :=
  privWord (wordShape h false 1 []) (fun _ _ => false)
    (fun g s => match csrAddr (g.front.reg a.val).toNat with
      | none => s.illegal g.id
      | some (dev, c, num) =>
        s.modThread g.id none (Thread.put false (wr d.val (if dev then s.devReg num else s.csrRead c num)))) s

/-- CSRW (R343). -/
def execCsrw (h : Hdr) (b a : Fin 32) (s : State) : Out :=
  privWord (wordShape h false 0 []) (fun _ _ => false)
    (fun g s =>
      let v := g.front.reg b.val
      match csrAddr (g.front.reg a.val).toNat with
      | none => s.illegal g.id
      | some (dev, c, num) => ((if dev then s.devWrite num v false else s.csrWrite c num v)).getD (s.illegal g.id)) s

/-- Page bits of a PGINV size; none for ALL (R339). -/
def pgBits : PgSize → Option Nat
  | .k64 => some 16
  | .m2 => some 21
  | .g1 => some 30
  | .all => none

/-- What PGINV makes of its address (R339): the home, or a trap's cause. -/
def State.pgHome (s : State) (ctx va : Nat) : Except Nat Nat :=
  if va / 2 ^ 57 ≠ 0 then .error 0x05
  else if natBits va 56 54 = 4 then .error 0x02
  else match s.homeOf ctx va with
    | .phys h => .ok h
    | _ => .error 0x05

/-- The largest LEASE of the enabled contexts (R339). -/
def State.maxLease (s : State) (home : Nat) : Nat :=
  let m := ((List.range 64).filter fun c => s.ctxEnabled c).foldl (fun m c => max m (s.lease c)) 0
  if home = 3 then min m 1000 else m

/-- The lines of a range that a home has met. -/
def State.linesIn (s : State) (home lo hi : Nat) : List Line :=
  (s.lines.filter fun e => e.1 / 2 ^ 54 == home && decide (lo ≤ e.1 % 2 ^ 54) && decide (e.1 % 2 ^ 54 < hi)).map Prod.snd

/-- The physical lines of a range that the host holds, as the entries in force granted them (R262, R339). -/
def State.hostCopies (s : State) (home lo hi : Nat) : List Nat :=
  if home < 2 then
    (((s.linesIn home lo hi).filterMap Line.phys).map fun pk => pk / 128).filter fun l => tabGet 0 s.snoopFilter l != 0
  else []

/-- A PGINV over a range of a home's offsets, which begins once GT has reached a time (R339). -/
def State.newPginv (s : State) (home lo hi start : Nat) : Pginv := ⟨s.nextId, home, lo, hi, s.maxLease home + delta, start, none, []⟩

/-- The invalidation point of a PGINV (R339): the translations that cover the range are dropped, the host's copies are noted, and the lease wait begins. -/
def State.invalidate (s : State) (p : Pginv) : State :=
  let covers := fun (e : Nat × Nat × Nat) =>
    e.1 / 2 ^ 54 == p.home && decide (e.1 % 2 ^ 54 < p.hi) && decide (p.lo < e.1 % 2 ^ 54 + 2 ^ e.2.1)
  { s with
    tlb := s.tlb.filter fun e => !covers e
    pginvs := { p with point := some s.gt, copies := s.hostCopies p.home p.lo p.hi } :: s.pginvs.filter fun q => q.id != p.id }

/-- PGINV (R339). -/
def execPginv (h : Hdr) (a : Fin 32) (z : PgSize) (s : State) : Out :=
  privWord (wordShape h true 0 (s2 a))
    (fun s g => match s.pgHome g.ctx (g.front.pair a.val).toNat with
      | .ok _ => !s.releaseMet g.id none g.front.core .system s.nextId
      | .error _ => false)
    (fun g s =>
      let va := (g.front.pair a.val).toNat
      match s.pgHome g.ctx va with
      | .error 0x02 => s.modThread g.id none (Thread.fail 0x02 0 (BitVec.ofNat 64 va))
      | .error c => s.trapWho g.id none c 0 va
      | .ok home =>
        let off := va % 2 ^ 54
        let (lo, hi) := match pgBits z with
          | some n => (off / 2 ^ n * 2 ^ n, off / 2 ^ n * 2 ^ n + 2 ^ n)
          | none => (0, 2 ^ 54)
        (({ s with nextId := s.nextId + 1 } : State).invalidate (s.newPginv home lo hi s.gt)).modThread g.id none fun t =>
          { t with wait := .pginv s.nextId }) s

/-- PGINV_COMPLETE: the host holds no copy of the range that the old entries granted, no line of it is owned or locked, and the lease wait has ended (R339); an operation of the window that has not begun begins here. -/
def execPginvComplete (id : Nat) (s : State) : Out :=
  .next (match s.pginvs.find? fun p => p.id == id with
    | none => s
    | some p =>
      match p.point, p.copies with
      | none, _ => if s.gt < p.start then s else s.invalidate p
      | some _, l :: _ => s.askHost l 3
      | some t0, [] =>
        if ((s.linesIn p.home p.lo p.hi).any fun l => l.owner.isSome || l.lock.isSome) || s.gt < t0 + p.span then s
        else
          { s with
            pginvs := s.pginvs.filter fun q => q.id != id
            groves := s.groves.map fun (g : Grove) =>
              if g.front.wait = .pginv id then { g with front := { g.front with wait := .none } } else g })

/-- HALT (R344). -/
def execHalt (h : Hdr) (c : Fin 32) (s : State) : Out :=
  privWord (wordShape h true 0 []) (fun _ _ => false)
    (fun g s =>
      let n := (g.front.reg c.val).toNat
      if 63 < n then s.illegal g.id else s.haltCtx n) s

/-- CTXCFG_ENABLE: a window write of EN = 1 (R329); before READY the window ignores writes (R380). -/
def execCtxcfgEnable (ctx : Nat) (v : Word) (s : State) : Out :=
  .next (if s.hub.ready && ctx < 64 && natBit v.toNat 0 then s.writeCtxcfg ctx v.toNat else s)

/-- CTXCFG_END: a window write of EN = 0 (R329, R344). -/
def execCtxcfgEnd (ctx : Nat) (v : Word) (s : State) : Out :=
  .next (if s.hub.ready && ctx < 64 && !natBit v.toNat 0 then s.writeCtxcfg ctx v.toNat else s)

/-! ### Snapshots, marks and digests -/

/-- SNAP (R366, R367): its effect is seen outside the thread, so that it waits for the home checks of the words before it (R88). -/
def execSnap (h : Hdr) (t : Fin 32768) (s : State) : Out :=
  uniIssue (wordShape h false 0 []) false (fun _ g => !g.front.checked)
    (fun gid s => s.snapshot 1 0 (s.ctxOf gid) t.val) s

/-- LOGMARK in a front thread (R368, R222-R224). -/
def State.logmark (s : State) (g : Grove) (v : Word) : State :=
  let rec_ := logRec 5 v.toNat g.tag 0xFFF 0
  if g.unlogged then s
  else if g.replays then
    match (s.unconsumed g.ctx g.launch).find? fun e => recPoint e.2 == recPoint rec_ with
    | none => s.trapWho g.id none 0x1A 1 0xFFFFFFFF
    | some e =>
      if recArg e.2 % 2 ^ 32 = v.toNat then s.consume g.ctx g.launch e.1 else s.trapWho g.id none 0x1A 5 e.1
  else
    match s.logAppend g.ctx g.launch rec_ with
    | (s, true) => s
    | (s, false) => s.trapWho g.id none 0x13 2 0

/-- LOGMARK (R368). -/
def execLogmark (h : Hdr) (a : Fin 32) (s : State) : Out :=
  uniIssue (wordShape h false 0 []) false (fun _ g => !g.front.checked)
    (fun gid s => match s.grove? gid with
      | some g => s.logmark g (g.front.reg a.val)
      | none => s) s

/-- DIGEST (R371). -/
def execDigest (h : Hdr) (a : Fin 32) (s : State) : Out :=
  uniIssue (wordShape h false 0 (sGroup a 4)) false (fun _ g => !g.front.checked)
    (fun gid s => s.modGrove gid fun g => g.addDigest (List.replicate 8 0xFF ++ bytesOf (g.front.group a.val 4))) s

end Sys2Proof.Machine
end

