-- ==== Sys2Proof/Machine/Launch.lean ====
section
/-! DEFINITION. Launch queues, their command records, and the submission of a launch: descriptor, node table and log, and the checks that reject it (03 R77-R80, 10 R223, 14 R290-R293, 18 R376). -/

namespace Sys2Proof.Machine

/-! ### Queues -/

/-- A queue at reset (R290, R376). -/
def Queue.init : Queue := ⟨2, false, 0, false, 0, 0, 0, 4, 0, 0, none, none⟩

/-- A queue by number. -/
def State.queue (s : State) (q : Nat) : Queue := tabGet Queue.init s.queues q

/-- Updates a queue. -/
def State.modQueue (s : State) (q : Nat) (f : Queue → Queue) : State :=
  { s with queues := tabSet Queue.init s.queues q (f (s.queue q)) }

/-- REALTIME is class 0 (R290). -/
def realtimeClass (cls : Nat) : Bool := cls == 0

/-- A write of QCFG (R290): judged by EN as it stood. -/
def Queue.writeCfg (v : Nat) (q : Queue) : Queue :=
  if q.en then { q with en := natBit v 2 } else { q with en := natBit v 2, cls := v % 4, ctx := natBits v 8 3 }

/-- QCFG_WRITE (R290). -/
def execQcfgWrite (q : Nat) (v : Word) (s : State) : Out :=
  .next (if s.hub.ready && q < 64 then s.modQueue q (Queue.writeCfg v.toNat) else s)

/-- QSTAT_RESUME: 1 is written to STOPPED (R290). -/
def execQstatResume (q : Nat) (s : State) : Out :=
  .next (if s.hub.ready && q < 64 then s.modQueue q fun x => { x with stopped := false } else s)

/-- QUEUE_TAIL_WRITE (R376). -/
def execQueueTailWrite (q : Nat) (v : Word) (s : State) : Out :=
  .next (if s.hub.ready && q < 64 then s.modQueue q fun x => { x with tail := v.toNat % 2 ^ 20 } else s)

/-- A REALTIME queue that is enabled and whose context's masks name a core keeps its reserve there (R296). -/
def State.reserved (s : State) (core : Nat) : Bool :=
  (List.range 64).any fun q =>
    let x := s.queue q
    x.en && realtimeClass x.cls && s.ctxEnabled x.ctx && natBit (s.partMask x.ctx (dieOfCore core)) (clusterOfCore core % 32)

/-- The groves that stand on a core. -/
def State.grovesOn (s : State) (core : Nat) : List Grove := s.groves.filter fun g => g.cores.contains core

/-- The write of EN = 1 to a REALTIME queue has taken effect: no ordinary grove holds slot 3 of a core concerned (R296). -/
def State.reserveClear (s : State) (ctx : Nat) : Bool :=
  s.groves.all fun g => g.realtime || g.slot != 3 ||
    g.cores.all fun c => !natBit (s.partMask ctx (dieOfCore c)) (clusterOfCore c % 32)

/-- A queue may start its next command (R290, R292). -/
def State.mayStart (s : State) (q : Queue) : Bool :=
  q.en && s.ctxEnabled q.ctx && !q.stopped && q.launch.isNone && q.wait.isNone && q.head != q.tail &&
    (!realtimeClass q.cls || s.reserveClear q.ctx)

/-- The queue stops with a reason at the record it has started (R293). -/
def State.rejectCmd (s : State) (q idx reason : Nat) : State :=
  (s.modQueue q fun x => { x with stopped := true, reason := reason, cidx := idx }).notice 3

/-- HEAD advances when a record starts (R376). -/
def State.advanceHead (s : State) (q : Nat) : State := s.modQueue q fun x => { x with head := (x.head + 1) % 2 ^ x.ringn }

/-- A counter is assigned to a context (R292, R328). -/
def State.evOwned (s : State) (ctx ev : Nat) : Bool :=
  let r := (s.csrRaw ctx 0xC).toNat
  r % 2 ^ 12 ≤ ev && ev < r % 2 ^ 12 + natBits r 24 12

/-- A command record that reason 9 rejects (R291, R293). -/
def State.badRecord (s : State) (ctx r : Nat) : Bool :=
  let op := r % 256
  3 < op || natBits r 63 20 != 0 || natBits r 255 192 != 0 || (2 ≤ op && !s.evOwned ctx (natBits r 19 8))

/-- A store to a line of a range is accepted and not yet visible: a read of the command processor, an acquire of system scope, comes after it (R251, R376). -/
def State.storeComing (s : State) (ctx va n : Nat) : Bool :=
  match s.homeOf ctx va with
  | .phys h => s.pend.any fun st => decide (lineKey h (va % 2 ^ 54) ≤ st.line) && decide (st.line < h * 2 ^ 54 + va % 2 ^ 54 + n)
  | _ => false

/-- Bytes read by the command processor. -/
def State.readCp (s : State) (ctx va n : Nat) : Got (List Byte) :=
  if s.storeComing ctx va n then .wait s else s.readLong ctx .load none (n / 64 + 2) va n

/-- A read of the command processor has been used. -/
def State.keepCp (s : State) (ctx : Nat) (e : Nat × Nat) : State := s.keepLong ctx (e.2 / 64 + 2) e.1 e.2

/-- Starts the record at HEAD of a queue if it has the given operation; a record that cannot be read, or whose operation is reserved, is rejected by any of them, and a malformed LAUNCH together with its other reasons (R292, R293, R376). -/
def State.startCmd (s : State) (q op : Nat) (go : Nat → State → State) : State :=
  let x := s.queue q
  let va := x.ring + 32 * x.head
  if q < 64 ∧ s.mayStart x = true then
    match s.readCp x.ctx va 32 with
    | .wait s => s
    | .refused .. => ((s.keepCp x.ctx (va, 32)).advanceHead q).rejectCmd q x.head 8
    | .ok bs =>
      let r := leNat bs
      let s' := (s.keepCp x.ctx (va, 32)).advanceHead q
      if 3 < r % 256 then s'.rejectCmd q x.head 9
      else if r % 256 ≠ op then s
      else if op ≠ 1 ∧ s.badRecord x.ctx r = true then s'.rejectCmd q x.head 9
      else go r s'
  else s

/-- CMD_NOP (R292). -/
def execCmdNop (q : Nat) (s : State) : Out := .next (s.startCmd q 0 fun _ s => s)

/-- An event counter (R292). -/
def State.eventCount (s : State) (e : Nat) : Nat := tabGet 0 s.events e

/-- Adds to an event counter, modulo 2^64. -/
def State.addEvent (s : State) (e n : Nat) : State := { s with events := tabSet 0 s.events e ((s.eventCount e + n) % 2 ^ 64) }

/-- WAITEV starts (R292). -/
def execWaitev (q : Nat) (s : State) : Out :=
  .next (s.startCmd q 2 fun r s =>
    let e := natBits r 19 8
    let arg := natBits r 127 64
    if arg ≤ s.eventCount e then s else s.modQueue q fun x => { x with wait := some (e, arg) })

/-- WAITEV_SATISFIED: the awaited counter has reached the target (R292). -/
def execWaitevSatisfied (q : Nat) (s : State) : Out :=
  .next (match (s.queue q).wait with
    | some (e, arg) => if arg ≤ s.eventCount e then s.modQueue q fun x => { x with wait := none } else s
    | _ => s)

/-- SIGNAL: it starts once every earlier launch of the queue has completed (R292). -/
def execSignal (q : Nat) (s : State) : Out :=
  .next (if s.launches.any fun l => l.queue == q then s
    else s.startCmd q 3 fun r s => s.addEvent (natBits r 19 8) (natBits r 127 64))

/-! ### Descriptors -/

/-- The pool and tile words shared by a descriptor and a node entry (R78, R79): CFG, POOL and TILES into a descriptor. -/
def Desc.withShape (cfg pool tiles : Nat) (d : Desc) : Desc :=
  { d with
    width := match cfg % 4 with
      | 0 => 32
      | 1 => 16
      | 2 => 64
      | _ => 0
    pair := natBit cfg 2
    nstr := natBits cfg 8 3 + 1
    seedl := natBits cfg 13 9
    vregs := if natBits cfg 16 14 = 7 then 0 else 16 + 8 * natBits cfg 16 14
    regs := natBits pool 4 0
    scratch := natBits pool 9 5
    l1 := natBits pool 14 10
    callstk := natBits pool 26 16
    tas := natBits tiles 4 0
    wbs := natBits tiles 8 5
    acs := natBits tiles 12 9 }

/-- The descriptor's fields (R78); SUPERSTEP sets COGRID (R50). -/
def Desc.parse (n : Nat) : Desc :=
  Desc.withShape (natBits n 255 224) (natBits n 319 288) (natBits n 351 320)
    { image := natBits n 63 0
      lentry := BitVec.ofNat 32 (natBits n 95 64)
      fentry := BitVec.ofNat 32 (natBits n 127 96)
      ngx := natBits n 159 128
      ngy := natBits n 191 160
      ngz := natBits n 223 192
      width := 0, pair := false, nstr := 0, seedl := 0, vregs := 0
      mode := natBits n 257 256
      placed := natBit n 258
      cogrid := natBit n 259 || natBit n 260
      superstep := natBit n 260
      verify := natBit n 261
      regs := 0, scratch := 0, l1 := 0, callstk := 0, tas := 0, wbs := 0, acs := 0
      seedt := natBits n 367 352
      fpc0 := natBits n 383 368
      const := natBits n 447 384
      nodes := natBits n 511 448
      nnode := natBits n 524 512
      spill := natBits n 607 544
      spilln := natBits n 639 608
      seed := natBits n 703 640
      event := natBits n 715 704
      evinc := natBits n 767 736 }

/-- A node entry's fields over those of its launch (R79). -/
def Desc.parseNode (d : Desc) (n : Nat) : Desc :=
  Desc.withShape (natBits n 159 128) (natBits n 191 160) (natBits n 223 192)
    { d with
      image := natBits n 63 0
      lentry := BitVec.ofNat 32 (natBits n 95 64)
      fentry := BitVec.ofNat 32 (natBits n 127 96)
      ngx := 1, ngy := 1, ngz := 1 }

/-- Launch and seedling strands of a parity, as the pair of strands and threads (R27, R77). -/
def Desc.sideUse (d : Desc) (p : Nat) : Nat × Nat :=
  let here := fun (i : Nat) => !d.pair || i % 2 == p
  let a := ((List.range d.nstr).filter here).length
  let b := ((List.range d.seedl).filter fun k => here (d.nstr + k)).length
  (a + b, a * d.width + 32 * b)

/-- The strands and threads a grove puts on one core, the larger of the two in a pair (R77). -/
def Desc.coreUse (d : Desc) : Nat × Nat :=
  (max (d.sideUse 0).1 (d.sideUse 1).1, max (d.sideUse 0).2 (d.sideUse 1).2)

/-- Granules of a call-stack carve (R77). -/
def Desc.stackGranules (d : Desc) : Nat := (d.coreUse.2 * d.callstk * 4 + 65535) / 65536

/-- Granules a grove takes beside the shared L1 carve (R77). -/
def Desc.groveGranules (d : Desc) : Nat := d.regs + d.scratch + d.stackGranules

/-- The register carve holds the threads' registers and trap banks (R77). -/
def Desc.regsOk (d : Desc) : Bool := d.coreUse.2 * (d.vregs + 8) * 4 ≤ d.regs * 65536

/-- The items of R80 on the shape of a grove. -/
def Desc.shapeOk (d : Desc) : Bool :=
  d.width != 0 && d.vregs != 0 && d.seedl ≤ 16 && 1 ≤ d.l1 && d.l1 ≤ 28 && d.callstk ≤ 1024 && d.tas ≤ 16 && d.wbs ≤ 8 && d.acs ≤ 10 &&
    d.image % 256 == 0 && d.regsOk &&
    (if d.pair then d.nstr ≤ 64 && d.nstr * d.width ≤ 2048 else d.nstr ≤ 32 && d.nstr * d.width ≤ 1024)

/-- The items of R80 on a descriptor alone. -/
def Desc.fieldsOk (d : Desc) : Bool :=
  d.mode != 3 && 1 ≤ d.ngx && d.ngx ≤ 2 ^ 31 && 1 ≤ d.ngy && d.ngy ≤ 65536 && 1 ≤ d.ngz && d.ngz ≤ 65536 &&
    1 ≤ d.seedt && d.const % 256 == 0 && d.nodes % 32 == 0 && d.nnode ≤ 4096 && d.fpc0 / 2 ^ 12 == 0

/-- Granules and residency a class leaves on an empty core (R77, R296). -/
def Desc.fits (d : Desc) (rt reserved : Bool) (n : Nat) : Bool :=
  let u := d.coreUse
  d.l1 + n * d.groveGranules ≤ (if rt then 4 else 28) &&
    n * u.1 ≤ (if rt then 8 else if reserved then 56 else 64) &&
    n * u.2 ≤ (if rt then 256 else if reserved then 1792 else 2048) &&
    n ≤ (if rt then 1 else if reserved then 3 else 4) && n * d.tas ≤ 16 && n * d.wbs ≤ 8 && n * d.acs ≤ 10

/-- One grove meets R25 and R77 on an empty core (reason 2). -/
def Desc.fitsEmpty (d : Desc) (rt : Bool) : Bool :=
  d.l1 + d.groveGranules ≤ (if rt then 4 else 28) && d.coreUse.1 ≤ 64 && d.coreUse.2 ≤ 2048

/-- What R296 asks of a REALTIME launch and its node entries. -/
def Desc.rtOk (d : Desc) : Bool :=
  d.tas == 0 && d.wbs == 0 && d.acs == 0 && !d.pair && !d.superstep && d.coreUse.1 ≤ 8 && d.coreUse.2 ≤ 256

/-- A die of the part is live: not fenced, lost or failed, with a live stack (R23, R363). -/
def State.liveDie (s : State) (die : Nat) : Bool := !tabGet false s.hub.dieFailed die && s.stackMask die != 0

/-- A core takes groves: its die is live, it is not fenced, and no lane of it has been found faulty (R15, R23). -/
def State.usable (s : State) (core : Nat) : Bool :=
  core < 256 && s.liveDie (dieOfCore core) && !(s.core core).fenced && (s.core core).faulty.isEmpty

/-- A core lies in a context's partition (R331). -/
def State.inPartition (s : State) (ctx core : Nat) : Bool := natBit (s.partMask ctx (dieOfCore core)) (clusterOfCore core % 32)

/-- The usable cores of a part, ascending, or the even cores of pairs both usable (R297). -/
def State.ranked (s : State) (pair : Bool) : List Nat :=
  (List.range 256).filter fun c => s.usable c && (!pair || c % 2 == 0 && s.usable (c + 1))

/-- The place of a PLACED grove (R297): its physical core, the even one of a pair. -/
def State.placedCore (s : State) (d : Desc) (linear : Nat) : Option Nat :=
  let l := s.ranked d.pair
  let logical := if d.pair then linear % 128 else linear % 256
  if l.isEmpty then none else l[logical % l.length]?

/-- The largest number of groves of a descriptor one core can hold, at most n. -/
def Desc.perCore (d : Desc) (rt reserved : Bool) : Nat → Nat
  | 0 => 0
  | n + 1 => if d.fits rt reserved (n + 1) then n + 1 else d.perCore rt reserved n

/-- A COGRID grid could be co-resident on the part's usable cores with every core empty (reason 6). -/
def State.gridFits (s : State) (d : Desc) (rt : Bool) : Bool :=
  let cores := s.ranked d.pair
  let room := fun (c : Nat) => d.perCore rt (s.reserved c) 4
  let total := d.ngx * d.ngy * d.ngz
  if d.placed then
    total ≤ 4 * 256 && (List.range 256).all fun c =>
      let n := ((List.range total).filter fun i => s.placedCore d i == some c).length
      n = 0 || cores.contains c && n ≤ room c
  else total ≤ (cores.map room).sum

/-- The log of a launch as read: its header, and a REPLAY's records. -/
structure LogIn where
  desch : Nat
  nrec : Nat
  cap : Nat
  done : Bool
  full : Bool
  deriving DecidableEq, Repr

/-- The 64-byte header of an order log (R223). -/
def LogIn.parse (n : Nat) : LogIn := ⟨natBits n 63 0, natBits n 127 64, natBits n 191 128, natBit n 192, natBit n 193⟩

/-- DESCH of the 128 descriptor bytes, with MODE as in the LOGGED launch, so that a REPLAY of the same descriptor has the same (R51, R223, log 53). -/
def desch (bytes : List Byte) : Nat :=
  shakeNat 8 (bytes.take 32 ++ [BitVec.ofNat 8 ((bytes.getD 32 0).toNat / 4 * 4 + 1)] ++ bytes.drop 33)

/-- Goes on with what has been read. -/
def Got.bind {α β : Type} (x : Got α) (f : α → Got β) : Got β :=
  match x with
  | .ok a => f a
  | .refused c d => .refused c d
  | .wait s => .wait s

/-- A read whose refusal is a result of its own. -/
def Got.opt {α β : Type} (f : α → β) : Got α → Got (Option β)
  | .ok a => .ok (some (f a))
  | .refused .. => .ok none
  | .wait s => .wait s

/-- What a submission has read: the descriptor with its bytes, the node entries and the log header, none where a read faulted (R293), a REPLAY's records, and the ranges that were read. -/
structure Submission where
  bytes : List Byte
  desc : Desc
  nodes : Option (List Desc)
  log : Option LogIn
  recs : List (List Byte)
  reads : List (Nat × Nat)
  deriving DecidableEq, Repr

/-- Cuts a list into n pieces of k. -/
def pieces (k : Nat) : Nat → List Byte → List (List Byte)
  | 0, _ => []
  | n + 1, bs => bs.take k :: pieces k n (bs.drop k)

/-- The first of n log records that can be read: those behind one whose read faults are absent (log 53). -/
def State.readRecs (s : State) (ctx : Nat) : Nat → Nat → Got (List (List Byte))
  | 0, _ => .ok []
  | n + 1, va =>
    match s.readCp ctx va 16 with
    | .wait s => .wait s
    | .refused .. => .ok []
    | .ok bs => (s.readRecs ctx n (va + 16)).bind fun rest => .ok (bs :: rest)

/-- Reads what a LAUNCH names (R291, R293); refused where the descriptor itself cannot be read. -/
def State.readSubmission (s : State) (ctx addr logAddr : Nat) : Got Submission :=
  (s.readCp ctx addr 128).bind fun bytes =>
    let d := Desc.parse (leNat bytes)
    let nodeLen := if 4096 < d.nnode then 0 else 32 * d.nnode
    let logLen := if d.mode = 0 ∨ logAddr = 0 then 0 else 64
    (Got.opt (fun bs => (pieces 32 (nodeLen / 32) bs).map fun b => d.parseNode (leNat b)) (s.readCp ctx d.nodes nodeLen)).bind fun nodes =>
    (Got.opt (fun b => LogIn.parse (leNat b)) (s.readCp ctx logAddr logLen)).bind fun log =>
    let n := if d.mode = 2 ∧ logLen ≠ 0 then (log.map LogIn.nrec).getD 0 else 0
    (s.readRecs ctx n (logAddr + 64)).bind fun recs =>
      .ok ⟨bytes, d, nodes, log, recs, [(addr, 128), (d.nodes, nodeLen), (logAddr, logLen), (logAddr + 64, 16 * n)]⟩

/-- The reasons that reject a submission (R293), in ascending order. -/
def State.reasons (s : State) (ctx : Nat) (rt bad : Bool) (logAddr : Nat) (x : Submission) : List Nat :=
  let d := x.desc
  let all := d :: x.nodes.getD []
  let log := x.log.getD (LogIn.parse 0)
  let when := fun (n : Nat) (b : Bool) => if b then [n] else []
  when 1 (!d.fieldsOk || all.any fun e => !e.shapeOk) ++
  when 2 (all.any fun e => !e.fitsEmpty rt) ++
  when 3 (d.mode == 0 && d.verify) ++
  when 4 ((d.mode == 1 || d.mode == 2) && logAddr == 0 ||
    d.mode == 2 && x.log.isSome && (logAddr % 64 != 0 || log.desch != desch x.bytes || !log.done || log.full)) ++
  when 5 (d.mode != 0 && 2 ^ 39 < d.ngx * d.ngy * d.ngz) ++
  when 6 (d.cogrid && !s.gridFits d rt) ++
  when 7 (rt && all.any fun e => !e.rtOk) ++
  when 8 (x.nodes.isNone || x.log.isNone) ++
  when 9 (bad || d.evinc != 0 && !s.evOwned ctx d.event)

/-- A launch is accepted (R223, R292): it has a tag, its log is opened, and its groves become dispatchable. -/
def State.accept' (s : State) (q : Nat) (x : Queue) (logAddr : Nat) (sub : Submission) : State :=
  let id := s.nextId
  let log := sub.log.getD (LogIn.parse 0)
  let l : Launch := ⟨id, x.ctx, q, x.cls, s.ltagNext, sub.desc, sub.nodes.getD [], logAddr, 0, sub.recs, [], 0, 0⟩
  let s := { s with nextId := id + 1, ltagNext := (s.ltagNext + 1) % 2 ^ 16, launches := s.launches ++ [l] }
  let s := s.modQueue q fun x => { x with launch := some id }
  if sub.desc.mode = 0 then s
  else
    let ol : OrderLog := ⟨id, logAddr, log.cap, 0, false, []⟩
    let s := s.modCtx x.ctx fun c => { c with logs := ol :: c.logs }
    if sub.desc.mode = 1 then
      ((s.writeLong x.ctx 2 logAddr (leBytes 8 (desch sub.bytes))).1).writeLogHeader x.ctx ol false
    else s

/-- LAUNCH: the record starts, and the launch is submitted (R292, R293). -/
def execLaunch (q : Nat) (s : State) : Out :=
  .next (s.startCmd q 1 fun r s' =>
    let x := s.queue q
    let addr := natBits r 127 64
    let logAddr := natBits r 191 128
    if addr % 128 ≠ 0 then s'.rejectCmd q x.head 1
    else
      match s.readSubmission x.ctx addr logAddr with
      | .wait s => s
      | .refused .. => (s'.keepCp x.ctx (addr, 128)).rejectCmd q x.head 8
      | .ok sub =>
        let s' := sub.reads.foldl (fun s e => s.keepCp x.ctx e) s'
        match s.reasons x.ctx (realtimeClass x.cls) (s.badRecord x.ctx r) logAddr sub with
        | k :: _ => s'.rejectCmd q x.head k
        | [] => s'.accept' q x logAddr sub)

end Sys2Proof.Machine
end

