-- ==== Sys2Proof/Machine/Place.lean ====
section
/-! DEFINITION. Placement: which core and slot a grove may take, the order of dispatch, grove start, hand-over of cores and the end of groves and launches (02 R46, R49, R51, 10 R221, 14 R294-R298, R302, 16 R331-R333, 17 R369, R372). -/

namespace Sys2Proof.Machine

/-! ### Eligible cores -/

/-- A cluster, as at reset (R331, R365): no context has held it, so the candidates start at context 0 (log 12). -/
def Cluster.init : Cluster := ⟨none, 0, 63, none, 0⟩

/-- A cluster by number over the package. -/
def State.cluster (s : State) (c : Nat) : Cluster := tabGet Cluster.init s.clusters c

/-- Updates a cluster. -/
def State.modCluster (s : State) (c : Nat) (f : Cluster → Cluster) : State :=
  { s with clusters := tabSet Cluster.init s.clusters c (f (s.cluster c)) }

/-- The enabled contexts whose masks name a cluster (R331). -/
def State.namers (s : State) (c : Nat) : List Nat :=
  (List.range 64).filter fun x => s.ctxEnabled x && natBit (s.partMask x (c / 32)) (c % 32)

/-- A context may run ordinary groves on a cluster now: it alone names it, or it holds the grant and no draining switch runs there (R310, R331). -/
def State.holdsCluster (s : State) (ctx c : Nat) : Bool :=
  let x := s.cluster c
  s.namers c == [ctx] || x.grant == some ctx && x.drainAt.isNone

/-- The pool and tile words of two groves are identical (R77). -/
def Desc.sameSplit (a b : Desc) : Bool :=
  a.regs == b.regs && a.scratch == b.scratch && a.l1 == b.l1 && a.callstk == b.callstk && a.tas == b.tas && a.wbs == b.wbs && a.acs == b.acs

/-- A core is usable, lies in a context's partition, and is in no switch of that context (R295, R310, R331). -/
def State.coreOpen (s : State) (ctx core : Nat) : Bool :=
  let x := s.cluster (clusterOfCore core)
  s.usable core && s.inPartition ctx core && !((s.ctx ctx).drainSet.any fun e => e.1 == core) &&
    !(x.drainAt.isSome && x.grant == some ctx)

/-- The residency of a core holds a further grove (R25). -/
def State.residencyOk (s : State) (core : Nat) (d : Desc) : Bool :=
  let use := (s.grovesOn core).map fun g => g.desc.sideUse (core % 2)
  let u := d.sideUse (core % 2)
  (use.map Prod.fst).sum + u.1 ≤ 64 && (use.map Prod.snd).sum + u.2 ≤ 2048

/-- One core accepts an ordinary grove of a context into a slot (R295, R296, R331). -/
def State.acceptsOrdinary (s : State) (ctx core slot : Nat) (d : Desc) : Bool :=
  let here := s.grovesOn core
  let ord := here.filter fun g => !g.realtime
  let res := s.reserved core
  let u := d.sideUse (core % 2)
  let use := ord.map fun g => g.desc.sideUse (core % 2)
  let owner := (s.core core).owner
  s.holdsCluster ctx (clusterOfCore core) && (owner.isNone || owner == some ctx) && ord.all (fun g => g.ctx == ctx && g.desc.sameSplit d) &&
    slot < (if res then 3 else 4) && here.all (fun g => g.slot != slot) &&
    s.residencyOk core d && (use.map Prod.fst).sum + u.1 ≤ (if res then 56 else 64) && (use.map Prod.snd).sum + u.2 ≤ (if res then 1792 else 2048) &&
    d.l1 + (ord.map fun g => g.desc.groveGranules).sum + d.groveGranules ≤ 28 &&
    (slot + 1) * d.tas ≤ 16 && (slot + 1) * d.wbs ≤ 8 && (slot + 1) * d.acs ≤ 10

/-- A REALTIME grove fits into slot 3 of a core, once the ordinary groves of other contexts there are halted (R25, R77, R296, R298). -/
def State.rtRoom (s : State) (ctx : Nat) (d : Desc) (core : Nat) : Bool :=
  s.coreOpen ctx core && (s.grovesOn core).all (fun g => g.slot != 3) && s.residencyOk core d && d.fits true true 1

/-- One core accepts a REALTIME grove into slot 3: what stands there belongs to its own context or to a context halted in place (R295, R296, R333). -/
def State.acceptsRealtime (s : State) (ctx core slot : Nat) (d : Desc) : Bool :=
  slot == 3 && s.rtRoom ctx d core && (s.grovesOn core).all fun g => g.ctx == ctx || (s.ctx g.ctx).reported.contains core

/-- A core, or the pair from an even core, is eligible for a grove at a slot (R295). -/
def State.eligible (s : State) (ctx : Nat) (rt : Bool) (d : Desc) (core slot : Nat) : Bool :=
  let one := fun (c : Nat) =>
    s.coreOpen ctx c && (if rt then s.acceptsRealtime ctx c slot d else s.acceptsOrdinary ctx c slot d)
  one core && (!d.pair || core % 2 == 0 && one (core + 1))

/-- Groves of a context may be dispatched: it is enabled and not halted in place (R308, R329). -/
def State.dispatching (s : State) (ctx : Nat) : Bool := s.ctxEnabled ctx && !(s.ctx ctx).haltReq && !(s.ctx ctx).halted

/-- Some core and slot can take a grove now. -/
def State.placeable (s : State) (ctx : Nat) (rt : Bool) (d : Desc) (cores : List Nat) : Bool :=
  s.dispatching ctx && cores.any fun c => (List.range 4).any fun k => s.eligible ctx rt d c k

/-- The cores a record is offered (R46). -/
def ContRec.cores (r : ContRec) : List Nat :=
  if r.wide then (List.range 128).map fun i => 128 * r.die + i else (List.range 4).map fun i => 128 * r.die + 4 * r.cluster + i

/-- The launch of a record. -/
def State.launchOf (s : State) (id : Nat) : Option Launch := s.launches.find? fun l => l.id == id

/-! ### Grove start -/

/-- The cores a launch grove may take: its own under PLACED, any otherwise (R295, R297). -/
def State.launchCores (s : State) (d : Desc) (linear : Nat) : List Nat :=
  if d.placed then (s.placedCore d linear).toList else List.range 256

/-- A grove is selected by VERIFY (R369). -/
def selected (d : Desc) (tag : Nat) : Bool := d.verify && shakeNat 8 (leBytes 8 d.seed ++ leBytes 8 tag) % 1024 == 0

/-- The logical core a PLACED grove sees (R29, R51). -/
def logicalCore (d : Desc) (linear : Nat) : Option Nat :=
  if d.placed then some (if d.pair then 2 * (linear % 128) else linear % 256) else none

/-- A launch grove at its start (R28-R30). -/
def Launch.grove (l : Launch) (id linear core slot : Nat) : Grove :=
  let d := l.desc
  { d.grove id l.ctx l.id l.ltag core slot (d.lanes core []) (d.front core []) with
    linear := linear
    gx := linear % d.ngx
    gy := linear / d.ngx % d.ngy
    gz := linear / (d.ngx * d.ngy)
    coreName := logicalCore d linear
    realtime := realtimeClass l.cls }

/-- A node grove at its start (R46); no rule places it, so that its CORE is its own core's number also in a PLACED launch (R29, R51, log 26). -/
def Launch.nodeGrove (l : Launch) (id node core slot tag : Nat) (args : List (Nat × Word)) (daddr : Nat) : Grove :=
  let d := (l.nodes[node]?).getD l.desc
  let sregs := args ++ [(4, BitVec.ofNat 32 daddr), (5, BitVec.ofNat 32 (daddr / 2 ^ 32))]
  let keep := sregs.filter fun e => e.2 != 0
  { d.grove id l.ctx l.id l.ltag core slot (d.lanes core (args.filter fun e => e.2 != 0)) (d.front core keep) with
    node := true
    nodeTag := tag
    realtime := realtimeClass l.cls }

/-- An ordinary grove makes a core its context's (R327), and a change of the L1 carve there invalidates every line (R232). -/
def Core.takenBy (ctx l1 : Nat) (x : Core) : Core := { x with owner := some ctx, l1 := if x.l1Size = l1 then x.l1 else [], l1Size := l1 }

/-- A grove comes to stand on its cores, its threads ready from now on (R299, R327, R333). -/
def State.standGrove (s : State) (g : Grove) : State :=
  let ready := fun (t : Thread) => { t with since := s.cycleNow t.core }
  let g := { g.modLanes (fun _ => true) ready with front := ready g.front }
  let s := { s with nextId := s.nextId + 1, groves := s.groves ++ [g] }
  if g.realtime then s else g.cores.foldl (fun s c => s.modCore c (Core.takenBy g.ctx g.desc.l1)) s

/-- A grove starts; a selected original has its re-run due (R369). -/
def State.addGrove (s : State) (g : Grove) (node : Option (Nat × List (Nat × Word) × Nat)) : State :=
  let sel := selected g.desc g.tag
  let s := s.standGrove (if sel then { g with verify := 1 } else g)
  if sel then
    { s with launches := s.launches.map fun (l : Launch) =>
        if l.id == g.launch then { l with reruns := l.reruns ++ [⟨g.tag, g.core, node, false, 0, none, none, false⟩] } else l }
  else s

/-- Updates a launch. -/
def State.modLaunch (s : State) (id : Nat) (f : Launch → Launch) : State :=
  { s with launches := s.launches.map fun l => if l.id == id then f l else l }

/-- A launch grove is dispatched: its queue's turn passes, and with the last of them the queue goes on (R292, R294). -/
def State.dispatchLaunch (s : State) (l : Launch) (core slot : Nat) : State :=
  let s := s.addGrove (l.grove s.nextId l.next core slot) none
  let s := s.modLaunch l.id fun l => { l with next := l.next + 1 }
  let s := { s with turns := tabSet 63 s.turns l.cls l.queue }
  if l.next + 1 = l.desc.size then s.modQueue l.queue fun q => { q with launch := if q.launch == some l.id then none else q.launch }
  else s

/-- A core may run a re-run of an original: on another die, or, in a context of one die, in another cluster (R369). -/
def State.partnerOk (s : State) (ctx orig core : Nat) : Bool :=
  if s.home1 ctx then dieOfCore core != dieOfCore orig else clusterOfCore core != clusterOfCore orig

/-! ### Order of dispatch -/

/-- What the log of a replayed launch says of a record's dequeue (R224); a record of another mode is free to go. -/
def State.contTurn (s : State) (l : Launch) (r : ContRec) : ReplayTurn :=
  if l.desc.mode = 2 then s.replayTurn l.ctx l.id r.record else .now 0

/-- A record could be placed now. -/
def State.contFits (s : State) (r : ContRec) : Bool :=
  match s.launchOf r.launch with
  | none => false
  | some l => s.placeable l.ctx (realtimeClass l.cls) ((l.nodes[r.node]?).getD l.desc) r.cores

/-- The record of a list in arrival order that is taken first: one that can be placed, with none of its own launch before it; a record that cannot be placed holds back those of its launch only (R46, R294). -/
def State.firstCont (s : State) : List Nat → List ContRec → Option Nat
  | _, [] => none
  | held, r :: rest =>
    if held.contains r.launch then s.firstCont held rest
    else if s.contFits r then some r.id
    else s.firstCont (r.launch :: held) rest

/-- The launch of a record replays a log. -/
def State.contReplays (s : State) (r : ContRec) : Bool := ((s.launchOf r.launch).map fun l => l.desc.mode == 2).getD false

/-- A record is the next of its queue and class, or its turn has come in its log (R46, R224). -/
def State.contNext (s : State) (l : Launch) (r : ContRec) : Bool :=
  if l.desc.mode = 2 then
    (match s.contTurn l r with
    | .now _ => true
    | _ => false)
  else
    s.firstCont [] (s.conts.filter fun x => x.die == r.die && x.cluster == r.cluster && x.cls == r.cls && !s.contReplays x) == some r.id

/-- A record can be dispatched now. -/
def State.contReady (s : State) (r : ContRec) : Bool :=
  s.contFits r && ((s.launchOf r.launch).map fun l => s.contNext l r).getD false

/-- Another COGRID launch waits for room and holds back the launch groves of its class and of lower classes; of two of one class the earlier goes first (R298, log 53). -/
def State.cogridWaits (s : State) (l : Launch) : Bool :=
  s.launches.any fun o => o.desc.cogrid && o.next == 0 && s.ctxEnabled o.ctx && o.id != l.id &&
    (o.cls < l.cls || o.cls == l.cls && (!l.desc.cogrid || o.id < l.id))

/-- Places for the next n groves of a grid, each the first that takes it, none where one finds no place; the groves are alike, so that the first place is as good as any (R298). -/
def State.gridPlaces (id : Nat) : Nat → State → Option (List (Nat × Nat))
  | 0, _ => some []
  | n + 1, s =>
    match s.launchOf id with
    | none => none
    | some l =>
      let slotAt := fun (c : Nat) =>
        ((List.range 4).find? fun k => s.eligible l.ctx (realtimeClass l.cls) l.desc c k).map fun k => (c, k)
      match (s.launchCores l.desc l.next).findSome? slotAt with
      | none => none
      | some (c, k) => (gridPlaces id n (s.dispatchLaunch l c k)).map fun r => (c, k) :: r

/-- A launch has a launch grove that can be dispatched now, all of them for a COGRID launch (R294, R298). -/
def State.launchReady (s : State) (l : Launch) : Bool :=
  l.next < l.desc.size && !s.cogridWaits l && s.dispatching l.ctx &&
    (if l.desc.cogrid then l.next == 0 && l.desc.size ≤ 1024 && (State.gridPlaces l.id l.desc.size s).isSome
    else s.placeable l.ctx (realtimeClass l.cls) l.desc (s.launchCores l.desc l.next))

/-- The descriptor of a re-run (R369). -/
def Launch.rerunDesc (l : Launch) (r : Rerun) : Desc :=
  match r.node with
  | none => l.desc
  | some (n, _, _) => (l.nodes[n]?).getD l.desc

/-- The cores a re-run may take (R369). -/
def State.rerunCores (s : State) (l : Launch) (r : Rerun) : List Nat := (List.range 256).filter fun c => s.partnerOk l.ctx r.core c

/-- A re-run is due and can be dispatched now (R294, R369). -/
def State.rerunReady (s : State) (l : Launch) (r : Rerun) : Bool :=
  !r.started && s.placeable l.ctx (realtimeClass l.cls) (l.rerunDesc r) (s.rerunCores l r)

/-- No grove of a higher class, and, for a launch grove, no node grove of its class, goes first; a re-run goes with the groves of its kind (R294, R369). -/
def State.firstInClass (s : State) (cls : Nat) (node : Bool) : Bool :=
  !(s.conts.any fun r => (r.cls < cls || !node && r.cls == cls) && s.contReady r) &&
    (s.launches.all fun l => !(l.cls < cls && s.launchReady l)) &&
    s.launches.all fun l => l.reruns.all fun r => !((l.cls < cls || !node && l.cls == cls && r.node.isSome) && s.rerunReady l r)

/-- A queue's turn among the queues of its class that have a dispatchable grove, after the last one served (R294). -/
def State.queueTurn (s : State) (l : Launch) : Bool :=
  let last := tabGet 63 s.turns l.cls
  let dist := fun (q : Nat) => (q + 63 - last) % 64
  !s.launches.any fun o => o.id != l.id && o.cls == l.cls && dist o.queue < dist l.queue &&
    (s.launchReady o || o.reruns.any fun r => r.node.isNone && s.rerunReady o r)

/-- A re-run at its start (R369). -/
def Launch.rerunGrove (l : Launch) (id core slot : Nat) (r : Rerun) : Grove :=
  let base := match r.node with
    | none => l.grove id r.tag core slot
    | some (n, args, daddr) => l.nodeGrove id n core slot r.tag args daddr
  { base with verify := 2 }

/-- The re-run of a VERIFY grove is dispatched, in its turn (R294, R369). -/
def State.dispatchRerun (s : State) (l : Launch) (core slot : Nat) : State :=
  let rt := realtimeClass l.cls
  match l.reruns.find? fun r => !r.started && s.partnerOk l.ctx r.core core && s.eligible l.ctx rt (l.rerunDesc r) core slot with
  | none => s
  | some r =>
    if s.dispatching l.ctx && s.firstInClass l.cls r.node.isSome && (r.node.isSome || s.queueTurn l) then
      let s := s.standGrove (l.rerunGrove s.nextId core slot r)
      let s := if r.node.isSome then s else { s with turns := tabSet 63 s.turns l.cls l.queue }
      s.modLaunch l.id fun l =>
        { l with reruns := l.reruns.map fun x => if x.tag == r.tag then { x with started := true, partner := core } else x }
    else s

/-- GROVE_DISPATCH: the next launch grove of a launch, or a re-run that is due, takes a core and a slot (R294-R297). -/
def execGroveDispatch (l core slot : Nat) (rerun : Bool) (s : State) : Out :=
  .next (match s.launchOf l with
    | none => s
    | some l =>
      if rerun then s.dispatchRerun l core slot
      else if !l.desc.cogrid && s.launchReady l && s.firstInClass l.cls false && s.queueTurn l &&
          (s.launchCores l.desc l.next).contains core && s.eligible l.ctx (realtimeClass l.cls) l.desc core slot then
        s.dispatchLaunch l core slot
      else s)

/-- Places the groves of a grid one by one, none where one does not fit (R298). -/
def State.placeGrid (s : State) (id : Nat) : List (Nat × Nat) → Option State
  | [] => some s
  | (core, slot) :: r =>
    match s.launchOf id with
    | none => none
    | some l =>
      if (s.launchCores l.desc l.next).contains core && s.eligible l.ctx (realtimeClass l.cls) l.desc core slot then
        (s.dispatchLaunch l core slot).placeGrid id r
      else none

/-- COGRID_DISPATCH: all groves of a COGRID launch are dispatched in one step, in ascending linear id at the places given (R298). -/
def execCogridDispatch (l : Nat) (places : List (Nat × Nat)) (s : State) : Out :=
  .next (match s.launchOf l with
    | none => s
    | some x =>
      if x.desc.cogrid && x.next == 0 && places.length == x.desc.size && s.dispatching x.ctx && !s.cogridWaits x &&
          s.firstInClass x.cls false && s.queueTurn x then
        (s.placeGrid l places).getD s
      else s)

/-- The number of CONTQ records that stand before index k in a list (R221). -/
def contBefore : Nat → List Nat → Nat
  | 0, _ => 0
  | _, [] => 0
  | k + 1, r :: rest => b2n (recKind r == 4) + contBefore k rest

/-- A record becomes a node grove (R46), with its node tag (R221). -/
def State.dequeue (s : State) (l : Launch) (r : ContRec) (core slot n : Nat) : State :=
  let tag := 2 ^ 39 + n
  let s := { s with conts := s.conts.filter fun x => x.id != r.id }
  let s := s.modLaunch l.id fun l => { l with nnodes := l.nnodes + 1 }
  s.addGrove (l.nodeGrove s.nextId r.node core slot tag r.args r.daddr) (some (r.node, r.args, r.daddr))

/-- NODE_GROVE_DISPATCH: the next record of its queue and class becomes a node grove (R46, R220, R294). -/
def execNodeGroveDispatch (r core slot : Nat) (s : State) : Out :=
  .next (match s.conts.find? fun x => x.id == r with
    | none => s
    | some r =>
      match s.launchOf r.launch with
      | none => s
      | some l =>
        let rt := realtimeClass l.cls
        let d := (l.nodes[r.node]?).getD l.desc
        let ok := s.dispatching l.ctx && s.contNext l r && r.cores.contains core && s.eligible l.ctx rt d core slot && s.firstInClass l.cls true
        match s.contTurn l r with
        | .diverge k =>
          if l.desc.mode = 2 ∧ (s.unconsumed l.ctx l.id).all (fun e => recPoint e.2 != recPoint r.record || recOwner e.2 != recOwner r.record) then
            s.endContext l.ctx { Report.plain 3 0x1A with detail := 1, tval := k }
          else s
        | .wait _ => s
        | .now k =>
          if !ok then s
          else if l.desc.mode = 1 then
            match s.logAppend l.ctx l.id r.record with
            | (s, true) => s.dequeue l r core slot l.nnodes
            | (s, false) => s.endContext l.ctx { Report.plain 3 0x13 with detail := 2 }
          else if l.desc.mode = 2 then (s.consume l.ctx l.id k).dequeue l r core slot (contBefore k (l.replay.map leNat))
          else s.dequeue l r core slot l.nnodes)

/-- CONTQ_FALLBACK: after 4,096 ticks a record is offered to any core of its die, unless its context is halted (R46, R52, R302). -/
def execContqFallback (r : Nat) (s : State) : Out :=
  .next { s with conts := s.conts.map fun (x : ContRec) =>
      if x.id == r && decide (x.born + 4096 ≤ s.gt) && !((s.launchOf x.launch).map fun l => (s.ctx l.ctx).halted).getD false then
        { x with wide := true } else x }

/-! ### The cores REALTIME work is bound for -/

/-- The cores of a REALTIME grid: those of its groves under PLACED, and else the first with room; none while there are too few (R298, log 53). -/
def State.rtGrid (s : State) (l : Launch) : Option (List Nat) :=
  let n := l.desc.size
  let cs := if 256 < n then [] else if l.desc.placed then (List.range n).filterMap (s.placedCore l.desc)
    else ((List.range 256).filter (s.rtRoom l.ctx l.desc)).take n
  if cs.length = n ∧ cs.eraseDups.length = n ∧ cs.all (s.rtRoom l.ctx l.desc) = true then some cs else none

/-- The cores onto which a REALTIME launch is about to dispatch a launch grove, its grid, or a re-run (R298, R306). -/
def State.rtLaunchCores (s : State) (l : Launch) : List Nat :=
  if !realtimeClass l.cls || !s.dispatching l.ctx then []
  else
    (if l.desc.size ≤ l.next then [] else if l.desc.cogrid then (s.rtGrid l).getD []
      else (s.launchCores l.desc l.next).filter (s.rtRoom l.ctx l.desc)) ++
    (l.reruns.filter fun r => !r.started).flatMap fun r => (s.rerunCores l r).filter (s.rtRoom l.ctx (l.rerunDesc r))

/-- The cores onto which a REALTIME record is about to be dispatched: none while an earlier one of its queue goes first (R46, R306). -/
def State.rtContCores (s : State) (r : ContRec) : List Nat :=
  match s.launchOf r.launch with
  | none => []
  | some l =>
    let before := s.conts.any fun x =>
      x.die == r.die && x.cluster == r.cluster && x.cls == r.cls && x.launch == r.launch && decide (x.id < r.id)
    if !realtimeClass r.cls || !s.dispatching l.ctx || (if s.contReplays r then !s.contNext l r else before) then []
    else r.cores.filter (s.rtRoom l.ctx ((l.nodes[r.node]?).getD l.desc))

/-! ### Hand-over and retirement -/

/-- A context holds a core: it owns it, or a grove of it stands there. -/
def State.holdsCore (s : State) (v core : Nat) : Bool := (s.core core).owner == some v || (s.grovesOn core).any fun g => g.ctx == v

/-- A draining switch is over once each of its cores has been handed over and holds no grove of the context (R310). -/
def State.endDrain (s : State) (v : Nat) : State :=
  s.modCtx v fun x => { x with drainSet := x.drainSet.filter fun e => s.holdsCore v e.1 }

/-- CORE_HANDOVER: a core that holds no grove is wiped and leaves its owner (R332). -/
def execCoreHandover (core : Nat) (s : State) : Out :=
  .next (if core < 256 && (s.grovesOn core).isEmpty then
    let owner := (s.core core).owner
    let s := s.modCore core fun c => { c with owner := none, l1 := [], l1Size := 0, seeds := [], timers := [] }
    match owner with
    | none => s
    | some x => s.endDrain x
  else s)

/-- The grove's work is done (R49). -/
def State.retirable (s : State) (g : Grove) : Bool :=
  g.threads.all (fun e => e.2.life == .exited || e.2.life == .empty) && !s.hasSeeds g.id && !s.bteBusy g.id &&
    g.msq.isNone && g.loads.isEmpty && !(s.cmds.any fun c => c.gid == g.id) && !(s.reqs.any fun r => r.gid == g.id && r.op != .prefetch) &&
    !s.peerStores.any fun p => p.gid == g.id

/-- The first unconsumed record of a replayed launch, with its index. -/
def State.firstLeft (s : State) (l : Launch) : Option Nat :=
  if l.desc.mode = 2 then ((s.unconsumed l.ctx l.id).head?).map Prod.fst else none

/-- A launch whose groves and records are gone completes: its log is closed and its event counter is signalled, unless its replay left records (R49, R223, R224, R292). -/
def State.tryComplete (s : State) (id : Nat) : State :=
  match s.launchOf id with
  | none => s
  | some l =>
    if l.next < l.desc.size || (s.groves.any fun g => g.launch == id) || (s.conts.any fun r => r.launch == id) || !l.reruns.isEmpty then s
    else
      match s.firstLeft l with
      | some k => s.endContext l.ctx { Report.plain 3 0x1A with detail := 4, tval := k }
      | none =>
        let s := if l.desc.mode = 1 then s.writeLogHeader l.ctx (s.orderLog l.ctx id) true else s
        let s := { s with launches := s.launches.filter fun x => x.id != id }
        let s := s.modCtx l.ctx fun c => { c with logs := c.logs.filter fun x => x.launch != id }
        if l.desc.evinc = 0 then s else s.addEvent l.desc.event l.desc.evinc

/-- The digest of a retiring grove of a check is kept (R370, R372). -/
def Rerun.note (g : Grove) (r : Rerun) : Rerun :=
  if r.tag != g.tag then r
  else if g.verify = 1 then { r with orig := some g.digest }
  else if g.verify = 2 then { r with again := some g.digest, skipped := g.skipped }
  else r

/-- The L1 lines of a REALTIME grove's context leave the cores it stood on (R333). -/
def State.dropGuest (s : State) (g : Grove) : State :=
  if g.realtime then g.cores.foldl (fun s c => s.modCore c fun x => { x with l1 := x.l1.filter fun l => l.ctx != g.ctx }) s else s

/-- GROVE_RETIRE: a grove whose work is done leaves its core, and the last of a launch completes it, as a release of the launch's own stores (R49, R292). -/
def execGroveRetire (gid : Nat) (s : State) : Out :=
  .next (match s.grove? gid with
    | none => s
    | some g =>
      let t := max g.relTime ((s.launchOf g.launch).map Launch.relTime |>.getD 0)
      let last := !(s.groves.any fun o => o.launch == g.launch && o.id != gid)
      if !s.retirable g || (last && s.gt < t) then s
      else
        let s := ({ s with groves := s.groves.filter fun o => o.id != gid } : State).dropGuest g
        let s := s.modLaunch g.launch fun l => { l with relTime := t, reruns := l.reruns.map (Rerun.note g) }
        (s.endDrain g.ctx).tryComplete g.launch)

/-- VERIFY_COMPARE: the digests of an original and its re-run are compared once both have retired; a mismatch ends the context, and the two cores take no more groves; a check that ended early is counted as skipped (R370, R372). -/
def execVerifyCompare (l tag : Nat) (s : State) : Out :=
  .next (match s.launchOf l with
    | none => s
    | some x =>
      match x.reruns.find? fun r => r.tag == tag with
      | none => s
      | some r =>
        match r.orig, r.again with
        | some a, some b =>
          if r.skipped || a = b then
            let s := if r.skipped then s.count 5 else s
            (s.modLaunch l fun x => { x with reruns := x.reruns.filter fun y => y.tag != tag }).tryComplete l
          else
            let s := [r.core, r.partner].foldl (fun s c => s.modCore c fun k => { k with fenced := true }) s
            s.endContext x.ctx { Report.plain 4 0 with core := r.core, detail := r.partner }
        | _, _ => s)

end Sys2Proof.Machine
end

