-- ==== Sys2Proof/Machine/Residency.lean ====
section
/-! DEFINITION. Halt in place and resumption, draining switches and temporal slices, cluster grants, and the release or kill of parked threads (14 R306-R310, 16 R331, 17 R357, R358). -/

namespace Sys2Proof.Machine

/-! ### Halt in place -/

/-- The cores a context holds: those it owns, and those its ordinary groves stand on (R306). -/
def State.heldCores (s : State) (v : Nat) : List Nat :=
  (List.range 256).filter fun c => (s.core c).owner == some v || (s.grovesOn c).any fun g => g.ctx == v && !g.realtime

/-- REALTIME work of another context is bound for a core of a list, whose slot 3 has room for it (R298, R306). -/
def State.rtBound (s : State) (v : Nat) (cores : List Nat) : Bool :=
  (s.launches.any fun l => l.ctx != v && (s.rtLaunchCores l).any fun c => cores.contains c) ||
    s.conts.any fun r => ((s.launchOf r.launch).map Launch.ctx) != some v && (s.rtContCores r).any fun c => cores.contains c

/-- The dies a context holds (R385). -/
def State.holdsDie (s : State) (v die : Nat) : Bool := s.ctxEnabled v && s.partMask v die != 0

/-- HALT_IN_PLACE_REQUEST: a context becomes a victim (R306, R307). -/
def execHaltInPlaceRequest (v : Nat) (s : State) : Out :=
  let busy := (s.heldCores v).filter fun c => (s.grovesOn c).any fun g => g.ctx == v && !g.realtime
  let relocking := [0, 1].any fun d => s.holdsDie v d && !s.clocked d
  .next (if !(s.ctx v).haltReq && !(s.ctx v).halted && s.ctxEnabled v && !relocking && s.rtBound v busy then
    s.modCtx v fun c => { c with haltReq := true, reported := [] }
  else s)

/-- A grove's timers on a core stop: each holds what it has still to run (R52). -/
def Core.stopTimers (gids : List Nat) (cyc : Nat) (c : Core) : Core :=
  { c with timers := c.timers.map fun (e : Nat × Nat) => if gids.contains (e.1 / 16) then (e.1, e.2 - cyc) else e }

/-- They run on. -/
def Core.runTimers (gids : List Nat) (cyc : Nat) (c : Core) : Core :=
  { c with timers := c.timers.map fun (e : Nat × Nat) => if gids.contains (e.1 / 16) then (e.1, e.2 + cyc) else e }

/-- The ordinary groves of a context. -/
def State.ordinary (s : State) (v : Nat) : List Nat := (s.groves.filter fun g => g.ctx == v && !g.realtime).map Grove.id

/-- What finishes first on a core before it halts: gatherings that have completed, and traps that words have met (R307, R309). -/
def State.haltWork (s : State) (v core : Nat) : Bool :=
  (s.grovesOn core).any fun g => g.ctx == v && !g.realtime &&
    (g.gathered core || g.threads.any fun e => e.2.core == core && (e.2.seg.bind Seg.trap).isSome)

/-- HALT_REPORT: a core of a victim stands at word boundaries; with the last of them the victim is halted (R307-R309). -/
def execHaltReport (v core : Nat) (s : State) : Out :=
  .next (if (s.ctx v).haltReq && !(s.ctx v).reported.contains core && (s.heldCores v).contains core && !s.haltWork v core then
    let gids := s.ordinary v
    let s := s.modCore core (Core.stopTimers gids (s.cycOf core))
    let s := { s with groves := s.groves.map fun (g : Grove) =>
        if gids.contains g.id && g.cores.contains core then { g with msq := g.msq.map fun (m : Msq) => { m with held := true } } else g }
    let s := s.modCtx v fun c => { c with reported := core :: c.reported }
    if (s.heldCores v).all fun c => (s.ctx v).reported.contains c then
      s.modCtx v fun c => { c with haltReq := false, halted := true, haltAt := s.gt }
    else s
  else s)

/-- A start of counting, moved by the part of a halt that it has seen (R305, R308). -/
def afterHalt (halt now since : Nat) : Nat := since + (now - max halt since)

/-- Waits that do not count halted time begin later (R305, R308). -/
def Wait.later (f : Nat → Nat) : Wait → Wait
  | .gather i on since => .gather i on (f since)
  | .bar h p since => .bar h p (f since)
  | .gbar k since => .gbar k (f since)
  | .sstep k a since => .sstep k a (f since)
  | .replay since => .replay (f since)
  | w => w

/-- A grove resumes, its waits counting from f of their start (R308). -/
def Grove.resume (f : Nat → Nat) (g : Grove) : Grove :=
  let one := fun (t : Thread) => { t with wait := t.wait.later f }
  { g.modLanes (fun _ => true) one with front := one g.front, msq := g.msq.map fun (m : Msq) => { m with held := false } }

/-- CONTEXT_RESUME: no REALTIME grove of another context stands on, or waits for, a core of the victim (R308). -/
def execContextResume (v : Nat) (s : State) : Out :=
  let held := s.heldCores v
  let foreign := held.any fun c => (s.grovesOn c).any fun g => g.realtime && g.ctx != v
  .next (if (s.ctx v).halted && !foreign && !s.rtBound v held then
    let f := afterHalt (s.ctx v).haltAt s.gt
    let gids := s.ordinary v
    let mine := fun (launch : Nat) => ((s.launchOf launch).map fun l => l.ctx == v).getD false
    let cores := s.cores.map fun (e : Nat × Core) =>
      (e.1, if (s.ctx v).reported.contains e.1 then e.2.runTimers gids (s.cycOf e.1) else e.2)
    let clusters := s.clusters.map fun (e : Nat × Cluster) =>
      (e.1, if e.2.grant == some v then { e.2 with since := f e.2.since, drainAt := e.2.drainAt.map f } else e.2)
    let s := { s with
      groves := s.groves.map fun (g : Grove) => if gids.contains g.id then g.resume f else g
      conts := s.conts.map fun (r : ContRec) => if mine r.launch then { r with born := f r.born } else r
      cores := cores
      clusters := clusters }
    s.modCtx v fun c => { c with halted := false, reported := [], drainSet := c.drainSet.map fun e => (e.1, f e.2) }
  else s)

/-! ### Switches and slices -/

/-- A COGRID grove of a context is resident (R298). -/
def State.hasCogrid (s : State) (v : Nat) : Bool := s.groves.any fun g => g.ctx == v && g.desc.cogrid && !g.node

/-- CONTEXT_SWITCH: a draining switch of a context begins on the cores of a set that it holds (R298, R310). -/
def execContextSwitch (w : CoreSwitch) (s : State) : Out :=
  let v := w.ctx
  .next (if s.ctxEnabled v && !s.hasCogrid v && !(s.ctx v).halted then
    let new := (List.range 256).filter fun c => w.cores.contains c && s.holdsCore v c && !(s.ctx v).drainSet.any fun e => e.1 == c
    s.modCtx v fun c => { c with drainSet := c.drainSet ++ new.map fun k => (k, s.gt) }
  else s)

/-- The drain watchdog of a context in ticks (R310, R328). -/
def State.wdog (s : State) (v : Nat) : Nat := 1000 * ((s.csrRaw v 8).toNat % 2 ^ 28)

/-- A draining switch of a context has lasted longer than its watchdog, with groves still to retire (R310). -/
def State.drainLate (s : State) (v : Nat) : Bool :=
  let here := fun (p : Nat → Bool) => s.groves.any fun g => g.ctx == v && g.cores.any p
  ((s.ctx v).drainSet.any fun e => decide (e.2 + s.wdog v ≤ s.gt) && here fun c => c == e.1) ||
    (List.range 64).any fun c =>
      (s.cluster c).grant == some v && (match (s.cluster c).drainAt with
        | some t => decide (t + s.wdog v ≤ s.gt)
        | none => false) && here fun k => clusterOfCore k == c

/-- DRAIN_WATCHDOG: the context ends with WATCHDOG (R310, R359). -/
def execDrainWatchdog (v : Nat) (s : State) : Out :=
  .next (if !(s.ctx v).halted && s.drainLate v then s.endContext v (Report.plain 2 0x1B) else s)

/-- A context has work to dispatch that a cluster could take: launch groves, all of a COGRID's, re-runs and the records offered to it (R46, R298, R331, R369). -/
def State.hasWork (s : State) (v c : Nat) : Bool :=
  let here := fun (cores : List Nat) => cores.any fun k => clusterOfCore k == c
  (s.launches.any fun l => l.ctx == v && !realtimeClass l.cls &&
    (l.next < l.desc.size && here ((List.range (if l.desc.cogrid then min l.desc.size 1024 else 1)).flatMap fun i => s.launchCores l.desc (l.next + i)) ||
      l.reruns.any fun r => !r.started && here (s.rerunCores l r))) ||
  s.conts.any fun r => !realtimeClass r.cls && ((s.launchOf r.launch).map Launch.ctx) == some v && here r.cores

/-- An ordinary grove of a context stands in a cluster. -/
def State.inCluster (s : State) (v c : Nat) : Bool :=
  s.groves.any fun g => g.ctx == v && !g.realtime && g.cores.any fun k => clusterOfCore k == c

/-- TEMPORAL_SLICE_EXPIRY: the holder of a cluster begins to leave it when another context has work for it (R331). -/
def execTemporalSliceExpiry (c : Nat) (s : State) : Out :=
  .next (match (s.cluster c).grant with
    | none => s
    | some v =>
      let slice := 1000 * ((s.csrRaw v 5).toNat % 2 ^ 24)
      let rival := (s.namers c).any fun x => x != v && s.hasWork x c
      if slice ≠ 0 ∧ (s.cluster c).drainAt = none ∧ (s.cluster c).since + slice ≤ s.gt ∧ rival = true ∧
          s.hasCogrid v = false ∧ (s.ctx v).halted = false then
        s.modCluster c fun x => { x with drainAt := some s.gt }
      else s)

/-- A cluster is not granted: no one holds it, or its holder has neither a grove on it nor work for it, or has drained from it (R331). -/
def State.ungranted (s : State) (c : Nat) : Bool :=
  match (s.cluster c).grant with
  | none => true
  | some v => !s.inCluster v c && ((s.cluster c).drainAt.isSome || !s.hasWork v c)

/-- The place of a context in the order of candidates after the last holder (R331). -/
def grantRank (last v : Nat) : Nat := (v + 63 - last) % 64

/-- CLUSTER_GRANT: an ungranted cluster goes to the next context with work for it; after a drain, once its cores are handed over (R331). -/
def execClusterGrant (c v : Nat) (s : State) : Out :=
  let last := (s.cluster c).lastCtx
  let works := (s.namers c).filter fun x => s.hasWork x c
  let handed := (s.cluster c).drainAt.isNone || (List.range 4).all fun k => (s.core (4 * c + k)).owner.isNone
  .next (if c < 64 && s.ungranted c && handed && works.contains v && works.all (fun x => grantRank last v ≤ grantRank last x) then
    s.modCluster c fun x => { x with grant := some v, since := s.gt, lastCtx := v, drainAt := none }
  else s)

/-! ### Parked threads -/

/-- A record of a die's deadfall queue (R357). -/
def State.deadfall? (s : State) (die idx : Nat) : Option Deadfall := (tabGet [] s.deadfalls die).find? fun d => d.idx == idx

/-- The record leaves the queue, and its thread runs (R358). -/
def State.unpark (s : State) (die : Nat) (d : Deadfall) : State :=
  let s := { s with deadfalls := tabSet [] s.deadfalls die ((tabGet [] s.deadfalls die).filter fun x => x.idx != d.idx) }
  s.modThread d.gid (if d.front then none else some d.tid) fun t => { t with life := .run, wait := .none }

/-- DFACT_RELEASE: a parked thread tries its faulting word again (R357, R358). -/
def execDfactRelease (die idx : Nat) (s : State) : Out :=
  .next (match s.deadfall? die idx with
    | some d => if s.hub.ready then s.unpark die d else s
    | none => s)

/-- DFACT_KILL: a parked thread traps TRANSLATION with DETAIL 2 (R357, R358). -/
def execDfactKill (die idx : Nat) (s : State) : Out :=
  .next (match s.deadfall? die idx with
    | some d =>
      if s.hub.ready then
        (s.unpark die d).takeTrap d.gid (if d.front then none else some d.tid)
          ⟨0, d.pc, 0x07, 2, false, false, BitVec.ofNat 64 d.va, none⟩
      else s
    | none => s)

end Sys2Proof.Machine
end

