-- ==== Sys2Proof/Machine/HostSide.lean ====
section
/-! DEFINITION. What the host and the peers do: snoops of host lines, evictions, CXL.mem accesses to homes 0 and 1, back-invalidate responses, and inbound peer accesses (12 R261-R263, 16 R340, R341, 17 R362). -/

namespace Sys2Proof.Machine

/-- The lines kept at a home for a physical line. -/
def State.linesAt (s : State) (pline : Nat) : List (Nat × Line) := s.lines.filter fun e => e.2.phys.map (· / 128) == some pline

/-- Every lease on a physical line has expired (R261). -/
def State.leasesOver (s : State) (pline : Nat) : Bool := (s.linesAt pline).all fun e => e.2.h < s.gt

/-- Every accepted store to a physical line is visible (R261). -/
def State.storesSeen (s : State) (pline : Nat) : Bool := (s.linesAt pline).all fun e => e.2.p ≤ s.gt

/-- A line's bytes as they leave the device. -/
def State.lineBytes (s : State) (pline : Nat) : List Byte := s.bytesFor none (pline * 128) 128

/-- An answer to the host about a line: its code, with the CXL poison indication when the line is poisoned (R261, R362). Codes: 1 RspSFwdM, 2 RspSHitSE, 3 RspIFwdM, 4 RspIHitSE, 5 RspVFwdV, 6 RspVHitV, 7 DirtyEvict, 8 CleanEvict, 9 CXL.mem read data; 16 more with the poison indication. -/
def State.answerHost (s : State) (pline code : Nat) (data : Bool) : State :=
  s.emit 7 pline (code + 16 * b2n (data && s.anyPoison (pline * 128) 128)) (if data then s.lineBytes pline else [])

/-- A host snoop of a line the device holds waits at the hub (R261). -/
def State.snoop (s : State) (pline kind : Nat) : State :=
  if tabGet 0 s.mesi pline = 0 then s else { s with snoops := s.snoops ++ [⟨pline, kind⟩] }

/-- SNP_DATA (R261). -/
def execSnpData (line : Nat) (s : State) : Out := .next (s.snoop line 0)
/-- SNP_INV (R261). -/
def execSnpInv (line : Nat) (s : State) : Out := .next (s.snoop line 1)
/-- SNP_CUR (R261). -/
def execSnpCur (line : Nat) (s : State) : Out := .next (s.snoop line 2)

/-- Whether a snoop of a line in a MESI state can be answered, with its code and the state after (R261). -/
def State.snoopAnswer (s : State) (x : Snoop) : Option (Nat × Nat) :=
  let st := tabGet 0 s.mesi x.line
  let seen := s.storesSeen x.line
  let both := s.leasesOver x.line && seen
  match x.kind with
  | 0 => if both then some (if st = 3 then (1, 1) else (2, 1)) else none
  | 1 => if both then some (if st = 3 then (3, 0) else (4, 0)) else none
  | _ => if st = 3 then (if seen then some (5, 3) else none) else some (6, st)

/-- SNOOP_RESPONSE: a held snoop is answered once leases have expired and stores are visible (R261). -/
def execSnoopResponse (line : Nat) (s : State) : Out :=
  .next (match s.snoops.find? fun x => x.line == line with
    | none => s
    | some x =>
      match s.snoopAnswer x with
      | none => s
      | some (code, after) =>
        let s := s.answerHost line code (code % 2 == 1)
        { s with snoops := s.snoops.erase x, mesi := tabSet 0 s.mesi line after })

/-- HUB_EVICTION: the hub gives up a host line whose leases have expired and whose stores are visible (R261); of the two messages for a clean line it sends CleanEvict (log 54). -/
def execHubEviction (line : Nat) (s : State) : Out :=
  .next (
    let st := tabGet 0 s.mesi line
    if st = 0 || s.snooped 3 line || !s.leasesOver line || !s.storesSeen line then s
    else
      let s := s.answerHost line (if st = 3 then 7 else 8) (st == 3)
      { s with mesi := tabSet 0 s.mesi line 0 })

/-- The context HDM accesses act for, when HDMCTX is valid (R341, R343). -/
def State.hdmCtx (s : State) : Option Nat :=
  let v := (s.devReg 8).toNat
  if natBit v 6 then some (v % 64) else none

/-- A refused HDM access counts (R341). -/
def State.countRefusal (s : State) : State := { s with hub := { s.hub with refused := s.hub.refused + 1 } }

/-- The line is locked by a commit or owned by an engine, so that an access from outside waits (R255, R258). -/
def State.lineHeld (s : State) (lk : Nat) : Bool := (s.line lk).lock.isSome || (s.line lk).owner.isSome

/-- An offset lies in the HDM decoder of a live die, which is as large as the die's live HBM; before READY no access is answered (R378, R380). -/
def State.hdmHit (s : State) (die off : Nat) : Bool :=
  s.hub.ready && die < 2 && s.stackMask die != 0 && off < s.liveStacks die * 2 ^ 36

/-- An access of the host or of a peer to a line waits: the line is held, a store of such an agent is still to become visible, or the physical line is barred (R255, R258, R261, log 45). -/
def State.outsideWaits (s : State) (home lk pk : Nat) (write : Bool) : Bool :=
  s.lineHeld lk || s.barred home (pk / 128) || !write && s.lineComing lk

/-- A refused read returns its line with the poison indication, and no bytes of memory (R341). -/
def State.refuseRead (s : State) (die off : Nat) : State := (s.emit 7 (lineKey die off / 128) 25 []).countRefusal

/-- HOST_MEM_READ: a host read of a line of a die's HDM; keep is the copy the host keeps, 1 S or E and 2 M (R262, R341). -/
def execHostMemRead (die off keep : Nat) (s : State) : Out :=
  .next (
    let off := off / 128 * 128
    let lk := lineKey die off
    if !s.hdmHit die off then s
    else match s.hdmCtx with
    | none => s.refuseRead die off
    | some c =>
      match s.fate c true .load die off with
      | .ok pk _ =>
        if s.outsideWaits die lk pk false then s
        else
          let s := (s.keepWalk die off).answerHost (pk / 128) 9 true
          if keep = 0 then s
          else
            let s := s.setLine lk { s.line lk with phys := some pk }
            { s with snoopFilter := tabSet 0 s.snoopFilter (pk / 128) (min keep 2) }
      | _ => s.refuseRead die off)

/-- HOST_MEM_WRITE: a host write inside a line of a die's HDM is accepted as a store, or dropped (R262, R341). -/
def execHostMemWrite (die off : Nat) (data : List Byte) (s : State) : Out :=
  .next (
    let lk := lineKey die off
    if !s.hdmHit die off then s
    else match s.hdmCtx with
    | none => s.countRefusal
    | some c =>
      match s.fate c true .store die off with
      | .ok pk _ =>
        if s.outsideWaits die lk pk true then s
        else (s.keepWalk die off).accept lk (pk - off % 128) none (atKeys pk (data.take (128 - off % 128)))
      | _ => s.countRefusal)

/-- The line key under which the host's write-back of a physical line is accepted: the line last found there, or, for a frame that no line names any more, a key of no home. -/
def State.backKey (s : State) (pline : Nat) : Nat := (((s.linesAt pline).head?).map Prod.fst).getD (lineKey 7 (pline * 128))

/-- BI_RSP_I: the host gives up a line; what it writes back is accepted first, the stores held for it arrive, and the loads that waited are served after the write-back (R262). -/
def execBiRspI (line : Nat) (wb : Option (List Byte)) (s : State) : Out :=
  .next (match s.hostReqs.find? fun e => e.1 == line && 3 ≤ e.2 with
    | none => s
    | some e =>
      let lk := s.backKey line
      let back := wb.map fun bs => atKeys (line * 128) (bs.take 128)
      let vt := if back.isSome then s.vtOf lk else 0
      let s := match back with
        | some bytes => s.accept lk (line * 128) none bytes
        | none => s
      let s := { s with
        hostReqs := s.hostReqs.erase e
        snoopFilter := tabSet 0 s.snoopFilter line 0
        pginvs := s.pginvs.map fun (p : Pginv) => { p with copies := p.copies.filter fun l => l != line } }
      (s.heldArrive line).retryUnits.wakeWaiters (fun r => r.atHost == some line) vt)

/-! ### Peers -/

/-- The answer to a peer: fate 0 done, 1 refused, 3 poison, and the value (R241, R340, R362). -/
def State.answerPeer (s : State) (dev fate : Nat) (data : List Byte) : State := s.emit 10 dev fate data

/-- The allow list of a context names a device (R340). -/
def State.allowed (s : State) (c dev : Nat) : Bool :=
  (List.range 64).any fun k =>
    let e := (s.csrRaw c (0x100 + k)).toNat
    natBit e 16 && e % 2 ^ 16 == dev

/-- The address of an offset in a context's export window, if the access passes the hub's checks (R340). -/
def State.exportVa (s : State) (c dev off : Nat) : Option Nat :=
  if c < 64 && s.ctxEnabled c && natBit (s.homesReg c) 4 && s.allowed c dev && off < (s.csrRaw c 0x1A).toNat % 2 ^ 24 * 65536 then
    some ((joinPair (s.csrRaw c 0x18) (s.csrRaw c 0x19)).toNat + off)
  else none

/-- A peer operation writes. -/
def peerWrites : PeerOp → Bool
  | .load _ => false
  | _ => true

/-- The bytes a peer operation touches at its address. -/
def peerSize : PeerOp → Nat
  | .load n => n
  | .store bs => bs.length
  | .atom .. => 4
  | .atomx f _ => atxSize f

/-- The new bytes of a peer operation from the old (R269-R271). -/
def peerNew (op : PeerOp) (old : List Byte) : List Byte :=
  match op with
  | .load _ => old
  | .store bs => bs
  | .atom f ops => (ReqOp.atom f).newBytes false ops old
  | .atomx f ops => (ReqOp.atomx f).newBytes false ops old

/-- A peer's store is accepted; its acknowledgement is due at its VT (R263). -/
def State.peerStore (s : State) (dev lk off pk : Nat) (bs : List Byte) : State :=
  let vt := s.vtOf lk
  let s := s.accept lk (pk - off % 128) none (atKeys pk bs)
  { s with acksDue := s.acksDue ++ [(dev, vt)] }

/-- A peer's access is performed at a home, as an agent of system scope outside the package (R263). -/
def State.peerHere (s : State) (dev : Nat) (op : PeerOp) (lk off pk : Nat) : State :=
  let n := min (peerSize op) (128 - off % 128)
  let poisoned := s.anyPoison pk n
  match op with
  | .load _ => s.answerPeer dev (if poisoned then 3 else 0) (s.bytesFor none pk n)
  | .store bs => (s.peerStore dev lk off pk (bs.take n)).answerPeer dev 0 []
  | _ =>
    if poisoned then s.answerPeer dev 3 []
    else
      let old := s.bytesLatest pk n
      (s.peerStore dev lk off pk ((peerNew op old).take n)).answerPeer dev 0 old

/-- PEER_ACCESS_ARRIVAL: a peer's access is checked against the allow list and the export window, and performed, refused, or kept waiting; before READY it is not answered (R263, R340, R380). -/
def execPeerAccessArrival (dev ctx off : Nat) (op : PeerOp) (s : State) : Out :=
  .next (
    let refuse := s.answerPeer dev 1 []
    if !s.hub.ready then s
    else match s.exportVa ctx dev off with
    | none => refuse
    | some va =>
      match s.homeOf ctx va with
      | .phys h =>
        let o := va % 2 ^ 54
        let lk := lineKey h o
        match s.fate ctx true (if peerWrites op then .store else .load) h o with
        | .ok pk _ =>
          if s.outsideWaits h lk pk (peerWrites op) then s
          else match s.hostNeed h (pk / 128) (peerWrites op) with
            | some k => s.askHost (pk / 128) k
            | none => (s.keepWalk h o).peerHere dev op lk o pk
        | _ => refuse
      | _ => refuse)

end Sys2Proof.Machine
end

