-- ==== Sys2Proof/Machine/Hub.lean ====
section
/-! DEFINITION. The hub: boot and resets, the management window, clocks and power, the carve, the mailbox and measurement chains, snapshots' registers, the understory and device failures (01 R15, R22, R23, 16 R345-R349, 17 R361-R366, 18 R374-R388). -/

namespace Sys2Proof.Machine

/-! ### Boot and resets -/

/-- A measurement chain (R346). -/
def State.chain (s : State) (k : Nat) : Nat := tabGet 0 s.hub.mch k

/-- Extends a chain by an item (R346). -/
def State.extend (s : State) (k : Nat) (item : List Byte) : State :=
  let v := shakeNat 64 (leBytes 64 (s.chain k) ++ leBytes 64 (shakeNat 64 item))
  { s with hub := { s.hub with mch := tabSet 0 s.hub.mch k v } }

/-- The chain a boot stage extends (R345). -/
def stageChain : Nat → Nat
  | 1 => 4
  | 2 => 0
  | 3 => 1
  | 4 => 2
  | 5 => 5
  | _ => 3

/-- An image passes the checks of stage n: the digest of its key is the fused one, its signature verifies, and its version is not below the fused counter (R345, log 48). -/
def imageOk (f : BootFuses) (n : Nat) (i : BootImage) : Bool :=
  shakeNat 64 i.key == f.keyDigest && i.signed && f.counters.getD (n - 2) 0 ≤ i.version

/-- The stages of the firmware images, from a list: each image that passes is measured, and the first that does not is the failing stage, 0 where all pass (R345). -/
def State.bootImages (s : State) (b : BootIn) : List Nat → State × Nat
  | [] => (s, 0)
  | n :: r =>
    match b.images[n - 2]? with
    | none => (s, n)
    | some i => if imageOk b.fuses n i then (s.extend (stageChain n) i.image).bootImages b r else (s, n)

/-- The 96 bytes of a key's derivation (R347). -/
def keySeed (bs : List Byte) : List Byte := (shake bs).take 96

/-- The seed of the identity key: "PYR-ID" and the secret (R347). -/
def identitySeed (secret : List Byte) : List Byte := keySeed ([0x50, 0x59, 0x52, 0x2D, 0x49, 0x44] ++ secret)

/-- The seed of the alias key: "PYR-ALIAS", the secret and the chains MCH0 to MCH5 (R347). -/
def State.aliasSeedOf (s : State) (secret : List Byte) : List Byte :=
  keySeed ([0x50, 0x59, 0x52, 0x2D, 0x41, 0x4C, 0x49, 0x41, 0x53] ++ secret ++ (List.range 6).flatMap fun k => leBytes 64 (s.chain k))

/-- The record is the part's own and signed (R348). -/
def recordOk (r : BootRecord) (idSeed : List Byte) : Bool :=
  r.signed && r.digest == shakeNat 64 (Config.slhPublic idSeed)

/-- A stack by number over the package, eight numbers to a die. -/
def stackBit (l : List Nat) (die k : Nat) : Bool := l.contains (8 * die + k)

/-- The live-stack mask a die boots with (R17, R23, R238): none for a fenced die. -/
def bootMask (r : BootRecord) (off : List Nat) (die : Nat) : Nat :=
  if r.dies.contains die then 0 else (List.range 6).foldl (fun m k => if stackBit off die k then m else m + 2 ^ k) 0

/-- The tier-2 map (R387): base and size of each port in GiB, from the capacities in bytes of the ports from p on; base is what the lower ports take. -/
def tier2Map : Nat → Nat → List Nat → List (Nat × Nat × Nat)
  | _, _, [] => []
  | p, base, c :: r =>
    let n := min (c / 2 ^ 30) (8192 - base)
    (p, base, n) :: tier2Map (p + 1) (base + n) r

/-- Faulty physical lanes of a core in a list (R15). -/
def lanesOf (l : List (Nat × Nat)) (core : Nat) : List Nat := ((l.filter fun e => e.1 == core && e.2 < 34).map Prod.snd).dedup

/-- The physical lanes onto which the 32 logical lanes of a core are mapped, in ascending order past the faulty ones (R15). -/
def mapLanes (bad : List Nat) : List Nat := ((List.range 34).filter fun p => !bad.contains p).take 32

/-- A core boots with its faulty lanes skipped; with more than two of them, or by the record, it is fenced (R15, R23). -/
def Core.bootWith (fenced : Bool) (bad : List Nat) (x : Core) : Core :=
  { x with fenced := fenced || 2 < bad.length, laneMap := if bad.isEmpty then [] else mapLanes bad }

/-- What flash keeps over a reset, and what the model keeps beside the device: memory's bytes, the fence-request list, the physical lanes found faulty or withdrawn, the schedule and what has left the device (R15, R363, log 12). -/
def State.survivors (s : State) (gt : Nat) : State :=
  { State.reset with
    gt := gt
    sched := s.sched
    autoCount := s.autoCount
    nextId := s.nextId
    mem := (s.pend.foldl (fun m st => writeBytes m st.bytes) s.mem)
    poison := s.poison
    outbox := s.outbox
    hub := { Hub.reset with fenceReq := s.hub.fenceReq, badLanes := s.hub.badLanes } }

/-- Updates the hub. -/
def State.modHub (s : State) (f : Hub → Hub) : State := { s with hub := f s.hub }

/-- The boot fails at a stage: the device is in recovery mode, and nothing of the record is applied (R345, R347, R348). -/
def State.bootFails (s : State) (stage : Nat) : State := s.modHub fun h => { h with recovery := true, stage := stage }

/-- The alias key is formed after stage 6 (R347). -/
def State.formAlias (s : State) (secret : List Byte) : State := s.modHub fun h => { h with aliasSeed := s.aliasSeedOf secret }

/-- Stage 6: the record and, where it is not empty, the fence-request list are measured into MCH3, and the alias key is formed (R345, R347, R363). -/
def State.measureRecord (s : State) (b : BootIn) (secret : List Byte) : State :=
  let s := s.extend 3 b.record.bytes
  let s := if s.hub.fenceReq.isEmpty then s else s.extend 3 (s.hub.fenceReq.flatMap fun k => leBytes 4 k)
  s.formAlias secret

/-- Steps 2 to 6 of bring-up: the fences of the record and of the fence-request list, the lane maps, the tier-2 map and the ports that stay down are applied, GT joins its domain, and the device is ready (R23, R363, R379-R381, R387). -/
def State.bringUp (s : State) (b : BootIn) : State :=
  let off := b.record.stacksOff ++ s.hub.fenceReq
  let bad := (b.record.lanes ++ s.hub.badLanes).dedup
  let touched := (b.record.cores ++ bad.map Prod.fst).dedup.filter fun c => c < 256
  let s := touched.foldl (fun s c => s.modCore c (Core.bootWith (b.record.cores.contains c) (lanesOf bad c))) s
  let map := tier2Map 0 0 (b.expanders.take 6)
  let gt := b.domain.getD s.gt
  { s with
    gt := gt
    hub := { s.hub with
      stackMasks := [0, 1].foldl (fun t d => tabSet 0x3F t d (bootMask b.record off d)) []
      dieFailed := [0, 1].foldl (fun t d => tabSet false t d (bootMask b.record off d == 0)) []
      fuse := b.fuses.bytes
      record := b.record.bytes
      badLanes := bad
      portsDown := (b.record.ports ++ b.portsDown).dedup
      expBase := map.foldl (fun t e => tabSet 0 t e.1 (e.2.1 * 2 ^ 30)) []
      expSize := map.foldl (fun t e => tabSet 0 t e.1 (e.2.2 * 2 ^ 30)) []
      resetGt := gt
      ready := true } }

/-- Boot and bring-up (R345-R348, R380): the secret is reconstructed, the stages are verified and measured in order, and the first that fails leaves the device in recovery mode. A new record has emptied the fence-request list (R363). -/
def State.boot (s : State) (b : BootIn) : State :=
  let s := s.modHub fun h => { h with fenceReq := if b.record.fresh then [] else h.fenceReq, resetGt := s.gt }
  match b.secret with
  | none => s.bootFails 0
  | some secret =>
    let s := s.modHub fun h => { h with secret := secret, idSeed := identitySeed secret }
    if !b.fuses.ok then s.bootFails 1
    else
      match (s.extend 4 b.fuses.bytes).bootImages b [2, 3, 4, 5] with
      | (s, 0) => if recordOk b.record s.hub.idSeed then (s.measureRecord b secret).bringUp b else s.bootFails 6
      | (s, n) => s.bootFails n

/-- POWER_ON: GT counts from 0 and bring-up runs (R380, R381). -/
def execPowerOn (b : BootIn) (s : State) : Out := .next ((s.survivors 0).boot b)
/-- DEVICE_RESET: a write of 1 to DEVRST (R380). -/
def execDeviceReset (b : BootIn) (s : State) : Out := .next ((s.survivors s.gt).boot b)
/-- CXL_HOT_RESET (R380). -/
def execCxlHotReset (b : BootIn) (s : State) : Out := .next ((s.survivors s.gt).boot b)

/-! ### Clocks and power -/

/-- FREQREQ_WRITE (R382): codes past 52 are ignored. -/
def execFreqreqWrite (die : Nat) (v : Word) (s : State) : Out :=
  .next (if s.hub.ready && die < 2 && v.toNat % 64 ≤ 52 then
    s.modHub fun h => { h with freqReq := tabSet 48 h.freqReq die (v.toNat % 64) }
  else s)

/-- The code a die should run at: the lesser of the requested and the allowed code (R382). -/
def State.freqGoal (s : State) (die : Nat) : Nat := min (tabGet 48 s.hub.freqReq die) (tabGet 52 s.hub.allowed die)

/-- A die is to begin a step: it does not relock, no halt request for a context that holds it awaits its report, and the code it should run at is another (R382). -/
def State.stepDue (s : State) (die : Nat) : Bool :=
  die < 2 && s.clocked die && !((List.range 64).any fun c => (s.ctx c).haltReq && s.holdsDie c die) &&
    s.freqGoal die != tabGet 48 s.hub.freqCur die

/-- A die begins the step that is due (R382, R383). -/
def State.stepClock (s : State) (die : Nat) : State :=
  if s.stepDue die then
    s.modHub fun h =>
      { h with
        freqNext := tabSet 48 h.freqNext die (s.freqGoal die)
        relockEnd := tabSet 0 h.relockEnd die (s.gt + 600) }
  else s

/-- FREQUENCY_STEP (R382). -/
def execFrequencyStep (die : Nat) (s : State) : Out := .next (s.stepClock die)

/-- A step record (R383). -/
def stepRecord (gt cyc ncyc code : Nat) : Nat :=
  packBits [(32, ratioOf (800 + 25 * code)), (26, 0), (6, code), (64, ncyc), (64, cyc), (64, gt % 2 ^ 64)]

/-- RELOCK_END: the new clock starts, a step record is latched, and a step that ends short of the request is followed by the next at once (R382, R383). -/
def execRelockEnd (die : Nat) (s : State) : Out :=
  .next (if s.clocked die || s.gt < tabGet 0 s.hub.relockEnd die then s
  else
    let code := tabGet 48 s.hub.freqNext die
    let n := tabGet 0 s.hub.stepCnt die
    let r := stepRecord s.gt (tabGet 0 s.hub.cyc die) (tabGet 0 s.hub.ncyc die) code
    (s.modHub fun h =>
      { h with
        freqCur := tabSet 48 h.freqCur die code
        relockEnd := tabSet 0 h.relockEnd die 0
        stepCnt := tabSet 0 h.stepCnt die ((n + 1) % 2 ^ 32)
        steps := tabSet 0 h.steps (16 * die + n % 16) r }).stepClock die)

/-- PWRNOW: 0 at a reset, later the mean power as it is (R384, log 12). -/
def State.pwrNow (s : State) : Nat := if s.gt = s.hub.resetGt then 0 else Config.powerNow s.gt % 2 ^ 12

/-- POWER_LIMIT_ACTION: the controller lowers the code it allows a die while the package takes more than the limit, and raises it while it takes less (R22, R384). -/
def execPowerLimitAction (die code : Nat) (s : State) : Out :=
  let now := tabGet 52 s.hub.allowed die
  .next (if die < 2 && code ≤ 52 && (code < now && s.hub.pwrLim < s.pwrNow || now < code && s.pwrNow < s.hub.pwrLim) then
    s.modHub fun h => { h with allowed := tabSet 52 h.allowed die code }
  else s)

/-- Bytes of a carve window of C slices (R236). -/
def carveBytes (c : Nat) : Nat := (c - 1) * 2 ^ 25

/-- CARVE_WRITE: slices of a live die that become carved are zeroed, whatever stores to them are still to become visible (R23, R236, R385). -/
def execCarveWrite (die : Nat) (v : Word) (s : State) : Out :=
  .next (
    let c := v.toNat % 64
    if s.hub.ready && s.liveDie die && die < 2 && 1 ≤ c && c ≤ 32 && !(List.range 64).any fun x => s.holdsDie x die then
      let lo := spaceBase die + 2 ^ 40 + carveBytes (s.carveOf die)
      let hi := spaceBase die + 2 ^ 40 + carveBytes c
      { s with
        mem := s.mem.filter fun e => !(lo ≤ e.1 && e.1 < hi)
        pend := s.pend.map fun (st : Store) => { st with bytes := st.bytes.filter fun e => !(lo ≤ e.1 && e.1 < hi) }
        poison := s.poison.filter fun e => !(lo / 32 ≤ e.1 && e.1 < hi / 32)
        hub := { s.hub with carve := tabSet 1 s.hub.carve die c } }
    else s)

/-! ### Snapshots and mailbox -/

/-- SNAPSTAT_FREE: 1 is written to TAKEN (R366). -/
def execSnapstatFree (s : State) : Out :=
  .next (if s.hub.ready then s.modHub fun h => { h with snapStat := h.snapStat / 2 * 2 } else s)

/-- SNAPSHOT_EXTERNAL: the external input, when it is a trigger (R366). -/
def execSnapshotExternal (s : State) : Out := .next (if natBit s.hub.snapCfg 1 then s.snapshot 2 0 0 0 else s)

/-- Bytes of the mailbox buffer. -/
def State.mbBytes (s : State) (k n : Nat) : List Byte := (List.range n).map fun i => tabGet 0 s.hub.mbBuf (k + i)

/-- MAILBOX_ATTEST: the command word 1; while a request runs it is refused (R349, R388). -/
def execMailboxAttest (s : State) : Out :=
  .next (if s.hub.ready && s.hub.mbStatus != 1 then s.modHub fun h => { h with mbStatus := 1, mbReq := s.mbBytes 0 32 } else s)

/-- MAILBOX_EXTEND: the command words 6 and 7 measure an item into their chain; an item longer than the buffer is refused (R346, R388). -/
def execMailboxExtend (k : Nat) (s : State) : Out :=
  .next (if s.hub.ready && s.hub.mbStatus != 1 then
    let n := leNat (s.mbBytes 0 4)
    if (k = 6 ∨ k = 7) ∧ n ≤ 131068 then (s.extend k (s.mbBytes 4 n)).modHub fun h => { h with mbStatus := 2 }
    else s.modHub fun h => { h with mbStatus := 3 }
  else s)

/-- The bytes of a report before its signature (R349). -/
def State.report (s : State) : List Byte :=
  let mask := (List.range 64).foldl (fun m c => if s.ctxEnabled c then m + 2 ^ c else m) 0
  s.hub.mbReq ++ (List.range 8).flatMap (fun k => leBytes 64 (s.chain k)) ++ leBytes 2 (s.devReg 9).toNat ++ leBytes 8 mask ++
    List.replicate 470 0

/-- A certificate with its length, at most 48 KiB (R349). -/
def certificate (k : Nat) (h : Hub) : List Byte :=
  let n := Config.certLength k h.idSeed h.aliasSeed % 49153
  leBytes 4 n ++ (List.range n).map fun i => Config.certByte k h.idSeed h.aliasSeed i

/-- The whole answer to an attestation request (R349). -/
def State.attestation (s : State) : List Byte :=
  s.report ++ ((List.range 29792).map fun i => Config.signature s.hub.aliasSeed s.report i) ++ certificate 0 s.hub ++ certificate 1 s.hub

/-- ATTEST_ANSWER_READY: the answer stands in the buffer, and its notice is raised (R349, R377, R388). -/
def execAttestAnswerReady (s : State) : Out :=
  .next (if s.hub.mbStatus = 1 then
    (s.modHub fun h => { h with mbStatus := 2, mbReq := [], mbBuf := (atKeys 0 s.attestation).foldl (fun m e => tabSet 0 m e.1 e.2) h.mbBuf }).notice 5
  else s)

/-! ### The management window -/

/-- A write of a queue's register without a row of its own (R376). -/
def Queue.writeRing (n v : Nat) (q : Queue) : Queue :=
  if q.en then q
  else match n with
    | 0xC => if v % 32 = 0 then { q with ring := setNatBits q.ring 31 0 v } else q
    | 0x10 => { q with ring := setNatBits q.ring 63 32 v }
    | 0x14 => if 4 ≤ v % 32 ∧ v % 32 ≤ 20 then { q with ringn := v % 32 } else q
    | _ => q

/-- A window write to the context block: CTXCFG changes here only what leaves EN as it is; HOMES and the rest as CSRW (R328, R329). -/
def State.windowCsr (s : State) (c num : Nat) (v : Word) : State :=
  if num = 0 then (if natBit v.toNat 0 = s.ctxEnabled c then s.writeCtxcfg c v.toNat else s)
  else if csrListed num then (s.csrWrite c num v).getD s
  else s

/-- The operation of the window that is equivalent to PGINV: it begins once the stores of the host's that have been accepted are visible (R338, R339, log 49). -/
def State.windowPginv (s : State) (home lo hi : Nat) : State :=
  let start := (s.pend.filter fun st => st.core.isNone).foldl (fun t st => max t st.vt) s.gt
  if home < 4 ∧ lo < hi then { s with nextId := s.nextId + 1, pginvs := s.newPginv home lo hi start :: s.pginvs } else s

/-- A write of a register of the window without a row of its own; what the map does not assign is ignored (R374-R376). -/
def State.windowWrite (s : State) (off : Nat) (v : Word) : State :=
  let x := v.toNat
  if off % 4 ≠ 0 then s
  else if 0x10000 ≤ off ∧ off < 0x10800 then s.modQueue ((off - 0x10000) / 32) (Queue.writeRing ((off - 0x10000) % 32) x)
  else if 0x20000 ≤ off ∧ off < 0xA0000 then s.windowCsr ((off - 0x20000) / 0x2000) ((off - 0x20000) % 0x2000 / 4) v
  else if 0xA0000 ≤ off ∧ off < 0xA0028 then (s.devWrite ((off - 0xA0000) / 4) v true).getD s
  else if off = 0xA1004 ∨ off = 0xA1104 then { s with dfidx := tabSet 0 s.dfidx ((off - 0xA1004) / 0x100) (x % 4096) }
  else if off = 0xA2000 then s.modHub fun h => { h with snapCfg := x % 4 }
  else if off = 0xA2004 then s.modHub fun h => { h with snapMask := x }
  else if off = 0xA8020 then (if 2000 ≤ x % 4096 ∧ x % 4096 ≤ 3600 then s.modHub fun h => { h with pwrLim := x % 4096 } else s)
  else if off = 0xB0000 then
    (if s.hub.mbStatus = 1 ∨ x = 1 ∨ x = 6 ∨ x = 7 then s else s.modHub fun h => { h with mbStatus := 3 })
  else if 0xB1000 ≤ off ∧ off < 0xD1000 then
    s.modHub fun h => { h with mbBuf := (atKeys (off - 0xB1000) (leBytes 4 x)).foldl (fun m e => tabSet 0 m e.1 e.2) h.mbBuf }
  else s

/-- REGISTER_WRITE: a write through the management window of a register without a row of its own, or its operation equivalent to PGINV; before READY it is ignored (R338, R374-R376, R380). -/
def execRegisterWrite (w : WindowOp) (v : Word) (s : State) : Out :=
  .next (if !s.hub.ready then s
  else match w with
    | .reg off => s.windowWrite off v
    | .pginv home lo hi => s.windowPginv home lo hi)

/-- The record at HEAD is a SIGNAL that waits for earlier launches of its queue (R290, R292). -/
def State.signalWaits (s : State) (n : Nat) (q : Queue) : Bool :=
  (s.launches.any fun l => l.queue == n) && (match s.readCp q.ctx (q.ring + 32 * q.head) 32 with
    | .ok bs => leNat bs % 256 == 3
    | _ => false)

/-- A COGRID launch waits for room; one of REALTIME while no set of cores can be freed for it (R290, R298). -/
def State.gridWaits (s : State) (x : Launch) : Bool :=
  x.desc.cogrid && x.next == 0 && (!realtimeClass x.cls || (s.rtGrid x).isNone)

/-- STATE of queue n (R290). -/
def State.queueState (s : State) (n : Nat) (q : Queue) : Nat :=
  if q.wait.isSome then 2
  else match q.launch with
    | some l => if ((s.launchOf l).map s.gridWaits).getD false then 2 else 1
    | none => if q.head = q.tail then 0 else if s.mayStart q && !s.signalWaits n q then 1 else 2

/-- The registers of a queue as they read (R290, R376). -/
def State.readQueue (s : State) (n : Nat) (q : Queue) : Nat → Nat
  | 0 => q.cls + 4 * b2n q.en + 8 * q.ctx
  | 4 => s.queueState n q + 4 * b2n q.stopped + 8 * q.reason
  | 8 => q.cidx
  | 0xC => q.ring % 2 ^ 32
  | 0x10 => q.ring / 2 ^ 32
  | 0x14 => q.ringn
  | 0x18 => q.head
  | 0x1C => q.tail
  | _ => 0

/-- A deadfall record as it reads (R357). -/
def State.deadfallRecord (s : State) (d : Deadfall) : Nat :=
  let g := s.grove? d.gid
  packBits [(1, 1), (63, 0), (64, d.gt), (32, d.pc.toNat), (3, 0), (1, d.kind), (12, if d.front then 0xFFF else d.tid),
    (2, (g.map Grove.slot).getD 0),
    (8, ((s.thread? d.gid (if d.front then none else some d.tid)).map Thread.core).getD 0), (6, d.ctx), (64, d.va)]

/-- The deadfall registers of a die (R357). -/
def State.readDeadfall (s : State) (die n : Nat) : Nat :=
  let q := tabGet [] s.deadfalls die
  let idx := tabGet 0 s.dfidx die
  if n = 0 then q.length
  else if n = 4 then idx
  else if 0x10 ≤ n ∧ n ≤ 0x2C then ((s.deadfall? die idx).map fun d => s.deadfallRecord d / 2 ^ (8 * (n - 0x10)) % 2 ^ 32).getD 0
  else 0

/-- DEVSTAT (R380): DIES, STK0 and STK1 read 0 until bring-up has set them (log 12). -/
def State.devstat (s : State) : Nat :=
  b2n s.hub.ready + 2 * b2n s.hub.recovery + 4 * s.hub.stage +
    (if s.hub.ready then 2 ^ 5 * (b2n (s.liveDie 0) + 2 * b2n (s.liveDie 1)) + 2 ^ 7 * s.stackMask 0 + 2 ^ 13 * s.stackMask 1 else 0)

/-- The machine-check log (R360, R375): MCCNT, and 32-bit word w of slot k. -/
def State.readMclog (s : State) (n : Nat) : Nat :=
  let cnt := s.hub.mclog.length
  if n = 0 then cnt % 2 ^ 32
  else if 0x40 ≤ n ∧ n < 0x4040 then
    let k := (n - 0x40) / 64
    let latest := ((List.range cnt).filter fun m => m % 256 == k).getLast?
    match latest with
    | some m => s.hub.mclog.getD m 0 / 2 ^ (8 * ((n - 0x40) % 64)) % 2 ^ 32
    | none => 0
  else 0

/-- The clock and power registers (R382-R384). -/
def State.readClocks (s : State) (n : Nat) : Nat :=
  if n = 0 ∨ n = 4 then tabGet 48 s.hub.freqReq (n / 4)
  else if n = 8 ∨ n = 0xC then tabGet 48 s.hub.freqCur ((n - 8) / 4) + 64 * b2n !(s.clocked ((n - 8) / 4))
  else if n = 0x10 ∨ n = 0x14 then tabGet 0 s.hub.stepCnt ((n - 0x10) / 4)
  else if n = 0x20 then s.hub.pwrLim
  else if n = 0x24 then s.pwrNow
  else if 0x100 ≤ n ∧ n < 0x500 then
    let die := (n - 0x100) / 0x200
    let k := (n - 0x100) % 0x200 / 32
    tabGet 0 s.hub.steps (16 * die + k) / 2 ^ (8 * (n % 32)) % 2 ^ 32
  else 0

/-- A register of the management window as it reads (R374, R375). -/
def State.windowRead (s : State) (off : Nat) : Word :=
  BitVec.ofNat 32 (
    if off = 0 then s.devstat
    else if 0x10000 ≤ off ∧ off < 0x10800 then s.readQueue ((off - 0x10000) / 32) (s.queue ((off - 0x10000) / 32)) ((off - 0x10000) % 32)
    else if 0x11000 ≤ off ∧ off < 0x19000 then
      s.eventCount ((off - 0x11000) / 8) / 2 ^ (8 * (off % 8)) % 2 ^ 32
    else if 0x20000 ≤ off ∧ off < 0xA0000 then
      (let num := (off - 0x20000) % 0x2000 / 4
       if csrListed num then (s.csrRead ((off - 0x20000) / 0x2000) num).toNat else 0)
    else if 0xA0000 ≤ off ∧ off < 0xA0028 then (s.devReg ((off - 0xA0000) / 4)).toNat
    else if 0xA1000 ≤ off ∧ off < 0xA1200 then s.readDeadfall ((off - 0xA1000) / 0x100) ((off - 0xA1000) % 0x100)
    else if off = 0xA2000 then s.hub.snapCfg
    else if off = 0xA2004 then s.hub.snapMask
    else if off = 0xA2008 then s.hub.snapStat
    else if off = 0xA200C then s.hub.snapGt % 2 ^ 32
    else if off = 0xA2010 then s.hub.snapGt / 2 ^ 32
    else if 0xA3000 ≤ off ∧ off < 0xA8000 then s.readMclog (off - 0xA3000)
    else if 0xA8000 ≤ off ∧ off < 0xA9000 then s.readClocks (off - 0xA8000)
    else if off = 0xA9000 ∨ off = 0xA9004 then s.carveOf ((off - 0xA9000) / 4)
    else if 0xA9010 ≤ off ∧ off < 0xA9028 then
      (let p := (off - 0xA9010) / 4
       tabGet 0 s.hub.expBase p / 2 ^ 30 + 2 ^ 16 * (tabGet 0 s.hub.expSize p / 2 ^ 30))
    else if off = 0xB0004 then s.hub.mbStatus
    else if 0xB1000 ≤ off ∧ off < 0xD1000 then leNat (s.mbBytes (off - 0xB1000) 4)
    else if 0x100000 ≤ off ∧ off < 0x200000 then (Config.snapshotWord s.hub.snapId ((off - 0x100000) / 4)).toNat
    else 0)

/-! ### Understory and failures -/

/-- SCRUB_PASS: a stored word or granule is read and corrected; the correction is counted (R361, R364). -/
def execScrubPass (_key : Nat) (s : State) : Out := .next (s.count 0)

/-- The physical lane that a logical lane of a core is mapped onto (R15). -/
def Core.physLane (lane : Nat) (c : Core) : Nat := if c.laneMap.isEmpty then lane else c.laneMap.getD lane lane

/-- A physical lane of a core is noted as faulty for the next reset (R15, R364). -/
def State.noteLaneBad (s : State) (core phys : Nat) : State := s.modHub fun h => { h with badLanes := ((core, phys) :: h.badLanes).dedup }

/-- SPARE_LANE_TEST_DONE: a mapped lane has mismatched, and a repeated mismatch marks it faulty; or a spare, one of the physical lanes, has failed its own test and is withdrawn (R15, R364). -/
def execSpareLaneTestDone (core : Nat) (r : LaneTest) (s : State) : Out :=
  let c := s.core core
  .next (match r with
    | .mismatch lane =>
      if 32 ≤ lane then s
      else if c.mismatch.contains lane then
        (s.modCore core fun c => { c with faulty := (lane :: c.faulty).dedup }).noteLaneBad core (c.physLane lane)
      else s.modCore core fun c => { c with mismatch := lane :: c.mismatch }
    | .spareBad p =>
      if p < 34 && !((List.range 32).map fun l => c.physLane l).contains p then s.noteLaneBad core p else s)

/-- SUPPLY_SAG: a cluster's stretch level rises to the level called for (R365). -/
def execSupplySag (cluster level : Nat) (s : State) : Out :=
  .next ((s.modCluster cluster fun x => { x with sag := max x.sag (min level 2) }).count 2)

/-- SAG_LEVEL_LOWER (R365). -/
def execSagLevelLower (cluster : Nat) (s : State) : Out := .next (s.modCluster cluster fun x => { x with sag := x.sag - 1 })

/-- A device failure of dies (R363): every context that holds one ends, and they take no groves until the next reset. -/
def State.failDies (s : State) (dies : List Nat) : State :=
  let s := dies.foldl (fun s d => s.modHub fun h => { h with dieFailed := tabSet false h.dieFailed d true }) s
  ((List.range 64).filter fun c => dies.any fun d => s.holdsDie c d).foldl (fun s c => s.endContext c (Report.plain 6 0)) s

/-- A stack has failed: its die fails, and the stack joins the fence-request list (R363). -/
def State.failStack (s : State) (die stack : Nat) : State :=
  (s.failDies [die]).modHub fun h => { h with fenceReq := (h.fenceReq ++ [8 * die + stack]).dedup }

/-- HBM_STACK_FAILURE (R363). -/
def execHbmStackFailure (die stack : Nat) (s : State) : Out := .next (s.failStack die stack)

/-- The dies a package link concerns: links 0 and 1 join a die to the hub, link 2 the two dies; links from 3 up leave the package (R11, R363). -/
def linkDies : Nat → List Nat
  | 0 => [0]
  | 1 => [1]
  | 2 => [0, 1]
  | _ => []

/-- LINK_FAILURE: a link has failed 64 retries in a row, each of which counts (R361, R363, R364). -/
def execLinkFailure (link : Nat) (s : State) : Out :=
  .next ((List.range 64).foldl (fun s _ => s.count 3) (s.failDies (linkDies link)))

/-- DIE_UNRESPONSIVE (R363). -/
def execDieUnresponsive (die : Nat) (s : State) : Out := .next (s.failDies [die])

/-- EXPANDER_FAILURE (R240, R387). -/
def execExpanderFailure (port : Nat) (s : State) : Out :=
  .next (s.modHub fun h => { h with expFailed := tabSet false h.expFailed port true })

end Sys2Proof.Machine
end

