-- ==== Sys2Proof/Machine/Agenda.lean ====
section
/-! DEFINITION. Which turn comes next (log 1), and how a program is placed for a first step (log 11). -/

namespace Sys2Proof.Machine

/-- What may happen to a request on its way, when no peer answers. -/
def Req.events (r : Req) : List Instr :=
  if r.answer.isSome then [.loadReturn r.id [] 0]
  else if r.op.isAtomic then [.atomicAtHome r.id]
  else if r.op == .store then [.storeArrival r.id 0]
  else [.loadAtHome r.id]

/-- What may end a wait of a thread. -/
def Thread.waitEvents (gid : Nat) (w : Who) (t : Thread) : List Instr :=
  match t.wait with
  | .none => if t.seg.any fun x => x.fin != .running then [.segmentCommit gid w] else []
  | .gather .. => [.gatheringComplete gid t.tid, .barrierTimeout gid w]
  | .bar .. => [.barrierTimeout gid w]
  | .gbar .. => [.barrierTimeout gid w]
  | .fence _ => [.releasePerformed gid w]
  | .until _ => [.timewaitDeadline gid]
  | .sstep .. => [.releasePerformed gid w, .sstepRelease gid, .barrierTimeout gid w]
  | .serial => [.serialTokenGrant gid t.tid]
  | .tend _ => [.releasePerformed gid w]
  | .commit _ => [.txnCommitComplete gid t.tid]
  | .pginv id => [.pginvComplete id]
  | .replay _ => [.replayWaitTimeout gid w]
  | _ => []

/-- What may happen in a grove beside its threads' words. -/
def State.groveEvents (s : State) (g : Grove) : List Instr :=
  List.flatten [
    g.threads.flatMap fun e => e.2.waitEvents g.id e.1,
    if g.msq.isSome then [Instr.sequencerChunk g.id .none, Instr.arrayCommandComplete g.id] else [],
    g.loads.flatMap fun l => [Instr.loaderSlot g.id l.id .none, Instr.tileLoadComplete g.id l.id],
    if g.pending.isEmpty then [] else [Instr.pendingTrapDelivery g.id],
    (s.seedsOf g).map fun x => Instr.seedlingStandLaunch g.id x.2.bed x.2.entry,
    (s.seedsOf g).map fun x => Instr.seedbedTimerExpiry g.id x.2.bed,
    [Instr.groveRetire g.id]]

/-- The places a grove may be dispatched to. -/
def dispatchPlaces : List (Nat × Nat) := (List.range 256).flatMap fun c => (List.range 4).map fun k => (c, k)

/-- What may happen to the re-run of a grove. -/
def Rerun.events (l : Nat) (r : Rerun) : List Instr :=
  Instr.verifyCompare l r.tag :: (if r.started then [] else dispatchPlaces.map fun x => Instr.groveDispatch l x.1 x.2 true)

/-- What may happen to a launch. -/
def State.launchEvents (s : State) (l : Launch) : List Instr :=
  List.flatten [
    if l.desc.size ≤ l.next then []
      else if l.desc.cogrid then
        (if l.desc.size ≤ 1024 then ((State.gridPlaces l.id l.desc.size s).map fun x => Instr.cogridDispatch l.id x).toList else [])
      else dispatchPlaces.map fun x => Instr.groveDispatch l.id x.1 x.2 false,
    l.reruns.flatMap (Rerun.events l.id)]

/-- What may happen to a continuation record. -/
def ContRec.events (r : ContRec) : List Instr := Instr.contqFallback r.id :: dispatchPlaces.map fun x => Instr.nodeGroveDispatch r.id x.1 x.2

/-- What may happen to an engine command. -/
def EngCmd.events (c : EngCmd) : List Instr := [.engineLineWrite c.id .none, .engineCommandComplete c.id, .collTimeout c.id]

/-- What may happen to a beam command. -/
def Beam.events (b : Beam) : List Instr := if b.req then [.atlasRequestComplete b.id .none] else [.beamComplete b.id .none]

/-- What may happen to a queue. -/
def Queue.events (n : Nat) (q : Queue) : List Instr :=
  if q.wait.isSome then [.waitevSatisfied n]
  else if q.head = q.tail then []
  else [.cmdNop n, .launch n, .waitev n, .signal n]

/-- What may happen to a context. -/
def State.ctxEvents (s : State) (n : Nat) (c : Ctx) : List Instr :=
  List.flatten [
    if c.haltReq then s.cores.map fun x => Instr.haltReport n x.1 else [],
    if !c.drainSet.isEmpty then [Instr.drainWatchdog n] else []]

/-- What may happen to where contexts run: halts in place, resumptions and cluster grants (R306, R308, R331). -/
def State.residencyEvents (s : State) : List Instr :=
  let on := (List.range 64).filter fun v => s.ctxEnabled v
  let open' := (List.range 64).filter fun c => s.ungranted c
  List.flatten [
    (on.filter fun v => s.rtBound v (s.heldCores v)).map fun v => Instr.haltInPlaceRequest v,
    (on.filter fun v => (s.ctx v).halted).map fun v => Instr.contextResume v,
    open'.flatMap fun c => (on.filter fun v => s.hasWork v c).map fun v => Instr.clusterGrant c v]

/-- What may happen in the device by itself (95): the events that need nothing from outside. -/
def State.ownEvents (s : State) : List Instr :=
  List.flatten [
    s.reqs.flatMap Req.events,
    s.reqs.map fun (r : Req) => Instr.releasePerformed r.gid (if r.front then none else some r.tid),
    s.junction.map fun e => Instr.clusterJunctionRelease e.1 e.2.1,
    s.cmds.flatMap EngCmd.events,
    s.rays.map fun (r : Ray) => Instr.bteRayDone r.id .none,
    s.beams.flatMap Beam.events,
    s.groves.flatMap s.groveEvents,
    s.queues.flatMap fun e => Queue.events e.1 e.2,
    s.launches.flatMap s.launchEvents,
    s.conts.flatMap ContRec.events,
    s.lines.flatMap fun (e : Nat × Line) => if e.2.lockUntil.isSome then [Instr.txnLineUnlock e.1] else [],
    s.snoops.map fun (x : Snoop) => Instr.snoopResponse x.line,
    s.ctxs.flatMap fun e => s.ctxEvents e.1 e.2,
    s.cores.flatMap fun (c : Nat × Core) => if c.2.owner.isSome then [Instr.coreHandover c.1] else [],
    s.clusters.flatMap fun (c : Nat × Cluster) => if c.2.grant.isSome then [Instr.temporalSliceExpiry c.1] else [],
    s.residencyEvents,
    s.hub.relockEnd.map fun e => Instr.relockEnd e.1,
    (s.pginvs.filter fun p => p.point.isNone).map fun (p : Pginv) => Instr.pginvComplete p.id,
    ([0, 1].filter s.stepDue).map fun d => Instr.frequencyStep d]

/-- The turns open to a device whose schedule is empty. -/
def State.agenda (s : State) : List Turn :=
  (s.groves.flatMap fun g =>
    ((g.lanes.filter fun t => t.ready && s.mayRun g t.core && s.laneTurn g t).map fun t => Turn.lane g.id t.tid) ++
      (if s.frontReady g && s.frontTurn g then [Turn.front g.id] else [])) ++ (s.ownEvents.map Turn.event) ++ [.tick 1]

/-- The next turn: the head of the schedule, or, when that is empty, one of the agenda in rotation (log 1). -/
def State.nextTurn (s : State) : Turn × State :=
  match s.sched with
  | t :: r => (t, { s with sched := r })
  | [] =>
    let l := s.agenda
    ((l[s.autoCount % l.length]?).getD (.tick 1), { s with autoCount := s.autoCount + 1 })

/-- The descriptor of a program placed for one step (log 11): one strand of 16 threads, 64 V registers, and every unit of the array. -/
def placedDesc : Desc where
  image := 0x100000
  lentry := 0
  fentry := 0
  ngx := 1
  ngy := 1
  ngz := 1
  width := 16
  pair := false
  nstr := 1
  seedl := 1
  vregs := 64
  mode := 0
  placed := false
  cogrid := false
  superstep := false
  verify := false
  regs := 1
  scratch := 1
  l1 := 1
  callstk := 8
  tas := 16
  wbs := 8
  acs := 10
  seedt := 4096
  fpc0 := 0
  const := 0
  nodes := 0
  nnode := 0
  spill := 0
  spilln := 0
  seed := 0
  event := 0
  evinc := 0

/-- The two words of a table row as bytes, the first at the lowest address (R4). -/
def wordBytes (w : Nat) : List Byte := leBytes 4 w ++ leBytes 4 (w / 2 ^ 32)

/-- The state with a kernel of one instruction placed for the next step (log 11). -/
def State.placed (s : State) (w : Nat) : State :=
  let d := placedDesc
  let id := s.nextId
  let lanes := d.lanes 0 []
  let front := d.front 0 []
  let g := d.grove id 0 0 0 0 0 lanes front
  let s := ((s.setCsrRaw 0 0 3).setCsrRaw 0 3 1).setCsrRaw 0 0x10 3
  let cells := atKeys 0 (leBytes 8 0x8001) ++ atKeys 0x8000 (leBytes 8 3) ++ atKeys 0x100000 (wordBytes w)
  { s with
    nextId := id + 1
    mem := writeBytes s.mem cells
    groves := g :: s.groves
    sched := (if frontWord (BitVec.ofNat 32 w) then Turn.front id else Turn.lane id 0) :: s.sched }

end Sys2Proof.Machine
end

