-- ==== Sys2Proof/Machine/Units.lean ====
section
/-! DEFINITION. Memory accesses that units of the device make for a grove: the sequencer and tile loader of a core, the copy engines and the beam units (11 R230, R241, 12 R245-R249, R255, R256, 17 R362, R370). -/

namespace Sys2Proof.Machine

/-- A unit that accesses memory for a grove: its context, the core whose earlier stores it sees and whose releases cover its stores, its die (9 the hub), the command that may own lines, and what a peer answers. -/
structure Agent where
  ctx : Nat
  gid : Nat
  core : Option Nat
  die : Nat
  own : Nat
  fab : FabIn
  deriving DecidableEq, Repr

/-- What an access of a unit comes to: it waits, it is refused with a cause at an address, or it is made. -/
inductive Acc (α : Type) where
  | wait (s : State)
  | fault (cause addr : Nat)
  | ok (x : α)

/-- Goes on with an access that was made. -/
def Acc.andThen {α β : Type} (x : Acc α) (f : α → Acc β) : Acc β :=
  match x with
  | .wait s => .wait s
  | .fault c a => .fault c a
  | .ok y => f y

/-- The sequencer and tile loader of a grove's pair position. -/
def Grove.coreAgent (g : Grove) (psel : Nat) (fab : FabIn) : Agent :=
  ⟨g.ctx, g.id, some (g.core + psel), dieOfCore g.core, 0, fab⟩

/-- The unit works for the re-run of a VERIFY grove (R370). -/
def State.reruns (s : State) (a : Agent) : Bool := ((s.grove? a.gid).map Grove.verify) == some 2

/-- The checks of a line at a physical home (R230, R255, R258, R261, R262): the state and the physical key. -/
def State.unitLine (s : State) (a : Agent) (kind : AccKind) (va h : Nat) : Acc (State × Nat) :=
  let off := va % 2 ^ 54
  match s.fate a.ctx false kind h off with
  | .ok pk _ =>
    let l := s.line (lineKey h off)
    if l.lock.isSome || !(l.owner.isNone || l.owner == some a.own) then .wait s
    else
      let s := s.keepWalk h off
      if s.barred h (pk / 128) then .wait s
      else match s.hostNeed h (pk / 128) (kind == .store) with
        | some k => .wait (s.askHost (pk / 128) k)
        | none => .ok (s, pk)
  | .protection => .fault 0x06 va
  | _ => .fault 0x07 va

/-- n bytes of one line, each with whether it is poisoned (R362). -/
def State.unitReadLine (s : State) (a : Agent) (va n : Nat) : Acc (State × List (Byte × Bool)) :=
  match s.homeOf a.ctx va with
  | .bad => .fault 0x05 va
  | .peer e =>
    match a.fab with
    | .peer 1 _ => .fault 0x06 va
    | .peer 2 _ => .fault 0x07 va
    | .peer fate bs =>
      let got := (List.range n).map fun i => (bs.lookup (va + i)).getD 0
      let got := match s.grove? a.gid with
        | some g => g.overlay va got
        | none => got
      .ok (({ s with nextId := s.nextId + 1 } : State).emitPeer s.nextId e .load va n [], got.map fun b => (b, fate == 3))
    | _ => .wait s
  | .phys h =>
    (s.unitLine a .load va h).andThen fun (r : State × Nat) =>
      let bs := r.1.bytesFor a.core r.2 n
      let bs := match r.1.grove? a.gid with
        | some g => g.overlay va bs
        | none => bs
      let s := match a.core with
        | some c => r.1.noteEarly c h (lineKey h (va % 2 ^ 54)) false
        | none => r.1
      .ok (s, ((List.range n).zip bs).map fun e => (e.2, s.poisoned (r.2 + e.1)))

/-- n bytes, line by line, of at most fuel lines. -/
def State.unitRead (s : State) (a : Agent) : Nat → Nat → Nat → Acc (State × List (Byte × Bool))
  | 0, _, _ => .ok (s, [])
  | fuel + 1, va, n =>
    if n = 0 then .ok (s, [])
    else
      let k := min n (128 - va % 128)
      (s.unitReadLine a va k).andThen fun (r : State × List (Byte × Bool)) =>
        (r.1.unitRead a fuel ((va + k) % 2 ^ 64) (n - k)).andThen fun (q : State × List (Byte × Bool)) => .ok (q.1, r.2 ++ q.2)

/-- The lines n bytes may touch. -/
def linesOf (n : Nat) : Nat := n / 128 + 2

/-- Whether a store of n bytes would be made, line by line: the state in which each line has been checked. -/
def State.unitCheck (s : State) (a : Agent) : Nat → Nat → Nat → Acc State
  | 0, _, _ => .ok s
  | fuel + 1, va, n =>
    if n = 0 then .ok s
    else
      let k := min n (128 - va % 128)
      match s.homeOf a.ctx va with
      | .bad => .fault 0x05 va
      | .peer _ =>
        if s.reruns a then s.unitCheck a fuel ((va + k) % 2 ^ 64) (n - k)
        else match a.fab with
        | .peer 1 _ => .fault 0x06 va
        | .peer 2 _ => .fault 0x07 va
        | .peer _ _ => s.unitCheck a fuel ((va + k) % 2 ^ 64) (n - k)
        | _ => .wait s
      | .phys h => (s.unitLine a .store va h).andThen fun (r : State × Nat) => r.1.unitCheck a fuel ((va + k) % 2 ^ 64) (n - k)

/-- A store of a unit of a core is a store of its grove and core, and their releases wait for its VT (R49, R251). -/
def State.noteStore (s : State) (a : Agent) (home vt : Nat) : State :=
  match a.core with
  | some c => s.noteVt a.gid c home vt
  | none => s

/-- The core number under which a unit's unacknowledged peer stores are kept: a core's, or 256 and more for a command's. -/
def Agent.ackCore (a : Agent) : Nat := a.core.getD (256 + a.own)

/-- A store to bytes of one line (R245), or to the shadow of a re-run (R370): the state and VT + Skew. whole says that an engine writes all of the line, which clears its poison (R362). -/
def State.unitWriteLine (s : State) (a : Agent) (va : Nat) (bs : List Byte) (whole : Bool) : Acc (State × Nat) :=
  match s.homeOf a.ctx va with
  | .bad => .fault 0x05 va
  | .peer e =>
    let written := fun s : State => s.modGrove a.gid fun g => g.digestWrite va bs
    if s.reruns a then .ok (written (s.modGrove a.gid fun g => g.shadowWrite va bs), 0)
    else match a.fab with
    | .peer 1 _ => .fault 0x06 va
    | .peer 2 _ => .fault 0x07 va
    | .peer _ _ =>
      .ok (written (({ s with nextId := s.nextId + 1, peerStores := PeerStore.mk s.nextId a.ackCore a.gid :: s.peerStores } : State).emitPeer
        s.nextId e .store va bs.length bs), 0)
    | _ => .wait s
  | .phys h =>
    (s.unitLine a .store va h).andThen fun (r : State × Nat) =>
      let s := r.1
      let off := va % 2 ^ 54
      let lk := lineKey h off
      if s.reruns a then
        .ok (s.modGrove a.gid fun g => (g.shadowWrite va bs).digestWrite va bs, 0)
      else
        let vt := s.vtOf lk
        let s := s.accept lk (r.2 - off % 128) a.core (atKeys r.2 bs)
        let s := if h = 3 then { s with mesi := tabSet 0 s.mesi (r.2 / 128) 3 } else s
        let s := if whole then { s with poison := (List.range 4).foldl (fun p i => tabSet false p (r.2 / 32 + i) false) s.poison } else s
        .ok ((s.noteStore a h vt).modGrove a.gid fun g => g.digestWrite va bs, vt + skew a.die h)

/-- A store of bytes that has been checked, line by line: the state and the largest VT + Skew; whole lines are written as an engine writes them when eng is set. -/
def State.unitWrite (s : State) (a : Agent) (eng : Bool) : Nat → Nat → List Byte → Acc (State × Nat)
  | 0, _, _ => .ok (s, 0)
  | fuel + 1, va, bs =>
    if bs.isEmpty then .ok (s, 0)
    else
      let k := 128 - va % 128
      (s.unitWriteLine a va (bs.take k) (eng && k == 128 && 128 ≤ bs.length)).andThen fun (r : State × Nat) =>
        (r.1.unitWrite a eng fuel ((va + k) % 2 ^ 64) (bs.drop k)).andThen fun (q : State × Nat) => .ok (q.1, max r.2 q.2)

/-- Checks all of a store, then makes it: no byte is written when part of it is refused or must wait. -/
def State.unitStore (s : State) (a : Agent) (eng : Bool) (va : Nat) (bs : List Byte) : Acc (State × Nat) :=
  (s.unitCheck a (linesOf bs.length) va bs.length).andThen fun s => s.unitWrite a eng (linesOf bs.length) va bs

/-- The bytes of a read without their poison. -/
def plainBytes (l : List (Byte × Bool)) : List Byte := l.map Prod.fst

/-- Some byte of a read is poisoned. -/
def anyPoisoned (l : List (Byte × Bool)) : Bool := l.any Prod.snd

end Sys2Proof.Machine
end

