-- ==== Sys2Proof/Machine/Bvh.lean ====
section
/-! DEFINITION. The exact geometry of the BTE: linear feasibility, nodes, triangles and instances as they lie in memory, and the test of a ray against a triangle (09 R199-R202, R207, R208). -/

namespace Sys2Proof.Machine

/-! ### Exact numbers -/

/-- A point or direction with exact coordinates. -/
structure Vec where
  x : Rat
  y : Rat
  z : Rat
  deriving DecidableEq, Repr

/-- Coordinate k of a vector. -/
def Vec.at (v : Vec) : Nat → Rat
  | 0 => v.x
  | 1 => v.y
  | _ => v.z

/-- Scalar product. -/
def Vec.dot (u v : Vec) : Rat := u.x * v.x + u.y * v.y + u.z * v.z
/-- Sum. -/
def Vec.plus (u v : Vec) : Vec := ⟨u.x + v.x, u.y + v.y, u.z + v.z⟩
/-- A vector scaled. -/
def Vec.scale (c : Rat) (v : Vec) : Vec := ⟨c * v.x, c * v.y, c * v.z⟩

/-- A power of two. -/
def ratPow2 (e : Int) : Rat := if 0 ≤ e then ((2 ^ e.toNat : Nat) : Rat) else 1 / ((2 ^ (-e).toNat : Nat) : Rat)

/-- The value of a finite FP32 code. -/
def f32Rat (c : Nat) : Option Rat :=
  match Fmt.fp32.unpack c with
  | .fin neg m e => some ((if neg then -(m : Rat) else (m : Rat)) * ratPow2 e)
  | _ => none

/-- A value rounded once to FP32 by RNE (R202). -/
def ratF32 (x : Rat) : Nat := (roundQ (FEnv.ofFpc 0) .fp32 .rne 0 (x < 0) x.num.natAbs x.den).1

/-- A value rounded to an integer by RNE (R206). -/
def ratRne (x : Rat) : Int :=
  let f := x.floor
  let d := x - (f : Rat)
  if d < 1 / 2 then f else if 1 / 2 < d then f + 1 else if f % 2 = 0 then f else f + 1

/-! ### Linear feasibility -/

/-- A row Σ cs_i × x_i against a bound: at most it among inequalities, equal to it among equations. -/
structure Row where
  cs : List Rat
  b : Rat
  deriving DecidableEq, Repr

/-- Coefficient i. -/
def Row.co (r : Row) (i : Nat) : Rat := r.cs.getD i 0

/-- u × r + v × q. -/
def Row.mix (u : Rat) (r : Row) (v : Rat) (q : Row) : Row := ⟨List.zipWith (fun x y => u * x + v * y) r.cs q.cs, u * r.b + v * q.b⟩

/-- A row without variable i, by an equation that has it. -/
def Row.subst (e : Row) (i : Nat) (r : Row) : Row := Row.mix 1 r (-(r.co i / e.co i)) e

/-- A row without the variables that solved equations give, in the order they were solved. -/
def Row.reduce (ps : List (Nat × Row)) (r : Row) : Row := ps.foldl (fun r p => p.2.subst p.1 r) r

/-- Equations, each solved for the first of its variables in an order; false when one without variables does not hold. -/
def solveRows (order : List Nat) (eqs : List Row) : Bool × List (Nat × Row) :=
  eqs.foldl (fun acc e =>
    let e := e.reduce acc.2
    match order.find? fun i => e.co i != 0 with
    | some i => (acc.1, acc.2 ++ [(i, e)])
    | none => (acc.1 && e.b == 0, acc.2)) (true, [])

/-- Inequalities that hold for some value of variable i (Fourier and Motzkin). -/
def eliminate (i : Nat) (rs : List Row) : List Row :=
  let up := rs.filter fun r => 0 < r.co i
  let down := rs.filter fun r => r.co i < 0
  (rs.filter fun r => r.co i == 0) ++ up.flatMap fun r => down.map fun q => Row.mix (-(q.co i)) r (r.co i) q

/-- The order in which equations over n variables are solved: for those of keep only where nothing else is left. -/
def solveOrder (n : Nat) (keep : List Nat) : List Nat := ((List.range n).filter fun i => !keep.contains i) ++ keep

/-- The equations and inequalities in n variables with every variable but those of keep eliminated; none when they cannot hold. -/
def project (n : Nat) (keep : List Nat) (eqs ins : List Row) : Option (List Row) :=
  let s := solveRows (solveOrder n keep) eqs
  let rows := ((List.range n).filter fun i => !keep.contains i).foldl (fun rs i => eliminate i rs) (ins.map (Row.reduce s.2))
  if s.1 && rows.all fun r => r.cs.any (fun c => c != 0) || 0 ≤ r.b then some rows else none

/-- Some values meet all the equations and inequalities. -/
def feasible (n : Nat) (eqs ins : List Row) : Bool := (project n [] eqs ins).isSome

/-- The greatest of the lower bounds that inequalities in variable i alone give it, at least lo. -/
def lowest (i : Nat) (lo : Rat) (rs : List Row) : Rat := rs.foldl (fun m r => if r.co i < 0 then max m (r.b / r.co i) else m) lo

/-- The least value from lo up that variable i takes where the equations and inequalities hold, which is the one an equation in it alone gives, if there is one; none where they cannot hold. -/
def leastValue (n i : Nat) (lo : Rat) (eqs ins : List Row) : Option Rat :=
  if feasible n eqs ins then
    match (solveRows (solveOrder n [i]) eqs).2.lookup i with
    | some e => some (e.b / e.co i)
    | none => (project n [i] eqs ins).map (lowest i lo)
  else none

/-! ### Transforms, nodes and records -/

/-- An affine transform: three rows and a translation (R200). -/
structure Xf where
  r0 : Vec
  r1 : Vec
  r2 : Vec
  t : Vec
  deriving DecidableEq, Repr

/-- The identity. -/
def Xf.id : Xf := ⟨⟨1, 0, 0⟩, ⟨0, 1, 0⟩, ⟨0, 0, 1⟩, ⟨0, 0, 0⟩⟩

/-- Row k of the matrix. -/
def Xf.row (f : Xf) : Nat → Vec
  | 0 => f.r0
  | 1 => f.r1
  | _ => f.r2

/-- The matrix applied to a vector. -/
def Xf.lin (f : Xf) (v : Vec) : Vec := ⟨f.r0.dot v, f.r1.dot v, f.r2.dot v⟩

/-- A point transformed. -/
def Xf.apply (f : Xf) (v : Vec) : Vec := (f.lin v).plus f.t

/-- f after g. -/
def Xf.comp (f g : Xf) : Xf :=
  let col := fun (k : Nat) => f.lin ⟨g.r0.at k, g.r1.at k, g.r2.at k⟩
  let c0 := col 0
  let c1 := col 1
  let c2 := col 2
  ⟨⟨c0.x, c1.x, c2.x⟩, ⟨c0.y, c1.y, c2.y⟩, ⟨c0.z, c1.z, c2.z⟩, f.apply g.t⟩

/-- A field of n bytes at byte o. -/
def recField (bs : List Byte) (o n : Nat) : Nat := leNat ((bs.drop o).take n)

/-- Three FP32 components at byte o; none when one is not finite. -/
def recVec (bs : List Byte) (o : Nat) : Option Vec :=
  match f32Rat (recField bs o 4), f32Rat (recField bs (o + 4) 4), f32Rat (recField bs (o + 8) 4) with
  | some x, some y, some z => some ⟨x, y, z⟩
  | _, _, _ => none

/-- What lies above an entry of a stack (R199-R201): the transform to world space, the mask, the IIDs from the outermost, the addresses of the instance records, and the innermost HITE. -/
structure BvhLevel where
  xf : Xf
  mask : Nat
  path : List Nat
  recs : List Nat
  hite : Option Word
  deriving DecidableEq, Repr

/-- The kind of a child. -/
inductive BvhKind where
  | node | leaf | inst
  deriving DecidableEq, Repr

/-- A child of a node that is entered when its box is met (R199): its address, the triangles of a leaf, and its box. -/
structure BvhChild where
  kind : BvhKind
  addr : Nat
  count : Nat
  lo : Vec
  hi : Vec
  deriving DecidableEq, Repr

/-- Child c of a node (R199); none when it is empty or masked out. -/
def bvhChild (bs : List Byte) (org q : Vec) (mask c : Nat) : Option BvhChild :=
  let d := recField bs (32 + 2 * c) 2
  let ql := fun a => recField bs (48 + 6 * c + a) 1
  let qh := fun a => recField bs (51 + 6 * c + a) 1
  let box := fun (f : Nat → Nat) => Vec.mk (org.x + (f 0 : Rat) * q.x) (org.y + (f 1 : Rat) * q.y) (org.z + (f 2 : Rat) * q.z)
  let lo := box ql
  let hi := box fun a => qh a + 1
  if d % 4 = 0 ∨ recField bs (96 + 4 * c) 1 &&& mask = 0 ∨ qh 0 < ql 0 ∨ qh 1 < ql 1 ∨ qh 2 < ql 2 then none
  else
    match d % 4 with
    | 1 => some ⟨.node, (recField bs 16 8 + 128 * (d / 4)) % 2 ^ 64, 0, lo, hi⟩
    | 2 => some ⟨.leaf, (recField bs 24 8 + 48 * natBits d 15 7) % 2 ^ 64, natBits d 6 2 + 1, lo, hi⟩
    | _ => some ⟨.inst, (recField bs 24 8 + 128 * (d / 4)) % 2 ^ 64, 0, lo, hi⟩

/-- The children of a node (R199); none when it is malformed. -/
def bvhNode (bs : List Byte) (mask : Nat) : Option (List BvhChild) :=
  let e := fun a => recField bs (12 + a) 1
  let nch := recField bs 15 1 % 16
  match recVec bs 0 with
  | none => none
  | some org =>
    if e 0 = 255 ∨ e 1 = 255 ∨ e 2 = 255 ∨ nch = 0 ∨ 8 < nch then none
    else
      let q := Vec.mk (ratPow2 ((e 0 : Int) - 127)) (ratPow2 ((e 1 : Int) - 127)) (ratPow2 ((e 2 : Int) - 127))
      some ((List.range nch).filterMap fun c => bvhChild bs org q mask c)

/-- Below an instance record (R200): its root and level; none when it is malformed. -/
def bvhInstance (bs : List Byte) (addr : Nat) (l : BvhLevel) : Option (Nat × BvhLevel) :=
  match recVec bs 0, recVec bs 16, recVec bs 32, f32Rat (recField bs 12 4), f32Rat (recField bs 28 4), f32Rat (recField bs 44 4) with
  | some r0, some r1, some r2, some tx, some ty, some tz =>
    let iid := recField bs 56 4
    if iid = 0xFFFFFFFF then none
    else some (recField bs 48 8,
      ⟨l.xf.comp ⟨r0, r1, r2, ⟨tx, ty, tz⟩⟩, l.mask &&& recField bs 60 1, l.path ++ [iid], l.recs ++ [addr], some (w32 (recField bs 64 4))⟩)
  | _, _, _, _, _, _ => none

/-- A triangle record (R200): its vertices, PRIM and OPAQUE. -/
structure BvhTri where
  v : Vec × Vec × Vec
  prim : Nat
  solid : Bool
  deriving DecidableEq, Repr

/-- Reads a triangle record; none when it is malformed. -/
def bvhTri (bs : List Byte) : Option BvhTri :=
  match recVec bs 0, recVec bs 12, recVec bs 24 with
  | some a, some b, some c => some ⟨(a, b, c), recField bs 36 4, recField bs 40 1 % 2 == 1⟩
  | _, _, _ => none

/-- A triangle's vertices in world space (R200). -/
def BvhTri.world (t : BvhTri) (f : Xf) : Vec × Vec × Vec := (f.apply t.v.1, f.apply t.v.2.1, f.apply t.v.2.2)

/-- The innermost IID, or 0xFFFFFFFF (R200). -/
def BvhLevel.inst (l : BvhLevel) : Nat := l.path.getLastD 0xFFFFFFFF

/-- The bounds of a box on the first three of n variables. -/
def boxRows (n : Nat) (lo hi : Vec) : List Row :=
  (List.range 3).flatMap fun k =>
    let unit := fun (c : Rat) => (List.range n).map fun i => if i = k then c else 0
    [⟨unit 1, hi.at k⟩, ⟨unit (-1), -(lo.at k)⟩]

/-! ### Rays -/

/-- A ray that is traversed (R321): origin, direction, and the bounds of t, none where there is none; void says that no finite t lies between them. -/
structure RayLine where
  o : Vec
  d : Vec
  tmin : Option Rat
  tmax : Option Rat
  void : Bool
  deriving DecidableEq, Repr

/-- Components as they bound t: none when infinite. -/
def tBound (c : Nat) : Option Rat := f32Rat c

/-- TMIN, no NaN, is above TMAX, no NaN (R321). -/
def emptySpan (tmin tmax : Nat) : Bool :=
  match Fmt.fp32.unpack tmin, Fmt.fp32.unpack tmax, f32Rat tmin, f32Rat tmax with
  | .inf false, .inf false, _, _ => false
  | .inf true, .inf true, _, _ => false
  | .inf false, _, _, _ => true
  | _, .inf true, _, _ => true
  | _, _, some a, some b => b < a
  | _, _, _, _ => false

/-- Both bounds are the same infinity. -/
def voidSpan (tmin tmax : Nat) : Bool :=
  match Fmt.fp32.unpack tmin, Fmt.fp32.unpack tmax with
  | .inf a, .inf b => a == b
  | _, _ => false

/-- The ray of eight register codes (R321); none when it meets nothing. -/
def rayLine (ws : List Word) : Option RayLine :=
  let c := fun i => (ws.getD i 0).toNat
  let v := fun i => f32Rat (c i)
  if ((List.range 8).any fun i => (Fmt.fp32.unpack (c i)).isNaN) || emptySpan (c 3) (c 7) then none
  else
    match v 0, v 1, v 2, v 4, v 5, v 6 with
    | some ox, some oy, some oz, some dx, some dy, some dz =>
      if dx = 0 ∧ dy = 0 ∧ dz = 0 then none else some ⟨⟨ox, oy, oz⟩, ⟨dx, dy, dz⟩, tBound (c 3), tBound (c 7), voidSpan (c 3) (c 7)⟩
    | _, _, _, _, _, _ => none

/-- A point of a box under a transform lies on the ray's line: the equations in the point and t. -/
def RayLine.lineRows (r : RayLine) (f : Xf) : List Row :=
  (List.range 3).map fun k => Row.mk [(f.row k).x, (f.row k).y, (f.row k).z, -(r.d.at k)] (r.o.at k - f.t.at k)

/-- The point lies in the box and t between the bounds. -/
def RayLine.spanRows (r : RayLine) (lo hi : Vec) : List Row :=
  boxRows 4 lo hi ++ (r.tmin.toList.map fun t => Row.mk [0, 0, 0, -1] (-t)) ++ (r.tmax.toList.map fun t => Row.mk [0, 0, 0, 1] t)

/-- The ray meets the image of a box under a transform (R199): some point of the box and some t of the ray agree. The variables are the point and t. -/
def RayLine.meets (r : RayLine) (f : Xf) (lo hi : Vec) : Bool := !r.void && feasible 4 (r.lineRows f) (r.spanRows lo hi)

/-- The least t at which the ray meets the image of a box that it meets: the entry distance (R203). -/
def RayLine.near (r : RayLine) (f : Xf) (lo hi : Vec) : Rat :=
  (leastValue 4 3 (r.tmin.getD (-(ratPow2 200))) (r.lineRows f) (r.spanRows lo hi)).getD 0

/-- The absolute value. -/
def ratAbs (x : Rat) : Rat := if x < 0 then -x else x

/-- The axis of largest |D_k|, the lowest on a tie (R202). -/
def RayLine.axis (r : RayLine) : Nat :=
  let a := fun k => ratAbs (r.d.at k)
  if a 1 ≤ a 0 ∧ a 2 ≤ a 0 then 0 else if a 2 ≤ a 1 then 1 else 2

/-- A hit (R202): its t, the path and record it belongs to, and the weights of V1 and V2. -/
structure Hit where
  t : Rat
  path : List Nat
  prim : Nat
  solid : Bool
  hite : Option Word
  b1 : Rat
  b2 : Rat
  deriving DecidableEq, Repr

/-- An edge function at (0, 0), passed under the fill rule (R208, R202): the points, and the value. -/
def edgeAt0 (p q : Rat × Rat) : Rat × Bool :=
  let al := -(q.2 - p.2)
  let be := q.1 - p.1
  let e := al * (0 - p.1) + be * (0 - p.2)
  (e, 0 < e || (e == 0 && (0 < al || (al == 0 && 0 < be))))

/-- The hit of a ray on a triangle in world space (R202). -/
def RayLine.hit (r : RayLine) (v : Vec × Vec × Vec) (tri : BvhTri) (l : BvhLevel) : Option Hit :=
  let k := r.axis
  let a := (k + 1) % 3
  let b := (k + 2) % 3
  let shear := fun (p : Vec) =>
    (p.at a - r.o.at a - r.d.at a / r.d.at k * (p.at k - r.o.at k), p.at b - r.o.at b - r.d.at b / r.d.at k * (p.at k - r.o.at k))
  let q0 := shear v.1
  let q1 := shear v.2.1
  let q2 := shear v.2.2
  let area := (q1.1 - q0.1) * (q2.2 - q0.2) - (q2.1 - q0.1) * (q1.2 - q0.2)
  if area = 0 ∨ tri.prim = 0xFFFFFFFF ∨ r.void = true then none
  else
    let swap := decide (area < 0)
    let w1 := if swap then q2 else q1
    let w2 := if swap then q1 else q2
    let e0 := edgeAt0 w1 w2
    let e1 := edgeAt0 w2 q0
    let e2 := edgeAt0 q0 w1
    let n := ratAbs area
    let b1 := (if swap then e2.1 else e1.1) / n
    let b2 := (if swap then e1.1 else e2.1) / n
    let z := e0.1 / n * v.1.at k + b1 * v.2.1.at k + b2 * v.2.2.at k
    let t := (z - r.o.at k) / r.d.at k
    if e0.2 && e1.2 && e2.2 && (r.tmin.all fun m => m ≤ t) && (r.tmax.all fun m => t ≤ m) then
      some ⟨t, l.path, tri.prim, tri.solid, l.hite, b1, b2⟩
    else none

/-- The order of instance paths (R202): id by id, a shorter path first. -/
def pathBefore : List Nat → List Nat → Bool
  | [], [] => false
  | [], _ :: _ => true
  | _ :: _, [] => false
  | a :: r, b :: q => decide (a < b) || (a == b && pathBefore r q)

/-- The order of keys (R202). -/
def Hit.before (x y : Hit) : Bool :=
  decide (x.t < y.t) || (x.t == y.t && (pathBefore x.path y.path || (x.path == y.path && decide (x.prim < y.prim))))

/-- Two hits of one key. -/
def Hit.same (x y : Hit) : Bool := x.t == y.t && x.path == y.path && x.prim == y.prim

/-- A hit joined to hits in ascending key, each key once (R202). -/
def addHit (x : Hit) : List Hit → List Hit
  | [] => [x]
  | y :: r => if x.same y then y :: r else if x.before y then x :: y :: r else y :: addHit x r

end Sys2Proof.Machine
end

