-- ==== Sys2Proof/Machine/Array.lean ====
section
/-! DEFINITION. The units of the matrix array and its arithmetic: A tiles, weight slots, accumulator tiles, exact steps, drains, images, and the chunks of the MMA family (05 R113-R131, 07 R160-R173, 08 R178-R184, R190-R194). -/

namespace Sys2Proof.Machine

/-! ### Units -/

/-- Key of a byte of an A tile at a pair position. -/
def taKey (p unit byte : Nat) : Nat := 2 ^ 24 * p + 16384 * unit + byte

/-- Key of a byte of a weight slot at a pair position. -/
def wbKey (p slot byte : Nat) : Nat := 2 ^ 24 * p + 131072 * slot + byte

/-- Key of an accumulator unit at a pair position. -/
def acKey (p unit : Nat) : Nat := 16 * p + unit

/-- A unit that holds no tile. -/
def AcUnit.empty : AcUnit := ⟨.empty, false, []⟩

/-- A row with every value 0 and clear state. -/
def AcRow.zero : AcRow := ⟨false, false, 0, 0, [], false⟩

/-- An accumulator unit. -/
def Grove.acUnit (g : Grove) (p u : Nat) : AcUnit := tabGet AcUnit.empty g.ac (acKey p u)

/-- Replaces an accumulator unit. -/
def Grove.setAcUnit (g : Grove) (p u : Nat) (x : AcUnit) : Grove := { g with ac := tabSet AcUnit.empty g.ac (acKey p u) x }

/-- A row of a unit. -/
def AcUnit.row (u : AcUnit) (i : Nat) : AcRow := tabGet AcRow.zero u.rows i

/-- Replaces a row of a unit. -/
def AcUnit.setRow (u : AcUnit) (i : Nat) (r : AcRow) : AcUnit := { u with rows := tabSet AcRow.zero u.rows i r }

/-- Updates every row of a unit. -/
def AcUnit.mapRows (f : Nat → AcRow → AcRow) (u : AcUnit) : AcUnit :=
  (List.range 64).foldl (fun u i => u.setRow i (f i (u.row i))) u

/-- Updates a unit of a grove. -/
def Grove.modAc (g : Grove) (p u : Nat) (f : AcUnit → AcUnit) : Grove := g.setAcUnit p u (f (g.acUnit p u))

/-- An element of a row: value and flag F (R127). -/
def AcRow.elem (r : AcRow) (j : Nat) : Int × Nat := tabGet (0, 0) r.elems j

/-- Replaces an element. -/
def AcRow.setElem (r : AcRow) (j : Nat) (x : Int × Nat) : AcRow := { r with elems := tabSet (0, 0) r.elems j x }

/-- A row becomes poisoned: its elements hold 0 (R172). -/
def AcRow.spoil (r : AcRow) : AcRow := { r with poison := true, elems := [] }

/-- A row as it is read: an uncorrectable error found in it poisons it (R172); a drain or spill finds it as an accumulation does (log 50). -/
def AcRow.found (r : AcRow) : AcRow := if r.bad then { r.spoil with bad := false } else r

/-- n bytes of an A tile from a key. -/
def Grove.taBytes (g : Grove) (k n : Nat) : List Byte := (List.range n).map fun i => tabGet 0 g.ta (k + i)

/-- n bytes of a weight slot from a key. -/
def Grove.wbBytes (g : Grove) (k n : Nat) : List Byte := (List.range n).map fun i => tabGet 0 g.wb (k + i)

/-- Whether some 32-byte piece of a tile row is poisoned; a row is 256 bytes. -/
def Grove.taRowPoisoned (g : Grove) (k : Nat) : Bool := (List.range 8).any fun i => tabGet false g.taPoison (k / 256 * 8 + i)

/-- Sets the poison of the 32-byte pieces of n bytes from a key (log 18). -/
def Grove.setTaPoison (g : Grove) (k n : Nat) (b : Bool) : Grove :=
  { g with taPoison := (List.range (n / 32)).foldl (fun t i => tabSet false t (k / 32 + i) b) g.taPoison }

/-- Bytes written to an A tile. -/
def Grove.taWrite (g : Grove) (k : Nat) (bs : List Byte) : Grove :=
  { g with ta := (atKeys k bs).foldl (fun m e => tabSet 0 m e.1 e.2) g.ta }

/-- Some 256-byte block of n bytes of the weight buffer is poisoned. -/
def Grove.wbPoisoned (g : Grove) (k n : Nat) : Bool :=
  (List.range ((k + n - 1) / 256 + 1 - k / 256)).any fun i => tabGet false g.wbPoison (k / 256 + i)

/-- The units a tile of a class occupies from its base (R179). -/
def extentOf (c : TileClass) (ac : Nat) : List Nat := if c = .acw then (List.range 5).map fun i => ac + i else [ac]

/-- The base of the ACW tile a unit can lie in (R67). -/
def acwBase (u : Nat) : Nat := if u < 5 then 0 else 5

/-- The tile rule for writing a tile of a class at a unit (R179): an EMPTY extent, an existing tile of the class, or neither. -/
inductive ExtentState where
  | fresh | tile | bad
  deriving DecidableEq, Repr

/-- What stands at the extent a command writes (R179). -/
def Grove.extent (g : Grove) (p ac : Nat) (c : TileClass) : ExtentState :=
  if (extentOf c ac).all fun u => (g.acUnit p u).cls == .empty && u < g.desc.acs then .fresh
  else if (g.acUnit p ac).cls = c ∧ (g.acUnit p ac).interior = false ∧ (c = .acw → ac = acwBase ac) then .tile
  else .bad

/-- Makes an extent a tile of a class with every value 0 and clear state; units of an ACW tile it overlaps in part become EMPTY (R179, R195). -/
def Grove.makeTile (g : Grove) (p ac : Nat) (c : TileClass) : Grove :=
  let touched := (extentOf c ac).filter fun u => (g.acUnit p u).cls == .acw
  let g := touched.foldl (fun g u => (extentOf .acw (acwBase u)).foldl (fun g v => g.setAcUnit p v AcUnit.empty) g) g
  (extentOf c ac).foldl (fun g u => g.setAcUnit p u ⟨c, c == .acw && u != ac, []⟩) g

/-- The unit named becomes EMPTY, and with it the whole ACW tile it belongs to (R190, R195). -/
def Grove.clearTile (g : Grove) (p ac : Nat) : Grove :=
  if (g.acUnit p ac).cls = .acw then (extentOf .acw (acwBase ac)).foldl (fun g v => g.setAcUnit p v AcUnit.empty) g
  else g.setAcUnit p ac AcUnit.empty

/-- The read rule of R179: the reason of TILE_STATE, 1 EMPTY and 2 an interior unit. -/
def Grove.readRule (g : Grove) (p ac : Nat) : Option Nat :=
  let u := g.acUnit p ac
  if u.cls = .empty then some 1 else if u.interior then some 2 else none

/-- The units of the tile a unit is the base of. -/
def Grove.tileUnits (g : Grove) (p ac : Nat) : List Nat := extentOf (g.acUnit p ac).cls ac

/-- A unit the array command in flight holds (R175). -/
def Grove.heldAc (g : Grove) (p u : Nat) : Bool :=
  match g.msq with
  | some m => m.psel == p && m.units.contains u
  | none => false

/-- An A tile the array command in flight holds (R175). -/
def Grove.heldTa (g : Grove) (p u : Nat) : Bool :=
  match g.msq with
  | some m => m.psel == p && m.tas.contains u
  | none => false

/-! ### Elements and exact steps -/

/-- An operand element of the array: a float format, or a signed integer of a width. -/
inductive Elem where
  | float (f : Fmt) | int (w : Nat)
  deriving DecidableEq, Repr

/-- Width of an element in bits. -/
def Elem.width : Elem → Nat
  | .float f => f.width
  | .int w => w

/-- The value of an element's code; nothing is flushed (R120, R162). -/
def Elem.val : Elem → Nat → FVal
  | .float f, c => f.unpack c
  | .int w, c => .fin (sintOf w c < 0) (sintOf w c).natAbs 0

/-- A value under an E8M0 scale (R113). -/
def FVal.scaled (code : Nat) : FVal → FVal
  | .fin n m e => if code = 255 then .nan false false 0 0 else .fin n m (e + (code : Int) - 127)
  | x => if code = 255 then .nan false false 0 0 else x

/-- Element number k of a stream of packed elements whose bytes f gives (R115). -/
def packedAt (f : Nat → Byte) (w k : Nat) : Nat :=
  let o := w * k
  leNat ((List.range 3).map fun i => f (o / 8 + i)) / 2 ^ (o % 8) % 2 ^ w

/-- Flag(p) of a product (R128). -/
def prodFlag (a b : FVal) : Nat :=
  match prodTerm a b with
  | [.inf n] => if n then 2 else 1
  | [.fin _ _ _] => 0
  | _ => 3

/-- The exponent of a class's unit, and the bits of its two's complement integer (R127). -/
def accUnit : TileClass → Int × Nat
  | .acw => (-320, 640)
  | .acn => (-64, 128)
  | _ => (0, 27)

/-- The integer of the residue window with the residues of x (R125). -/
def residueWrap (x : Int) : Int := (residueDec (residueEnc x)).getD 0

/-- AddStep (R128): flags and finite terms of one step added to an element; and whether the step overflowed. -/
def addStep (c : TileClass) (x : Int × Nat) (flags : List Nat) (terms : List Term) : (Int × Nat) × Bool :=
  let f := flags.foldl (fun a b => a ||| b) x.2
  let u := accUnit c
  if c = .acz then ((residueWrap (x.1 + sumAt 0 terms), 0), false)
  else if f ≠ 0 then ((x.1, f), false)
  else
    let v := x.1 + sumAt u.1 terms
    if v < -(2 ^ (u.2 - 1)) then ((x.1, 2), true)
    else if 2 ^ (u.2 - 1) ≤ v then ((x.1, 1), true)
    else ((v, 0), false)

/-- The products of one step added to an element. -/
def addProducts (c : TileClass) (x : Int × Nat) (ps : List (FVal × FVal)) : (Int × Nat) × Bool :=
  addStep c x (ps.map fun p => prodFlag p.1 p.2) (ps.flatMap fun p => prodTerm p.1 p.2)

/-- A command notes an overflow of a row at a step: the first step and the lowest row are kept (R173). -/
def noteOverflow (o : Option (Nat × Nat)) (step row : Nat) : Option (Nat × Nat) :=
  match o with
  | none => some (step, row)
  | some (s, r) => some (min s step, min r row)

/-- Steps of products added to elements of a row, column by column: ps j is the list of steps of column j, the first numbered step. The row, and the first overflowing step. -/
def AcRow.addCols (c : TileClass) (step : Nat) (cols : List Nat) (ps : Nat → List (List (FVal × FVal))) (r : AcRow) : AcRow × Option Nat :=
  let r := r.found
  if r.poison then (r, none)
  else
    cols.foldl (fun (acc : AcRow × Option Nat) j =>
      let steps := ps j
      let e := ((List.range steps.length).zip steps).foldl (fun (e : (Int × Nat) × Option Nat) kp =>
        let q := addProducts c e.1 kp.2
        (q.1, if q.2 && e.2.isNone then some (step + kp.1) else e.2)) (acc.1.elem j, none)
      let row := acc.1.setElem j e.1
      match e.2, acc.2 with
      | some a, some b => ({ row with ovf := true }, some (min a b))
      | some a, none => ({ row with ovf := true }, some a)
      | none, o => (row, o)) (r, none)

/-- COUNT of a row after n more products (R130, R184). -/
def addCount (c : TileClass) (x n : Nat) : Nat := if c = .acz then x + n else min (2 ^ 32 - 1) (x + n)

/-! ### Drains -/

/-- The bits of an MDRAIN's random rounding (R191). -/
def rsrBits (seed i j : Nat) : Nat :=
  let x := (seed + 0x9E3779B9 * (64 * i + j + 1)) % 2 ^ 32
  let x := (x ^^^ (x / 2 ^ 16)) * 0x7FEB352D % 2 ^ 32
  let x := (x ^^^ (x / 2 ^ 15)) * 0x846CA68B % 2 ^ 32
  (x ^^^ (x / 2 ^ 16)) / 2 ^ 8

/-- An accumulator element as a drain sees it: integer × 2^e with flag F. -/
structure DrainVal where
  v : Int
  e : Int
  f : Nat
  deriving DecidableEq, Repr

/-- v × 2^e against 2^k: less, with v not negative. -/
def belowPow (v e k : Int) : Bool :=
  let d := e - k
  if 0 ≤ d then v * 2 ^ d.toNat < 1 else v < 2 ^ (-d).toNat

/-- The drain activation of MCS0 (R171). -/
def activate (mcs0 : Nat) (x : DrainVal) : DrainVal :=
  let sh := natBits mcs0 7 3
  let x := { x with e := x.e + sintOf 8 (natBits mcs0 15 8) }
  match natBits mcs0 2 0 with
  | 1 => if x.f = 2 ∨ x.f = 0 ∧ x.v < 0 then { x with v := 0, f := 0 } else x
  | 2 => if x.f = 0 ∧ x.v < 0 then { x with e := x.e - (sh : Int) } else x
  | 3 =>
    if x.f = 1 then ⟨1, sh, 0⟩
    else if x.f = 2 then ⟨-1, sh, 0⟩
    else if x.f = 0 ∧ belowPow x.v.natAbs x.e sh = false then ⟨if x.v < 0 then -1 else 1, sh, 0⟩
    else x
  | _ => x

/-- The float format of a drain (R190). -/
def drainFmt : DrainFmt → Fmt
  | .fp32 => .fp32
  | .fp16 => .fp16
  | .bf16 => .bf16
  | .fp8e4 => .fp8e4
  | .fp8e5 => .fp8e5
  | .i32 => .fp32

/-- Bytes of a drained element (R190). -/
def drainSize : DrainFmt → Nat
  | .fp32 => 4
  | .fp16 => 2
  | .bf16 => 2
  | .fp8e4 => 1
  | .fp8e5 => 1
  | .i32 => 4

/-- DrainElement (R129, R180): a float destination under the FTZ bit and SATN of an FPC. -/
def drainFloat (v : FEnv) (f : Fmt) (mode : Rnd) (r : Nat) (x : DrainVal) : Rounded :=
  if x.f = 3 then (f.canonNaN.getD 0, flagNV)
  else if x.f ≠ 0 then
    (if f.hasInf then ((if x.f = 2 then f.signBit else 0) + f.maxCode + 1, 0) else overflowOf v f mode (x.f == 2) 0)
  else if x.v = 0 then (0, 0)
  else roundDyadic v f mode r (x.v < 0) x.v.natAbs x.e

/-- DrainInt (R193): a clamp raises OF, and NX too only where the rounding lost a fraction (log 50). -/
def drainInt (mode : Rnd) (r : Nat) (x : DrainVal) : Rounded :=
  if x.f = 3 then (0, flagNV)
  else if x.f = 1 then (2 ^ 31 - 1, flagNV)
  else if x.f = 2 then (2 ^ 31, flagNV)
  else
    let neg := decide (x.v < 0)
    let d := 2 ^ (-x.e).toNat
    let n := x.v.natAbs * 2 ^ x.e.toNat
    let c := n / d
    let rem := n % d
    let m := if rem != 0 && roundsUp mode r neg (c % 2 == 1) rem d then c + 1 else c
    let k : Int := if neg then -(m : Int) else (m : Int)
    let fl := if rem = 0 then 0 else flagNX
    if k < -(2 ^ 31) then (2 ^ 31, fl ||| flagOF)
    else if 2 ^ 31 - 1 < k then (2 ^ 31 - 1, fl ||| flagOF)
    else (modPow 32 k, fl)

/-- An element drained (R190, R192). -/
def drainElem (fpc mcs0 : Nat) (c : TileClass) (f : DrainFmt) (mode : Rnd) (r : Nat) (x : Int × Nat) : Rounded :=
  let y : DrainVal := ⟨x.1, (accUnit c).1, x.2⟩
  if f = .i32 then drainInt mode r y else drainFloat (FEnv.ofFpc fpc) (drainFmt f) mode r (activate mcs0 y)

/-- DF of flags (R180): NV, OF, UF, NX. -/
def dfOf (fl : Nat) : Nat := fl % 2 + 2 * (fl / 4 % 2) + 4 * (fl / 8 % 2) + 8 * (fl / 16 % 2)

/-! ### Images -/

/-- Bytes of an element in an image (R127, R130). -/
def elemBytes : TileClass → Nat
  | .acw => 80
  | .acn => 16
  | _ => 4

/-- CLASS of a header (R130). -/
def classBits : TileClass → Nat
  | .empty => 0
  | .acw => 1
  | .acn => 2
  | .acz => 3

/-- The class a header names. -/
def classOfBits : Nat → TileClass
  | 1 => .acw
  | 2 => .acn
  | 3 => .acz
  | _ => .empty

/-- The header of a row (R130), DF in bits [7:4] when asked for (R192). -/
def AcRow.header (c : TileClass) (withDf : Bool) (r : AcRow) : Nat :=
  b2n r.poison + 2 * b2n r.ovf + 4 * classBits c + (if withDf then 16 * r.df else 0) + 2 ^ 32 * r.count +
    2 ^ 64 * (if c = .acz then 0 else (List.range 64).foldl (fun a j => a + 4 ^ j * (r.elem j).2) 0)

/-- The image of a row (R130). -/
def AcRow.image (c : TileClass) (r : AcRow) : List Byte :=
  leBytes 64 (r.header c false) ++ (List.range 64).flatMap fun j =>
    match c with
    | .acw => leBytes 80 (modPow 640 (r.elem j).1)
    | .acn => leBytes 16 (modPow 128 (r.elem j).1)
    | _ => leBytes 4 (residueEnc (r.elem j).1)

/-- Bytes of a row's image (R130). -/
def rowBytes (c : TileClass) : Nat := 64 + 64 * elemBytes c

/-- A row read from its image (R130, R131): a malformed residue element poisons an ACZ row, and a poisoned row holds zeros; OVF of a header counts in an ACZ row too (log 50). -/
def rowOfImage (c : TileClass) (bs : List Byte) : AcRow :=
  let h := leNat (bs.take 64)
  let code := fun j => leNat ((bs.drop (64 + elemBytes c * j)).take (elemBytes c))
  let bad := c == .acz && (List.range 64).any fun j => (residueDec (code j)).isNone
  let elems := (List.range 64).foldl (fun t j =>
    tabSet (0, 0) t j (match c with
      | .acw => (sintOf 640 (code j), natBits h (65 + 2 * j) (64 + 2 * j))
      | .acn => (sintOf 128 (code j), natBits h (65 + 2 * j) (64 + 2 * j))
      | _ => ((residueDec (code j)).getD 0, 0))) []
  let r : AcRow := ⟨natBit h 0, natBit h 1, natBits h 63 32, 0, elems, false⟩
  if natBit h 0 || bad then r.spoil else r

/-! ### The MMA family -/

/-- What R105, R160 and R183 give a form: the elements of A and B, the class, K_step, KT, and which sides have scales. -/
structure MmaInfo where
  a : Elem
  b : Elem
  cls : TileClass
  kstep : Nat
  kt : Nat
  aScale : Bool
  bScale : Bool

/-- The forms (R105, R160, R183). -/
def mmaInfo : MmaForm → MmaInfo
  | .mmaBf16 => ⟨.float .bf16, .float .bf16, .acw, 2, 128, false, false⟩
  | .mmaFp16 => ⟨.float .fp16, .float .fp16, .acn, 2, 128, false, false⟩
  | .mmaE4 => ⟨.float .fp8e4, .float .fp8e4, .acn, 4, 256, false, false⟩
  | .mmaE5 => ⟨.float .fp8e5, .float .fp8e5, .acn, 4, 256, false, false⟩
  | .mmaF6a => ⟨.float .fp6e3, .float .fp6e3, .acn, 4, 256, false, false⟩
  | .mmaF6b => ⟨.float .fp6e2, .float .fp6e2, .acn, 4, 256, false, false⟩
  | .mmaF4 => ⟨.float .fp4, .float .fp4, .acn, 8, 512, false, false⟩
  | .mmaMx4 => ⟨.float .fp4, .float .fp4, .acw, 8, 512, true, true⟩
  | .mmaMx6a => ⟨.float .fp6e3, .float .fp6e3, .acw, 4, 256, true, true⟩
  | .mmaMx8 => ⟨.float .fp8e4, .float .fp8e4, .acw, 4, 256, true, true⟩
  | .mmaI8 => ⟨.int 8, .int 8, .acz, 8, 256, false, false⟩
  | .mmaI4 => ⟨.int 4, .int 4, .acz, 16, 512, false, false⟩
  | .mmaI8bf => ⟨.int 8, .float .bf16, .acw, 2, 128, true, false⟩
  | .mmaI8e4 => ⟨.int 8, .float .fp8e4, .acn, 4, 256, true, false⟩
  | .mmaBfmx4 => ⟨.float .bf16, .float .fp4, .acw, 2, 128, true, true⟩
  | .mmaE4bf => ⟨.float .fp8e4, .float .bf16, .acw, 2, 128, true, false⟩

/-- Bytes of the values of a weight record, and with the metadata (R163). -/
def MmaInfo.valueBytes (x : MmaInfo) (sparse : Bool) : Nat := if sparse then 32 * x.kt * x.b.width / 8 else 64 * x.kt * x.b.width / 8

/-- Where the B scales of a record start (R163). -/
def MmaInfo.scaleAt (x : MmaInfo) (sparse : Bool) : Nat := x.valueBytes sparse + (if sparse then 8 * x.kt else 0)

/-- Bytes from one weight record to the next (R163). -/
def MmaInfo.record (x : MmaInfo) (sparse : Bool) : Nat :=
  (x.scaleAt sparse + (if x.bScale then 64 * (x.kt / 32) else 0) + 1023) / 1024 * 1024

/-- The last weight slot a command touches (R163, R165). -/
def mmaLastSlot (x : MmaInfo) (m : MmaArgs) : Nat :=
  match m.dm with
  | .dense => m.wb.val + ((m.kc.val + 1) * x.record false - 1) / 131072
  | .sparse => m.wb.val + ((m.kc.val + 1) * x.record true - 1) / 131072
  | _ => m.wb.val + 1

/-- Steps per K chunk, dense or sparse (R160). -/
def MmaInfo.stepsPerChunk (x : MmaInfo) (sparse : Bool) : Nat := x.kt / (if sparse then 2 * x.kstep else x.kstep)

/-- The steps of a command (R161). -/
def mmaSteps (x : MmaInfo) (m : MmaArgs) (rank : Nat) : Nat :=
  match m.dm with
  | .dense => (m.kc.val + 1) * x.stepsPerChunk false
  | .sparse => (m.kc.val + 1) * x.stepsPerChunk true
  | .expand => (m.kc.val + 1) * (rank + 64)
  | .absorb => rank * (m.kc.val + 1) + rank / 2

/-- The products each element gains, in COUNT (R167, R184). -/
def mmaProducts (x : MmaInfo) (m : MmaArgs) (rank : Nat) : Nat := if m.dm = .absorb then rank else (m.kc.val + 1) * x.kt

/-- The units of COUNT a product counts (R126). -/
def guardUnits (f : MmaForm) : Nat := if f = .mmaI8 then 256 else 1

/-- The key of A element (i, k) in tile TA + c: first byte of its row or stream, and its number there (R162). -/
def aPlace (p : Nat) (m : MmaArgs) (c i k : Nat) : Nat × Nat :=
  if m.t then (taKey p (m.ta.val + c) 0, 64 * k + i) else (taKey p (m.ta.val + c) (256 * i), k)

/-- A element (i, k) of K chunk c (R162). -/
def Grove.aElem (g : Grove) (p : Nat) (e : Elem) (m : MmaArgs) (c i k : Nat) : FVal :=
  let pl := aPlace p m c i k
  e.val (packedAt (fun o => tabGet 0 g.ta (pl.1 + o)) e.width pl.2)

/-- The tile row an A element lies in is poisoned (R172). -/
def Grove.aPoisoned (g : Grove) (p : Nat) (e : Elem) (m : MmaArgs) (c i k : Nat) : Bool :=
  let pl := aPlace p m c i k
  g.taRowPoisoned (pl.1 + e.width * pl.2 / 8)

/-- The first byte key of the record of K chunk c. -/
def recordKey (p : Nat) (x : MmaInfo) (m : MmaArgs) (sparse : Bool) (c : Nat) : Nat := wbKey p m.wb.val (c * x.record sparse)

/-- The metadata of group q of column j: the positions of its two values (R164). -/
def Grove.sparseIdx (g : Grove) (p : Nat) (x : MmaInfo) (m : MmaArgs) (c j q : Nat) : Nat × Nat :=
  let k := recordKey p x m true c + x.valueBytes true
  let v := packedAt (fun o => tabGet 0 g.wb (k + o)) 4 (j * (x.kt / 4) + q)
  (v % 4, v / 4)

/-- B element (k, j) of K chunk c with its scale, none at a zero position (R163, R164, R183). -/
def Grove.bElem (g : Grove) (p : Nat) (x : MmaInfo) (m : MmaArgs) (c k j : Nat) : Option FVal :=
  let sparse := m.dm == .sparse
  let rk := recordKey p x m sparse c
  let code := fun n => packedAt (fun o => tabGet 0 g.wb (rk + o)) x.b.width n
  let scale := if x.bScale then (tabGet 0 g.wb (rk + x.scaleAt sparse + j * (x.kt / 32) + k / 32)).toNat else 127
  if sparse then
    let ix := g.sparseIdx p x m c j (k / 4)
    if k % 4 = ix.1 then some ((x.b.val (code (j * (x.kt / 2) + 2 * (k / 4)))).scaled scale)
    else if k % 4 = ix.2 then some ((x.b.val (code (j * (x.kt / 2) + 2 * (k / 4) + 1))).scaled scale)
    else none
  else some ((x.b.val (code (j * x.kt + k))).scaled scale)

/-- The environment of the roundings of the staging buffers (R166, R167). -/
def env0 : FEnv := FEnv.ofFpc 0

/-- RoundOnce of a sum of products into BF16 (R166, R167). -/
def stageSum (ps : List (FVal × FVal)) : FVal :=
  Fmt.bf16.unpack (exactSum env0 .bf16 (ps.flatMap fun x => [x.1, x.2]) (ps.flatMap fun x => prodTerm x.1 x.2)).1

/-- U element (k, m) and L element (m, j) of the latent modes (R165): BF16 element k × ρ + m of a slot. -/
def Grove.latent (g : Grove) (p slot rank k m : Nat) : FVal :=
  Fmt.bf16.unpack (packedAt (fun o => tabGet 0 g.wb (wbKey p slot o)) 16 (k * rank + m))

/-- Bstage element (k, j) of K chunk c (R166). -/
def Grove.bStage (g : Grove) (p slot rank c k j : Nat) : FVal :=
  stageSum ((List.range rank).map fun m => (g.latent p slot rank (128 * c + k) m, g.latent p (slot + 1) rank j m))

/-- A′ element (i, m) (R167). -/
def Grove.aStage (g : Grove) (p : Nat) (x : MmaArgs) (rank i m : Nat) : FVal :=
  stageSum ((List.range (128 * (x.kc.val + 1))).map fun k =>
    (g.aElem p (.float .bf16) x (k / 128) i (k % 128), g.latent p x.wb.val rank k m))

/-- Where step number s of a command lies: K chunk, step within it, and whether it is a staging step (R160, R161). -/
def mmaPlace (x : MmaInfo) (m : MmaArgs) (rank s : Nat) : Nat × Nat × Bool :=
  match m.dm with
  | .dense => (s / x.stepsPerChunk false, s % x.stepsPerChunk false, false)
  | .sparse => (s / x.stepsPerChunk true, s % x.stepsPerChunk true, false)
  | .expand => (s / (rank + 64), s % (rank + 64) - rank, decide (s % (rank + 64) < rank))
  | .absorb => (0, s - rank * (m.kc.val + 1), decide (s < rank * (m.kc.val + 1)))

/-- The K positions of a product step (R160). -/
def mmaPositions (x : MmaInfo) (m : MmaArgs) (q : Nat) : List Nat :=
  let n := if m.dm = .sparse then 2 * x.kstep else x.kstep
  (List.range n).map fun i => n * q + i

/-- The A scales of a K chunk from the committed registers of the scale threads (R168, R169): key 64 × block + row, 127 left out. -/
def Grove.readScales (g : Grove) (x : MmaInfo) (l : MmaLit) (c : Nat) : List (Nat × Nat) :=
  let w := g.desc.width
  (List.range 64).foldl (fun t i =>
    match g.lanes.find? fun u => u.strand == l.sstr.val + i / w && u.lane == i % w with
    | none => t
    | some u =>
      (List.range (x.kt / 32)).foldl (fun t q =>
        let j := c * (x.kt / 32) + q
        let r := (u.arch (.gpr (l.svb.val + j / 4))).toNat
        tabSet 127 t (64 * q + i) (r / 2 ^ (8 * ((l.sel.val + j) % 4)) % 256)) t) []

/-- Poisons rows of the tile of a command. -/
def Grove.spoilRows (g : Grove) (p ac : Nat) (bad : Nat → Bool) : Grove :=
  if (List.range 64).any bad then g.modAc p ac (AcUnit.mapRows fun i r => if bad i && !r.poison then r.spoil else r) else g

/-- A malformed group of a sparse step, in some column (R164). -/
def Grove.sparseBad (g : Grove) (p : Nat) (x : MmaInfo) (m : MmaArgs) (c : Nat) (ks : List Nat) : Bool :=
  (List.range 64).any fun j => ks.any fun k =>
    let ix := g.sparseIdx p x m c j (k / 4)
    ix.2 ≤ ix.1

/-- Weight bytes a step reads that are poisoned (R172). -/
def Grove.weightBad (g : Grove) (p : Nat) (x : MmaInfo) (m : MmaArgs) (rank c : Nat) (staging : Bool) : Bool :=
  if g.wbPoison.isEmpty then false
  else
    let l := g.wbPoisoned (wbKey p (m.wb.val + 1) 0) (128 * rank)
    match m.dm with
    | .dense => g.wbPoisoned (recordKey p x m false c) (x.record false)
    | .sparse => g.wbPoisoned (recordKey p x m true c) (x.record true)
    | .expand => staging && (l || g.wbPoisoned (wbKey p m.wb.val (256 * c * rank)) (256 * rank))
    | .absorb => if staging then g.wbPoisoned (wbKey p m.wb.val 0) (256 * (m.kc.val + 1) * rank) else l

/-- Rows whose A elements a step reads from a poisoned tile row (R172). -/
def Grove.aBad (g : Grove) (p : Nat) (x : MmaInfo) (m : MmaArgs) (c : Nat) (staging : Bool) (ks : List Nat) (i : Nat) : Bool :=
  if g.taPoison.isEmpty then false
  else if m.dm = .absorb then
    staging && (List.range (128 * (m.kc.val + 1))).any fun k => g.aPoisoned p x.a m (k / 128) i (k % 128)
  else !staging && ks.any fun k => g.aPoisoned p x.a m c i k

/-- One step of an MMA (R160-R168, R172, R184): the grove and the command after it. -/
def Grove.mmaStep (g : Grove) (f : MmaForm) (m : MmaArgs) (l : Option MmaLit) (q : Msq) : Grove × Msq :=
  let x := mmaInfo f
  let p := q.psel
  let (c, s, staging) := mmaPlace x m q.rank q.step
  let first := q.step == 0 || decide ((mmaPlace x m q.rank (q.step - 1)).1 ≠ c)
  let q := if first then
      { q with scales := match l with
        | some t => if x.aScale && !t.ones then g.readScales x t c else []
        | none => [] }
    else q
  let ks := if staging then [] else mmaPositions x m s
  let all := g.weightBad p x m q.rank c staging || m.dm == .sparse && g.sparseBad p x m c ks
  let g := g.spoilRows p q.ac fun i => all || g.aBad p x m c staging ks i
  let q' := { q with step := q.step + 1 }
  if staging then (g, q')
  else
    let bs := (List.range 64).map fun j => ks.map fun k =>
      match m.dm with
      | .expand => some (g.bStage p m.wb.val q.rank c k j)
      | .absorb => some (g.latent p (m.wb.val + 1) q.rank j k)
      | _ => g.bElem p x m c k j
    let rows := (List.range 64).map fun i => ks.map fun k =>
      if m.dm = .absorb then g.aStage p m q.rank i k
      else (g.aElem p x.a m c i k).scaled (tabGet 127 q.scales (64 * (k / 32) + i))
    let u := g.acUnit p q.ac
    let r := (List.range 64).foldl (fun (acc : AcUnit × Option (Nat × Nat)) i =>
      let as := rows.getD i []
      let y := (acc.1.row i).addCols x.cls q.step (List.range 64) fun j =>
        [(as.zip (bs.getD j [])).filterMap fun e => e.2.map fun b => (e.1, b)]
      (acc.1.setRow i y.1, match y.2 with
        | some st => noteOverflow acc.2 st i
        | none => acc.2)) (u, q.overflow)
    (g.setAcUnit p q.ac r.1, { q' with overflow := r.2 })

/-- n steps of an MMA. -/
def Grove.mmaSteps (f : MmaForm) (m : MmaArgs) (l : Option MmaLit) : Nat → Grove × Msq → Grove × Msq
  | 0, x => x
  | n + 1, x => if x.2.step < x.2.total then Grove.mmaSteps f m l n (x.1.mmaStep f m l x.2) else x

/-- The counts of a tile's rows grow by n (R184). -/
def Grove.countRows (g : Grove) (p ac n : Nat) : Grove :=
  g.modAc p ac fun u => u.mapRows fun _ r => { r with count := addCount u.cls r.count n }

end Sys2Proof.Machine
end

