-- ==== Sys2Proof/Machine/Tiles.lean ====
section
/-! DEFINITION. The matrix and tile words (08 R177-R197): issue of the MMA family, MDRAIN, MSPILL, MFILL, MACC, MZERO, the tile loads, MWAIT and MCFG, and the strands' TSTORE and TDRAIN. -/

namespace Sys2Proof.Machine

/-- TVAL of ILLEGAL_OPERAND after the guard: the word being issued and its literal (R84). -/
def State.cmdTval (s : State) : DWord :=
  match s.cur with
  | .front _ w l => wordTval w l (if takesLiteral w then 2 else 1)
  | .lane _ _ w l => wordTval w l (if takesLiteral w then 2 else 1)
  | .none => 0

/-- What the issue checks of a sequenced command come to (R178): it issues, changing tags as it does, or it traps. -/
inductive CmdIssue where
  | go (m : Msq) (f : Grove → Grove)
  | trap (cause detail : Nat) (tval : DWord)

/-- A command with what it captures at issue (R69, R175, R181, R197). -/
def Grove.command (g : Grove) (s : State) (cmd : ArrayCmd) (ac total rank : Nat) (sregs : List Word) (units tas wbs : List Nat) : Msq :=
  ⟨cmd, g.front.wordPc, g.front.fpc, g.mcs0, g.mcs1, g.mcs2, g.psel, sregs, s.nextId, 0, total, ac, units, tas, wbs, rank, [],
    none, none, false⟩

/-- A sequenced command (R105, R177, R178): it waits at issue while the MSQ is busy. -/
def uniSeq (sh : Shape) (f : State → Grove → CmdIssue) (s : State) : Out :=
  uniIssue sh false (fun s g => g.msq.isSome || frontHeld s g)
    (fun gid s => match s.grove? gid with
      | none => s
      | some g =>
        match f s g with
        | .trap c d v => s.modThread gid none (Thread.trap c d false v)
        | .go m k => ({ s with nextId := s.nextId + 1 } : State).modGrove gid fun g => { k g with msq := some m }) s

/-- DETAIL of TILE_STATE and ACC_CLASS (R178). -/
def reasonDetail (reason ac : Nat) : Nat := 256 * reason + ac

/-- A trap whose TVAL is the command's word address (R178). -/
def CmdIssue.atPc (g : Grove) (cause detail : Nat) : CmdIssue := .trap cause detail (g.front.wordPc.setWidth 64)

/-- Issue of a command that writes a tile of a class (R179). -/
def Grove.issueTile (g : Grove) (ac : Nat) (c : TileClass) (go : (Grove → Grove) → CmdIssue) : CmdIssue :=
  match g.extent g.psel ac c with
  | .bad => CmdIssue.atPc g 0x18 (reasonDetail 1 ac)
  | .fresh => go fun x => x.makeTile g.psel ac c
  | .tile => go fun x => x

/-- Issue of a command that reads a tile (R179). -/
def Grove.issueRead (g : Grove) (ac : Nat) (go : CmdIssue) : CmdIssue :=
  match g.readRule g.psel ac with
  | some r => CmdIssue.atPc g 0x17 (reasonDetail r ac)
  | none => go

/-- The lowest row of a unit that p picks. -/
def lowestRow (p : Nat → Bool) : Option Nat := (List.range 64).find? p

/-- An accumulator unit as a word names it, ACW by its base (R67). -/
def needAc (c : TileClass) (u : Nat) : List Need := if c = .acw then [.acw u] else [.ac u]

/-! ### The MMA family -/

/-- The rank a latent command finds with a slot (R165, R186): that of the last WLOAD issued into it. -/
def Grove.rankOf (g : Grove) (p slot : Nat) : Nat :=
  let code := match (g.loads.filter fun l => l.weight && l.psel == p && l.unit == slot).getLast? with
    | some l => l.rank
    | none => tabGet 0 g.wbRank (8 * p + slot)
  64 * 2 ^ code

/-- What an MMA word names (R96, R160, R163). -/
def mmaNeeds (f : MmaForm) (m : MmaArgs) (l : Option MmaLit) : List Need :=
  let x := mmaInfo f
  (match l with
    | some t => if t.ones then [] else [.v (t.svb.val + ((m.kc.val + 1) * (x.kt / 32) - 1) / 4) 1 1, .strands t.sstr.val]
    | none => []) ++ [.ta (m.ta.val + m.kc.val), .wb (mmaLastSlot x m)] ++ needAc x.cls m.ac.val

/-- The issue checks of an MMA word (R184). -/
def mmaIssue (f : MmaForm) (m : MmaArgs) (l : Option MmaLit) (s : State) (g : Grove) : CmdIssue :=
  let x := mmaInfo f
  let p := g.psel
  let ac := m.ac.val
  let rank := g.rankOf p m.wb.val
  if (m.dm == .expand || m.dm == .absorb) && 512 < (m.kc.val + 1) * rank then .trap 0x02 0 s.cmdTval
  else g.issueTile ac x.cls fun k =>
    let u := mmaProducts x m rank * guardUnits f
    let tile := (k g).acUnit p ac
    match if x.cls = .acz then lowestRow fun i => 2 ^ 20 < (tile.row i).count + u else none with
    | some i => .trap 0x0E ac (BitVec.ofNat 64 (g.front.wordPc.toNat + 2 ^ 42 * i))
    | none =>
      let tas := (List.range (m.kc.val + 1)).map fun c => m.ta.val + c
      let wbs := (List.range (mmaLastSlot x m + 1 - m.wb.val)).map fun c => m.wb.val + c
      .go (g.command s (.mma f m l) ac (mmaSteps x m rank) rank [] (extentOf x.cls ac) tas wbs) k

/-- An MMA word (R182, R184). -/
def uniMma (h : Hdr) (f : MmaForm) (m : MmaArgs) (l : Option MmaLit) (s : State) : Out :=
  uniSeq ⟨h, if l.isSome then 2 else 1, false, 0, mmaNeeds f m l⟩ (mmaIssue f m l) s

/-- MMA.BF16 (R184). -/
def execMmaBf16 (h : Hdr) (m : MmaArgs) (s : State) : Out := uniMma h .mmaBf16 m none s
/-- MMA.FP16 (R184). -/
def execMmaFp16 (h : Hdr) (m : MmaArgs) (s : State) : Out := uniMma h .mmaFp16 m none s
/-- MMA.E4 (R184). -/
def execMmaE4 (h : Hdr) (m : MmaArgs) (s : State) : Out := uniMma h .mmaE4 m none s
/-- MMA.E5 (R184). -/
def execMmaE5 (h : Hdr) (m : MmaArgs) (s : State) : Out := uniMma h .mmaE5 m none s
/-- MMA.F6A (R184). -/
def execMmaF6a (h : Hdr) (m : MmaArgs) (s : State) : Out := uniMma h .mmaF6a m none s
/-- MMA.F6B (R184). -/
def execMmaF6b (h : Hdr) (m : MmaArgs) (s : State) : Out := uniMma h .mmaF6b m none s
/-- MMA.F4 (R184). -/
def execMmaF4 (h : Hdr) (m : MmaArgs) (s : State) : Out := uniMma h .mmaF4 m none s
/-- MMA.MX4 (R184). -/
def execMmaMx4 (h : Hdr) (m : MmaArgs) (t : MmaLit) (s : State) : Out := uniMma h .mmaMx4 m (some t) s
/-- MMA.MX6A (R184). -/
def execMmaMx6a (h : Hdr) (m : MmaArgs) (t : MmaLit) (s : State) : Out := uniMma h .mmaMx6a m (some t) s
/-- MMA.MX8 (R184). -/
def execMmaMx8 (h : Hdr) (m : MmaArgs) (t : MmaLit) (s : State) : Out := uniMma h .mmaMx8 m (some t) s
/-- MMA.I8 (R184). -/
def execMmaI8 (h : Hdr) (m : MmaArgs) (s : State) : Out := uniMma h .mmaI8 m none s
/-- MMA.I4 (R184). -/
def execMmaI4 (h : Hdr) (m : MmaArgs) (s : State) : Out := uniMma h .mmaI4 m none s
/-- MMA.I8BF (R184). -/
def execMmaI8bf (h : Hdr) (m : MmaArgs) (t : MmaLit) (s : State) : Out := uniMma h .mmaI8bf m (some t) s
/-- MMA.I8E4 (R184). -/
def execMmaI8e4 (h : Hdr) (m : MmaArgs) (t : MmaLit) (s : State) : Out := uniMma h .mmaI8e4 m (some t) s
/-- MMA.BFMX4 (R184). -/
def execMmaBfmx4 (h : Hdr) (m : MmaArgs) (t : MmaLit) (s : State) : Out := uniMma h .mmaBfmx4 m (some t) s
/-- MMA.E4BF (R184). -/
def execMmaE4bf (h : Hdr) (m : MmaArgs) (t : MmaLit) (s : State) : Out := uniMma h .mmaE4bf m (some t) s

/-! ### Drains, images, MZERO -/

/-- The S group of a command (R185). -/
def Grove.sGroup (g : Grove) (n : Fin 8) : List Word := g.front.group (4 * n.val) 4

/-- The address in the first pair of an S group. -/
def groupAddr (ws : List Word) : Nat := pairNat ws 0

/-- The address checks of a command's memory base (R185, R190): cause, and the address TVAL shows. -/
def State.baseCheck (s : State) (ctx base align : Nat) (stride : Option Nat) : Option (Nat × Nat) :=
  match s.addrCheck ctx base align with
  | some c => some (c, base)
  | none =>
    match stride with
    | some d => if d % 16 ≠ 0 then some (0x04, (base + d) % 2 ^ 64) else none
    | none => none

/-- Issue of a command that drains or moves a tile, after the tile rules (R190, R194). -/
def Grove.issueMem (g : Grove) (s : State) (ac base align : Nat) (stride : Option Nat) (go : CmdIssue) : CmdIssue :=
  match s.baseCheck g.ctx base align stride with
  | some (c, a) => .trap c ac (BitVec.ofNat 64 a)
  | none => go

/-- The issue checks of MDRAIN (R190). -/
def mdrainIssue (ac : Nat) (n : Fin 8) (f : DrainFmt) (r : Rnd) (clr : Bool) (s : State) (g : Grove) : CmdIssue :=
  g.issueRead ac (
    let ws := g.sGroup n
    let stride := (ws.getD 2 0).toNat
    match lowestRow fun i => ((g.acUnit g.psel ac).row i).found.poison with
    | some i => .trap 0x0D ac (BitVec.ofNat 64 i)
    | none => g.issueMem s ac (groupAddr ws) 16 (some stride)
        (if stride < 64 * drainSize f then .trap 0x02 0 s.cmdTval
        else .go (g.command s (.mdrain f r clr) ac 64 0 ws (g.tileUnits g.psel ac) [] []) fun x => x))

/-- MDRAIN (R190). -/
def execMdrain (h : Hdr) (c : Fin 16) (n : Fin 8) (f : DrainFmt) (r : Rnd) (x : Bool) (s : State) : Out :=
  uniSeq (wordShape h false 0 [.ac c.val]) (mdrainIssue c.val n f r x) s

/-- MSPILL and MACC: the read rules, then the image address (R194). -/
def imageIssue (cmd : ArrayCmd) (ac : Nat) (n : Fin 8) (s : State) (g : Grove) : CmdIssue :=
  let ws := g.sGroup n
  g.issueRead ac (g.issueMem s ac (groupAddr ws) 64 none
    (.go (g.command s cmd ac 64 0 ws (g.tileUnits g.psel ac) [] []) fun x => x))

/-- MSPILL (R194). -/
def execMspill (h : Hdr) (c : Fin 16) (n : Fin 8) (s : State) : Out :=
  uniSeq (wordShape h false 0 [.ac c.val]) (imageIssue .mspill c.val n) s
/-- MACC (R194). -/
def execMacc (h : Hdr) (c : Fin 16) (n : Fin 8) (s : State) : Out :=
  uniSeq (wordShape h false 0 [.ac c.val]) (imageIssue .macc c.val n) s

/-- The units MFILL holds from issue (R194). -/
def Grove.fillUnits (g : Grove) (ac : Nat) : List Nat :=
  if ac = 0 ∨ ac = 5 then (extentOf .acw ac).filter fun u => u < g.desc.acs else [ac]

/-- The issue checks of MFILL (R194). -/
def mfillIssue (ac : Nat) (n : Fin 8) (s : State) (g : Grove) : CmdIssue :=
  let ws := g.sGroup n
  g.issueMem s ac (groupAddr ws) 64 none (.go (g.command s .mfill ac 64 0 ws (g.fillUnits ac) [] []) fun x => x)

/-- MFILL (R194). -/
def execMfill (h : Hdr) (c : Fin 16) (n : Fin 8) (s : State) : Out :=
  uniSeq (wordShape h false 0 [.ac c.val]) (mfillIssue c.val n) s

/-- The units MZERO changes (R195). -/
def Grove.zeroUnits (g : Grove) (p ac : Nat) (l : TileClass) : List Nat :=
  ((extentOf l ac).flatMap fun u => if (g.acUnit p u).cls = .acw then u :: extentOf .acw (acwBase u) else [u]).dedup

/-- MZERO (R195): it makes no issue check of tags. -/
def execMzero (h : Hdr) (c : Fin 16) (l : TileClass) (s : State) : Out :=
  uniSeq (wordShape h false 0 (needAc l c.val))
    (fun s g => .go (g.command s (.mzero l) c.val 4 0 [] (g.zeroUnits g.psel c.val l) [] []) fun x => x) s

/-! ### Waiting and configuration -/

/-- MWAIT (R196): the MSQ is idle and no load is outstanding; a write of MDRAIN or MSPILL has its visibility time once it is made. Pending traps are taken before it issues (R173). -/
def execMwait (h : Hdr) (s : State) : Out :=
  uniIssue (endShape h []) false (fun _ g => g.msq.isSome || !g.loads.isEmpty) (fun _ s => s) s

/-- MCFG (R170, R197): a reserved field value is refused. -/
def Grove.mcfg (g : Grove) (e : McfgSel) (w : Word) : Option Grove :=
  let x := w.toNat
  match e with
  | .mcs0 => if 4 ≤ natBits x 2 0 ∨ natBits x 2 0 = 2 ∧ natBits x 7 3 = 0 then none else some { g with mcs0 := w32 (x % 2 ^ 16) }
  | .mcs1 => some { g with mcs1 := w32 (x % 16) }
  | .mcs2 => if natBits x 2 0 = 0 ∨ 5 ≤ natBits x 2 0 then none else some { g with mcs2 := w32 (x % 16) }
  | .psel => if 2 ≤ x ∨ x = 1 ∧ g.desc.pair = false then none else some { g with psel := x }

/-- MCFG (R197). -/
def execMcfg (h : Hdr) (e : McfgSel) (b : Fin 32) (s : State) : Out :=
  uniIssue (wordShape h false 0 []) false (fun _ g => !g.front.checked)
    (fun gid s => match s.grove? gid with
      | none => s
      | some g =>
        match g.mcfg e (g.front.reg b.val) with
        | none => s.modThread gid none (Thread.fail 0x02 0 s.cmdTval)
        | some x => s.modGrove gid fun _ => x) s

/-! ### Tile loads -/

/-- A load issues (R177): at most 8 are outstanding. -/
def uniLoad (sh : Shape) (f : State → Grove → Except (Nat × Nat × DWord) TileLoad) (s : State) : Out :=
  uniIssue sh false (fun s g => decide (8 ≤ g.loads.length) || frontHeld s g)
    (fun gid s => match s.grove? gid with
      | none => s
      | some g =>
        match f s g with
        | .error (c, d, v) => s.modThread gid none (Thread.trap c d false v)
        | .ok l => ({ s with nextId := s.nextId + 1 } : State).modGrove gid fun g => { g with loads := g.loads ++ [l] }) s

/-- The issue checks of TLOAD (R185). -/
def tloadIssue (t m : Fin 16) (n : Fin 8) (s : State) (g : Grove) : Except (Nat × Nat × DWord) TileLoad :=
  let ws := g.sGroup n
  let stride := (ws.getD 2 0).toNat
  match s.baseCheck g.ctx (groupAddr ws) 16 (some stride) with
  | some (c, a) => .error (c, t.val, BitVec.ofNat 64 a)
  | none => .ok ⟨s.nextId, false, t.val, 16384 * (m.val + 1), 0, groupAddr ws, (ws.getD 3 0).toNat, stride, 0, g.front.wordPc, g.psel⟩

/-- TLOAD (R185). -/
def execTload (h : Hdr) (t m : Fin 16) (n : Fin 8) (s : State) : Out :=
  uniLoad (wordShape h false 0 [.ta (t.val + m.val)]) (tloadIssue t m n) s

/-- The issue checks of WLOAD (R186). -/
def wloadIssue (w n : Fin 8) (k : Rank) (s : State) (g : Grove) : Except (Nat × Nat × DWord) TileLoad :=
  let ws := g.sGroup n
  let len := (ws.getD 2 0).toNat
  if len = 0 ∨ len % 1024 ≠ 0 ∨ (g.desc.wbs - w.val) * 131072 < len then .error (0x02, 0, s.cmdTval)
  else match s.baseCheck g.ctx (groupAddr ws) 256 none with
  | some (c, a) => .error (c, w.val, BitVec.ofNat 64 a)
  | none => .ok ⟨s.nextId, true, w.val, len, k.code, groupAddr ws, (ws.getD 3 0).toNat, 0, 0, g.front.wordPc, g.psel⟩

/-- WLOAD (R186). -/
def execWload (h : Hdr) (w n : Fin 8) (k : Rank) (s : State) : Out :=
  uniLoad (wordShape h false 0 [.wb w.val]) (wloadIssue w n k) s

/-- The unit the next bytes of a load go to (R185, R186). -/
def TileLoad.target (l : TileLoad) : Nat := l.unit + l.done / (if l.weight then 131072 else 16384)

/-- The source address of the next 256 bytes (R185, R186). -/
def TileLoad.source (l : TileLoad) : Nat :=
  (l.src + (if l.weight then l.done else l.done / 256 * l.stride)) % 2 ^ 64

/-- A command issued before a load holds the load's next unit (R175, R187). -/
def Grove.loadBlocked (g : Grove) (l : TileLoad) : Bool :=
  match g.msq with
  | some m => decide (m.start < l.id) && m.psel == l.psel && (if l.weight then m.wbs else m.tas).contains l.target
  | none => false

/-- 256 bytes of a load written into their unit (R185, R362). -/
def Grove.loadPiece (g : Grove) (l : TileLoad) (bs : List (Byte × Bool)) : Grove :=
  let bad := anyPoisoned bs
  let g :=
    if l.weight then
      let k := wbKey l.psel l.unit l.done
      { g with
        wb := (atKeys k (plainBytes bs)).foldl (fun m e => tabSet 0 m e.1 e.2) g.wb
        wbPoison := tabSet false g.wbPoison (k / 256) bad }
    else
      let k := taKey l.psel l.unit l.done
      (g.taWrite k (plainBytes bs)).setTaPoison k 256 bad
  { g with loads := g.loads.map fun x => if x.id == l.id then { x with done := x.done + 256 } else x }

/-- A store of the front thread that its command with this id follows, to a line among n bytes, is still on its way (R248). -/
def State.loadWaits (s : State) (g : Grove) (id va n : Nat) : Bool :=
  s.reqs.any fun r => r.of g.id none && r.op.writes && decide (r.id < id ∧ vline va ≤ vline r.va ∧ vline r.va ≤ vline (va + n - 1))

/-- A loader slot: up to n pieces of 256 bytes of the oldest load (R177, R187). A refused piece ends the load with a pending trap. -/
def State.loaderGo (s : State) (gid id : Nat) (fab : FabIn) : Nat → State
  | 0 => s
  | n + 1 =>
    match s.grove? gid with
    | none => s
    | some g =>
      match g.loads.head? with
      | none => s
      | some l =>
        if l.id ≠ id ∨ l.size ≤ l.done ∨ g.loadBlocked l = true ∨ s.loadWaits g l.id l.source 256 = true then s
        else
          match s.unitRead (g.coreAgent l.psel fab) 4 l.source 256 with
          | .wait s => s
          | .fault c a =>
            s.modGrove gid fun g => { g with loads := g.loads.filter fun x => x.id != id }.addPending ⟨c, l.unit, a, l.pc⟩
          | .ok (s, bs) => (s.modGrove gid fun g => g.loadPiece l bs).loaderGo gid id fab n

/-- LOADER_SLOT: the tile loader, while its die's clock runs, writes up to 16 pieces of a load (R177, R383). -/
def execLoaderSlot (gid id : Nat) (c : FabIn) (s : State) : Out :=
  .next (if (s.grove? gid).any fun g => s.clocked (dieOfCore g.core) then s.loaderGo gid id c 16 else s)

/-- TILE_LOAD_COMPLETE: a load whose last byte is written records its rank and delivers its bytes (R185-R187). -/
def execTileLoadComplete (gid id : Nat) (s : State) : Out :=
  .next (match s.grove? gid with
    | none => s
    | some g =>
      match g.loads.find? fun l => l.id == id with
      | none => s
      | some l =>
        if l.done < l.size then s
        else
          (s.modGrove gid fun g => { g with
            loads := g.loads.filter fun x => x.id != id
            wbRank := if l.weight then tabSet 0 g.wbRank (8 * l.psel + l.unit) l.rank else g.wbRank }).deliverBytes
              gid l.handle l.size l.unit l.pc)

/-! ### The strands' words -/

/-- TSTORE in a thread (R188): a whole 32-byte piece clears that piece's poison. -/
def Grove.tstore (g : Grove) (t : Thread) (b ta cb nw : Nat) : Grove :=
  let k := taKey (g.position t) ta (256 * (t.tid % 64) + 32 * cb)
  let g := g.taWrite k (bytesOf (t.group b (2 ^ nw)))
  if nw = 3 then g.setTaPoison k 32 false else g

/-- TSTORE (R188): it waits at issue while its tile is held. -/
def execTstore (h : Hdr) (b : Fin 64) (t : Fin 16) (c : Fin 8) (n : Fin 4) (s : State) : Out :=
  laneIssue (wordShape h false 0 ((vGroup b (2 ^ n.val)) ++ [.ta t.val]))
    (fun s g stand on => effectHeld s g stand on || on.any fun u => g.heldTa (g.position u) t.val)
    (fun gid tid s => match s.thread? gid (some tid) with
      | some u => s.modGrove gid fun g => g.tstore u b.val t.val c.val n.val
      | none => s) s

/-- The header words TDRAIN.HDR returns (R192). -/
def Grove.headerWords (g : Grove) (p ac row cb : Nat) : List Word :=
  let u := g.acUnit p ac
  let r := (if u.interior then g.acUnit p (acwBase ac) else u).row row
  let x := if u.cls = .empty then 0 else r.header u.cls true
  (List.range 8).map fun m => w32 (x / 2 ^ (32 * (8 * cb + m)) % 2 ^ 32)

/-- A data form of TDRAIN in a thread (R192): eight elements and the flags its row gains, or a trap. -/
def Grove.tdrain (g : Grove) (t : Thread) (d ac : Nat) (f : DrainFmt) (r : Rnd) (cb : Nat) : Grove :=
  let p := g.position t
  let row := t.tid % 64
  match g.readRule p ac with
  | some reason => g.modThread (some t.tid) (Thread.trap 0x17 (reasonDetail reason ac) false (t.wordPc.setWidth 64))
  | none =>
    let u := g.acUnit p ac
    let x := (u.row row).found
    if x.poison then g.modThread (some t.tid) (Thread.trap 0x0D ac false (BitVec.ofNat 64 row))
    else
      let ys := (List.range 8).map fun m => drainElem t.fpc g.mcs0.toNat u.cls f r 0 (x.elem (8 * cb + m))
      let df := ys.foldl (fun a y => a ||| dfOf y.2) x.df
      (g.modAc p ac fun u => u.setRow row { u.row row with df := df }).modThread (some t.tid)
        (Thread.put false ((regGroup d 8).zip (ys.map fun y => w32 y.1)))

/-- TDRAIN (R192): it waits at issue while its tile is held. -/
def execTdrain (h : Hdr) (d : Fin 64) (c : Fin 16) (sel : TdrainSel) (s : State) : Out :=
  laneIssue (wordShape h false 8 ((vGroup d 8) ++ [.ac c.val]))
    (fun s g stand on => standHeld s g stand on || on.any fun u => g.heldAc (g.position u) c.val)
    (fun gid tid s => match s.thread? gid (some tid) with
      | none => s
      | some t =>
        match sel with
        | .body f r cb => s.modGrove gid fun g => g.tdrain t d.val c.val f r cb.val
        | .hdr cb => s.modGrove gid fun g => g.modThread (some tid)
            (Thread.put false ((regGroup d.val 8).zip (g.headerWords (g.position t) c.val (tid % 64) cb.val)))) s

end Sys2Proof.Machine
end

