-- ==== Sys2Proof/Machine/Engines.lean ====
section
/-! DEFINITION. The copy engines (12 R255, R256, 13 R282-R289, 10 R225-R227): issue of the engine words, descriptors and the moves they ask for, the lines an engine owns and writes, completion, and the time-out of a COLL. -/

namespace Sys2Proof.Machine

/-! ### Issue -/

/-- The engine commands and BEAMGOs of a front thread that are outstanding (R282, R326). -/
def State.outstanding (s : State) (gid : Nat) : Nat :=
  (s.cmds.filter fun c => c.gid == gid).length + (s.beams.filter fun b => b.gid == gid).length

/-- An engine command waits at issue: 16 are outstanding, an acquire is open, or an earlier word is not checked (R88, R105, R256, R282). -/
def engineHeld (s : State) (g : Grove) : Bool := decide (16 ≤ s.outstanding g.id) || frontHeld s g

/-- An engine command as it leaves the front thread (R282). -/
def State.engCmd (s : State) (g : Grove) (op : EngOp) (desc handle : Nat) (p : Place) : EngCmd :=
  ⟨s.nextId, g.id, g.ctx, op, g.front.wordPc, desc, handle, p, dieOfCore g.front.core, g.cfence, false, 0, false, [], none, [], 0, []⟩

/-- An engine word in the front thread (R282): the descriptor address is checked, and TCOPYM's handle. -/
def uniEngine (op : EngOp) (h : Hdr) (d j : Fin 32) (p : Place) (s : State) : Out :=
  uniIssue (wordShape h false 0 (s2 d)) false engineHeld
    (fun gid s => match s.grove? gid with
      | none => s
      | some g =>
        let desc := (g.front.pair d.val).toNat
        let handle := (g.front.reg j.val).toNat
        match s.addrCheck g.ctx desc 64 with
        | some c => s.trapWho gid none c 0 desc
        | none =>
          if op = .tcopym ∧ handle ≠ 0xFFFFFFFF then s.modThread gid none (Thread.fail 0x02 0 s.curTval)
          else { s with nextId := s.nextId + 1, cmds := s.cmds ++ [s.engCmd g op desc handle p] }) s

/-- TCOPY (R282, R285). -/
def execTcopy (h : Hdr) (d j : Fin 32) (p : Place) (s : State) : Out := uniEngine .tcopy h d j p s
/-- TCOPYM (R282, R285). -/
def execTcopym (h : Hdr) (d j : Fin 32) (p : Place) (s : State) : Out := uniEngine .tcopym h d j p s
/-- GATHER (R282, R285). -/
def execGather (h : Hdr) (d j : Fin 32) (p : Place) (s : State) : Out := uniEngine .gather h d j p s
/-- SCATTER (R282, R285). -/
def execScatter (h : Hdr) (d j : Fin 32) (p : Place) (s : State) : Out := uniEngine .scatter h d j p s
/-- SORTK (R282, R286). -/
def execSortk (h : Hdr) (d j : Fin 32) (p : Place) (s : State) : Out := uniEngine .sortk h d j p s
/-- ROUTE (R282, R287). -/
def execRoute (h : Hdr) (d j : Fin 32) (p : Place) (s : State) : Out := uniEngine .route h d j p s
/-- COLL (R282, R288). -/
def execColl (h : Hdr) (d j : Fin 32) (p : Place) (s : State) : Out := uniEngine .coll h d j p s

/-- CFENCE (R283): later engine commands start after every earlier one has completed. -/
def execCfence (h : Hdr) (s : State) : Out :=
  uniIssue (wordShape h false 0 []) false (fun _ g => !g.front.checked)
    (fun gid s => s.modGrove gid fun g => { g with cfence := s.nextId }) s

/-! ### What a descriptor asks for -/

/-- What a descriptor comes to: a reason of ENGINE_DESC (R289), or moves, and the bytes each handle receives at completion. -/
inductive Plan where
  | bad (reason : Nat)
  | go (moves : List Move) (deliver : List (Nat × Nat))

/-- A field of a descriptor at byte o, n bytes. -/
def descField (d : List Byte) (o n : Nat) : Nat := leNat ((d.drop o).take n)

/-- The pieces of n bytes from dst, each inside one line. -/
def splitMove (dst src : Nat) : Nat → Nat → List Move
  | 0, _ => []
  | fuel + 1, n =>
    if n = 0 then []
    else
      let k := min n (128 - dst % 128)
      ⟨dst, src, k, none⟩ :: splitMove (dst + k) (src + k) fuel (n - k)

/-- Bytes an engine writes from dst, in pieces that each lie inside one line. -/
def splitBytes (dst : Nat) : Nat → List (Byte × Bool) → List Move
  | 0, _ => []
  | fuel + 1, bs =>
    if bs.isEmpty then []
    else
      let k := 128 - dst % 128
      ⟨dst, 0, (bs.take k).length, some (bs.take k)⟩ :: splitBytes (dst + k) fuel (bs.drop k)

/-- Bytes written from a global address. -/
def writeOut (dst : Nat) (bs : List (Byte × Bool)) : List Move :=
  (splitBytes dst (linesOf bs.length) bs).map fun m => { m with dst := m.dst % 2 ^ 64 }

/-- Clean bytes. -/
def cleanBytes (bs : List Byte) : List (Byte × Bool) := bs.map fun b => (b, false)

/-- A dimension of a copy (R284): count, source and destination stride. -/
structure Dim where
  count : Nat
  sstr : Int
  dstr : Int
  deriving DecidableEq, Repr

/-- A signed 64-bit field. -/
def sint64 (x : Nat) : Int := sintOf 64 x

/-- The entry of dimension k of a descriptor, and whether its reserved bytes are zero (R284). -/
def descDim (d : List Byte) (k : Nat) : Dim × Bool :=
  let o := 64 + 32 * k
  (⟨descField d o 4, sint64 (descField d (o + 8) 8), sint64 (descField d (o + 16) 8)⟩, descField d (o + 4) 4 == 0 && descField d (o + 24) 8 == 0)

/-- The source and destination offsets along dimension k (R285); index entries take the place of i_1 on one side, and 0xFFFFFFFF skips. -/
def Dim.steps (op : EngOp) (idx : List Nat) (k : Nat) (x : Dim) : List (Int × Int) :=
  if k = 1 ∧ (op = .gather ∨ op = .scatter) then
    ((List.range x.count).zip idx).filterMap fun e =>
      if e.2 = 0xFFFFFFFF then none
      else if op = .gather then some ((e.2 : Int) * x.sstr, (e.1 : Int) * x.dstr)
      else some ((e.1 : Int) * x.sstr, (e.2 : Int) * x.dstr)
  else (List.range x.count).map fun (i : Nat) => ((i : Int) * x.sstr, (i : Int) * x.dstr)

/-- The offsets of the elements of a copy from dimension k on, dimension 0 fastest (R285). -/
def elemOffsets (op : EngOp) (idx : List Nat) : Nat → List Dim → List (Int × Int)
  | _, [] => [(0, 0)]
  | k, x :: r => (elemOffsets op idx (k + 1) r).flatMap fun o => (x.steps op idx k).map fun e => (o.1 + e.1, o.2 + e.2)

/-- The elements a copy moves, counted without listing them. -/
def elemCount (op : EngOp) (idx : List Nat) : Nat → List Dim → Nat
  | _, [] => 1
  | k, x :: r => elemCount op idx (k + 1) r * (if k = 1 then (x.steps op idx k).length else x.count)

/-- The residues modulo the element size that one side's offsets take, from the residues of a base; a dimension's residues repeat after at most 16 steps. -/
def sideResidues (op : EngOp) (idx : List Nat) (size : Nat) (side : Int × Int → Int) : Nat → List Dim → List Nat → List Nat
  | _, [], acc => acc
  | k, x :: r, acc =>
    let y := if k = 1 ∧ (op = .gather ∨ op = .scatter) then x else { x with count := min x.count 16 }
    let ds := ((y.steps op idx k).map fun e => (side e % (size : Int)).toNat).dedup
    sideResidues op idx size side (k + 1) r ((acc.flatMap fun a => ds.map fun b => (a + b) % size).dedup)

/-- The address an offset gives: modulo 2^64, or in the scratchpad modulo 2^32 and laid at 2^64 (R284). -/
def moveAddr (base : Nat) (scr : Bool) (o : Int) : Nat :=
  if scr then 2 ^ 64 + modPow 32 ((base % 2 ^ 32 : Nat) + o) else modPow 64 (base + o)

/-- A destination of a copy (R284): address, handle, and whether it lies in the scratchpad. -/
structure Dest where
  addr : Nat
  handle : Nat
  scr : Bool
  deriving DecidableEq, Repr

/-- The header of a copy (R284) and its dimensions; none when a field is reserved or out of range. -/
structure CopyDesc where
  src : Nat
  dst : Nat
  size : Nat
  ssp : Bool
  dsp : Bool
  nmc : Nat
  aux : Nat
  dims : List Dim
  deriving DecidableEq, Repr

/-- Reads the header and dimensions of a copy (R284, R285, R289). -/
def copyDesc (op : EngOp) (d : List Byte) : Option CopyDesc :=
  let b := descField d 16 4
  let ndim := natBits b 3 0
  let esz := natBits b 6 4
  let nmc := natBits b 23 16
  let dims := (List.range ndim).map (descDim d)
  if ndim = 0 ∨ 15 ≤ ndim ∨ 5 ≤ esz ∨ natBits b 15 9 ≠ 0 ∨ natBits b 31 24 ≠ 0 ∨ descField d 28 36 ≠ 0 ∨
      (if op = .tcopym then nmc = 0 ∨ 17 ≤ nmc else nmc ≠ 0) ∨ ((op = .gather ∨ op = .scatter) ∧ ndim < 2) ∨
      (dims.all Prod.snd) = false then none
  else some ⟨descField d 0 8, descField d 8 8, 2 ^ esz, natBit b 7, natBit b 8, nmc, descField d 20 8, dims.map Prod.fst⟩

/-- Reads the index table of GATHER or SCATTER, or TCOPYM's destination table (R284, R285): the indices or the destinations, or none for a reserved bit. -/
def State.copyTables (s : State) (a : Agent) (op : EngOp) (handle : Nat) (c : CopyDesc) : Acc (State × Option (List Nat × List Dest)) :=
  if op = .tcopym then
    (s.unitRead a (linesOf (16 * c.nmc)) c.aux (16 * c.nmc)).andThen fun (r : State × List (Byte × Bool)) =>
      let es := (List.range c.nmc).map fun i => leNat ((plainBytes r.2).drop (16 * i) |>.take 16)
      if es.all fun e => natBits e 127 97 == 0 then
        .ok (r.1, some ([], es.map fun e => ⟨natBits e 63 0, natBits e 95 64, natBit e 96⟩))
      else .ok (r.1, none)
  else
    let one : List Dest := [⟨c.dst, handle, c.dsp⟩]
    if op = .gather ∨ op = .scatter then
      let n := ((c.dims[1]?).map Dim.count).getD 0
      (s.unitRead a (linesOf (4 * n)) c.aux (4 * n)).andThen fun (r : State × List (Byte × Bool)) =>
        .ok (r.1, some ((List.range n).map fun i => leNat (((plainBytes r.2).drop (4 * i)).take 4), one))
    else .ok (s, some ([], one))

/-- An element of a copy lies at an address that is no multiple of its size (R285, R289). -/
def CopyDesc.misaligned (c : CopyDesc) (op : EngOp) (idx : List Nat) (dests : List Dest) : Bool :=
  ((sideResidues op idx c.size Prod.fst 0 c.dims [c.src % c.size]).any fun r => r != 0) ||
    (sideResidues op idx c.size Prod.snd 0 c.dims ((dests.map fun x => x.addr % c.size).dedup)).any fun r => r != 0

/-- The moves of a copy (R284, R285): element by element, dimension 0 fastest, each to every destination, so that a later element wins. -/
def CopyDesc.moves (c : CopyDesc) (op : EngOp) (idx : List Nat) (dests : List Dest) : List Move :=
  (elemOffsets op idx 0 c.dims).flatMap fun e =>
    dests.map fun x => Move.mk (moveAddr x.addr x.scr e.2) (moveAddr c.src c.ssp e.1) c.size none

/-- The moves of a copy (R285, R289). -/
def CopyDesc.plan (c : CopyDesc) (op : EngOp) (idx : List Nat) (dests : List Dest) : Plan :=
  let n := elemCount op idx 0 c.dims * c.size
  if c.misaligned op idx dests then .bad 2
  else if 2 ^ 40 < n * dests.length then .bad 4
  else .go (c.moves op idx dests) (dests.map fun x => (x.handle, n))

/-- TCOPY, TCOPYM, GATHER and SCATTER (R284, R285). -/
def State.planCopy (s : State) (a : Agent) (op : EngOp) (handle : Nat) (d : List Byte) : Acc (State × Plan) :=
  match copyDesc op d with
  | none => .ok (s, .bad 1)
  | some c =>
    if (op = .gather ∨ op = .scatter) ∧ c.aux % 4 ≠ 0 then .ok (s, .bad 2)
    else (s.copyTables a op handle c).andThen fun (r : State × Option (List Nat × List Dest)) =>
      match r.2 with
      | none => .ok (r.1, .bad 1)
      | some (idx, dests) => .ok (r.1, c.plan op idx dests)

/-! ### SORTK -/

/-- The order of a key (R286). -/
def sortKey (kf : Nat) (desc : Bool) (b : List Byte) : Int :=
  let x := leNat (b.take (if kf = 3 then 8 else 4))
  let k : Int := match kf with
    | 1 => sintOf 32 x
    | 2 => ((x ^^^ (if natBit x 31 then 0xFFFFFFFF else 0x80000000) : Nat) : Int)
    | _ => x
  if desc then -k else k

/-- A pair with its key and value, as it is sorted. -/
structure SortPair where
  key : Int
  val : Nat
  bytes : List (Byte × Bool)

/-- The pair stands after one with a key and value, which has the lower position. -/
def SortPair.before (x y : SortPair) : Bool := decide (x.key < y.key ∨ x.key = y.key ∧ x.val < y.val)

/-- Inserts a pair that stands after those of the list in the input. -/
def insertPair (x : SortPair) : List SortPair → List SortPair
  | [] => [x]
  | y :: r => if x.before y then x :: y :: r else y :: insertPair x r

/-- Sorted by key, value and position (R286). -/
def sortPairs (l : List SortPair) : List SortPair := l.foldl (fun acc x => insertPair x acc) []

/-- The numbers are in rising order, equal ones allowed. -/
def nonDecreasing : List Nat → Bool
  | [] => true
  | [_] => true
  | a :: b :: r => decide (a ≤ b) && nonDecreasing (b :: r)

/-- The pieces of a list of bytes, n bytes each. -/
def chunksOf (n : Nat) : Nat → List (Byte × Bool) → List (List (Byte × Bool))
  | 0, _ => []
  | k + 1, l => l.take n :: chunksOf n k (l.drop n)

/-- The sorted pairs of every segment, in order (R286). -/
def sortSegments (kf : Nat) (desc : Bool) (lo : Nat) (ps : List (List (Byte × Bool))) : List Nat → List (Byte × Bool)
  | [] => []
  | [_] => []
  | a :: b :: r =>
    let mine := ((ps.drop (a - lo)).take (b - a)).map fun x =>
      SortPair.mk (sortKey kf desc (plainBytes x)) (leNat (((plainBytes x).drop (if kf = 3 then 8 else 4)).take 4)) x
    (sortPairs mine).flatMap SortPair.bytes ++ sortSegments kf desc lo ps (b :: r)

/-- SORTK (R286, R289). -/
def State.planSortk (s : State) (a : Agent) (handle : Nat) (d : List Byte) : Acc (State × Plan) :=
  let src := descField d 0 8
  let dst := descField d 8 8
  let segt := descField d 16 8
  let w := descField d 24 8
  let nseg := natBits w 20 0
  let kf := natBits w 23 21
  let desc := natBit w 24
  let size := if kf = 3 then 16 else 8
  if nseg = 0 ∨ 2 ^ 20 < nseg ∨ 4 ≤ kf ∨ natBits w 63 25 ≠ 0 ∨ descField d 32 480 ≠ 0 then .ok (s, .bad 1)
  else (s.unitRead a (linesOf (4 * (nseg + 1))) segt (4 * (nseg + 1))).andThen fun (r : State × List (Byte × Bool)) =>
    let offs := (List.range (nseg + 1)).map fun i => leNat (((plainBytes r.2).drop (4 * i)).take 4)
    let lo := offs.headD 0
    let n := offs.getLastD 0 - lo
    let from_ := src + lo * size
    let out := dst + lo * size
    if nonDecreasing offs = false ∨ 2 ^ 26 < n ∨ dst ≠ src ∧ out < from_ + n * size ∧ from_ < out + n * size then .ok (r.1, .bad 1)
    else if segt % 4 ≠ 0 ∨ src % size ≠ 0 ∨ dst % size ≠ 0 then .ok (r.1, .bad 2)
    else (r.1.unitRead a (linesOf (n * size)) (from_ % 2 ^ 64) (n * size)).andThen fun (q : State × List (Byte × Bool)) =>
      .ok (q.1, .go (writeOut (out % 2 ^ 64) (sortSegments kf desc lo (chunksOf size n q.2) offs)) [(handle, n * size)])

/-! ### ROUTE -/

/-- The choices of a list of tokens in key order (R227): token, slot and expert. -/
def routeChoices (k : Nat) (cho : List Nat) : List (Nat × Nat × Nat) :=
  ((List.range cho.length).zip cho).filterMap fun e => if e.2 = 0xFFFF then none else some (e.1 / k, e.1 % k, e.2)

/-- The kept choices with their positions, and the dropped, each in key order (R227): counts holds how many each expert has kept. -/
def routeKeep (cap : List Nat) : List (Nat × Nat × Nat) → List (Nat × Nat) → List (Nat × Nat × Nat) → List (Nat × Nat × Nat) →
    List (Nat × Nat × Nat) × List (Nat × Nat × Nat) × List (Nat × Nat)
  | [], counts, kept, dropped => (kept.reverse, dropped.reverse, counts)
  | (i, c, e) :: r, counts, kept, dropped =>
    let n := tabGet 0 counts e
    if n < cap.getD e 0 then routeKeep cap r (tabSet 0 counts e (n + 1)) ((i, n, e) :: kept) dropped
    else routeKeep cap r counts kept ((i, c, e) :: dropped)

/-- ROUTE (R227, R287, R289); desc is the descriptor's own address, where DROPN is written. -/
def State.planRoute (s : State) (a : Agent) (handle desc : Nat) (d : List Byte) : Acc (State × Plan) :=
  let w := descField d 32 8
  let n := natBits w 23 0 + 1
  let k := natBits w 27 24 + 1
  let e := natBits w 39 28 + 1
  let rb := descField d 38 4
  let dcap := descField d 58 4
  let src := descField d 0 8
  let tbase := descField d 64 4
  if 8 < k ∨ natBits w 47 40 ≠ 0 ∨ rb % 16 ≠ 0 ∨ rb = 0 ∨ 65536 < rb ∨ descField d 62 2 ≠ 0 ∨ descField d 72 440 ≠ 0 then .ok (s, .bad 1)
  else (s.unitRead a (linesOf (2 * n * k)) (descField d 8 8) (2 * n * k)).andThen fun (rc : State × List (Byte × Bool)) =>
    (rc.1.unitRead a (linesOf (4 * e)) (descField d 16 8) (4 * e)).andThen fun (rp : State × List (Byte × Bool)) =>
      (rp.1.unitRead a (linesOf (8 * e)) (descField d 24 8) (8 * e)).andThen fun (ro : State × List (Byte × Bool)) =>
        let cho := (List.range (n * k)).map fun i => leNat (((plainBytes rc.2).drop (2 * i)).take 2)
        let cap := (List.range e).map fun i => leNat (((plainBytes rp.2).drop (4 * i)).take 4)
        let obt := (List.range e).map fun i => leNat (((plainBytes ro.2).drop (8 * i)).take 8)
        let choices := routeChoices k cho
        if choices.any fun x => e ≤ x.2.2 then .ok (ro.1, .bad 1)
        else
          let r := routeKeep cap choices [] [] []
          let rows := r.1.map fun x => ((obt.getD x.2.2 0 + x.2.1 * rb) % 2 ^ 64, (src + x.1 * rb) % 2 ^ 64)
          let drops := (r.2.1.take dcap).flatMap fun x => leBytes 8 ((tbase + x.1) % 2 ^ 32 + 2 ^ 32 * x.2.1 + 2 ^ 36 * x.2.2)
          let counts := (List.range e).flatMap fun i => leBytes 4 (tabGet 0 r.2.2 i)
          if rows.any fun x => x.1 % 16 != 0 || x.2 % 16 != 0 then .ok (ro.1, .bad 2)
          else if 2 ^ 40 < rows.length * rb + drops.length + counts.length + 4 then .ok (ro.1, .bad 4)
          else .ok (ro.1, .go
            (rows.flatMap (fun x => splitMove x.1 x.2 (linesOf rb) rb) ++ writeOut (descField d 42 8) (cleanBytes counts) ++
              writeOut (descField d 50 8) (cleanBytes drops) ++ writeOut ((desc + 68) % 2 ^ 64) (cleanBytes (leBytes 4 r.2.1.length)))
            [(handle, rows.length * rb)])

/-! ### COLL -/

/-- The float format of FMT, FP32 where it is I32 (R288). -/
def collFmt (fmt : Nat) : Fmt :=
  match fmt with
  | 1 => .bf16
  | 2 => .fp16
  | _ => .fp32

/-- Bytes of an element of FMT (R288). -/
def collSize (fmt : Nat) : Nat := if fmt = 1 ∨ fmt = 2 then 2 else 4

/-- The largest power of two below n, from p on (R225). -/
def splitPow : Nat → Nat → Nat → Nat
  | 0, p, _ => p
  | fuel + 1, p, n => if 2 * p < n then splitPow fuel (2 * p) n else p

/-- The canonical tree over FP32 leaves (R225). -/
def sumTree : Nat → List Nat → Nat
  | 0, l => l.headD 0
  | fuel + 1, l =>
    if l.length ≤ 1 then l.headD 0
    else
      let m := splitPow 32 1 l.length
      (faddOp (FEnv.ofFpc 0) .fp32 (sumTree fuel (l.take m)) (sumTree fuel (l.drop m))).1

/-- A leaf widened exactly to FP32 (R225). -/
def widenLeaf (fmt c : Nat) : Nat := if fmt = 0 then c else (cvtWiden (FEnv.ofFpc 0) (collFmt fmt) c).1

/-- FSUM in the canonical tree, rounded once more where the format is narrower (R225). -/
def collFsum (fmt : Nat) (l : List Nat) : Nat :=
  let x := sumTree l.length (l.map (widenLeaf fmt))
  if fmt = 0 then x else (cvtFF (FEnv.ofFpc 0) .fp32 (collFmt fmt) x).1

/-- A leaf's flag in an ACW element (R226, R128). -/
def leafFlag : FVal → Nat
  | .nan .. => 3
  | .inf neg => if neg then 2 else 1
  | .fin .. => 0

/-- FSUM exact (R226): the leaves summed in an ACW element and rounded once. -/
def collExact (fmt : Nat) (l : List Nat) : Nat :=
  let vs := l.map (collFmt fmt).unpack
  let x := (addStep .acw (0, 0) (vs.map leafFlag) (vs.flatMap FVal.term)).1
  (drainFloat (FEnv.ofFpc 0) (collFmt fmt) .rne 0 ⟨x.1, (accUnit .acw).1, x.2⟩).1

/-- The elements of all members combined (R288). -/
def collCombine (fn fmt : Nat) (l : List Nat) : Nat :=
  let ws := l.map w32
  match fn with
  | 0 => collFsum fmt l
  | 1 => collExact fmt l
  | 2 => (ws.foldl (fun a x => a + x) 0).toNat
  | 3 => (ws.tail.foldl (fun a x => atNew .min a x 0) (ws.headD 0)).toNat
  | 4 => (ws.tail.foldl (fun a x => atNew .max a x 0) (ws.headD 0)).toNat
  | _ => (ws.tail.foldl (fun a x => atNew .nmax a x 0) (ws.headD 0)).toNat

/-- A COLL descriptor (R288). -/
structure CollDesc where
  src : Nat
  dst : Nat
  nelem : Nat
  fn : Nat
  fmt : Nat
  kind : Nat
  nmem : Nat
  memt : Nat
  root : Nat
  deriving DecidableEq, Repr

/-- Reads a COLL descriptor; none for a reserved value or a number outside its range (R288, R289). -/
def collDesc (d : List Byte) : Option CollDesc :=
  let w := descField d 20 4
  let c : CollDesc := ⟨descField d 0 8, descField d 8 8, descField d 16 4, natBits w 2 0, natBits w 5 3, natBits w 7 6, natBits w 18 8,
    descField d 24 8, natBits (descField d 36 4) 10 0⟩
  if 6 ≤ c.fn ∨ 4 ≤ c.fmt ∨ (c.fn < 2 ∧ c.fmt = 3) ∨ (2 ≤ c.fn ∧ c.fmt ≠ 3) ∨ c.nmem < 2 ∨ 1152 < c.nmem ∨ natBits w 31 19 ≠ 0 ∨
      natBits (descField d 36 4) 31 11 ≠ 0 ∨ descField d 40 24 ≠ 0 ∨ (c.kind = 1 ∧ c.nelem % c.nmem ≠ 0) ∨ (c.kind = 3 ∧ c.nmem ≤ c.root) then none
  else some c

/-- The member table (R288): this device's sorted position, or none when the table is wrong. -/
def collSelf (es : List Nat) : Option Nat :=
  let ranks := es.map fun e => natBits e 15 0
  match es.filter fun e => natBit e 26 with
  | [e] =>
    if natBits e 25 16 ≠ 0 ∨ (es.any fun x => natBits x 31 27 != 0) ∨ ranks.dedup.length ≠ ranks.length then none
    else some (ranks.filter fun r => r < natBits e 15 0).length
  | _ => none

/-- Element k of a member's input. -/
def collElem (size : Nat) (l : List Byte) (k : Nat) : Nat := leNat ((l.drop (size * k)).take size)

/-- The bytes the member at position q writes (R288); ins are the inputs in sorted order, mine this device's with its poison. -/
def CollDesc.output (c : CollDesc) (q : Nat) (ins : List (List Byte)) (mine : List (Byte × Bool)) : List (Byte × Bool) :=
  let size := collSize c.fmt
  let all := (List.range c.nmem).map fun p => if p = q then plainBytes mine else ins.getD p []
  let bad := fun k => anyPoisoned ((mine.drop (size * k)).take size)
  let one := fun k => (leBytes size (collCombine c.fn c.fmt (all.map fun l => collElem size l k))).map fun b => (b, bad k)
  let copy := fun p => if p = q then mine.take (size * c.nelem)
    else cleanBytes ((List.range (size * c.nelem)).map fun i => (ins.getD p []).getD i 0)
  match c.kind with
  | 0 => (List.range c.nelem).flatMap one
  | 1 => (List.range (c.nelem / c.nmem)).flatMap fun k => one (q * (c.nelem / c.nmem) + k)
  | 2 => (List.range c.nmem).flatMap copy
  | _ => copy c.root

/-- COLL (R288, R289): it goes on once the inputs of its members have come. -/
def State.planColl (s : State) (a : Agent) (handle : Nat) (d : List Byte) : Acc (State × Plan) :=
  match collDesc d with
  | none => .ok (s, .bad 1)
  | some c =>
    (s.unitRead a (linesOf (4 * c.nmem)) c.memt (4 * c.nmem)).andThen fun (r : State × List (Byte × Bool)) =>
      let size := collSize c.fmt
      match collSelf ((List.range c.nmem).map fun i => leNat (((plainBytes r.2).drop (4 * i)).take 4)) with
      | none => .ok (r.1, .bad 1)
      | some q =>
        if c.src % size ≠ 0 ∨ c.dst % size ≠ 0 then .ok (r.1, .bad 2)
        else match a.fab with
          | .disagree => .ok (r.1, .bad 3)
          | .inputs ins =>
            (r.1.unitRead a (linesOf (size * c.nelem)) c.src (size * c.nelem)).andThen fun (m : State × List (Byte × Bool)) =>
              let out := c.output q ins m.2
              if 2 ^ 40 < out.length then .ok (m.1, .bad 4) else .ok (m.1, .go (writeOut c.dst out) [(handle, out.length)])
          | _ => .wait r.1

/-! ### An engine at work -/

/-- A command by id. -/
def State.cmd? (s : State) (id : Nat) : Option EngCmd := s.cmds.find? fun c => c.id == id

/-- Updates a command. -/
def State.modCmd (s : State) (id : Nat) (f : EngCmd → EngCmd) : State := { s with cmds := s.cmds.map fun c => if c.id == id then f c else c }

/-- The line a command owns is given back. -/
def State.disown (s : State) (c : EngCmd) : State :=
  match c.owned with
  | some (lk, _) => s.setLine lk { s.line lk with owner := none }
  | none => s

/-- Every line a command owns is given back. -/
def State.disownAll (s : State) (c : EngCmd) : State :=
  { s with lines := s.lines.filterMap fun (e : Nat × Line) =>
      keepLine e.1 (if e.2.owner == some c.id then { e.2 with owner := none } else e.2) }

/-- A command ends without a delivery, with a pending trap (R178, R289). -/
def State.failCmd (s : State) (c : EngCmd) (cause detail tval : Nat) : State :=
  ({ s.disownAll c with cmds := s.cmds.filter fun x => x.id != c.id } : State).modGrove c.gid (Grove.addPending ⟨cause, detail, tval, c.pc⟩)

/-- The die of a command's engine (R282): that of the destination's home for PLACE 01, 9 for the hub. -/
def State.engineDie (s : State) (c : EngCmd) (dst : Nat) : Nat :=
  if c.op = .coll then 9
  else match c.place with
    | .hub => 9
    | .dest =>
      if c.op = .tcopym ∨ c.op = .route then c.die
      else match s.homeOf c.ctx dst with
        | .phys h => if h < 2 then h else c.die
        | _ => c.die
    | _ => c.die

/-- What a descriptor asks for (R284-R288). -/
def State.planOf (s : State) (a : Agent) (c : EngCmd) (d : List Byte) : Acc (State × Plan) :=
  match c.op with
  | .sortk => s.planSortk a c.handle d
  | .route => s.planRoute a c.handle c.desc d
  | .coll => s.planColl a c.handle d
  | op => s.planCopy a op c.handle d

/-- The bytes of a scratchpad access of an engine, with their poison (R57, R250). -/
def Grove.engineScratch (g : Grove) (ea n : Nat) : Acc (List (Byte × Bool)) :=
  match g.scratchCheck ea 1, g.scratchCheck (ea + n - 1) 1 with
  | some k, _ => .fault k ea
  | none, some k => .fault k (ea + n - 1)
  | none, none =>
    let k := scratchKey 0 ea
    .ok ((List.range n).map fun i => (tabGet 0 g.scratch (k + i), tabGet false g.scratchPoison ((k + i) / 4)))

/-- The bytes of a move (R285). -/
def State.moveBytes (s : State) (a : Agent) (m : Move) : Acc (State × List (Byte × Bool)) :=
  match m.bytes with
  | some bs => .ok (s, bs)
  | none =>
    if 2 ^ 64 ≤ m.src then
      match s.grove? a.gid with
      | some g => (g.engineScratch (m.src - 2 ^ 64) m.len).andThen fun bs => .ok (s, bs)
      | none => .ok (s, [])
    else s.unitRead a (linesOf m.len) m.src m.len

/-- The bytes of the moves of one line, by offset; a later move wins (R285). -/
def State.gatherMoves (s : State) (a : Agent) : List Move → List (Nat × Byte × Bool) → Acc (State × List (Nat × Byte × Bool))
  | [], acc => .ok (s, acc)
  | m :: r, acc =>
    (s.moveBytes a m).andThen fun (q : State × List (Byte × Bool)) =>
      q.1.gatherMoves a r (((List.range q.2.length).zip q.2).foldl (fun t e => tabInsert (m.dst % 128 + e.1) e.2 t) acc)

/-- The lines whose moves read elements in common, from some lines on (R285). -/
def groupLines : Nat → List Move → List Nat → List Nat
  | 0, _, ls => ls
  | fuel + 1, ms, ls =>
    let srcs := ((ms.filter fun m => ls.contains (m.dst / 128)).map Move.src).dedup
    let ls' := ((ms.filter fun m => srcs.contains m.src).map fun m => m.dst / 128).dedup
    if ls'.length ≤ ls.length then ls else groupLines fuel ms ls'

/-- The lines at homes among some destination lines, if none must be waited for (R255). -/
def State.groupKeys (s : State) (a : Agent) : List Nat → Acc (State × List Nat)
  | [] => .ok (s, [])
  | l :: r =>
    if 2 ^ 57 ≤ l || s.reruns a then s.groupKeys a r
    else match s.homeOf a.ctx (128 * l) with
      | .phys h =>
        (match s.unitLine a .store (128 * l) h with
          | .wait s => .wait s
          | .fault _ _ => s.groupKeys a r
          | .ok q => (q.1.groupKeys a r).andThen fun (t : State × List Nat) => .ok (t.1, lineKey h (128 * l % 2 ^ 54) :: t.2))
      | _ => s.groupKeys a r

/-- The bytes of the elements of some moves, each source read once (R285). -/
def State.readSources (s : State) (a : Agent) : List Move → List (Nat × List (Byte × Bool)) → Acc (State × List (Nat × List (Byte × Bool)))
  | [], acc => .ok (s, acc)
  | m :: r, acc =>
    if (acc.lookup m.src).isSome then s.readSources a r acc
    else (s.moveBytes a m).andThen fun (q : State × List (Byte × Bool)) => q.1.readSources a r ((m.src, q.2) :: acc)

/-- A TCOPYM takes at once the destination lines that share elements with the next, owns them and reads those elements, each once for all its destinations (R255, R285, log 51). -/
def State.readGroup (s : State) (c : EngCmd) (a : Agent) (first : Nat) : Acc State :=
  let unread := c.moves.filter fun m => m.bytes.isNone
  let ls := groupLines unread.length unread [first]
  let mine := fun (m : Move) => m.bytes.isNone && ls.contains (m.dst / 128)
  (s.groupKeys a ls).andThen fun (k : State × List Nat) =>
    (k.1.readSources a (c.moves.filter mine) []).andThen fun (q : State × List (Nat × List (Byte × Bool))) =>
      let s := k.2.foldl (fun s lk => s.setLine lk { s.line lk with owner := some c.id }) q.1
      .ok (s.modCmd c.id fun c => { c with moves := c.moves.map fun m => if mine m then { m with bytes := q.2.lookup m.src } else m })

/-- The granules of a line an engine writes: those with a poisoned byte become poisoned, and a whole line is clean elsewhere (R362). -/
def State.enginePoison (s : State) (pk : Nat) (bs : List (Nat × Byte × Bool)) : State :=
  { s with poison := (List.range 4).foldl (fun p i =>
      if bs.any fun e => e.1 / 32 == i && e.2.2 then tabSet false p (pk / 32 + i) true
      else if bs.length = 128 then tabSet false p (pk / 32 + i) false else p) s.poison }

/-- The words of a line that bytes by offset touch. -/
def touchedWords (bs : List (Nat × Byte × Bool)) : List Nat := (List.range 32).filter fun i => bs.any fun e => e.1 / 4 == i

/-- An engine writes bytes of one line as one store (R255, R370): the line's address, and the bytes by offset. -/
def State.engineStore (s : State) (a : Agent) (va : Nat) (bs : List (Nat × Byte × Bool)) : Acc (State × Nat) :=
  let plain := bs.map fun e => (e.1, e.2.1)
  match s.homeOf a.ctx va with
  | .phys h =>
    (s.unitLine a .store va h).andThen fun (r : State × Nat) =>
      let s := r.1
      let lk := lineKey h (va % 2 ^ 54)
      let digest := fun (s : State) => (touchedWords bs).foldl (fun s i =>
        s.modGrove a.gid fun g => g.addDigest (leBytes 8 (va + 4 * i) ++ g.overlay (va + 4 * i) (s.bytesLatest (r.2 + 4 * i) 4))) s
      if s.reruns a then
        .ok (digest (s.modGrove a.gid fun g => plain.foldl (fun g e => g.shadowWrite (va + e.1) [e.2]) g), 0)
      else
        let vt := s.vtOf lk
        let s := s.accept lk r.2 a.core (plain.map fun e => (r.2 + e.1, e.2))
        let s := if h = 3 then { s with mesi := tabSet 0 s.mesi (r.2 / 128) 3 } else s
        let s := s.wakeWaiters (fun x => x.atOwner && x.dest == .phys h && lineKey h (x.va % 2 ^ 54) == lk) vt
        .ok (digest (s.enginePoison r.2 bs), vt + skew a.die h)
  | .peer x =>
    -- the bytes the store leaves in its words, where a peer's other bytes are not known (log 46)
    let digest := fun (s : State) => (touchedWords bs).foldl (fun s i =>
      s.modGrove a.gid fun g => g.addDigest (leBytes 8 (va + 4 * i) ++ (List.range 4).map fun k => (plain.lookup (4 * i + k)).getD 0)) s
    if s.reruns a then .ok (digest (s.modGrove a.gid fun g => plain.foldl (fun g e => g.shadowWrite (va + e.1) [e.2]) g), 0)
    else match a.fab with
    | .peer 1 _ => .fault 0x06 va
    | .peer 2 _ => .fault 0x07 va
    | .peer _ _ =>
      .ok (digest (plain.foldl (fun (s : State) e =>
        ({ s with nextId := s.nextId + 1, peerStores := PeerStore.mk s.nextId a.ackCore a.gid :: s.peerStores } : State).emitPeer
          s.nextId x .store (va + e.1) 1 [e.2]) s), 0)
    | _ => .wait s
  | .bad => .fault 0x05 va

/-- An engine writes bytes of one line of the scratchpad; words that take a poisoned byte become poisoned (R250, R362). -/
def Grove.enginePut (g : Grove) (ea : Nat) (bs : List (Nat × Byte × Bool)) : Grove :=
  bs.foldl (fun g e =>
    let k := scratchKey 0 (ea + e.1)
    let g := g.scratchWrite k [e.2.1]
    if e.2.2 then { g with scratchPoison := tabSet false g.scratchPoison (k / 4) true } else g) g

/-- The moves of one line, in order, and the others. -/
def lineMoves (line : Nat) (ms : List Move) : List Move × List Move :=
  (ms.filter fun m => m.dst / 128 == line, ms.filter fun m => m.dst / 128 != line)

/-- The next line in destination order (R255). -/
def nextLine (ms : List Move) : Nat := ms.foldl (fun x m => min x (m.dst / 128)) ((ms.headD ⟨0, 0, 0, none⟩).dst / 128)

/-- The first byte written among moves of a line. -/
def firstByte (ms : List Move) : Nat := ms.foldl (fun x m => min x m.dst) ((ms.headD ⟨0, 0, 0, none⟩).dst)

/-- A command's agent. -/
def EngCmd.agent (c : EngCmd) (fab : FabIn) : Agent := ⟨c.ctx, c.gid, none, c.die, c.id, fab⟩

/-- What a store of a command comes to: its time counts, or the command ends. -/
def State.storeDone (s : State) (c : EngCmd) (x : Acc (State × Nat)) (rest : List Move) : State :=
  match x with
  | .wait s => s
  | .fault k a => s.failCmd c k 0 a
  | .ok (s, t) => (s.disown c).modCmd c.id fun c => { c with moves := rest, owned := none, buf := [], vt := max c.vt t }

/-- A command whose descriptor has been read takes the next line: it owns the line and reads what goes there, or writes it at once where there is no line to own (R255). -/
def State.takeLine (s : State) (g : Grove) (c : EngCmd) (a : Agent) : State :=
  let x := lineMoves (nextLine c.moves) c.moves
  let first := firstByte x.1
  let base := first / 128 * 128
  if 2 ^ 64 ≤ first then
    match (g.engineScratch (first - 2 ^ 64) 1).andThen fun _ => s.gatherMoves a x.1 [] with
    | .wait s => s
    | .fault k v => s.failCmd c k 0 v
    | .ok (s, bs) =>
      match (bs.getLast?).map fun e => g.scratchCheck (base - 2 ^ 64 + e.1) 1 with
      | some (some k) => s.failCmd c k 0 (base - 2 ^ 64 + ((bs.getLast?).map Prod.fst).getD 0)
      | _ => (s.modGrove c.gid fun g => g.enginePut (base - 2 ^ 64) bs).modCmd c.id fun c => { c with moves := x.2 }
  else
    let hold : Acc (State × Option Nat) := match s.homeOf c.ctx first with
      | .phys h => (s.unitLine a .store first h).andThen fun (r : State × Nat) =>
          .ok (r.1, if g.verify = 2 then none else some (lineKey h (first % 2 ^ 54)))
      | .peer _ => .ok (s, none)
      | .bad => .fault 0x05 first
    match hold.andThen fun (r : State × Option Nat) =>
        (r.1.gatherMoves a x.1 []).andThen fun (q : State × List (Nat × Byte × Bool)) => .ok (q.1, r.2, q.2) with
    | .wait s => s
    | .fault k v => s.failCmd c k 0 v
    | .ok (s, some lk, bs) =>
      (s.setLine lk { s.line lk with owner := some c.id }).modCmd c.id fun c => { c with moves := x.2, owned := some (lk, base), buf := bs }
    | .ok (s, none, bs) => s.storeDone c (s.engineStore a base bs) x.2

/-- A command starts: after every earlier command of its front thread has started, and after those a CFENCE names have completed (R283). -/
def State.mayStartCmd (s : State) (c : EngCmd) : Bool :=
  s.cmds.all (fun x => x.gid != c.gid || c.id ≤ x.id || x.started && decide (c.after ≤ x.id)) &&
    s.beams.all fun b => b.gid != c.gid || decide (c.after ≤ b.id)

/-- A command reads its descriptor and plans its moves (R284-R289). -/
def State.readDesc (s : State) (c : EngCmd) (fab : FabIn) : State :=
  match (s.unitRead (c.agent fab) 5 c.desc 512).andThen fun (r : State × List (Byte × Bool)) =>
      let d := plainBytes r.2
      let die := r.1.engineDie c (descField d 8 8)
      let a := { c.agent fab with die := die }
      (r.1.planOf a c d).andThen fun (q : State × Plan) =>
        match q.2 with
        | .bad n => Acc.ok (q.1, Plan.bad n, die)
        | .go ms dl => Acc.ok (q.1, Plan.go ms dl, die) with
  | .wait s => s
  | .fault k a => s.failCmd c k 0 a
  | .ok (s, Plan.bad n, _) => s.failCmd c 0x19 (256 * n) c.desc
  | .ok (s, Plan.go ms dl, die) => s.modCmd c.id fun c => { c with planned := true, die := die, moves := ms, deliver := dl }

/-- The elements of the next line of a TCOPYM have still to be read. -/
def EngCmd.unread (c : EngCmd) : Bool :=
  c.op == .tcopym && c.moves.any fun m => m.bytes.isNone && m.dst / 128 == nextLine c.moves

/-- The die of a command's engine is clocked; the hub always is (R383). -/
def State.engineRuns (s : State) (c : EngCmd) : Bool := c.die == 9 || s.clocked c.die

/-- An engine goes on with a command that has been planned: it writes the line it owns, or takes the next (R255, R285). -/
def State.engineStep (s : State) (g : Grove) (c : EngCmd) (fab : FabIn) : State :=
  match c.owned with
  | some (_, base) => s.storeDone c (s.engineStore (c.agent fab) base c.buf) c.moves
  | none =>
    if c.moves.isEmpty then s
    else if c.unread then
      match s.readGroup c (c.agent fab) (nextLine c.moves) with
      | .wait s => s
      | .fault k v => s.failCmd c k 0 v
      | .ok s => s
    else s.takeLine g c (c.agent fab)

/-- ENGINE_LINE_WRITE: an engine starts a command, takes a line, or writes the line it owns (R255, R283, R285). -/
def execEngineLineWrite (cmd : Nat) (fab : FabIn) (s : State) : Out :=
  .next (match s.cmd? cmd with
    | none => s
    | some c =>
      match s.grove? c.gid with
      | none => s
      | some g =>
        if !s.engineRuns c then s
        else if !c.started then
          (if s.mayStartCmd c then (s.modCmd cmd fun c => { c with started := true, since := s.gt }).readDesc { c with started := true, since := s.gt } fab else s)
        else if !c.planned then s.readDesc c fab
        else s.engineStep g c fab)

/-- The deliveries of a command (R276, R285): of what they cannot do, the first is the command's one pending trap (R178). -/
def State.deliverAll (s : State) (gid : Nat) (pc : Word) (kept : Bool) : List (Nat × Nat) → State
  | [] => s
  | x :: r =>
    let before := ((s.grove? gid).map Grove.pending).getD []
    let s := s.deliverBytes gid x.1 x.2 0 pc
    let failed := ((s.grove? gid).map fun g => decide (before.length < g.pending.length)).getD false
    let s := if kept && failed then s.modGrove gid fun g => { g with pending := before } else s
    s.deliverAll gid pc (kept || failed) r

/-- ENGINE_COMMAND_COMPLETE: every byte of a command has its VT and GT has reached the largest VT + Skew, its peers have answered, and its deliveries are made (R256, R276, R283). -/
def execEngineCommandComplete (cmd : Nat) (s : State) : Out :=
  .next (match s.cmd? cmd with
    | none => s
    | some c =>
      if s.engineRuns c && c.started && c.planned && c.moves.isEmpty && c.owned.isNone && decide (c.vt ≤ s.gt) &&
          !(s.peerStores.any fun x => x.core == 256 + c.id) then
        ({ s with cmds := s.cmds.filter fun x => x.id != cmd } : State).deliverAll c.gid c.pc false c.deliver
      else s)

/-- COLL_TIMEOUT: a member has not issued within the context's barrier time-out (R288). -/
def execCollTimeout (cmd : Nat) (s : State) : Out :=
  .next (match s.cmd? cmd with
    | none => s
    | some c =>
      if c.op == .coll && c.started && !c.planned && !(s.ctx c.ctx).halted && decide (c.since + s.bto c.ctx ≤ s.gt) then
        s.failCmd c 0x0A 7 c.desc
      else s)

end Sys2Proof.Machine
end

