-- ==== Sys2Proof/Machine/Bte.lean ====
section
/-! DEFINITION. The beam traversal unit (02 R44, 09 R199-R206, R210, 15 R321, R322, R326): TRACE and its rays, BEAMGO and its batch records, and atlas requests. -/

namespace Sys2Proof.Machine

/-! ### TRACE -/

/-- TRACE in a thread (R321): the record's read leaves as a request of the word. -/
def State.trace (s : State) (gid tid r c p : Nat) (any : Bool) : State :=
  let w : Who := some tid
  match s.grove? gid, s.thread? gid w with
  | some g, some t =>
    let va := (t.pair c).toNat
    if g.desc.seedl = 0 then s.modThread gid w (Thread.fail 0x02 0 s.curTval)
    else if t.txn.isOpen then s.modThread gid w (Thread.abortTxn 3)
    else match s.addrCheck g.ctx va 32 with
      | some k => s.trapWho gid w k 0 va
      | none => s.send gid w (t.request s.nextId gid (.trace any) va 32 .device .relaxed .bypassL1 (t.group r 8 ++ [t.reg p]) [] false)
  | _, _ => s

/-- TRACE (R321): the thread's earlier stores are released at grove scope, and its earlier acquires have been performed. -/
def execTrace (h : Hdr) (r c p : Fin 64) (y : Bool) (s : State) : Out :=
  laneIssue (wordShape h false 0 (vGroup r 8 ++ v2 c ++ v1 p))
    (fun s g stand on => anyUnreleased .grove s g stand on || on.any fun t => s.acquiring g.id (some t.tid))
    (fun gid tid s => s.trace gid tid r.val c.val p.val y) s

/-! ### Traversal of a ray -/

/-- An entry of a ray's stack: a node, a triangle or an instance record, what lies above it, and the box under a transform that the ray met to come there. -/
structure RayItem where
  kind : BvhKind
  addr : Nat
  level : BvhLevel
  box : Option (Xf × Vec × Vec)
  deriving DecidableEq, Repr

/-- A ray under way: its on-chip stack, the entries in its spill area, those it will find again by its trail (R203), the top first in each; the bytes written to the spill area by entry; the nodes visited with the instances above them, its hits, and the conditions met: 1 INSTANCE_LIMIT, 2 MALFORMED, 4 ACCESS (R201, R322). -/
structure RayWalk where
  stack : List RayItem
  spilled : List RayItem
  trail : List RayItem
  area : List (Nat × List Byte)
  seen : List (Nat × List Nat)
  hits : List Hit
  bits : Nat
  deriving DecidableEq, Repr

/-- Bytes a kind of entry reads (R199, R200): a leaf's entry is one triangle. -/
def BvhKind.bytes : BvhKind → Nat
  | .leaf => 48
  | _ => 128

/-- The alignment a kind of entry must have (R199, R200). -/
def BvhKind.aligned : BvhKind → Nat → Bool
  | .node, a => a % 128 == 0
  | _, a => a % 16 == 0

/-- The entries a child of a ray's node gives. -/
def BvhChild.items (c : BvhChild) (l : BvhLevel) : List RayItem :=
  match c.kind with
  | .leaf => (List.range c.count).map fun i => ⟨.leaf, (c.addr + 48 * i) % 2 ^ 64, l, some (l.xf, c.lo, c.hi)⟩
  | k => [⟨k, c.addr, l, some (l.xf, c.lo, c.hi)⟩]

/-- A condition met. -/
def RayWalk.met (bit : Nat) (w : RayWalk) : RayWalk := { w with bits := w.bits ||| bit }

/-- TNEAR of an entry, FP32 by RDN (R203). -/
def RayItem.near (r : RayLine) (it : RayItem) : Nat :=
  let t := (it.box.map fun b => r.near b.1 b.2.1 b.2.2).getD (r.tmin.getD 0)
  (roundQ (FEnv.ofFpc 0) .fp32 .rdn 0 (t < 0) t.num.natAbs t.den).1

/-- The 16 bytes of an entry in the spill area (R203). -/
def RayItem.spillBytes (r : RayLine) (it : RayItem) : List Byte :=
  leBytes 8 it.addr ++ leBytes 4 (it.near r) ++ leBytes 4 (it.level.recs.length % 8)

/-- A push of one entry (R203): a full stack moves its lower 16 entries to the spill area of 64, and what finds no room there is left to the trail. -/
def RayWalk.push1 (r : RayLine) (it : RayItem) (w : RayWalk) : RayWalk :=
  if w.stack.length < 32 then { w with stack := it :: w.stack }
  else
    let down := w.stack.drop 16
    let w := { w with stack := it :: w.stack.take 16 }
    if 64 < w.spilled.length + 16 then { w with spilled := [], trail := down ++ w.spilled ++ w.trail }
    else
      let n := w.spilled.length
      { w with
        spilled := down ++ w.spilled
        area := ((List.range 16).zip down.reverse).foldl (fun t e => tabInsert (n + e.1) (e.2.spillBytes r) t) w.area }

/-- Entries are pushed, the first of the list on top. -/
def RayWalk.push (r : RayLine) (l : List RayItem) (w : RayWalk) : RayWalk := l.reverse.foldl (fun w it => w.push1 r it) w

/-- The next entry: the top of the stack, of the spill area, or the next the trail finds (R203). -/
def RayWalk.pop (w : RayWalk) : Option (RayItem × RayWalk) :=
  match w.stack, w.spilled, w.trail with
  | x :: l, _, _ => some (x, { w with stack := l })
  | [], x :: l, _ => some (x, { w with spilled := l })
  | [], [], x :: l => some (x, { w with trail := l })
  | [], [], [] => none

/-- A ray does what an entry's bytes ask for (R199-R202). -/
def RayWalk.visit (r : RayLine) (it : RayItem) (bs : List Byte) (w : RayWalk) : RayWalk :=
  match it.kind with
  | .node =>
    match bvhNode bs it.level.mask with
    | none => w.met 2
    | some cs => w.push r ((cs.filter fun c => r.meets it.level.xf c.lo c.hi).flatMap fun c => c.items it.level)
  | .inst =>
    match bvhInstance bs it.addr it.level with
    | none => w.met 2
    | some (root, l) => w.push r [⟨.node, root, l, it.box⟩]
  | .leaf =>
    match bvhTri bs with
    | none => w.met 2
    | some t =>
      match r.hit (t.world it.level.xf) t it.level with
      | none => w
      | some h => { w with hits := addHit h w.hits }

/-- Entries of a stack, one by one: what the state becomes with the keeping of walks, and the ray's end. A node is visited once below the same records (R203). -/
def State.walkRay (s : State) (a : Agent) (r : RayLine) : Nat → RayWalk → Acc (State × RayWalk)
  | 0, _ => .wait s
  | fuel + 1, w =>
    match w.pop with
    | none => .ok (s, w)
    | some (it, w) =>
      if it.kind = .node ∧ w.seen.contains (it.addr, it.level.recs) then s.walkRay a r fuel w
      else if it.kind = .inst ∧ 4 ≤ it.level.recs.length then s.walkRay a r fuel (w.met 1)
      else
        let w := if it.kind = .node then { w with seen := (it.addr, it.level.recs) :: w.seen } else w
        if it.kind.aligned it.addr = false then s.walkRay a r fuel (w.met 4)
        else match s.unitRead a 3 it.addr it.kind.bytes with
          | .wait s => .wait s
          | .fault _ _ => s.walkRay a r fuel (w.met 4)
          | .ok (s, bs) =>
            if anyPoisoned bs then s.walkRay a r fuel (w.met 4) else s.walkRay a r fuel (w.visit r it (plainBytes bs))

/-- Entries a traversal may visit. -/
def bvhFuel : Nat := 2 ^ 64

/-- The level of the root (R199). -/
def rootLevel (mask : Nat) : BvhLevel := ⟨Xf.id, mask, [], [], none⟩

/-- The status of conditions met: the largest (R201, R322). -/
def rayStatus (bits : Nat) : Nat := if natBit bits 2 then 3 else if natBit bits 1 then 2 else if natBit bits 0 then 1 else 0

/-- The BTE of a ray's cluster. -/
def Ray.agent (r : Ray) (fab : FabIn) : Agent := ⟨r.ctx, r.gid, none, dieOfCore r.core, 0, fab⟩

/-- The entries a ray has spilled stand in its spill area (R203). -/
def State.writeSpill (s : State) (r : Ray) (area : List (Nat × List Byte)) : State :=
  { s with mem := area.foldl (fun m e => writeBytes m (atKeys (r.spillKey + 16 * e.1) e.2)) s.mem }

/-- What a ray meets (R321, R322): the hits in ascending key and the status. -/
def State.traceRay (s : State) (r : Ray) (fab : FabIn) : Acc (State × List Hit × Nat) :=
  match rayLine r.regs with
  | none => .ok (s, [], 0)
  | some l =>
    (s.walkRay (r.agent fab) l bvhFuel ⟨[⟨.node, r.root, rootLevel r.rmask, none⟩], [], [], [], [], [], 0⟩).andThen fun (q : State × RayWalk) =>
      .ok (q.1.writeSpill r q.2.area, q.2.hits, rayStatus q.2.bits)

/-- The words of the seed of a hit (R322). -/
def Hit.words (payload : Word) (h : Hit) : List Word := [payload, w32 (ratF32 h.t), w32 h.prim, w32 (h.path.getLastD 0xFFFFFFFF)]

/-- The hit whose seed a ray plants, and its any-hit candidates (R322). -/
def raySeeds (any : Bool) (hs : List Hit) : Option Hit × List Hit :=
  if any then
    let best := hs.find? fun h => h.solid
    (best, hs.filter fun h => !h.solid && (best.all fun b => h.before b))
  else (hs.head?, [])

/-- A seed of a ray, the rank-th in planting order (R221). -/
def Ray.held (r : Ray) (ready : Nat) (rank : Nat) (entry : Word) (ws : List Word) : Held :=
  ⟨ready, entry, argWords ws, traceKey r.tid r.ord rank⟩

/-- The seeds a ray plants once it has traversed (R322): the attributes of the hit are stored first. -/
def State.raySeedsOf (s : State) (r : Ray) (fab : FabIn) (hs : List Hit) (status : Nat) : Acc (State × List Held) :=
  let x := raySeeds r.any hs
  let n := x.2.length
  let cands := ((List.range n).zip x.2).map fun e => r.held 0 e.1 r.ahit (e.2.words r.payload)
  let miss := fun (st : Nat) => cands ++ [r.held 0 n r.miss [r.payload, w32 st, 0, 0]]
  match x.1 with
  | none => .ok (s, miss status)
  | some h =>
    let hit := fun (ready : Nat) => cands ++ [r.held ready n (h.hite.getD r.hit) (h.words r.payload)]
    if status ≠ 0 then .ok (s, miss status)
    else if r.attr = 0 then .ok (s, hit 0)
    else
      let va := (r.attr + 8 * r.payload.toNat) % 2 ^ 64
      match s.unitStore (r.agent fab) false va (leBytes 4 (ratF32 h.b1) ++ leBytes 4 (ratF32 h.b2)) with
      | .wait s => .wait s
      | .fault _ _ => .ok (s, miss 3)
      | .ok (s, t) => .ok (s, hit t)

/-- Seeds a BTE holds are planted in order, each once it is ready and its seedbed has room (R44, R322); and those still held. -/
def State.plantHeld (s : State) (gid core : Nat) : List Held → State × List Held
  | [] => (s, [])
  | h :: r =>
    match s.grove? gid with
    | none => (s, [])
    | some g =>
      if h.ready ≤ s.gt ∧ s.bedCount core (seedbedOf h.entry) g.ctx < 256 then (s.plant g core h.entry h.args h.key).plantHeld gid core r
      else (s, h :: r)

/-- A ray plants what it can and ends with its last seed (R322). -/
def State.plantRay (s : State) (id : Nat) : State :=
  match s.rays.find? fun r => r.id == id with
  | none => s
  | some r =>
    let x := s.plantHeld r.gid r.core r.plant
    if x.2.isEmpty then { x.1 with rays := x.1.rays.filter fun q => q.id != id }
    else { x.1 with rays := x.1.rays.map fun (q : Ray) => if q.id == id then { q with plant := x.2 } else q }

/-- BTE_RAY_DONE: a ray has been traversed, and its seeds are planted as room comes (R44, R322). -/
def execBteRayDone (ray : Nat) (fab : FabIn) (s : State) : Out :=
  .next (match s.rays.find? fun r => r.id == ray with
    | none => s
    | some r =>
      if !s.clocked (dieOfCore r.core) then s
      else if r.traced then s.plantRay ray
      else
        match (s.traceRay r fab).andThen fun (q : State × List Hit × Nat) => q.1.raySeedsOf r fab q.2.1 q.2.2 with
        | .wait s => s
        | .fault _ _ => s
        | .ok (s, hs) =>
          ({ s with rays := s.rays.map fun (q : Ray) => if q.id == ray then { q with traced := true, plant := hs } else q } : State).plantRay ray)

/-! ### BEAMGO -/

/-- A BEAMGO in the front thread (R326): the list address is checked, then the count and the seedling strands of the request form. -/
def State.beamgo (s : State) (gid d : Nat) (count : Option Nat) : State :=
  match s.grove? gid with
  | none => s
  | some g =>
    let va := (g.front.pair d).toNat
    match s.addrCheck g.ctx va (if count.isSome then 32 else 256) with
    | some k => s.trapWho gid none k 0 va
    | none =>
      let n := count.getD 0
      if count.isSome ∧ (n = 0 ∨ 4096 < n ∨ g.desc.seedl = 0) then s.modThread gid none (Thread.fail 0x02 0 s.curTval)
      else
        let b : Beam := ⟨s.nextId, gid, g.ctx, g.front.core, g.front.wordPc, va, count.isSome, n, g.front.beamOrd, g.cfence, false, [],
          0xFFFFFFFF, 0, 0⟩
        ({ s with nextId := s.nextId + 1, beams := s.beams ++ [b] } : State).modThread gid none fun t => { t with beamOrd := t.beamOrd + 1 }

/-- BEAMGO (R326). -/
def execBeamgo (h : Hdr) (d : Fin 32) (s : State) : Out :=
  uniIssue (wordShape h false 0 (s2 d)) false engineHeld (fun gid s => s.beamgo gid d.val none) s

/-- BEAMGO.REQ (R326). -/
def execBeamgoReq (h : Hdr) (d n : Fin 32) (s : State) : Out :=
  uniIssue (wordShape h false 0 (s2 d)) false engineHeld
    (fun gid s => match s.thread? gid none with
      | some t => s.beamgo gid d.val (some (t.reg n.val).toNat)
      | none => s) s

/-- The BTE of a beam command's cluster. -/
def Beam.agent (b : Beam) (fab : FabIn) : Agent := ⟨b.ctx, b.gid, none, dieOfCore b.core, b.id, fab⟩

/-- A beam command has gone. -/
def State.dropBeam (s : State) (id : Nat) : State := { s with beams := s.beams.filter fun b => b.id != id }

/-- A beam command ends with a pending trap and delivers nothing (R178, R289). -/
def State.failBeam (s : State) (b : Beam) (cause detail tval : Nat) : State :=
  (s.dropBeam b.id).modGrove b.gid (Grove.addPending ⟨cause, detail, tval, b.pc⟩)

/-- A beam command starts after the commands a CFENCE names, and after every earlier engine command has started (R283). -/
def State.mayStartBeam (s : State) (b : Beam) : Bool :=
  s.cmds.all (fun x => x.gid != b.gid || b.id ≤ x.id || x.started && decide (b.after ≤ x.id)) &&
    s.beams.all fun x => x.gid != b.gid || decide (b.after ≤ x.id)

/-- A beam list's header (R204). -/
structure BeamList where
  m : List Vec
  mw : List Rat
  o : Vec
  d0 : Vec
  dx : Vec
  dy : Vec
  root : Nat
  nbeam : Nat
  mask : Nat
  out : Nat
  outn : Nat
  bh : Nat
  deriving DecidableEq, Repr

/-- Reads a header's exact parts; none when a component is not finite. -/
def beamList (bs : List Byte) : Option BeamList :=
  let row := fun k => (recVec bs (16 * k), f32Rat (recField bs (16 * k + 12) 4))
  match row 0, row 1, row 2, row 3, recVec bs 64, recVec bs 76, recVec bs 88, recVec bs 100 with
  | (some a, some x), (some b, some y), (some c, some z), (some d, some w), some o, some d0, some dx, some dy =>
    some ⟨[a, b, c, d], [x, y, z, w], o, d0, dx, dy, recField bs 112 8, recField bs 120 4, recField bs 124 1, recField bs 128 8,
      recField bs 136 4, recField bs 140 4⟩
  | _, _, _, _, _, _, _, _ => none

/-- The exact pyramid of pixel (px, py) of the map meets the image of a box (R204, R199): the least distance along it at which it does. The variables are the point of the box, the distance p and p times the two steps. -/
def BeamList.reaches (l : BeamList) (f : Xf) (lo hi : Vec) (px py : Nat) : Option Rat :=
  let eqs := (List.range 3).map fun k =>
    Row.mk [(f.row k).x, (f.row k).y, (f.row k).z, -(l.d0.at k), -(l.dx.at k), -(l.dy.at k)] (l.o.at k - f.t.at k)
  let w : Rat := 1 / 2 + 1 / 256
  let x : Rat := px
  let y : Rat := py
  leastValue 6 3 0 eqs (boxRows 6 lo hi ++
    [⟨[0, 0, 0, -1, 0, 0], 0⟩, ⟨[0, 0, 0, x - w, -1, 0], 0⟩, ⟨[0, 0, 0, -(x + w), 1, 0], 0⟩,
      ⟨[0, 0, 0, y - w, 0, -1], 0⟩, ⟨[0, 0, 0, -(y + w), 0, 1], 0⟩])

/-- An entry of a beam's stack: what it is, and the pixels whose pyramids meet its box with their distances. -/
structure BeamItem where
  kind : BvhKind
  addr : Nat
  count : Nat
  level : BvhLevel
  pix : List (Nat × Rat)
  deriving DecidableEq, Repr

/-- A beam, or after a split one of its pixels: its pixels, its stack, and the nodes it has visited. -/
structure BeamJob where
  pixels : List Nat
  stack : List BeamItem
  seen : List (Nat × List Nat)
  deriving DecidableEq, Repr

/-- The pixels that some entry of the stack meets (R205). -/
def BeamJob.unresolved (j : BeamJob) : List Nat := j.pixels.filter fun p => j.stack.any fun it => it.pix.any fun e => e.1 == p

/-- A beam with 16 unresolved pixels or fewer goes on pixel by pixel (R205). -/
def BeamJob.split (j : BeamJob) : List BeamJob :=
  let u := j.unresolved
  if j.pixels.length ≤ 1 ∨ 16 < u.length then [j]
  else u.map fun p =>
    ⟨[p], (j.stack.filter fun it => it.pix.any fun e => e.1 == p).map fun it => { it with pix := it.pix.filter fun e => e.1 == p }, j.seen⟩

/-- The nearest distance of an entry. -/
def BeamItem.near (it : BeamItem) : Rat := it.pix.tail.foldl (fun m e => if e.2 < m then e.2 else m) (((it.pix.head?).map Prod.snd).getD 0)

/-- Inserts an entry front to back, behind those no farther. -/
def nearIn (it : BeamItem) : List BeamItem → List BeamItem
  | [] => [it]
  | y :: r => if it.near < y.near then it :: y :: r else y :: nearIn it r

/-- The children of a node that a job meets, front to back (R205); tx, ty is its tile. -/
def BeamList.children (l : BeamList) (tx ty : Nat) (j : BeamJob) (lev : BvhLevel) (cs : List BvhChild) : List BeamItem :=
  (cs.filterMap fun c =>
    let pix := j.pixels.filterMap fun p => (l.reaches lev.xf c.lo c.hi (8 * tx + p % 8) (8 * ty + p / 8)).map fun d => (p, d)
    if pix.isEmpty then none else some (BeamItem.mk c.kind c.addr c.count lev pix)).foldl (fun acc it => nearIn it acc) []

/-- The image of a point under M (R206): X′, Y′, Z′, W′. -/
def BeamList.project (l : BeamList) (v : Vec) : Rat × Rat × Rat × Rat :=
  let f := fun k => (l.m.getD k ⟨0, 0, 0⟩).dot v + l.mw.getD k 0
  (f 0, f 1, f 2, f 3)

/-- Twice the signed area of three points. -/
def ratArea (a b c : Rat × Rat) : Rat := (b.1 - a.1) * (c.2 - a.2) - (c.1 - a.1) * (b.2 - a.2)

/-- A signed 64-bit code of a coefficient; one outside the range is a free value (log 20). -/
def planeCode (x : Rat) : Nat :=
  let k := ratRne x
  if -(2 ^ 63) ≤ k ∧ k < 2 ^ 63 then modPow 64 k else Config.planeUnstated k % 2 ^ 64

/-- What a triangle of a leaf comes to (R205, R206): an entry's 64 bytes, nothing, or GUARD. -/
inductive BeamTri where
  | entry (bytes : List Byte) | drop | guard
  deriving DecidableEq, Repr

/-- A triangle of a leaf for a tile (R205, R206). -/
def BeamList.entry (l : BeamList) (tx ty : Nat) (t : BvhTri) (lev : BvhLevel) : BeamTri :=
  let v := t.world lev.xf
  let ps := [l.project v.1, l.project v.2.1, l.project v.2.2]
  if ps.any (fun p => p.2.2.2 ≤ 0) then .drop
  else
    let flat := ps.map fun p => (p.1 / p.2.2.2, p.2.1 / p.2.2.2)
    let snap := flat.map fun p => (ratRne (256 * p.1), ratRne (256 * p.2))
    let at' := fun (i : Nat) => (snap.getD i (0, 0))
    let pt := fun (i : Nat) => (((at' i).1 : Rat) / 256 - (8 * tx : Nat), ((at' i).2 : Rat) / 256 - (8 * ty : Nat))
    let z := (ps.map fun p => p.2.2.1 / p.2.2.2)
    let area := ratArea (pt 0) (pt 1) (pt 2)
    let ok := fun (x : Int) => decide (-(2 ^ 23) ≤ x ∧ x < 2 ^ 23)
    if ratArea (flat.getD 0 (0, 0)) (flat.getD 1 (0, 0)) (flat.getD 2 (0, 0)) = 0 then .drop
    else if snap.any fun p => !ok p.1 || !ok p.2 then .guard
    else if area = 0 then .drop
    else
      let z0 := z.getD 0 0
      let z1 := z.getD 1 0 - z0
      let z2 := z.getD 2 0 - z0
      let dx := fun (i : Nat) => (pt i).1 - (pt 0).1
      let dy := fun (i : Nat) => (pt i).2 - (pt 0).2
      let zx := (z1 * dy 2 - z2 * dy 1) / area
      let zy := (z2 * dx 1 - z1 * dx 2) / area
      let zc := z0 - zx * (pt 0).1 - zy * (pt 0).2
      .entry (((List.range 3).flatMap fun i => leBytes 4 (modPow 32 (at' i).1) ++ leBytes 4 (modPow 32 (at' i).2)) ++
        leBytes 8 (planeCode (zc * ratPow2 32)) ++ leBytes 8 (planeCode (zx * ratPow2 32)) ++ leBytes 8 (planeCode (zy * ratPow2 32)) ++
        leBytes 4 t.prim ++ leBytes 4 lev.inst ++ leBytes 8 0)

/-- Batch records of up to 16 entries (R206). -/
def batchRecords (tx ty mask : Nat) : Nat → List (List Byte) → List (List Byte)
  | 0, _ => []
  | fuel + 1, es =>
    if es.isEmpty then []
    else
      let now := es.take 16
      (leBytes 2 tx ++ leBytes 2 ty ++ leBytes 4 now.length ++ leBytes 8 mask ++ leBytes 48 0 ++ now.flatten ++
        leBytes (1984 - 64 * now.length) 0) :: batchRecords tx ty mask fuel (es.drop 16)

/-- A beam under way: its jobs, the batch records so far, and the STATUS bits met: 4 INSTANCE_LIMIT, 8 MALFORMED, 16 GUARD (R204). -/
structure BeamWalk where
  jobs : List BeamJob
  recs : List (List Byte)
  bits : Nat
  deriving DecidableEq, Repr

/-- A condition met. -/
def BeamWalk.met (bit : Nat) (w : BeamWalk) : BeamWalk := { w with bits := w.bits ||| bit }

/-- The triangles of a leaf, read one by one: the entries, and the STATUS bits (R200, R205, R362). -/
def State.leafEntries (s : State) (a : Agent) (l : BeamList) (tx ty : Nat) (lev : BvhLevel) (addr : Nat) : Nat → Acc (State × List (List Byte) × Nat)
  | 0 => .ok (s, [], 0)
  | n + 1 =>
    (s.leafEntries a l tx ty lev addr n).andThen fun (r : State × List (List Byte) × Nat) =>
      let va := (addr + 48 * n) % 2 ^ 64
      if va % 16 ≠ 0 then .fault 0x04 va
      else (r.1.unitRead a 3 va 48).andThen fun (q : State × List (Byte × Bool)) =>
        if anyPoisoned q.2 then .ok (q.1, r.2.1, r.2.2 ||| 8)
        else match bvhTri (plainBytes q.2) with
          | none => .ok (q.1, r.2.1, r.2.2 ||| 8)
          | some t =>
            match l.entry tx ty t lev with
            | .entry b => .ok (q.1, r.2.1 ++ [b], r.2.2)
            | .drop => .ok (q.1, r.2.1, r.2.2)
            | .guard => .ok (q.1, r.2.1, r.2.2 ||| 16)

/-- One entry of a job (R199, R201, R205): the job after it, and what it adds. -/
def State.visitBeam (s : State) (a : Agent) (l : BeamList) (tx ty : Nat) (j : BeamJob) (it : BeamItem) (w : BeamWalk) : Acc (State × BeamJob × BeamWalk) :=
  match it.kind with
  | .leaf =>
    (s.leafEntries a l tx ty it.level it.addr it.count).andThen fun (r : State × List (List Byte) × Nat) =>
      let mask := it.pix.foldl (fun m e => m ||| 2 ^ e.1) 0
      .ok (r.1, j, { w with recs := w.recs ++ batchRecords tx ty mask 3 r.2.1, bits := w.bits ||| r.2.2 })
  | .inst =>
    if 4 ≤ it.level.recs.length then .ok (s, j, w.met 4)
    else if it.addr % 16 ≠ 0 then .fault 0x04 it.addr
    else (s.unitRead a 3 it.addr 128).andThen fun (q : State × List (Byte × Bool)) =>
      if anyPoisoned q.2 then .ok (q.1, j, w.met 8)
      else match bvhInstance (plainBytes q.2) it.addr it.level with
        | none => .ok (q.1, j, w.met 8)
        | some (root, lev) => .ok (q.1, { j with stack := ⟨.node, root, 0, lev, it.pix⟩ :: j.stack }, w)
  | .node =>
    if j.seen.contains (it.addr, it.level.recs) then .ok (s, j, w)
    else if it.addr % 128 ≠ 0 then .fault 0x04 it.addr
    else (s.unitRead a 3 it.addr 128).andThen fun (q : State × List (Byte × Bool)) =>
      let j := { j with seen := (it.addr, it.level.recs) :: j.seen }
      if anyPoisoned q.2 then .ok (q.1, j, w.met 8)
      else match bvhNode (plainBytes q.2) it.level.mask with
        | none => .ok (q.1, j, w.met 8)
        | some cs => .ok (q.1, { j with stack := l.children tx ty j it.level cs ++ j.stack }, w)

/-- A beam's jobs, entry by entry (R205). -/
def State.walkBeam (s : State) (a : Agent) (l : BeamList) (tx ty : Nat) : Nat → BeamWalk → Acc (State × BeamWalk)
  | 0, _ => .wait s
  | fuel + 1, w =>
    match w.jobs with
    | [] => .ok (s, w)
    | j :: rest =>
      match j.stack with
      | [] => s.walkBeam a l tx ty fuel { w with jobs := rest }
      | it :: st =>
        (s.visitBeam a l tx ty { j with stack := st } it w).andThen fun (r : State × BeamJob × BeamWalk) =>
          r.1.walkBeam a l tx ty fuel { r.2.2 with jobs := r.2.1.split ++ rest }

/-- The beam of a tile from the root, every pixel unresolved. -/
def BeamList.beam (l : BeamList) : BeamJob :=
  ⟨List.range 64, [⟨.node, l.root, 0, rootLevel l.mask, (List.range 64).map fun p => (p, 0)⟩], []⟩

/-- The beams of a list, one after another: their batch records and STATUS bits; an entry with poison is skipped (R205, R362). -/
def State.walkBeams (s : State) (a : Agent) (l : BeamList) : List (Nat × Nat × Bool) → Acc (State × List (List Byte) × Nat)
  | [] => .ok (s, [], 0)
  | (tx, ty, bad) :: r =>
    if bad then
      (s.walkBeams a l r).andThen fun (q : State × List (List Byte) × Nat) => .ok (q.1, q.2.1, q.2.2 ||| 8)
    else
      (s.walkBeam a l tx ty bvhFuel ⟨[l.beam], [], 0⟩).andThen fun (w : State × BeamWalk) =>
        (w.1.walkBeams a l r).andThen fun (q : State × List (List Byte) × Nat) => .ok (q.1, w.2.recs ++ q.2.1, w.2.bits ||| q.2.2)

/-- What a beam list asks to be written (R204, R205, R326): the stores in order, the handle and the bytes it receives; or a reason of ENGINE_DESC. -/
inductive BeamPlan where
  | bad (reason : Nat)
  | go (stores : List (Nat × List Byte)) (handle bytes : Nat)

/-- The stores at the end of a list: its batch records in OUT as far as they fit, then NBATCH, then STATUS. -/
def beamStores (list out outn : Nat) (recs : List (List Byte)) (bits : Nat) : List (Nat × List Byte) :=
  let kept := recs.take outn
  let status := 1 + bits + (if kept.length < recs.length then 2 else 0)
  ((List.range kept.length).zip kept).map (fun e => ((out + 2048 * e.1) % 2 ^ 64, e.2)) ++
    [((list + 148) % 2 ^ 64, leBytes 4 kept.length), ((list + 144) % 2 ^ 64, leBytes 4 status)]

/-- A beam list is read and its beams traversed (R204, R205, R326, R362). -/
def State.planBeams (s : State) (a : Agent) (list : Nat) : Acc (State × BeamPlan) :=
  (s.unitRead a 4 list 256).andThen fun (r : State × List (Byte × Bool)) =>
    let bs := plainBytes r.2
    let n := recField bs 120 4
    let finish := fun (s : State) (recs : List (List Byte)) (bits : Nat) =>
      Acc.ok (s, BeamPlan.go (beamStores list (recField bs 128 8) (recField bs 136 4) recs bits) (recField bs 140 4)
        (2048 * min recs.length (recField bs 136 4)))
    if anyPoisoned r.2 then finish r.1 [] 8
    else if n = 0 ∨ 4096 < n ∨ recField bs 125 3 ≠ 0 ∨ recField bs 152 104 ≠ 0 then .ok (r.1, .bad 1)
    else (r.1.unitRead a (linesOf (8 * n)) ((list + 256) % 2 ^ 64) (8 * n)).andThen fun (e : State × List (Byte × Bool)) =>
      let tiles := (List.range n).map fun i =>
        let b := (e.2.drop (8 * i)).take 8
        (leNat (plainBytes (b.take 2)), leNat (plainBytes ((b.drop 2).take 2)), anyPoisoned b, leNat (plainBytes (b.drop 4)))
      if tiles.any fun t => !t.2.2.1 && (4095 < t.1 || 4095 < t.2.1 || t.2.2.2 != 0) then .ok (e.1, .bad 1)
      else if recField bs 128 8 % 2048 ≠ 0 then .ok (e.1, .bad 2)
      else match beamList bs with
        | none => finish e.1 [] 8
        | some l =>
          (e.1.walkBeams a l (tiles.map fun t => (t.1, t.2.1, t.2.2.1))).andThen fun (q : State × List (List Byte) × Nat) =>
            finish q.1 q.2.1 q.2.2

/-- Stores in order, each checked before any is made (R245): the state, the largest VT + Skew, and the cause and address of one that is refused; those before it stay. -/
def State.storeAll (s : State) (a : Agent) : List (Nat × List Byte) → State × Nat × Option (Nat × Nat)
  | [] => (s, 0, none)
  | x :: r =>
    match s.unitStore a true x.1 x.2 with
    | .wait s => (s, 0, none)
    | .fault k v => (s, 0, some (k, v))
    | .ok (s, t) =>
      let q := s.storeAll a r
      (q.1, max t q.2.1, q.2.2)

/-- The stores up to the first that would be refused can all be made now. -/
def State.storesReady (s : State) (a : Agent) : List (Nat × List Byte) → Acc State
  | [] => .ok s
  | x :: r =>
    match s.unitCheck a (linesOf x.2.length) x.1 x.2.length with
    | .wait s => .wait s
    | .fault _ _ => .ok s
    | .ok s => s.storesReady a r

/-- A beam list is traversed and its results are stored (R204, R205). -/
def State.runBeams (s : State) (b : Beam) (fab : FabIn) : State :=
  let a := b.agent fab
  match (s.planBeams a b.list).andThen fun (r : State × BeamPlan) =>
      match r.2 with
      | .bad n => Acc.ok (r.1, BeamPlan.bad n)
      | .go st h n => (r.1.storesReady a st).andThen fun s => Acc.ok (s, BeamPlan.go st h n) with
  | .wait s => s
  | .fault k v => s.failBeam b k 0 v
  | .ok (s, BeamPlan.bad n) => s.failBeam b 0x19 (256 * n) b.list
  | .ok (s, BeamPlan.go st h n) =>
    let r := s.storeAll a st
    match r.2.2 with
    | some (k, v) => r.1.failBeam b k 0 v
    | none =>
      { r.1 with beams := r.1.beams.map fun (x : Beam) => if x.id == b.id then { x with traced := true, handle := h, bytes := n, vt := r.2.1 } else x }

/-- BEAM_COMPLETE: the beams of a list are traversed and its records and STATUS stored; and once they have their times, the list's bytes are delivered (R205, R277, R326). -/
def execBeamComplete (beam : Nat) (fab : FabIn) (s : State) : Out :=
  .next (match s.beams.find? fun b => b.id == beam with
    | none => s
    | some b =>
      if b.req || !s.clocked (dieOfCore b.core) then s
      else if !b.traced then (if s.mayStartBeam b then s.runBeams b fab else s)
      else if decide (b.vt ≤ s.gt) && !(s.peerStores.any fun x => x.core == 256 + b.id) then
        (s.dropBeam beam).deliverBytes b.gid b.handle b.bytes 0 b.pc
      else s)

/-! ### Atlas requests -/

/-- The requests of a list with their positions, of each block address the first (R210). -/
def distinctBlocks : List (Nat × List Byte) → List Nat → List (Nat × List Byte)
  | [], _ => []
  | e :: r, seen =>
    let a := recField e.2 0 8
    if seen.contains a then distinctBlocks r seen else e :: distinctBlocks r (a :: seen)

/-- The seed of a request (R210, R221). -/
def requestSeed (ord : Nat) (e : Nat × List Byte) : Held :=
  ⟨0, w32 (recField e.2 8 4), argWords [w32 (recField e.2 0 4), w32 (recField e.2 4 4), w32 (recField e.2 12 4), w32 (recField e.2 16 4)], atlasKey ord e.1⟩

/-- A beam command of the request form plants what it can and completes with its last seed (R210, R326). -/
def State.plantBeam (s : State) (id : Nat) : State :=
  match s.beams.find? fun b => b.id == id with
  | none => s
  | some b =>
    let x := s.plantHeld b.gid b.core b.plant
    if x.2.isEmpty then x.1.dropBeam id
    else { x.1 with beams := x.1.beams.map fun (q : Beam) => if q.id == id then { q with plant := x.2 } else q }

/-- ATLAS_REQUEST_COMPLETE: a request list is read, and its seeds are planted as room comes (R44, R210, R326). -/
def execAtlasRequestComplete (beam : Nat) (fab : FabIn) (s : State) : Out :=
  .next (match s.beams.find? fun b => b.id == beam with
    | none => s
    | some b =>
      if !b.req || !s.clocked (dieOfCore b.core) then s
      else if b.traced then s.plantBeam beam
      else if !s.mayStartBeam b then s
      else match s.unitRead (b.agent fab) (linesOf (32 * b.count)) b.list (32 * b.count) with
        | .wait s => s
        | .fault k v => s.failBeam b k 0 v
        | .ok (s, bs) =>
          if anyPoisoned bs then s.failBeam b 0x0D 0 b.list
          else
            let es := (List.range b.count).map fun i => (i, ((plainBytes bs).drop (32 * i)).take 32)
            let hs := (distinctBlocks es []).map (requestSeed b.ord)
            ({ s with beams := s.beams.map fun (q : Beam) => if q.id == beam then { q with traced := true, plant := hs } else q } : State).plantBeam beam)

end Sys2Proof.Machine
end

