-- ==== Sys2Proof/Machine/Errors.lean ====
section
/-! DEFINITION. Uncorrectable errors and what they poison (07 R172, 17 R359, R361, R362). -/

namespace Sys2Proof.Machine

/-- The thread or grove state of a grove has an uncorrectable error: its context ends (R359, SRC 5). -/
def State.stateError (s : State) (gid : Nat) (who : Option Nat) : State :=
  match s.grove? gid with
  | none => s
  | some g =>
    let core := ((g.thread? who).map Thread.core).getD g.core
    s.endContext g.ctx { Report.plain 5 0x0D with slot := g.slot, core := core }

/-- An error strikes an element of an accumulator row and is found when the row is next read; the rows of an ACW tile lie at its base (R172). -/
def Grove.strikeRow (g : Grove) (p u row : Nat) : Grove :=
  let base := if (g.acUnit p u).interior then acwBase u else u
  g.modAc p base fun x => x.setRow row { x.row row with bad := true }

/-- Rows of the tile of the array command in flight are poisoned, where p picks the command (R172). -/
def Grove.spoilFlight (g : Grove) (p : Msq → Nat → Bool) : Grove :=
  match g.msq with
  | none => g
  | some m => g.spoilRows m.psel m.ac (p m)

/-- The command reads A scales of a strand's lane, and the row the lane serves is i (R168, R172). -/
def Msq.scaleRow (g : Grove) (strand lane : Nat) (m : Msq) (i : Nat) : Bool :=
  match m.cmd with
  | .mma f _ (some l) => (mmaInfo f).aScale && !l.ones && strand == l.sstr.val + i / g.desc.width && lane == i % g.desc.width
  | _ => false

/-- The command stages U and L, or an A′, in a latent mode (R165-R167). -/
def Msq.latent (aPrime : Bool) (m : Msq) : Bool :=
  match m.cmd with
  | .mma _ a _ => a.dm == .absorb || (a.dm == .expand && !aPrime)
  | _ => false

/-- What an error at a site does (R361, R362). -/
def State.strike (s : State) (e : ErrSite) : State :=
  match e with
  | .state gid who => s.stateError gid who
  | .granule key => { s with poison := tabSet false s.poison (key / 32) true }
  | .scratch gid addr => s.modGrove gid fun g => { g with scratchPoison := tabSet false g.scratchPoison (addr / 4) true }
  | .taRow gid pos unit row => s.modGrove gid fun g => g.setTaPoison (taKey pos unit (256 * row)) 256 true
  | .wbByte gid pos unit byte => s.modGrove gid fun g => { g with wbPoison := tabSet false g.wbPoison (wbKey pos unit byte / 256) true }
  | .acRow gid pos unit row => s.modGrove gid fun g => g.strikeRow pos unit row
  | .scale gid strand lane => s.modGrove gid fun g => g.spoilFlight (Msq.scaleRow g strand lane)
  | .aPrime gid row => s.modGrove gid fun g => g.spoilFlight fun m i => m.latent true && i == row
  | .staging gid => s.modGrove gid fun g => g.spoilFlight fun m _ => m.latent false
  | .operand gid again => if again then s.modGrove gid fun g => g.spoilFlight fun _ _ => true else s
  | .copy => s

/-- The stack of a physical key of a die's HBM, as 8 × die + stack (R238, R363). -/
def State.stackOfKey (s : State) (key : Nat) : Option Nat :=
  let die := key / 2 ^ 52
  let pa := key % 2 ^ 52
  if die < 2 ∧ pa < 2 ^ 40 then some (8 * die + (s.place die pa).1) else none

/-- An uncorrectable granule of HBM counts for its stack: more than 16 within 1 s are a device failure (R363). -/
def State.noteGranule (s : State) (key : Nat) : State :=
  match s.stackOfKey key with
  | none => s
  | some k =>
    let l := ((k, key / 32, s.gt) :: s.hub.granules.filter fun e => decide (s.gt < e.2.2 + 10 ^ 9) && e.2.1 != key / 32)
    let s := s.modHub fun h => { h with granules := l }
    if 16 < (l.filter fun e => e.1 == k).length then s.failStack (k / 8) (k % 8) else s

/-- UNCORRECTABLE_ERROR: a structure has an error its code cannot correct; it is counted (R361, R363, R364). A step replayed for a parity error that is gone is a retry. -/
def execUncorrectableError (e : ErrSite) (s : State) : Out :=
  .next (match e with
    | .granule key => ((s.strike e).count 1).noteGranule key
    | .operand _ false => s.count 3
    | _ => (s.strike e).count 1)

end Sys2Proof.Machine
end

