-- ==== Sys2Proof/Machine/LaneFloat.lean ====
section
/-! DEFINITION. Class F: the float words of 06 R137-R145, one meaning for each. -/

namespace Sys2Proof.Machine

/-- FADD (R138). -/
def execFadd (h : Hdr) (d : Fin 64) (a : LaneA) (b : Fin 64) (s : State) : Out :=
  laneBinF h d a b (fun v x y _ => faddOp v .fp32 x y) s
/-- FSUB (R138). -/
def execFsub (h : Hdr) (d : Fin 64) (a : LaneA) (b : Fin 64) (s : State) : Out :=
  laneBinF h d a b (fun v x y _ => fsubOp v .fp32 x y) s
/-- FMUL (R138). -/
def execFmul (h : Hdr) (d : Fin 64) (a : LaneA) (b : Fin 64) (s : State) : Out :=
  laneBinF h d a b (fun v x y _ => fmulOp v .fp32 x y) s
/-- FFMA (R138). -/
def execFfma (h : Hdr) (d : Fin 64) (a : LaneA) (b : Fin 64) (s : State) : Out :=
  laneBinF h d a b (fun v x y z => ffmaOp v .fp32 false x y z) s
/-- FFMS (R138). -/
def execFfms (h : Hdr) (d : Fin 64) (a : LaneA) (b : Fin 64) (s : State) : Out :=
  laneBinF h d a b (fun v x y z => ffmaOp v .fp32 true x y z) s
/-- FMIN (R139). -/
def execFmin (h : Hdr) (d : Fin 64) (a : LaneA) (b : Fin 64) (s : State) : Out :=
  laneBinF h d a b (fun v x y _ => fminmax v .fp32 false false x y) s
/-- FMAX (R139). -/
def execFmax (h : Hdr) (d : Fin 64) (a : LaneA) (b : Fin 64) (s : State) : Out :=
  laneBinF h d a b (fun v x y _ => fminmax v .fp32 true false x y) s
/-- FMINN (R139). -/
def execFminn (h : Hdr) (d : Fin 64) (a : LaneA) (b : Fin 64) (s : State) : Out :=
  laneBinF h d a b (fun v x y _ => fminmax v .fp32 false true x y) s
/-- FMAXN (R139). -/
def execFmaxn (h : Hdr) (d : Fin 64) (a : LaneA) (b : Fin 64) (s : State) : Out :=
  laneBinF h d a b (fun v x y _ => fminmax v .fp32 true true x y) s
/-- FABS (R138). -/
def execFabs (h : Hdr) (d : Fin 64) (a : LaneA) (s : State) : Out := laneUn h d a (fun x => x &&& 0x7FFFFFFF) s
/-- FNEG (R138). -/
def execFneg (h : Hdr) (d : Fin 64) (a : LaneA) (s : State) : Out := laneUn h d a (fun x => x ^^^ 0x80000000) s
/-- FCMP (R139). -/
def execFcmp (h : Hdr) (k : Fin 8) (c : FCond) (a : LaneA) (b : Fin 64) (s : State) : Out :=
  lanePure (aShape h a 0 (needA a ++ v1 b)) true
    (fun e t =>
      let r := fcmpOp (FEnv.ofFpc t.fpc) .fp32 c (readA e t a).toNat (t.reg b.val).toNat
      ⟨wrP k.val r.1, r.2, none⟩) s
/-- FCLASS (R142). -/
def execFclass (h : Hdr) (d : Fin 64) (a : LaneA) (s : State) : Out := laneUn h d a (fun x => w32 (2 ^ fclassOp x.toNat)) s
/-- FRND (R143). -/
def execFrnd (h : Hdr) (d : Fin 64) (a : LaneA) (e : RndSel) (s : State) : Out :=
  laneUnF h true d a (fun v x => frndOp v (match e with
    | .rne => .rne
    | .rtz => .rtz
    | .rup => .rup
    | .rdn => .rdn
    | .fpc => v.rm) x) s
/-- FLDEXP (R143). -/
def execFldexp (h : Hdr) (d : Fin 64) (a : LaneA) (b : Fin 64) (s : State) : Out :=
  laneBinF h d a b (fun v x y _ => fldexpOp v x y) s
/-- FFRACT (R143). -/
def execFfract (h : Hdr) (d : Fin 64) (a : LaneA) (s : State) : Out := laneUnF h true d a (fun v x => ffractOp v x) s
/-- FSAT (R143). -/
def execFsat (h : Hdr) (d : Fin 64) (a : LaneA) (s : State) : Out := laneUnF h true d a (fun v x => fsatOp v x) s
/-- HADD2 (R140). -/
def execHadd2 (h : Hdr) (d : Fin 64) (a : LaneA) (b : Fin 64) (s : State) : Out :=
  laneBinF h d a b (fun v => halves fun x y _ => faddOp v .fp16 x y) s
/-- HMUL2 (R140). -/
def execHmul2 (h : Hdr) (d : Fin 64) (a : LaneA) (b : Fin 64) (s : State) : Out :=
  laneBinF h d a b (fun v => halves fun x y _ => fmulOp v .fp16 x y) s
/-- HFMA2 (R140). -/
def execHfma2 (h : Hdr) (d : Fin 64) (a : LaneA) (b : Fin 64) (s : State) : Out :=
  laneBinF h d a b (fun v => halves fun x y z => ffmaOp v .fp16 false x y z) s
/-- HMIN2 (R140). -/
def execHmin2 (h : Hdr) (d : Fin 64) (a : LaneA) (b : Fin 64) (s : State) : Out :=
  laneBinF h d a b (fun v => halves fun x y _ => fminmax v .fp16 false false x y) s
/-- HMAX2 (R140). -/
def execHmax2 (h : Hdr) (d : Fin 64) (a : LaneA) (b : Fin 64) (s : State) : Out :=
  laneBinF h d a b (fun v => halves fun x y _ => fminmax v .fp16 true false x y) s
/-- BADD2 (R140). -/
def execBadd2 (h : Hdr) (d : Fin 64) (a : LaneA) (b : Fin 64) (s : State) : Out :=
  laneBinF h d a b (fun v => halves fun x y _ => faddOp v .bf16 x y) s
/-- BMUL2 (R140). -/
def execBmul2 (h : Hdr) (d : Fin 64) (a : LaneA) (b : Fin 64) (s : State) : Out :=
  laneBinF h d a b (fun v => halves fun x y _ => fmulOp v .bf16 x y) s
/-- BFMA2 (R140). -/
def execBfma2 (h : Hdr) (d : Fin 64) (a : LaneA) (b : Fin 64) (s : State) : Out :=
  laneBinF h d a b (fun v => halves fun x y z => ffmaOp v .bf16 false x y z) s
/-- HCMP2 (R140): Pk from the low halves, Pk+1 from the high halves. -/
def execHcmp2 (h : Hdr) (k : Fin 8) (c : FCond) (a : LaneA) (b : Fin 64) (s : State) : Out :=
  lanePure (aShape h a 0 (needA a ++ v1 b)) true
    (fun e t =>
      let x := (readA e t a).toNat
      let y := (t.reg b.val).toNat
      let lo := fcmpOp (FEnv.ofFpc t.fpc) .fp16 c (natBits x 15 0) (natBits y 15 0)
      let hi := fcmpOp (FEnv.ofFpc t.fpc) .fp16 c (natBits x 31 16) (natBits y 31 16)
      ⟨wrP k.val lo.1 ++ wrP (k.val + 1) hi.1, lo.2 ||| hi.2, none⟩) s
/-- CVT (R144). -/
def execCvt (h : Hdr) (d : Fin 64) (a : LaneA) (e : Fin 64) (s : State) : Out :=
  laneUnF h true d a (fun v x => convert v e.val x) s
/-- CVTQ (R144): codes 0x35 and 0x36 read 64 bits, and code 0x37 writes a pair. -/
def execCvtq (h : Hdr) (d : Fin 64) (a : LaneA) (e : Fin 64) (s : State) : Out :=
  let wideIn := cvtqWide e
  let wideOut := e.val == 0x37
  let needs := (if wideOut then v2 d else v1 d) ++ (if wideIn then needA64 a else needA a)
  lanePure (aShape h a (if wideOut then 2 else 1) needs) false
    (fun env t =>
      let x := if wideIn then (readA64 env t a).toNat else (readA env t a).toNat
      let r := convert (FEnv.ofFpc t.fpc) e.val x
      ⟨if wideOut then wr64 d.val (BitVec.ofNat 64 r.1) else wr d.val (w32 r.1), r.2, none⟩) s
/-- SFN (R145). -/
def execSfn (h : Hdr) (d : Fin 64) (a : LaneA) (e : SfnFn) (s : State) : Out :=
  laneUnF h false d a (fun v x => sfnOp v e x) s
/-- FDOT2 (R141). -/
def execFdot2 (h : Hdr) (d : Fin 64) (a : LaneA) (b : Fin 64) (s : State) : Out :=
  laneBinF h d a b (fun v x y z => dotOp v .bf16 2 x y z) s
/-- HDOT2 (R141). -/
def execHdot2 (h : Hdr) (d : Fin 64) (a : LaneA) (b : Fin 64) (s : State) : Out :=
  laneBinF h d a b (fun v x y z => dotOp v .fp16 2 x y z) s
/-- QDOT4 (R141). -/
def execQdot4 (h : Hdr) (d : Fin 64) (a : LaneA) (b : Fin 64) (s : State) : Out :=
  laneBinF h d a b (fun v x y z => dotOp v .fp8e4 4 x y z) s

end Sys2Proof.Machine
end

