-- ==== Sys2Proof/Machine/Render.lean ====
section
/-! DEFINITION. MEDGE, MFILT, MBLEND and MBLENDB (08 R198, 09 R206-R215, R399): coverage and depth, texel filtering, and the compositing of Gaussian splats and its gradients. -/

namespace Sys2Proof.Machine

/-! ### Issue -/

/-- MEDGE (R198, R207-R209). -/
def execMedge (h : Hdr) (c v : Fin 16) (w : Fin 8) (s : State) : Out :=
  uniSeq (wordShape h false 0 [.ac c.val, .ta v.val, .wb w.val])
    (fun s g => g.issueTile c.val .acn fun k =>
      .go (g.command s (.medge v.val w.val) c.val 16 0 [] [c.val] [v.val] [w.val]) k) s

/-- MFILT (R198, R211, R212). -/
def execMfilt (h : Hdr) (c t : Fin 16) (w : Fin 8) (x : TxFmt) (s : State) : Out :=
  uniSeq (wordShape h false 0 [.ac c.val, .ta t.val, .wb w.val])
    (fun s g => g.issueTile c.val .acn fun k =>
      .go (g.command s (.mfilt t.val w.val x) c.val 32 0 [] [c.val] [t.val] [w.val]) k) s

/-- The issue checks of MBLEND and MBLENDB: NCH first (R198). -/
def blendIssue (cmd : ArrayCmd) (ac : Nat) (tas : List Nat) (s : State) (g : Grove) : CmdIssue :=
  if natBits g.mcs2.toNat 2 0 = 0 then CmdIssue.atPc g 0x17 (reasonDetail 3 ac)
  else g.issueTile ac .acw fun k => .go (g.command s cmd ac 64 0 [] (extentOf .acw ac) tas []) k

/-- MBLEND (R198, R214). -/
def execMblend (h : Hdr) (c t p : Fin 16) (s : State) : Out :=
  uniSeq (wordShape h false 0 [.acw c.val, .ta t.val, .ta p.val]) (blendIssue (.mblend t.val p.val) c.val [t.val, p.val]) s

/-- MBLENDB (R198, R215). -/
def execMblendb (h : Hdr) (c t p q : Fin 16) (s : State) : Out :=
  uniSeq (wordShape h false 0 [.acw c.val, .ta t.val, .ta p.val, .ta q.val])
    (blendIssue (.mblendb t.val p.val q.val) c.val [t.val, p.val, q.val]) s

/-! ### Coverage and depth -/

/-- An entry of a batch record (R206): vertices, depth plane, ids. -/
structure Tri where
  v : Nat → Int × Int
  zc : Int
  zx : Int
  zy : Int
  tri : Nat
  inst : Nat

/-- A little-endian field of n bytes from a key of the weight buffer. -/
def Grove.wbNat (g : Grove) (k n : Nat) : Nat := leNat (g.wbBytes k n)

/-- A little-endian field of n bytes from a key of an A tile. -/
def Grove.taNat (g : Grove) (k n : Nat) : Nat := leNat (g.taBytes k n)

/-- Entry t of the batch record at a key (R206). -/
def Grove.tri (g : Grove) (k t : Nat) : Tri :=
  let e := k + 64 + 64 * t
  ⟨fun v => (sintOf 32 (g.wbNat (e + 8 * v) 4), sintOf 32 (g.wbNat (e + 8 * v + 4) 4)),
    sintOf 64 (g.wbNat (e + 24) 8), sintOf 64 (g.wbNat (e + 32) 8), sintOf 64 (g.wbNat (e + 40) 8), g.wbNat (e + 48) 4, g.wbNat (e + 52) 4⟩

/-- A normalised edge function (R207): α, β and its value at a point. -/
structure EdgeFn where
  a : Int
  b : Int
  at_ : Int → Int → Int

/-- The edge function from one vertex to another (R207). -/
def edgeFn (p q : Int × Int) : EdgeFn :=
  ⟨-(q.2 - p.2), q.1 - p.1, fun x y => -(q.2 - p.2) * (x - p.1) + (q.1 - p.1) * (y - p.2)⟩

/-- Twice the area of three points (R207). -/
def area2 (v : Nat → Int × Int) : Int :=
  ((v 1).1 - (v 0).1) * ((v 2).2 - (v 0).2) - ((v 2).1 - (v 0).1) * ((v 1).2 - (v 0).2)

/-- The vertices in the order that makes the area positive (R207). -/
def wound (v : Nat → Int × Int) : Nat → Int × Int := if area2 v < 0 then fun k => if k = 1 then v 2 else if k = 2 then v 1 else v k else v

/-- Edge function k of wound vertices (R207). -/
def edgeOf (v : Nat → Int × Int) : Nat → EdgeFn
  | 0 => edgeFn (v 1) (v 2)
  | 1 => edgeFn (v 2) (v 0)
  | _ => edgeFn (v 0) (v 1)

/-- The fill rule for one edge (R208). -/
def passesEdge (e : EdgeFn) (val : Int) : Bool := 0 < val || (val == 0 && (0 < e.a || (e.a == 0 && 0 < e.b)))

/-- Depth × 2^33 of an entry at a pixel (R207, R209). -/
def Tri.depth (t : Tri) (px py : Nat) : Int := 2 * t.zc + t.zx * (2 * px + 1 : Nat) + t.zy * (2 * py + 1 : Nat)

/-- A coordinate is within its range (R206). -/
def coordOk (x : Int) : Bool := -(2 ^ 23) ≤ x && x < 2 ^ 23

/-- The entry covers a pixel whose centre is (x, y) (R206, R208). -/
def Tri.covers (t : Tri) (mcs1 px py : Nat) (x y : Int) : Bool :=
  let v := wound t.v
  let a := area2 t.v
  let z := t.depth px py
  ((List.range 3).all fun k => coordOk (t.v k).1 && coordOk (t.v k).2) && t.tri != 0xFFFFFFFF && a != 0 &&
    ((List.range 3).all fun k => passesEdge (edgeOf v k) ((edgeOf v k).at_ x y)) && 0 ≤ z && z ≤ 2 ^ 33 &&
    !(0 < a && natBit mcs1 2) && !(a < 0 && natBit mcs1 3)

/-- A candidate depth against the stored one under DCMP (R209). -/
def depthPasses (dcmp : Nat) (z old : Int) : Bool :=
  match dcmp with
  | 0 => z < old
  | 1 => z ≤ old
  | 2 => old < z
  | _ => old ≤ z

/-- A candidate's key is strictly better (R209). -/
def keyBetter (dcmp : Nat) (z : Int) (tri inst : Nat) (oz : Int) (otri oinst : Nat) : Bool :=
  if z = oz then tri < otri || (tri == otri && inst < oinst) else if dcmp < 2 then z < oz else oz < z

/-- A ratio of integers, the denominator positive, rounded to FP32 by RNE. -/
def ratioF32 (n : Int) (d : Nat) : Nat := (roundQ env0 .fp32 .rne 0 (n < 0) n.natAbs d).1

/-- A covering entry against a visibility row at a key (R209). -/
def Grove.visible (g : Grove) (k mcs1 px py : Nat) (x y : Int) (t : Tri) : Grove :=
  let oz := sintOf 64 (g.taNat k 8)
  let otri := g.taNat (k + 8) 4
  let z := t.depth px py
  let dcmp := natBits mcs1 1 0
  let wins := if otri = 0xFFFFFFFF then depthPasses dcmp z oz else keyBetter dcmp z t.tri t.inst oz otri (g.taNat (k + 12) 4)
  if wins then
    let v := wound t.v
    let a := (area2 t.v).natAbs
    g.taWrite k (leBytes 8 (modPow 64 z) ++ leBytes 4 t.tri ++ leBytes 4 t.inst ++
      leBytes 4 (ratioF32 ((edgeOf v 1).at_ x y) a) ++ leBytes 4 (ratioF32 ((edgeOf v 2).at_ x y) a) ++ leBytes 1 (b2n (0 < area2 t.v)))
  else g

/-- MEDGE (R198, R206-R209). -/
def Grove.medge (g : Grove) (q : Msq) (tv wb : Nat) : Grove :=
  let p := q.psel
  let k := wbKey p wb 0
  let n := g.wbNat (k + 4) 1
  let ntri := if 16 < n then 0 else n
  let pmask := g.wbNat (k + 8) 8
  let mcs1 := q.mcs1.toNat
  let bad := g.wbPoisoned k 2048 || decide (16 < n)
  let px := fun i => i % 8
  let py := fun i => i / 8
  let cx := fun i : Nat => (256 * (8 * g.wbNat k 2 + px i) + 128 : Nat)
  let cy := fun i : Nat => (256 * (8 * g.wbNat (k + 2) 2 + py i) + 128 : Nat)
  let tris := (List.range ntri).map fun t => (t, g.tri k t)
  let g := g.spoilRows p q.ac fun i => bad || g.taRowPoisoned (taKey p tv (256 * i))
  let g := g.modAc p q.ac (AcUnit.mapRows fun i r =>
    if r.poison then { r with count := 3, bad := false }
    else
      { r with
        count := 3
        bad := false
        elems := tris.foldl (fun es e =>
          let v := wound e.2.v
          let es := (List.range 3).foldl (fun es j =>
            tabSet (0, 0) es (4 * e.1 + j) ((edgeOf v j).at_ (cx i) (cy i) * 2 ^ 48, 0)) es
          tabSet (0, 0) es (4 * e.1 + 3) (e.2.depth (px i) (py i) * 2 ^ 31, 0)) [] })
  (List.range 64).foldl (fun g i =>
    if natBit pmask i then
      tris.foldl (fun g e =>
        if e.2.covers mcs1 (px i) (py i) (cx i) (cy i) then g.visible (taKey p tv (256 * i)) mcs1 (px i) (py i) (cx i) (cy i) e.2 else g) g
    else g) g

/-! ### Filtering -/

/-- RNE of num / den. -/
def rneDiv (num den : Nat) : Nat :=
  let q := num / den
  let r := num % den
  if den < 2 * r ∨ (den = 2 * r ∧ q % 2 = 1) then q + 1 else q

/-- A finite positive FP32 code in units of 2^−149, or 0. -/
def posUnits (c : Nat) : Nat :=
  match Fmt.fp32.unpack c with
  | .fin false m e => m * 2 ^ (e + 149).toNat
  | _ => 0

/-- The quantised weights of a weight row, with their texel indices (R211). -/
def tapWeights (w : Nat → Nat) (ix : Nat → Nat) : List (Nat × Nat) :=
  let u := fun k => if ix k < 64 then posUnits (w k) else 0
  let s := (List.range 8).foldl (fun a k => a + u k) 0
  if s = 0 then []
  else
    let q := fun k => rneDiv (256 * u k) s
    let sum := (List.range 8).foldl (fun a k => a + q k) 0
    let m := (List.range 8).foldl (fun m k => if u m < u k then k else m) 0
    (List.range 8).map fun k => (ix k, if k = m then q k + 256 - sum else q k)

/-- ω_t × 2^8 of a row (R211). -/
def omega (taps : List (Nat × Nat)) (t : Nat) : Nat := taps.foldl (fun a e => if e.1 = t then a + e.2 else a) 0

/-- A texel (R212). -/
def Grove.texel (g : Grove) (k : Nat) (x : TxFmt) (t j : Nat) : FVal :=
  match x with
  | .fp16 => Fmt.fp16.unpack (g.wbNat (k + 2 * (64 * t + j)) 2)
  | .n8 => .fin false (g.wbNat (k + 64 * t + j) 1) 0

/-- One step of MFILT: texels 2s and 2s + 1 (R212). -/
def Grove.mfiltStep (g : Grove) (q : Msq) (ta wb : Nat) (x : TxFmt) : Grove × Msq :=
  let p := q.psel
  let k := wbKey p wb 0
  let ts := [2 * q.step, 2 * q.step + 1]
  let bad := g.wbPoisoned k (if x = .fp16 then 8192 else 4096)
  let g := g.spoilRows p q.ac fun i => bad || g.taRowPoisoned (taKey p ta (256 * i))
  let r := (List.range 64).foldl (fun (acc : AcUnit × Option (Nat × Nat)) i =>
    let row := taKey p ta (256 * i)
    let taps := tapWeights (fun n => g.taNat (row + 4 * n) 4) (fun n => g.taNat (row + 32 + n) 1)
    let y := (acc.1.row i).addCols .acn q.step (List.range 64) fun j =>
      [ts.map fun t => (.fin false (omega taps t) (-8), g.texel k x t j)]
    (acc.1.setRow i y.1, match y.2 with
      | some st => noteOverflow acc.2 st i
      | none => acc.2)) (g.acUnit p q.ac, q.overflow)
  (g.setAcUnit p q.ac r.1, { q with step := q.step + 1, overflow := r.2 })

/-! ### Splats -/

/-- An exact dyadic number m × 2^e. -/
structure Dyad where
  m : Int
  e : Int
  deriving DecidableEq, Repr

/-- The sum. -/
def Dyad.add (a b : Dyad) : Dyad :=
  let e := min a.e b.e
  ⟨a.m * (2 ^ (a.e - e).toNat : Nat) + b.m * (2 ^ (b.e - e).toNat : Nat), e⟩
/-- The product. -/
def Dyad.mul (a b : Dyad) : Dyad := ⟨a.m * b.m, a.e + b.e⟩
/-- The negative. -/
def Dyad.neg (a : Dyad) : Dyad := ⟨-a.m, a.e⟩
/-- The difference. -/
def Dyad.sub (a b : Dyad) : Dyad := a.add b.neg
/-- Half of it. -/
def Dyad.half (a : Dyad) : Dyad := ⟨a.m, a.e - 1⟩
/-- The order. -/
def Dyad.lt (a b : Dyad) : Bool := (a.sub b).m < 0
/-- As an element value. -/
def Dyad.toVal (a : Dyad) : FVal := .fin (a.m < 0) a.m.natAbs a.e

/-- The value of a finite element. -/
def FVal.dyad : FVal → Option Dyad
  | .fin n m e => some ⟨if n then -(m : Int) else (m : Int), e⟩
  | _ => none

/-- RoundOnce into FP32 by RNE (R214). -/
def roundF32 (x : Dyad) : Nat := (roundDyadic env0 .fp32 .rne 0 (x.m < 0) x.m.natAbs x.e).1

/-- A finite FP32 code's value; 0 for the others, which never get here. -/
def f32Dyad (c : Nat) : Dyad := ((Fmt.fp32.unpack c).dyad).getD ⟨0, 0⟩

/-- The FP32 code is finite. -/
def f32Finite (c : Nat) : Bool := ((Fmt.fp32.unpack c).dyad).isSome

/-- AMAX and TSTOP of R214. -/
def aMax : Nat := 0x3F7D70A4
/-- TSTOP of R214. -/
def tStop : Nat := 0x38D1B717

/-- m × 2^e × e^q, m positive and |q| at most 128, in units of 2^−p within one unit. -/
def expApprox (m : Nat) (e : Int) (q : Dyad) (p : Nat) : Int :=
  let w := p + guardBits + 400
  let qf := scaleInt q.m (q.e + (w : Int))
  let l : Int := ln2Fix w
  let n := qf / l
  let y : Int := expFix w (qf - n * l).toNat
  dropGuard (scaleInt (y * m) (n + e) / (2 ^ 400 : Nat))

/-- Whether m × 2^e × e^q lies above AMAX, q not 0 (R214). -/
def aboveMax (m : Nat) (e : Int) (q : Dyad) : List Nat → Bool
  | [] => Config.splatUnsettled 1 [m, e, q.m, q.e] % 2 == 1
  | p :: r =>
    let x := expApprox m e q p
    let b := f32Dyad aMax
    -- AMAX = b.m × 2^b.e with b.e negative; both sides in units of 2^(b.e − p)
    let lim : Int := b.m * (2 ^ p : Nat)
    let k : Int := (2 ^ (-b.e).toNat : Nat)
    if lim < (x - 1) * k then true else if (x + 1) * k < lim then false else aboveMax m e q r

/-- α of R214 as an FP32 code, and whether a was clamped to AMAX. -/
def splatAlpha (op q : Dyad) : Nat × Bool :=
  if op.m ≤ 0 then (0, false)
  else if q.m = 0 then (if op.lt (f32Dyad aMax) then (roundF32 op, false) else (aMax, true))
  else if q.lt ⟨-128, 0⟩ then (0, false)
  else if (Dyad.mk 128 0).lt q then (aMax, true)
  else
    let m := op.m.natAbs
    if aboveMax m op.e q sfnLadder then (aMax, true)
    else match settleOn env0 (expApprox m op.e q) sfnLadder with
      | some x => (x.1, false)
      | none => (Config.splatUnsettled 0 [op.m, op.e, q.m, q.e] % 2 ^ 32, false)

/-- RoundOnce of an FP32 element times e^q (R215, R399). -/
def timesExp (x : FVal) (q : Dyad) : FVal :=
  match x with
  | .fin n m e =>
    if m = 0 ∨ q.m = 0 then Fmt.fp32.unpack (roundDyadic env0 .fp32 .rne 0 n m e).1
    else
      let c := match settleOn env0 (expApprox m e q) sfnLadder with
        | some y => y.1
        | none => Config.splatUnsettled 2 [m, e, q.m, q.e] % 2 ^ 32
      if n then (Fmt.fp32.unpack c).negate else Fmt.fp32.unpack c
  | .nan .. => Fmt.fp32.unpack 0x7FC00000
  | y => y

/-- What a splat gives a pixel (R213, R214): dx, dy, q, α and its code, whether a was clamped, and Tn. -/
structure Splat where
  dx : Dyad
  dy : Dyad
  q : Dyad
  alpha : Dyad
  clamped : Bool
  tn : Nat

/-- The fields of a splat row at a key that must be finite (R213, R214): MX, MY, CA, CB, CC, OP. -/
def Grove.splatOk (g : Grove) (k : Nat) : Bool :=
  g.taNat (k + 40) 4 != 0xFFFFFFFF && (List.range 6).all fun n => f32Finite (g.taNat (k + 4 * n) 4)

/-- A splat against a pixel with transmittance t (R214): none when α is below 1/255. -/
def Grove.splatAt (g : Grove) (k px py t : Nat) : Option Splat :=
  let f := fun n => f32Dyad (g.taNat (k + 4 * n) 4)
  let dx := (f32Dyad px).sub (f 0)
  let dy := (f32Dyad py).sub (f 1)
  let two : Dyad := ⟨2, 0⟩
  let q := ((((f 2).mul (dx.mul dx)).add ((two.mul (f 3)).mul (dx.mul dy))).add ((f 4).mul (dy.mul dy))).neg.half
  let a := splatAlpha (f 5) q
  let al := f32Dyad a.1
  if ((⟨255, 0⟩ : Dyad).mul al).lt ⟨1, 0⟩ then none
  else some ⟨dx, dy, q, al, a.2, roundF32 ((f32Dyad t).mul ((⟨1, 0⟩ : Dyad).sub al))⟩

/-- Products added to columns of a row in one step: flags and terms by column (R128). -/
def AcRow.addTerms (step : Nat) (cols : List (Nat × List Nat × List Term)) (r : AcRow) : AcRow × Option Nat :=
  let r := r.found
  if r.poison then (r, none)
  else
    cols.foldl (fun (acc : AcRow × Option Nat) c =>
      let y := addStep .acw (acc.1.elem c.1) c.2.1 c.2.2
      let row := acc.1.setElem c.1 y.1
      if y.2 then ({ row with ovf := true }, some step) else (row, acc.2)) (r, none)

/-- A value added by AddStep: its flag and terms (R128, R399). -/
def stepValue (x : FVal) : Nat × List Term :=
  match x with
  | .nan .. => (3, [])
  | .inf n => (if n then 2 else 1, [])
  | .fin n m e => (0, [.fin n m e])

/-- MBLEND for one pixel and one splat (R214, R399). -/
def Grove.blendPixel (g : Grove) (q : Msq) (ts ks i : Nat) : Grove × Msq :=
  let p := q.psel
  let k := taKey p ts (256 * i)
  let t := g.taNat (k + 8) 4
  let nch := natBits q.mcs2.toNat 2 0
  if natBit (g.taNat (k + 20) 1) 0 || !(f32Finite (g.taNat k 4) && f32Finite (g.taNat (k + 4) 4) && f32Finite t) || !g.splatOk ks then (g, q)
  else
    match g.splatAt ks (g.taNat k 4) (g.taNat (k + 4) 4) t with
    | none => (g, q)
    | some x =>
      if (f32Dyad x.tn).lt (f32Dyad tStop) then
        (g.taWrite (k + 20) (leBytes 1 (g.taNat (k + 20) 1 ||| 1)), q)
      else
        let w := (x.alpha.mul (f32Dyad t)).toVal
        let cols := (List.range nch).map fun ch =>
          let c := Fmt.fp32.unpack (g.taNat (ks + 24 + 4 * ch) 4)
          (ch, [prodFlag c w], prodTerm c w)
        let y := ((g.acUnit p q.ac).row i).addTerms q.step cols
        let g' := (g.modAc p q.ac fun u => u.setRow i y.1).taWrite (k + 8) (leBytes 4 x.tn)
        let g' := if natBit q.mcs2.toNat 3 then
            g'.taWrite (k + 12) (g.taBytes (ks + 40) 4 ++ leBytes 4 (g.taNat (k + 16) 4 + 1)) else g'
        (g', match y.2 with
          | some st => { q with overflow := noteOverflow q.overflow st i }
          | none => q)

/-- One step of MBLEND: one splat against every pixel (R198, R214). -/
def Grove.mblendStep (g : Grove) (q : Msq) (ta ts : Nat) : Grove × Msq :=
  let p := q.psel
  let ks := taKey p ta (256 * q.step)
  let all := g.taRowPoisoned ks
  let g := g.spoilRows p q.ac fun i => all || g.taRowPoisoned (taKey p ts (256 * i))
  let r := (List.range 64).foldl (fun (x : Grove × Msq) i => x.1.blendPixel x.2 ts ks i) (g, q)
  (r.1, { r.2 with step := q.step + 1 })

/-- RoundOnce of a sum of products of elements (R215, R399). -/
def roundSum (srcs : List FVal) (terms : List Term) : FVal := Fmt.fp32.unpack (exactSum env0 .fp32 srcs terms).1

/-- RoundOnce of a product (R215, R399). -/
def roundProd (a b : FVal) : FVal := roundSum [a, b] (prodTerm a b)

/-- The code of a rounded sum of products: an exact 0 gives +0 (log 29), a nonzero sum that rounds to 0 a zero of its sign (R116, R118). -/
def roundSumCode (srcs : List FVal) (terms : List Term) : Nat :=
  let r := exactSum env0 .fp32 srcs terms
  if r.1 = 0x80000000 ∧ r.2 &&& flagUF = 0 then 0 else r.1

/-- RoundOnce of the sum over channels of G × (COL × TB − R / (1 − α)) (R215, R399): chans holds (G, COL, R). -/
def gradAlpha (tb alpha : Dyad) (chans : List (FVal × FVal × FVal)) : FVal :=
  let d := (⟨1, 0⟩ : Dyad).sub alpha
  -- each bracket times 1 − α, which is positive: COL × TB × (1 − α) − R
  let scale := (tb.mul d).toVal
  let inner := fun (c : FVal × FVal × FVal) =>
    match prodTerm c.2.1 scale, c.2.2 with
    | [.fin n m e], .fin n' m' e' => (((FVal.fin n m e).dyad.getD ⟨0, 0⟩).sub ((FVal.fin n' m' e').dyad.getD ⟨0, 0⟩)).toVal
    | [.fin _ _ _], .inf n => .inf (!n)
    | [.inf n], .fin _ _ _ => .inf n
    | [.inf n], .inf n' => if n = n' then .nan false false 0 0 else .inf n
    | _, _ => .nan false false 0 0
  let fs := chans.map fun c => (c.1, inner c)
  let flag := fs.foldl (fun a x => a ||| prodFlag x.1 x.2) 0
  if flag = 3 then .nan false false 0 0
  else if flag ≠ 0 then .inf (flag == 2)
  else
    let s := fs.foldl (fun (a : Dyad) x =>
      a.add (((x.1.dyad).getD ⟨0, 0⟩).mul ((x.2.dyad).getD ⟨0, 0⟩))) ⟨0, 0⟩
    let k := s.e - d.e
    Fmt.fp32.unpack (roundQ env0 .fp32 .rne 0 (s.m < 0) (s.m.natAbs * 2 ^ k.toNat) (d.m.natAbs * 2 ^ (-k).toNat)).1

/-- MBLENDB for one pixel and one splat: the grove, and what each column of the splat's row gains (R215, R399). -/
def Grove.backPixel (g : Grove) (q : Msq) (ts tg ks i : Nat) : Grove × List (Nat × FVal) :=
  let p := q.psel
  let k := taKey p ts (256 * i)
  let kg := taKey p tg (256 * i)
  let nch := natBits q.mcs2.toNat 2 0
  let tb := g.taNat kg 4
  let last := g.taNat (k + 12) 4
  let finish := fun (g : Grove) => g.taWrite (kg + 36) (leBytes 1 (g.taNat (kg + 36) 1 ||| 1))
  if natBit (g.taNat (kg + 36) 1) 0 || !(f32Finite (g.taNat k 4) && f32Finite (g.taNat (k + 4) 4) && f32Finite tb) then (g, [])
  else if last = 0xFFFFFFFF then (finish g, [])
  else if !g.splatOk ks then (g, [])
  else
    match g.splatAt ks (g.taNat k 4) (g.taNat (k + 4) 4) tb with
    | none => (g, [])
    | some x =>
      if (f32Dyad x.tn).lt (f32Dyad tStop) then (finish g, [])
      else
        let f := fun n => f32Dyad (g.taNat (ks + 4 * n) 4)
        let tbd := f32Dyad tb
        let w := (x.alpha.mul tbd).toVal
        let col := fun ch => Fmt.fp32.unpack (g.taNat (ks + 24 + 4 * ch) 4)
        let grad := fun ch => Fmt.fp32.unpack (g.taNat (kg + 4 + 4 * ch) 4)
        let restCode := fun ch =>
          let r := Fmt.fp32.unpack (g.taNat (kg + 20 + 4 * ch) 4)
          roundSumCode [r, col ch] (r.term ++ prodTerm (col ch).negate w)
        let rest := fun ch => Fmt.fp32.unpack (restCode ch)
        let ga := gradAlpha tbd x.alpha ((List.range nch).map fun ch => (grad ch, col ch, rest ch))
        let zero : FVal := .fin false 0 0
        let gq := if x.clamped then zero else roundProd ga x.alpha.toVal
        let go := if x.clamped then zero else timesExp ga x.q
        let outs := ((List.range nch).map fun ch => (ch, roundProd (grad ch) w)) ++
          [(4, go),
            (5, roundProd gq (((f 2).mul x.dx).add ((f 3).mul x.dy)).toVal),
            (6, roundProd gq (((f 3).mul x.dx).add ((f 4).mul x.dy)).toVal),
            (7, roundProd gq (x.dx.mul x.dx).half.neg.toVal),
            (8, roundProd gq (x.dx.mul x.dy).neg.toVal),
            (9, roundProd gq (x.dy.mul x.dy).half.neg.toVal)]
        let g' := g.taWrite kg (leBytes 4 x.tn)
        let g' := (List.range nch).foldl (fun (a : Grove) ch => a.taWrite (kg + 20 + 4 * ch) (leBytes 4 (restCode ch))) g'
        (if g.taNat (ks + 40) 4 = last then finish g' else g', outs)

/-- One step of MBLENDB: the gradients of one splat, one AddStep a pixel and column (R198, R215). -/
def Grove.mblendbStep (g : Grove) (q : Msq) (ta ts tg : Nat) : Grove × Msq :=
  let p := q.psel
  let ks := taKey p ta (256 * q.step)
  let all := (List.range 64).any fun i => g.taRowPoisoned (taKey p ts (256 * i)) || g.taRowPoisoned (taKey p tg (256 * i))
  let g := g.spoilRows p q.ac fun i => all || i == q.step && g.taRowPoisoned ks
  let r := (List.range 64).foldl (fun (x : Grove × Msq) i =>
    let b := x.1.backPixel x.2 ts tg ks i
    let y := ((b.1.acUnit p q.ac).row q.step).addTerms q.step (b.2.map fun e => (e.1, [(stepValue e.2).1], (stepValue e.2).2))
    (b.1.modAc p q.ac fun u => u.setRow q.step y.1,
      { x.2 with overflow := match y.2 with
        | some st => noteOverflow x.2.overflow st q.step
        | none => x.2.overflow })) (g, q)
  (r.1, { r.2 with step := q.step + 1 })

end Sys2Proof.Machine
end

