-- ==== Sys2Proof/Machine/Sequencer.lean ====
section
/-! DEFINITION. The sequencer at work: its chunks, the rows a command moves between tiles and memory, completion, and the delivery of pending traps (07 R161, R173-R176, 08 R178, R190, R194, R195). -/

namespace Sys2Proof.Machine

/-- Updates the command in flight. -/
def Grove.modMsq (g : Grove) (f : Msq → Msq) : Grove := { g with msq := g.msq.map f }

/-- A command goes on to its next step. -/
def Msq.next (m : Msq) : Msq := { m with step := m.step + 1 }

/-- A command ends early with a pending trap (R178). -/
def Msq.failed (x : PendTrap) (m : Msq) : Msq := { m with step := m.total, fault := some x }

/-- The base address of a command's S group. -/
def Msq.base (m : Msq) : Nat := groupAddr m.sregs

/-- The bytes and flags of row i of an MDRAIN (R190). -/
def Grove.drainRow (g : Grove) (m : Msq) (f : DrainFmt) (r : Rnd) (i : Nat) : List Byte × Nat :=
  let u := g.acUnit m.psel m.ac
  let seed := (m.sregs.getD 3 0).toNat
  let ys := (List.range 64).map fun j => drainElem m.fpc m.mcs0.toNat u.cls f r (rsrBits seed i j) ((u.row i).elem j)
  (ys.flatMap fun y => leBytes (drainSize f) y.1, ys.foldl (fun a y => a ||| dfOf y.2) 0)

/-- What row i of an MDRAIN or MSPILL writes: its address, its bytes, and the flags its row gains (R190, R194). -/
def Grove.rowOut (g : Grove) (m : Msq) (i : Nat) : Nat × List Byte × Nat :=
  match m.cmd with
  | .mdrain f r _ =>
    let x := g.drainRow m f r i
    ((m.base + i * (m.sregs.getD 2 0).toNat) % 2 ^ 64, x.1, x.2)
  | _ =>
    let u := g.acUnit m.psel m.ac
    ((m.base + i * rowBytes u.cls) % 2 ^ 64, (u.row i).found.image u.cls, 0)

/-- Up to n rows of an MDRAIN or MSPILL, each whole (R190): a row that is refused ends the command and gains no flags (log 50), a row that must wait leaves it where it is. -/
def State.rowsOut (s : State) (gid : Nat) (fab : FabIn) : Nat → State
  | 0 => s
  | n + 1 =>
    match s.grove? gid with
    | none => s
    | some g =>
      match g.msq with
      | none => s
      | some m =>
        if m.total ≤ m.step then s
        else
          let x := g.rowOut m m.step
          if s.loadWaits g m.start x.1 x.2.1.length then s
          else match s.unitStore (g.coreAgent m.psel fab) false x.1 x.2.1 with
          | .wait s => s
          | .fault c a => s.modGrove gid fun g => g.modMsq (Msq.failed ⟨c, m.ac, a, m.pc⟩)
          | .ok (s, _) =>
            (s.modGrove gid fun g =>
              (g.modAc m.psel m.ac fun u => u.setRow m.step { u.row m.step with df := (u.row m.step).df ||| x.2.2 }).modMsq
                Msq.next).rowsOut gid fab n

/-- The rows of an image of a class (R130): whole lines of a read, each byte with its poison; a poisoned byte poisons its row. -/
def rowsOfImage (c : TileClass) (bs : List (Byte × Bool)) : List AcRow :=
  (List.range 64).map fun i =>
    let part := (bs.drop (rowBytes c * i)).take (rowBytes c)
    let r := rowOfImage c (plainBytes part)
    if anyPoisoned part then r.spoil else r

/-- CLASS of the header of row i of an image whose rows have a class's size. -/
def headerClass (c : TileClass) (bs : List (Byte × Bool)) (i : Nat) : TileClass :=
  classOfBits (natBits (leNat (plainBytes ((bs.drop (rowBytes c * i)).take 1))) 3 2)

/-- Reads an image whole (R130, R131): its class, or none when a row has CLASS 00 or two rows differ, and its rows. -/
def State.readImage (s : State) (a : Agent) (base : Nat) : Acc (State × Option TileClass × List AcRow) :=
  (s.unitRead a 2 base 64).andThen fun (r : State × List (Byte × Bool)) =>
    let c := headerClass .acz r.2 0
    if c = .empty then .ok (r.1, none, [])
    else
      let n := 64 * rowBytes c
      (r.1.unitRead a (linesOf n) base n).andThen fun (q : State × List (Byte × Bool)) =>
        if (List.range 64).all fun i => headerClass c q.2 i == c then .ok (q.1, some c, rowsOfImage c q.2)
        else .ok (q.1, none, [])

/-- TVAL of GUARD_OVERFLOW (R173): the word address, the step and the row. -/
def guardTval (pc : Word) (step row : Nat) : Nat := pc.toNat + 2 ^ 32 * (step % 1024 + 1024 * row)

/-- A pending trap of TILE_STATE or ACC_CLASS (R178). -/
def Msq.classFault (m : Msq) (cause reason : Nat) : PendTrap := ⟨cause, reasonDetail reason m.ac, m.pc.toNat, m.pc⟩

/-- A pending GUARD_OVERFLOW (R173). -/
def Msq.guardFault (m : Msq) (step row : Nat) : PendTrap := ⟨0x0E, m.ac, guardTval m.pc step row, m.pc⟩

/-- MFILL once its image is read (R131, R194): the extent becomes a tile of the image's class, or the command fails. -/
def Grove.fillTile (g : Grove) (m : Msq) (c : Option TileClass) (rows : List AcRow) : Grove :=
  let fail := fun x => g.modMsq (Msq.failed x)
  match c with
  | none => fail (m.classFault 0x18 2)
  | some c =>
    match if c = .acz then lowestRow fun i => 2 ^ 20 < (rows.getD i AcRow.zero).count else none with
    | some i => fail (m.guardFault 0 i)
    | none =>
      if c = .acw ∧ m.ac ≠ 0 ∧ m.ac ≠ 5 then fail (m.classFault 0x17 2)
      else if g.extent m.psel m.ac c = .bad then fail (m.classFault 0x18 1)
      else
        ((g.makeTile m.psel m.ac c).modAc m.psel m.ac (AcUnit.mapRows fun i _ => rows.getD i AcRow.zero)).modMsq fun m =>
          { m with units := extentOf c m.ac }

/-- A row of an image added to a row of its class (R131): the row, and whether a sum left its range. -/
def AcRow.accumulate (c : TileClass) (img r : AcRow) : AcRow × Bool :=
  let r := r.found
  let r := { r with count := addCount c r.count img.count, ovf := r.ovf || img.ovf }
  if r.poison || img.poison then (r.spoil, false)
  else
    (List.range 64).foldl (fun (acc : AcRow × Bool) j =>
      let e := img.elem j
      let y := addStep c (acc.1.elem j) [e.2] [.fin (e.1 < 0) e.1.natAbs (accUnit c).1]
      ((acc.1.setElem j y.1), acc.2 || y.2)) (r, false)

/-- MACC once its image is read (R131, R194). -/
def Grove.accTile (g : Grove) (m : Msq) (c : Option TileClass) (rows : List AcRow) : Grove :=
  let fail := fun x => g.modMsq (Msq.failed x)
  let u := g.acUnit m.psel m.ac
  match c with
  | none => fail (m.classFault 0x18 2)
  | some c =>
    if c ≠ u.cls then fail (m.classFault 0x18 3)
    else
      match if c = .acz then lowestRow fun i => 2 ^ 20 < (rows.getD i AcRow.zero).count + (u.row i).count else none with
      | some i => fail (m.guardFault 0 i)
      | none =>
        let r := (List.range 64).foldl (fun (acc : AcUnit × Option (Nat × Nat)) i =>
          let y := (rows.getD i AcRow.zero).accumulate c (acc.1.row i)
          (acc.1.setRow i (if y.2 then { y.1 with ovf := true } else y.1), if y.2 then noteOverflow acc.2 0 i else acc.2)) (u, none)
        (g.setAcUnit m.psel m.ac r.1).modMsq fun m => { m with overflow := r.2 }

/-- MZERO (R195). -/
def Grove.zeroTile (g : Grove) (m : Msq) (l : TileClass) : Grove :=
  match l with
  | .empty => g.clearTile m.psel m.ac
  | c => g.makeTile m.psel m.ac c

/-- n steps of a rendering command. -/
def stepsOf (f : Grove → Msq → Grove × Msq) : Nat → Grove × Msq → Grove × Msq
  | 0, x => x
  | n + 1, x => if x.2.step < x.2.total then stepsOf f n (f x.1 x.2) else x

/-- Steps that touch only the grove's units: the grove and the command after them. -/
def Grove.unitSteps (g : Grove) (f : Grove → Msq → Grove × Msq) (m : Msq) : Grove :=
  let x := stepsOf f 16 (g, m)
  { x.1 with msq := some x.2 }

/-- A command whose steps after the first change nothing more: it does its work at once and then counts 16 steps. -/
def Msq.skip (m : Msq) : Msq := { m with step := min m.total (m.step + 16) }

/-- A chunk of MFILL or MACC: its image is read and checked before any row is written (R194). -/
def State.imageChunk (s : State) (g : Grove) (m : Msq) (fab : FabIn) (f : Grove → Option TileClass → List AcRow → Grove) : State :=
  if m.step ≠ 0 then s.modGrove g.id fun g => g.modMsq Msq.skip
  else if s.loadWaits g m.start m.base 331776 then s
  else
    match s.readImage (g.coreAgent m.psel fab) m.base with
    | .wait s => s
    | .fault c a => s.modGrove g.id fun g => g.modMsq (Msq.failed ⟨c, m.ac, a, m.pc⟩)
    | .ok (s, c, rows) => s.modGrove g.id fun g => (f g c rows).modMsq Msq.skip

/-- A load into a unit the command names, issued before it, is outstanding (R175, R187). -/
def Grove.awaitsLoad (g : Grove) (m : Msq) : Bool :=
  g.loads.any fun l => decide (l.id < m.start) && l.psel == m.psel &&
    (List.range ((l.size - 1) / (if l.weight then 131072 else 16384) + 1)).any fun k =>
      (if l.weight then m.wbs else m.tas).contains (l.unit + k)

/-- A command in flight can run its next chunk: it is not held, has steps left, and awaits no load (R175, R176). -/
def Grove.chunkReady (g : Grove) (m : Msq) : Bool := !m.held && decide (m.step < m.total) && !(m.step == 0 && g.awaitsLoad m)

/-- The array of a core, whose die's clock runs, takes its next chunk from this grove (R174, R383): of the groves with a command that can run there, the one whose slot comes first after the slot of the last chunk, wrapping. -/
def State.chunkTurn (s : State) (g : Grove) (m : Msq) : Bool :=
  let core := g.core + m.psel
  let last := (s.core core).lastMsq
  g.chunkReady m && s.clocked (dieOfCore core) && s.groves.all fun o =>
    match o.msq with
    | some n => !(o.core + n.psel == core && o.chunkReady n && decide (slotOrder last o.slot < slotOrder last g.slot))
    | none => true

/-- SEQUENCER_CHUNK: up to 16 steps of the command in flight whose turn it is, unless halt-in-place holds it (R161, R174, R176). -/
def execSequencerChunk (gid : Nat) (c : FabIn) (s : State) : Out :=
  .next (match s.grove? gid with
    | none => s
    | some g =>
      match g.msq with
      | none => s
      | some m =>
        if !s.chunkTurn g m then s
        else
          let s := s.modCore (g.core + m.psel) fun x => { x with lastMsq := g.slot }
          match m.cmd with
          | .mma f a l => s.modGrove gid fun g => g.unitSteps (fun g q => g.mmaStep f a l q) m
          | .medge v w => s.modGrove gid fun g => (g.medge m v w).modMsq Msq.skip
          | .mfilt t w x => s.modGrove gid fun g => g.unitSteps (fun g q => g.mfiltStep q t w x) m
          | .mblend t p => s.modGrove gid fun g => g.unitSteps (fun g q => g.mblendStep q t p) m
          | .mblendb t p u => s.modGrove gid fun g => g.unitSteps (fun g q => g.mblendbStep q t p u) m
          | .mdrain _ _ _ => s.rowsOut gid c 16
          | .mspill => s.rowsOut gid c 16
          | .mfill => s.imageChunk g m c fun g k rows => g.fillTile m k rows
          | .macc => s.imageChunk g m c fun g k rows => g.accTile m k rows
          | .mzero l => s.modGrove gid fun g => (g.zeroTile m l).modMsq Msq.skip)

/-- What the end of a command adds to its tile (R184, R190, R198). -/
def Grove.finishTile (g : Grove) (m : Msq) : Grove :=
  match m.cmd with
  | .mma f a _ => g.countRows m.psel m.ac (mmaProducts (mmaInfo f) a m.rank * guardUnits f)
  | .mfilt _ _ _ => g.countRows m.psel m.ac 64
  | .mblend _ _ => g.countRows m.psel m.ac 64
  | .mblendb _ _ _ => g.countRows m.psel m.ac 64
  | .mdrain _ _ clr => if clr && m.fault.isNone then g.clearTile m.psel m.ac else g
  | _ => g

/-- ARRAY_COMMAND_COMPLETE: the last step has ended; the holds are released and what the command found is pending (R173, R178, R184). -/
def execArrayCommandComplete (gid : Nat) (s : State) : Out :=
  .next (s.modGrove gid fun g =>
    match g.msq with
    | none => g
    | some m =>
      if m.step < m.total || m.held then g
      else
        let g := g.finishTile m
        { g with
          msq := none
          pending := g.pending ++ m.fault.toList ++ (m.overflow.map fun x => m.guardFault x.1 x.2).toList })

/-- PENDING_TRAP_DELIVERY: the front thread takes its oldest pending trap before the word it was about to issue, outside a handler (R173, R178). -/
def execPendingTrapDelivery (gid : Nat) (s : State) : Out :=
  .next (match s.grove? gid with
    | none => s
    | some g =>
      match g.pending with
      | [] => s
      | x :: r =>
        if g.front.ready && !g.front.th && s.mayRun g g.core then
          (s.modGrove gid fun g => { g with pending := r }).trapFront gid x.cause x.detail false (BitVec.ofNat 64 x.tval)
        else s)

end Sys2Proof.Machine
end

