-- ==== Sys2Proof/Machine/Uniform.lean ====
section
/-! DEFINITION. Class UA and the predicate words: uniform arithmetic of 15 R324, PSET and PMOV of 06 R147 and R148, and QPSET of 15 R325. -/

namespace Sys2Proof.Machine

/-- SADD (R324). -/
def execSadd (h : Hdr) (d : Fin 32) (a : UniA) (b : UniB) (s : State) : Out := uniBin h d a b (fun x y _ => x + y) s
/-- SSUB (R324). -/
def execSsub (h : Hdr) (d : Fin 32) (a : UniA) (b : UniB) (s : State) : Out := uniBin h d a b (fun x y _ => x - y) s
/-- SSUBR (R324). -/
def execSsubr (h : Hdr) (d : Fin 32) (a : UniA) (b : UniB) (s : State) : Out := uniBin h d a b (fun x y _ => y - x) s
/-- SMUL (R324). -/
def execSmul (h : Hdr) (d : Fin 32) (a : UniA) (b : UniB) (s : State) : Out := uniBin h d a b (fun x y _ => x * y) s
/-- SMULHI (R324). -/
def execSmulhi (h : Hdr) (d : Fin 32) (a : UniA) (b : UniB) (s : State) : Out :=
  uniBin h d a b (fun x y _ => hiWord (si x * si y)) s
/-- SNMULHI (R324). -/
def execSnmulhi (h : Hdr) (d : Fin 32) (a : UniA) (b : UniB) (s : State) : Out :=
  uniBin h d a b (fun x y _ => hiWord ((x.toNat * y.toNat : Nat) : Int)) s
/-- SMAD (R324). -/
def execSmad (h : Hdr) (d : Fin 32) (a : UniA) (b : UniB) (s : State) : Out := uniBin h d a b (fun x y z => x * y + z) s
/-- SMIN (R324). -/
def execSmin (h : Hdr) (d : Fin 32) (a : UniA) (b : UniB) (s : State) : Out :=
  uniBin h d a b (fun x y _ => if si y < si x then y else x) s
/-- SMAX (R324). -/
def execSmax (h : Hdr) (d : Fin 32) (a : UniA) (b : UniB) (s : State) : Out :=
  uniBin h d a b (fun x y _ => if si x < si y then y else x) s
/-- SNMIN (R324). -/
def execSnmin (h : Hdr) (d : Fin 32) (a : UniA) (b : UniB) (s : State) : Out :=
  uniBin h d a b (fun x y _ => if y < x then y else x) s
/-- SNMAX (R324). -/
def execSnmax (h : Hdr) (d : Fin 32) (a : UniA) (b : UniB) (s : State) : Out :=
  uniBin h d a b (fun x y _ => if x < y then y else x) s
/-- SAND (R324). -/
def execSand (h : Hdr) (d : Fin 32) (a : UniA) (b : UniB) (s : State) : Out := uniBin h d a b (fun x y _ => x &&& y) s
/-- SOR (R324). -/
def execSor (h : Hdr) (d : Fin 32) (a : UniA) (b : UniB) (s : State) : Out := uniBin h d a b (fun x y _ => x ||| y) s
/-- SXOR (R324). -/
def execSxor (h : Hdr) (d : Fin 32) (a : UniA) (b : UniB) (s : State) : Out := uniBin h d a b (fun x y _ => x ^^^ y) s
/-- SANDN (R324). -/
def execSandn (h : Hdr) (d : Fin 32) (a : UniA) (b : UniB) (s : State) : Out := uniBin h d a b (fun x y _ => x &&& ~~~y) s
/-- SSHL (R324). -/
def execSshl (h : Hdr) (d : Fin 32) (a : UniA) (b : UniB) (s : State) : Out := uniBin h d a b (fun x y _ => shlW y x) s
/-- SSHR (R324). -/
def execSshr (h : Hdr) (d : Fin 32) (a : UniA) (b : UniB) (s : State) : Out := uniBin h d a b (fun x y _ => shrW y x) s
/-- SSAR (R324). -/
def execSsar (h : Hdr) (d : Fin 32) (a : UniA) (b : UniB) (s : State) : Out := uniBin h d a b (fun x y _ => sarW y x) s
/-- SBFX (R324). -/
def execSbfx (h : Hdr) (d : Fin 32) (a : UniA) (b : UniB) (s : State) : Out := uniBin h d a b (fun x y _ => bfxW y x) s
/-- SBFI (R324). -/
def execSbfi (h : Hdr) (d : Fin 32) (a : UniA) (b : UniB) (s : State) : Out := uniBin h d a b (fun x y z => bfiW y x z) s
/-- SPOPC (R324). -/
def execSpopc (h : Hdr) (d : Fin 32) (b : UniB) (s : State) : Out := uniUn h d b popcW s
/-- SCLZ (R324). -/
def execSclz (h : Hdr) (d : Fin 32) (b : UniB) (s : State) : Out := uniUn h d b clzW s
/-- SMOV (R324). -/
def execSmov (h : Hdr) (d : Fin 32) (b : UniB) (s : State) : Out := uniUn h d b (fun x => x) s
/-- SADD64 (R324). -/
def execSadd64 (h : Hdr) (d : Fin 32) (a : UniA) (b : UniB) (s : State) : Out := uniBin64 h d a b (fun x y => x + y) s
/-- SSUB64 (R324). -/
def execSsub64 (h : Hdr) (d : Fin 32) (a : UniA) (b : UniB) (s : State) : Out := uniBin64 h d a b (fun x y => x - y) s
/-- SCMP (R324). -/
def execScmp (h : Hdr) (k : Fin 8) (c : UCond) (a : UniA) (b : UniB) (s : State) : Out :=
  uniPred h k a b (fun _ x y => (ucond c (si x) (si y), 0)) s
/-- SNCMP (R324). -/
def execSncmp (h : Hdr) (k : Fin 8) (c : UCond) (a : UniA) (b : UniB) (s : State) : Out :=
  uniPred h k a b (fun _ x y => (ucond c x.toNat y.toNat, 0)) s
/-- SFADD (R324). -/
def execSfadd (h : Hdr) (d : Fin 32) (a : UniA) (b : UniB) (s : State) : Out :=
  uniBinF h d a b (fun v x y _ => faddOp v .fp32 x y) s
/-- SFMUL (R324). -/
def execSfmul (h : Hdr) (d : Fin 32) (a : UniA) (b : UniB) (s : State) : Out :=
  uniBinF h d a b (fun v x y _ => fmulOp v .fp32 x y) s
/-- SFFMA (R324). -/
def execSffma (h : Hdr) (d : Fin 32) (a : UniA) (b : UniB) (s : State) : Out :=
  uniBinF h d a b (fun v x y z => ffmaOp v .fp32 false x y z) s
/-- SFCMP (R324). -/
def execSfcmp (h : Hdr) (k : Fin 8) (c : UCond) (a : UniA) (b : UniB) (s : State) : Out :=
  uniPred h k a b (fun v x y => fcmpOp v .fp32 (ucondF c) x.toNat y.toNat) s
/-- SCVT (R324): the conversion of B by code E. -/
def execScvt (h : Hdr) (d : Fin 32) (e : Fin 64) (b : UniB) (s : State) : Out :=
  uniPure (uShape h (.sp 0) b []) true
    (fun env t =>
      let r := convert (FEnv.ofFpc t.fpc) e.val (readUB env t b).toNat
      ⟨wr d.val (w32 r.1), r.2, none⟩) s
/-- SSEL (R324). -/
def execSsel (h : Hdr) (d : Fin 32) (a : UniA) (b : UniB) (s : State) : Out :=
  uniBin h d a b (fun x y z => if z ≠ 0 then x else y) s

/-- The combination PSET and QPSET make (R147). -/
def logicOp (o : LogicOp) (x y : Bool) : Bool :=
  match o with
  | .and => x && y
  | .or => x || y
  | .xor => x != y

/-- PSET (R147). -/
def execPset (h : Hdr) (k a b : Fin 8) (o : LogicOp) (m n : Bool) (s : State) : Out :=
  lanePure (wordShape h false 0 []) true
    (fun _ t => .of (wrP k.val (logicOp o (t.predSrc a.val != m) (t.predSrc b.val != n)))) s

/-- PMOV (R148). -/
def execPmov (h : Hdr) (mv : PmovArg) (s : State) : Out :=
  match mv with
  | .toPred v m =>
    lanePure (wordShape h false 0 (v1 v)) true
      (fun _ t => .of (((List.range 7).filter fun i => natBit m.val i).flatMap fun i =>
        wrP (i + 1) (natBit (t.reg v.val).toNat (i + 1)))) s
  | .fromPred v =>
    lanePure (wordShape h false 0 (v1 v)) true
      (fun _ t => .of (wr v.val (w32 ((List.range 7).foldl (fun x i => x + 2 ^ (i + 1) * b2n (t.predSrc (i + 1))) 0)))) s

/-- QPSET (R325). -/
def execQpset (h : Hdr) (k a b : Fin 8) (o : LogicOp) (m n : Bool) (s : State) : Out :=
  uniPure (wordShape h false 0 []) true
    (fun _ t => .of (wrP k.val (logicOp o (t.predSrc a.val != m) (t.predSrc b.val != n)))) s

end Sys2Proof.Machine
end

