-- ==== Sys2Proof/Machine/Dispatch.lean ====
section
/-! DEFINITION. One arm for each constructor of Instr: the meaning of the instruction. -/

namespace Sys2Proof.Machine

/-- The meaning of an instruction in a state. -/
def exec (i : Instr) (s : State) : Host.Outcome State Fault Refusal :=
  match i with
  | .cmdNop q => Sys2Proof.Machine.execCmdNop q s
  | .launch q => Sys2Proof.Machine.execLaunch q s
  | .waitev q => Sys2Proof.Machine.execWaitev q s
  | .waitevSatisfied q => Sys2Proof.Machine.execWaitevSatisfied q s
  | .signal q => Sys2Proof.Machine.execSignal q s
  | .qcfgWrite q v => Sys2Proof.Machine.execQcfgWrite q v s
  | .qstatResume q => Sys2Proof.Machine.execQstatResume q s
  | .queueTailWrite q v => Sys2Proof.Machine.execQueueTailWrite q v s
  | .registerWrite w v => Sys2Proof.Machine.execRegisterWrite w v s
  | .groveDispatch l core slot rerun => Sys2Proof.Machine.execGroveDispatch l core slot rerun s
  | .cogridDispatch l places => Sys2Proof.Machine.execCogridDispatch l places s
  | .nodeGroveDispatch r core slot => Sys2Proof.Machine.execNodeGroveDispatch r core slot s
  | .contqFallback r => Sys2Proof.Machine.execContqFallback r s
  | .coreHandover core => Sys2Proof.Machine.execCoreHandover core s
  | .groveRetire gid => Sys2Proof.Machine.execGroveRetire gid s
  | .segmentCommit gid who => Sys2Proof.Machine.execSegmentCommit gid who s
  | .loadAtHome id => Sys2Proof.Machine.execLoadAtHome id s
  | .loadReturn id data fate => Sys2Proof.Machine.execLoadReturn id data fate s
  | .storeArrival id fate => Sys2Proof.Machine.execStoreArrival id fate s
  | .atomicAtHome id => Sys2Proof.Machine.execAtomicAtHome id s
  | .clusterJunctionRelease cluster store => Sys2Proof.Machine.execClusterJunctionRelease cluster store s
  | .engineLineWrite cmd c => Sys2Proof.Machine.execEngineLineWrite cmd c s
  | .serialTokenGrant gid tid => Sys2Proof.Machine.execSerialTokenGrant gid tid s
  | .txnLineUnlock line => Sys2Proof.Machine.execTxnLineUnlock line s
  | .txnCommitComplete gid tid => Sys2Proof.Machine.execTxnCommitComplete gid tid s
  | .snpData line => Sys2Proof.Machine.execSnpData line s
  | .snpInv line => Sys2Proof.Machine.execSnpInv line s
  | .snpCur line => Sys2Proof.Machine.execSnpCur line s
  | .snoopResponse line => Sys2Proof.Machine.execSnoopResponse line s
  | .hubEviction line => Sys2Proof.Machine.execHubEviction line s
  | .hostMemRead die off keep => Sys2Proof.Machine.execHostMemRead die off keep s
  | .hostMemWrite die off data => Sys2Proof.Machine.execHostMemWrite die off data s
  | .biRspI line wb => Sys2Proof.Machine.execBiRspI line wb s
  | .peerAccessArrival dev ctx off op => Sys2Proof.Machine.execPeerAccessArrival dev ctx off op s
  | .peerStoreAck id => Sys2Proof.Machine.execPeerStoreAck id s
  | .gatheringComplete gid tid => Sys2Proof.Machine.execGatheringComplete gid tid s
  | .barrierTimeout gid who => Sys2Proof.Machine.execBarrierTimeout gid who s
  | .replayWaitTimeout gid who => Sys2Proof.Machine.execReplayWaitTimeout gid who s
  | .sstepRelease gid => Sys2Proof.Machine.execSstepRelease gid s
  | .seedbedTimerExpiry gid bed => Sys2Proof.Machine.execSeedbedTimerExpiry gid bed s
  | .seedlingStandLaunch gid bed entry => Sys2Proof.Machine.execSeedlingStandLaunch gid bed entry s
  | .bteRayDone ray c => Sys2Proof.Machine.execBteRayDone ray c s
  | .beamComplete beam c => Sys2Proof.Machine.execBeamComplete beam c s
  | .atlasRequestComplete beam c => Sys2Proof.Machine.execAtlasRequestComplete beam c s
  | .sequencerChunk gid c => Sys2Proof.Machine.execSequencerChunk gid c s
  | .arrayCommandComplete gid => Sys2Proof.Machine.execArrayCommandComplete gid s
  | .loaderSlot gid id c => Sys2Proof.Machine.execLoaderSlot gid id c s
  | .tileLoadComplete gid id => Sys2Proof.Machine.execTileLoadComplete gid id s
  | .pendingTrapDelivery gid => Sys2Proof.Machine.execPendingTrapDelivery gid s
  | .engineCommandComplete cmd => Sys2Proof.Machine.execEngineCommandComplete cmd s
  | .collTimeout cmd => Sys2Proof.Machine.execCollTimeout cmd s
  | .timewaitDeadline gid => Sys2Proof.Machine.execTimewaitDeadline gid s
  | .pginvComplete id => Sys2Proof.Machine.execPginvComplete id s
  | .dfactRelease die idx => Sys2Proof.Machine.execDfactRelease die idx s
  | .dfactKill die idx => Sys2Proof.Machine.execDfactKill die idx s
  | .haltInPlaceRequest ctx => Sys2Proof.Machine.execHaltInPlaceRequest ctx s
  | .haltReport ctx core => Sys2Proof.Machine.execHaltReport ctx core s
  | .contextResume ctx => Sys2Proof.Machine.execContextResume ctx s
  | .contextSwitch w => Sys2Proof.Machine.execContextSwitch w s
  | .drainWatchdog ctx => Sys2Proof.Machine.execDrainWatchdog ctx s
  | .temporalSliceExpiry cluster => Sys2Proof.Machine.execTemporalSliceExpiry cluster s
  | .clusterGrant cluster ctx => Sys2Proof.Machine.execClusterGrant cluster ctx s
  | .ctxcfgEnable ctx v => Sys2Proof.Machine.execCtxcfgEnable ctx v s
  | .ctxcfgEnd ctx v => Sys2Proof.Machine.execCtxcfgEnd ctx v s
  | .powerOn b => Sys2Proof.Machine.execPowerOn b s
  | .deviceReset b => Sys2Proof.Machine.execDeviceReset b s
  | .cxlHotReset b => Sys2Proof.Machine.execCxlHotReset b s
  | .freqreqWrite die v => Sys2Proof.Machine.execFreqreqWrite die v s
  | .frequencyStep die => Sys2Proof.Machine.execFrequencyStep die s
  | .relockEnd die => Sys2Proof.Machine.execRelockEnd die s
  | .powerLimitAction die code => Sys2Proof.Machine.execPowerLimitAction die code s
  | .carveWrite die v => Sys2Proof.Machine.execCarveWrite die v s
  | .snapstatFree => Sys2Proof.Machine.execSnapstatFree s
  | .snapshotExternal => Sys2Proof.Machine.execSnapshotExternal s
  | .mailboxAttest => Sys2Proof.Machine.execMailboxAttest s
  | .mailboxExtend k => Sys2Proof.Machine.execMailboxExtend k s
  | .attestAnswerReady => Sys2Proof.Machine.execAttestAnswerReady s
  | .scrubPass key => Sys2Proof.Machine.execScrubPass key s
  | .spareLaneTestDone core r => Sys2Proof.Machine.execSpareLaneTestDone core r s
  | .supplySag cluster level => Sys2Proof.Machine.execSupplySag cluster level s
  | .sagLevelLower cluster => Sys2Proof.Machine.execSagLevelLower cluster s
  | .uncorrectableError e => Sys2Proof.Machine.execUncorrectableError e s
  | .hbmStackFailure die stack => Sys2Proof.Machine.execHbmStackFailure die stack s
  | .linkFailure link => Sys2Proof.Machine.execLinkFailure link s
  | .dieUnresponsive die => Sys2Proof.Machine.execDieUnresponsive die s
  | .verifyCompare l tag => Sys2Proof.Machine.execVerifyCompare l tag s
  | .releasePerformed gid who => Sys2Proof.Machine.execReleasePerformed gid who s
  | .cxlCacheResponse line data => Sys2Proof.Machine.execCxlCacheResponse line data s
  | .expanderFailure port => Sys2Proof.Machine.execExpanderFailure port s
  | .iadd h d a b => Sys2Proof.Machine.execIadd h d a b s
  | .isub h d a b => Sys2Proof.Machine.execIsub h d a b s
  | .isubr h d a b => Sys2Proof.Machine.execIsubr h d a b s
  | .imul h d a b => Sys2Proof.Machine.execImul h d a b s
  | .imulhi h d a b => Sys2Proof.Machine.execImulhi h d a b s
  | .nmulhi h d a b => Sys2Proof.Machine.execNmulhi h d a b s
  | .imad h d a b => Sys2Proof.Machine.execImad h d a b s
  | .imin h d a b => Sys2Proof.Machine.execImin h d a b s
  | .imax h d a b => Sys2Proof.Machine.execImax h d a b s
  | .nmin h d a b => Sys2Proof.Machine.execNmin h d a b s
  | .nmax h d a b => Sys2Proof.Machine.execNmax h d a b s
  | .iabs h d a => Sys2Proof.Machine.execIabs h d a s
  | .and h d a b => Sys2Proof.Machine.execAnd h d a b s
  | .or h d a b => Sys2Proof.Machine.execOr h d a b s
  | .xor h d a b => Sys2Proof.Machine.execXor h d a b s
  | .andn h d a b => Sys2Proof.Machine.execAndn h d a b s
  | .shl h d a b => Sys2Proof.Machine.execShl h d a b s
  | .shr h d a b => Sys2Proof.Machine.execShr h d a b s
  | .sar h d a b => Sys2Proof.Machine.execSar h d a b s
  | .rotl h d a b => Sys2Proof.Machine.execRotl h d a b s
  | .bfx h d a b => Sys2Proof.Machine.execBfx h d a b s
  | .bfxs h d a b => Sys2Proof.Machine.execBfxs h d a b s
  | .bfi h d a b => Sys2Proof.Machine.execBfi h d a b s
  | .popc h d a => Sys2Proof.Machine.execPopc h d a s
  | .clz h d a => Sys2Proof.Machine.execClz h d a s
  | .ctz h d a => Sys2Proof.Machine.execCtz h d a s
  | .brev h d a => Sys2Proof.Machine.execBrev h d a s
  | .iadd64 h d a b => Sys2Proof.Machine.execIadd64 h d a b s
  | .isub64 h d a b => Sys2Proof.Machine.execIsub64 h d a b s
  | .imul64 h d a b => Sys2Proof.Machine.execImul64 h d a b s
  | .shl64 h d a b => Sys2Proof.Machine.execShl64 h d a b s
  | .shr64 h d a b => Sys2Proof.Machine.execShr64 h d a b s
  | .icmp h k c a b => Sys2Proof.Machine.execIcmp h k c a b s
  | .ncmp h k c a b => Sys2Proof.Machine.execNcmp h k c a b s
  | .mov h d a => Sys2Proof.Machine.execMov h d a s
  | .mov64 h d a => Sys2Proof.Machine.execMov64 h d a s
  | .iadds h d a b => Sys2Proof.Machine.execIadds h d a b s
  | .isubs h d a b => Sys2Proof.Machine.execIsubs h d a b s
  | .dot4i h d a b => Sys2Proof.Machine.execDot4i h d a b s
  | .dot4n h d a b => Sys2Proof.Machine.execDot4n h d a b s
  | .pack h d a b => Sys2Proof.Machine.execPack h d a b s
  | .permb h d a b => Sys2Proof.Machine.execPermb h d a b s
  | .xswz h d a b => Sys2Proof.Machine.execXswz h d a b s
  | .fadd h d a b => Sys2Proof.Machine.execFadd h d a b s
  | .fsub h d a b => Sys2Proof.Machine.execFsub h d a b s
  | .fmul h d a b => Sys2Proof.Machine.execFmul h d a b s
  | .ffma h d a b => Sys2Proof.Machine.execFfma h d a b s
  | .ffms h d a b => Sys2Proof.Machine.execFfms h d a b s
  | .fmin h d a b => Sys2Proof.Machine.execFmin h d a b s
  | .fmax h d a b => Sys2Proof.Machine.execFmax h d a b s
  | .fminn h d a b => Sys2Proof.Machine.execFminn h d a b s
  | .fmaxn h d a b => Sys2Proof.Machine.execFmaxn h d a b s
  | .fabs h d a => Sys2Proof.Machine.execFabs h d a s
  | .fneg h d a => Sys2Proof.Machine.execFneg h d a s
  | .fcmp h k c a b => Sys2Proof.Machine.execFcmp h k c a b s
  | .fclass h d a => Sys2Proof.Machine.execFclass h d a s
  | .frnd h d a e => Sys2Proof.Machine.execFrnd h d a e s
  | .fldexp h d a b => Sys2Proof.Machine.execFldexp h d a b s
  | .ffract h d a => Sys2Proof.Machine.execFfract h d a s
  | .hadd2 h d a b => Sys2Proof.Machine.execHadd2 h d a b s
  | .hmul2 h d a b => Sys2Proof.Machine.execHmul2 h d a b s
  | .hfma2 h d a b => Sys2Proof.Machine.execHfma2 h d a b s
  | .hmin2 h d a b => Sys2Proof.Machine.execHmin2 h d a b s
  | .hmax2 h d a b => Sys2Proof.Machine.execHmax2 h d a b s
  | .badd2 h d a b => Sys2Proof.Machine.execBadd2 h d a b s
  | .bmul2 h d a b => Sys2Proof.Machine.execBmul2 h d a b s
  | .bfma2 h d a b => Sys2Proof.Machine.execBfma2 h d a b s
  | .hcmp2 h k c a b => Sys2Proof.Machine.execHcmp2 h k c a b s
  | .cvt h d a e => Sys2Proof.Machine.execCvt h d a e s
  | .cvtq h d a e => Sys2Proof.Machine.execCvtq h d a e s
  | .sfn h d a e => Sys2Proof.Machine.execSfn h d a e s
  | .fdot2 h d a b => Sys2Proof.Machine.execFdot2 h d a b s
  | .hdot2 h d a b => Sys2Proof.Machine.execHdot2 h d a b s
  | .qdot4 h d a b => Sys2Proof.Machine.execQdot4 h d a b s
  | .fsat h d a => Sys2Proof.Machine.execFsat h d a s
  | .lds h d a w f => Sys2Proof.Machine.execLds h d a w f s
  | .lds2 h d a w f => Sys2Proof.Machine.execLds2 h d a w f s
  | .lds4 h d a w f => Sys2Proof.Machine.execLds4 h d a w f s
  | .sts h d a w f => Sys2Proof.Machine.execSts h d a w f s
  | .sts2 h d a w f => Sys2Proof.Machine.execSts2 h d a w f s
  | .sts4 h d a w f => Sys2Proof.Machine.execSts4 h d a w f s
  | .ldg h d a p r t => Sys2Proof.Machine.execLdg h d a p r t s
  | .ldg2 h d a p r t => Sys2Proof.Machine.execLdg2 h d a p r t s
  | .ldg4 h d a p r t => Sys2Proof.Machine.execLdg4 h d a p r t s
  | .stg h d a p r t => Sys2Proof.Machine.execStg h d a p r t s
  | .stg2 h d a p r t => Sys2Proof.Machine.execStg2 h d a p r t s
  | .stg4 h d a p r t => Sys2Proof.Machine.execStg4 h d a p r t s
  | .ats h d a w u => Sys2Proof.Machine.execAts h d a w u s
  | .atg h d a p r u => Sys2Proof.Machine.execAtg h d a p r u s
  | .atgx h d a p r u => Sys2Proof.Machine.execAtgx h d a p r u s
  | .prf h a t => Sys2Proof.Machine.execPrf h a t s
  | .nop h => Sys2Proof.Machine.execNop h s
  | .bra h o => Sys2Proof.Machine.execBra h o s
  | .brx h b => Sys2Proof.Machine.execBrx h b s
  | .call h o => Sys2Proof.Machine.execCall h o s
  | .callx h b => Sys2Proof.Machine.execCallx h b s
  | .ret h => Sys2Proof.Machine.execRet h s
  | .exit h => Sys2Proof.Machine.execExit h s
  | .loop h l n b => Sys2Proof.Machine.execLoop h l n b s
  | .loopi h l n c => Sys2Proof.Machine.execLoopi h l n c s
  | .lbrk h => Sys2Proof.Machine.execLbrk h s
  | .spawn h e a => Sys2Proof.Machine.execSpawn h e a s
  | .spawng h a d n => Sys2Proof.Machine.execSpawng h a d n s
  | .yield h => Sys2Proof.Machine.execYield h s
  | .trace h r c p y => Sys2Proof.Machine.execTrace h r c p y s
  | .dqpop h d => Sys2Proof.Machine.execDqpop h d s
  | .getsr h d r w => Sys2Proof.Machine.execGetsr h d r w s
  | .bar h j => Sys2Proof.Machine.execBar h j s
  | .bara h j => Sys2Proof.Machine.execBara h j s
  | .barw h j p => Sys2Proof.Machine.execBarw h j p s
  | .gbar h => Sys2Proof.Machine.execGbar h s
  | .fence h p r => Sys2Proof.Machine.execFence h p r s
  | .mset h m => Sys2Proof.Machine.execMset h m s
  | .syncm h => Sys2Proof.Machine.execSyncm h s
  | .shfl h d c b => Sys2Proof.Machine.execShfl h d c b s
  | .shflx h d c b => Sys2Proof.Machine.execShflx h d c b s
  | .shflu h d c b => Sys2Proof.Machine.execShflu h d c b s
  | .shfld h d c b => Sys2Proof.Machine.execShfld h d c b s
  | .vote h k q n f => Sys2Proof.Machine.execVote h k q n f s
  | .ballot h d q n => Sys2Proof.Machine.execBallot h d q n s
  | .sred h d f b => Sys2Proof.Machine.execSred h d f b s
  | .sscan h d f x b => Sys2Proof.Machine.execSscan h d f x b s
  | .cmmab h e a b t => Sys2Proof.Machine.execCmmab h e a b t s
  | .cmmaq h e a b t => Sys2Proof.Machine.execCmmaq h e a b t s
  | .tstore h b t c n => Sys2Proof.Machine.execTstore h b t c n s
  | .tdrain h d c sel => Sys2Proof.Machine.execTdrain h d c sel s
  | .pset h k a b o m n => Sys2Proof.Machine.execPset h k a b o m n s
  | .pmov h mv => Sys2Proof.Machine.execPmov h mv s
  | .tbegin h o => Sys2Proof.Machine.execTbegin h o s
  | .tend h => Sys2Proof.Machine.execTend h s
  | .tabort h c => Sys2Proof.Machine.execTabort h c s
  | .trap h c => Sys2Proof.Machine.execTrap h c s
  | .eretLane h => Sys2Proof.Machine.execEretLane h s
  | .bpt h c => Sys2Proof.Machine.execBpt h c s
  | .qhop h d a b => Sys2Proof.Machine.execQhop h d a b s
  | .sadd h d a b => Sys2Proof.Machine.execSadd h d a b s
  | .ssub h d a b => Sys2Proof.Machine.execSsub h d a b s
  | .ssubr h d a b => Sys2Proof.Machine.execSsubr h d a b s
  | .smul h d a b => Sys2Proof.Machine.execSmul h d a b s
  | .smulhi h d a b => Sys2Proof.Machine.execSmulhi h d a b s
  | .snmulhi h d a b => Sys2Proof.Machine.execSnmulhi h d a b s
  | .smad h d a b => Sys2Proof.Machine.execSmad h d a b s
  | .smin h d a b => Sys2Proof.Machine.execSmin h d a b s
  | .smax h d a b => Sys2Proof.Machine.execSmax h d a b s
  | .snmin h d a b => Sys2Proof.Machine.execSnmin h d a b s
  | .snmax h d a b => Sys2Proof.Machine.execSnmax h d a b s
  | .sand h d a b => Sys2Proof.Machine.execSand h d a b s
  | .sor h d a b => Sys2Proof.Machine.execSor h d a b s
  | .sxor h d a b => Sys2Proof.Machine.execSxor h d a b s
  | .sandn h d a b => Sys2Proof.Machine.execSandn h d a b s
  | .sshl h d a b => Sys2Proof.Machine.execSshl h d a b s
  | .sshr h d a b => Sys2Proof.Machine.execSshr h d a b s
  | .ssar h d a b => Sys2Proof.Machine.execSsar h d a b s
  | .sbfx h d a b => Sys2Proof.Machine.execSbfx h d a b s
  | .sbfi h d a b => Sys2Proof.Machine.execSbfi h d a b s
  | .spopc h d b => Sys2Proof.Machine.execSpopc h d b s
  | .sclz h d b => Sys2Proof.Machine.execSclz h d b s
  | .smov h d b => Sys2Proof.Machine.execSmov h d b s
  | .sadd64 h d a b => Sys2Proof.Machine.execSadd64 h d a b s
  | .ssub64 h d a b => Sys2Proof.Machine.execSsub64 h d a b s
  | .scmp h k c a b => Sys2Proof.Machine.execScmp h k c a b s
  | .sncmp h k c a b => Sys2Proof.Machine.execSncmp h k c a b s
  | .sfadd h d a b => Sys2Proof.Machine.execSfadd h d a b s
  | .sfmul h d a b => Sys2Proof.Machine.execSfmul h d a b s
  | .sffma h d a b => Sys2Proof.Machine.execSffma h d a b s
  | .sfcmp h k c a b => Sys2Proof.Machine.execSfcmp h k c a b s
  | .scvt h d e b => Sys2Proof.Machine.execScvt h d e b s
  | .ssel h d a b => Sys2Proof.Machine.execSsel h d a b s
  | .sldg h d a p r f => Sys2Proof.Machine.execSldg h d a p r f s
  | .sldg2 h d a p r f => Sys2Proof.Machine.execSldg2 h d a p r f s
  | .sldg4 h d a p r f => Sys2Proof.Machine.execSldg4 h d a p r f s
  | .sstg h d a p r f => Sys2Proof.Machine.execSstg h d a p r f s
  | .sstg2 h d a p r f => Sys2Proof.Machine.execSstg2 h d a p r f s
  | .slds h d a w f => Sys2Proof.Machine.execSlds h d a w f s
  | .ssts h d a w f => Sys2Proof.Machine.execSsts h d a w f s
  | .satg h d a p r u => Sys2Proof.Machine.execSatg h d a p r u s
  | .sldk h d a f => Sys2Proof.Machine.execSldk h d a f s
  | .sprf h a f => Sys2Proof.Machine.execSprf h a f s
  | .mmaBf16 h m => Sys2Proof.Machine.execMmaBf16 h m s
  | .mmaFp16 h m => Sys2Proof.Machine.execMmaFp16 h m s
  | .mmaE4 h m => Sys2Proof.Machine.execMmaE4 h m s
  | .mmaE5 h m => Sys2Proof.Machine.execMmaE5 h m s
  | .mmaF6a h m => Sys2Proof.Machine.execMmaF6a h m s
  | .mmaF6b h m => Sys2Proof.Machine.execMmaF6b h m s
  | .mmaF4 h m => Sys2Proof.Machine.execMmaF4 h m s
  | .mmaMx4 h m t => Sys2Proof.Machine.execMmaMx4 h m t s
  | .mmaMx6a h m t => Sys2Proof.Machine.execMmaMx6a h m t s
  | .mmaMx8 h m t => Sys2Proof.Machine.execMmaMx8 h m t s
  | .mmaI8 h m => Sys2Proof.Machine.execMmaI8 h m s
  | .mmaI4 h m => Sys2Proof.Machine.execMmaI4 h m s
  | .mmaI8bf h m t => Sys2Proof.Machine.execMmaI8bf h m t s
  | .mmaI8e4 h m t => Sys2Proof.Machine.execMmaI8e4 h m t s
  | .mmaBfmx4 h m t => Sys2Proof.Machine.execMmaBfmx4 h m t s
  | .mmaE4bf h m t => Sys2Proof.Machine.execMmaE4bf h m t s
  | .medge h c v w => Sys2Proof.Machine.execMedge h c v w s
  | .mfilt h c t w x => Sys2Proof.Machine.execMfilt h c t w x s
  | .mblend h c t p => Sys2Proof.Machine.execMblend h c t p s
  | .mblendb h c t p q => Sys2Proof.Machine.execMblendb h c t p q s
  | .mdrain h c n f r x => Sys2Proof.Machine.execMdrain h c n f r x s
  | .mspill h c n => Sys2Proof.Machine.execMspill h c n s
  | .mfill h c n => Sys2Proof.Machine.execMfill h c n s
  | .macc h c n => Sys2Proof.Machine.execMacc h c n s
  | .mzero h c l => Sys2Proof.Machine.execMzero h c l s
  | .mwait h => Sys2Proof.Machine.execMwait h s
  | .mcfg h e b => Sys2Proof.Machine.execMcfg h e b s
  | .wload h w n k => Sys2Proof.Machine.execWload h w n k s
  | .tload h t m n => Sys2Proof.Machine.execTload h t m n s
  | .tcopy h d j p => Sys2Proof.Machine.execTcopy h d j p s
  | .tcopym h d j p => Sys2Proof.Machine.execTcopym h d j p s
  | .gather h d j p => Sys2Proof.Machine.execGather h d j p s
  | .scatter h d j p => Sys2Proof.Machine.execScatter h d j p s
  | .sortk h d j p => Sys2Proof.Machine.execSortk h d j p s
  | .route h d j p => Sys2Proof.Machine.execRoute h d j p s
  | .coll h d j p => Sys2Proof.Machine.execColl h d j p s
  | .cfence h => Sys2Proof.Machine.execCfence h s
  | .beamgo h d => Sys2Proof.Machine.execBeamgo h d s
  | .beamgoReq h d n => Sys2Proof.Machine.execBeamgoReq h d n s
  | .barnew h d c v => Sys2Proof.Machine.execBarnew h d c v s
  | .barfree h j => Sys2Proof.Machine.execBarfree h j s
  | .barexp h j b => Sys2Proof.Machine.execBarexp h j b s
  | .sbar h j w => Sys2Proof.Machine.execSbar h j w s
  | .sbara h j => Sys2Proof.Machine.execSbara h j s
  | .sstep h => Sys2Proof.Machine.execSstep h s
  | .dqpush h a => Sys2Proof.Machine.execDqpush h a s
  | .dqclose h => Sys2Proof.Machine.execDqclose h s
  | .snop h => Sys2Proof.Machine.execSnop h s
  | .sbra h o => Sys2Proof.Machine.execSbra h o s
  | .sbrx h b => Sys2Proof.Machine.execSbrx h b s
  | .scall h o => Sys2Proof.Machine.execScall h o s
  | .sret h => Sys2Proof.Machine.execSret h s
  | .sloop h l n b => Sys2Proof.Machine.execSloop h l n b s
  | .sloopi h l n c => Sys2Proof.Machine.execSloopi h l n c s
  | .slbrk h => Sys2Proof.Machine.execSlbrk h s
  | .sexit h => Sys2Proof.Machine.execSexit h s
  | .swaits h => Sys2Proof.Machine.execSwaits h s
  | .sfence h p r => Sys2Proof.Machine.execSfence h p r s
  | .syield h => Sys2Proof.Machine.execSyield h s
  | .sgetsr h d r w => Sys2Proof.Machine.execSgetsr h d r w s
  | .timewait h a x => Sys2Proof.Machine.execTimewait h a x s
  | .strap h c => Sys2Proof.Machine.execStrap h c s
  | .sbpt h c => Sys2Proof.Machine.execSbpt h c s
  | .eret h => Sys2Proof.Machine.execEret h s
  | .csrr h d a => Sys2Proof.Machine.execCsrr h d a s
  | .csrw h b a => Sys2Proof.Machine.execCsrw h b a s
  | .pginv h a z => Sys2Proof.Machine.execPginv h a z s
  | .halt h c => Sys2Proof.Machine.execHalt h c s
  | .snap h t => Sys2Proof.Machine.execSnap h t s
  | .logmark h a => Sys2Proof.Machine.execLogmark h a s
  | .digest h a => Sys2Proof.Machine.execDigest h a s
  | .sspawng h a d n => Sys2Proof.Machine.execSspawng h a d n s
  | .qpset h k a b o m n => Sys2Proof.Machine.execQpset h k a b o m n s

end Sys2Proof.Machine
end

