-- ==== Sys2Proof/Machine/Step.lean ====
section
/-! DEFINITION. One step of the device: the next turn of the schedule is taken (log 1), and where it issues a word or is an event of the device, that instruction runs. -/

namespace Sys2Proof.Machine

/-- Nothing is being issued any more. -/
def finish : Host.Outcome State Fault Refusal → Host.Outcome State Fault Refusal
  | .next s => .next { s with cur := .none }
  | .fault r => .fault r
  | .refused r => .refused r

/-- What a turn that issues comes to. -/
def stepIssue : IssueRes → Host.Outcome State Fault Refusal
  | .idle s => .next s
  | .run i s => finish (exec i s)

/-- One step: the clock advances, a stand or a front thread issues a word, or a device event happens. -/
noncomputable def step (s : State) : Host.Outcome State Fault Refusal :=
  match s.nextTurn with
  | (.tick n, s) => .next (s.tick n)
  | (.lane gid tid, s) => stepIssue (s.issueLane gid tid)
  | (.front gid, s) => stepIssue (s.issueFront gid)
  | (.event e, s) => if e.isWord then .next s else finish (exec e { s with cur := .none })

/-- The machine with the instruction whose bits are w placed where the next step fetches (log 11): context 0 enabled on die 0, one page of memory from physical address 0, a kernel image at 0x100000 holding the words, one grove of one width-16 strand, and its turn next. -/
def State.withFetchWord (s : State) (_nbits w : Nat) : State := s.placed w

end Sys2Proof.Machine
end

