-- ==== Sys2Proof/Safety.lean ====
section
/-! DEFINITION. The terms the claims use: what a safe step is, a thread as its open segment leaves it, and a stand or a front thread about to issue a word. -/

namespace Sys2Proof.Safety

open Sys2Proof.Machine

/-- The outcome is a next state: neither a fault nor a refusal. -/
def Completes (o : Host.Outcome State Fault Refusal) : Prop := ∃ t, o = .next t

/-- The next step of a state completes. -/
def StepsOn (s : State) : Prop := Completes (step s)

/-- A thread as its open segment leaves it once the segment has ended (R72, R86): results and special-register writes committed, control state taken. What it waits for and its stand are left out. -/
def ended (t : Thread) : Thread := { t.commitRegs with wait := .none, team := 0, stand := 0 }

/-- The value a V, S or predicate register holds once the thread's open segment has ended (R86); a predicate's as 0 or 1. -/
def due (t : Thread) (r : Reg) : Word := (ended t).arch r

/-- A thread keeps everything but registers, predicates, flags and its control state: FPC, trap and transaction registers, banks, ordinals, identity. -/
def KeepsRest (a b : Thread) : Prop :=
  ended b = { ended a with regs := (ended b).regs, preds := (ended b).preds, flg := (ended b).flg, ctl := (ended b).ctl }

/-- What a register holds after results are written over a thread's own (R86). -/
def dueAfter (t : Thread) (ws : List (Reg × Word)) (r : Reg) : Word := (ws.lookup r).getD (due t r)

/-- No write of FLG is pending in the thread's open segment (R72). -/
def NoFlgWrite (t : Thread) : Prop := ∀ x, t.seg = some x → ∀ y ∈ x.writes, y.sr ≠ 1

/-- What a word that writes registers and raises flags leaves in a thread that issues it: the results over what the registers were due to hold, the flags raised, and all else kept; a false guard leaves all as it was (R72, R83, R86). -/
def Wrote (h : Hdr) (o : Thread → WordOut) (u u' : Thread) : Prop :=
  u'.wait = .none ∧ KeepsRest u u' ∧ (∀ r, due u' r = if u.guard h then dueAfter u (o u).writes r else due u r) ∧
    ((o u).flags = 0 ∨ NoFlgWrite u → (ended u').flg = (ended u).flg ||| (if u.guard h then (o u).flags else 0))

/-- A stand of lane threads issues the word w with literal l (R31-R33): every thread of the stand issues it, none has stopped, and no two threads of the grove have one TID; they are one stand's, and none of the threads it has beside them has stopped or ended with nothing outstanding. -/
structure StandAt (s : State) (gid stand : Nat) (w l : Word) (g : Grove) : Prop where
  issues : s.cur = .lane gid stand w l
  resident : s.grove? gid = some g
  distinct : (g.lanes.map Thread.tid).Nodup
  member : ∃ u ∈ g.lanes, u.stand = stand
  whole : ∀ u ∈ g.lanes, u.stand = stand → u.issuing stand = true ∧ u.stopped = false
  team : ∀ u ∈ g.lanes, ∀ v ∈ g.lanes, u.stand = stand → v.stand = stand → u.team = v.team
  mates : ∀ u ∈ g.lanes, ∀ v ∈ g.lanes, u.stand = stand → v.stand ≠ stand → v.team = u.team → v.commitReady = false ∧ v.stopped = false

/-- A front thread issues the word w with literal l. -/
structure FrontAt (s : State) (gid : Nat) (w l : Word) (g : Grove) : Prop where
  issues : s.cur = .front gid w l
  resident : s.grove? gid = some g
  isFront : g.front.front = true
  running : (∀ x, g.front.seg = some x → x.fin = .running) ∧ g.front.stopped = false

/-- Everything but the groves is as before: memory, homes, queues, registers of contexts and the device, the hub. -/
def OnlyGroves (s t : State) : Prop := t = { s with groves := t.groves }

/-- Everything in a grove but its lane threads is as before: the front thread, the decision queue, barriers, scratchpad, tiles, accumulators. -/
def OnlyLanes (g g' : Grove) : Prop := g' = { g with lanes := g'.lanes }

/-- What a stand's word leaves when it acts on its own threads only: each thread of the stand as P says, and the rest of the device as it was. -/
def StandLeaves (s t : State) (gid stand : Nat) (g : Grove) (P : Thread → Thread → Prop) : Prop :=
  OnlyGroves s t ∧ (∀ j, j ≠ gid → t.grove? j = s.grove? j) ∧
    ∃ g', t.grove? gid = some g' ∧ OnlyLanes g g' ∧ g'.lanes.map Thread.tid = g.lanes.map Thread.tid ∧
      ∀ u ∈ g.lanes, ∃ u' ∈ g'.lanes, u'.tid = u.tid ∧ if u.stand = stand then P u u' else u' = u

/-- What a uniform word leaves when it acts on the front thread only: the front thread as P says, and the rest of the device as it was. -/
def FrontLeaves (s t : State) (gid : Nat) (g : Grove) (P : Thread → Thread → Prop) : Prop :=
  OnlyGroves s t ∧ (∀ j, j ≠ gid → t.grove? j = s.grove? j) ∧ ∃ u', t.grove? gid = some { g with front := u' } ∧ P g.front u'

/-- A thread that moves past a word: only its control state differs, once its segment has ended. -/
def Advanced (u u' : Thread) : Prop := ended u' = { ended u with ctl := (ended u').ctl }

/-- A stand issues a word with header h whose guard is true in the one thread u. -/
structure OneAt (s : State) (gid stand : Nat) (w l : Word) (g : Grove) (h : Hdr) (u : Thread) : Prop where
  at_ : StandAt s gid stand w l g
  member : u ∈ g.lanes
  inStand : u.stand = stand
  one : ∀ v ∈ g.lanes, v.stand = stand → (v.guard h = true ↔ v = u)

/-- Nothing that the words of an open segment have issued is outstanding, and what they leave is theirs (R86). -/
structure SegDone (x : Seg) : Prop where
  returned : x.returned = true
  checks : x.checks = []
  results : ∀ r ∈ x.results, r.idx < x.words
  writes : ∀ y ∈ x.writes, y.idx < x.words
  flags : ∀ y ∈ x.flags, y.1 < x.words

/-- A stand of the one thread u issues a word whose guard is true, and nothing the thread has issued before is outstanding. -/
structure AloneAt (s : State) (gid stand : Nat) (w l : Word) (g : Grove) (h : Hdr) (u : Thread) : Prop where
  at_ : StandAt s gid stand w l g
  member : u ∈ g.lanes
  inStand : u.stand = stand
  alone : ∀ v ∈ g.lanes, v.stand = stand ∨ v.team = u.team → v = u
  on : u.guard h = true
  done : ∀ x, u.seg = some x → SegDone x

/-- A front thread issues a word whose guard is true, and nothing it has issued before is outstanding. -/
structure FrontAloneAt (s : State) (gid : Nat) (w l : Word) (g : Grove) (h : Hdr) : Prop where
  at_ : FrontAt s gid w l g
  on : g.front.guard h = true
  done : ∀ x, g.front.seg = some x → SegDone x

/-- A grove with the lane thread of a TID replaced. -/
def withThread (g : Grove) (tid : Nat) (u' : Thread) : Grove := { g with lanes := g.lanes.map fun v => if v.tid = tid then u' else v }

/-- A thread has entered its trap handler (R65, R66, R315, R352): the trap registers, the bank exchanged, loop counters and frames saved, the mode, the mask and the PC; the return stack, FPC, FLG, predicates and other registers are as the segment left them. n is the V allocation; mask is TMASK of a lane thread. -/
structure Entered (n : Nat) (entry : Word) (cause detail : Nat) (decode : Bool) (pc : Word) (tval mask : DWord) (u u' : Thread) : Prop where
  tpc : u'.tpc = pc
  tcause : u'.tcause = BitVec.ofNat 32 (cause + (if u.front then 2 ^ 8 else 0) + (if decode then 2 ^ 9 else 0) + 2 ^ 16 * (detail % 2 ^ 16))
  tval : u'.tval = tval
  th : u'.th = true
  pc : u'.ctl.pc = entry
  frames : u'.ctl.frames = [] ∧ u'.bankFrames = u.ctl.frames
  counters : u'.bankLc = u.ctl.lc ∧ u'.ctl.lc = if u.front then u.bankLc else u.ctl.lc
  mask : u.front = false → u'.tmask = mask ∧ u'.bankMm = u.ctl.mm ∧ u'.ctl.mm = fixMm u.width u.lane mask
  stack : u'.ctl.hw = u.ctl.hw ∧ u'.ctl.spill = u.ctl.spill
  banked : ∀ k < 8, tabGet 0 u'.regs (bankFirst u.front n + k) = tabGet 0 u.bankRegs k ∧
    tabGet 0 u'.bankRegs k = due u (.gpr (bankFirst u.front n + k))
  unbanked : ∀ r, (∀ k < 8, r ≠ .gpr (bankFirst u.front n + k)) → u'.arch r = due u r
  kept : u'.fpc = (ended u).fpc ∧ u'.flg = (ended u).flg
  idle : u'.seg = none ∧ u'.wait = .none ∧ u'.life = u.life ∧ u'.tid = u.tid

/-- A word of a stand that acts in the one thread u leaves the state t: as r but for the groves, the word's grove as g' but for its lane threads, u as P says, the rest of the stand moved past the word, every other thread as in g', or, when it belongs to the same stand and the word has ended its wait, as its ended segment leaves it (R86). -/
def LaneDoes (r t : State) (gid stand : Nat) (g' : Grove) (u : Thread) (P : Thread → Prop) : Prop :=
  OnlyGroves r t ∧ (∀ j, j ≠ gid → t.grove? j = r.grove? j) ∧
    ∃ g'', t.grove? gid = some g'' ∧ OnlyLanes g' g'' ∧ g''.lanes.map Thread.tid = g'.lanes.map Thread.tid ∧
      ∀ v ∈ g'.lanes, ∃ v' ∈ g''.lanes, v'.tid = v.tid ∧
        if v.tid = u.tid then P v' else if v.stand = stand then Advanced v v'
        else v' = v ∨ (v.team = u.team ∧ v.commitReady = true ∧ v' = v.commitRegs)

/-- A uniform word leaves the state t: as r but for the groves, the word's grove as g' but for its front thread, which is as P says. -/
def FrontDoes (r t : State) (gid : Nat) (g' : Grove) (P : Thread → Prop) : Prop :=
  OnlyGroves r t ∧ (∀ j, j ≠ gid → t.grove? j = r.grove? j) ∧ ∃ u', t.grove? gid = some { g' with front := u' } ∧ P u'

/-- The threads that issue a stand's word. -/
def standOf (g : Grove) (n : Nat) : List Thread := g.lanes.filter (Thread.issuing n)

/-- A stand's word passes the decode checks 8 to 11 (R84). -/
def LaneDecodes (sh : Shape) (g : Grove) (stand : Nat) : Prop :=
  decodeCheck g.desc sh.needs sh.nvar ((((standOf g stand).head?).map Thread.used).getD 0) = none

/-- A uniform word passes the decode checks 8 to 11 (R84). -/
def FrontDecodes (sh : Shape) (g : Grove) : Prop := decodeCheck g.desc sh.needs sh.nvar g.front.used = none

/-- A row of a word table: the word's header, length, variable-latency results and named registers, and what it does in a thread. -/
structure WordRow where
  sh : Shape
  out : Env → Thread → WordOut

/-- A word of R132's forms that leaves one 32-bit result, a function of A, B and D as unsigned numbers. -/
def rowBin (h : Hdr) (d : Fin 64) (a : LaneA) (b : Fin 64) (f : Nat → Nat → Nat → Nat) : WordRow :=
  ⟨⟨h, lenA a, false, 0, v1 d ++ needA a ++ v1 b⟩, fun e t =>
    ⟨[(.gpr d.val, BitVec.ofNat 32 (f (readA e t a).toNat (t.reg b.val).toNat (t.reg d.val).toNat))], 0, none⟩⟩

/-- One that reads A only. -/
def rowUn (h : Hdr) (d : Fin 64) (a : LaneA) (f : Nat → Nat) : WordRow :=
  ⟨⟨h, lenA a, false, 0, v1 d ++ needA a⟩, fun e t => ⟨[(.gpr d.val, BitVec.ofNat 32 (f (readA e t a).toNat))], 0, none⟩⟩

/-- The halves of a 64-bit result in the pair from d. -/
def pairOf (d x : Nat) : List (Reg × Word) := [(.gpr d, BitVec.ofNat 32 x), (.gpr (d + 1), BitVec.ofNat 32 (x / 2 ^ 32))]

/-- A word of 64-bit A, B and D. -/
def rowBin64 (h : Hdr) (d : Fin 64) (a : LaneA) (b : Fin 64) (f : Nat → Nat → Nat) : WordRow :=
  ⟨⟨h, lenA a, false, 0, v2 d ++ needA64 a ++ v2 b⟩, fun e t =>
    ⟨pairOf d.val (f (readA64 e t a).toNat (t.pair b.val).toNat % 2 ^ 64), 0, none⟩⟩

/-- A word of a 32-bit A and 64-bit B and D. -/
def rowShift64 (h : Hdr) (d : Fin 64) (a : LaneA) (b : Fin 64) (f : Nat → Nat → Nat) : WordRow :=
  ⟨⟨h, lenA a, false, 0, v2 d ++ needA a ++ v2 b⟩, fun e t =>
    ⟨pairOf d.val (f (readA e t a).toNat (t.pair b.val).toNat % 2 ^ 64), 0, none⟩⟩

/-- A word that leaves a predicate. -/
def rowPred (h : Hdr) (k : Fin 8) (a : LaneA) (b : Fin 64) (f : Nat → Nat → Bool) : WordRow :=
  ⟨⟨h, lenA a, false, 0, needA a ++ v1 b⟩, fun e t =>
    ⟨[(.pred k.val, if f (readA e t a).toNat (t.reg b.val).toNat then 1 else 0)], 0, none⟩⟩

/-- A word that leaves a 32-bit result and flags. -/
def rowFlags (h : Hdr) (d : Fin 64) (a : LaneA) (b : Fin 64) (f : FEnv → Nat → Nat → Nat → Nat × Nat) : WordRow :=
  ⟨⟨h, lenA a, false, 0, v1 d ++ needA a ++ v1 b⟩, fun e t =>
    let r := f (FEnv.ofFpc t.fpc) (readA e t a).toNat (t.reg b.val).toNat (t.reg d.val).toNat
    ⟨[(.gpr d.val, BitVec.ofNat 32 r.1)], r.2, none⟩⟩

/-- One that reads A only, with n variable-latency results. -/
def rowFlagsUn (h : Hdr) (n : Nat) (d : Fin 64) (a : LaneA) (f : FEnv → Nat → Nat × Nat) : WordRow :=
  ⟨⟨h, lenA a, false, n, v1 d ++ needA a⟩, fun e t =>
    let r := f (FEnv.ofFpc t.fpc) (readA e t a).toNat
    ⟨[(.gpr d.val, BitVec.ofNat 32 r.1)], r.2, none⟩⟩

/-- SInt of 32 bits (R134). -/
def s32 (x : Nat) : Int := if x < 2 ^ 31 then x else (x : Int) - 2 ^ 32

/-- An integer modulo 2^32. -/
def wrap32 (x : Int) : Nat := (x % 2 ^ 32).toNat

/-- An exact sum clamped to −2^31 to 2^31 − 1; a clamp raises IS (R134). -/
def clampIS (x : Int) : Nat × Nat :=
  if x < -2 ^ 31 then (2 ^ 31, 32) else if x ≥ 2 ^ 31 then (2 ^ 31 - 1, 32) else (wrap32 x, 0)

/-- Byte i of a number. -/
def byteN (x i : Nat) : Nat := x / 2 ^ (8 * i) % 2 ^ 8

/-- Byte i as I8. -/
def byteI (x i : Nat) : Int := if byteN x i < 128 then byteN x i else (byteN x i : Int) - 256

/-- BFX's field of B that A names (R135). -/
def bfxN (a b : Nat) : Nat := b / 2 ^ (a % 32) % 2 ^ min (a / 2 ^ 8 % 2 ^ 6) (32 - a % 32)

/-- BFXS (R135). -/
def bfxsN (a b : Nat) : Nat :=
  let len := min (a / 2 ^ 8 % 2 ^ 6) (32 - a % 32)
  if 0 < len ∧ 2 ^ (len - 1) ≤ bfxN a b then wrap32 ((bfxN a b : Int) - 2 ^ len) else bfxN a b

/-- BFI (R135): the field of D that A names replaced by the low bits of B. -/
def bfiN (a b d : Nat) : Nat :=
  let pos := a % 32
  let len := min (a / 2 ^ 8 % 2 ^ 6) (32 - a % 32)
  d - d / 2 ^ pos % 2 ^ len * 2 ^ pos + b % 2 ^ len * 2 ^ pos

/-- Byte i of PERMB (R136). -/
def permbByte (a b i : Nat) : Nat :=
  let s := b / 2 ^ (4 * i) % 16
  if 8 ≤ s then 0 else if 4 ≤ s then (if 128 ≤ byteN a (s % 4) then 255 else 0) else byteN a (s % 4)

/-- XSWZ (R136). -/
def xswzN (a b : Nat) : Nat := if a % 8 = 0 then b else b ^^^ (b / 2 ^ (a % 8 + 6) % 8 * 16)

/-- A condition of R90 on integers. -/
def condI (c : ICond) (x y : Int) : Bool :=
  match c with
  | .eq => decide (x = y)
  | .ne => decide (x ≠ y)
  | .lt => decide (x < y)
  | .le => decide (x ≤ y)
  | .gt => decide (x > y)
  | .ge => decide (x ≥ y)

/-- The combination of PSET and QPSET (R147). -/
def logicN (o : LogicOp) (x y : Bool) : Bool :=
  match o with
  | .and => x && y
  | .or => x || y
  | .xor => xor x y

/-- A stand issues the word and it passes decode: it completes, and every thread of the stand gets what the row says. -/
def StandRun (i : Instr) (row : WordRow) : Prop :=
  ∀ (s : State) (gid stand : Nat) (w l : Word) (g : Grove), StandAt s gid stand w l g → LaneDecodes row.sh g stand →
    ∃ t, exec i s = .next t ∧ StandLeaves s t gid stand g (Wrote row.sh.h (row.out (s.env g)))

/-- A front thread issues the word and it passes decode: it completes, and the front thread gets what the row says. -/
def FrontRun (i : Instr) (row : WordRow) : Prop :=
  ∀ (s : State) (gid : Nat) (w l : Word) (g : Grove), FrontAt s gid w l g → FrontDecodes row.sh g →
    ∃ t, exec i s = .next t ∧ FrontLeaves s t gid g (Wrote row.sh.h (row.out (s.env g)))

/-- A uniform word that leaves one 32-bit result, a function of A, B and D. -/
def urowBin (h : Hdr) (d : Fin 32) (a : UniA) (b : UniB) (f : Nat → Nat → Nat → Nat) : WordRow :=
  ⟨⟨h, uniLen a b, false, 0, []⟩, fun e t =>
    ⟨[(.gpr d.val, BitVec.ofNat 32 (f (readUA e t a).toNat (readUB e t b).toNat (t.reg d.val).toNat))], 0, none⟩⟩

/-- One that reads B only. -/
def urowUn (h : Hdr) (d : Fin 32) (b : UniB) (f : Nat → Nat) : WordRow :=
  ⟨⟨h, uniLen (.sp 0) b, false, 0, []⟩, fun e t => ⟨[(.gpr d.val, BitVec.ofNat 32 (f (readUB e t b).toNat))], 0, none⟩⟩

/-- One of 64 bits. -/
def urowBin64 (h : Hdr) (d : Fin 32) (a : UniA) (b : UniB) (f : Nat → Nat → Nat) : WordRow :=
  ⟨⟨h, uniLen a b, false, 0, s2 d ++ needUA64 a ++ needUB64 b⟩, fun e t =>
    ⟨pairOf d.val (f (readUA64 e t a).toNat (readUB64 e t b).toNat % 2 ^ 64), 0, none⟩⟩

/-- One that leaves a predicate. -/
def urowPred (h : Hdr) (k : Fin 8) (a : UniA) (b : UniB) (f : FEnv → Nat → Nat → Bool × Nat) : WordRow :=
  ⟨⟨h, uniLen a b, false, 0, []⟩, fun e t =>
    let r := f (FEnv.ofFpc t.fpc) (readUA e t a).toNat (readUB e t b).toNat
    ⟨[(.pred k.val, if r.1 then 1 else 0)], r.2, none⟩⟩

/-- One that leaves a 32-bit result and flags. -/
def urowFlags (h : Hdr) (d : Fin 32) (a : UniA) (b : UniB) (f : FEnv → Nat → Nat → Nat → Nat × Nat) : WordRow :=
  ⟨⟨h, uniLen a b, false, 0, []⟩, fun e t =>
    let r := f (FEnv.ofFpc t.fpc) (readUA e t a).toNat (readUB e t b).toNat (t.reg d.val).toNat
    ⟨[(.gpr d.val, BitVec.ofNat 32 r.1)], r.2, none⟩⟩

/-- A uniform condition on integers (R93). -/
def condU (c : UCond) (x y : Int) : Bool :=
  match c with
  | .eq => decide (x = y)
  | .ne => decide (x ≠ y)
  | .lt => decide (x < y)
  | .ge => decide (x ≥ y)

/-- The control state after the end test of loop frames on the word at the thread's PC, n words long (R314). -/
def seqCtl (u : Thread) (n : Nat) (c : Ctl) : Ctl := (endTest u.now.pc n false c.frames c).getD c

/-- The control state of a thread that goes past a word of n words. -/
def past (u : Thread) (n : Nat) : Ctl := seqCtl u n { u.now with pc := u.now.pc + BitVec.ofNat 32 n }

/-- Where a taken transfer leads (R312, R315): no end test. -/
def goTo (u : Thread) (target : Word) : Ctl := { u.now with pc := target }

/-- The target of a branch with a 19-bit offset (R312). -/
def branchTo (u : Thread) (o : Fin 524288) : Word :=
  u.now.pc + 1 + BitVec.ofInt 32 (if o.val < 2 ^ 18 then o.val else (o.val : Int) - 2 ^ 19)

/-- A call (R312, R62): the link on top of eight hardware entries, the oldest of nine spilled. -/
def callTo (u : Thread) (target : Word) : Ctl :=
  { u.now with
    pc := target
    hw := ((u.now.pc + 1) :: u.now.hw).take 8
    spill := if u.now.hw.length < 8 then u.now.spill else u.now.hw.getD 7 0 :: u.now.spill }

/-- Room for a call's link, with n words of spill area (R62). -/
def callRoom (n : Nat) (u : Thread) : Prop := u.now.hw.length < 8 ∨ u.now.spill.length < n

/-- A return to the link on top of the stack (R312, R62). -/
def retCtl (u : Thread) : Ctl :=
  match u.now.hw with
  | x :: r => { u.now with pc := x, hw := r }
  | [] => { u.now with pc := u.now.spill.headD 0, spill := u.now.spill.tail }

/-- A stacked link to return to. -/
def retRoom (u : Thread) : Prop := u.now.hw ≠ [] ∨ u.now.spill ≠ []

/-- A loop word (R314): with a count of 0 the body is skipped, else a frame is pushed. -/
def loopCtl (u : Thread) (level len : Nat) (n : Word) : Ctl :=
  if n = 0 then seqCtl u 1 { u.now with pc := u.now.pc + 1 + BitVec.ofNat 32 len, lc := tabSet 0 u.now.lc level 0 }
  else { u.now with
    pc := u.now.pc + 1
    lc := tabSet 0 u.now.lc level n
    frames := ⟨level, u.now.pc + 1, u.now.pc + BitVec.ofNat 32 len⟩ :: u.now.frames }

/-- The level a loop word must name, with a frame to spare (R314). -/
def loopRoom (level : Nat) (u : Thread) : Prop := level < 3 ∧ u.now.frames.length = level

/-- LBRK (R314). -/
def breakCtl (u : Thread) : Ctl :=
  seqCtl u 1 { u.now with pc := (u.now.frames.headD ⟨0, 0, 0⟩).last + 1, frames := u.now.frames.tail }

/-- A word that changes only the control state of its threads: with a false guard they go past it. -/
def Turned (h : Hdr) (n : Nat) (c : Thread → Ctl) (u u' : Thread) : Prop :=
  u'.wait = .none ∧ ended u' = { ended u with ctl := if u.guard h then c u else past u n }

/-- A stand issues the word, it passes decode, and every thread whose guard is true meets ok: it completes, and the control state of each becomes c. -/
def StandTurns (i : Instr) (h : Hdr) (needs : List Need) (ends : Bool) (ok : Grove → Thread → Prop) (c : Thread → Ctl) : Prop :=
  ∀ (s : State) (gid stand : Nat) (w l : Word) (g : Grove), StandAt s gid stand w l g → LaneDecodes ⟨h, 1, ends, 0, needs⟩ g stand →
    (∀ u ∈ g.lanes, u.stand = stand → u.guard h = true → ok g u) →
    ∃ t, exec i s = .next t ∧ StandLeaves s t gid stand g (Turned h 1 c)

/-- A front thread issues the word, it passes decode, and with its guard true meets ok: it completes, and its control state becomes c. -/
def FrontTurns (i : Instr) (h : Hdr) (ends : Bool) (ok : Grove → Thread → Prop) (c : Thread → Ctl) : Prop :=
  ∀ (s : State) (gid : Nat) (w l : Word) (g : Grove), FrontAt s gid w l g → FrontDecodes ⟨h, 1, ends, 0, []⟩ g →
    (g.front.guard h = true → ok g g.front) →
    ∃ t, exec i s = .next t ∧ FrontLeaves s t gid g (Turned h 1 c)

/-- One lane thread of a grove is as u', and nothing else in the device is changed. -/
def OneLeaves (s t : State) (gid : Nat) (g : Grove) (tid : Nat) (u' : Thread) : Prop :=
  OnlyGroves s t ∧ (∀ j, j ≠ gid → t.grove? j = s.grove? j) ∧ t.grove? gid = some (withThread g tid u')

/-- The front thread of a grove is as u', and nothing else in the device is changed. -/
def FrontIs (s t : State) (gid : Nat) (g : Grove) (u' : Thread) : Prop :=
  OnlyGroves s t ∧ (∀ j, j ≠ gid → t.grove? j = s.grove? j) ∧ t.grove? gid = some { g with front := u' }

/-- A thread has returned from its handler (R66, R315, R355): the bank exchanged back, loop counters, frames and MM restored, the mode cleared, the PC at TPC as the segment leaves it. -/
structure Returned (n : Nat) (u u' : Thread) : Prop where
  th : u'.th = false
  pc : u'.ctl.pc = (ended u).tpc
  frames : u'.ctl.frames = u.bankFrames
  counters : u'.ctl.lc = u.bankLc
  mask : u.front = false → u'.ctl.mm = u.bankMm
  stack : u'.ctl.hw = u.now.hw ∧ u'.ctl.spill = u.now.spill
  banked : ∀ k < 8, tabGet 0 u'.regs (bankFirst u.front n + k) = tabGet 0 u.bankRegs k ∧
    tabGet 0 u'.bankRegs k = due u (.gpr (bankFirst u.front n + k))
  unbanked : ∀ r, (∀ k < 8, r ≠ .gpr (bankFirst u.front n + k)) → u'.arch r = due u r
  kept : u'.tpc = (ended u).tpc ∧ u'.tcause = u.tcause ∧ u'.tval = u.tval ∧ u'.tmask = u.tmask ∧ u'.fpc = (ended u).fpc ∧ u'.flg = (ended u).flg
  idle : u'.seg = none ∧ u'.wait = .none ∧ u'.life = u.life ∧ u'.tid = u.tid

/-- A thread has exited past its word (R316): its return stack and loop frames are discarded, its registers kept. -/
def HasExited (u u' : Thread) : Prop :=
  ended u' = { ended u with life := .exited, ctl := { u.now with pc := u.now.pc + 1, hw := [], spill := [], frames := [] } }

/-- A software trap of a lane thread: taken at once, with the cause and the word's CODE (R354). -/
def LaneTraps (i : Instr) (h : Hdr) (cause code : Nat) : Prop :=
  ∀ (s : State) (gid stand : Nat) (w l : Word) (g : Grove) (u : Thread) (entry : Word),
    AloneAt s gid stand w l g h u → LaneDecodes ⟨h, 1, true, 0, []⟩ g stand → u.front = false → u.th = false → u.txn.isOpen = false →
    s.handler g.ctx false = some entry → natBit s.hub.snapMask cause = false →
    ∃ t u', exec i s = .next t ∧ OneLeaves s t gid g u.tid u' ∧
      Entered g.desc.vregs entry cause code false u.now.pc 0 (BitVec.ofNat 64 (2 ^ u.lane)) u u'

/-- A software trap of the front thread (R354). -/
def FrontTraps (i : Instr) (h : Hdr) (cause code : Nat) : Prop :=
  ∀ (s : State) (gid : Nat) (w l : Word) (g : Grove) (entry : Word),
    FrontAloneAt s gid w l g h → FrontDecodes ⟨h, 1, true, 0, []⟩ g → g.front.th = false → g.front.txn.isOpen = false →
    s.handler g.ctx true = some entry → natBit s.hub.snapMask cause = false →
    ∃ t u', exec i s = .next t ∧ FrontIs s t gid g u' ∧ Entered g.desc.vregs entry cause code false g.front.now.pc 0 0 g.front u'

/-- The special register n as a number (R70), of a thread u of the grove g; start holds those that change by themselves, as they were at the segment's start (R72). -/
def srNat (g : Grove) (start : List (Nat × Word)) (u : Thread) (n : Nat) : Nat :=
  match n with
  | 0x00 => u.fpc % 2 ^ 32
  | 0x01 => u.flg % 2 ^ 32
  | 0x02 => u.ctl.mm.toNat % 2 ^ 32
  | 0x03 => u.ctl.mm.toNat / 2 ^ 32
  | 0x04 => u.tpc.toNat
  | 0x05 => u.tcause.toNat
  | 0x06 => u.tmask.toNat % 2 ^ 32
  | 0x07 => u.tmask.toNat / 2 ^ 32
  | 0x08 => u.tval.toNat % 2 ^ 32
  | 0x09 => u.tval.toNat / 2 ^ 32
  | 0x0A => (tabGet 0 u.ctl.lc 0).toNat
  | 0x0B => (tabGet 0 u.ctl.lc 1).toNat
  | 0x0C => (tabGet 0 u.ctl.lc 2).toNat
  | 0x0D => (u.ctl.hw.length + 16 * u.ctl.spill.length) % 2 ^ 32
  | 0x0E => (u.ctl.frames.length + 4 * (if u.th then 1 else 0)) % 2 ^ 32
  | 0x0F => g.slot % 2 ^ 32
  | 0x10 => g.ltag % 2 ^ 32
  | 0x11 => g.ctx % 2 ^ 32
  | 0x14 => ((if u.txn.isOpen then 1 else 0) + (if u.txn.serial then 2 else 0) + 4 * u.txn.cause + 32 * u.txn.nconf + 512 * u.txn.code) % 2 ^ 32
  | _ => ((start.lookup n).getD 0).toNat

/-- The values, at the start of the segment a word of u belongs to, of the special registers that change by themselves (R72): NCYC of the die, DQST and MSQST. -/
def startOf (s : State) (g : Grove) (u : Thread) : List (Nat × Word) :=
  match u.seg with
  | some x => x.start
  | none =>
    let n := tabGet 0 s.hub.ncyc (dieOfCore g.core)
    [(0x12, BitVec.ofNat 32 n), (0x13, BitVec.ofNat 32 (n / 2 ^ 32)),
      (0x15, BitVec.ofNat 32 (g.unfreed + if g.dqClosed then 128 else 0)), (0x16, BitVec.ofNat 32 (msqst g.msq))]

/-- The special registers a stream may read: 0x15 and 0x16 are the front stream's, MM, TMASK and TXST the lanes' (R70). -/
def srReadable (front : Bool) (n : Nat) : Prop := if front then n ∉ [0x02, 0x03, 0x06, 0x07, 0x14] else n ≤ 0x14

/-- The writes R70 lets pass: FPC with its reserved bits zero (R63), FLG, TPC. -/
def srWritable (n : Nat) (v : Word) : Prop := (n = 0 ∧ v.toNat < 2 ^ 12) ∨ n = 1 ∨ n = 4

/-- The flags raised by words of an open segment belong to them. -/
def FlagsPlaced (u : Thread) : Prop := ∀ x, u.seg = some x → ∀ y ∈ x.flags, y.1 < x.words

/-- A thread has passed GETSR or SGETSR (R71, R72): D is due the register's value at the segment's start, and the exchange form is due to write the source. -/
def SpecialRead (s : State) (g : Grove) (n d : Nat) (src : Option Nat) (u u' : Thread) : Prop :=
  u'.wait = .none ∧ (∀ r, due u' r = if r = .gpr d then BitVec.ofNat 32 (srNat g (startOf s g u) u n) else due u r) ∧
    ended u' = { ended u with
      regs := (ended u').regs
      ctl := past u 1
      fpc := if n = 0 then (src.map fun b => (u.reg b).toNat).getD (ended u).fpc else (ended u).fpc
      flg := if n = 1 then (src.map fun b => (u.reg b).toNat % 64).getD (ended u).flg else (ended u).flg
      tpc := if n = 4 then (src.map u.reg).getD (ended u).tpc else (ended u).tpc
      txn := if n = 4 ∧ src.isSome then { u.txn with eretTo := none } else (ended u).txn }

/-- The threads of a stand whose guard is true, in ascending lane: the contributors when the stand is the gathering (R150). -/
def contributors (g : Grove) (stand : Nat) (h : Hdr) : List Thread :=
  byLane (g.lanes.filter fun u => u.stand = stand ∧ u.guard h = true)

/-- A stand that is a gathering once it has reached a cross-lane word (R149): each of its threads has exactly the stand as participants, and they issue at one PC. -/
structure Gathers (g : Grove) (stand : Nat) : Prop where
  participants : ∀ u ∈ g.lanes, u.stand = stand → g.participants u = g.lanes.filter fun v => v.stand = stand
  together : ∀ u ∈ g.lanes, ∀ v ∈ g.lanes, u.stand = stand → v.stand = stand → u.now.pc = v.now.pc

/-- No earlier home-side check of a stand is open (R88). -/
def NoneOpen (g : Grove) (stand : Nat) : Prop :=
  ∀ u ∈ g.lanes, ∀ v ∈ g.lanes, u.stand = stand → v.stand = stand ∨ v.team = u.team → ∀ x, v.seg = some x → x.checks = []

/-- A cross-lane word of a stand that is a gathering, with no home-side check open (R88, R149, R150): the stand waits at the word, and the gathering's completion, asked for any of its threads, gives every contributor its result. -/
def CrossRun (i : Instr) (sh : Shape) (out : List Thread → Thread → WordOut) : Prop :=
  ∀ (s : State) (gid stand : Nat) (w l : Word) (g : Grove), StandAt s gid stand w l g → LaneDecodes { sh with h := { sh.h with g := 0 } } g stand →
    Gathers g stand → NoneOpen g stand → (∀ u ∈ g.lanes, u.stand = stand → s.mayRun g u.core = true) →
    ∃ t, exec i s = .next t ∧
      StandLeaves s t gid stand g (fun u u' => u'.wait = .gather i (u.guard sh.h) s.gt ∧ ended u' = { ended u with ctl := past u sh.len }) ∧
      ∀ u ∈ g.lanes, u.stand = stand → ∃ t', exec (.gatheringComplete gid u.tid) t = .next t' ∧
        StandLeaves s t' gid stand g (Wrote sh.h (out (contributors g stand sh.h)))

/-- The value a contributor fetches from a lane: its B when that lane contributes, else the thread's own (R153). -/
def fetched (b : Fin 64) (cs : List Thread) (u : Thread) (lane : Option Nat) : Word :=
  match lane with
  | none => u.reg b.val
  | some k => ((cs.find? fun v => v.lane == k).getD u).reg b.val

/-- C of a shuffle: the immediate, or the low six bits of the register (R153). -/
def shufArg (c : ShufSrc) (u : Thread) : Nat :=
  match c with
  | .imm c => c.val
  | .reg c => (u.reg c.val).toNat % 64

/-- Ps ⊕ NEG (R154). -/
def ballotBit (q : Fin 8) (n : Bool) (u : Thread) : Bool := xor (u.predSrc q.val) n

/-- The place of the next word in a thread's open segment. -/
def placeOf (u : Thread) : Nat := ((u.seg.map Seg.words).getD 0)

/-- A thread has passed a word of n words that leaves nothing in its registers. -/
def Passed (n : Nat) (u u' : Thread) : Prop := u'.wait = .none ∧ ended u' = { ended u with ctl := past u n }

/-- A thread has passed a word of n words that leaves results in its registers (R86). -/
def Took (n : Nat) (ws : List (Reg × Word)) (u u' : Thread) : Prop :=
  u'.wait = .none ∧ ended u' = { ended u with regs := (ended u').regs, ctl := past u n } ∧ ∀ r, due u' r = (ws.lookup r).getD (due u r)

/-- A thread has passed a word of n words whose results in regs have not returned and whose home-side check is open (R86, R88). -/
structure Awaits (n : Nat) (regs : List Reg) (u u' : Thread) : Prop where
  waits : u'.wait = .none
  rest : ended u' = { ended u with regs := (ended u').regs, ctl := past u n }
  others : ∀ r, r ∉ regs → due u' r = due u r
  awaited : ∃ x, u'.seg = some x ∧ (∀ r ∈ regs, ⟨placeOf u, r, false, none⟩ ∈ x.results) ∧ placeOf u ∈ x.checks

/-- The request a thread's word sends to the home of an address (R88, R230). -/
def requestOf (s : State) (gid : Nat) (u : Thread) (op : ReqOp) (va size : Nat) (p : Scope) (o : Order) (t : Hint) (data : List Word) (regs : List Reg) (txn : Bool) : Req :=
  { id := s.nextId, gid := gid, front := u.front, tid := u.tid, core := u.core, idx := placeOf u, pc := u.now.pc, op := op, va := va
    dest := s.destOf gid va, size := size, atOwner := false, atHost := none, after := 0
    hint := t, scope := p, order := o, data := data, daz := natBit u.fpc 2, regs := regs
    released := decide (o ≠ .release ∧ o ≠ .acqRel), sent := false, answer := none, txn := txn }

/-- A state with one request more, which bears the next id. -/
def withReq (s : State) (q : Req) : State := { s with nextId := s.nextId + 1, reqs := s.reqs ++ [{ q with id := s.nextId }] }

/-- n registers from the first. -/
def regsFrom (d n : Nat) : List Reg := (List.range n).map fun i => .gpr (d + i)

/-- The values of n registers of a thread from the first (R4). -/
def valuesFrom (u : Thread) (d n : Nat) : List Word := (List.range n).map fun i => u.reg (d + i)

/-- The core's checks of a global address pass: its home is bound, and it is aligned to its size (R230). -/
def AddressOk (s : State) (ctx ea size : Nat) : Prop := s.homeOf ctx ea ≠ .bad ∧ ea % size = 0

/-- The L1 of a thread's core cannot serve a load (R246, R266). -/
def NotInL1 (s : State) (g : Grove) (u : Thread) (ea n : Nat) (t : Hint) : Prop :=
  ∀ h, s.homeOf g.ctx ea = .phys h → usesL1 t = true → s.l1Words g u.core h (ea % 2 ^ 54) ea n = none

/-- No atomic of the thread to an address executes in its core's L1 (R254). -/
def NotInL1Atomic (s : State) (g : Grove) (u : Thread) (ea size : Nat) (p : Scope) (o : Order) : Prop :=
  ∀ h, s.homeOf g.ctx ea = .phys h → s.l1Atomic g u h ea size p o = false

/-- An atomic of a thread at an address executes in its core's L1, whose copy c of the line permits it (R254); pk is the key of its bytes. -/
structure InL1Atomic (s : State) (g : Grove) (u : Thread) (ea size : Nat) (p : Scope) (o : Order) (home pk : Nat) (c : L1Line) : Prop where
  goesTo : s.homeOf g.ctx ea = .phys home
  inL1 : s.l1Atomic g u home ea size p o = true
  copy : s.l1Hit g.ctx u.core home (lineKey home (ea % 2 ^ 54)) .store = some c
  allowed : ∃ code, s.fate g.ctx false .store home (ea % 2 ^ 54) = .ok pk code

/-- The threads of a stand whose guard is true, in the order of the grove's lanes, that of ascending TID (R26, R83). -/
def activeOf (g : Grove) (stand : Nat) (h : Hdr) : List Thread := g.lanes.filter fun u => u.stand == stand && u.guard h

/-- What a word leaves in each thread of its stand: P where the guard is true; elsewhere the thread only moves past it (R83). -/
def Each (h : Hdr) (P : Thread → Thread → Prop) (u u' : Thread) : Prop := if u.guard h then P u u' else Advanced u u'

/-- What a stand's word leaves that also changes its grove: as StandLeaves says of the state r and the grove g' but for its lane threads. -/
def StandDoes (r t : State) (gid stand : Nat) (g' : Grove) (P : Thread → Thread → Prop) : Prop :=
  OnlyGroves r t ∧ (∀ j, j ≠ gid → t.grove? j = r.grove? j) ∧
    ∃ g'', t.grove? gid = some g'' ∧ OnlyLanes g' g'' ∧ g''.lanes.map Thread.tid = g'.lanes.map Thread.tid ∧
      ∀ v ∈ g'.lanes, ∃ v' ∈ g''.lanes, v'.tid = v.tid ∧ if v.stand = stand then P v v' else v' = v

/-- The words that the L1 of a thread's core serves for a load of n words, with the home of the address (R246, R266). -/
def fromL1 (s : State) (g : Grove) (u : Thread) (ea n : Nat) (t : Hint) : Option (Nat × List Word) :=
  match s.homeOf g.ctx ea with
  | .phys h => if usesL1 t then (s.l1Words g u.core h (ea % 2 ^ 54) ea n).map fun ws => (h, ws) else none
  | _ => none

/-- A word of a stand that sends a request for each thread whose guard is true, when ok holds of each: the requests are on their way in ascending TID, and the threads await their results. -/
def LaneSends (i : Instr) (sh : Shape) (ok : State → Grove → Nat → Thread → Prop) (q : State → Grove → Thread → Req) : Prop :=
  ∀ (s : State) (gid stand : Nat) (w l : Word) (g : Grove), StandAt s gid stand w l g → LaneDecodes sh g stand →
    (∀ u ∈ activeOf g stand sh.h, u.txn.isOpen = false ∧ ok s g stand u) →
    ∃ t, exec i s = .next t ∧
      StandLeaves (((activeOf g stand sh.h).map (q s g)).foldl withReq s) t gid stand g (Each sh.h fun u => Awaits sh.len (q s g u).regs u)

/-- The same of the front thread. -/
def FrontSends (i : Instr) (sh : Shape) (ok : State → Grove → Prop) (q : State → Grove → Req) : Prop :=
  ∀ (s : State) (gid : Nat) (w l : Word) (g : Grove), FrontAt s gid w l g → FrontDecodes sh g → g.front.guard sh.h = true →
    g.front.txn.isOpen = false → ok s g →
    ∃ t, exec i s = .next t ∧ FrontDoes (withReq s (q s g)) t gid g (Awaits sh.len (q s g).regs g.front)

/-- The offset of a scratchpad location a thread names: bit 31 of the address names the other half of its pair (R57). -/
def scratchSpot (g : Grove) (u : Thread) (ea : Nat) : Nat := (u.core - g.core + ea / 2 ^ 31) % 2 * 2 ^ 31 + ea % 2 ^ 31

/-- The checks of a scratchpad access pass (R57, R230). -/
def ScratchOk (g : Grove) (ea size : Nat) : Prop :=
  ea % size = 0 ∧ (ea / 2 ^ 31 % 2 = 0 ∨ g.desc.pair = true) ∧ ea % 2 ^ 31 + size ≤ g.desc.scratch * 65536

/-- No 4-byte word of a scratchpad location is poisoned (R362). -/
def ScratchClean (g : Grove) (k size : Nat) : Prop := ∀ i < size, tabGet false g.scratchPoison ((k + i) / 4) = false

/-- A 4-byte word of the scratchpad, its lowest byte first (R4). -/
def wordAt (g : Grove) (k : Nat) : Word :=
  BitVec.ofNat 32 (((List.range 4).map fun j => (tabGet 0 g.scratch (k + j)).toNat * 2 ^ (8 * j)).sum)

/-- A scratchpad whose bytes from k are those of some words, and otherwise as before (R4, R265). -/
def ScratchAfter (old new : List (Nat × Byte)) (k : Nat) (ws : List Word) : Prop :=
  ∀ a, tabGet 0 new a = if k ≤ a ∧ a < k + 4 * ws.length then BitVec.ofNat 8 ((ws.getD ((a - k) / 4) 0).toNat / 2 ^ (8 * ((a - k) % 4))) else tabGet 0 old a

/-- A scratchpad after the writes of several threads, each at its place, in the order of the list: of two that write one byte the later one's stands (R231). -/
def ScratchChain (old new : List (Nat × Byte)) : List (Nat × List Word) → Prop
  | [] => ∀ a, tabGet 0 new a = tabGet 0 old a
  | (k, ws) :: r => ∃ mid, ScratchAfter old mid k ws ∧ ScratchChain mid new r

/-- The words of a scratchpad that threads find one after another, each of which leaves f of what it finds at its place (R270): thread, place and word found. -/
def ScratchTurns (f : Thread → Word → Word) (old new : List (Nat × Byte)) : List (Thread × Nat × Word) → Prop
  | [] => ∀ a, tabGet 0 new a = tabGet 0 old a
  | (u, k, x) :: r =>
    x = BitVec.ofNat 32 (((List.range 4).map fun j => (tabGet 0 old (k + j)).toNat * 2 ^ (8 * j)).sum) ∧
      ∃ mid, ScratchAfter old mid k [f u x] ∧ ScratchTurns f mid new r

/-- The address of a scratchpad word: the base and offset modulo 2^32, then the swizzle (R91, R264). -/
def scratchEa (base : Word) (off : Nat) (k : Fin 8) : Nat := xswzN k.val ((base.toNat + off) % 2 ^ 32)

/-- What an atomic of 4 bytes leaves, from the old value, v and w (R269). -/
def atomNew (f : AtFn) (old v w : Nat) : Nat :=
  match f with
  | .add => (old + v) % 2 ^ 32
  | .min => if s32 v < s32 old then v else old
  | .max => if s32 old < s32 v then v else old
  | .nmax => max old v
  | .and => old &&& v
  | .or => old ||| v
  | .xchg => v
  | .cas => if old = v then w else old

/-- Operands of an atomic of 4 bytes. -/
def operandsOf (f : AtFn) : Nat := if f = .cas then 2 else 1

/-- Bytes, operand registers and results of ATGX (R269). -/
def atxRow : AtxFn → Nat × Nat × Nat
  | .add64 => (8, 2, 2)
  | .xchg64 => (8, 2, 2)
  | .cas64 => (8, 4, 2)
  | .xadd => (16, 1, 0)
  | .radd => (4, 1, 0)
  | .radd64 => (8, 2, 0)
  | .ror => (4, 1, 0)
  | .rnmax => (4, 1, 0)

/-- The V group a memory word names (R264): one register, or an aligned group. -/
def groupV (d : Fin 64) (n : Nat) : List Need := if n = 1 then v1 d else [.v d.val n n]

/-- The S group (R267). -/
def groupS (d : Fin 32) (n : Nat) : List Need := if n = 1 then [] else [.s d.val n n]

/-- The address of a lane global word (R264, R89). -/
def laneEa (s : State) (g : Grove) (u : Thread) (a : LaneA) : Nat := (readA64 (s.env g) u a).toNat

/-- The address of a uniform global word with an offset (R267). -/
def frontEa (s : State) (g : Grove) (a : UniA) (off : Nat) : Nat := ((readUA64 (s.env g) g.front a).toNat + off) % 2 ^ 64

/-- The front thread's stores, atomics and prefetches issue once its earlier checks are answered and no acquire is open (R88, R251). -/
def FrontFree (s : State) (g : Grove) : Prop := (∀ x, g.front.seg = some x → x.checks = []) ∧ s.acquiring g.id none = false

/-- The check of a request's word is answered in its thread's segment (R88). -/
def checkClosed (r : Req) (u : Thread) : Thread := { u with seg := u.seg.map fun x => { x with checks := x.checks.erase r.idx } }

/-- Results of a word of a segment as values arrive for its registers: those that awaited a value. -/
def valuesIn (r : Req) (ws : List Word) (u : Thread) : Thread :=
  { u with seg := u.seg.map fun x => { x with results := x.results.map fun y =>
      if y.idx = r.idx ∧ y.val = none then { y with val := (r.regs.zip ws).lookup y.reg } else y } }

/-- The thread a request names. -/
def sender (r : Req) : Who := if r.front then none else some r.tid

/-- A request stands at the home of its address, whose line is free and whose store it has waited for is visible, and the page table and the domain allow the access at a physical key (R230, R255, R258, R261, R262, R336, R337). -/
structure AtHome (s : State) (id : Nat) (r : Req) (g : Grove) (home pk code : Nat) (kind : AccKind) : Prop where
  request : s.req? id = some r
  sized : 0 < r.size
  unanswered : r.answer = none
  grove : s.grove? r.gid = some g
  goesTo : r.dest = .phys home
  allowed : s.fate g.ctx false kind home (r.va % 2 ^ 54) = .ok pk code
  unowned : (s.line (lineKey home (r.va % 2 ^ 54))).owner = none ∧ (s.line (lineKey home (r.va % 2 ^ 54))).lock = none
  due : r.after ≤ s.gt
  noBar : s.barred home (pk / 128) = false
  noHost : s.hostNeed home (pk / 128) (kind == .store) = none

/-- The words of a list of bytes, the lowest byte of each first (R4). -/
def toWords (n : Nat) (bs : List Byte) : List Word :=
  (List.range n).map fun i => BitVec.ofNat 32 (((List.range 4).map fun j => (bs.getD (4 * i + j) 0).toNat * 2 ^ (8 * j)).sum)

/-- The bytes of a list of words (R4). -/
def toBytes (ws : List Word) : List Byte := ws.flatMap fun w => (List.range 4).map fun j => BitVec.ofNat 8 (w.toNat / 2 ^ (8 * j))

/-- A store that a home accepts now (R245): its visibility time is one more than the greatest of the arrival time, the line's lease horizon and the VT of the store before it. -/
def acceptedNow (s : State) (home : Nat) (r : Req) (pk : Nat) (bs : List Byte) : Store :=
  let lk := lineKey home (r.va % 2 ^ 54)
  { id := s.nextId, line := lk, vt := max s.gt (max (s.line lk).h (s.line lk).p) + 1, core := some r.core, shared := false
    bytes := (List.range bs.length).zipWith (fun i b => (pk + i, b)) bs }

/-- What an atomic that executes in an L1 leaves beside its thread (R254): the store is accepted at once with new bytes, no request is sent, memory's own bytes stand, and the grove's releases come after the store. -/
def L1Stored (s r : State) (g g' : Grove) (q : Req) (home pk : Nat) (new : List Byte) : Prop :=
  r.mem = s.mem ∧ r.reqs = s.reqs ∧ r.pend = s.pend ++ [acceptedNow s home q pk new] ∧ (r.line (lineKey home (q.va % 2 ^ 54))).p = (acceptedNow s home q pk []).vt ∧
    (∀ j, j ≠ g.id → r.grove? j = s.grove? j) ∧ g' = { g with relTime := g'.relTime } ∧ (acceptedNow s home q pk []).vt ≤ g'.relTime ∧ g.relTime ≤ g'.relTime

/-- Only these parts of the device may differ. -/
def SameMemory (s t : State) : Prop := t.mem = s.mem ∧ t.pend = s.pend ∧ t.poison = s.poison

/-- A segment that ends in the plain way: no trap, park or abort, no exit, no return from a handler (R85, R88). -/
def EndsPlainly (u : Thread) : Prop :=
  ∀ x, u.seg = some x → x.trap = none ∧ x.park = none ∧ x.abort = none ∧ x.fin ≠ .exits ∧ x.fin ≠ .erets

/-- The barrier entry a handle names is current in the tables of a grove (R274). -/
def EntryOf (s : State) (g : Grove) (h : Nat) (b : Barrier) : Prop :=
  h ≠ 0xFFFFFFFF ∧ b.live = true ∧ b.gen = h / 2 ^ 20 % 2 ^ 12 ∧
    if h / 2 ^ 19 % 2 = 1 then h % 2 ^ 19 < 4096 ∧ tabGet Barrier.init s.dbars (4096 * g.ctx + h % 2 ^ 19) = b
    else h % 2 ^ 19 < 32 ∧ tabGet Barrier.init g.bars (h % 2 ^ 19) = b

/-- The entry after the completion test of R276. -/
def testedEntry (b : Barrier) : Barrier :=
  if b.arr = b.count ∧ b.pend = 0 then { b with phase := (b.phase + 1) % 2 ^ 32, arr := 0 } else b

/-- A thread's wait on a phase of an entry, when the entry counts another phase or more (R276). -/
def waitAfter (h phase : Nat) (u : Thread) : Wait :=
  match u.wait with
  | .bar k p since => if k = h ∧ (phase + 2 ^ 33 - p - 1) % 2 ^ 32 < 2 ^ 31 then .none else .bar k p since
  | w => w

/-- The state with the entry of a handle replaced, and the waits its phase completes released, in the grove or, for a device entry, in the context (R274, R276). -/
def entrySet (s : State) (g : Grove) (h : Nat) (b : Barrier) (release : Bool) : State :=
  let one := fun (u : Thread) => if release then { u with wait := waitAfter h b.phase u } else u
  let dev := decide (h / 2 ^ 19 % 2 = 1)
  { s with
    dbars := if dev then tabSet Barrier.init s.dbars (4096 * g.ctx + h % 2 ^ 19) b else s.dbars
    groves := s.groves.map fun o =>
      let o := if o.id = g.id ∧ dev = false then { o with bars := tabSet Barrier.init o.bars (h % 2 ^ 19) b } else o
      if (if dev then o.ctx = g.ctx else o.id = g.id) then { o with lanes := o.lanes.map one, front := one o.front } else o }

/-- The state after an arrival, a delivery or a BAREXP has left an entry b, tested (R276). -/
def afterTest (s : State) (g : Grove) (h : Nat) (b : Barrier) : State :=
  entrySet s g h (testedEntry b) (decide (b.arr = b.count ∧ b.pend = 0))

/-- A thread past a barrier word (R276): it waits for a phase, or goes on. -/
def BarPassed (w : Wait) (u u' : Thread) : Prop := u'.wait = w ∧ ended u' = { ended u with ctl := past u 1 }

/-- The wait for phase p of an entry that counts phase n. -/
def phaseWait (h n p since : Nat) : Wait := if (n + 2 ^ 33 - p - 1) % 2 ^ 32 < 2 ^ 31 then .none else .bar h p since

/-- A thread past a word that leaves results in registers or predicates and moves it on in the decision queue (R37). -/
def Popped (ws : List (Reg × Word)) (k : Nat) (u u' : Thread) : Prop :=
  u'.wait = .none ∧ ended u' = { ended u with regs := (ended u').regs, preds := (ended u').preds, dqPos := u.dqPos + k, ctl := past u 1 } ∧
    ∀ r, due u' r = (ws.lookup r).getD (due u r)

/-- A lane barrier word of one thread whose handle names a current entry: it arrives at the phase, or only waits (R276); what the stand's other threads leave has ended plainly. -/
def LaneBars (i : Instr) (h : Hdr) (ends arrives waits : Bool) (needs : List Need) (hd : Thread → Nat) (p : Thread → Nat) : Prop :=
  ∀ (s : State) (gid stand : Nat) (w l : Word) (g : Grove) (u : Thread) (b : Barrier), OneAt s gid stand w l g h u →
    LaneDecodes ⟨h, 1, ends, 0, needs⟩ g stand → NoneOpen g stand → (∀ v ∈ g.lanes, v.team = u.team → EndsPlainly v) → u.txn.isOpen = false → EntryOf s g (hd u) b →
    (arrives = true → b.arr ≠ b.count ∧ s.releaseMet g.id (some u.tid) u.core (if hd u / 2 ^ 19 % 2 = 1 then .device else .grove) s.nextId = true) →
    let r := if arrives then afterTest s g (hd u) { b with arr := b.arr + 1 } else s
    let n := if arrives then (testedEntry { b with arr := b.arr + 1 }).phase else b.phase
    ∃ t g', exec i s = .next t ∧ r.grove? gid = some g' ∧
      LaneDoes r t gid stand g' u (BarPassed (if waits then phaseWait (hd u) n (if arrives then b.phase else p u) s.gt else .none) u)

/-- The same in the front thread. -/
def FrontBars (i : Instr) (h : Hdr) (ends arrives waits : Bool) (hd : Thread → Nat) (p : Thread → Nat) : Prop :=
  ∀ (s : State) (gid : Nat) (w l : Word) (g : Grove) (b : Barrier), FrontAt s gid w l g → FrontDecodes ⟨h, 1, ends, 0, []⟩ g →
    g.front.guard h = true → (∀ x, g.front.seg = some x → x.checks = []) → g.front.txn.isOpen = false → EntryOf s g (hd g.front) b →
    (arrives = true → b.arr ≠ b.count ∧ s.releaseMet g.id none g.front.core (if hd g.front / 2 ^ 19 % 2 = 1 then .device else .grove) s.nextId = true) →
    let r := if arrives then afterTest s g (hd g.front) { b with arr := b.arr + 1 } else s
    let n := if arrives then (testedEntry { b with arr := b.arr + 1 }).phase else b.phase
    ∃ t g', exec i s = .next t ∧ r.grove? gid = some g' ∧
      FrontDoes r t gid g' (BarPassed (if waits then phaseWait (hd g.front) n (if arrives then b.phase else p g.front) s.gt else .none) g.front)

/-- A thread waits at a GBAR phase, in a grid every launch thread of which has arrived there or has exited (R317). -/
def gridArrived (s : State) (g : Grove) (u : Thread) (k : Nat) : Bool :=
  s.groves.all fun o => !(o.launch == g.launch && !o.node && (o.verify != 2 || o.id == g.id)) ||
    o.lanes.all fun v => v.seedling || v.life == .exited || decide (k ≤ if o.id = g.id ∧ v.tid = u.tid then u.gbars + 1 else v.gbars)

/-- Two states differ in nothing but what threads wait for, their GBAR counts, and the threads of one grove. -/
def OnlyWaits (s t : State) (gid : Nat) : Prop :=
  OnlyGroves s t ∧ ∀ k, k ≠ gid → ∀ o, s.grove? k = some o → ∃ o', t.grove? k = some o' ∧ o' = { o with lanes := o'.lanes } ∧
    o'.lanes.map (fun v => { v with wait := .none }) = o.lanes.map fun v => { v with wait := .none }

/-- A transaction has aborted (R257, R259, R278, R279): the buffer discarded, the cause recorded, conflicts counted, the thread at the abort target with the frames of the segment's start, and what earlier words of the segment left. -/
def AbortedTo (cause : Nat) (code : Option Nat) (u u' : Thread) : Prop :=
  u'.wait = .none ∧ u'.seg = none ∧ ended u' = { ended u with
    ctl := { u.ctl with pc := u.txn.target }
    txn := { (ended u).txn with
      isOpen := false, cause := cause, reads := [], wlines := [], buf := [], code := code.getD u.txn.code
      nconf := if cause = 1 then min 8 (u.txn.nconf + 1) else 0 } }

/-- A word of one thread, alone in its stand and its transaction open, that aborts it: its locks and its token are given back (R257, R258, R259). -/
def LaneAborts (i : Instr) (sh : Shape) (cause : Nat) (code : Option Nat) (ok : State → Grove → Thread → Prop) : Prop :=
  ∀ (s : State) (gid stand : Nat) (w l : Word) (g : Grove) (u : Thread), AloneAt s gid stand w l g sh.h u → LaneDecodes sh g stand →
    u.txn.isOpen = true → ok s g u →
    ∃ t u', exec i s = .next t ∧ t = { ((s.unlockAll gid u.tid).freeSerial gid (some u.tid)) with groves := t.groves } ∧
      (∀ j, j ≠ gid → t.grove? j = s.grove? j) ∧ t.grove? gid = some (withThread g u.tid u') ∧ AbortedTo cause code u u'

/-- Two transactions conflict: a line one writes the other reads or writes (R259). -/
def TxnConflict (x y : Txn) : Prop :=
  ∃ l, (l ∈ x.wlines ∧ (l ∈ y.wlines ∨ l ∈ y.reads.map Prod.fst)) ∨ (l ∈ y.wlines ∧ l ∈ x.reads.map Prod.fst)

/-- The seedbed of an entry (R40): the low four bits of the entry folded by fours. -/
def bedOf (e : Nat) : Nat := (e ^^^ e / 2 ^ 4 ^^^ e / 2 ^ 8 ^^^ e / 2 ^ 12) % 16

/-- A thread past a word of one location that changes nothing else but what f says. -/
def PassedWith (f : Thread → Thread) (u u' : Thread) : Prop := u'.wait = .none ∧ ended u' = { f (ended u) with ctl := past u 1 }

/-- Words as argument words, the first in the first register. -/
def argsOf (ws : List Word) : List (Nat × Word) := (List.range ws.length).zip ws

/-- A state that differs from another in a core's seeds and timers only: a seed of a grove joins its bed, last, and with it, when it is the grove's first there, the grove's timer in the bed, at its whole time while the core stands halted for the grove (R40, R41, R52). -/
structure Planted (s r : State) (g : Grove) (core : Nat) (entry : Word) (args : List (Nat × Word)) (key : Nat) : Prop where
  only : r = { s with nextId := s.nextId + 1, cores := r.cores }
  others : ∀ c, c ≠ core → r.core c = s.core c
  seeds : (r.core core).seeds = (s.core core).seeds ++ [⟨bedOf entry.toNat, g.id, entry, args, s.nextId + 1, key⟩]
  timer : (r.core core).timers.lookup (16 * g.id + bedOf entry.toNat) =
    if ∃ x ∈ (s.core core).seeds, x.gid = g.id ∧ x.bed = bedOf entry.toNat then (s.core core).timers.lookup (16 * g.id + bedOf entry.toNat)
    else some ((if s.stopped g core then 0 else tabGet 0 s.hub.cyc (core / 128)) + g.desc.seedt)
  rest : r.core core = { s.core core with seeds := (r.core core).seeds, timers := (r.core core).timers }

/-- A seedling lane as a stand launch leaves it (R43): lane i runs the i-th seed, and the lanes beyond the seeds are empty. -/
structure SeedlingStarted (fpc : Nat) (seeds : List Seed) (v v' : Thread) : Prop where
  place : v'.tid = v.tid ∧ v'.strand = v.strand ∧ v'.lane = v.lane ∧ v'.core = v.core
  seedling : v'.seedling = true ∧ v'.front = false ∧ v'.width = 32
  state : v'.regs = [] ∧ v'.preds = [] ∧ v'.flg = 0 ∧ v'.fpc = fpc ∧ v'.th = false ∧ v'.seg = none ∧ v'.wait = .none ∧ v'.stand = 0 ∧ v'.txn.isOpen = false
  runs : ∀ x, seeds[v.lane]? = some x → v'.life = .run ∧ v'.ctl.pc = x.entry ∧ v'.seedw = x.args ∧ v'.ctl.mm = BitVec.ofNat 64 (2 ^ seeds.length - 1)
  empty : seeds[v.lane]? = none → v'.life = .empty

/-- The seeds of a grove in a bed of a core with an entry, in planting order. -/
def groupOf (s : State) (g : Grove) (core bed : Nat) (entry : Word) : List Seed :=
  (s.core core).seeds.filter fun x => x.gid == g.id && x.bed == bed && x.entry == entry

/-- A stand launch of a FREE grove (R41, R43): the seeds leave their bed for the strand's lanes. -/
structure StandLaunched (s t : State) (g : Grove) (core strand : Nat) (seeds : List Seed) : Prop where
  only : t = { s with cores := t.cores, groves := t.groves, rays := t.rays, beams := t.beams }
  gone : ∀ x, x ∈ (t.core core).seeds ↔ x ∈ (s.core core).seeds ∧ ¬ (x.gid = g.id ∧ x.key ∈ seeds.map Seed.key)
  others : (∀ c, c ≠ core → t.core c = s.core c) ∧ ∀ j, j ≠ g.id → t.grove? j = s.grove? j
  lanes : ∃ g', t.grove? g.id = some g' ∧ OnlyLanes g g' ∧ g'.lanes.length = g.lanes.length ∧
    ∀ k (hk : k < g.lanes.length), ∀ v', g'.lanes[k]? = some v' →
      if g.lanes[k].strand = strand then SeedlingStarted g.desc.fpc0 seeds g.lanes[k] v' else v' = g.lanes[k]

/-- The record a post queues (R45, R47): the die and cluster its data address routes to, node, argument words and post time. -/
def postOf (s : State) (g : Grove) (u : Thread) (die : Nat) (node : Nat) (daddr : Nat) (args : List Word) : ContRec :=
  let a := daddr / 2 ^ 8 % 2 ^ 46
  let c := (a ^^^ a / 2 ^ 5 ^^^ a / 2 ^ 10 ^^^ a / 2 ^ 15) % 32
  { id := s.nextId, die := die, cluster := c, launch := g.launch
    cls := ((s.launches.find? fun l => l.id == g.launch).map Launch.cls).getD 2
    node := node
    record := logRec 4 (u.postOrd % 2 ^ 32 + 2 ^ 32 * c + 2 ^ 37 * s.vdie g.ctx (128 * die)) g.tag (if u.front then 0xFFF else u.tid) 0
    args := argsOf args, daddr := daddr, born := s.gt, wide := false, slot := none }

/-- A post to a node that exists, at a bound address, in a FREE grove, with room in the die's part of the queue (R45, R48, R320). -/
structure MayPost (s : State) (g : Grove) (u : Thread) (home node daddr : Nat) : Prop where
  node : node < g.desc.nnode
  free : g.desc.mode = 0 ∧ g.verify = 0
  bound : s.homeOf g.ctx daddr = .phys home
  room : (s.conts.filter fun c => c.die == (if home < 2 then home else u.core / 128) && c.slot.isNone).length < 2 ^ 20

/-- The accumulator units a tile of a class takes from its base (R179). -/
def unitsOf (c : TileClass) (ac : Nat) : List Nat := if c = .acw then [ac, ac + 1, ac + 2, ac + 3, ac + 4] else [ac]

/-- Every unit of the extent is EMPTY (R179). -/
def TileFree (g : Grove) (ac : Nat) (c : TileClass) : Prop := ∀ u ∈ unitsOf c ac, (g.acUnit g.psel u).cls = .empty ∧ u < g.desc.acs

/-- The extent is one existing tile of the class (R179). -/
def TileThere (g : Grove) (ac : Nat) (c : TileClass) : Prop :=
  (g.acUnit g.psel ac).cls = c ∧ (g.acUnit g.psel ac).interior = false ∧ (c = .acw → ac = 0 ∨ ac = 5)

/-- A unit of a new tile of a class: its base, or inside an ACW tile, with every value zero and clear state (R179). -/
def newUnit (c : TileClass) (base : Bool) : AcUnit := ⟨c, decide (c = .acw) && !base, []⟩

/-- What the tile rule does to a grove's units when a command issues (R179): an EMPTY extent becomes a tile, and an existing tile is kept. -/
structure TileTaken (g g' : Grove) (ac : Nat) (c : TileClass) : Prop where
  only : g' = { g with ac := g'.ac }
  free : TileFree g ac c → ∀ k, tabGet AcUnit.empty g'.ac k =
    if k ∈ (unitsOf c ac).map (16 * g.psel + ·) then newUnit c (decide (k = 16 * g.psel + ac)) else tabGet AcUnit.empty g.ac k
  there : ¬ TileFree g ac c → g'.ac = g.ac

/-- A tile a command may read (R179). -/
def TileRead (g : Grove) (ac : Nat) : Prop := (g.acUnit g.psel ac).cls ≠ .empty ∧ (g.acUnit g.psel ac).interior = false

/-- A command in flight, with what it captures of its grove at issue (R69, R175, R181, R197). -/
def flightOf (s : State) (g : Grove) (cmd : ArrayCmd) (ac total rank : Nat) (sregs : List Word) (units tas wbs : List Nat) : Msq :=
  { cmd := cmd, pc := g.front.now.pc, fpc := g.front.fpc, mcs0 := g.mcs0, mcs1 := g.mcs1, mcs2 := g.mcs2, psel := g.psel, sregs := sregs
    start := s.nextId, step := 0, total := total, ac := ac, units := units, tas := tas, wbs := wbs, rank := rank, scales := []
    overflow := none, fault := none, held := false }

/-- A sequenced command issues when the MSQ is idle (R174, R177, R178): its tile as k says, the command in flight, the front thread past the word. -/
def SeqIssues (i : Instr) (sh : Shape) (ok : State → Grove → Prop) (k : Grove → Grove → Prop) (q : State → Grove → Msq) : Prop :=
  ∀ (s : State) (gid : Nat) (w l : Word) (g : Grove), FrontAt s gid w l g → FrontDecodes sh g → g.front.guard sh.h = true →
    FrontFree s g → g.msq = none → ok s g →
    ∃ t g', exec i s = .next t ∧ k g g' ∧ FrontDoes { s with nextId := s.nextId + 1 } t gid { g' with msq := some (q s g) } (Passed sh.len g.front)

/-- A word of the front thread traps (R178, R352): nothing it has issued before is outstanding, and it has no effect. -/
def FrontRefuses (i : Instr) (sh : Shape) (cause detail : Nat) (tval : Grove → Nat) (ok : State → Grove → Prop) : Prop :=
  ∀ (s : State) (gid : Nat) (w l : Word) (g : Grove) (entry : Word), FrontAloneAt s gid w l g sh.h → FrontDecodes sh g →
    g.front.th = false → g.front.txn.isOpen = false → s.handler g.ctx true = some entry → natBit s.hub.snapMask cause = false → ok s g →
    ∃ t u', exec i s = .next t ∧ FrontIs s t gid g u' ∧
      Entered g.desc.vregs entry cause detail false g.front.now.pc (BitVec.ofNat 64 (tval g)) 0 g.front u'

/-- A command that writes a tile of a class issues when its tile rule passes, and traps ACC_CLASS with reason 1 when it does not (R178, R179). -/
def TileIssues (i : Instr) (sh : Shape) (ac : Nat) (c : TileClass) (ok : State → Grove → Prop) (q : State → Grove → Msq) : Prop :=
  SeqIssues i sh (fun s g => ok s g ∧ (TileFree g ac c ∨ TileThere g ac c)) (fun g g' => TileTaken g g' ac c) q ∧
  FrontRefuses i sh 0x18 (256 + ac) (fun g => g.front.now.pc.toNat)
    (fun s g => ok s g ∧ FrontFree s g ∧ g.msq = none ∧ ¬ TileFree g ac c ∧ ¬ TileThere g ac c)

/-- A command that reads a tile issues when its read rule passes, and traps TILE_STATE with its reason when it does not (R178, R179). -/
def ReadIssues (i : Instr) (sh : Shape) (ac : Nat) (ok : State → Grove → Prop) (q : State → Grove → Msq) : Prop :=
  SeqIssues i sh (fun s g => ok s g ∧ TileRead g ac) (fun g g' => g' = g) q ∧
  FrontRefuses i sh 0x17 (256 + ac) (fun g => g.front.now.pc.toNat)
    (fun s g => FrontFree s g ∧ g.msq = none ∧ (g.acUnit g.psel ac).cls = .empty) ∧
  FrontRefuses i sh 0x17 (512 + ac) (fun g => g.front.now.pc.toNat)
    (fun s g => FrontFree s g ∧ g.msq = none ∧ (g.acUnit g.psel ac).cls ≠ .empty ∧ (g.acUnit g.psel ac).interior = true)

/-- What R105, R160 and R163 give an MMA form: its accumulator class, KT, steps of a dense K chunk, the bytes from one weight record to the next, dense and 2:4 sparse, and the COUNT of a product. -/
structure MmaRow where
  cls : TileClass
  kt : Nat
  steps : Nat
  dense : Nat
  sparse : Nat
  weight : Nat

/-- The last weight slot an MMA reads (R163, R165). -/
def lastSlot (x : MmaRow) (m : MmaArgs) : Nat :=
  match m.dm with
  | .dense => m.wb.val + ((m.kc.val + 1) * x.dense - 1) / 131072
  | .sparse => m.wb.val + ((m.kc.val + 1) * x.sparse - 1) / 131072
  | _ => m.wb.val + 1

/-- The steps of an MMA of rank r (R161). -/
def stepsOfMma (x : MmaRow) (m : MmaArgs) (r : Nat) : Nat :=
  match m.dm with
  | .dense => (m.kc.val + 1) * x.steps
  | .sparse => (m.kc.val + 1) * (x.steps / 2)
  | .expand => (m.kc.val + 1) * (r + 64)
  | .absorb => r * (m.kc.val + 1) + r / 2

/-- The registers and strands an MMA with A scales names (R96, R168). -/
def scaleNeeds (x : MmaRow) (m : MmaArgs) (l : MmaLit) : List Need :=
  if l.ones then [] else [.v (l.svb.val + ((m.kc.val + 1) * (x.kt / 32) - 1) / 4) 1 1, .strands l.sstr.val]

/-- The shape of an MMA word: what it names of registers, tiles, slots and units (R84, R95, R96, R105). -/
def mmaShapeOf (h : Hdr) (m : MmaArgs) (l : Option MmaLit) (x : MmaRow) : Shape :=
  ⟨h, if l.isSome then 2 else 1, false, 0, (match l with
    | some t => scaleNeeds x m t
    | none => []) ++ [.ta (m.ta.val + m.kc.val), .wb (lastSlot x m)] ++ (if x.cls = .acw then [.acw m.ac.val] else [.ac m.ac.val])⟩

/-- The sixteen MMA words with their rows of R105, R160 and R163. -/
noncomputable def mmaTable (h : Hdr) (m : MmaArgs) (l : MmaLit) : List (Instr × MmaForm × Option MmaLit × MmaRow) :=
  [(.mmaBf16 h m, .mmaBf16, none, ⟨.acw, 128, 64, 16384, 9216, 1⟩), (.mmaFp16 h m, .mmaFp16, none, ⟨.acn, 128, 64, 16384, 9216, 1⟩),
    (.mmaE4 h m, .mmaE4, none, ⟨.acn, 256, 64, 16384, 10240, 1⟩), (.mmaE5 h m, .mmaE5, none, ⟨.acn, 256, 64, 16384, 10240, 1⟩),
    (.mmaF6a h m, .mmaF6a, none, ⟨.acn, 256, 64, 12288, 8192, 1⟩), (.mmaF6b h m, .mmaF6b, none, ⟨.acn, 256, 64, 12288, 8192, 1⟩),
    (.mmaF4 h m, .mmaF4, none, ⟨.acn, 512, 64, 16384, 12288, 1⟩), (.mmaMx4 h m l, .mmaMx4, some l, ⟨.acw, 512, 64, 17408, 13312, 1⟩),
    (.mmaMx6a h m l, .mmaMx6a, some l, ⟨.acw, 256, 64, 13312, 9216, 1⟩), (.mmaMx8 h m l, .mmaMx8, some l, ⟨.acw, 256, 64, 17408, 11264, 1⟩),
    (.mmaI8 h m, .mmaI8, none, ⟨.acz, 256, 32, 16384, 10240, 256⟩), (.mmaI4 h m, .mmaI4, none, ⟨.acz, 512, 32, 16384, 12288, 1⟩),
    (.mmaI8bf h m l, .mmaI8bf, some l, ⟨.acw, 128, 64, 16384, 9216, 1⟩), (.mmaI8e4 h m l, .mmaI8e4, some l, ⟨.acn, 256, 64, 16384, 10240, 1⟩),
    (.mmaBfmx4 h m l, .mmaBfmx4, some l, ⟨.acw, 128, 64, 5120, 4096, 1⟩), (.mmaE4bf h m l, .mmaE4bf, some l, ⟨.acw, 128, 64, 16384, 9216, 1⟩)]

/-- An MMA form issues (R160, R161, R175, R178, R179, R184): a latent one when its rank leaves at most 512 positions, an ACZ one when no row's COUNT would pass 2^20. -/
def MmaIssues (i : Instr) (h : Hdr) (f : MmaForm) (m : MmaArgs) (l : Option MmaLit) (x : MmaRow) : Prop :=
  TileIssues i (mmaShapeOf h m l x) m.ac.val x.cls
    (fun _ g =>
      let r := g.rankOf g.psel m.wb.val
      let n := if m.dm = .absorb then r else (m.kc.val + 1) * x.kt
      (m.dm = .expand ∨ m.dm = .absorb → (m.kc.val + 1) * r ≤ 512) ∧
        (x.cls = .acz → ∀ k < 64, ((g.acUnit g.psel m.ac.val).row k).count + n * x.weight ≤ 2 ^ 20))
    (fun s g => flightOf s g (.mma f m l) m.ac.val (stepsOfMma x m (g.rankOf g.psel m.wb.val)) (g.rankOf g.psel m.wb.val) [] (unitsOf x.cls m.ac.val)
      ((List.range (m.kc.val + 1)).map (m.ta.val + ·)) ((List.range (lastSlot x m + 1 - m.wb.val)).map (m.wb.val + ·)))

/-- The S group of a command (R185), and the address in its first pair. -/
def sGroupOf (g : Grove) (n : Fin 8) : List Word := valuesFrom g.front (4 * n.val) 4

/-- The address in the first pair of a command's S group (R185). -/
def sAddr (g : Grove) (n : Fin 8) : Nat := (g.front.reg (4 * n.val)).toNat + 2 ^ 32 * (g.front.reg (4 * n.val + 1)).toNat

/-- Register k of a command's S group as a number. -/
def sNum (g : Grove) (n : Fin 8) (k : Nat) : Nat := (g.front.reg (4 * n.val + k)).toNat

/-- Bytes of an element an MDRAIN writes (R190). -/
def drainBytes (f : DrainFmt) : Nat :=
  match f with
  | .fp32 => 4
  | .fp16 => 2
  | .bf16 => 2
  | .fp8e4 => 1
  | .fp8e5 => 1
  | .i32 => 4

/-- The thread's A tile is not held by a command in flight (R175). -/
def TileUnheld (g : Grove) (pos t : Nat) : Prop := ∀ m, g.msq = some m → m.psel = pos → t ∉ m.tas

/-- The accumulator unit is not held by a command in flight (R175). -/
def UnitUnheld (g : Grove) (pos ac : Nat) : Prop := ∀ m, g.msq = some m → m.psel = pos → ac ∉ m.units

/-- A front thread's tile load joins the loader's queue (R177, R185, R186). -/
def LoadIssues (i : Instr) (sh : Shape) (ok : State → Grove → Prop) (q : State → Grove → TileLoad) : Prop :=
  ∀ (s : State) (gid : Nat) (w l : Word) (g : Grove), FrontAt s gid w l g → FrontDecodes sh g → g.front.guard sh.h = true →
    FrontFree s g → g.loads.length < 8 → ok s g →
    ∃ t, exec i s = .next t ∧ FrontDoes { s with nextId := s.nextId + 1 } t gid { g with loads := g.loads ++ [q s g] } (Passed sh.len g.front)

/-- Only one grove differs, and in it only what f allows. -/
def GroveBecomes (s t : State) (gid : Nat) (g' : Grove) : Prop := OnlyGroves s t ∧ (∀ j, j ≠ gid → t.grove? j = s.grove? j) ∧ t.grove? gid = some g'

/-- The device in which the array of a command's core has taken its chunk from this grove: it notes the slot served (R174). -/
def served (s : State) (g : Grove) (m : Msq) : State := s.modCore (g.core + m.psel) fun x => { x with lastMsq := g.slot }

/-- A signed byte of an A tile or a weight slot. -/
def byteInt (b : Byte) : Int := if b.toNat < 128 then b.toNat else (b.toNat : Int) - 256

/-- A element (i, k) and B element (k, j) of K chunk c of a dense MMA.I8 that feeds from the row edge (R162, R163). -/
def aInt (g : Grove) (m : MmaArgs) (c i k : Nat) : Int := byteInt (tabGet 0 g.ta (2 ^ 24 * g.psel + 16384 * (m.ta.val + c) + 256 * i + k))

/-- B element (k, j) of K chunk c of a dense MMA.I8 (R163). -/
def bInt (g : Grove) (m : MmaArgs) (c k j : Nat) : Int := byteInt (tabGet 0 g.wb (2 ^ 24 * g.psel + 131072 * m.wb.val + 16384 * c + 256 * j + k))

/-- Fewer than 16 engine commands and BEAMGOs of a grove are outstanding (R282, R326). -/
def EngineRoom (s : State) (gid : Nat) : Prop := (s.cmds.filter fun c => c.gid == gid).length + (s.beams.filter fun b => b.gid == gid).length < 16

/-- An engine word sends its command (R282, R283): its descriptor address is aligned to 64 bytes, and TCOPYM names no handle. -/
def EngineIssues (i : Instr) (h : Hdr) (d j : Fin 32) (p : Place) (op : EngOp) : Prop :=
  ∀ (s : State) (gid : Nat) (w l : Word) (g : Grove), FrontAt s gid w l g → FrontDecodes ⟨h, 1, false, 0, [.s d.val 2 2]⟩ g → g.front.guard h = true →
    FrontFree s g → EngineRoom s g.id → AddressOk s g.ctx (g.front.pair d.val).toNat 64 →
    (op = .tcopym → (g.front.reg j.val).toNat = 0xFFFFFFFF) →
    ∃ t, exec i s = .next t ∧ FrontDoes { s with nextId := s.nextId + 1, cmds := s.cmds ++ [
      { id := s.nextId, gid := g.id, ctx := g.ctx, op := op, pc := g.front.now.pc, desc := (g.front.pair d.val).toNat, handle := (g.front.reg j.val).toNat
        place := p, die := g.front.core / 128, after := g.cfence, started := false, since := 0, planned := false, moves := [], owned := none, buf := []
        vt := 0, deliver := [] }] } t gid g (Passed 1 g.front)

/-- The command that a BEAMGO sends (R326). -/
def beamOf (s : State) (g : Grove) (va : Nat) (count : Option Nat) : Beam :=
  { id := s.nextId, gid := g.id, ctx := g.ctx, core := g.front.core, pc := g.front.now.pc, list := va, req := count.isSome, count := count.getD 0
    ord := g.front.beamOrd, after := g.cfence, traced := false, plant := [], handle := 0xFFFFFFFF, bytes := 0, vt := 0 }

/-- A little-endian field of a list of bytes. -/
def fieldOf (d : List Byte) (o n : Nat) : Nat := ((List.range n).map fun i => (d.getD (o + i) 0).toNat * 2 ^ (8 * i)).sum

/-- A number read as two's complement of 64 bits. -/
def signed64 (x : Nat) : Int := if x < 2 ^ 63 then x else (x : Int) - 2 ^ 64

/-- The context of a grove holds PRIV (R329). -/
def Privileged (s : State) (g : Grove) : Prop := (s.csrRaw g.ctx 0).toNat / 2 % 2 = 1

/-- The numbers of R328. -/
def ListedCsr (n : Nat) : Prop := n ≤ 0xC ∨ (0x10 ≤ n ∧ n ≤ 0x1B) ∨ (0x100 ≤ n ∧ n ≤ 0x13F) ∨ (0x400 ≤ n ∧ n ≤ 0x7FF)

/-- What CSRW leaves in a context register of its own rule, and the values it takes (R2, R328). -/
def csrKept (n v : Nat) : Option Nat :=
  if n = 0x01 then (if 128 ≤ v % 2 ^ 13 ∧ v % 2 ^ 13 ≤ 4096 then some (v % 2 ^ 13) else none)
  else if n = 0x05 ∨ n = 0x1A then some (v % 2 ^ 24)
  else if n = 0x06 ∨ n = 0x0A ∨ (0x10 ≤ n ∧ n ≤ 0x17) then some v
  else if n = 0x07 ∨ n = 0x08 then (if v % 2 ^ 28 ≠ 0 then some (v % 2 ^ 28) else none)
  else if n = 0x09 then (if v % 64 = 0 then some v else none)
  else if n = 0x0B then some (v % 2 ^ 16)
  else if n = 0x18 then (if v % 2 ^ 16 = 0 then some v else none)
  else if n = 0x19 then (if v / 2 ^ 25 = 0 ∧ v / 2 ^ 22 < 2 then some v else none)
  else if n = 0x1B then (if v % 2 ^ 11 ≤ 1024 then some (v % 2 ^ 11) else none)
  else if 0x100 ≤ n ∧ n ≤ 0x13F then some (v % 2 ^ 17)
  else if 0x400 ≤ n ∧ n ≤ 0x7FF then some (v % 2 ^ 31)
  else none

/-- Context n has ended (R344): it is disabled, and no grove, launch, engine command, ray or beam of it is left. -/
structure ContextEnded (t : State) (n : Nat) : Prop where
  disabled : t.ctxEnabled n = false
  groves : ∀ g ∈ t.groves, g.ctx ≠ n
  launches : ∀ l ∈ t.launches, l.ctx ≠ n
  commands : ∀ c ∈ t.cmds, c.ctx ≠ n
  rays : ∀ r ∈ t.rays, r.ctx ≠ n
  beams : ∀ b ∈ t.beams, b.ctx ≠ n

/-- A thread's wait has timed out (R305, R224): its segment ends at the waiting word with a trap, and nothing else of it changes. -/
def TimedOut (cause detail : Nat) (tval : DWord) (u u' : Thread) : Prop :=
  u'.wait = .none ∧ u'.tid = u.tid ∧ u'.arch = u.arch ∧ u'.ctl = u.ctl ∧
    ∀ x, u.seg = some x → ∃ y, u'.seg = some y ∧ y.fin = .ended ∧ y.pcs = x.pcs ∧
      y.trap = some { idx := x.words - 1, pc := x.pcs.headD u.ctl.pc, cause := cause, detail := detail, decode := false, txn := u.txn.isOpen, tval := tval, mask := none }

/-- Only queue q of the queues differs between two states, and it is as x. -/
def QueueIs (s t : State) (q : Nat) (x : Queue) : Prop := t.queue q = x ∧ ∀ k, k ≠ q → t.queue k = s.queue k

/-- The record at HEAD of queue q reads as r (R291, R376). -/
def RecordIs (s : State) (q r : Nat) : Prop :=
  ∃ bs, s.readCp (s.queue q).ctx ((s.queue q).ring + 32 * (s.queue q).head) 32 = .ok bs ∧ leNat bs = r

/-- The reserved fields of a record are 0, and it names a counter of its context where it names one (R291, R293). -/
abbrev WellFormedRecord (s : State) (q r : Nat) : Prop :=
  r % 2 ^ 8 < 4 ∧ r / 2 ^ 20 % 2 ^ 44 = 0 ∧ r / 2 ^ 192 % 2 ^ 64 = 0 ∧ (2 ≤ r % 2 ^ 8 → s.evOwned (s.queue q).ctx (r / 2 ^ 8 % 2 ^ 12) = true)

/-- Of the device only what the command processor holds may differ: queues, launches, event counters, numbers handed out, notices, and the translations and peer answers its reads used. -/
def OnlyQueues (s t : State) : Prop :=
  t = { s with queues := t.queues, launches := t.launches, events := t.events, nextId := t.nextId, ltagNext := t.ltagNext, outbox := t.outbox, tlb := t.tlb, unitReads := t.unitReads }

/-- A queue with HEAD past the record it has started (R376). -/
def headPast (x : Queue) : Queue := { x with head := (x.head + 1) % 2 ^ x.ringn }

/-- Queue q goes on as x without a launch or a notice. -/
def QuietQueue (s t : State) (q : Nat) (x : Queue) : Prop :=
  OnlyQueues s t ∧ QueueIs s t q x ∧ t.launches = s.launches ∧ t.nextId = s.nextId ∧ t.ltagNext = s.ltagNext ∧ t.outbox = s.outbox

/-- Only core c of the cores differs, and it is as x. -/
def CoreIs (s t : State) (c : Nat) (x : Core) : Prop := t.core c = x ∧ ∀ k, k ≠ c → t.core k = s.core k

/-- Only context c differs beyond its registers, and it is as x. -/
def CtxIs (s t : State) (c : Nat) (x : Ctx) : Prop := t.ctx c = x ∧ ∀ k, k ≠ c → t.ctx k = s.ctx k

/-- Only cluster c differs, and it is as x. -/
def ClusterIs (s t : State) (c : Nat) (x : Cluster) : Prop := t.cluster c = x ∧ ∀ k, k ≠ c → t.cluster k = s.cluster k

/-- A lane thread at grove start (R26, R30). -/
structure LaneStarts (d : Desc) (u : Thread) : Prop where
  place : u.strand < d.nstr ∧ u.lane < d.width ∧ u.tid = u.strand * d.width + u.lane ∧ u.width = d.width ∧ u.seedling = false ∧ u.front = false
  runs : u.life = .run ∧ u.ctl.pc = d.lentry ∧ u.ctl.mm = BitVec.ofNat 64 (2 ^ d.width - 1) ∧ u.ctl.hw = [] ∧ u.ctl.spill = [] ∧ u.ctl.frames = [] ∧ u.ctl.lc = []
  clear : u.regs = [] ∧ u.preds = [] ∧ u.flg = 0 ∧ u.fpc = d.fpc0 ∧ u.th = false ∧ u.seg = none ∧ u.wait = .none ∧ u.txn.isOpen = false

/-- A launch grove as it is dispatched to a core and a slot (R25-R30, R38, R43, R68): its threads start, its scratchpad, tiles, barriers and decision queue are clear. -/
structure GroveStarts (l : Launch) (id core slot : Nat) (g : Grove) : Prop where
  names : g.id = id ∧ g.ctx = l.ctx ∧ g.launch = l.id ∧ g.ltag = l.ltag ∧ g.core = core ∧ g.slot = slot ∧ g.desc = l.desc ∧ g.node = false
  index : g.linear = l.next ∧ g.gx = l.next % l.desc.ngx ∧ g.gy = l.next / l.desc.ngx % l.desc.ngy ∧ g.gz = l.next / (l.desc.ngx * l.desc.ngy)
  count : g.lanes.length = l.desc.nstr * l.desc.width + l.desc.seedl * 32
  launchLanes : ∀ u ∈ g.lanes, u.strand < l.desc.nstr → LaneStarts l.desc u
  seedlings : ∀ u ∈ g.lanes, l.desc.nstr ≤ u.strand → u.life = .empty ∧ u.seedling = true
  front : g.front.front = true ∧ g.front.ctl.pc = l.desc.fentry ∧ g.front.regs = [] ∧ g.front.life = if l.desc.fentry = 0xFFFFFFFF then .exited else .run
  queue : g.dq = [] ∧ g.dqClosed = decide (l.desc.fentry = 0xFFFFFFFF)
  clear : g.scratch = [] ∧ g.ta = [] ∧ g.wb = [] ∧ g.ac = [] ∧ g.bars = [] ∧ g.mcs0 = 0 ∧ g.mcs1 = 0 ∧ g.mcs2 = 0 ∧ g.psel = 0 ∧ g.msq = none ∧ g.loads = [] ∧ g.pending = []

/-- The lines kept for a physical line have no unexpired lease (R261). -/
def LeasesOver (s : State) (pline : Nat) : Prop := ∀ e ∈ s.lines, e.2.phys.map (· / 128) = some pline → e.2.h < s.gt

/-- Every accepted store to a physical line is visible (R261). -/
def StoresSeen (s : State) (pline : Nat) : Prop := ∀ e ∈ s.lines, e.2.phys.map (· / 128) = some pline → e.2.p ≤ s.gt

/-- An image passes its stage (R345): the fused digest is its key's, its signature verifies, and its version is not below the fused counter. -/
def ImagePasses (b : BootIn) (k : Nat) (i : BootImage) : Prop :=
  shakeNat 64 i.key = b.fuses.keyDigest ∧ i.signed = true ∧ b.fuses.counters.getD k 0 ≤ i.version

/-- What a part brings to a boot passes every stage (R345, R347, R348): the secret is reconstructed, the fuse state verifies, the images of stages 2 to 5 carry the fused key and are signed and not too old, and the record is the part's own. -/
structure BootPasses (b : BootIn) (secret : List Byte) : Prop where
  known : b.secret = some secret
  fuses : b.fuses.ok = true
  images : ∀ k < 4, ∃ i, b.images[k]? = some i ∧ ImagePasses b k i
  record : b.record.signed = true ∧ b.record.digest = shakeNat 64 (Config.slhPublic ((shake ([0x50, 0x59, 0x52, 0x2D, 0x49, 0x44] ++ secret)).take 96))

/-- A boot stops at a stage (R345, R347, R348): 0 where the secret is not reconstructed, else the first that fails. -/
inductive BootStops (b : BootIn) : Nat → Prop where
  | secret : b.secret = none → BootStops b 0
  | fuses (x : List Byte) : b.secret = some x → b.fuses.ok = false → BootStops b 1
  | image (x : List Byte) (k : Nat) : b.secret = some x → b.fuses.ok = true → k < 4 → (∀ j < k, ∃ i, b.images[j]? = some i ∧ ImagePasses b j i) →
      (∀ i, b.images[k]? = some i → ¬ ImagePasses b k i) → BootStops b (k + 2)
  | record (x : List Byte) : b.secret = some x → b.fuses.ok = true → (∀ k < 4, ∃ i, b.images[k]? = some i ∧ ImagePasses b k i) →
      ¬ (b.record.signed = true ∧ b.record.digest = shakeNat 64 (Config.slhPublic ((shake ([0x50, 0x59, 0x52, 0x2D, 0x49, 0x44] ++ x)).take 96))) → BootStops b 6

/-- The counter of the understory block goes up by one (R364). -/
def Counted (s t : State) (k : Nat) : Prop :=
  tabGet 0 t.hub.telemetry k = tabGet 0 s.hub.telemetry k + 1 ∧ ∀ j, j ≠ k → tabGet 0 t.hub.telemetry j = tabGet 0 s.hub.telemetry j

/-- The words at a PC are fetched in a stream, with the literal when the word takes one, and decode to an instruction (R82, R84). -/
structure Fetches (s : State) (front : Bool) (ctx core image : Nat) (pc w l : Word) (i : Instr) : Prop where
  word : s.fetch ctx core image pc = .ok w
  ofStream : frontWord w = front
  literal : if takesLiteral w = true then s.fetch ctx core image (pc + 1) = .ok l else l = 0
  decodes : decode w l = .ok i

/-- Fetch or decode at a PC fails with a cause, a DETAIL and a TVAL (R82, R84): the fetch of the word or of its literal, a word of the other set, or a word that decode refuses; the last two are raised by decode. -/
def FetchTraps (s : State) (front : Bool) (ctx core image : Nat) (pc : Word) (cause detail : Nat) (dec : Bool) (tval : DWord) : Prop :=
  (s.fetch ctx core image pc = .refused cause detail ∧ dec = false ∧ tval = BitVec.ofNat 64 ((image + 4 * pc.toNat) % 2 ^ 64)) ∨
  ∃ w, s.fetch ctx core image pc = .ok w ∧
    ((frontWord w ≠ front ∧ cause = 1 ∧ detail = 1 ∧ dec = true ∧ tval = w.setWidth 64) ∨
      (frontWord w = front ∧ takesLiteral w = true ∧ s.fetch ctx core image (pc + 1) = .refused cause detail ∧ dec = false ∧
        tval = BitVec.ofNat 64 ((image + 4 * (pc + 1).toNat) % 2 ^ 64)) ∨
      (frontWord w = front ∧ takesLiteral w = false ∧ decode w 0 = .error detail ∧ cause = 1 ∧ dec = true ∧ tval = w.setWidth 64) ∨
      ∃ l, frontWord w = front ∧ takesLiteral w = true ∧ s.fetch ctx core image (pc + 1) = .ok l ∧ decode w l = .error detail ∧ cause = 1 ∧ dec = true ∧
        tval = BitVec.ofNat 64 (w.toNat + 2 ^ 32 * l.toNat))

/-- A lane thread of a grove as ticks from s to t leave it: the wait age of one that could not issue counts from now (R299). -/
def waitsFrom (s t : State) (g : Grove) (u : Thread) : Thread :=
  if u.ready = true ∧ s.mayRun g u.core = true then u else { u with since := tabGet 0 t.hub.cyc (u.core / 128) }

/-- The turn of a lane thread comes, it may issue, and it is the core's next (R299). -/
structure LaneTurn (s r : State) (gid tid : Nat) (g : Grove) (t : Thread) : Prop where
  turn : s.nextTurn = (.lane gid tid, r)
  resident : s.grove? gid = some g
  thread : s.thread? gid (some tid) = some t
  ready : t.ready = true
  runs : s.mayRun g t.core = true
  next : r.laneTurn g t = true

/-- The turn of a front thread comes, it may issue, and it is the next in the uniform pipe (R300, R316). -/
structure FrontTurn (s r : State) (gid : Nat) (g : Grove) : Prop where
  turn : s.nextTurn = (.front gid, r)
  resident : s.grove? gid = some g
  ready : g.front.ready = true
  runs : s.mayRun g g.core = true
  nonePending : g.front.th = true ∨ g.pending = []
  next : r.frontTurn g = true

/-- What an issue notes of itself in a core (R299, R300): the cycle and the number of its issues, the PC group it forms stands of, and the slot served. -/
def SameCore (a b : Core) : Prop :=
  b = { a with laneAt := b.laneAt, laneCount := b.laneCount, group := b.group, uniAt := b.uniAt, lastFront := b.lastFront }

/-- Only the schedule, the numbers handed out, the translations kept, what a peer has answered to a fetch, the notes of the cores' issues and the groves may differ. -/
def OnlyTurn (s q : State) : Prop :=
  q = { s with sched := q.sched, autoCount := q.autoCount, nextId := q.nextId, tlb := q.tlb, groves := q.groves, unitReads := q.unitReads, cores := q.cores } ∧
    ∀ c, SameCore (s.core c) (q.core c)

/-- A thread that could join a new stand with another (R31): ready, in no stand, at its PC, on its core. -/
def MayJoin (t u : Thread) : Prop := u.ready = true ∧ u.stand = 0 ∧ u.core = t.core ∧ u.now.pc = t.now.pc

/-- The threads of a new stand (R31): taken in ascending thread id, skipping a home lane that is taken, up to 32. -/
structure StandOfPc (g : Grove) (t : Thread) (m : List Thread) : Prop where
  members : m.Sublist g.lanes
  some_ : m ≠ []
  atMost : m.length ≤ 32
  lanes : (m.map Thread.homeLane).Nodup
  joined : ∀ u ∈ m, MayJoin t u
  left : ∀ u ∈ g.lanes, MayJoin t u → u ∉ m → (∃ v ∈ m, v.tid < u.tid ∧ v.homeLane = u.homeLane) ∨ (m.length = 32 ∧ ∀ v ∈ m, v.tid < u.tid)

/-- The lanes of a thread's strand in a stand, as a mask (R65). -/
def strandMask (g : Grove) (stand : Nat) (u : Thread) : DWord :=
  BitVec.ofNat 64 ((g.lanes.filter fun v => v.stand = stand ∧ v.strand = u.strand).foldl (fun x v => x ||| 2 ^ v.lane) 0)

/-- A thread that can take a trap at the word it stands at: it is a lane thread outside a handler and a transaction, with nothing outstanding (R86, R88, R352). -/
structure TrapsHere (u : Thread) : Prop where
  lane : u.front = false
  outside : u.th = false
  closed : u.txn.isOpen = false
  running : u.stopped = false
  done : ∀ x, u.seg = some x → SegDone x

/-- A lane word traps in the one thread of its stand (R350, R352): nothing the thread has issued before is outstanding, and the word has no effect. -/
def LaneRefuses (i : Instr) (sh : Shape) (cause detail : Nat) (tval : State → Grove → Thread → Nat) (ok : State → Grove → Thread → Prop) : Prop :=
  ∀ (s : State) (gid stand : Nat) (w l : Word) (g : Grove) (u : Thread) (entry : Word), AloneAt s gid stand w l g sh.h u → LaneDecodes sh g stand →
    u.front = false → u.th = false → u.txn.isOpen = false → s.handler g.ctx false = some entry → natBit s.hub.snapMask cause = false → ok s g u →
    ∃ t u', exec i s = .next t ∧ OneLeaves s t gid g u.tid u' ∧
      Entered g.desc.vregs entry cause detail false u.now.pc (BitVec.ofNat 64 (tval s g u)) (BitVec.ofNat 64 (2 ^ u.lane)) u u'

/-- The same in the front thread, where TVAL depends on the state. -/
def FrontRefusesAt (i : Instr) (sh : Shape) (cause detail : Nat) (tval : State → Grove → Nat) (ok : State → Grove → Prop) : Prop :=
  ∀ (s : State) (gid : Nat) (w l : Word) (g : Grove) (entry : Word), FrontAloneAt s gid w l g sh.h → FrontDecodes sh g →
    g.front.th = false → g.front.txn.isOpen = false → s.handler g.ctx true = some entry → natBit s.hub.snapMask cause = false → ok s g →
    ∃ t u', exec i s = .next t ∧ FrontIs s t gid g u' ∧
      Entered g.desc.vregs entry cause detail false g.front.now.pc (BitVec.ofNat 64 (tval s g)) 0 g.front u'

/-- A lane word traps at a global address: ADDRESS_HOME where no home is bound, else MISALIGNED (R53, R230). -/
def LaneAddressTraps (i : Instr) (sh : Shape) (size : Nat) (ea : State → Grove → Thread → Nat) (free : State → Grove → Thread → Prop) : Prop :=
  LaneRefuses i sh 0x05 0 ea (fun s g u => free s g u ∧ s.homeOf g.ctx (ea s g u) = .bad) ∧
  LaneRefuses i sh 0x04 0 ea (fun s g u => free s g u ∧ s.homeOf g.ctx (ea s g u) ≠ .bad ∧ ea s g u % size ≠ 0)

/-- A uniform word traps at a global address. -/
def FrontAddressTraps (i : Instr) (sh : Shape) (size : Nat) (ea : State → Grove → Nat) (free : State → Grove → Prop) : Prop :=
  FrontRefusesAt i sh 0x05 0 ea (fun s g => free s g ∧ s.homeOf g.ctx (ea s g) = .bad) ∧
  FrontRefusesAt i sh 0x04 0 ea (fun s g => free s g ∧ s.homeOf g.ctx (ea s g) ≠ .bad ∧ ea s g % size ≠ 0)

/-- A scratchpad address is refused for its range (R57): it names the other half of no pair, or passes the allocation. -/
def OutOfScratch (g : Grove) (ea size : Nat) : Prop :=
  (ea / 2 ^ 31 % 2 = 1 ∧ g.desc.pair = false) ∨ g.desc.scratch * 65536 < ea % 2 ^ 31 + size

/-- A lane word traps at a scratchpad address (R57, R230). -/
def LaneScratchTraps (i : Instr) (sh : Shape) (size : Nat) (ea : State → Grove → Thread → Nat) : Prop :=
  LaneRefuses i sh 0x04 0 ea (fun s g u => s.acquiring g.id (some u.tid) = false ∧ ea s g u % size ≠ 0) ∧
  LaneRefuses i sh 0x08 0 ea (fun s g u => s.acquiring g.id (some u.tid) = false ∧ ea s g u % size = 0 ∧ OutOfScratch g (ea s g u) size)

/-- A uniform word traps at a scratchpad address. -/
def FrontScratchTraps (i : Instr) (sh : Shape) (size : Nat) (ea : State → Grove → Nat) (free : State → Grove → Prop) : Prop :=
  FrontRefusesAt i sh 0x04 0 ea (fun s g => free s g ∧ ea s g % size ≠ 0) ∧
  FrontRefusesAt i sh 0x08 0 ea (fun s g => free s g ∧ ea s g % size = 0 ∧ OutOfScratch g (ea s g) size)

/-- A request stands where it is checked, unanswered, and its line is free (R230, R255, R258). -/
structure AtCheck (s : State) (id : Nat) (r : Req) (g : Grove) (home : Nat) : Prop where
  request : s.req? id = some r
  sized : 0 < r.size
  unanswered : r.answer = none
  grove : s.grove? r.gid = some g
  goesTo : r.dest = .phys home
  unowned : (s.line (lineKey home (r.va % 2 ^ 54))).owner = none ∧ (s.line (lineKey home (r.va % 2 ^ 54))).lock = none
  plain : r.txn = false
  numbered : r.tid = (sender r).getD 0xFFF

/-- The thread u of a request, its word in the open segment x, which no earlier word has ended; a lane thread is alone in its stand. -/
structure SenderIs (r : Req) (g : Grove) (u : Thread) (x : Seg) : Prop where
  front : r.front = true → u = g.front
  lane : r.front = false → u ∈ g.lanes ∧ u.tid = r.tid ∧ ∀ v ∈ g.lanes, v.team = u.team ∨ v.tid = u.tid → v = u
  seg : u.seg = some x
  inside : r.idx < x.words
  unended : x.trap = none ∧ x.park = none ∧ x.abort = none

/-- A request's word is refused at home, which leaves t (R88, R230, R350): the thread's segment ends at the word, as y says, and what its later words did is undone; its requests from the word on are gone. -/
structure StopsAt (s t : State) (r : Req) (g : Grove) (u : Thread) (x y : Seg) : Prop where
  rest : t = { s with groves := t.groves, reqs := t.reqs, tlb := t.tlb }
  others : ∀ j, j ≠ r.gid → t.grove? j = s.grove? j
  thread : t.grove? r.gid = some (if r.front then { g with front := { u with wait := .none, seg := some y } } else withThread g u.tid { u with wait := .none, seg := some y })
  ends : y.words = r.idx + 1 ∧ y.fin = .ended ∧ y.abort = none
  before : y.results = x.results.filter (fun z => decide (z.idx < r.idx)) ∧ y.writes = x.writes.filter (fun z => decide (z.idx < r.idx)) ∧
    y.flags = x.flags.filter (fun z => decide (z.1 < r.idx)) ∧ y.checks = x.checks.filter (fun k => decide (k < r.idx))
  gone : ∀ z ∈ t.reqs, z ∈ s.reqs ∧ ¬ (z.gid = r.gid ∧ z.front = r.front ∧ z.tid = r.tid ∧ z.op ≠ .prefetch ∧ r.idx ≤ z.idx)
  kept : ∀ z ∈ s.reqs, ¬ (z.gid = r.gid ∧ z.front = r.front ∧ z.tid = r.tid ∧ r.idx ≤ z.idx) → z ∈ t.reqs

/-- The event turns a request away with a precise trap of its word (R230, R353). -/
def TurnsAway (i : Instr) (s : State) (r : Req) (g : Grove) (u : Thread) (x : Seg) (cause detail : Nat) : Prop :=
  ∃ t y, exec i s = .next t ∧ StopsAt s t r g u x y ∧ y.park = none ∧ y.trap = some ⟨r.idx, r.pc, cause, detail, false, u.txn.isOpen, BitVec.ofNat 64 r.va, none⟩

/-- The event parks a request's word, with the access and its kind, in the deadfall queue of a die (R356). -/
def ParksAt (i : Instr) (s : State) (r : Req) (g : Grove) (u : Thread) (x : Seg) (kind die : Nat) : Prop :=
  ∃ t y, exec i s = .next t ∧ StopsAt s t r g u x y ∧ y.trap = none ∧ y.park = some ⟨r.idx, r.pc, r.va, kind, die⟩

/-- A thread has parked at a word (R356): its registers as the words before it left them, its PC at the word. -/
structure HasParked (p : ParkInfo) (u u' : Thread) : Prop where
  parked : u'.life = .parked ∧ u'.wait = .none ∧ u'.seg = none ∧ u'.tid = u.tid
  ctl : u'.ctl = { u.ctl with pc := p.pc }
  registers : ∀ r, u'.arch r = due u r

/-- The deadfall queue of a die gains the record of a fault at its lowest free index, its counter goes up, and nothing else but the notices and the groves changes (R356, R357, R364). -/
def Recorded (s t : State) (front : Bool) (gid tid ctx : Nat) (p : ParkInfo) : Prop :=
  t = { s with groves := t.groves, deadfalls := t.deadfalls, outbox := t.outbox, hub := { s.hub with telemetry := t.hub.telemetry } } ∧ Counted s t 4 ∧
    (∀ d, d ≠ p.die → tabGet [] t.deadfalls d = tabGet [] s.deadfalls d) ∧
    ∃ k, (∀ d ∈ tabGet [] s.deadfalls p.die, d.idx ≠ k) ∧ (∀ j < k, ∃ d ∈ tabGet [] s.deadfalls p.die, d.idx = j) ∧
      tabGet [] t.deadfalls p.die = tabGet [] s.deadfalls p.die ++ [⟨k, gid, front, tid, ctx, p.va, p.kind, p.pc, s.gt, 0⟩]

/-- A lane word whose guard is false in every thread of its stand, with no home-side check open: the threads go past it, and nothing else changes (R83). -/
def LaneSkips (i : Instr) (sh : Shape) : Prop :=
  ∀ (s : State) (gid stand : Nat) (w l : Word) (g : Grove), StandAt s gid stand w l g → LaneDecodes sh g stand → NoneOpen g stand →
    (∀ u ∈ g.lanes, u.stand = stand → u.guard sh.h = false) →
    ∃ t, exec i s = .next t ∧ StandLeaves s t gid stand g (Passed sh.len)

/-- A uniform word whose guard is false (R83). -/
def FrontSkips (i : Instr) (sh : Shape) : Prop :=
  ∀ (s : State) (gid : Nat) (w l : Word) (g : Grove), FrontAt s gid w l g → FrontDecodes sh g → g.front.guard sh.h = false →
    ∃ t, exec i s = .next t ∧ FrontLeaves s t gid g (Passed sh.len)

/-- A lane word fails one of the decode checks 8 to 11: every thread of its stand traps, with the word and its literal in TVAL (R84, R350). The stand is a whole team, and nothing its threads have issued before is outstanding. -/
def LaneDecodeTraps (i : Instr) (sh : Shape) : Prop :=
  ∀ (s : State) (gid stand : Nat) (w l : Word) (g : Grove) (t : Thread) (cause detail : Nat) (entry : Word), StandAt s gid stand w l g → t ∈ g.lanes → t.stand = stand →
    (∀ u ∈ g.lanes, u.stand = stand → TrapsHere u ∧ placeOf u = placeOf t ∧ u.now.pc = t.now.pc) →
    (∀ u ∈ g.lanes, ∀ v ∈ g.lanes, u.stand = stand → (v.team = u.team ↔ v.stand = stand)) →
    decodeCheck g.desc sh.needs sh.nvar ((((standOf g stand).head?).map Thread.used).getD 0) = some (cause, detail) →
    s.handler g.ctx false = some entry → natBit s.hub.snapMask cause = false →
    ∃ q g', exec i s = .next q ∧ OnlyGroves s q ∧ (∀ j, j ≠ gid → q.grove? j = s.grove? j) ∧ q.grove? gid = some g' ∧ OnlyLanes g g' ∧
      g'.lanes.map Thread.tid = g.lanes.map Thread.tid ∧
      ∀ u ∈ g.lanes, ∃ u' ∈ g'.lanes, u'.tid = u.tid ∧
        if u.stand = stand then Entered g.desc.vregs entry cause detail true t.now.pc (BitVec.ofNat 64 (w.toNat + 2 ^ 32 * if sh.len = 2 then l.toNat else 0)) (strandMask g stand u) u u'
        else u' = u

/-- A uniform word fails one of the decode checks 8 to 11 (R84, R350). -/
def FrontDecodeTraps (i : Instr) (sh : Shape) : Prop :=
  ∀ (s : State) (gid : Nat) (w l : Word) (g : Grove) (cause detail : Nat) (entry : Word), FrontAt s gid w l g → (∀ x, g.front.seg = some x → SegDone x) →
    g.front.front = true → g.front.th = false → g.front.txn.isOpen = false → g.front.stopped = false → decodeCheck g.desc sh.needs sh.nvar g.front.used = some (cause, detail) →
    s.handler g.ctx true = some entry → natBit s.hub.snapMask cause = false →
    ∃ q u', exec i s = .next q ∧ FrontIs s q gid g u' ∧
      Entered g.desc.vregs entry cause detail true g.front.now.pc (BitVec.ofNat 64 (w.toNat + 2 ^ 32 * if sh.len = 2 then l.toNat else 0)) 0 g.front u'

/-! ### Numbers (05 R108-R125, R157) -/

/-- The sign, the exponent field and the mantissa field of a code (R108). -/
def signOf (f : Fmt) (c : Nat) : Bool := decide (c / 2 ^ (f.width - 1) % 2 = 1)

/-- The exponent field of a code (R108). -/
def expField (f : Fmt) (c : Nat) : Nat := c / 2 ^ f.mant % 2 ^ (f.width - 1 - f.mant)

/-- The mantissa field of a code (R108). -/
def manField (f : Fmt) (c : Nat) : Nat := c % 2 ^ f.mant

/-- The code is a NaN (R108). -/
def nanCode (f : Fmt) (c : Nat) : Bool :=
  match f with
  | .fp8e4 => decide (c % 128 = 0x7F)
  | .fp8e4z => decide (c = 0x80)
  | .fp6e3 | .fp6e2 | .fp4 => false
  | _ => decide (expField f c = 2 ^ (f.width - 1 - f.mant) - 1 ∧ manField f c ≠ 0)

/-- The code is an infinity (R108). -/
def infCode (f : Fmt) (c : Nat) : Bool := f.hasInf && decide (expField f c = 2 ^ (f.width - 1 - f.mant) - 1 ∧ manField f c = 0)

/-- The code is a signalling NaN (R110). -/
def sigCode (f : Fmt) (c : Nat) : Bool := f.hasInf && nanCode f c && decide (manField f c < 2 ^ (f.mant - 1))

/-- The value of a code that is neither a NaN nor an infinity (R109). -/
noncomputable def codeValue (f : Fmt) (c : Nat) : ℝ :=
  (if signOf f c then -1 else 1) *
    if expField f c = 0 then (manField f c : ℝ) * 2 ^ ((1 : ℤ) - f.bias - f.mant) else (1 + (manField f c : ℝ) / 2 ^ f.mant) * 2 ^ ((expField f c : ℤ) - f.bias)

/-- The code of a zero of a sign (R118). -/
def zeroCode (f : Fmt) (neg : Bool) : Nat := if neg = true ∧ f ≠ .fp8e4z then 2 ^ (f.width - 1) else 0

/-- The code of an infinity of a sign (R108). -/
def infOf (f : Fmt) (neg : Bool) : Nat := (if neg then 2 ^ (f.width - 1) else 0) + f.maxCode + 1

/-- The bit of FPC that flushes the subnormal operands of a format; the next one flushes its results (R63, R118). -/
def dazBit : Fmt → Nat
  | .fp32 => 2 | .fp16 => 4 | .bf16 => 6 | _ => 8

/-- An exact term: a NaN, an infinity, a number with its sign, or the invalid mark of Inf × 0 (R157). -/
inductive Ext where
  | nan | inf (neg : Bool) | num (neg : Bool) (x : ℝ) | invalid

/-- The value of a term that is a number. -/
noncomputable def Ext.val : Ext → ℝ
  | .num _ x => x
  | _ => 0

/-- The term has a minus sign. -/
def Ext.Neg : Ext → Prop
  | .inf n => n = true
  | .num n _ => n = true
  | _ => False

/-- The term with its sign inverted. -/
noncomputable def Ext.opp : Ext → Ext
  | .inf n => .inf (!n)
  | .num n x => .num (!n) (-x)
  | t => t

open Classical in
/-- The product of two terms (R137, R157). -/
noncomputable def Ext.mul : Ext → Ext → Ext
  | .inf m, .inf n => .inf (m != n)
  | .inf m, .num n x => if x = 0 then .invalid else .inf (m != n)
  | .num m x, .inf n => if x = 0 then .invalid else .inf (m != n)
  | .num m x, .num n y => .num (m != n) (x * y)
  | _, _ => .nan

/-- The order of FMIN, FMAX and FCMP: -0 lies below +0 (R139). -/
def Ext.Before : Ext → Ext → Prop
  | .inf true, .inf true => False
  | .inf true, _ => True
  | _, .inf true => False
  | .inf false, _ => False
  | _, .inf false => True
  | .num m x, .num n y => x < y ∨ (x = y ∧ m = true ∧ n = false)
  | _, _ => False

/-- A source code as FPC x has it read: a flushed subnormal is a zero of its own sign (R118). -/
noncomputable def readNum (x : Nat) (f : Fmt) (c : Nat) : Ext :=
  if nanCode f c then .nan else if infCode f c then .inf (signOf f c)
  else .num (signOf f c) (if natBit x (dazBit f) = true ∧ expField f c = 0 then 0 else codeValue f c)

/-- A source code with a subnormal flushed where FPC x says so (R118, R139). -/
def flushCode (x : Nat) (f : Fmt) (c : Nat) : Nat := if natBit x (dazBit f) = true ∧ expField f c = 0 then zeroCode f (signOf f c) else c

/-- Grid(fmt) (R116). -/
def InGrid (f : Fmt) (y : ℝ) : Prop := ∃ c q : ℤ, |c| < 2 ^ (f.mant + 1) ∧ 1 - (f.bias : ℤ) - f.mant ≤ q ∧ y = c * (2 : ℝ) ^ q

/-- A member of the grid whose c is even (R116). -/
def EvenIn (f : Fmt) (y : ℝ) : Prop :=
  ∃ c q : ℤ, |c| < 2 ^ (f.mant + 1) ∧ 1 - (f.bias : ℤ) - f.mant ≤ q ∧ (2 ^ f.mant ≤ |c| ∨ q = 1 - (f.bias : ℤ) - f.mant) ∧ 2 ∣ c ∧ y = c * (2 : ℝ) ^ q

/-- The neighbour that a mode takes of z, which lies between lo and hi (R116). -/
def Takes (even : ℝ → Prop) (mode : Rnd) (r : Nat) (z lo hi y : ℝ) : Prop :=
  (y = lo ∨ y = hi) ∧
    match mode with
    | .rne => (z - lo < hi - z → y = lo) ∧ (hi - z < z - lo → y = hi) ∧ (z - lo = hi - z → even y)
    | .rna => (z - lo < hi - z → y = lo) ∧ (hi - z < z - lo → y = hi) ∧ (z - lo = hi - z → (y = hi ↔ 0 < z))
    | .rtz => y = hi ↔ z < 0
    | .rup => y = hi
    | .rdn => y = lo
    | .rsr => y = hi ↔ (r : ℤ) < ⌊(z - lo) / (hi - lo) * 2 ^ 24⌋

/-- The rounding of z to a set of numbers (R116): z itself if it lies there, else one of its neighbours. -/
def RoundsTo (grid even : ℝ → Prop) (mode : Rnd) (r : Nat) (z y : ℝ) : Prop :=
  (grid z → y = z) ∧
    (¬ grid z → ∃ lo hi, grid lo ∧ grid hi ∧ lo < z ∧ z < hi ∧ (∀ w, grid w → w ≤ lo ∨ hi ≤ w) ∧ Takes even mode r z lo hi y)

/-- What Overflow returns (R117). -/
def overflowCode (x : Nat) (f : Fmt) (mode : Rnd) (neg : Bool) : Nat :=
  if f.hasInf = true then
    if mode = .rtz ∨ (mode = .rup ∧ neg = true) ∨ (mode = .rdn ∧ neg = false) then infOf f neg - 1 else infOf f neg
  else if natBit x 11 = true ∧ (f = .fp8e4 ∨ f = .fp8e4z) then f.canonNaN.getD 0 else infOf f neg - 1

/-- RoundOnce of a value z, not 0, under FPC x (R116-R118): the code and the flags, 4 for OF, 8 for UF and 16 for NX. -/
def RoundsOnce (x : Nat) (f : Fmt) (mode : Rnd) (r : Nat) (z : ℝ) (res : Nat × Nat) : Prop :=
  ∃ (y : ℝ) (neg : Bool), (neg = true ↔ z < 0) ∧ RoundsTo (InGrid f) (EvenIn f) mode r z y ∧
    let codes := res.1 < 2 ^ f.width ∧ nanCode f res.1 = false ∧ infCode f res.1 = false ∧ codeValue f res.1 = y
    let small : ℝ := 2 ^ ((1 : ℤ) - f.bias)
    (codeValue f f.maxCode < |y| → res = (overflowCode x f mode neg, 4 + 16)) ∧
    (y = 0 → res = (zeroCode f neg, 8 + 16)) ∧
    (y ≠ 0 → |y| < small → natBit x (dazBit f + 1) = true → res = (zeroCode f neg, 8 + 16)) ∧
    (y ≠ 0 → |y| < small → natBit x (dazBit f + 1) = false → codes ∧ (y = z → res.2 = 0) ∧ (y ≠ z → res.2 = 8 + 16)) ∧
    (small ≤ |y| → |y| ≤ codeValue f f.maxCode → codes ∧ (y = z → res.2 = 0) ∧ (y ≠ z → res.2 = 16))

/-- A NaN source as it enters a format under NPROP (R119). -/
def nanInto (f : Fmt) (e : Fmt × Nat) : Nat :=
  let s := if signOf e.1 e.2 = true ∧ e.1 ≠ .fp8e4z then 2 ^ (f.width - 1) else 0
  let m := manField e.1 e.2
  let m' := if f.mant ≤ e.1.mant then m / 2 ^ (e.1.mant - f.mant) else m * 2 ^ (f.mant - e.1.mant)
  match f with
  | .fp8e4 => s + 0x7F
  | .fp8e4z => 0x80
  | _ => s + if e.1 = .fp8e4 ∨ e.1 = .fp8e4z then f.canonNaN.getD 0 else f.maxCode + 1 + (m' ||| 2 ^ (f.mant - 1))

/-- The NaN result of sources under FPC x (R119): the first NaN source, or the canonical NaN. -/
def nanOut (x : Nat) (f : Fmt) (srcs : List (Fmt × Nat)) : Nat :=
  match if natBit x 10 then srcs.find? (fun e => nanCode e.1 e.2) else none with
  | some e => nanInto f e
  | none => f.canonNaN.getD 0

/-- A result that is a NaN, with NV where why holds or a source is signalling (R119). -/
def NaNResult (x : Nat) (f : Fmt) (srcs : List (Fmt × Nat)) (why : Prop) (res : Nat × Nat) : Prop :=
  res.1 = nanOut x f srcs ∧ (why ∨ (∃ e ∈ srcs, sigCode e.1 e.2 = true) → res.2 = 1) ∧ (¬ (why ∨ ∃ e ∈ srcs, sigCode e.1 e.2 = true) → res.2 = 0)

/-- The exact sum of terms rounded once into a format (R118, R119, R137, R157). -/
def SumsTo (x : Nat) (f : Fmt) (srcs : List (Fmt × Nat)) (ts : List Ext) (res : Nat × Nat) : Prop :=
  let clash := Ext.invalid ∈ ts ∨ (Ext.inf true ∈ ts ∧ Ext.inf false ∈ ts)
  let sum := (ts.map Ext.val).sum
  (Ext.nan ∈ ts ∨ clash → NaNResult x f srcs clash res) ∧
    (¬ (Ext.nan ∈ ts ∨ clash) →
      (∀ n, Ext.inf n ∈ ts → res = (infOf f n, 0)) ∧
      ((∀ n, Ext.inf n ∉ ts) →
        (sum ≠ 0 → RoundsOnce x f (rmOf x) 0 sum res) ∧
        (sum = 0 →
          ((∀ t ∈ ts, t.Neg) → res = (zeroCode f true, 0)) ∧
          ((∀ t ∈ ts, ¬ t.Neg) → res = (0, 0)) ∧
          (¬ (∀ t ∈ ts, t.Neg) → ¬ (∀ t ∈ ts, ¬ t.Neg) → res = (zeroCode f (decide (rmOf x = .rdn)), 0)))))

/-- A float source converted into a float format (R117-R119, R122). -/
def ConvertsTo (x : Nat) (src dst : Fmt) (c : Nat) (res : Nat × Nat) : Prop :=
  match readNum x src c with
  | .nan => if dst.canonNaN = none then res = (0, 1) else NaNResult x dst [(src, c)] False res
  | .inf n => res = if dst.hasInf = true then (infOf dst n, 0) else (overflowCode x dst (rmOf x) n, 4 + 16)
  | .num n z => (z ≠ 0 → RoundsOnce x dst (rmOf x) 0 z res) ∧ (z = 0 → res = (zeroCode dst n, if n = true ∧ dst = .fp8e4z then 8 + 16 else 0))
  | .invalid => True

/-- A source widened into FP32, exactly (R122). -/
def WidensTo (x : Nat) (src : Fmt) (c : Nat) (res : Nat × Nat) : Prop :=
  match readNum x src c with
  | .nan => NaNResult x .fp32 [(src, c)] False res
  | .inf n => res = (infOf .fp32 n, 0)
  | .num n z => res.1 < 2 ^ 32 ∧ nanCode .fp32 res.1 = false ∧ infCode .fp32 res.1 = false ∧ codeValue .fp32 res.1 = z ∧ signOf .fp32 res.1 = n ∧ res.2 = 0
  | .invalid => True

/-- z rounded to an integer n by a mode (R123, R143). -/
def RoundsToInt (mode : Rnd) (z : ℝ) (n : ℤ) : Prop := RoundsTo (fun y => ∃ k : ℤ, y = k) (fun y => ∃ k : ℤ, y = 2 * k) mode 0 z n

/-- A float source converted into an integer of lo to hi (R123). -/
def IntConverts (x : Nat) (mode : Rnd) (lo hi : ℤ) (c : Nat) (n : ℤ) (fl : Nat) : Prop :=
  match readNum x .fp32 c with
  | .num _ z => ∃ k : ℤ, RoundsToInt mode z k ∧ (k < lo → n = lo ∧ fl = 1) ∧ (hi < k → n = hi ∧ fl = 1) ∧
      (lo ≤ k → k ≤ hi → n = k ∧ ((k : ℝ) = z → fl = 0) ∧ ((k : ℝ) ≠ z → fl = 16))
  | .inf s => n = (if s then lo else hi) ∧ fl = 1
  | _ => n = 0 ∧ fl = 1

/-- An integer rounded into FP32 (R123, R124). -/
def FloatsTo (x : Nat) (k : ℤ) (res : Nat × Nat) : Prop := (k ≠ 0 → RoundsOnce x .fp32 (rmOf x) 0 k res) ∧ (k = 0 → res = (0, 0))

/-- An element that holds the residues of k (R125). -/
def Residue (w : Nat) (k : ℤ) : Prop := (w % 512 : ℕ) = k % 511 ∧ (w / 2 ^ 9 % 512 : ℕ) = k % 512 ∧ (w / 2 ^ 18 : ℕ) = k % 513

/-- A signed reading of the low n bits. -/
def signedOf (n w : Nat) : ℤ := if w % 2 ^ n < 2 ^ (n - 1) then ((w % 2 ^ n : ℕ) : ℤ) else ((w % 2 ^ n : ℕ) : ℤ) - 2 ^ n

/-! ### The matrix array (05 R115, R126-R131, 07 R160-R171, 08 R183, 09 R206-R215) -/

/-- Element n of a packed stream of elements of w bits whose bytes f gives (R115). -/
def streamCode (f : Nat → Byte) (w n : Nat) : Nat := ((List.range w).map fun b => (f ((w * n + b) / 8)).toNat / 2 ^ ((w * n + b) % 8) % 2 * 2 ^ b).sum

/-- What R105, R160 and R183 give a form: the elements of A and of B, the class of its tile, K_step, KT, and whether the B record holds scales. -/
structure FormSpec where
  a : Elem
  b : Elem
  cls : TileClass
  kstep : Nat
  kt : Nat
  mx : Bool

/-- The table of R105 and R160. -/
def formSpec : MmaForm → FormSpec
  | .mmaBf16 => ⟨.float .bf16, .float .bf16, .acw, 2, 128, false⟩
  | .mmaFp16 => ⟨.float .fp16, .float .fp16, .acn, 2, 128, false⟩
  | .mmaE4 => ⟨.float .fp8e4, .float .fp8e4, .acn, 4, 256, false⟩
  | .mmaE5 => ⟨.float .fp8e5, .float .fp8e5, .acn, 4, 256, false⟩
  | .mmaF6a => ⟨.float .fp6e3, .float .fp6e3, .acn, 4, 256, false⟩
  | .mmaF6b => ⟨.float .fp6e2, .float .fp6e2, .acn, 4, 256, false⟩
  | .mmaF4 => ⟨.float .fp4, .float .fp4, .acn, 8, 512, false⟩
  | .mmaMx4 => ⟨.float .fp4, .float .fp4, .acw, 8, 512, true⟩
  | .mmaMx6a => ⟨.float .fp6e3, .float .fp6e3, .acw, 4, 256, true⟩
  | .mmaMx8 => ⟨.float .fp8e4, .float .fp8e4, .acw, 4, 256, true⟩
  | .mmaI8 => ⟨.int 8, .int 8, .acz, 8, 256, false⟩
  | .mmaI4 => ⟨.int 4, .int 4, .acz, 16, 512, false⟩
  | .mmaI8bf => ⟨.int 8, .float .bf16, .acw, 2, 128, false⟩
  | .mmaI8e4 => ⟨.int 8, .float .fp8e4, .acn, 4, 256, false⟩
  | .mmaBfmx4 => ⟨.float .bf16, .float .fp4, .acw, 2, 128, true⟩
  | .mmaE4bf => ⟨.float .fp8e4, .float .bf16, .acw, 2, 128, false⟩

/-- An operand element as an exact term; nothing is flushed (R120, R162). -/
noncomputable def operand (e : Elem) (c : Nat) : Ext :=
  match e with
  | .float f => readNum 0 f c
  | .int w => .num (decide (signedOf w c < 0)) (signedOf w c)

/-- A term under an E8M0 scale (R113). -/
noncomputable def Ext.scaled (code : Nat) (t : Ext) : Ext :=
  if code = 255 then .nan
  else match t with
    | .num n x => .num n (x * 2 ^ ((code : ℤ) - 127))
    | t => t

/-- The code of A element (i, k) of K chunk c (R162). -/
def aCode (g : Grove) (p : Nat) (e : Elem) (m : MmaArgs) (c i k : Nat) : Nat :=
  let tile := 2 ^ 24 * p + 16384 * (m.ta.val + c)
  if m.t then streamCode (fun o => tabGet 0 g.ta (tile + o)) e.width (64 * k + i) else streamCode (fun o => tabGet 0 g.ta (tile + 256 * i + o)) e.width k

/-- The bytes of the weight buffer from weight record c (R163): where the record's values start, and the offsets of its metadata and scales. -/
def recordAt (p : Nat) (x : FormSpec) (m : MmaArgs) (c : Nat) : Nat × Nat × Nat :=
  let sparse := decide (m.dm = .sparse)
  let values := (if sparse then 32 else 64) * x.kt * x.b.width / 8
  let scales := values + if sparse then 8 * x.kt else 0
  let size := scales + if x.mx then 64 * (x.kt / 32) else 0
  (2 ^ 24 * p + 131072 * m.wb.val + c * ((size + 1023) / 1024 * 1024), values, scales)

/-- The two positions kept in group q of column j of a sparse record (R164). -/
def keptAt (g : Grove) (p : Nat) (x : FormSpec) (m : MmaArgs) (c j q : Nat) : Nat × Nat :=
  let r := recordAt p x m c
  let v := streamCode (fun o => tabGet 0 g.wb (r.1 + r.2.1 + o)) 4 (j * (x.kt / 4) + q)
  (v % 4, v / 4)

/-- B element (k, j) of K chunk c with its scale; a zero position of a sparse group has none (R163, R164, R183). -/
noncomputable def bTerm (g : Grove) (p : Nat) (x : FormSpec) (m : MmaArgs) (c k j : Nat) : Option Ext :=
  let r := recordAt p x m c
  let code := fun n => streamCode (fun o => tabGet 0 g.wb (r.1 + o)) x.b.width n
  let under := fun (t : Ext) => if x.mx then t.scaled (tabGet 0 g.wb (r.1 + r.2.2 + j * (x.kt / 32) + k / 32)).toNat else t
  if m.dm = .sparse then
    let w := keptAt g p x m c j (k / 4)
    if k % 4 = w.1 then some (under (operand x.b (code (j * (x.kt / 2) + 2 * (k / 4)))))
    else if k % 4 = w.2 then some (under (operand x.b (code (j * (x.kt / 2) + 2 * (k / 4) + 1)))) else none
  else some (under (operand x.b (code (j * x.kt + k))))

/-- The code of element n of a slot of a latent mode (R165). -/
def latentCode (g : Grove) (p slot n : Nat) : Nat := streamCode (fun o => tabGet 0 g.wb (2 ^ 24 * p + 131072 * slot + o)) 16 n

/-- A sum of products of BF16 codes rounded into a staging buffer (R166, R167). -/
def Staged (ps : List (Nat × Nat)) (code : Nat) : Prop :=
  ∃ fl, SumsTo 0 .bf16 (ps.flatMap fun e => [(.bf16, e.1), (.bf16, e.2)]) (ps.map fun e => (readNum 0 .bf16 e.1).mul (readNum 0 .bf16 e.2)) (code, fl)

/-- Flag(p) (R128). -/
def Ext.flag : Ext → Nat
  | .nan | .invalid => 3
  | .inf n => if n then 2 else 1
  | .num _ _ => 0

/-- The value of 1 in an element's integer, and the bits of that integer (R127). -/
noncomputable def classUnit (c : TileClass) : ℝ × Nat :=
  match c with
  | .acw => (2 ^ (-320 : ℤ), 640)
  | .acn => (2 ^ (-64 : ℤ), 128)
  | _ => (1, 0)

/-- AddStep (R128): the products of one step added to an element x give y; ov says that the step overflows it. -/
def StepAdds (c : TileClass) (x : Int × Nat) (ps : List Ext) (y : Int × Nat) (ov : Bool) : Prop :=
  let fl := ps.foldl (fun a t => a ||| t.flag) x.2
  let u := (classUnit c).1
  let sum := (ps.map Ext.val).sum
  let v := x.1 * u + sum
  let top := 2 ^ ((classUnit c).2 - 1) * u
  if c = .acz then ov = false ∧ y.2 = 0 ∧ -67108351 ≤ y.1 ∧ y.1 ≤ 2 ^ 26 ∧ ∃ n : ℤ, v = y.1 + n * (511 * 512 * 513)
  else
    (fl ≠ 0 → y = (x.1, fl) ∧ ov = false) ∧
      (fl = 0 → (v < -top → y = (x.1, 2) ∧ ov = true) ∧ (top ≤ v → y = (x.1, 1) ∧ ov = true) ∧ (-top ≤ v → v < top → y.2 = 0 ∧ y.1 * u = v ∧ ov = false))

/-- Steps one after another added to an element (R128, R184). -/
def StepsAdd (c : TileClass) : Int × Nat → List (List Ext) → Int × Nat → Bool → Prop
  | x, [], y, ov => y = x ∧ ov = false
  | x, ps :: r, y, ov => ∃ z a b, StepAdds c x ps z a ∧ StepsAdd c z r y b ∧ ov = (a || b)

/-- 64 rows gain the products of steps, row by row and column by column: a poisoned row keeps everything, and a row in which a step overflows sets OVF (R128, R172). -/
def TileGains (c : TileClass) (u u' : AcUnit) (o o' : Option (Nat × Nat)) (steps : Nat → Nat → List (List Ext)) : Prop :=
  ∃ ov : Nat → Nat → Bool, ((∀ i < 64, ∀ j < 64, ov i j = false) → o' = o) ∧
    ∀ i < 64, let r := u.row i
      let r' := u'.row i
      (r.poison = true → r' = r ∧ ∀ j < 64, ov i j = false) ∧
        (r.poison = false → r' = { r with elems := r'.elems, ovf := r'.ovf } ∧ (r'.ovf = true ↔ r.ovf = true ∨ ∃ j < 64, ov i j = true) ∧
          ∀ j < 64, StepsAdd c (r.elem j) (steps i j) (r'.elem j) (ov i j))

/-- Nothing in the units of a grove that a command reads is poisoned, and no error waits to be found in the rows of its tile. -/
def Sound (g : Grove) (m : Msq) : Prop :=
  (∀ k, tabGet false g.taPoison k = false) ∧ (∀ k, tabGet false g.wbPoison k = false) ∧ ∀ i < 64, ((g.acUnit m.psel m.ac).row i).bad = false

/-- The image of a row of a class (R130). -/
def ImageOf (c : TileClass) (r : AcRow) (bs : List Byte) : Prop :=
  let n := match c with | .acw => 80 | .acn => 16 | _ => 4
  bs.length = 64 + 64 * n ∧
    leNat (bs.take 64) = (if r.poison then 1 else 0) + (if r.ovf then 2 else 0) + 4 * (match c with | .acw => 1 | .acn => 2 | _ => 3) + 2 ^ 32 * r.count +
      2 ^ 64 * (if c = .acz then 0 else ((List.range 64).map fun j => 4 ^ j * (r.elem j).2).sum) ∧
    ∀ j < 64, let w := leNat ((bs.drop (64 + n * j)).take n)
      if c = .acz then Residue w (r.elem j).1 else (w : ℤ) = (r.elem j).1 % 2 ^ (8 * n)

/-- A row whose elements lie in the range of its class; a poisoned one holds zeros (R127, R172). -/
structure RowFits (c : TileClass) (r : AcRow) : Prop where
  fields : r.count < 2 ^ 32 ∧ r.df = 0 ∧ r.bad = false
  range : ∀ j < 64, (r.elem j).2 < 4 ∧ (c = .acw → -2 ^ 639 ≤ (r.elem j).1 ∧ (r.elem j).1 < 2 ^ 639) ∧ (c = .acn → -2 ^ 127 ≤ (r.elem j).1 ∧ (r.elem j).1 < 2 ^ 127) ∧
    (c = .acz → -67108351 ≤ (r.elem j).1 ∧ (r.elem j).1 ≤ 2 ^ 26 ∧ (r.elem j).2 = 0)
  spoilt : r.poison = true → ∀ j < 64, r.elem j = (0, 0)

/-- An element of an image as a product of a step (R131). -/
noncomputable def imageTerm (c : TileClass) (e : Int × Nat) : Ext :=
  match e.2 with
  | 0 => .num (decide (e.1 < 0)) (e.1 * (classUnit c).1)
  | 1 => .inf false
  | 2 => .inf true
  | _ => .nan

/-- Little-endian fields of an A tile and of a weight slot. -/
def tileField (g : Grove) (p unit off n : Nat) : Nat := leNat ((List.range n).map fun i => tabGet 0 g.ta (2 ^ 24 * p + 16384 * unit + off + i))

/-- A little-endian field of a weight slot. -/
def slotField (g : Grove) (p slot off n : Nat) : Nat := leNat ((List.range n).map fun i => tabGet 0 g.wb (2 ^ 24 * p + 131072 * slot + off + i))

/-- An FP32 code rounded from z by RNE with no flush; an exact 0 gives a zero (R214). -/
def Rounds32 (z : ℝ) (c : Nat) : Prop := (z ≠ 0 → ∃ fl, RoundsOnce 0 .fp32 .rne 0 z (c, fl)) ∧ (z = 0 → c = 0 ∨ c = 2 ^ 31)

/-- An FP32 code that is finite. -/
def finite32 (c : Nat) : Bool := !nanCode .fp32 c && !infCode .fp32 c

/-- An edge function of R207: its coefficients and its value at a point. -/
def edge (a b : Int × Int) : Int × Int × (Int → Int → Int) := (-(b.2 - a.2), b.1 - a.1, fun x y => -(b.2 - a.2) * (x - a.1) + (b.1 - a.1) * (y - a.2))

/-- A batch entry (R206): its vertices, twice its area, the three edge functions of R207, and its depth × 2^33 at a pixel. -/
structure EntryIs (g : Grove) (p slot t : Nat) (area : Int) (e : Nat → Int × Int × (Int → Int → Int)) (z : Nat → Nat → Int) : Prop where
  edges : ∃ v : Nat → Int × Int, (∀ k < 3, v k = (signedOf 32 (slotField g p slot (64 + 64 * t + 8 * k) 4), signedOf 32 (slotField g p slot (64 + 64 * t + 8 * k + 4) 4))) ∧
    area = ((v 1).1 - (v 0).1) * ((v 2).2 - (v 0).2) - ((v 2).1 - (v 0).1) * ((v 1).2 - (v 0).2) ∧
    let w := if area < 0 then (v 0, v 2, v 1) else (v 0, v 1, v 2)
    e 0 = edge w.2.1 w.2.2 ∧ e 1 = edge w.2.2 w.1 ∧ e 2 = edge w.1 w.2.1
  depth : ∀ px py, z px py = 2 * signedOf 64 (slotField g p slot (64 + 64 * t + 24) 8) + (2 * px + 1) * signedOf 64 (slotField g p slot (64 + 64 * t + 32) 8) +
    (2 * py + 1) * signedOf 64 (slotField g p slot (64 + 64 * t + 40) 8)

/-- The quantised tap weights of a weight row (R211): w the weights' codes, ix the indices, q the weights × 2^8. -/
def Taps (w ix : Nat → Nat) (q : Nat → ℤ) : Prop :=
  let valid := fun k => ix k < 64 ∧ finite32 (w k) = true ∧ 0 < codeValue .fp32 (w k)
  ∃ u : Nat → ℝ, (∀ k < 8, (valid k → u k = codeValue .fp32 (w k)) ∧ (¬ valid k → u k = 0)) ∧
    let s := ((List.range 8).map u).sum
    (s = 0 → ∀ k < 8, q k = 0) ∧
      (s ≠ 0 → ∃ (m : Nat) (r : Nat → ℤ), m < 8 ∧ (∀ k < 8, u k ≤ u m ∧ (u k = u m → m ≤ k)) ∧ (∀ k < 8, (valid k → RoundsToInt .rne (256 * u k / s) (r k)) ∧ (¬ valid k → r k = 0)) ∧
        ∀ k < 8, q k = if k = m then r k + 256 - ((List.range 8).map r).sum else r k)

/-- A pixel as MBLEND takes it along (R213): T, LAST, NAPP, DONE and the elements of its row. -/
structure PixelAt where
  t : Nat
  last : Nat
  napp : Nat
  done : Bool
  elem : Nat → Int × Nat

/-- Splat fields that are finite, no padding, and a flat conic: CA = CB = CC = 0, so that e^q is 1 (R213, R214). -/
def FlatSplat (f : Nat → Nat) : Prop := f 10 ≠ 0xFFFFFFFF ∧ (∀ n < 6, finite32 (f n) = true) ∧ codeValue .fp32 (f 2) = 0 ∧ codeValue .fp32 (f 3) = 0 ∧ codeValue .fp32 (f 4) = 0

/-- The alpha of a flat splat (R214). -/
def FlatAlpha (f : Nat → Nat) (a : Nat) : Prop := Rounds32 (min (codeValue .fp32 (f 5)) (codeValue .fp32 0x3F7D70A4)) a

/-- One flat splat, with fields f, against one pixel that is not passed over (R214). -/
def Blends (f : Nat → Nat) (nch : Nat) (keep : Bool) (a b : PixelAt) : Prop :=
  ∃ al tn : Nat, FlatAlpha f al ∧ Rounds32 (codeValue .fp32 a.t * (1 - codeValue .fp32 al)) tn ∧
    (codeValue .fp32 al < 1 / 255 → b = a) ∧
    (1 / 255 ≤ codeValue .fp32 al → codeValue .fp32 tn < codeValue .fp32 0x38D1B717 → b = { a with done := true }) ∧
    (1 / 255 ≤ codeValue .fp32 al → codeValue .fp32 0x38D1B717 ≤ codeValue .fp32 tn →
      b = { a with t := tn, last := if keep then f 10 else a.last, napp := if keep then (a.napp + 1) % 2 ^ 32 else a.napp, elem := b.elem } ∧
      (∀ ch < nch, ∃ ov, StepAdds .acw (a.elem ch) [(readNum 0 .fp32 (f (6 + ch))).mul (.num (signOf .fp32 a.t) (codeValue .fp32 al * codeValue .fp32 a.t))] (b.elem ch) ov) ∧
      ∀ j, nch ≤ j → b.elem j = a.elem j)

/-- A pixel as MBLENDB takes it along (R213): TB, R and DONEB. -/
structure BackAt where
  tb : Nat
  r : Nat → Nat
  done : Bool

/-- One flat splat replayed against one pixel that is not passed over: the pixel after it, and what columns 0 to NCH - 1 of the splat's row gain, if it is applied (R215). -/
def Replays (f grad : Nat → Nat) (nch last : Nat) (a b : BackAt) (out : Option (Nat → Ext)) : Prop :=
  ∃ al tn : Nat, FlatAlpha f al ∧ Rounds32 (codeValue .fp32 a.tb * (1 - codeValue .fp32 al)) tn ∧
    let w := Ext.num (signOf .fp32 a.tb) (codeValue .fp32 al * codeValue .fp32 a.tb)
    (codeValue .fp32 al < 1 / 255 → b = a ∧ out = none) ∧
    (1 / 255 ≤ codeValue .fp32 al → codeValue .fp32 tn < codeValue .fp32 0x38D1B717 → b = { a with done := true } ∧ out = none) ∧
    (1 / 255 ≤ codeValue .fp32 al → codeValue .fp32 0x38D1B717 ≤ codeValue .fp32 tn →
      b = { tb := tn, r := b.r, done := decide (f 10 = last) } ∧
      (∀ ch, nch ≤ ch → b.r ch = a.r ch) ∧
      ∃ o, out = some o ∧ ∀ ch < nch,
        (∃ c fl, SumsTo 0 .fp32 [(.fp32, grad ch)] [(readNum 0 .fp32 (grad ch)).mul w] (c, fl) ∧ o ch = readNum 0 .fp32 c) ∧
        ∃ c fl, SumsTo 0 .fp32 [(.fp32, a.r ch), (.fp32, f (6 + ch))] [readNum 0 .fp32 (a.r ch), ((readNum 0 .fp32 (f (6 + ch))).mul w).opp] (c, fl) ∧
          b.r ch = if c = 2 ^ 31 ∧ fl = 0 then 0 else c)

/-- A command in flight of a grove whose turn at the array it is (R174). -/
def ChunkDue (s : State) (gid : Nat) (g : Grove) (m : Msq) : Prop := s.grove? gid = some g ∧ g.msq = some m ∧ s.chunkTurn g m = true

/-- A chunk turns grove g into g'; but for the units that changes nothing in g but the command in flight, and no other unit than the command's. -/
def ChunkGives (s : State) (gid : Nat) (fab : FabIn) (g : Grove) (m : Msq) (ta : Bool) (g' : Grove) (m' : Msq) : Prop :=
  (∃ t, exec (.sequencerChunk gid fab) s = .next t ∧ GroveBecomes (served s g m) t gid g') ∧ g' = { g with ac := g'.ac, ta := if ta then g'.ta else g.ta, msq := some m' } ∧
    (∀ k, k ≠ 16 * m.psel + m.ac → tabGet AcUnit.empty g'.ac k = tabGet AcUnit.empty g.ac k) ∧
    (g'.acUnit m.psel m.ac).cls = (g.acUnit m.psel m.ac).cls ∧ (g'.acUnit m.psel m.ac).interior = (g.acUnit m.psel m.ac).interior

/-- The products of element (i, j) in step number st of a dense or sparse command, A under the scales sc of its K chunk (R160, R164, R183). -/
noncomputable def stepProducts (g : Grove) (m : Msq) (x : FormSpec) (a : MmaArgs) (sc : List (Nat × Nat)) (st i j : Nat) : List Ext :=
  let n := if a.dm = .sparse then 2 * x.kstep else x.kstep
  let c := st / (x.kt / n)
  (List.range n).filterMap fun e =>
    let k := n * (st % (x.kt / n)) + e
    (bTerm g m.psel x a c k j).map fun b => ((operand x.a (aCode g m.psel x.a a c i k)).scaled (tabGet 127 sc (64 * (k / 32) + i))).mul b

/-- Steps of a K chunk, its staging steps among them (R160, R161). -/
def stepsOfChunk (x : FormSpec) (m : Msq) (a : MmaArgs) : Nat :=
  match a.dm with
  | .dense => x.kt / x.kstep
  | .sparse => x.kt / (2 * x.kstep)
  | .expand => m.rank + 64
  | .absorb => m.rank * (a.kc.val + 1) + m.rank / 2

/-- The groups of a sparse K chunk are well formed (R164). -/
def GroupsOk (g : Grove) (m : Msq) (x : FormSpec) (a : MmaArgs) : Prop :=
  ∀ j < 64, ∀ q < x.kt / 4, (keptAt g m.psel x a (m.step / stepsOfChunk x m a) j q).1 < (keptAt g m.psel x a (m.step / stepsOfChunk x m a) j q).2

/-- The A scales sc of a K chunk whose first step is the command's next, read from the scale threads (R168, R169); without them every scale is 1. -/
def ScalesRead (g : Grove) (f : MmaForm) (l : Option MmaLit) (c : Nat) (sc : List (Nat × Nat)) : Prop :=
  (∀ t, l = some t → t.ones = false → f ∈ [MmaForm.mmaMx4, .mmaMx6a, .mmaMx8, .mmaI8bf, .mmaE4bf] → ∀ i < 64, ∀ q < (formSpec f).kt / 32, ∀ u,
    g.lanes.find? (fun u => u.strand == t.sstr.val + i / g.desc.width && u.lane == i % g.desc.width) = some u →
    let j := c * ((formSpec f).kt / 32) + q
    tabGet 127 sc (64 * q + i) = (u.arch (.gpr (t.svb.val + j / 4))).toNat / 2 ^ (8 * ((t.sel.val + j) % 4)) % 256) ∧
  ((∀ t, l = some t → t.ones = true ∨ f ∉ [MmaForm.mmaMx4, .mmaMx6a, .mmaMx8, .mmaI8bf, .mmaE4bf]) → ∀ k, tabGet 127 sc k = 127)

/-- A row of the visibility tile (R206): depth × 2^33, ids, barycentrics and the front byte. -/
structure VisAt where
  z : Int
  tri : Nat
  inst : Nat
  b1 : Nat
  b2 : Nat
  front : Nat
  deriving DecidableEq

/-- The visibility row of pixel i in tile v. -/
def visOf (g : Grove) (p v i : Nat) : VisAt :=
  let f := fun off n => tileField g p v (256 * i + off) n
  ⟨signedOf 64 (f 0 8), f 8 4, f 12 4, f 16 4, f 20 4, f 24 1⟩

/-- Entry t of a batch against the visibility row of a pixel (R206, R208, R209): vertices in range, edges and depth, culling and depth test under MCS1 w. -/
def SeesEntry (g : Grove) (p slot t w : Nat) (area : Int) (e : Nat → Int × Int × (Int → Int → Int)) (z : Int) (x y : Int) (a b : VisAt) : Prop :=
  let f := fun off n => slotField g p slot (64 + 64 * t + off) n
  let at_ := fun k => (e k).2.2 x y
  let tri := f 48 4
  let inst := f 52 4
  let covers := (∀ n < 6, -2 ^ 23 ≤ signedOf 32 (f (4 * n) 4) ∧ signedOf 32 (f (4 * n) 4) < 2 ^ 23) ∧ tri ≠ 0xFFFFFFFF ∧ area ≠ 0 ∧
    (∀ k < 3, 0 < at_ k ∨ (at_ k = 0 ∧ (0 < (e k).1 ∨ ((e k).1 = 0 ∧ 0 < (e k).2.1)))) ∧ 0 ≤ z ∧ z ≤ 2 ^ 33 ∧
    ¬ (0 < area ∧ w / 4 % 2 = 1) ∧ ¬ (area < 0 ∧ w / 8 % 2 = 1)
  let wins := if a.tri = 0xFFFFFFFF then (match w % 4 with | 0 => z < a.z | 1 => z ≤ a.z | 2 => a.z < z | _ => a.z ≤ z)
    else if z = a.z then tri < a.tri ∨ (tri = a.tri ∧ inst < a.inst) else if w % 4 < 2 then z < a.z else a.z < z
  (covers ∧ wins → b = { z := z, tri := tri, inst := inst, b1 := b.b1, b2 := b.b2, front := if 0 < area then 1 else 0 } ∧
    Rounds32 ((at_ 1 : ℝ) / |(area : ℝ)|) b.b1 ∧ Rounds32 ((at_ 2 : ℝ) / |(area : ℝ)|) b.b2) ∧
  (¬ (covers ∧ wins) → b = a)

/-- Pixel i as MBLEND finds it (R213). -/
def pixelOf (g : Grove) (m : Msq) (ts i : Nat) : PixelAt :=
  let f := fun off n => tileField g m.psel ts (256 * i + off) n
  ⟨f 8 4, f 12 4, f 16 4, f 20 1 % 2 == 1, ((g.acUnit m.psel m.ac).row i).elem⟩

/-- Pixel i as MBLENDB finds it (R213). -/
def backOf (g : Grove) (m : Msq) (tg i : Nat) : BackAt :=
  let f := fun off n => tileField g m.psel tg (256 * i + off) n
  ⟨f 0 4, fun ch => f (20 + 4 * ch) 4, f 36 1 % 2 == 1⟩

/-! ### The copy engines (10 R225-R227, 13 R284-R288) -/

/-- A command's descriptor has been read: its moves, its die and what it delivers. -/
def PlansTo (s t : State) (id die : Nat) (ms : List Move) (dl : List (Nat × Nat)) : Prop :=
  t = { s with cmds := s.cmds.map fun x => if x.id = id then { x with planned := true, die := die, moves := ms, deliver := dl } else x }

/-- An engine reads the descriptor d of a started command of an operation, on the die that PLACE names or, number 9, in the hub (R282, R284). -/
structure ReadsDesc (s s1 : State) (id : Nat) (fab : FabIn) (c : EngCmd) (op : EngOp) (d : List Byte) (die : Nat) : Prop where
  command : s.cmd? id = some c
  resident : ∃ g, s.grove? c.gid = some g
  runs : s.engineRuns c = true
  started : c.started = true ∧ c.planned = false
  command_op : c.op = op
  place : die = if op = .coll ∨ c.place = .hub then 9 else if c.place = .dest ∧ op ≠ .tcopym ∧ op ≠ .route then
    (match s1.homeOf c.ctx (fieldOf d 8 8) with
      | .phys h => if h < 2 then h else c.die
      | _ => c.die) else c.die
  read : ∃ bs, s.unitRead (c.agent fab) 5 c.desc 512 = .ok (s1, bs) ∧ d = bs.map Prod.fst

/-- Index i_k of element i of a copy, dimension 0 fastest (R285). -/
def alongDim (d : List Byte) (k i : Nat) : Nat := i / ((List.range k).map fun j => fieldOf d (64 + 32 * j) 4).prod % fieldOf d (64 + 32 * k) 4

/-- The offset of element i on a side, whose strides stand at byte o of a dimension; idx takes the place of i_1 (R285). -/
def sideOffset (d : List Byte) (nd o i : Nat) (idx : Option (Nat → Nat)) : Int :=
  ((List.range nd).map fun k => ((if k = 1 then (idx.getD id) (alongDim d 1 i) else alongDim d k i : Nat) : Int) * signed64 (fieldOf d (64 + 32 * k + o) 8)).sum

/-- The address of an element: modulo 2^64, or in the issuing grove's scratchpad modulo 2^32, which the model lays at 2^64 (R284). -/
def elemAddr (base : Nat) (scr : Bool) (o : Int) : Nat :=
  if scr then 2 ^ 64 + (((base % 2 ^ 32 : Nat) + o) % 2 ^ 32).toNat else (((base : Int) + o) % 2 ^ 64).toNat

/-- The moves write bytes from dst on, each inside one line. -/
def MovesPut (dst : Nat) (out : List (Byte × Bool)) (ms : List Move) : Prop :=
  let bytes := fun (m : Move) => m.bytes.getD []
  ms.flatMap bytes = out ∧ ∀ pre m post, ms = pre ++ m :: post →
    m.dst = (dst + (pre.flatMap bytes).length) % 2 ^ 64 ∧ m.bytes ≠ none ∧ m.len = (bytes m).length ∧ m.dst % 128 + m.len ≤ 128

/-- The moves copy n bytes from src to dst, each inside one line. -/
def MovesCopy (dst src n : Nat) (ms : List Move) : Prop :=
  (ms.map Move.len).sum = n ∧ ∀ pre m post, ms = pre ++ m :: post →
    m.dst = dst + (pre.map Move.len).sum ∧ m.src = src + (pre.map Move.len).sum ∧ m.bytes = none ∧ m.dst % 128 + m.len ≤ 128

/-- The n bytes of a number, lowest first, clean. -/
def numBytes (n x : Nat) : List (Byte × Bool) := (List.range n).map fun i => (BitVec.ofNat 8 (x / 2 ^ (8 * i)), false)

/-- The place of a key of a format in the order of SORTK (R286). -/
def keyOrder (kf : Nat) (desc : Bool) (x : Nat) : Int :=
  let k : Int := if kf = 1 then signedOf 32 x else if kf = 2 then (if 2 ^ 31 ≤ x then 2 ^ 32 - 1 - x else x + 2 ^ 31) else x
  if desc then -k else k

/-- The canonical tree of COLL over the positions lo to hi - 1 (R225). -/
inductive TreeSum (leaf : Nat → Nat) : Nat → Nat → Nat → Prop where
  | leaf (lo : Nat) : TreeSum leaf lo (lo + 1) (leaf lo)
  | node (lo hi k x y z fl : Nat) : 2 ^ k < hi - lo → hi - lo ≤ 2 ^ (k + 1) → TreeSum leaf lo (lo + 2 ^ k) x → TreeSum leaf (lo + 2 ^ k) hi y →
      SumsTo 0 .fp32 [(.fp32, x), (.fp32, y)] [readNum 0 .fp32 x, readNum 0 .fp32 y] (z, fl) → TreeSum leaf lo hi z

/-- The format of FMT (R288). -/
def fmtOfColl (fmt : Nat) : Fmt := if fmt = 1 then .bf16 else if fmt = 2 then .fp16 else .fp32

/-- The element that n members' elements come to (R225, R226, R288). -/
def Combines (fn fmt n : Nat) (c : Nat → Nat) (y : Nat) : Prop :=
  let f := fmtOfColl fmt
  match fn with
  | 0 => ∃ (leaf : Nat → Nat) (z : Nat), (∀ p < n, if fmt = 0 then leaf p = c p else ∃ fl, WidensTo 0 f (c p) (leaf p, fl)) ∧ TreeSum leaf 0 n z ∧
      if fmt = 0 then y = z else ∃ fl, ConvertsTo 0 .fp32 f z (y, fl)
  | 1 =>
    let ts := (List.range n).map fun p => readNum 0 f (c p)
    let sum := (ts.map Ext.val).sum
    let bad := Ext.nan ∈ ts ∨ (Ext.inf true ∈ ts ∧ Ext.inf false ∈ ts)
    (bad → some y = f.canonNaN) ∧ (¬ bad → (∀ s, Ext.inf s ∈ ts → y = infOf f s) ∧
      ((∀ s, Ext.inf s ∉ ts) → (sum = 0 → y = 0) ∧ (sum ≠ 0 → ∃ fl, RoundsOnce 0 f .rne 0 sum (y, fl))))
  | 2 => y = ((List.range n).map c).sum % 2 ^ 32
  | 3 => (∃ p < n, y = c p) ∧ ∀ p < n, s32 y ≤ s32 (c p)
  | 4 => (∃ p < n, y = c p) ∧ ∀ p < n, s32 (c p) ≤ s32 y
  | _ => (∃ p < n, y = c p) ∧ ∀ p < n, c p ≤ y

end Sys2Proof.Safety
end

