-- ==== Sys2Proof/Certificates/Slice0/Obligations.lean ====
section
/-! DEFINITION. The statements for the provers, from the numbered rules of the spec. -/

open Sys2Proof Sys2Proof.Machine Sys2Proof.Safety

/-- The class A words, with FABS and FNEG: the result of each in every thread of the stand whose guard is true, as arithmetic on the operands read as numbers; it raises no flag but the IS of IADDS and ISUBS; nothing else changes (R134, R135, R136). -/
def Obligations.IntegerWords : Prop :=
  ∀ (h : Hdr) (d : Fin 64) (a : LaneA) (b : Fin 64) (k : Fin 8) (c : ICond),
    StandRun (.iadd h d a b) (rowBin h d a b fun x y _ => (x + y) % 2 ^ 32) ∧
    StandRun (.isub h d a b) (rowBin h d a b fun x y _ => wrap32 ((x : Int) - y)) ∧
    StandRun (.isubr h d a b) (rowBin h d a b fun x y _ => wrap32 ((y : Int) - x)) ∧
    StandRun (.imul h d a b) (rowBin h d a b fun x y _ => x * y % 2 ^ 32) ∧
    StandRun (.imulhi h d a b) (rowBin h d a b fun x y _ => wrap32 (s32 x * s32 y / 2 ^ 32)) ∧
    StandRun (.nmulhi h d a b) (rowBin h d a b fun x y _ => x * y / 2 ^ 32) ∧
    StandRun (.imad h d a b) (rowBin h d a b fun x y z => (x * y + z) % 2 ^ 32) ∧
    StandRun (.imin h d a b) (rowBin h d a b fun x y _ => if s32 x ≤ s32 y then x else y) ∧
    StandRun (.imax h d a b) (rowBin h d a b fun x y _ => if s32 x ≥ s32 y then x else y) ∧
    StandRun (.nmin h d a b) (rowBin h d a b fun x y _ => min x y) ∧
    StandRun (.nmax h d a b) (rowBin h d a b fun x y _ => max x y) ∧
    StandRun (.iabs h d a) (rowUn h d a fun x => (s32 x).natAbs) ∧
    StandRun (.and h d a b) (rowBin h d a b fun x y _ => x &&& y) ∧
    StandRun (.or h d a b) (rowBin h d a b fun x y _ => x ||| y) ∧
    StandRun (.xor h d a b) (rowBin h d a b fun x y _ => x ^^^ y) ∧
    StandRun (.andn h d a b) (rowBin h d a b fun x y _ => x &&& (2 ^ 32 - 1 - y)) ∧
    StandRun (.shl h d a b) (rowBin h d a b fun x y _ => if x % 256 < 32 then y * 2 ^ (x % 256) % 2 ^ 32 else 0) ∧
    StandRun (.shr h d a b) (rowBin h d a b fun x y _ => y / 2 ^ (x % 256)) ∧
    StandRun (.sar h d a b) (rowBin h d a b fun x y _ =>
        if x % 256 < 32 then wrap32 (s32 y / 2 ^ (x % 256)) else if 2 ^ 31 ≤ y then 2 ^ 32 - 1 else 0) ∧
    StandRun (.rotl h d a b) (rowBin h d a b fun x y _ => (y * 2 ^ (x % 32) + y / 2 ^ (32 - x % 32)) % 2 ^ 32) ∧
    StandRun (.bfx h d a b) (rowBin h d a b fun x y _ => bfxN x y) ∧
    StandRun (.bfxs h d a b) (rowBin h d a b fun x y _ => bfxsN x y) ∧
    StandRun (.bfi h d a b) (rowBin h d a b bfiN) ∧
    StandRun (.popc h d a) (rowUn h d a fun x => ((List.range 32).map fun i => x / 2 ^ i % 2).sum) ∧
    StandRun (.clz h d a) (rowUn h d a fun x => ((List.range 32).filter fun i => x < 2 ^ i).length) ∧
    StandRun (.ctz h d a) (rowUn h d a fun x => ((List.range 32).filter fun i => x % 2 ^ (i + 1) = 0).length) ∧
    StandRun (.brev h d a) (rowUn h d a fun x => ((List.range 32).map fun i => x / 2 ^ i % 2 * 2 ^ (31 - i)).sum) ∧
    StandRun (.iadd64 h d a b) (rowBin64 h d a b fun x y => x + y) ∧
    StandRun (.isub64 h d a b) (rowBin64 h d a b fun x y => x + (2 ^ 64 - y)) ∧
    StandRun (.imul64 h d a b) (rowBin64 h d a b fun x y => x * y) ∧
    StandRun (.shl64 h d a b) (rowShift64 h d a b fun x y => if x % 256 < 64 then y * 2 ^ (x % 256) else 0) ∧
    StandRun (.shr64 h d a b) (rowShift64 h d a b fun x y => y / 2 ^ (x % 256)) ∧
    StandRun (.icmp h k c a b) (rowPred h k a b fun x y => condI c (s32 x) (s32 y)) ∧
    StandRun (.ncmp h k c a b) (rowPred h k a b fun x y => condI c x y) ∧
    StandRun (.mov h d a) (rowUn h d a fun x => x) ∧
    StandRun (.mov64 h d a) ⟨⟨h, lenA a, false, 0, v2 d ++ needA64 a⟩, fun e t => ⟨pairOf d.val (readA64 e t a).toNat, 0, none⟩⟩ ∧
    StandRun (.iadds h d a b) (rowFlags h d a b fun _ x y _ => clampIS (s32 x + s32 y)) ∧
    StandRun (.isubs h d a b) (rowFlags h d a b fun _ x y _ => clampIS (s32 x - s32 y)) ∧
    StandRun (.dot4i h d a b) (rowBin h d a b fun x y z =>
        wrap32 (z + byteI x 0 * byteI y 0 + byteI x 1 * byteI y 1 + byteI x 2 * byteI y 2 + byteI x 3 * byteI y 3)) ∧
    StandRun (.dot4n h d a b) (rowBin h d a b fun x y z =>
        (z + byteN x 0 * byteN y 0 + byteN x 1 * byteN y 1 + byteN x 2 * byteN y 2 + byteN x 3 * byteN y 3) % 2 ^ 32) ∧
    StandRun (.pack h d a b) (rowBin h d a b fun x y _ => x % 2 ^ 16 + y % 2 ^ 16 * 2 ^ 16) ∧
    StandRun (.permb h d a b) (rowBin h d a b fun x y _ =>
        permbByte x y 0 + permbByte x y 1 * 2 ^ 8 + permbByte x y 2 * 2 ^ 16 + permbByte x y 3 * 2 ^ 24) ∧
    StandRun (.xswz h d a b) (rowBin h d a b fun x y _ => xswzN x y) ∧
    StandRun (.fabs h d a) (rowUn h d a fun x => x % 2 ^ 31) ∧
    StandRun (.fneg h d a) (rowUn h d a fun x => (x + 2 ^ 31) % 2 ^ 32)

/-- The class F words that leave 32 bits or predicates: the rounded result and the flags of the operation under the FPC of the thread; nothing else changes (R137 to R143). CVT, CVTQ and SFN: the converted value or the function, with its flags; CVTQ codes 0x35 and 0x36 read a pair and 0x37 leaves one (R144, R145). What the operations named here give is stated by FloatLaws. -/
def Obligations.FloatWords : Prop :=
  (∀ (h : Hdr) (d : Fin 64) (a : LaneA) (b : Fin 64) (k : Fin 8) (c : FCond) (e : RndSel),
    StandRun (.fadd h d a b) (rowFlags h d a b fun v x y _ => faddOp v .fp32 x y) ∧
    StandRun (.fsub h d a b) (rowFlags h d a b fun v x y _ => fsubOp v .fp32 x y) ∧
    StandRun (.fmul h d a b) (rowFlags h d a b fun v x y _ => fmulOp v .fp32 x y) ∧
    StandRun (.ffma h d a b) (rowFlags h d a b fun v x y z => ffmaOp v .fp32 false x y z) ∧
    StandRun (.ffms h d a b) (rowFlags h d a b fun v x y z => ffmaOp v .fp32 true x y z) ∧
    StandRun (.fmin h d a b) (rowFlags h d a b fun v x y _ => fminmax v .fp32 false false x y) ∧
    StandRun (.fmax h d a b) (rowFlags h d a b fun v x y _ => fminmax v .fp32 true false x y) ∧
    StandRun (.fminn h d a b) (rowFlags h d a b fun v x y _ => fminmax v .fp32 false true x y) ∧
    StandRun (.fmaxn h d a b) (rowFlags h d a b fun v x y _ => fminmax v .fp32 true true x y) ∧
    StandRun (.fcmp h k c a b) ⟨⟨h, lenA a, false, 0, needA a ++ v1 b⟩, fun e t =>
        let r := fcmpOp (FEnv.ofFpc t.fpc) .fp32 c (readA e t a).toNat (t.reg b.val).toNat
        ⟨[(.pred k.val, if r.1 then 1 else 0)], r.2, none⟩⟩ ∧
    StandRun (.fclass h d a) (rowUn h d a fun x => 2 ^ fclassOp x) ∧
    StandRun (.frnd h d a e) (rowFlagsUn h 0 d a fun v x => frndOp v (match e with
        | .rne => .rne | .rtz => .rtz | .rup => .rup | .rdn => .rdn | .fpc => v.rm) x) ∧
    StandRun (.fldexp h d a b) (rowFlags h d a b fun v x y _ => fldexpOp v x y) ∧
    StandRun (.ffract h d a) (rowFlagsUn h 0 d a ffractOp) ∧
    StandRun (.fsat h d a) (rowFlagsUn h 0 d a fsatOp) ∧
    StandRun (.hadd2 h d a b) (rowFlags h d a b fun v => halves fun x y _ => faddOp v .fp16 x y) ∧
    StandRun (.hmul2 h d a b) (rowFlags h d a b fun v => halves fun x y _ => fmulOp v .fp16 x y) ∧
    StandRun (.hfma2 h d a b) (rowFlags h d a b fun v => halves fun x y z => ffmaOp v .fp16 false x y z) ∧
    StandRun (.hmin2 h d a b) (rowFlags h d a b fun v => halves fun x y _ => fminmax v .fp16 false false x y) ∧
    StandRun (.hmax2 h d a b) (rowFlags h d a b fun v => halves fun x y _ => fminmax v .fp16 true false x y) ∧
    StandRun (.badd2 h d a b) (rowFlags h d a b fun v => halves fun x y _ => faddOp v .bf16 x y) ∧
    StandRun (.bmul2 h d a b) (rowFlags h d a b fun v => halves fun x y _ => fmulOp v .bf16 x y) ∧
    StandRun (.bfma2 h d a b) (rowFlags h d a b fun v => halves fun x y z => ffmaOp v .bf16 false x y z) ∧
    StandRun (.hcmp2 h k c a b) ⟨⟨h, lenA a, false, 0, needA a ++ v1 b⟩, fun e t =>
        let x := (readA e t a).toNat
        let y := (t.reg b.val).toNat
        let lo := fcmpOp (FEnv.ofFpc t.fpc) .fp16 c (x % 2 ^ 16) (y % 2 ^ 16)
        let hi := fcmpOp (FEnv.ofFpc t.fpc) .fp16 c (x / 2 ^ 16) (y / 2 ^ 16)
        ⟨[(.pred k.val, if lo.1 then 1 else 0), (.pred (k.val + 1), if hi.1 then 1 else 0)], lo.2 ||| hi.2, none⟩⟩ ∧
    StandRun (.fdot2 h d a b) (rowFlags h d a b fun v x y z => dotOp v .bf16 2 x y z) ∧
    StandRun (.hdot2 h d a b) (rowFlags h d a b fun v x y z => dotOp v .fp16 2 x y z) ∧
    StandRun (.qdot4 h d a b) (rowFlags h d a b fun v x y z => dotOp v .fp8e4 4 x y z)) ∧
  (∀ (h : Hdr) (d : Fin 64) (a : LaneA) (c : Fin 64) (e : SfnFn),
    StandRun (.cvt h d a c) (rowFlagsUn h 0 d a fun v x => convert v c.val x) ∧
    StandRun (.cvtq h d a c) ⟨⟨h, lenA a, false, if c.val = 0x37 then 2 else 1,
        (if c.val = 0x37 then v2 d else v1 d) ++ (if c.val = 0x35 ∨ c.val = 0x36 then needA64 a else needA a)⟩,
        fun env t =>
        let x := if c.val = 0x35 ∨ c.val = 0x36 then (readA64 env t a).toNat else (readA env t a).toNat
        let r := convert (FEnv.ofFpc t.fpc) c.val x
        ⟨if c.val = 0x37 then pairOf d.val (r.1 % 2 ^ 64) else [(.gpr d.val, BitVec.ofNat 32 r.1)], r.2, none⟩⟩ ∧
    StandRun (.sfn h d a e) (rowFlagsUn h 1 d a fun v x => sfnOp v e x))

/-- The class UA words but the float ones, and QPSET (R324, R325). The class UA float words under the front thread's FPC (R324), whose operations FloatLaws states. -/
def Obligations.UniformWords : Prop :=
  (∀ (h : Hdr) (d : Fin 32) (a : UniA) (b : UniB) (k p q : Fin 8) (c : UCond) (o : LogicOp) (m n : Bool),
    FrontRun (.sadd h d a b) (urowBin h d a b fun x y _ => (x + y) % 2 ^ 32) ∧
    FrontRun (.ssub h d a b) (urowBin h d a b fun x y _ => wrap32 ((x : Int) - y)) ∧
    FrontRun (.ssubr h d a b) (urowBin h d a b fun x y _ => wrap32 ((y : Int) - x)) ∧
    FrontRun (.smul h d a b) (urowBin h d a b fun x y _ => x * y % 2 ^ 32) ∧
    FrontRun (.smulhi h d a b) (urowBin h d a b fun x y _ => wrap32 (s32 x * s32 y / 2 ^ 32)) ∧
    FrontRun (.snmulhi h d a b) (urowBin h d a b fun x y _ => x * y / 2 ^ 32) ∧
    FrontRun (.smad h d a b) (urowBin h d a b fun x y z => (x * y + z) % 2 ^ 32) ∧
    FrontRun (.smin h d a b) (urowBin h d a b fun x y _ => if s32 x ≤ s32 y then x else y) ∧
    FrontRun (.smax h d a b) (urowBin h d a b fun x y _ => if s32 x ≥ s32 y then x else y) ∧
    FrontRun (.snmin h d a b) (urowBin h d a b fun x y _ => min x y) ∧
    FrontRun (.snmax h d a b) (urowBin h d a b fun x y _ => max x y) ∧
    FrontRun (.sand h d a b) (urowBin h d a b fun x y _ => x &&& y) ∧
    FrontRun (.sor h d a b) (urowBin h d a b fun x y _ => x ||| y) ∧
    FrontRun (.sxor h d a b) (urowBin h d a b fun x y _ => x ^^^ y) ∧
    FrontRun (.sandn h d a b) (urowBin h d a b fun x y _ => x &&& (2 ^ 32 - 1 - y)) ∧
    FrontRun (.sshl h d a b) (urowBin h d a b fun x y _ => if y % 256 < 32 then x * 2 ^ (y % 256) % 2 ^ 32 else 0) ∧
    FrontRun (.sshr h d a b) (urowBin h d a b fun x y _ => x / 2 ^ (y % 256)) ∧
    FrontRun (.ssar h d a b) (urowBin h d a b fun x y _ =>
        if y % 256 < 32 then wrap32 (s32 x / 2 ^ (y % 256)) else if 2 ^ 31 ≤ x then 2 ^ 32 - 1 else 0) ∧
    FrontRun (.sbfx h d a b) (urowBin h d a b fun x y _ => bfxN y x) ∧
    FrontRun (.sbfi h d a b) (urowBin h d a b fun x y z => bfiN y x z) ∧
    FrontRun (.spopc h d b) (urowUn h d b fun x => ((List.range 32).map fun i => x / 2 ^ i % 2).sum) ∧
    FrontRun (.sclz h d b) (urowUn h d b fun x => ((List.range 32).filter fun i => x < 2 ^ i).length) ∧
    FrontRun (.smov h d b) (urowUn h d b fun x => x) ∧
    FrontRun (.sadd64 h d a b) (urowBin64 h d a b fun x y => x + y) ∧
    FrontRun (.ssub64 h d a b) (urowBin64 h d a b fun x y => x + (2 ^ 64 - y)) ∧
    FrontRun (.scmp h k c a b) (urowPred h k a b fun _ x y => (condU c (s32 x) (s32 y), 0)) ∧
    FrontRun (.sncmp h k c a b) (urowPred h k a b fun _ x y => (condU c x y, 0)) ∧
    FrontRun (.ssel h d a b) (urowBin h d a b fun x y z => if z ≠ 0 then x else y) ∧
    FrontRun (.qpset h k p q o m n) ⟨⟨h, 1, false, 0, []⟩, fun _ t =>
        ⟨[(.pred k.val, if logicN o (xor (t.predSrc p.val) m) (xor (t.predSrc q.val) n) then 1 else 0)], 0, none⟩⟩) ∧
  (∀ (h : Hdr) (d : Fin 32) (a : UniA) (b : UniB) (k : Fin 8) (c : UCond) (e : Fin 64),
    FrontRun (.sfadd h d a b) (urowFlags h d a b fun v x y _ => faddOp v .fp32 x y) ∧
    FrontRun (.sfmul h d a b) (urowFlags h d a b fun v x y _ => fmulOp v .fp32 x y) ∧
    FrontRun (.sffma h d a b) (urowFlags h d a b fun v x y z => ffmaOp v .fp32 false x y z) ∧
    FrontRun (.sfcmp h k c a b) (urowPred h k a b fun v x y => fcmpOp v .fp32 (match c with
        | .eq => .eq | .ne => .ne | .lt => .lt | .ge => .ge) x y) ∧
    FrontRun (.scvt h d e b) ⟨⟨h, uniLen (.sp 0) b, false, 0, []⟩, fun env t =>
        let r := convert (FEnv.ofFpc t.fpc) e.val (readUB env t b).toNat
        ⟨[(.gpr d.val, BitVec.ofNat 32 r.1)], r.2, none⟩⟩)

/-- NOP and the transfers in both streams: a taken transfer goes to its target, a call pushes its link, a return pops one; a false guard goes past the word, and nothing else changes (R312, R315). -/
def Obligations.TransferWords : Prop :=
  ∀ (h : Hdr) (o : Fin 524288) (b : Fin 64) (x : Fin 32),
    StandTurns (.nop h) h [] false (fun _ _ => True) (fun u => past u 1) ∧
    StandTurns (.bra h o) h [] true (fun _ _ => True) (fun u => goTo u (branchTo u o)) ∧
    StandTurns (.brx h b) h (v1 b) true (fun _ _ => True) (fun u => goTo u (u.reg b.val)) ∧
    StandTurns (.call h o) h [] true (fun g u => callRoom g.desc.callstk u) (fun u => callTo u (branchTo u o)) ∧
    StandTurns (.callx h b) h (v1 b) true (fun g u => callRoom g.desc.callstk u) (fun u => callTo u (u.reg b.val)) ∧
    StandTurns (.ret h) h [] true (fun _ u => retRoom u) retCtl ∧
    FrontTurns (.snop h) h false (fun _ _ => True) (fun u => past u 1) ∧
    FrontTurns (.sbra h o) h true (fun _ _ => True) (fun u => goTo u (branchTo u o)) ∧
    FrontTurns (.sbrx h x) h true (fun _ _ => True) (fun u => goTo u (u.reg x.val)) ∧
    FrontTurns (.scall h o) h true (fun g u => callRoom g.desc.callstk u) (fun u => callTo u (branchTo u o)) ∧
    FrontTurns (.sret h) h true (fun _ u => retRoom u) retCtl

/-- The loop words in both streams, with the frame, level and count of each (R314). The end test of the innermost frame on a word at its end E (R314): with iterations left the counter falls by one and the PC goes to the body's start; at the last the frame is popped, and the PC goes past E, or, where the next frame ends at the same E, the test is repeated for that frame; away from E, the PC goes to the next word. -/
def Obligations.LoopWords : Prop :=
  (∀ (h : Hdr) (l : Fin 3) (n : Fin 256) (c : Fin 512) (b : Fin 64) (x : Fin 32),
    StandTurns (.loop h l n b) h (v1 b) true (fun _ u => loopRoom l.val u) (fun u => loopCtl u l.val (n.val + 1) (u.reg b.val)) ∧
    StandTurns (.loopi h l n c) h [] true (fun _ u => loopRoom l.val u) (fun u => loopCtl u l.val (n.val + 1) (BitVec.ofNat 32 c.val)) ∧
    StandTurns (.lbrk h) h [] true (fun _ u => u.now.frames ≠ []) breakCtl ∧
    FrontTurns (.sloop h l n x) h true (fun _ u => loopRoom l.val u) (fun u => loopCtl u l.val (n.val + 1) (u.reg x.val)) ∧
    FrontTurns (.sloopi h l n c) h true (fun _ u => loopRoom l.val u) (fun u => loopCtl u l.val (n.val + 1) (BitVec.ofNat 32 c.val)) ∧
    FrontTurns (.slbrk h) h true (fun _ u => u.now.frames ≠ []) breakCtl) ∧
  (∀ (u : Thread) (f : Frame) (r : List Frame), u.now.frames = f :: r →
    (f.last = u.now.pc → tabGet 0 u.now.lc f.level ≠ 1 →
      past u 1 = { u.now with pc := f.start, lc := tabSet 0 u.now.lc f.level (tabGet 0 u.now.lc f.level - 1) }) ∧
    (f.last = u.now.pc → tabGet 0 u.now.lc f.level = 1 → (∀ k ∈ r.head?, k.last ≠ u.now.pc) →
      past u 1 = { u.now with pc := u.now.pc + 1, lc := tabSet 0 u.now.lc f.level 0, frames := r }) ∧
    (∀ (k : Frame) (q : List Frame), f.last = u.now.pc → tabGet 0 u.now.lc f.level = 1 → r = k :: q → k.last = u.now.pc →
      let lc := tabSet 0 u.now.lc f.level 0
      (tabGet 0 lc k.level ≠ 1 → past u 1 = { u.now with pc := k.start, lc := tabSet 0 lc k.level (tabGet 0 lc k.level - 1), frames := r }) ∧
      (tabGet 0 lc k.level = 1 → (∀ z ∈ q.head?, z.last ≠ u.now.pc) →
        past u 1 = { u.now with pc := u.now.pc + 1, lc := tabSet 0 lc k.level 0, frames := q })) ∧
    (f.last ≠ u.now.pc → past u 1 = { u.now with pc := u.now.pc + 1 }))

/-- TRAP and BPT, STRAP and SBPT: with a true guard the thread enters its handler with cause SOFTWARE or BREAKPOINT and the word's CODE, TPC naming the word (R65, R66, R352, R354). ERET in both streams: with TH = 1 the thread returns from its handler to TPC, and the banked state comes back (R66, R315, R355). -/
def Obligations.TrapWords : Prop :=
  (∀ (h : Hdr) (c : Fin 65536),
    LaneTraps (.trap h c) h 0x15 c.val ∧ LaneTraps (.bpt h c) h 0x16 c.val ∧
    FrontTraps (.strap h c) h 0x15 c.val ∧ FrontTraps (.sbpt h c) h 0x16 c.val) ∧
  (∀ (h : Hdr),
    (∀ (s : State) (gid stand : Nat) (w l : Word) (g : Grove) (u : Thread),
      AloneAt s gid stand w l g h u → LaneDecodes ⟨h, 1, true, 0, []⟩ g stand → u.front = false → u.th = true → u.txn.eretTo = none →
      ∃ t u', exec (.eretLane h) s = .next t ∧ OneLeaves s t gid g u.tid u' ∧ Returned g.desc.vregs u u') ∧
    (∀ (s : State) (gid : Nat) (w l : Word) (g : Grove),
      FrontAloneAt s gid w l g h → FrontDecodes ⟨h, 1, true, 0, []⟩ g → g.front.front = true → g.front.th = true → g.front.txn.eretTo = none →
      ∃ t u', exec (.eret h) s = .next t ∧ FrontIs s t gid g u' ∧ Returned g.desc.vregs g.front u'))

/-- A trap taken and returned from at once leaves every register, the loop frames, counters and MM of the thread as they were, and the PC at the trapping word (R66). -/
def Obligations.TrapRoundTrip : Prop :=
  ∀ (n : Nat) (entry : Word) (ti : TrapInfo) (t : Thread), 8 ≤ n → t.txn.eretTo = none →
    let t' := (t.enterTrap n entry ti).leaveTrap n
    (∀ r, t'.arch r = t.arch r) ∧ (∀ k < 8, tabGet 0 t'.bankRegs k = tabGet 0 t.bankRegs k) ∧
      t'.ctl = { t.ctl with pc := ti.pc } ∧ t'.th = false ∧ t'.fpc = t.fpc ∧ t'.flg = t.flg

/-- EXIT and SEXIT: the thread exits once nothing it has issued is outstanding; the front thread's exit closes the decision queue and frees the threads that wait on it (R316, R37, R38). No thread of the device waits at a GBAR. YIELD, SYIELD and SWAITS change nothing but control, SYIELD marking that its front thread gives way; SWAITS once the array is idle and the grove's lanes have exited, with no seed and no traversal left (R316). -/
def Obligations.ThreadEndWords : Prop :=
  (∀ (h : Hdr) (s : State), (∀ o ∈ s.groves, ∀ v ∈ o.lanes, ∀ k n, v.wait ≠ .gbar k n) →
    (∀ (gid stand : Nat) (w l : Word) (g : Grove) (u : Thread),
      AloneAt s gid stand w l g h u → LaneDecodes ⟨h, 1, true, 0, []⟩ g stand → u.txn.isOpen = false →
      ∃ t u', exec (.exit h) s = .next t ∧ OneLeaves s t gid g u.tid u' ∧ HasExited u u') ∧
    (∀ (gid : Nat) (w l : Word) (g : Grove), FrontAloneAt s gid w l g h → FrontDecodes ⟨h, 1, true, 0, []⟩ g → g.msq = none →
      ∃ t u', exec (.sexit h) s = .next t ∧ OnlyGroves s t ∧ (∀ j, j ≠ gid → t.grove? j = s.grove? j) ∧
        t.grove? gid = some ({ g with front := u', dqClosed := true } : Grove).dqWake ∧ HasExited g.front u')) ∧
  (∀ (h : Hdr),
    StandTurns (.yield h) h [] true (fun _ _ => True) (fun u => past u 1) ∧
    (∀ (s : State) (gid : Nat) (w l : Word) (g : Grove), FrontAt s gid w l g → FrontDecodes ⟨h, 1, true, 0, []⟩ g →
      ∃ t, exec (.syield h) s = .next t ∧ FrontLeaves s t gid g fun u u' => u'.wait = .none ∧
        ended u' = { ended u with yielded := u.yielded || u.guard h, ctl := past u 1 }) ∧
    (∀ (s : State) (gid : Nat) (w l : Word) (g : Grove), FrontAt s gid w l g → FrontDecodes ⟨h, 1, true, 0, []⟩ g →
      g.msq = none → (∀ u ∈ g.lanes, u.life = .exited ∨ u.life = .empty) →
      (∀ e ∈ s.cores, ∀ x ∈ e.2.seeds, x.gid ≠ g.id) → (∀ r ∈ s.rays, r.gid ≠ g.id) → (∀ b ∈ s.beams, b.gid ≠ g.id) →
      ∃ t, exec (.swaits h) s = .next t ∧ FrontLeaves s t gid g (Turned h 1 fun u => past u 1)))

/-- GETSR and SGETSR: D takes the register's value at the segment's start, and the exchange form writes FPC, FLG or TPC at its end (R70, R71, R72). -/
def Obligations.SpecialRegisterWords : Prop :=
  ∀ (h : Hdr) (r : Fin 23),
    (∀ (d : Fin 64) (b : Option (Fin 64)) (s : State) (gid stand : Nat) (w l : Word) (g : Grove), StandAt s gid stand w l g →
      LaneDecodes ⟨h, 1, false, 1, v1 d ++ (b.map v1).getD []⟩ g stand → srReadable false r.val →
      (∀ u ∈ g.lanes, u.stand = stand → u.front = false ∧ FlagsPlaced u ∧ ∀ k, b = some k → srWritable r.val (u.reg k.val)) →
      ∃ t, exec (.getsr h d r b) s = .next t ∧ StandLeaves s t gid stand g fun u u' =>
        if u.guard h then SpecialRead s g r.val d.val (b.map Fin.val) u u' else u'.wait = .none ∧ ended u' = { ended u with ctl := past u 1 }) ∧
    (∀ (d : Fin 32) (b : Option (Fin 32)) (s : State) (gid : Nat) (w l : Word) (g : Grove), FrontAt s gid w l g →
      FrontDecodes ⟨h, 1, false, 1, []⟩ g → srReadable true r.val → FlagsPlaced g.front → (∀ k, b = some k → srWritable r.val (g.front.reg k.val)) →
      ∃ t, exec (.sgetsr h d r b) s = .next t ∧ FrontLeaves s t gid g fun u u' =>
        if u.guard h then SpecialRead s g r.val d.val (b.map Fin.val) u u' else u'.wait = .none ∧ ended u' = { ended u with ctl := past u 1 })

/-- MSET: MM takes the pair's value, the default, or its own value AND the pair's, with bits at or above W clear and the thread's own bit set (R151). QHOP: D takes the hops between the homes of two addresses: 0 between equal ends, 1 inside the package, and 2 with the peer's own hops to or from a peer (R56, R318). PSET and PMOV (R147, R148). -/
def Obligations.PredicateMaskHopWords : Prop :=
  ((∀ (h : Hdr) (m : MsetArg) (s : State) (gid stand : Nat) (w l : Word) (g : Grove), StandAt s gid stand w l g →
    LaneDecodes ⟨h, 1, true, 0, match m with | .pair b => v2 b | .dflt => [] | .andPair b => v2 b⟩ g stand →
    ∃ t, exec (.mset h m) s = .next t ∧ StandLeaves s t gid stand g (Turned h 1 fun u =>
      let x := match m with
        | .pair b => (u.pair b.val).toNat
        | .dflt => if u.seedling then ((g.lanes.filter fun v => v.strand == u.strand && v.life != .empty).foldl (fun x v => x ||| 2 ^ v.lane) 0) % 2 ^ 64 else 2 ^ u.width - 1
        | .andPair b => u.ctl.mm.toNat &&& (u.pair b.val).toNat
      seqCtl u 1 { u.now with pc := u.now.pc + 1, mm := BitVec.ofNat 64 (x % 2 ^ u.width ||| 2 ^ u.lane) })) ∧
  (∀ (h : Hdr) (d : Fin 64) (a : LaneA) (b : Fin 64) (s : State) (gid stand : Nat) (w l : Word) (g : Grove), StandAt s gid stand w l g →
    LaneDecodes ⟨h, lenA a, false, 0, v1 d ++ needA64 a ++ v2 b⟩ g stand →
    (∀ u ∈ g.lanes, u.stand = stand → (s.hopEnd g.ctx (readA64 (s.env g) u a).toNat).isSome ∧ (s.hopEnd g.ctx (u.pair b.val).toNat).isSome) →
    ∃ t, exec (.qhop h d a b) s = .next t ∧ StandLeaves s t gid stand g (Wrote h fun u =>
      ⟨[(.gpr d.val, BitVec.ofNat 32 (match s.hopEnd g.ctx (readA64 (s.env g) u a).toNat, s.hopEnd g.ctx (u.pair b.val).toNat with
        | some (.peer x m), some (.peer y n) => if x = y then 0 else 2 + m + n
        | some (.peer _ m), some _ => 2 + m
        | some _, some (.peer _ n) => 2 + n
        | x, y => if x = y then 0 else 1))], 0, none⟩))) ∧
  (∀ (h : Hdr) (k a b : Fin 8) (o : LogicOp) (m n : Bool) (v : Fin 64) (x : Fin 128),
    StandRun (.pset h k a b o m n) ⟨⟨h, 1, false, 0, []⟩, fun _ t =>
        ⟨[(.pred k.val, if logicN o (xor (t.predSrc a.val) m) (xor (t.predSrc b.val) n) then 1 else 0)], 0, none⟩⟩ ∧
    StandRun (.pmov h (.toPred v x)) ⟨⟨h, 1, false, 0, v1 v⟩, fun _ t =>
        ⟨(([1, 2, 3, 4, 5, 6, 7].filter fun k => x.val / 2 ^ (k - 1) % 2 = 1).map fun k =>
        (.pred k, if (t.reg v.val).toNat / 2 ^ k % 2 = 1 then 1 else 0)), 0, none⟩⟩ ∧
    StandRun (.pmov h (.fromPred v)) ⟨⟨h, 1, false, 0, v1 v⟩, fun _ t =>
        ⟨[(.gpr v.val, BitVec.ofNat 32 (([1, 2, 3, 4, 5, 6, 7].map fun k => if t.predSrc k then 2 ^ k else 0).sum))], 0, none⟩⟩)

/-- The cross-lane words of a stand that is one gathering: the shuffles fetch from a source lane, VOTE and BALLOT gather a predicate, SRED and SSCAN reduce, CMMAB and CMMAQ multiply, SYNCM moves no data (R149, R150, R153, R154, R155). SRED and SSCAN of an integer function over contributors (R155): the sum, the least or the greatest, whatever their order. -/
def Obligations.CrossLaneWords : Prop :=
  (∀ (h : Hdr) (d b : Fin 64) (c : ShufSrc) (k q : Fin 8) (n : Bool),
    let needs := v1 d ++ (match c with | .imm _ => [] | .reg c => v1 c) ++ v1 b
    let get := fun (f : Thread → Option Nat) (cs : List Thread) (u : Thread) => WordOut.of [(.gpr d.val, fetched b cs u (f u))]
    let vote := fun (f : List Bool → Bool) (cs : List Thread) (_ : Thread) => WordOut.of [(.pred k.val, if f (cs.map (ballotBit q n)) then 1 else 0)]
    CrossRun (.shfl h d c b) ⟨h, 1, false, 1, needs⟩ (get fun u => some (shufArg c u % u.width)) ∧
    CrossRun (.shflx h d c b) ⟨h, 1, false, 1, needs⟩ (get fun u => some (u.lane ^^^ (shufArg c u % u.width))) ∧
    CrossRun (.shflu h d c b) ⟨h, 1, false, 1, needs⟩ (get fun u => if shufArg c u ≤ u.lane then some (u.lane - shufArg c u) else none) ∧
    CrossRun (.shfld h d c b) ⟨h, 1, false, 1, needs⟩ (get fun u => if u.lane + shufArg c u < u.width then some (u.lane + shufArg c u) else none) ∧
    CrossRun (.vote h k q n .all) ⟨h, 1, false, 1, []⟩ (vote fun l => l.all id) ∧
    CrossRun (.vote h k q n .any) ⟨h, 1, false, 1, []⟩ (vote fun l => l.any id) ∧
    CrossRun (.vote h k q n .eq) ⟨h, 1, false, 1, []⟩ (vote fun l => l.all id || !l.any id) ∧
    CrossRun (.ballot h d q n) ⟨h, 1, false, 2, v2 d⟩ (fun cs _ =>
      .of (pairOf d.val ((List.range 64).foldl (fun x j => if cs.any (fun v => v.lane == j && ballotBit q n v) then x + 2 ^ j else x) 0))) ∧
    (∀ f, CrossRun (.sred h d f b) ⟨h, 1, false, if f = .add64 then 2 else 1, if f = .add64 then v2 d ++ v2 b else v1 d ++ v1 b⟩
      (fun cs u => redOut f d.val (reduce f b.val cs u))) ∧
    (∀ f x, CrossRun (.sscan h d f x b) ⟨h, 1, false, if f = .add64 then 2 else 1, if f = .add64 then v2 d ++ v2 b else v1 d ++ v1 b⟩
      (fun cs u => redOut f d.val (reduce f b.val (cs.filter fun v => if x then decide (v.lane < u.lane) else decide (v.lane ≤ u.lane)) u))) ∧
    (∀ e a b t, CrossRun (.cmmab h e a b t) ⟨h, 1, false, 16, [.v (16 * e.val) 16 16, .v (4 * a.val) 8 8, .v (4 * b.val) 8 8]⟩
      (cmmaFloat (match t with | .bf16 => .bf16 | .fp16 => .fp16) (16 * e.val) (4 * a.val) (4 * b.val))) ∧
    (∀ e a b t, CrossRun (.cmmaq h e a b t) ⟨h, 1, false, 16, [.v (16 * e.val) 16 16, .v (4 * a.val) 4 4, .v (4 * b.val) 4 4]⟩
      (match t with
        | .fp8e4 => cmmaFloat .fp8e4 (16 * e.val) (4 * a.val) (4 * b.val)
        | .fp8e5 => cmmaFloat .fp8e5 (16 * e.val) (4 * a.val) (4 * b.val)
        | .i8 => cmmaInt (16 * e.val) (4 * a.val) (4 * b.val))) ∧
    CrossRun (.syncm h) ⟨h, 1, true, 0, []⟩ (fun _ _ => .of [])) ∧
  (∀ (b : Nat) (cs : List Thread) (u : Thread),
    let xs := cs.map fun v => (v.reg b).toNat
    (reduce .add b cs u).1 = xs.sum % 2 ^ 32 ∧
    (reduce .add64 b cs u).1 = (cs.map fun v => (v.pair b).toNat).sum % 2 ^ 64 ∧
    (reduce .nmin b cs u).1 = xs.foldl min (2 ^ 32 - 1) ∧
    (reduce .nmax b cs u).1 = xs.foldl max 0 ∧
    (∀ y ∈ xs, s32 (reduce .min b cs u).1 ≤ s32 y) ∧ ((reduce .min b cs u).1 = 2 ^ 31 - 1 ∨ (reduce .min b cs u).1 ∈ xs) ∧
    (∀ y ∈ xs, s32 y ≤ s32 (reduce .max b cs u).1) ∧ ((reduce .max b cs u).1 = 2 ^ 31 ∨ (reduce .max b cs u).1 ∈ xs) ∧
    (∀ j < 32, (reduce .and b cs u).1.testBit j = xs.all fun y => y.testBit j) ∧
    (∀ j < 32, (reduce .or b cs u).1.testBit j = xs.any fun y => y.testBit j) ∧
    (∀ j < 32, (reduce .xor b cs u).1.testBit j = decide ((xs.filter fun y => y.testBit j).length % 2 = 1)) ∧
    ∀ f ∉ [RedFn.fsum, .fmin, .fmax], (reduce f b cs u).2 = 0)

/-- LDS, LDS2, LDS4 and SLDS: in each thread whose guard is true, each register takes the word of the scratchpad at the thread's swizzled address, lowest byte first; nothing else changes (R264, R265, R267). -/
def Obligations.ScratchLoads : Prop :=
  ∀ (h : Hdr) (d : Fin 64) (a : LaneA) (k : Fin 8) (f : Fin 32),
    (∀ p ∈ [(Instr.lds h d a k f, 1), (.lds2 h d a k f, 2), (.lds4 h d a k f, 4)],
      ∀ (s : State) (gid stand : Nat) (w l : Word) (g : Grove), StandAt s gid stand w l g →
        LaneDecodes ⟨h, lenA a, false, p.2, groupV d p.2 ++ needA a⟩ g stand →
        let ea := fun u => scratchEa (readA (s.env g) u a) (f.val * (4 * p.2)) k
        (∀ u ∈ activeOf g stand h, s.acquiring g.id (some u.tid) = false ∧ ScratchOk g (ea u) (4 * p.2) ∧ ScratchClean g (scratchSpot g u (ea u)) (4 * p.2)) →
        ∃ t, exec p.1 s = .next t ∧ StandLeaves s t gid stand g (Each h fun u =>
          Took (lenA a) ((List.range p.2).map fun i => (Reg.gpr (d.val + i), wordAt g (scratchSpot g u (ea u) + 4 * i))) u)) ∧
    (∀ (d : Fin 32) (a : UniA) (f : Fin 128) (s : State) (gid : Nat) (w l : Word) (g : Grove), FrontAt s gid w l g →
      FrontDecodes ⟨h, lenUA a, false, 1, []⟩ g → g.front.guard h = true → s.acquiring g.id none = false →
      let ea := scratchEa (readUA (s.env g) g.front a) (f.val * 4) k
      ScratchOk g ea 4 → ScratchClean g (scratchSpot g g.front ea) 4 →
      ∃ t, exec (.slds h d a k f) s = .next t ∧ FrontDoes s t gid g (Took (lenUA a) [(.gpr d.val, wordAt g (scratchSpot g g.front ea))] g.front))

/-- STS, STS2, STS4 and SSTS: the scratchpad takes the registers' bytes of each thread whose guard is true at its swizzled address, in ascending TID, so that of two that write a byte the highest TID's stands; every other byte of it is as it was (R231, R264, R265, R267). ATS of a grove whose choices are not logged: the threads act one after another in ascending TID, D takes the word found, and the scratchpad the new one (R269, R270). -/
def Obligations.ScratchWrites : Prop :=
  (∀ (h : Hdr) (d : Fin 64) (a : LaneA) (k : Fin 8) (f : Fin 32),
    (∀ p ∈ [(Instr.sts h d a k f, 1), (.sts2 h d a k f, 2), (.sts4 h d a k f, 4)],
      ∀ (s : State) (gid stand : Nat) (w l : Word) (g : Grove), StandAt s gid stand w l g →
        LaneDecodes ⟨h, lenA a, false, 0, groupV d p.2 ++ needA a⟩ g stand → NoneOpen g stand →
        let ea := fun u => scratchEa (readA (s.env g) u a) (f.val * (4 * p.2)) k
        (∀ u ∈ activeOf g stand h, s.acquiring g.id (some u.tid) = false ∧ ScratchOk g (ea u) (4 * p.2)) →
        ∃ t sc, exec p.1 s = .next t ∧ StandDoes s t gid stand { g with scratch := sc } (Each h fun u => Passed (lenA a) u) ∧
          ScratchChain g.scratch sc ((activeOf g stand h).map fun u => (scratchSpot g u (ea u), valuesFrom u d.val p.2))) ∧
    (∀ (d : Fin 32) (a : UniA) (f : Fin 128) (s : State) (gid : Nat) (w l : Word) (g : Grove), FrontAt s gid w l g →
      FrontDecodes ⟨h, lenUA a, false, 0, []⟩ g → g.front.guard h = true → FrontFree s g →
      let ea := scratchEa (readUA (s.env g) g.front a) (f.val * 4) k
      ScratchOk g ea 4 →
      ∃ t sc, exec (.ssts h d a k f) s = .next t ∧ FrontDoes s t gid { g with scratch := sc } (Passed (lenUA a) g.front) ∧
        ScratchAfter g.scratch sc (scratchSpot g g.front ea) [g.front.reg d.val])) ∧
  (∀ (h : Hdr) (d : Fin 64) (a : LaneA) (k : Fin 8) (f : AtFn) (s : State) (gid stand : Nat) (w l : Word) (g : Grove),
    StandAt s gid stand w l g → LaneDecodes ⟨h, lenA a, false, 1, (if f = .cas then v2 d else v1 d) ++ needA a⟩ g stand →
    NoneOpen g stand → g.unlogged = true →
    let ea := fun u => scratchEa (readA (s.env g) u a) 0 k
    (∀ u ∈ activeOf g stand h, s.acquiring g.id (some u.tid) = false ∧ u.txn.isOpen = false ∧ ScratchOk g (ea u) 4 ∧ ScratchClean g (scratchSpot g u (ea u)) 4) →
    ∃ (t : State) (sc : List (Nat × Byte)) (old : Thread → Word), exec (.ats h d a k f) s = .next t ∧
      StandDoes s t gid stand { g with scratch := sc } (Each h fun u => Took (lenA a) [(.gpr d.val, old u)] u) ∧
      ScratchTurns (fun u x => BitVec.ofNat 32 (atomNew f x.toNat (u.reg d.val).toNat (u.reg (d.val + 1)).toNat)) g.scratch sc
        ((activeOf g stand h).map fun u => (u, scratchSpot g u (ea u), old u)))

/-- The global loads of a stand, in each thread whose guard is true: where the L1 of the thread's core serves the load, the registers take the words of its copy at once, and what the core has read early is noted; else a request goes to the home of the address, and the registers await the value (R88, R246, R251, R264, R265). The uniform global loads and SLDK that the L1 does not serve send their request alike (R267). -/
def Obligations.GlobalLoads : Prop :=
  (∀ (h : Hdr) (p : Scope) (o : Order) (t : Hint),
    (∀ (d : Fin 64) (a : LaneA), ∀ i ∈ [(Instr.ldg h d a p o t, 1), (.ldg2 h d a p o t, 2), (.ldg4 h d a p o t, 4)],
      ∀ (s : State) (gid stand : Nat) (w l : Word) (g : Grove), StandAt s gid stand w l g → LaneDecodes ⟨h, lenA a, false, i.2, groupV d i.2 ++ needA64 a⟩ g stand →
        let ea := fun u => laneEa s g u a
        (∀ u ∈ activeOf g stand h, u.txn.isOpen = false ∧ s.loadHeld g.id (some u.tid) (ea u) = false ∧ AddressOk s g.ctx (ea u) (4 * i.2)) →
        ∃ r, exec i.1 s = .next r ∧
          StandLeaves ((activeOf g stand h).foldl (fun r u => match fromL1 s g u (ea u) i.2 t with
              | some (home, _) => r.noteEarly u.core home (lineKey home (ea u % 2 ^ 54)) false
              | none => withReq r (requestOf s g.id u .load (ea u) (4 * i.2) p o t [] (regsFrom d.val i.2) false)) s) r gid stand g
            (Each h fun u => match fromL1 s g u (ea u) i.2 t with
              | some (_, ws) => Took (lenA a) ((regsFrom d.val i.2).zip ws) u
              | none => Awaits (lenA a) (regsFrom d.val i.2) u)) ∧
    (∀ (d : Fin 32) (a : UniA) (f : Fin 32), ∀ i ∈ [(Instr.sldg h d a p o f, 1), (.sldg2 h d a p o f, 2), (.sldg4 h d a p o f, 4)],
      FrontSends i.1 ⟨h, lenUA a, false, i.2, groupS d i.2 ++ needUA64 a⟩
        (fun s g => let ea := frontEa s g a (f.val * (4 * i.2))
          s.loadHeld g.id none ea = false ∧ AddressOk s g.ctx ea (4 * i.2) ∧ NotInL1 s g g.front ea i.2 .normal)
        (fun s g => requestOf s g.id g.front .load (frontEa s g a (f.val * (4 * i.2))) (4 * i.2) p o .normal [] (regsFrom d.val i.2) false)) ∧
    (∀ (d : Fin 32) (a : UniA) (f : Fin 128),
      let at_ := fun (s : State) (g : Grove) => (readUA (s.env g) g.front a).toNat + 4 * f.val
      FrontSends (.sldk h d a f) ⟨h, lenUA a, false, 1, []⟩
        (fun s g => g.desc.const ≠ 0 ∧ at_ s g % 4 = 0 ∧ at_ s g < 65536 ∧ s.loadHeld g.id none (g.desc.const + (readUA (s.env g) g.front a).toNat + 4 * f.val) = false ∧
          AddressOk s g.ctx ((g.desc.const + at_ s g) % 2 ^ 64) 4)
        (fun s g => requestOf s g.id g.front .load ((g.desc.const + at_ s g) % 2 ^ 64) 4 .device .relaxed .bypassL1 [] [.gpr d.val] false) ∧
      ∀ (s : State) (gid : Nat) (w l : Word) (g : Grove), FrontAt s gid w l g → FrontDecodes ⟨h, lenUA a, false, 1, []⟩ g → g.front.guard h = true →
        g.desc.const = 0 → at_ s g % 4 = 0 → at_ s g < 65536 → s.loadHeld g.id none ((readUA (s.env g) g.front a).toNat + 4 * f.val) = false →
        ∃ t, exec (.sldk h d a f) s = .next t ∧ FrontDoes s t gid g (Took (lenUA a) [(.gpr d.val, 0)] g.front)))

/-- The global stores: for each thread whose guard is true, in ascending TID, a request with the registers' values goes to the home of the address (R88, R231, R264, R265, R267). -/
def Obligations.GlobalStores : Prop :=
  ∀ (h : Hdr) (p : Scope) (o : Order) (t : Hint),
    (∀ (d : Fin 64) (a : LaneA), ∀ i ∈ [(Instr.stg h d a p o t, 1), (.stg2 h d a p o t, 2), (.stg4 h d a p o t, 4)],
      LaneSends i.1 ⟨h, lenA a, false, 0, groupV d i.2 ++ needA64 a⟩
        (fun s g stand u => NoneOpen g stand ∧ s.acquiring g.id (some u.tid) = false ∧ AddressOk s g.ctx (laneEa s g u a) (4 * i.2))
        (fun s g u => requestOf s g.id u .store (laneEa s g u a) (4 * i.2) p o t (valuesFrom u d.val i.2) [] false)) ∧
    (∀ (d : Fin 32) (a : UniA) (f : Fin 32), ∀ i ∈ [(Instr.sstg h d a p o f, 1), (.sstg2 h d a p o f, 2)],
      FrontSends i.1 ⟨h, lenUA a, false, 0, groupS d i.2 ++ needUA64 a⟩
        (fun s g => FrontFree s g ∧ AddressOk s g.ctx (frontEa s g a (f.val * (4 * i.2))) (4 * i.2))
        (fun s g => requestOf s g.id g.front .store (frontEa s g a (f.val * (4 * i.2))) (4 * i.2) p o .normal (valuesFrom g.front d.val i.2) [] false))

/-- ATG, ATGX and SATG that do not execute in an L1: a request with the operands goes to the home, and the registers that take the old value await it (R88, R254, R269, R270). One that executes in the L1 of its thread's core takes the old value from the copy there at once, and its store is accepted; which of the atomics that may do so does is the model's choice (log 6). -/
def Obligations.GlobalAtomics : Prop :=
  ∀ (h : Hdr) (p : Scope) (o : Order),
    (∀ (d : Fin 64) (a : LaneA) (f : AtFn), LaneSends (.atg h d a p o f) ⟨h, lenA a, false, 1, groupV d (operandsOf f) ++ needA64 a⟩
      (fun s g stand u => NoneOpen g stand ∧ s.acquiring g.id (some u.tid) = false ∧ AddressOk s g.ctx (laneEa s g u a) 4 ∧
        NotInL1Atomic s g u (laneEa s g u a) 4 p o)
      (fun s g u => requestOf s g.id u (.atom f) (laneEa s g u a) 4 p o .normal (valuesFrom u d.val (operandsOf f)) [.gpr d.val] false)) ∧
    (∀ (d : Fin 64) (a : LaneA) (f : AtxFn), LaneSends (.atgx h d a p o f) ⟨h, lenA a, false, (atxRow f).2.2, groupV d (atxRow f).2.1 ++ needA64 a⟩
      (fun s g stand u => NoneOpen g stand ∧ s.acquiring g.id (some u.tid) = false ∧ AddressOk s g.ctx (laneEa s g u a) (atxRow f).1 ∧
        NotInL1Atomic s g u (laneEa s g u a) (atxRow f).1 p o)
      (fun s g u => requestOf s g.id u (.atomx f) (laneEa s g u a) (atxRow f).1 p o .normal (valuesFrom u d.val (atxRow f).2.1)
        (regsFrom d.val (atxRow f).2.2) false)) ∧
    (∀ (d : Fin 32) (a : UniA) (f : AtFn), FrontSends (.satg h d a p o f) ⟨h, lenUA a, false, 1, groupS d (operandsOf f) ++ needUA64 a⟩
      (fun s g => FrontFree s g ∧ AddressOk s g.ctx (frontEa s g a 0) 4 ∧ NotInL1Atomic s g g.front (frontEa s g a 0) 4 p o)
      (fun s g => requestOf s g.id g.front (.atom f) (frontEa s g a 0) 4 p o .normal (valuesFrom g.front d.val (operandsOf f)) [.gpr d.val] false)) ∧
    -- in an L1: the old value is that of its copy
    (∀ (d : Fin 64) (a : LaneA) (s : State) (gid stand : Nat) (w l : Word) (g : Grove) (u : Thread) (home pk : Nat) (c : L1Line), OneAt s gid stand w l g h u → NoneOpen g stand →
      s.acquiring g.id (some u.tid) = false → u.txn.isOpen = false →
      let ea := laneEa s g u a
      let old := fun size => (List.range size).map fun k => c.bytes.getD (ea % 128 + k) 0
      (∀ f, LaneDecodes ⟨h, lenA a, false, 1, groupV d (operandsOf f) ++ needA64 a⟩ g stand → AddressOk s g.ctx ea 4 → InL1Atomic s g u ea 4 p o home pk c →
        let x := (toWords 1 (old 4)).getD 0 0
        ∃ t r g', exec (.atg h d a p o f) s = .next t ∧ LaneDoes r t gid stand g' u (Took (lenA a) [(.gpr d.val, x)] u) ∧
          L1Stored s r g g' (requestOf s g.id u (.atom f) ea 4 p o .normal [] [] false) home pk
            (toBytes [BitVec.ofNat 32 (atomNew f x.toNat (u.reg d.val).toNat (u.reg (d.val + 1)).toNat)])) ∧
      ∀ f, LaneDecodes ⟨h, lenA a, false, (atxRow f).2.2, groupV d (atxRow f).2.1 ++ needA64 a⟩ g stand → AddressOk s g.ctx ea (atxRow f).1 → InL1Atomic s g u ea (atxRow f).1 p o home pk c →
        ∃ t r g', exec (.atgx h d a p o f) s = .next t ∧
          LaneDoes r t gid stand g' u (Took (lenA a) ((regsFrom d.val (atxRow f).2.2).zip (toWords ((atxRow f).1 / 4) (old (atxRow f).1))) u) ∧
          L1Stored s r g g' (requestOf s g.id u (.atomx f) ea (atxRow f).1 p o .normal [] [] false) home pk
            (atxNew f (natBit u.fpc 2) (valuesFrom u d.val (atxRow f).2.1) (old (atxRow f).1))) ∧
    ∀ (d : Fin 32) (a : UniA) (f : AtFn) (s : State) (gid : Nat) (w l : Word) (g : Grove) (home pk : Nat) (c : L1Line), FrontAt s gid w l g → g.front.guard h = true → FrontFree s g →
      g.front.txn.isOpen = false → FrontDecodes ⟨h, lenUA a, false, 1, groupS d (operandsOf f) ++ needUA64 a⟩ g →
      let ea := frontEa s g a 0
      AddressOk s g.ctx ea 4 → InL1Atomic s g g.front ea 4 p o home pk c →
      let x := (toWords 1 ((List.range 4).map fun k => c.bytes.getD (ea % 128 + k) 0)).getD 0 0
      ∃ t r g', exec (.satg h d a p o f) s = .next t ∧ FrontDoes r t gid g' (Took (lenUA a) [(.gpr d.val, x)] g.front) ∧
        L1Stored s r g g' (requestOf s g.id g.front (.atom f) ea 4 p o .normal [] [] false) home pk
          (toBytes [BitVec.ofNat 32 (atomNew f x.toNat (g.front.reg d.val).toNat (g.front.reg (d.val + 1)).toNat)])

/-- PRF and SPRF send a prefetch of the line when the address has a physical home and no transaction is open, and otherwise do nothing; they never trap (R268). -/
def Obligations.Prefetches : Prop :=
  ∀ (h : Hdr),
    (∀ (a : LaneA) (t : Hint) (s : State) (gid stand : Nat) (w l : Word) (g : Grove), StandAt s gid stand w l g →
      LaneDecodes ⟨h, lenA a, false, 0, needA64 a⟩ g stand → NoneOpen g stand → (∀ u ∈ activeOf g stand h, s.acquiring g.id (some u.tid) = false) →
      ∃ r, exec (.prf h a t) s = .next r ∧ StandLeaves
        ((activeOf g stand h).foldl (fun r u => match s.homeOf g.ctx (laneEa s g u a) with
          | .phys _ => if u.txn.isOpen then r else withReq r (requestOf s g.id u .prefetch (laneEa s g u a) 128 .plain .relaxed t [] [] false)
          | _ => r) s)
        r gid stand g (Each h fun u => Passed (lenA a) u)) ∧
    (∀ (a : UniA) (f : Fin 32) (s : State) (gid : Nat) (w l : Word) (g : Grove), FrontAt s gid w l g →
      FrontDecodes ⟨h, lenUA a, false, 0, needUA64 a⟩ g → g.front.guard h = true → FrontFree s g →
      ∃ r, exec (.sprf h a f) s = .next r ∧ FrontDoes
        (match s.homeOf g.ctx (frontEa s g a (4 * f.val)) with
          | .phys _ => if g.front.txn.isOpen then s else withReq s (requestOf s g.id g.front .prefetch (frontEa s g a (4 * f.val)) 128 .plain .relaxed .normal [] [] false)
          | _ => s)
        r gid g (Passed (lenUA a) g.front))

/-- A load that arrives at its home is answered with the words its cluster sees there, memory is unchanged, and a load that fills leaves its core's L1 with a copy of the line, within the lines of the carve, and grants a lease that ends after the lease length or just before the next store's visibility time (R234, R245, R246, R247, R249). The end of a lease granted now (R246): after L ticks, for home 3 after at most 1,000, and before the visibility time of every accepted store of the line that lies ahead. -/
def Obligations.LoadsAtHome : Prop :=
  (∀ (s : State) (id : Nat) (r : Req) (g : Grove) (home pk code : Nat), AtHome s id r g home pk code .load → r.op = .load → r.txn = false →
    g.verify ≠ 2 → (∀ i < r.size, tabGet false s.poison ((pk + i) / 32) = false) →
    ∃ t, exec (.loadAtHome id) s = .next t ∧ SameMemory s t ∧
      t.reqs = s.reqs.map (fun x => if x.id = id then { x with answer := some (toWords (r.size / 4) (s.bytesFor (some r.core) pk r.size)) } else x) ∧
      t.thread? r.gid (sender r) = (s.thread? r.gid (sender r)).map (checkClosed r) ∧
      let lk := lineKey home (r.va % 2 ^ 54)
      let copy : L1Line := ⟨lk, g.ctx, s.leaseEnd g.ctx home lk, code, s.bytesFor (some r.core) (pk - r.va % 128) 128⟩
      let old := (s.core r.core).l1
      let new := (t.core r.core).l1
      if usesL1 r.hint then
        copy ∈ new ∧ (∀ x ∈ new, x ≠ copy → x ∈ old ∧ ¬ (x.key = lk ∧ x.ctx = g.ctx)) ∧ (∀ x ∈ old, x.ctx ≠ g.ctx → x ∈ new) ∧
          (1 ≤ g.desc.l1 → (new.filter fun x => x.ctx == g.ctx).length ≤ 512 * g.desc.l1) ∧ (t.line lk).h = max (s.line lk).h (s.leaseEnd g.ctx home lk)
      else new = old ∧ t.line lk = s.line lk) ∧
  (∀ (s : State) (ctx home key : Nat),
    let l := (s.csrRaw ctx 1).toNat % 2 ^ 13
    s.leaseEnd ctx home key ≤ s.gt + (if home = 3 then min l 1000 else l) ∧
      (∀ x ∈ s.pend, x.line = key → s.gt < x.vt → s.leaseEnd ctx home key < x.vt) ∧
      ((∀ x ∈ s.pend, x.line = key → x.vt ≤ s.gt) → s.leaseEnd ctx home key = s.gt + if home = 3 then min l 1000 else l))

/-- The value of an answered load or atomic returns, on a die that does not relock: the registers that awaited it take it, the request is gone, and nothing else changes (R86, R265, R270). -/
def Obligations.ValuesReturn : Prop :=
  ∀ (s : State) (id : Nat) (r : Req) (ws : List Word), s.req? id = some r → r.answer = some ws → s.clocked (r.core / 128) = true →
    ∀ (data : List Word) (fate : Nat), ∃ t, exec (.loadReturn id data fate) s = .next t ∧ t = { s with groves := t.groves, reqs := s.reqs.filter fun x => decide (x.id ≠ id) } ∧
      t.thread? r.gid (sender r) = (s.thread? r.gid (sender r)).map (valuesIn r ws) ∧
      ∀ k, k ≠ r.gid → t.grove? k = s.grove? k

/-- A store that arrives at its home, once its release condition is met and no earlier write to the line is on its way, is accepted: it waits for its visibility time, memory's own bytes are as before, and the request is gone (R245, R249, R251, R265). An atomic that arrives at its home reads the latest store in coherence order and writes next after it; one that returns is answered with the old value (R245, R254, R269, R270). -/
def Obligations.WritesAtHome : Prop :=
  (∀ (s : State) (id : Nat) (r : Req) (g : Grove) (home pk code : Nat), AtHome s id r g home pk code .store → r.op = .store → g.verify = 0 →
    s.mayPerform r = true → s.writeWaits g r = false →
    ∀ fate, ∃ t, exec (.storeArrival id fate) s = .next t ∧ t.mem = s.mem ∧ t.pend = s.pend ++ [acceptedNow s home r pk (toBytes r.data)] ∧
      (t.line (lineKey home (r.va % 2 ^ 54))).p = (acceptedNow s home r pk []).vt ∧
      t.reqs = s.reqs.filter (fun x => decide (x.id ≠ id)) ∧
      t.thread? r.gid (sender r) = (s.thread? r.gid (sender r)).map (checkClosed r)) ∧
  (∀ (s : State) (id : Nat) (r : Req) (g : Grove) (home pk code : Nat), AtHome s id r g home pk code .store → r.va < 2 ^ 64 → g.verify = 0 → g.desc.mode = 0 →
    s.mayPerform r = true → s.writeWaits g r = false → (∀ i < r.size, tabGet false s.poison ((pk + i) / 32) = false) →
    ∀ new : List Byte,
      (∀ f, r.op = .atom f → r.size = 4 ∧ new = toBytes [BitVec.ofNat 32 (atomNew f ((toWords 1 (s.bytesLatest pk 4)).getD 0 0).toNat (r.data.getD 0 0).toNat (r.data.getD 1 0).toNat)]) →
      (∀ f, r.op = .atomx f → new = atxNew f r.daz r.data (s.bytesLatest pk r.size)) → r.op.isAtomic = true →
      ∃ t, exec (.atomicAtHome id) s = .next t ∧ t.mem = s.mem ∧ t.pend = s.pend ++ [acceptedNow s home r pk new] ∧
        (t.line (lineKey home (r.va % 2 ^ 54))).p = (acceptedNow s home r pk []).vt ∧
        t.reqs = (if r.regs = [] then s.reqs.filter (fun x => decide (x.id ≠ id))
          else s.reqs.map fun x => if x.id = id then { x with answer := some (toWords (r.size / 4) (s.bytesLatest pk r.size)) } else x) ∧
        t.thread? r.gid (sender r) = (s.thread? r.gid (sender r)).map (checkClosed r))

/-- A segment that has ended without a trap, a park or an abort becomes architectural once its results have returned and its checks are answered: in the front thread, and in every such thread of a stand none of whose checks is open (R86, R88). -/
def Obligations.SegmentCommits : Prop :=
  ∀ (s : State) (gid : Nat) (g : Grove), s.grove? gid = some g →
    (s.mayRun g g.front.core = true → EndsPlainly g.front → g.front.commitReady = true →
      ∃ t u', exec (.segmentCommit gid none) s = .next t ∧ FrontIs s t gid g u' ∧ u'.seg = none ∧ ended u' = ended g.front) ∧
    (∀ u ∈ g.lanes, s.mayRun g u.core = true → (g.lanes.map Thread.tid).Nodup →
      (∀ v ∈ g.lanes, v.team = u.team → EndsPlainly v ∧ ∀ x, v.seg = some x → x.checks = []) →
      ∃ t g', exec (.segmentCommit gid (some u.tid)) s = .next t ∧ GroveBecomes s t gid g' ∧ OnlyLanes g g' ∧ g'.lanes.map Thread.tid = g.lanes.map Thread.tid ∧
        ∀ v ∈ g.lanes, ∃ v' ∈ g'.lanes, v'.tid = v.tid ∧
          if v.team = u.team ∧ v.commitReady = true then v'.seg = none ∧ ended v' = ended v else v' = v)

/-- A store passes the junction of the cluster whose core it came through: the other cores of the cluster see it, and their L1 copies of its line take what they see; once GT has reached its visibility time the junction lets it go. A peer's acknowledgement is noted, and the host's answer to a line request brings its data, or ownership alone (R249, R261, R263). -/
def Obligations.JunctionPeersHost : Prop :=
  ∀ (s : State) (k n : Nat),
    (s.clocked (k / 32) = true → (∀ x ∈ s.pend, x.id = n → x.shared = true ∨ x.core.map (· / 4) ≠ some k) →
      exec (.clusterJunctionRelease k n) s = .next { s with junction := s.junction.filter fun e => decide ¬ (e.1 = k ∧ e.2.1 = n ∧ e.2.2 ≤ s.gt) }) ∧
    (∀ (x : Store) (c : Nat), s.clocked (k / 32) = true → (s.pend.find? fun y => y.id == n) = some x → x.shared = false → x.core = some c → c / 4 = k →
      let seen := s.pend.map fun y => if y.id = n then { y with shared := true } else y
      let pa := (x.bytes.map Prod.fst).headD 0 / 128 * 128
      ∃ t, exec (.clusterJunctionRelease k n) s = .next t ∧ t = { s with pend := seen, cores := t.cores } ∧
        ∀ j, t.core j = { s.core j with l1 := if j / 4 = k ∧ j ≠ c then (s.core j).l1.map fun y => if y.key = x.line then
            { y with bytes := (List.range 128).map fun i => if pa + i ∈ x.bytes.map Prod.fst then t.byteFor (some j) (pa + i) else y.bytes.getD i 0 } else y
          else (s.core j).l1 }) ∧
    (exec (.peerStoreAck n) s = .next { s with peerStores := s.peerStores.filter fun x => decide (x.id ≠ n) }) ∧
    (∀ (c : Nat) (data : List Byte), c < 3 → data.length = 128 → (∀ e ∈ s.hostReqs, e.1 = n → e = (n, c)) → (n, c) ∈ s.hostReqs →
      ∃ t, exec (.cxlCacheResponse n data) s = .next t ∧ t.hostReqs = s.hostReqs.erase (n, c) ∧
        (∀ a, readByte t.mem a = if c ≠ 2 ∧ 128 * n ≤ a ∧ a < 128 * n + 128 then data.getD (a - 128 * n) 0 else readByte s.mem a) ∧
        tabGet 0 t.mesi n = (if c = 0 then 1 else 2) ∧ ∀ m, m ≠ n → tabGet 0 t.mesi m = tabGet 0 s.mesi m)

/-- BAR, BARA, BARW, SBAR and SBARA on a current entry: an arrival counts one and the entry is tested, releasing the waits of a phase it completes; a wait lasts until the entry counts its phase (R274, R276). -/
def Obligations.BarrierWords : Prop :=
  ∀ (h : Hdr) (j p : Fin 64) (k q : Fin 32),
    LaneBars (.bar h j) h true true true (v1 j) (fun u => (u.reg j.val).toNat) (fun _ => 0) ∧
    LaneBars (.bara h j) h false true false (v1 j) (fun u => (u.reg j.val).toNat) (fun _ => 0) ∧
    LaneBars (.barw h j p) h true false true (v1 j ++ v1 p) (fun u => (u.reg j.val).toNat) (fun u => (u.reg p.val).toNat) ∧
    FrontBars (.sbar h k .arrive) h true true true (fun u => (u.reg k.val).toNat) (fun _ => 0) ∧
    FrontBars (.sbar h k (.wait q)) h true false true (fun u => (u.reg k.val).toNat) (fun u => (u.reg q.val).toNat) ∧
    FrontBars (.sbara h k) h false true false (fun u => (u.reg k.val).toNat) (fun _ => 0)

/-- BARNEW takes the lowest free entry, sets it up and returns its handle, or 0xFFFF_FFFF from a full table; BAREXP adds to PEND and tests the entry; BARFREE frees it, its generation one higher, and the threads that wait on it are due BARRIER_STALE (R274, R275, R276). -/
def Obligations.BarrierTable : Prop :=
  ∀ (h : Hdr) (s : State) (gid : Nat) (w l : Word) (g : Grove), FrontAt s gid w l g → g.front.guard h = true →
    (∀ x, g.front.seg = some x → x.checks = []) →
    (∀ (d c : Fin 32) (v : Bool), FrontDecodes ⟨h, 1, false, 1, []⟩ g → 1 ≤ (g.front.reg c.val).toNat → (g.front.reg c.val).toNat ≤ 2 ^ 20 →
      let entry := fun k => if v then tabGet Barrier.init s.dbars (4096 * g.ctx + k) else tabGet Barrier.init g.bars k
      let size := if v then 4096 else 32
      (∀ k, k < size → (entry k).live = false → (∀ m < k, (entry m).live = true) →
        let e : Barrier := ⟨(entry k).gen, true, (g.front.reg c.val).toNat, 0, 0, 0⟩
        let r : State := if v then { s with dbars := tabSet Barrier.init s.dbars (4096 * g.ctx + k) e } else s
        let g' : Grove := if v then g else { g with bars := tabSet Barrier.init g.bars k e }
        ∃ t, exec (.barnew h d c v) s = .next t ∧
          FrontDoes r t gid g' (Took 1 [(.gpr d.val, BitVec.ofNat 32 (2 ^ 20 * (entry k).gen + (if v then 2 ^ 19 else 0) + k))] g.front)) ∧
      ((∀ k < size, (entry k).live = true) →
        ∃ t, exec (.barnew h d c v) s = .next t ∧ FrontDoes s t gid g (Took 1 [(.gpr d.val, 0xFFFFFFFF)] g.front))) ∧
    (∀ (j b : Fin 32) (e : Barrier), FrontDecodes ⟨h, 1, false, 0, []⟩ g → EntryOf s g (g.front.reg j.val).toNat e →
      e.pend + (g.front.reg b.val).toNat < 2 ^ 39 → -2 ^ 39 ≤ e.pend + (g.front.reg b.val).toNat →
      let r := afterTest s g (g.front.reg j.val).toNat { e with pend := e.pend + (g.front.reg b.val).toNat }
      ∃ t g', exec (.barexp h j b) s = .next t ∧ r.grove? gid = some g' ∧ FrontDoes r t gid g' (Passed 1 g.front)) ∧
    (∀ (j : Fin 32) (e : Barrier), FrontDecodes ⟨h, 1, false, 0, []⟩ g → EntryOf s g (g.front.reg j.val).toNat e →
      let x := (g.front.reg j.val).toNat
      let r := (entrySet s g x { e with live := false, gen := (e.gen + 1) % 4096 } false).modWaiters g x fun _ v => v.trap 0x09 0 false (BitVec.ofNat 64 x)
      ∃ t g', exec (.barfree h j) s = .next t ∧ r.grove? gid = some g' ∧ FrontDoes r t gid g' (Passed 1 g.front))

/-- FENCE and SFENCE: a fence with a release holds its threads until the release at its scope is performed, which then lets them go; one without goes on (R251, R272). TIMEWAIT holds the front thread until its deadline, and the deadline lets it go (R273). -/
def Obligations.WaitWords : Prop :=
  (∀ (h : Hdr) (p : Scope) (o : Order),
    let held := fun (u : Thread) => if u.guard h ∧ (o = .release ∨ o = .acqRel) then Wait.fence p else .none
    (∀ (s : State) (gid stand : Nat) (w l : Word) (g : Grove), StandAt s gid stand w l g → LaneDecodes ⟨h, 1, true, 0, []⟩ g stand → NoneOpen g stand →
      (∀ u ∈ g.lanes, u.stand = stand → u.txn.isOpen = false) →
      ∃ t, exec (.fence h p o) s = .next t ∧ StandLeaves s t gid stand g fun u u' => u'.wait = held u ∧ ended u' = { ended u with ctl := past u 1 }) ∧
    (∀ (s : State) (gid : Nat) (w l : Word) (g : Grove), FrontAt s gid w l g → FrontDecodes ⟨h, 1, true, 0, []⟩ g →
      (∀ x, g.front.seg = some x → x.checks = []) → g.front.txn.isOpen = false →
      ∃ t, exec (.sfence h p o) s = .next t ∧ FrontLeaves s t gid g fun u u' => u'.wait = held u ∧ ended u' = { ended u with ctl := past u 1 }) ∧
    (∀ (s : State) (gid : Nat) (who : Option Nat) (g : Grove) (u : Thread), s.grove? gid = some g → g.thread? who = some u → u.wait = .fence p →
      s.releaseMet gid who u.core p s.nextId = true →
      ∃ t, exec (.releasePerformed gid who) s = .next t ∧ t = { s with groves := t.groves, reqs := t.reqs } ∧
        t.thread? gid who = some { u with wait := .none } ∧ ∀ k, k ≠ gid → t.grove? k = s.grove? k)) ∧
  ((∀ (h : Hdr) (a : Fin 32) (x : Bool) (s : State) (gid : Nat) (w l : Word) (g : Grove), FrontAt s gid w l g → FrontDecodes ⟨h, 1, true, 0, [.s a.val 2 2]⟩ g →
    let deadline := if x then (s.gt + (g.front.pair a.val).toNat) % 2 ^ 64 else (g.front.pair a.val).toNat
    ∃ t, exec (.timewait h a x) s = .next t ∧ FrontLeaves s t gid g fun u u' =>
      u'.wait = (if u.guard h ∧ s.gt % 2 ^ 64 < deadline then .until deadline else .none) ∧ ended u' = { ended u with ctl := past u 1 }) ∧
  (∀ (s : State) (gid : Nat) (g : Grove) (d : Nat), s.grove? gid = some g → g.front.wait = .until d → d ≤ s.gt % 2 ^ 64 →
    ∃ t, exec (.timewaitDeadline gid) s = .next t ∧ FrontIs s t gid g { g.front with wait := .none }))

/-- GBAR: the thread arrives at its next phase, and waits there unless it is the last launch thread of the grid to arrive, which releases the threads that wait for the phase (R317); what the stand's other threads leave has ended plainly. SSTEP: the front thread begins its next step; it arrives once its commands and array are done and its release of system scope is met; and it leaves when every grove of the grid has arrived and GT has passed the largest VT that the cores of their clusters note, and Δ (R260, R281; that note bounds the stores before the arrivals from above, log 25). -/
def Obligations.GridWaits : Prop :=
  (∀ (h : Hdr) (s : State) (gid stand : Nat) (w l : Word) (g : Grove) (u : Thread), OneAt s gid stand w l g h u → LaneDecodes ⟨h, 1, true, 0, []⟩ g stand →
    NoneOpen g stand → (∀ v ∈ g.lanes, v.team = u.team → EndsPlainly v) → u.txn.isOpen = false → g.desc.cogrid = true → u.seedling = false → g.node = false → u.again = none → (s.groves.map Grove.id).Nodup →
    s.releaseMet g.id (some u.tid) u.core .device s.nextId = true →
    let k := u.gbars + 1
    ∃ t u', exec (.gbar h) s = .next t ∧ OnlyWaits s t gid ∧ t.thread? gid (some u.tid) = some u' ∧
      ended u' = { ended u with ctl := past u 1, gbars := k } ∧ u'.wait = (if gridArrived s g u k then .none else .gbar k s.gt) ∧
      (gridArrived s g u k = true → ∀ o ∈ t.groves, o.launch = g.launch → o.node = false → (o.verify ≠ 2 ∨ o.id = g.id) → ∀ v ∈ o.lanes, ∀ since, v.wait ≠ .gbar k since)) ∧
  ((∀ (h : Hdr) (s : State) (gid : Nat) (w l : Word) (g : Grove), FrontAt s gid w l g → FrontDecodes ⟨h, 1, true, 0, []⟩ g → g.front.guard h = true →
    (∀ x, g.front.seg = some x → x.checks = []) → g.desc.superstep = true → g.front.again = none →
    ∃ t, exec (.sstep h) s = .next t ∧ FrontLeaves s t gid g fun u u' =>
      u'.wait = .sstep (u.ssteps + 1) false s.gt ∧ ended u' = { ended u with ctl := past u 1, ssteps := u.ssteps + 1 }) ∧
  (∀ (s : State) (gid k since : Nat) (g : Grove), s.grove? gid = some g → g.front.wait = .sstep k false since → g.msq = none → g.loads = [] →
    (∀ c ∈ s.cmds, c.gid ≠ g.id) → (∀ b ∈ s.beams, b.gid ≠ g.id) → s.releaseMet g.id none g.front.core .system s.nextId = true →
    ∃ t m, exec (.releasePerformed gid none) s = .next t ∧
      t.grove? gid = some { g with front := { g.front with arrived := k, arriveGt := m + 20, wait := .sstep k true since } } ∧
      (∀ i < 4, (s.core (4 * (g.front.core / 4) + i)).lastVt ≤ m) ∧ (m = 0 ∨ ∃ i < 4, m = (s.core (4 * (g.front.core / 4) + i)).lastVt)) ∧
  (∀ (s : State) (gid k since : Nat) (g : Grove), s.grove? gid = some g → g.front.wait = .sstep k true since → 
    (∀ l, (s.launches.find? fun l => l.id == g.launch) = some l → l.next = g.desc.ngx * g.desc.ngy * g.desc.ngz) →
    (∀ o ∈ s.groves, o.launch = g.launch → o.node = false → (o.verify ≠ 2 ∨ o.id = g.id) → k ≤ o.front.arrived ∧ (o.front.arrived = k → o.front.arriveGt ≤ s.gt)) →
    g.node = false →
    ∃ t, exec (.sstepRelease gid) s = .next t ∧ OnlyGroves s t ∧ t.grove? gid = some { g with front := { g.front with wait := .none } }))

/-- The decision queue: DQPUSH appends a record of four words, DQPOP takes the record at the thread's read position, or, with none there, waits, or finds the queue closed, and DQCLOSE closes it; a record or the close releases the threads that wait for it (R37, R323). -/
def Obligations.DecisionQueue : Prop :=
  ∀ (h : Hdr),
    (∀ (a : Fin 32) (s : State) (gid : Nat) (w l : Word) (g : Grove), FrontAt s gid w l g → FrontDecodes ⟨h, 1, false, 0, [.s a.val 4 4]⟩ g → g.front.guard h = true →
      (∀ x, g.front.seg = some x → x.checks = []) → g.dqClosed = false → g.unfreed < 64 →
      ∃ t, exec (.dqpush h a) s = .next t ∧
        FrontDoes s t gid ({ g with dq := g.dq ++ [(g.dqNext, valuesFrom g.front a.val 4)], dqNext := g.dqNext + 1 } : Grove).dqWake (Passed 1 g.front)) ∧
    (∀ (s : State) (gid : Nat) (w l : Word) (g : Grove), FrontAt s gid w l g → FrontDecodes ⟨h, 1, false, 0, []⟩ g → g.front.guard h = true →
      (∀ x, g.front.seg = some x → x.checks = []) →
      ∃ t, exec (.dqclose h) s = .next t ∧ FrontDoes s t gid ({ g with dqClosed := true } : Grove).dqWake (Passed 1 g.front)) ∧
    (∀ (d : Fin 64) (s : State) (gid stand : Nat) (w l : Word) (g : Grove) (u : Thread), OneAt s gid stand w l g h u →
      LaneDecodes ⟨h, 1, false, 5, [.v d.val 4 4]⟩ g stand → NoneOpen g stand → u.seedling = false →
      (∀ ws, g.dq.lookup u.dqPos = some ws → ws.length = 4) →
      ∃ t, exec (.dqpop h d) s = .next t ∧ LaneDoes s t gid stand g u (match g.dq.lookup u.dqPos with
        | some ws => Popped (((regsFrom d.val 4) ++ [Reg.pred 7]).zip (ws ++ [1])) 1 u
        | none => if g.dqClosed then Popped [(Reg.pred 7, 0)] 0 u else BarPassed (.dqpop d.val) u)) ∧
    (∀ (g : Grove) (u : Thread) (d : Nat), u.wait = .dqpop d → u ∈ g.lanes →
      ∃ u' ∈ g.dqWake.lanes, u'.tid = u.tid ∧ match g.dq.lookup u.dqPos with
        | some _ => u'.wait = .none ∧ u'.dqPos = u.dqPos + 1
        | none => if g.dqClosed then u'.wait = .none ∧ u'.dqPos = u.dqPos else u' = u)

/-- TBEGIN opens a transaction at the word's abort target, or after eight conflicts waits for the serial token; TEND waits for its release, and a thread that conflicts with one of a lower lane of its strand that issues the TEND with it is to lose; TABORT aborts with EXPLICIT and its code, and does nothing with no transaction open (R257, R259, R278, R279). -/
def Obligations.TransactionWords : Prop :=
  ∀ (h : Hdr),
    (∀ (o : Fin 524288) (s : State) (gid stand : Nat) (w l : Word) (g : Grove), StandAt s gid stand w l g → LaneDecodes ⟨h, 1, true, 0, []⟩ g stand → NoneOpen g stand →
      (∀ u ∈ g.lanes, u.stand = stand → u.txn.isOpen = false) →
      ∃ t, exec (.tbegin h o) s = .next t ∧ StandLeaves s t gid stand g fun u u' =>
        if ¬ u.guard h then Passed 1 u u'
        else if u.txn.nconf = 8 ∧ ¬ (g.desc.mode = 2 ∧ g.verify ≠ 2) then
          u'.wait = .serial ∧ ended u' = { ended u with ctl := past u 1, txn := { (ended u).txn with target := branchTo u o } }
        else u'.wait = .none ∧ ended u' = { ended u with
          ctl := past u 1
          txn := { (ended u).txn with isOpen := true, serial := false, target := branchTo u o, reads := [], wlines := [], buf := [] } }) ∧
    (∀ (s : State) (gid stand : Nat) (w l : Word) (g : Grove), StandAt s gid stand w l g → LaneDecodes ⟨h, 1, true, 0, []⟩ g stand → NoneOpen g stand →
      (∀ u ∈ g.lanes, u.stand = stand → u.guard h = true → u.txn.isOpen = true) →
      ∃ t, exec (.tend h) s = .next t ∧ StandLeaves s t gid stand g fun u u' => ∃ loses : Bool, BarPassed (if u.guard h then .tend loses else .none) u u' ∧
        (loses = true ↔ u.txn.serial = false ∧ ∃ v ∈ g.lanes, v.stand = stand ∧ v.guard h = true ∧ u.strand = v.strand ∧ v.lane < u.lane ∧ TxnConflict u.txn v.txn)) ∧
    (∀ (c : Fin 256),
      LaneAborts (.tabort h c) ⟨h, 1, true, 0, []⟩ 4 (some c.val) (fun _ _ _ => True) ∧
      ∀ (s : State) (gid stand : Nat) (w l : Word) (g : Grove), StandAt s gid stand w l g → LaneDecodes ⟨h, 1, true, 0, []⟩ g stand → NoneOpen g stand →
        (∀ u ∈ g.lanes, u.stand = stand → u.txn.isOpen = false) →
        ∃ t, exec (.tabort h c) s = .next t ∧ StandLeaves s t gid stand g (Passed 1))

/-- A transaction's commit (R258): once the release is performed, a thread that has lost at TEND aborts with CONFLICT, and once it is performed and every home agrees, each of its lines is locked to the thread until the commit's visibility time Vc, the stores it makes are those of its written lines with VT Vc, and memory's own bytes are as before; the lock ends at Vc, and the thread goes on, its transaction closed, Δ later. -/
def Obligations.TransactionCommit : Prop :=
  (∀ (s : State) (gid tid : Nat) (g : Grove) (u : Thread) (x : Seg), s.grove? gid = some g → g.thread? (some tid) = some u → u.wait = .tend true → u.seg = some x →
    s.releaseMet gid (some tid) u.core .device s.nextId = true →
    ∃ t u' y, exec (.releasePerformed gid (some tid)) s = .next t ∧ t = { s with groves := t.groves, reqs := t.reqs } ∧ t.thread? gid (some tid) = some u' ∧
      u' = { u with wait := .none, seg := some y } ∧ y.abort = some (x.words - 1, 1) ∧ y.fin = .ended) ∧
  (∀ (s : State) (gid tid vc : Nat) (g : Grove) (u : Thread), s.grove? gid = some g → g.thread? (some tid) = some u → u.wait = .tend false → g.desc.mode = 0 → g.verify = 0 →
    s.releaseMet gid (some tid) u.core .device s.nextId = true → s.verdict g u tid = .go vc →
    (∀ l ∈ u.txn.lines, ∃ h, s.homeOf g.ctx (l * 128) = .phys h) →
    ∃ t new, exec (.releasePerformed gid (some tid)) s = .next t ∧ t.mem = s.mem ∧ t.pend = s.pend ++ new ∧
      (∀ x ∈ new, x.vt = vc ∧ x.core = some u.core ∧ x.shared = false) ∧
      (∀ l h pk code, u.txn.lines = [l] → l ∈ u.txn.wlines → s.homeOf g.ctx (l * 128) = .phys h → s.fate g.ctx false .store h (l * 128 % 2 ^ 54) = .ok pk code →
        new = [{ id := s.nextId, line := lineKey h (l * 128 % 2 ^ 54), vt := vc, core := some u.core, shared := false
                 bytes := (u.txn.buf.filter fun e => e.1 / 128 == l).map fun e => (pk + e.1 % 128, e.2) }]) ∧
      (∀ l ∈ u.txn.lines, ∀ h, s.homeOf g.ctx (l * 128) = .phys h →
        (t.line (lineKey h (l * 128 % 2 ^ 54))).lock = some (g.id, tid) ∧ (t.line (lineKey h (l * 128 % 2 ^ 54))).lockUntil = some vc) ∧
      t.thread? gid (some tid) = some { u with wait := .commit vc }) ∧
  (∀ (s : State) (gid tid vc : Nat) (u : Thread), s.thread? gid (some tid) = some u → u.wait = .commit vc → vc + 20 ≤ s.gt →
    ∃ t, exec (.txnCommitComplete gid tid) s = .next t ∧ t = { ((s.unlockAll gid tid).freeSerial gid (some tid)) with groves := t.groves } ∧
      t.thread? gid (some tid) = some { u with
        wait := .none, txn := { u.txn with isOpen := false, nconf := 0, reads := [], wlines := [], buf := [] } }) ∧
  (∀ (s : State) (line v : Nat), (s.line line).lockUntil = some v → v ≤ s.gt →
    exec (.txnLineUnlock line) s = .next (s.setLine line { s.line line with lock := none, lockUntil := none })) ∧
  (∀ (s : State) (gid tid : Nat) (u : Thread), s.thread? gid (some tid) = some u → u.wait = .serial → s.serial = none →
    ∃ t, exec (.serialTokenGrant gid tid) s = .next t ∧ t = { s with serial := some (gid, tid), groves := t.groves } ∧
      t.thread? gid (some tid) = some { u with
        wait := .none, txn := { u.txn with isOpen := true, serial := true, reads := [], wlines := [], buf := [] } })

/-- The accesses of an open transaction (R257): a load whose bytes the thread has all stored takes them from its buffer, another within the limit of 32 lines goes to the home, a store within the limit of 16 lines goes to the buffer, and an atomic aborts with UNSUPPORTED. -/
def Obligations.TransactionAccesses : Prop :=
  ∀ (h : Hdr) (p : Scope) (o : Order) (k : Hint) (d : Fin 64) (a : LaneA),
    (∀ (s : State) (gid stand : Nat) (w l : Word) (g : Grove) (u : Thread) (home : Nat), OneAt s gid stand w l g h u →
      LaneDecodes ⟨h, lenA a, false, 1, groupV d 1 ++ needA64 a⟩ g stand → u.txn.isOpen = true →
      let ea := laneEa s g u a
      s.loadHeld g.id (some u.tid) ea = false → ea % 4 = 0 → s.homeOf g.ctx ea = .phys home → home < 2 →
      (∀ b0 b1 b2 b3, u.txn.buf.lookup ea = some b0 → u.txn.buf.lookup (ea + 1) = some b1 → u.txn.buf.lookup (ea + 2) = some b2 → u.txn.buf.lookup (ea + 3) = some b3 →
        ∃ t, exec (.ldg h d a p o k) s = .next t ∧ LaneDoes s t gid stand g u (Took (lenA a) ((regsFrom d.val 1).zip (toWords 1 [b0, b1, b2, b3])) u)) ∧
      (u.txn.buf.lookup ea = none → (s.readLines g.id (some u.tid) u).length < 32 →
        ∃ t, exec (.ldg h d a p o k) s = .next t ∧
          LaneDoes (withReq s (requestOf s g.id u .load ea 4 p o k [] (regsFrom d.val 1) true)) t gid stand g u (Awaits (lenA a) (regsFrom d.val 1) u))) ∧
    (∀ (s : State) (gid stand : Nat) (w l : Word) (g : Grove) (u : Thread) (home : Nat), OneAt s gid stand w l g h u →
      LaneDecodes ⟨h, lenA a, false, 0, groupV d 1 ++ needA64 a⟩ g stand → u.txn.isOpen = true → NoneOpen g stand → s.acquiring g.id (some u.tid) = false →
      let ea := laneEa s g u a
      ea % 4 = 0 → s.homeOf g.ctx ea = .phys home → home < 2 → u.txn.wlines.length < 16 →
      ∃ t, exec (.stg h d a p o k) s = .next t ∧ LaneDoes s t gid stand g u fun u' => u'.wait = .none ∧
        ended u' = { ended u with ctl := past u (lenA a), txn := (ended u').txn } ∧
        (ended u').txn = { (ended u).txn with wlines := (ended u').txn.wlines, buf := (ended u').txn.buf } ∧
        (∀ x, x ∈ (ended u').txn.wlines ↔ x = ea / 128 ∨ x ∈ u.txn.wlines) ∧
        ∀ x, (ended u').txn.buf.lookup x = if ea ≤ x ∧ x < ea + 4 then (toBytes [u.reg d.val])[x - ea]? else u.txn.buf.lookup x) ∧
    (∀ f, LaneAborts (.atg h d a p o f) ⟨h, lenA a, false, 1, groupV d (operandsOf f) ++ needA64 a⟩ 3 none
      (fun s g u => s.acquiring g.id (some u.tid) = false ∧ AddressOk s g.ctx (laneEa s g u a) 4))

/-- SPAWN plants a seed in the bed of its entry, after the thread's earlier stores are released at grove scope; its key bears the thread's ordinal (R40, R41, R44, R221, R319). SPAWNG and SSPAWNG queue a continuation record on the die and cluster of its data address, after the thread's earlier stores are released at device scope (R45, R47, R48, R320). -/
def Obligations.SpawnWords : Prop :=
  (∀ (h : Hdr) (e a : Fin 64) (s : State) (gid stand : Nat) (w l : Word) (g : Grove) (u : Thread), OneAt s gid stand w l g h u →
    LaneDecodes ⟨h, 1, false, 0, v1 e ++ [.v a.val 4 4]⟩ g stand → NoneOpen g stand → s.releaseMet g.id (some u.tid) u.core .grove s.nextId = true →
    g.desc.seedl ≠ 0 → u.txn.isOpen = false → s.bedCount u.core (bedOf (u.reg e.val).toNat) g.ctx < 256 →
    ∃ t r, exec (.spawn h e a) s = .next t ∧ Planted s r g u.core (u.reg e.val) (argsOf (valuesFrom u a.val 4)) (spawnKey u.tid u.spawnOrd) ∧
      LaneDoes r t gid stand g u (PassedWith (fun v => { v with spawnOrd := v.spawnOrd + 1 }) u)) ∧
  (∀ (h : Hdr),
    (∀ (a d n : Fin 64) (s : State) (gid stand : Nat) (w l : Word) (g : Grove) (u : Thread) (home : Nat), OneAt s gid stand w l g h u →
      LaneDecodes ⟨h, 1, false, 0, [.v a.val 4 4] ++ v2 d ++ v1 n⟩ g stand → NoneOpen g stand → s.releaseMet g.id (some u.tid) u.core .device s.nextId = true →
      u.txn.isOpen = false → u.front = false → MayPost s g u home (u.reg n.val).toNat (u.pair d.val).toNat →
      ∃ t, exec (.spawng h a d n) s = .next t ∧ LaneDoes
        { s with nextId := s.nextId + 1, conts := s.conts ++ [postOf s g u (if home < 2 then home else u.core / 128) (u.reg n.val).toNat (u.pair d.val).toNat (valuesFrom u a.val 4)] }
        t gid stand g u (PassedWith (fun v => { v with postOrd := v.postOrd + 1 }) u)) ∧
    (∀ (a d n : Fin 32) (s : State) (gid : Nat) (w l : Word) (g : Grove) (home : Nat), FrontAt s gid w l g →
      FrontDecodes ⟨h, 1, false, 0, [.s a.val 4 4] ++ [.s d.val 2 2]⟩ g → g.front.guard h = true → (∀ x, g.front.seg = some x → x.checks = []) →
      s.releaseMet g.id none g.front.core .device s.nextId = true → MayPost s g g.front home (g.front.reg n.val).toNat (g.front.pair d.val).toNat →
      ∃ t, exec (.sspawng h a d n) s = .next t ∧ FrontDoes
        { s with nextId := s.nextId + 1, conts := s.conts ++ [postOf s g g.front (if home < 2 then home else g.front.core / 128) (g.front.reg n.val).toNat (g.front.pair d.val).toNat (valuesFrom g.front a.val 4)] }
        t gid g (PassedWith (fun v => { v with postOrd := v.postOrd + 1 }) g.front)))

/-- TRACE sends the read of its record with the ray's nine words, after the thread's earlier stores are released at grove scope and its acquires performed; the record at its home, aligned as it must be, makes a ray (R44, R88, R321). -/
def Obligations.Traces : Prop :=
  (∀ (h : Hdr) (r c p : Fin 64) (y : Bool), LaneSends (.trace h r c p y) ⟨h, 1, false, 0, [.v r.val 8 8] ++ v2 c ++ v1 p⟩
    (fun s g stand u => NoneOpen g stand ∧ s.releaseMet g.id (some u.tid) u.core .grove s.nextId = true ∧ s.acquiring g.id (some u.tid) = false ∧
      g.desc.seedl ≠ 0 ∧ AddressOk s g.ctx (u.pair c.val).toNat 32)
    (fun s g u => requestOf s g.id u (.trace y) (u.pair c.val).toNat 32 .device .relaxed .bypassL1 (valuesFrom u r.val 8 ++ [u.reg p.val]) [] false)) ∧
  ∀ (s : State) (id : Nat) (r : Req) (g : Grove) (u : Thread) (home pk code : Nat) (y : Bool), AtHome s id r g home pk code .load → r.op = .trace y → r.size = 32 → g.verify ≠ 2 →
    g.thread? (sender r) = some u → s.traceWaits r = false → (∀ i < 32, tabGet false s.poison ((pk + i) / 32) = false) →
    let bs := s.bytesFor none pk 32
    let f := fun o n => leNat ((bs.drop o).take n)
    f 0 8 % 128 = 0 → f 24 8 % 8 = 0 →
    ∃ t, exec (.loadAtHome id) s = .next t ∧ t.reqs = s.reqs.filter (fun x => decide (x.id ≠ id)) ∧ t.mem = s.mem ∧ t.pend = s.pend ∧
      t.rays = s.rays ++ [⟨s.nextId, g.id, r.tid, g.ctx, r.core, u.traceOrd, r.data.take 8, r.data.getD 8 0, y, f 0 8, BitVec.ofNat 32 (f 8 4), BitVec.ofNat 32 (f 12 4),
        BitVec.ofNat 32 (f 16 4), f 20 1, f 24 8, false, [], s.spillSlot r.core⟩] ∧
      t.thread? r.gid (sender r) = some { checkClosed r u with traceOrd := u.traceOrd + 1 }

/-- A stand launch (R41, R43): in a FREE grove that is not quiescent, a group of 32 seeds or more, and at its timer the group of the grove's oldest seed in the bed, sends its oldest seeds, up to 32, to the lowest free seedling strand. -/
def Obligations.SeedlingStands : Prop :=
  ∀ (s : State) (gid bed strand : Nat) (entry : Word) (g : Grove), s.grove? gid = some g → g.desc.mode = 0 → g.desc.pair = false → s.mayRun g g.core = true →
    (∀ x ∈ (s.core g.core).seeds, ∀ y ∈ (s.core g.core).seeds, x.gid = gid → y.gid = gid → x.key = y.key → x = y) →
    (s.core g.core).seeds.Pairwise (fun x y => x.born < y.born) →
    g.desc.nstr ≤ strand → strand < g.desc.nstr + g.desc.seedl → (∀ v ∈ g.lanes, v.strand = strand → v.life = .empty ∨ v.life = .exited) →
    (∀ k, g.desc.nstr ≤ k → k < strand → ∃ v ∈ g.lanes, v.strand = k ∧ v.life ≠ .empty ∧ v.life ≠ .exited) →
    (32 ≤ (groupOf s g g.core bed entry).length → s.quiesced g = false →
      ∃ t, exec (.seedlingStandLaunch gid bed entry) s = .next t ∧ StandLaunched s t g g.core strand ((groupOf s g g.core bed entry).take 32)) ∧
    (∀ x v, (s.core g.core).seeds.find? (fun y => y.gid == g.id && y.bed == bed) = some x → x.entry = entry →
      (s.core g.core).timers.lookup (16 * gid + bed) = some v → v ≤ tabGet 0 s.hub.cyc (g.core / 128) →
      ∃ t, exec (.seedbedTimerExpiry gid bed) s = .next t ∧ StandLaunched s t g g.core strand ((groupOf s g g.core bed entry).take 32))

/-- A ray's traversal answers its seeds, and they are planted in order, each once it is ready and its bed has room; the ray ends with its last seed (R44, R321, R322). -/
def Obligations.RayEnds : Prop :=
  ∀ (s : State) (id : Nat) (r : Ray) (fab : FabIn), s.rays.find? (fun q => q.id == id) = some r →
    s.clocked (r.core / 128) = true →
    (r.traced = true →
      ∃ t, exec (.bteRayDone id fab) s = .next t ∧
        (r.plant = [] → t = { s with rays := s.rays.filter fun q => decide (q.id ≠ id) }) ∧
        (∀ g x, r.plant = [x] → s.grove? r.gid = some g → x.ready ≤ s.gt → s.bedCount r.core (bedOf x.entry.toNat) g.ctx < 256 →
          ∃ p, Planted s p g r.core x.entry x.args x.key ∧ t = { p with rays := s.rays.filter fun q => decide (q.id ≠ id) }) ∧
        (∀ g x l, r.plant = x :: l → s.grove? r.gid = some g → (s.gt < x.ready ∨ 256 ≤ s.bedCount r.core (bedOf x.entry.toNat) g.ctx) →
          t.cores = s.cores ∧ t.groves = s.groves ∧ t.mem = s.mem ∧ t.rays.find? (fun q => q.id == id) = some r)) ∧
    (∀ s1 s2 hits bits seeds, r.traced = false → s.traceRay r fab = .ok (s1, hits, bits) → s1.raySeedsOf r fab hits bits = .ok (s2, seeds) → s2.clocked (r.core / 128) = true →
      exec (.bteRayDone id fab) s = exec (.bteRayDone id fab) { s2 with rays := s2.rays.map fun q => if q.id = id then { q with traced := true, plant := seeds } else q })

/-- The sixteen MMA forms issue with the class, K positions, steps, units, A tiles and weight slots of R105, R160, R161 and R163; an extent that fits no tile rule traps ACC_CLASS (R174, R175, R178, R179, R184). The rank of a latent command whose WLOAD is still outstanding is the model's reading. -/
def Obligations.MatrixIssue : Prop :=
  ∀ (h : Hdr) (m : MmaArgs) (l : MmaLit),
    (∀ e ∈ mmaTable h m l, MmaIssues e.1 h e.2.1 m e.2.2.1 e.2.2.2) ∧
    -- the guard of ACZ: the lowest row whose count would pass 2^20
    (∀ (k : Nat), k < 64 → FrontRefuses (.mmaI8 h m) (mmaShapeOf h m none ⟨.acz, 256, 32, 16384, 10240, 256⟩) 0x0E m.ac.val
      (fun g => g.front.now.pc.toNat + 2 ^ 42 * k)
      (fun s g => FrontFree s g ∧ g.msq = none ∧ m.dm = .dense ∧ TileThere g m.ac.val .acz ∧
        (∀ j < k, ((g.acUnit g.psel m.ac.val).row j).count + (m.kc.val + 1) * 256 * 256 ≤ 2 ^ 20) ∧
        2 ^ 20 < ((g.acUnit g.psel m.ac.val).row k).count + (m.kc.val + 1) * 256 * 256))

/-- The other sequenced commands issue: the rendering commands, MDRAIN, the images, MZERO (R178, R179, R185, R190, R194, R195, R198). -/
def Obligations.TileCommandIssue : Prop :=
  ∀ (h : Hdr) (c t p q : Fin 16) (w n : Fin 8),
    TileIssues (.medge h c t w) ⟨h, 1, false, 0, [.ac c.val, .ta t.val, .wb w.val]⟩ c.val .acn (fun _ _ => True)
      (fun s g => flightOf s g (.medge t.val w.val) c.val 16 0 [] [c.val] [t.val] [w.val]) ∧
    (∀ x, TileIssues (.mfilt h c t w x) ⟨h, 1, false, 0, [.ac c.val, .ta t.val, .wb w.val]⟩ c.val .acn (fun _ _ => True)
      (fun s g => flightOf s g (.mfilt t.val w.val x) c.val 32 0 [] [c.val] [t.val] [w.val])) ∧
    TileIssues (.mblend h c t p) ⟨h, 1, false, 0, [.acw c.val, .ta t.val, .ta p.val]⟩ c.val .acw (fun _ g => g.mcs2.toNat % 8 ≠ 0)
      (fun s g => flightOf s g (.mblend t.val p.val) c.val 64 0 [] (unitsOf .acw c.val) [t.val, p.val] []) ∧
    TileIssues (.mblendb h c t p q) ⟨h, 1, false, 0, [.acw c.val, .ta t.val, .ta p.val, .ta q.val]⟩ c.val .acw (fun _ g => g.mcs2.toNat % 8 ≠ 0)
      (fun s g => flightOf s g (.mblendb t.val p.val q.val) c.val 64 0 [] (unitsOf .acw c.val) [t.val, p.val, q.val] []) ∧
    FrontRefuses (.mblend h c t p) ⟨h, 1, false, 0, [.acw c.val, .ta t.val, .ta p.val]⟩ 0x17 (768 + c.val) (fun g => g.front.now.pc.toNat)
      (fun s g => FrontFree s g ∧ g.msq = none ∧ g.mcs2.toNat % 8 = 0) ∧
    FrontRefuses (.mblendb h c t p q) ⟨h, 1, false, 0, [.acw c.val, .ta t.val, .ta p.val, .ta q.val]⟩ 0x17 (768 + c.val) (fun g => g.front.now.pc.toNat)
      (fun s g => FrontFree s g ∧ g.msq = none ∧ g.mcs2.toNat % 8 = 0) ∧
    (∀ f r x, ReadIssues (.mdrain h c n f r x) ⟨h, 1, false, 0, [.ac c.val]⟩ c.val
      (fun s g => (∀ i < 64, ((g.acUnit g.psel c.val).row i).poison = false) ∧ AddressOk s g.ctx (sAddr g n) 16 ∧
        sNum g n 2 % 16 = 0 ∧ 64 * drainBytes f ≤ sNum g n 2)
      (fun s g => flightOf s g (.mdrain f r x) c.val 64 0 (sGroupOf g n) (unitsOf (g.acUnit g.psel c.val).cls c.val) [] [])) ∧
    ReadIssues (.mspill h c n) ⟨h, 1, false, 0, [.ac c.val]⟩ c.val (fun s g => AddressOk s g.ctx (sAddr g n) 64)
      (fun s g => flightOf s g .mspill c.val 64 0 (sGroupOf g n) (unitsOf (g.acUnit g.psel c.val).cls c.val) [] []) ∧
    ReadIssues (.macc h c n) ⟨h, 1, false, 0, [.ac c.val]⟩ c.val (fun s g => AddressOk s g.ctx (sAddr g n) 64)
      (fun s g => flightOf s g .macc c.val 64 0 (sGroupOf g n) (unitsOf (g.acUnit g.psel c.val).cls c.val) [] []) ∧
    SeqIssues (.mfill h c n) ⟨h, 1, false, 0, [.ac c.val]⟩ (fun s g => AddressOk s g.ctx (sAddr g n) 64) (fun g g' => g' = g)
      (fun s g => flightOf s g .mfill c.val 64 0 (sGroupOf g n)
        (if c.val = 0 ∨ c.val = 5 then (unitsOf .acw c.val).filter (fun u => decide (u < g.desc.acs)) else [c.val]) [] []) ∧
    ∀ (k : TileClass) (s : State) (gid : Nat) (x l : Word) (g : Grove), FrontAt s gid x l g →
      FrontDecodes ⟨h, 1, false, 0, if k = .acw then [.acw c.val] else [.ac c.val]⟩ g → g.front.guard h = true → FrontFree s g → g.msq = none →
      ∃ t us, exec (.mzero h c k) s = .next t ∧
        (∀ v, v ∈ us ↔ ∃ u ∈ unitsOf k c.val, v = u ∨ ((g.acUnit g.psel u).cls = .acw ∧ v ∈ unitsOf .acw (if u < 5 then 0 else 5))) ∧
        FrontDoes { s with nextId := s.nextId + 1 } t gid { g with msq := some (flightOf s g (.mzero k) c.val 4 0 [] us [] []) } (Passed 1 g.front)

/-- TLOAD and WLOAD, MWAIT, MCFG, and the strands' TSTORE and TDRAIN (R177, R185, R186, R188, R192, R196, R197). -/
def Obligations.TileWords : Prop :=
  ∀ (h : Hdr),
    (∀ (t m : Fin 16) (n : Fin 8), LoadIssues (.tload h t m n) ⟨h, 1, false, 0, [.ta (t.val + m.val)]⟩
      (fun s g => AddressOk s g.ctx (sAddr g n) 16 ∧ sNum g n 2 % 16 = 0)
      (fun s g => { id := s.nextId, weight := false, unit := t.val, size := 16384 * (m.val + 1), rank := 0, src := sAddr g n, handle := sNum g n 3
                    stride := sNum g n 2, done := 0, pc := g.front.now.pc, psel := g.psel })) ∧
    (∀ (w n : Fin 8) (k : Rank), LoadIssues (.wload h w n k) ⟨h, 1, false, 0, [.wb w.val]⟩
      (fun s g => AddressOk s g.ctx (sAddr g n) 256 ∧ sNum g n 2 ≠ 0 ∧ sNum g n 2 % 1024 = 0 ∧ sNum g n 2 ≤ (g.desc.wbs - w.val) * 131072)
      (fun s g => { id := s.nextId, weight := true, unit := w.val, size := sNum g n 2, rank := k.code, src := sAddr g n, handle := sNum g n 3
                    stride := 0, done := 0, pc := g.front.now.pc, psel := g.psel })) ∧
    (∀ (s : State) (gid : Nat) (w l : Word) (g : Grove), FrontAt s gid w l g → FrontDecodes ⟨h, 1, true, 0, []⟩ g → g.front.guard h = true →
      g.msq = none → g.loads = [] → ∃ t, exec (.mwait h) s = .next t ∧ FrontDoes s t gid g (Passed 1 g.front)) ∧
    (∀ (b : Fin 32) (s : State) (gid : Nat) (w l : Word) (g : Grove), FrontAt s gid w l g → FrontDecodes ⟨h, 1, false, 0, []⟩ g →
      g.front.guard h = true → (∀ x, g.front.seg = some x → x.checks = []) →
      let v := (g.front.reg b.val).toNat
      (v % 8 < 4 → (v % 8 = 2 → v / 8 % 32 ≠ 0) →
        ∃ t, exec (.mcfg h .mcs0 b) s = .next t ∧ FrontDoes s t gid { g with mcs0 := BitVec.ofNat 32 (v % 2 ^ 16) } (Passed 1 g.front)) ∧
      (∃ t, exec (.mcfg h .mcs1 b) s = .next t ∧ FrontDoes s t gid { g with mcs1 := BitVec.ofNat 32 (v % 16) } (Passed 1 g.front)) ∧
      (v % 8 ≠ 0 → v % 8 < 5 →
        ∃ t, exec (.mcfg h .mcs2 b) s = .next t ∧ FrontDoes s t gid { g with mcs2 := BitVec.ofNat 32 (v % 16) } (Passed 1 g.front)) ∧
      (v = 0 ∨ v = 1 ∧ g.desc.pair = true →
        ∃ t, exec (.mcfg h .psel b) s = .next t ∧ FrontDoes s t gid { g with psel := v } (Passed 1 g.front))) ∧
    (∀ (b : Fin 64) (ta : Fin 16) (cb : Fin 8) (n : Fin 4) (s : State) (gid stand : Nat) (w l : Word) (g : Grove) (u : Thread), OneAt s gid stand w l g h u →
      LaneDecodes ⟨h, 1, false, 0, [.v b.val (2 ^ n.val) (2 ^ n.val)] ++ [.ta ta.val]⟩ g stand → NoneOpen g stand → s.acquiring g.id (some u.tid) = false →
      TileUnheld g (u.core - g.core) ta.val →
      let k := 2 ^ 24 * (u.core - g.core) + 16384 * ta.val + 256 * (u.tid % 64) + 32 * cb.val
      ∃ t g', exec (.tstore h b ta cb n) s = .next t ∧ LaneDoes s t gid stand g' u (Passed 1 u) ∧ g' = { g with ta := g'.ta, taPoison := g'.taPoison } ∧
        (∀ a, tabGet 0 g'.ta a = if k ≤ a ∧ a < k + 4 * 2 ^ n.val then (toBytes (valuesFrom u b.val (2 ^ n.val))).getD (a - k) 0 else tabGet 0 g.ta a) ∧
        ∀ a, tabGet false g'.taPoison a = if n.val = 3 ∧ a = k / 32 then false else tabGet false g.taPoison a) ∧
    ∀ (d : Fin 64) (ac : Fin 16) (s : State) (gid stand : Nat) (w l : Word) (g : Grove) (u : Thread), OneAt s gid stand w l g h u →
      LaneDecodes ⟨h, 1, false, 8, [.v d.val 8 8] ++ [.ac ac.val]⟩ g stand → NoneOpen g stand → UnitUnheld g (u.core - g.core) ac.val →
      let k := 16 * (u.core - g.core) + ac.val
      let a := tabGet AcUnit.empty g.ac k
      let row := a.row (u.tid % 64)
      (∀ (f : DrainFmt) (r : Rnd) (cb : Fin 8), a.cls ≠ .empty → a.interior = false → row.poison = false →
        let y := fun i => drainElem u.fpc g.mcs0.toNat a.cls f r 0 (row.elem (8 * cb.val + i))
        ∃ t g', exec (.tdrain h d ac (.body f r cb)) s = .next t ∧
          LaneDoes s t gid stand g' u (Took 1 ((List.range 8).map fun i => (.gpr (d.val + i), BitVec.ofNat 32 (y i).1)) u) ∧
          g' = { g with ac := g'.ac } ∧ (∀ j, j ≠ k → tabGet AcUnit.empty g'.ac j = tabGet AcUnit.empty g.ac j) ∧
          let a' := tabGet AcUnit.empty g'.ac k
          a'.cls = a.cls ∧ a'.interior = a.interior ∧ (∀ i, i ≠ u.tid % 64 → a'.row i = a.row i) ∧
          a'.row (u.tid % 64) = { row with df := (List.range 8).foldl (fun x i => x ||| dfOf (y i).2) row.df }) ∧
      (∀ (r : Rnd) (cb : Fin 8) (i : Nat) (v : Int), i < 8 → a.cls = .acz → row.elem (8 * cb.val + i) = (v, 0) → -2 ^ 31 ≤ v → v < 2 ^ 31 →
        drainElem u.fpc g.mcs0.toNat a.cls .i32 r 0 (row.elem (8 * cb.val + i)) = ((v % 2 ^ 32).toNat, 0)) ∧
      (∀ (cb : Fin 2), a.cls = .empty → ∃ t, exec (.tdrain h d ac (.hdr cb)) s = .next t ∧
        LaneDoes s t gid stand g u (Took 1 ((List.range 8).map fun i => (.gpr (d.val + i), 0)) u)) ∧
      ((a.cls = .acn ∨ a.cls = .acz) → a.interior = false → ∃ (t : State) (ws : List Word), exec (.tdrain h d ac (.hdr 0)) s = .next t ∧
        LaneDoes s t gid stand g u (Took 1 ((List.range 8).map fun i => (.gpr (d.val + i), ws.getD i 0)) u) ∧
        (row.df < 16 → ws.getD 0 0 = BitVec.ofNat 32 ((if row.poison then 1 else 0) + (if row.ovf then 2 else 0) + (if a.cls = .acn then 8 else 12) + 16 * row.df)) ∧
        (row.count < 2 ^ 32 → ws.getD 1 0 = BitVec.ofNat 32 row.count))

/-- The sequencer and the loader at work (R128-R131, R160-R171, R173-R177, R183-R187, R190, R194, R195, R206-R215). Of a chunk in its turn: a dense MMA.I8 adds the exact products of 128 positions to every element within the residue window; every MMA form, dense or sparse, expanded or absorbed, under its scales, adds the products of its steps by AddStep, and a malformed sparse group poisons its row; MEDGE leaves in each pixel the visible entry, MFILT the filtered texels, MBLEND and MBLENDB the blended colours, and the gradients, of their splats; MZERO makes its tile, MFILL and MACC take the rows of an image and MSPILL stores one; MDRAIN stores its converted rows. A chunk changes the units its command works on only. Completion frees the MSQ, leaves its traps pending, raises COUNT by what its form adds, and with CLR a drain without a fault empties its tile. 256 bytes of a tile or weight load are written whole, poisoned when a byte read is, and its last byte delivers; a pending trap is taken before the next word. -/
def Obligations.ArrayWork : Prop :=
  (∀ (s : State) (gid : Nat) (fab : FabIn) (g : Grove) (m : Msq) (a : MmaArgs), s.grove? gid = some g → g.msq = some m → s.chunkTurn g m = true →
    m.cmd = .mma .mmaI8 a none → a.dm = .dense → a.t = false → m.psel = g.psel → m.scales = [] → m.step % 16 = 0 → m.step + 16 ≤ m.total → m.total ≤ 32 * (a.kc.val + 1) →
    (∀ k, tabGet false g.taPoison k = false) → (∀ k, tabGet false g.wbPoison k = false) → (∀ i < 64, ((g.acUnit m.psel m.ac).row i).bad = false) →
    ∃ t g', exec (.sequencerChunk gid fab) s = .next t ∧ GroveBecomes (served s g m) t gid g' ∧ g' = { g with ac := g'.ac, msq := some { m with step := m.step + 16 } } ∧
      (∀ k, k ≠ 16 * m.psel + m.ac → tabGet AcUnit.empty g'.ac k = tabGet AcUnit.empty g.ac k) ∧
      (g'.acUnit m.psel m.ac).cls = (g.acUnit m.psel m.ac).cls ∧
      ∀ i < 64, ∀ j < 64,
        let r := (g.acUnit m.psel m.ac).row i
        let r' := (g'.acUnit m.psel m.ac).row i
        let sum := (List.range 128).foldl (fun x n => x + aInt g a (m.step / 32) i (8 * (m.step % 32) + n) * bInt g a (m.step / 32) (8 * (m.step % 32) + n) j) (r.elem j).1
        r' = { r with elems := r'.elems } ∧ (r.poison = true → r' = r) ∧
          (r.poison = false → -2 ^ 26 < sum → sum < 2 ^ 26 → r'.elem j = (sum, 0))) ∧
  (∀ (s : State) (gid : Nat) (fab : FabIn) (g : Grove) (m : Msq) (c : TileClass), s.grove? gid = some g → g.msq = some m → s.chunkTurn g m = true →
    m.cmd = .mzero c → m.step = 0 → m.total = 4 → m.ac < 10 → (c = .acw → m.ac = 0 ∨ m.ac = 5) →
    ∃ t g', exec (.sequencerChunk gid fab) s = .next t ∧ GroveBecomes (served s g m) t gid g' ∧ g' = { g with ac := g'.ac, msq := some { m with step := 4 } } ∧
      ∀ u < 16, g'.acUnit m.psel u =
        if u ∈ unitsOf c m.ac then (if c = .empty then AcUnit.empty else newUnit c (decide (u = m.ac)))
        else if (unitsOf c m.ac).any (fun v => decide ((g.acUnit m.psel v).cls = .acw ∧ u ∈ unitsOf .acw (if v < 5 then 0 else 5))) then AcUnit.empty
        else g.acUnit m.psel u) ∧
  (∀ (s : State) (gid : Nat) (fab : FabIn) (g : Grove) (m : Msq), s.grove? gid = some g → g.msq = some m → s.chunkTurn g m = true →
    ((∃ f a l, m.cmd = .mma f a l) ∨ (∃ v w, m.cmd = .medge v w) ∨ (∃ t w x, m.cmd = .mfilt t w x) ∨ (∃ t p, m.cmd = .mblend t p) ∨ ∃ t p q, m.cmd = .mblendb t p q) →
    ∃ t g' m', exec (.sequencerChunk gid fab) s = .next t ∧ GroveBecomes (served s g m) t gid g' ∧ g' = { g with ac := g'.ac, ta := g'.ta, msq := some m' } ∧
      m' = { m with step := min m.total (m.step + 16), scales := m'.scales, overflow := m'.overflow } ∧
      ∀ k, k ≠ 16 * m.psel + m.ac → tabGet AcUnit.empty g'.ac k = tabGet AcUnit.empty g.ac k) ∧
  (∀ (s s1 : State) (gid : Nat) (fab : FabIn) (g : Grove) (m : Msq) (f : DrainFmt) (r : Rnd) (x : Bool) (vt : Nat), s.grove? gid = some g → g.msq = some m → s.chunkTurn g m = true →
    m.cmd = .mdrain f r x → m.total = m.step + 1 →
    let row := (g.acUnit m.psel m.ac).row m.step
    let y := fun j => drainElem m.fpc m.mcs0.toNat (g.acUnit m.psel m.ac).cls f r (rsrBits (m.sregs.getD 3 0).toNat m.step j) (row.elem j)
    let va := ((m.sregs.getD 0 0).toNat + 2 ^ 32 * (m.sregs.getD 1 0).toNat + m.step * (m.sregs.getD 2 0).toNat) % 2 ^ 64
    let bs := (List.range 64).flatMap fun j => (List.range (drainBytes f)).map fun b => BitVec.ofNat 8 ((y j).1 / 2 ^ (8 * b))
    s.loadWaits g m.start va (64 * drainBytes f) = false → (served s g m).unitStore (g.coreAgent m.psel fab) false va bs = .ok (s1, vt) →
    ∀ g1, s1.grove? gid = some g1 → g1.ac = g.ac → g1.msq = g.msq →
    ∃ t, exec (.sequencerChunk gid fab) s = .next t ∧ OnlyGroves s1 t ∧
      ∃ g', t.grove? gid = some g' ∧ g' = { g1 with ac := g'.ac, msq := some { m with step := m.step + 1 } } ∧
        (g'.acUnit m.psel m.ac).row m.step = { row with df := row.df ||| (List.range 64).foldl (fun a j => a ||| dfOf (y j).2) 0 }) ∧
  (∀ (s : State) (gid : Nat) (g : Grove) (m : Msq), s.grove? gid = some g → g.msq = some m → m.total ≤ m.step → m.held = false → m.ac < 10 →
    ∃ t g', exec (.arrayCommandComplete gid) s = .next t ∧ GroveBecomes s t gid g' ∧
      g' = { g with
        ac := g'.ac
        msq := none
        pending := g.pending ++ m.fault.toList ++ (m.overflow.map fun o => ⟨0x0E, m.ac, m.pc.toNat + 2 ^ 32 * (o.1 % 1024 + 1024 * o.2), m.pc⟩).toList } ∧
      (∀ k, k / 16 ≠ m.psel → tabGet AcUnit.empty g'.ac k = tabGet AcUnit.empty g.ac k) ∧
      (∀ c, m.cmd = .mzero c ∨ m.cmd = .mspill ∨ m.cmd = .mfill ∨ m.cmd = .macc → g'.ac = g.ac) ∧
      (∀ f a l, m.cmd = .mma f a l → (g.acUnit m.psel m.ac).cls = (formSpec f).cls → ∀ i < 64,
        let r := (g.acUnit m.psel m.ac).row i
        let n := (if a.dm = .absorb then m.rank else (a.kc.val + 1) * (formSpec f).kt) * if f = .mmaI8 then 256 else 1
        (g'.acUnit m.psel m.ac).row i = { r with count := if (formSpec f).cls = .acz then r.count + n else min (2 ^ 32 - 1) (r.count + n) }) ∧
      (∀ t p q x y, m.cmd = .mfilt t x y ∨ m.cmd = .mblend t p ∨ m.cmd = .mblendb t p q → (g.acUnit m.psel m.ac).cls = (if m.cmd = .mfilt t x y then .acn else .acw) → ∀ i < 64,
        let r := (g.acUnit m.psel m.ac).row i
        (g'.acUnit m.psel m.ac).row i = { r with count := min (2 ^ 32 - 1) (r.count + 64) }) ∧
      (∀ f r x, m.cmd = .mdrain f r x → (x = false ∨ m.fault ≠ none → g'.ac = g.ac) ∧
        (x = true → m.fault = none → ((g.acUnit m.psel m.ac).cls ≠ .acw → g'.acUnit m.psel m.ac = AcUnit.empty) ∧
          ((g.acUnit m.psel m.ac).cls = .acw → ∀ v ∈ unitsOf .acw (if m.ac < 5 then 0 else 5), g'.acUnit m.psel v = AcUnit.empty))) ∧
      (∀ a, m.cmd = .mma .mmaI8 a none → a.dm = .dense → (g.acUnit m.psel m.ac).cls = .acz → ∀ i < 64,
        (g'.acUnit m.psel m.ac).row i = { (g.acUnit m.psel m.ac).row i with count := ((g.acUnit m.psel m.ac).row i).count + (a.kc.val + 1) * 256 * 256 }) ∧
      (∀ a, m.cmd = .mma .mmaE4 a none → a.dm = .dense → (g.acUnit m.psel m.ac).cls = .acn → ∀ i < 64,
        (g'.acUnit m.psel m.ac).row i = { (g.acUnit m.psel m.ac).row i with count := min (2 ^ 32 - 1) (((g.acUnit m.psel m.ac).row i).count + (a.kc.val + 1) * 256) })) ∧
  (∀ (s s1 : State) (gid id : Nat) (fab : FabIn) (g : Grove) (l : TileLoad) (bs : List (Byte × Bool)), s.grove? gid = some g → g.loads.head? = some l → l.id = id →
    s.clocked (g.core / 128) = true → l.done % 256 = 0 → l.size = l.done + 256 → g.msq = none → s.loadWaits g l.id l.source 256 = false →
    s.unitRead (g.coreAgent l.psel fab) 4 ((l.src + if l.weight then l.done else l.done / 256 * l.stride) % 2 ^ 64) 256 = .ok (s1, bs) → bs.length = 256 → s1.groves = s.groves →
    ∃ t, exec (.loaderSlot gid id fab) s = .next t ∧ OnlyGroves s1 t ∧
      let k := 2 ^ 24 * l.psel + (if l.weight then 131072 else 16384) * l.unit + l.done
      let put := fun (old new : List (Nat × Byte)) => ∀ a, tabGet 0 new a = if k ≤ a ∧ a < k + 256 then (bs.getD (a - k) (0, false)).1 else tabGet 0 old a
      let mark := fun (n : Nat) (old new : List (Nat × Bool)) =>
        ∀ a, tabGet false new a = if k / n ≤ a ∧ a < (k + 256) / n then bs.any Prod.snd else tabGet false old a
      ∃ g', t.grove? gid = some g' ∧
        g' = { g with
          ta := g'.ta, taPoison := g'.taPoison, wb := g'.wb, wbPoison := g'.wbPoison
          loads := g.loads.map fun x => if x.id = l.id then { x with done := x.done + 256 } else x } ∧
        if l.weight then g'.ta = g.ta ∧ g'.taPoison = g.taPoison ∧ put g.wb g'.wb ∧ mark 256 g.wbPoison g'.wbPoison
        else g'.wb = g.wb ∧ g'.wbPoison = g.wbPoison ∧ put g.ta g'.ta ∧ mark 32 g.taPoison g'.taPoison) ∧
  (∀ (s : State) (gid id : Nat) (g : Grove) (l : TileLoad), s.grove? gid = some g → g.loads.find? (fun x => x.id == id) = some l → l.size ≤ l.done →
    let g1 := { g with
      loads := g.loads.filter fun x => decide (x.id ≠ id)
      wbRank := if l.weight then tabSet 0 g.wbRank (8 * l.psel + l.unit) l.rank else g.wbRank }
    (l.handle = 0xFFFFFFFF → ∃ t, exec (.tileLoadComplete gid id) s = .next t ∧ GroveBecomes s t gid g1) ∧
    ∀ b s1, EntryOf s g l.handle b → GroveBecomes s s1 gid g1 →
      ∃ t, exec (.tileLoadComplete gid id) s = .next t ∧ (-2 ^ 39 ≤ b.pend - l.size → b.pend - l.size < 2 ^ 39 → t = afterTest s1 g1 l.handle { b with pend := b.pend - l.size })) ∧
  (∀ (s : State) (gid : Nat) (fab : FabIn) (g : Grove) (m : Msq) (f : MmaForm) (a : MmaArgs) (l : Option MmaLit), ChunkDue s gid g m →
    m.cmd = .mma f a l → m.step % 16 = 0 → m.step + 16 ≤ m.total → Sound g m → (a.dm = .expand ∨ a.dm = .absorb → m.rank ∈ [64, 128, 256, 512]) →
    (f = .mmaBfmx4 ∨ f = .mmaI8e4 → ∀ t, l = some t → t.ones = true) → (a.dm = .expand → f = .mmaBf16 ∨ f = .mmaE4bf) →
    (a.dm = .absorb → f = .mmaBf16 ∧ m.total = stepsOfChunk (formSpec f) m a) →
    let x := formSpec f
    let c := m.step / stepsOfChunk x m a
    let u := g.acUnit m.psel m.ac
    ((a.dm = .sparse → GroupsOk g m x a) →
      ∃ (g' : Grove) (sc : List (Nat × Nat)) (o : Option (Nat × Nat)), ChunkGives s gid fab g m false g' { m with step := m.step + 16, scales := sc, overflow := o } ∧
        (m.step % stepsOfChunk x m a = 0 → ScalesRead g f l c sc) ∧ (m.step % stepsOfChunk x m a ≠ 0 → sc = m.scales) ∧
        let u' := g'.acUnit m.psel m.ac
        match a.dm with
        | .expand =>
          (m.step % (m.rank + 64) < m.rank → (∀ i < 64, u'.row i = u.row i) ∧ o = m.overflow) ∧
            (m.rank ≤ m.step % (m.rank + 64) → ∃ b : Nat → Nat → Nat,
              (∀ k < 128, ∀ j < 64, Staged ((List.range m.rank).map fun r => (latentCode g m.psel a.wb.val ((128 * c + k) * m.rank + r), latentCode g m.psel (a.wb.val + 1) (j * m.rank + r))) (b k j)) ∧
              TileGains x.cls u u' m.overflow o fun i j => (List.range 16).map fun t => (List.range 2).map fun e =>
                let k := 2 * (m.step % (m.rank + 64) - m.rank + t) + e
                ((operand x.a (aCode g m.psel x.a a c i k)).scaled (tabGet 127 sc (64 * (k / 32) + i))).mul (readNum 0 .bf16 (b k j)))
        | .absorb =>
          let n := m.rank * (a.kc.val + 1)
          (m.step < n → (∀ i < 64, u'.row i = u.row i) ∧ o = m.overflow) ∧
            (n ≤ m.step → ∃ b : Nat → Nat → Nat,
              (∀ i < 64, ∀ r < m.rank, Staged ((List.range (128 * (a.kc.val + 1))).map fun k => (aCode g m.psel x.a a (k / 128) i (k % 128), latentCode g m.psel a.wb.val (k * m.rank + r))) (b i r)) ∧
              TileGains x.cls u u' m.overflow o fun i j => (List.range 16).map fun t => (List.range 2).map fun e =>
                let k := 2 * (m.step - n + t) + e
                (readNum 0 .bf16 (b i k)).mul (readNum 0 .bf16 (latentCode g m.psel (a.wb.val + 1) (j * m.rank + k))))
        | _ => TileGains x.cls u u' m.overflow o fun i j => (List.range 16).map fun t => stepProducts g m x a sc (m.step + t) i j) ∧
    (a.dm = .sparse → (∃ j < 64, let n := m.step % stepsOfChunk x m a * (2 * x.kstep)
        ∃ k, n ≤ k ∧ k < n + 2 * x.kstep ∧ (keptAt g m.psel x a c j (k / 4)).2 ≤ (keptAt g m.psel x a c j (k / 4)).1) →
      ∃ g' m', ChunkGives s gid fab g m false g' m' ∧
        ∀ i < 64, (g'.acUnit m.psel m.ac).row i = if (u.row i).poison then u.row i else { u.row i with poison := true, elems := [] })) ∧
  (∀ (s : State) (gid : Nat) (fab : FabIn) (g : Grove) (m : Msq) (v : Fin 16) (w : Fin 8), ChunkDue s gid g m → m.cmd = .medge v w → m.step = 0 → m.total = 16 → Sound g m →
    let p := m.psel
    let n := slotField g p w 4 1
    let cx := fun i : Nat => (256 * (8 * slotField g p w 0 2 + i % 8) + 128 : Int)
    let cy := fun i : Nat => (256 * (8 * slotField g p w 2 2 + i / 8) + 128 : Int)
    ∀ (area : Nat → Int) (e : Nat → Nat → Int × Int × (Int → Int → Int)) (z : Nat → Nat → Nat → Int), n ≤ 16 → (∀ t < n, EntryIs g p w t (area t) (e t) (z t)) →
    ∃ g', ChunkGives s gid fab g m true g' { m with step := 16 } ∧
      (∀ i < 64,
        let r := (g.acUnit p m.ac).row i
        let r' := (g'.acUnit p m.ac).row i
        r' = { r with count := 3, elems := r'.elems } ∧ (r.poison = true → r'.elems = r.elems) ∧
          (r.poison = false → ∀ t < 16, ∀ k < 4, r'.elem (4 * t + k) =
            if t < n then (if k < 3 then (e t k).2.2 (cx i) (cy i) * 2 ^ 48 else z t (i % 8) (i / 8) * 2 ^ 31, 0) else (0, 0)) ∧
          (slotField g p w 8 8 / 2 ^ i % 2 = 0 → visOf g' p v i = visOf g p v i) ∧
          (slotField g p w 8 8 / 2 ^ i % 2 = 1 → ∃ q : Nat → VisAt, q 0 = visOf g p v i ∧ q n = visOf g' p v i ∧
            ∀ t < n, SeesEntry g p w t m.mcs1.toNat (area t) (e t) (z t (i % 8) (i / 8)) (cx i) (cy i) (q t) (q (t + 1)))) ∧
      ∀ k, (∀ i < 64, k < 2 ^ 24 * p + 16384 * v.val + 256 * i ∨ 2 ^ 24 * p + 16384 * v.val + 256 * i + 25 ≤ k) → tabGet 0 g'.ta k = tabGet 0 g.ta k) ∧
  (∀ (s : State) (gid : Nat) (fab : FabIn) (g : Grove) (m : Msq) (ta : Fin 16) (w : Fin 8) (x : TxFmt) (q : Nat → Nat → ℤ), ChunkDue s gid g m →
    m.cmd = .mfilt ta w x → m.step % 16 = 0 → m.step + 16 ≤ m.total → Sound g m →
    let ix := fun i k : Nat => tileField g m.psel ta (256 * i + 32 + k) 1
    (∀ i < 64, Taps (fun k => tileField g m.psel ta (256 * i + 4 * k) 4) (ix i) (q i)) →
    ∃ g' o, ChunkGives s gid fab g m false g' { m with step := m.step + 16, overflow := o } ∧
      TileGains .acn (g.acUnit m.psel m.ac) (g'.acUnit m.psel m.ac) m.overflow o fun i j => (List.range 16).map fun t => [2 * (m.step + t), 2 * (m.step + t) + 1].map fun n =>
        (Ext.num false (((((List.range 8).map fun k => if ix i k = n then q i k else 0).sum : ℤ) : ℝ) / 256)).mul
          (match x with
            | .fp16 => readNum 0 .fp16 (slotField g m.psel w (2 * (64 * n + j)) 2)
            | .n8 => .num false (slotField g m.psel w (64 * n + j) 1))) ∧
  (∀ (s : State) (gid : Nat) (fab : FabIn) (g : Grove) (m : Msq) (ta ts : Fin 16), ChunkDue s gid g m → m.cmd = .mblend ta ts → ta ≠ ts → m.step % 16 = 0 → m.step + 16 ≤ m.total →
    m.total ≤ 64 → Sound g m → m.mcs2.toNat % 8 ≤ 4 →
    let f := fun t n : Nat => tileField g m.psel ta (256 * (m.step + t) + 4 * n) 4
    (∀ t < 16, FlatSplat (f t)) →
    ∃ g' o, ChunkGives s gid fab g m true g' { m with step := m.step + 16, overflow := o } ∧
      (∀ i < 64,
        let r := (g.acUnit m.psel m.ac).row i
        let r' := (g'.acUnit m.psel m.ac).row i
        (r.poison = true → r' = r) ∧ (r.poison = false → r' = { r with elems := r'.elems, ovf := r'.ovf }) ∧
          ∃ b : Nat → PixelAt, b 0 = pixelOf g m ts i ∧ (r.poison = false → b 16 = pixelOf g' m ts i) ∧ b 16 = { pixelOf g' m ts i with elem := (b 16).elem } ∧
            ∀ t < 16,
              let live := (b t).done = false ∧ (∀ n < 2, finite32 (tileField g m.psel ts (256 * i + 4 * n) 4) = true) ∧ finite32 (b t).t = true
              (¬ live → b (t + 1) = b t) ∧ (live → Blends (f t) (m.mcs2.toNat % 8) (m.mcs2.toNat / 8 % 2 == 1) (b t) (b (t + 1)))) ∧
      ∀ k, (∀ i < 64, let n := 2 ^ 24 * m.psel + 16384 * ts.val + 256 * i
          k < n + 8 ∨ n + 21 ≤ k ∨ (n + 12 ≤ k ∧ k < n + 20 ∧ m.mcs2.toNat / 8 % 2 = 0)) → tabGet 0 g'.ta k = tabGet 0 g.ta k) ∧
  (∀ (s : State) (gid : Nat) (fab : FabIn) (g : Grove) (m : Msq) (ta ts tg : Fin 16), ChunkDue s gid g m → m.cmd = .mblendb ta ts tg → ta ≠ tg → ts ≠ tg → m.step % 16 = 0 → m.step + 16 ≤ m.total →
    m.total ≤ 64 → Sound g m → m.mcs2.toNat % 8 ≤ 4 →
    let nch := m.mcs2.toNat % 8
    let f := fun t n : Nat => tileField g m.psel ta (256 * (m.step + t) + 4 * n) 4
    (∀ t < 16, FlatSplat (f t)) →
    ∃ (g' : Grove) (o : Option (Nat × Nat)) (b : Nat → Nat → BackAt) (out : Nat → Nat → Option (Nat → Ext)), ChunkGives s gid fab g m true g' { m with step := m.step + 16, overflow := o } ∧
      (∀ i < 64, b i 0 = backOf g m tg i ∧ (b i 16).tb = (backOf g' m tg i).tb ∧ (b i 16).done = (backOf g' m tg i).done ∧ (∀ ch < nch, (b i 16).r ch = (backOf g' m tg i).r ch) ∧
        ∀ t < 16,
          let px := fun n : Nat => tileField g m.psel ts (256 * i + n) 4
          let live := (b i t).done = false ∧ finite32 (px 0) = true ∧ finite32 (px 4) = true ∧ finite32 (b i t).tb = true
          (¬ live → b i (t + 1) = b i t ∧ out i t = none) ∧
            (live → px 12 = 0xFFFFFFFF → b i (t + 1) = { b i t with done := true } ∧ out i t = none) ∧
            (live → px 12 ≠ 0xFFFFFFFF → Replays (f t) (fun ch => tileField g m.psel tg (256 * i + 4 + 4 * ch) 4) nch (px 12) (b i t) (b i (t + 1)) (out i t))) ∧
      (∀ n, n < 64 →
        let r := (g.acUnit m.psel m.ac).row n
        let r' := (g'.acUnit m.psel m.ac).row n
        (r.poison = true ∨ n < m.step ∨ m.step + 16 ≤ n → r' = r) ∧
          (r.poison = false → m.step ≤ n → n < m.step + 16 → r' = { r with elems := r'.elems, ovf := r'.ovf } ∧
            (∀ ch < nch, ∃ ov, StepsAdd .acw (r.elem ch) ((List.range 64).filterMap fun i => (out i (n - m.step)).map fun o => [o ch]) (r'.elem ch) ov) ∧
            ∀ j, (nch ≤ j ∧ j < 4) ∨ 10 ≤ j → r'.elem j = r.elem j)) ∧
      ∀ k, (∀ i < 64, let n := 2 ^ 24 * m.psel + 16384 * tg.val + 256 * i
          k < n ∨ (n + 4 ≤ k ∧ k < n + 20) ∨ (n + 20 + 4 * nch ≤ k ∧ k ≠ n + 36)) → tabGet 0 g'.ta k = tabGet 0 g.ta k) ∧
  (∀ (s s1 s2 : State) (gid : Nat) (fab : FabIn) (g : Grove) (m : Msq) (c : TileClass) (im : Nat → AcRow) (ims : Nat → List Byte) (hd bs : List (Byte × Bool)),
    ChunkDue s gid g m → m.step = 0 → 16 ≤ m.total → m.ac < 10 → c ≠ .empty → (∀ i < 64, RowFits c (im i) ∧ ImageOf c (im i) (ims i)) →
    let base := (m.sregs.getD 0 0).toNat + 2 ^ 32 * (m.sregs.getD 1 0).toNat
    let n := 64 * (match c with | .acw => 64 + 64 * 80 | .acn => 64 + 64 * 16 | _ => 64 + 64 * 4)
    s.loadWaits g m.start base 331776 = false → (served s g m).unitRead (g.coreAgent m.psel fab) 2 base 64 = .ok (s1, hd) → hd.map Prod.fst = (ims 0).take 64 →
    s1.unitRead (g.coreAgent m.psel fab) (linesOf n) base n = .ok (s2, bs) → bs.map Prod.fst = (List.range 64).flatMap ims → (∀ b ∈ bs, b.2 = false) →
    ∀ g2, s2.grove? gid = some g2 → g2.ac = g.ac → g2.desc = g.desc → g2.msq = some m →
    (m.cmd = .mfill → ((∀ v ∈ unitsOf c m.ac, (g.acUnit m.psel v).cls = .empty ∧ v < g.desc.acs) ∨ (g.acUnit m.psel m.ac).cls = c ∧ (g.acUnit m.psel m.ac).interior = false) → (c = .acw → m.ac = 0 ∨ m.ac = 5) →
      (c = .acz → ∀ i < 64, (im i).count ≤ 2 ^ 20) →
      ∃ t g', exec (.sequencerChunk gid fab) s = .next t ∧ GroveBecomes s2 t gid g' ∧ g' = { g2 with ac := g'.ac, msq := some { m with step := 16, units := unitsOf c m.ac } } ∧
        (∀ k, k ∉ (unitsOf c m.ac).map (16 * m.psel + ·) → tabGet AcUnit.empty g'.ac k = tabGet AcUnit.empty g.ac k) ∧
        (∀ v ∈ unitsOf c m.ac, v ≠ m.ac → g'.acUnit m.psel v = newUnit c false) ∧
        (g'.acUnit m.psel m.ac).cls = c ∧ (g'.acUnit m.psel m.ac).interior = false ∧
        ∀ i < 64, let r' := (g'.acUnit m.psel m.ac).row i
          r' = { im i with elems := r'.elems } ∧ ∀ j < 64, r'.elem j = (im i).elem j) ∧
    (m.cmd = .macc → (g.acUnit m.psel m.ac).cls = c → (∀ i < 64, ((g.acUnit m.psel m.ac).row i).bad = false) →
      (c = .acz → ∀ i < 64, (im i).count + ((g.acUnit m.psel m.ac).row i).count ≤ 2 ^ 20) →
      ∃ t g' o, exec (.sequencerChunk gid fab) s = .next t ∧ GroveBecomes s2 t gid g' ∧ g' = { g2 with ac := g'.ac, msq := some { m with step := 16, overflow := o } } ∧
        (∀ k, k ≠ 16 * m.psel + m.ac → tabGet AcUnit.empty g'.ac k = tabGet AcUnit.empty g.ac k) ∧
        ∀ i < 64, let r := (g.acUnit m.psel m.ac).row i
          let r' := (g'.acUnit m.psel m.ac).row i
          r'.count = (if c = .acz then r.count + (im i).count else min (2 ^ 32 - 1) (r.count + (im i).count)) ∧ r'.df = r.df ∧ r'.poison = (r.poison || (im i).poison) ∧
            (r'.poison = true → ∀ j < 64, r'.elem j = (0, 0)) ∧
            ∃ ov : Nat → Bool, (r'.ovf = true ↔ r.ovf = true ∨ (im i).ovf = true ∨ (r'.poison = false ∧ ∃ j < 64, ov j = true)) ∧
              (r'.poison = false → ∀ j < 64, StepAdds c (r.elem j) [imageTerm c ((im i).elem j)] (r'.elem j) (ov j)))) ∧
  (∀ (s s1 : State) (gid : Nat) (fab : FabIn) (g : Grove) (m : Msq) (vt : Nat) (bs : List Byte), ChunkDue s gid g m → m.cmd = .mspill → m.total = m.step + 1 →
    let u := g.acUnit m.psel m.ac
    let va := ((m.sregs.getD 0 0).toNat + 2 ^ 32 * (m.sregs.getD 1 0).toNat + m.step * (64 + 64 * (match u.cls with | .acw => 80 | .acn => 16 | _ => 4))) % 2 ^ 64
    u.cls ≠ .empty → (u.row m.step).bad = false → ImageOf u.cls (u.row m.step) bs → s.loadWaits g m.start va bs.length = false →
    (served s g m).unitStore (g.coreAgent m.psel fab) false va bs = .ok (s1, vt) →
    ∀ g1, s1.grove? gid = some g1 → g1.ac = g.ac → g1.msq = g.msq →
    ∃ t, exec (.sequencerChunk gid fab) s = .next t ∧ OnlyGroves s1 t ∧
      ∃ g', t.grove? gid = some g' ∧ g' = { g1 with ac := g'.ac, msq := some { m with step := m.step + 1 } } ∧
        ∀ k, (tabGet AcUnit.empty g'.ac k).cls = (tabGet AcUnit.empty g.ac k).cls ∧ ∀ i, (tabGet AcUnit.empty g'.ac k).row i = (tabGet AcUnit.empty g.ac k).row i) ∧
  ∀ (s : State) (gid : Nat) (g : Grove) (x : PendTrap) (r : List PendTrap) (entry : Word), s.grove? gid = some g → g.pending = x :: r →
    g.front.ready = true → g.front.front = true → g.front.th = false → g.front.txn.isOpen = false → s.mayRun g g.core = true → (∀ y, g.front.seg = some y → SegDone y) →
    s.handler g.ctx true = some entry → natBit s.hub.snapMask x.cause = false →
    ∃ t u', exec (.pendingTrapDelivery gid) s = .next t ∧ GroveBecomes s t gid { g with pending := r, front := u' } ∧
      Entered g.desc.vregs entry x.cause x.detail false g.front.now.pc (BitVec.ofNat 64 x.tval) 0 g.front u'

/-- The engine words send their commands, CFENCE parts the earlier commands from the later, and BEAMGO and BEAMGO.REQ send theirs (R282, R283, R326). -/
def Obligations.EngineWords : Prop :=
  ∀ (h : Hdr) (d j : Fin 32) (p : Place),
    EngineIssues (.tcopy h d j p) h d j p .tcopy ∧ EngineIssues (.tcopym h d j p) h d j p .tcopym ∧
    EngineIssues (.gather h d j p) h d j p .gather ∧ EngineIssues (.scatter h d j p) h d j p .scatter ∧
    EngineIssues (.sortk h d j p) h d j p .sortk ∧ EngineIssues (.route h d j p) h d j p .route ∧ EngineIssues (.coll h d j p) h d j p .coll ∧
    (∀ (s : State) (gid : Nat) (w l : Word) (g : Grove), FrontAt s gid w l g → g.front.guard h = true → (∀ x, g.front.seg = some x → x.checks = []) →
      (FrontDecodes ⟨h, 1, false, 0, []⟩ g → ∃ t, exec (.cfence h) s = .next t ∧ FrontDoes s t gid { g with cfence := s.nextId } (Passed 1 g.front)) ∧
      (FrontDecodes ⟨h, 1, false, 0, [.s d.val 2 2]⟩ g → s.acquiring g.id none = false → EngineRoom s g.id →
        let va := (g.front.pair d.val).toNat
        let n := (g.front.reg j.val).toNat
        let sent := fun b => { s with nextId := s.nextId + 1, beams := s.beams ++ [b] }
        let past' := PassedWith (fun v => { v with beamOrd := v.beamOrd + 1 }) g.front
        (AddressOk s g.ctx va 256 → ∃ t, exec (.beamgo h d) s = .next t ∧ FrontDoes (sent (beamOf s g va none)) t gid g past') ∧
        (AddressOk s g.ctx va 32 → 1 ≤ n → n ≤ 4096 → g.desc.seedl ≠ 0 →
          ∃ t, exec (.beamgoReq h d j) s = .next t ∧ FrontDoes (sent (beamOf s g va (some n))) t gid g past')))

/-- An engine at work (R225-R227, R255, R256, R276, R282-R288). A command starts after the earlier ones of its front thread and reads its descriptor: TCOPY, TCOPYM, GATHER and SCATTER move each element of one to fourteen dimensions, but those an index skips, from its source to its destinations, in order; SORTK writes each segment's pairs by key, value and place; ROUTE writes the rows it keeps, the counts, the dropped list and its length; COLL writes the members' elements combined (in the canonical tree, exactly, or as integers), or copied. A TCOPYM reads an element once for all its destinations; a line is owned while its bytes are read, written as one store with a visibility time, at which the loads that have waited for it are served, and given back; a command completes when GT reaches its times, and delivers its bytes; a COLL that waits too long ends with BARRIER_TIMEOUT; beams and request lists end with their seeds and deliveries. -/
def Obligations.EngineWork : Prop :=
  (∀ (s s1 : State) (id : Nat) (fab : FabIn) (c : EngCmd) (g : Grove) (bs : List (Byte × Bool)) (k : Nat), s.cmd? id = some c → s.grove? c.gid = some g →
    s.engineRuns c = true → c.started = true → c.planned = false → c.op = .tcopy → c.place = .issuing → s.unitRead (c.agent fab) 5 c.desc 512 = .ok (s1, bs) →
    let d := bs.map Prod.fst
    let size := 2 ^ k
    let n := fieldOf d 64 4
    let sstr := signed64 (fieldOf d 72 8)
    let dstr := signed64 (fieldOf d 80 8)
    k < 5 → fieldOf d 16 4 = 1 + 16 * k → fieldOf d 28 36 = 0 → fieldOf d 68 4 = 0 → fieldOf d 88 8 = 0 →
    fieldOf d 0 8 % size = 0 → fieldOf d 8 8 % size = 0 → sstr % size = 0 → dstr % size = 0 → n * size ≤ 2 ^ 40 →
    ∃ t, exec (.engineLineWrite id fab) s = .next t ∧ t = { s1 with cmds := s1.cmds.map fun x => if x.id = id then { x with
      planned := true, die := c.die, deliver := [(c.handle, n * size)]
      moves := (List.range n).map fun i =>
        { dst := (((fieldOf d 8 8 : Int) + i * dstr) % 2 ^ 64).toNat, src := (((fieldOf d 0 8 : Int) + i * sstr) % 2 ^ 64).toNat, len := size, bytes := none } } else x }) ∧
  (∀ (s s1 s2 : State) (id : Nat) (fab : FabIn) (c : EngCmd) (op : EngOp) (d : List Byte) (die : Nat) (tb : List (Byte × Bool)), op ∈ [EngOp.tcopy, .tcopym, .gather, .scatter] → ReadsDesc s s1 id fab c op d die →
    let a := { c.agent fab with die := die }
    let w := fieldOf d 16 4
    let nd := w % 16
    let size := 2 ^ (w / 16 % 8)
    let nmc := w / 2 ^ 16 % 256
    let indexed := op = .gather ∨ op = .scatter
    let n := if op = .tcopym then 16 * nmc else 4 * fieldOf d 96 4
    1 ≤ nd → nd ≤ 14 → w / 16 % 8 ≤ 4 → w / 2 ^ 9 % 2 ^ 7 = 0 → w / 2 ^ 24 = 0 → fieldOf d 28 36 = 0 → (op = .tcopym → 1 ≤ nmc ∧ nmc ≤ 16) → (op ≠ .tcopym → nmc = 0) →
    (indexed → 2 ≤ nd ∧ fieldOf d 20 8 % 4 = 0) → (∀ k < nd, fieldOf d (68 + 32 * k) 4 = 0 ∧ fieldOf d (88 + 32 * k) 8 = 0) →
    (op = .tcopy → s2 = s1) → (op ≠ .tcopy → s1.unitRead a (linesOf n) (fieldOf d 20 8) n = .ok (s2, tb)) →
    let tbl := tb.map Prod.fst
    let idx := fun j => fieldOf tbl (4 * j) 4
    let dests : List (Nat × Bool × Nat) := if op = .tcopym then (List.range nmc).map fun m => (fieldOf tbl (16 * m) 8, fieldOf tbl (16 * m + 12) 4 % 2 == 1, fieldOf tbl (16 * m + 8) 4)
      else [(fieldOf d 8 8, w / 256 % 2 == 1, c.handle)]
    (op = .tcopym → ∀ m < nmc, fieldOf tbl (16 * m + 12) 4 < 2) →
    let kept := (List.range ((List.range nd).map fun k => fieldOf d (64 + 32 * k) 4).prod).filter fun i => !((op == .gather || op == .scatter) && idx (alongDim d 1 i) == 0xFFFFFFFF)
    let from_ := fun i => elemAddr (fieldOf d 0 8) (w / 128 % 2 == 1) (sideOffset d nd 8 i (if op = .gather then some idx else none))
    let at_ := fun i (e : Nat × Bool × Nat) => elemAddr e.1 e.2.1 (sideOffset d nd 16 i (if op = .scatter then some idx else none))
    (∀ i ∈ kept, from_ i % size = 0 ∧ ∀ e ∈ dests, at_ i e % size = 0) → kept.length * size * dests.length ≤ 2 ^ 40 →
    ∃ t, exec (.engineLineWrite id fab) s = .next t ∧ PlansTo s2 t id die (kept.flatMap fun i => dests.map fun e => ⟨at_ i e, from_ i, size, none⟩) (dests.map fun e => (e.2.2, kept.length * size))) ∧
  (∀ (s s1 s2 s3 : State) (id : Nat) (fab : FabIn) (c : EngCmd) (d : List Byte) (die : Nat) (sb pb : List (Byte × Bool)), ReadsDesc s s1 id fab c .sortk d die →
    let a := { c.agent fab with die := die }
    let w := fieldOf d 24 8
    let nseg := w % 2 ^ 21
    let kf := w / 2 ^ 21 % 8
    let size := if kf = 3 then 16 else 8
    let off := fun i => fieldOf (sb.map Prod.fst) (4 * i) 4
    let n := off nseg - off 0
    let from_ := fieldOf d 0 8 + off 0 * size
    let out := fieldOf d 8 8 + off 0 * size
    1 ≤ nseg → nseg ≤ 2 ^ 20 → kf ≤ 3 → w / 2 ^ 25 = 0 → fieldOf d 32 480 = 0 → fieldOf d 16 8 % 4 = 0 → fieldOf d 0 8 % size = 0 → fieldOf d 8 8 % size = 0 →
    s1.unitRead a (linesOf (4 * (nseg + 1))) (fieldOf d 16 8) (4 * (nseg + 1)) = .ok (s2, sb) → (∀ i < nseg, off i ≤ off (i + 1)) → n ≤ 2 ^ 26 →
    (fieldOf d 8 8 = fieldOf d 0 8 ∨ from_ + n * size ≤ out ∨ out + n * size ≤ from_) →
    s2.unitRead a (linesOf (n * size)) (from_ % 2 ^ 64) (n * size) = .ok (s3, pb) → pb.length = n * size →
    let pair := fun i => (pb.drop (size * i)).take size
    let key := fun i => keyOrder kf (w / 2 ^ 24 % 2 == 1) (fieldOf ((pair i).map Prod.fst) 0 (size / 2))
    let val := fun i => fieldOf ((pair i).map Prod.fst) (size / 2) 4
    ∃ (t : State) (ms : List Move) (order : List Nat), exec (.engineLineWrite id fab) s = .next t ∧ PlansTo s3 t id die ms [(c.handle, n * size)] ∧ MovesPut (out % 2 ^ 64) (order.flatMap pair) ms ∧
      order.length = n ∧ ∀ k < nseg, let seg := (order.drop (off k - off 0)).take (off (k + 1) - off k)
        seg.Perm (List.range' (off k - off 0) (off (k + 1) - off k)) ∧ seg.Pairwise fun i j => key i < key j ∨ (key i = key j ∧ (val i < val j ∨ (val i = val j ∧ i < j)))) ∧
  (∀ (s s1 s2 s3 s4 : State) (id : Nat) (fab : FabIn) (c : EngCmd) (d : List Byte) (die : Nat) (cb pb ob : List (Byte × Bool)), ReadsDesc s s1 id fab c .route d die →
    let a := { c.agent fab with die := die }
    let w := fieldOf d 32 8
    let k := w / 2 ^ 24 % 16 + 1
    let n := (w % 2 ^ 24 + 1) * k
    let e := w / 2 ^ 28 % 2 ^ 12 + 1
    let rb := fieldOf d 38 4
    k ≤ 8 → w / 2 ^ 40 % 256 = 0 → rb % 16 = 0 → 0 < rb → rb ≤ 65536 → fieldOf d 62 2 = 0 → fieldOf d 72 440 = 0 →
    s1.unitRead a (linesOf (2 * n)) (fieldOf d 8 8) (2 * n) = .ok (s2, cb) → s2.unitRead a (linesOf (4 * e)) (fieldOf d 16 8) (4 * e) = .ok (s3, pb) →
    s3.unitRead a (linesOf (8 * e)) (fieldOf d 24 8) (8 * e) = .ok (s4, ob) →
    let cho := fun q => fieldOf (cb.map Prod.fst) (2 * q) 2
    let cap := fun i => fieldOf (pb.map Prod.fst) (4 * i) 4
    let live := (List.range n).filter fun q => cho q != 0xFFFF
    let pos := fun q => (live.filter fun r => decide (r < q) && cho r == cho q).length
    let kept := live.filter fun q => decide (pos q < cap (cho q))
    let dropped := live.filter fun q => decide (cap (cho q) ≤ pos q)
    let listed := dropped.take (fieldOf d 58 4)
    let at_ := fun q => (fieldOf (ob.map Prod.fst) (8 * cho q) 8 + pos q * rb) % 2 ^ 64
    let from_ := fun q => (fieldOf d 0 8 + q / k * rb) % 2 ^ 64
    (∀ q ∈ live, cho q < e) → (∀ q ∈ kept, at_ q % 16 = 0 ∧ from_ q % 16 = 0) → kept.length * rb + 8 * listed.length + 4 * e + 4 ≤ 2 ^ 40 →
    ∃ (t : State) (rows : Nat → List Move) (m1 m2 m3 : List Move), exec (.engineLineWrite id fab) s = .next t ∧
      PlansTo s4 t id die (kept.flatMap rows ++ m1 ++ m2 ++ m3) [(c.handle, kept.length * rb)] ∧ (∀ q ∈ kept, MovesCopy (at_ q) (from_ q) rb (rows q)) ∧
      MovesPut (fieldOf d 42 8) ((List.range e).flatMap fun i => numBytes 4 (min (cap i) (live.filter fun q => cho q == i).length)) m1 ∧
      MovesPut (fieldOf d 50 8) (listed.flatMap fun q => numBytes 8 ((fieldOf d 64 4 + q / k) % 2 ^ 32 + 2 ^ 32 * (q % k) + 2 ^ 36 * cho q)) m2 ∧
      MovesPut ((c.desc + 68) % 2 ^ 64) (numBytes 4 dropped.length) m3) ∧
  (∀ (s s1 s2 s3 : State) (id : Nat) (ins : List (List Byte)) (c : EngCmd) (d : List Byte) (mb mine : List (Byte × Bool)) (self : Nat), ReadsDesc s s1 id (.inputs ins) c .coll d 9 →
    let w := fieldOf d 20 4
    let fn := w % 8
    let fmt := w / 8 % 8
    let kind := w / 64 % 4
    let nmem := w / 256 % 2 ^ 11
    let root := fieldOf d 36 4
    let nelem := fieldOf d 16 4
    let size := if fmt = 1 ∨ fmt = 2 then 2 else 4
    let a := { c.agent (.inputs ins) with die := 9 }
    let mem := fun i => fieldOf (mb.map Prod.fst) (4 * i) 4
    fn < 6 → fmt < 4 → (fn < 2 ↔ fmt < 3) → 2 ≤ nmem → nmem ≤ 1152 → w / 2 ^ 19 = 0 → root < 2 ^ 11 → fieldOf d 40 24 = 0 → (kind = 1 → nelem % nmem = 0) → (kind = 3 → root < nmem) →
    s1.unitRead a (linesOf (4 * nmem)) (fieldOf d 24 8) (4 * nmem) = .ok (s2, mb) → self < nmem → (∀ i < nmem, mem i / 2 ^ 26 = if i = self then 1 else 0) → mem self / 2 ^ 16 % 2 ^ 10 = 0 →
    (∀ i < nmem, ∀ j < nmem, mem i % 2 ^ 16 = mem j % 2 ^ 16 → i = j) → fieldOf d 0 8 % size = 0 → fieldOf d 8 8 % size = 0 →
    s2.unitRead a (linesOf (size * nelem)) (fieldOf d 0 8) (size * nelem) = .ok (s3, mine) → mine.length = size * nelem → size * nelem * nmem ≤ 2 ^ 40 →
    let q := ((List.range nmem).filter fun i => decide (mem i % 2 ^ 16 < mem self % 2 ^ 16)).length
    let code := fun p k => fieldOf (if p = q then mine.map Prod.fst else ins.getD p []) (size * k) size
    ∃ (t : State) (ms : List Move) (out : List (Byte × Bool)), exec (.engineLineWrite id (.inputs ins)) s = .next t ∧ PlansTo s3 t id 9 ms [(c.handle, out.length)] ∧ MovesPut (fieldOf d 8 8) out ms ∧
      let elem := fun k => fieldOf (out.map Prod.fst) (size * k) size
      (kind = 0 → out.length = size * nelem ∧ ∀ k < nelem, Combines fn fmt nmem (fun p => code p k) (elem k)) ∧
      (kind = 1 → out.length = size * (nelem / nmem) ∧ ∀ k < nelem / nmem, Combines fn fmt nmem (fun p => code p (q * (nelem / nmem) + k)) (elem k)) ∧
      (kind = 2 → out.length = size * nelem * nmem ∧ ∀ p < nmem, ∀ k < nelem, elem (p * nelem + k) = code p k) ∧
      (kind = 3 → out.length = size * nelem ∧ ∀ k < nelem, elem k = code root k)) ∧
  (∀ (s s1 s2 : State) (id : Nat) (fab : FabIn) (c : EngCmd) (g : Grove) (ds : List Nat) (src len : Nat) (bs : List (Byte × Bool)) (ks : List Nat), s.cmd? id = some c → s.grove? c.gid = some g →
    s.engineRuns c = true → c.op = .tcopym → c.started = true → c.planned = true → c.owned = none → ds ≠ [] → c.moves = ds.map (fun x => ⟨x, src, len, none⟩) → src < 2 ^ 64 →
    s.groupKeys (c.agent fab) ((ds.map (· / 128)).dedup) = .ok (s1, ks) → s1.unitRead (c.agent fab) (linesOf len) src len = .ok (s2, bs) → (∀ x ∈ s2.cmds, x.id = id → x = c) →
    ∃ t, exec (.engineLineWrite id fab) s = .next t ∧
      t = { ks.foldl (fun x lk => x.setLine lk { x.line lk with owner := some c.id }) s2 with
        cmds := s2.cmds.map fun x => if x.id = id then { x with moves := ds.map fun y => ⟨y, src, len, some bs⟩ } else x }) ∧
  (∀ (s : State) (id : Nat) (fab : FabIn) (c : EngCmd) (g : Grove) (m : Move) (home pk code : Nat) (bs : List (Byte × Bool)), s.cmd? id = some c → s.grove? c.gid = some g →
    s.engineRuns c = true → g.verify ≠ 2 → c.started = true → c.planned = true → c.owned = none → c.moves = [m] → m.bytes = some bs → m.len = bs.length → m.dst < 2 ^ 64 → 0 < m.len → m.dst % 128 + m.len ≤ 128 →
    s.homeOf c.ctx m.dst = .phys home → home < 2 → s.fate c.ctx false .store home (m.dst % 2 ^ 54) = .ok pk code →
    let lk := lineKey home (m.dst % 2 ^ 54)
    (s.line lk).lock = none → (s.line lk).owner = none ∨ (s.line lk).owner = some c.id → s.barred home (pk / 128) = false → s.hostNeed home (pk / 128) true = none → s.kept home (m.dst % 2 ^ 54) ≠ none →
    ∃ t buf, exec (.engineLineWrite id fab) s = .next t ∧
      t = { s.setLine lk { s.line lk with owner := some c.id } with
        cmds := s.cmds.map fun x => if x.id = id then { x with moves := [], owned := some (lk, m.dst / 128 * 128), buf := buf } else x } ∧
      ∀ o, buf.lookup o = if m.dst % 128 ≤ o ∧ o < m.dst % 128 + m.len then bs[o - m.dst % 128]? else none) ∧
  (∀ (s : State) (id : Nat) (fab : FabIn) (c : EngCmd) (g : Grove), s.cmd? id = some c → s.grove? c.gid = some g → s.engineRuns c = true → c.started = false → c.planned = false →
    (∀ x ∈ s.cmds, x.gid = c.gid → x.id < c.id → x.started = true ∧ c.after ≤ x.id) → (∀ b ∈ s.beams, b.gid = c.gid → c.after ≤ b.id) →
    exec (.engineLineWrite id fab) s =
      exec (.engineLineWrite id fab) { s with cmds := s.cmds.map fun x => if x.id = id then { x with started := true, since := s.gt } else x }) ∧
  (∀ (s s1 : State) (id : Nat) (fab : FabIn) (c : EngCmd) (g : Grove) (m : Move) (home pk code : Nat) (bs : List (Byte × Bool)), s.cmd? id = some c →
    s.grove? c.gid = some g → s.engineRuns c = true → c.op ≠ .tcopym → g.verify ≠ 2 → c.started = true → c.planned = true → c.owned = none → c.moves = [m] → m.bytes = none → m.dst < 2 ^ 64 → m.src < 2 ^ 64 →
    0 < m.len → m.dst % 128 + m.len ≤ 128 → s.homeOf c.ctx m.dst = .phys home → home < 2 → s.fate c.ctx false .store home (m.dst % 2 ^ 54) = .ok pk code →
    let lk := lineKey home (m.dst % 2 ^ 54)
    (s.line lk).lock = none → (s.line lk).owner = none → s.barred home (pk / 128) = false → s.hostNeed home (pk / 128) true = none → s.kept home (m.dst % 2 ^ 54) ≠ none →
    s.unitRead (c.agent fab) (m.len / 128 + 2) m.src m.len = .ok (s1, bs) → bs.length = m.len → s1.cmds = s.cmds →
    ∃ t buf, exec (.engineLineWrite id fab) s = .next t ∧
      t = { s1.setLine lk { s1.line lk with owner := some c.id } with
        cmds := s.cmds.map fun x => if x.id = id then { x with moves := [], owned := some (lk, m.dst / 128 * 128), buf := buf } else x } ∧
      ∀ o, buf.lookup o = if m.dst % 128 ≤ o ∧ o < m.dst % 128 + m.len then bs[o - m.dst % 128]? else none) ∧
  (∀ (s : State) (id : Nat) (fab : FabIn) (c : EngCmd) (g : Grove) (home pk code base : Nat), s.cmd? id = some c → s.grove? c.gid = some g → s.engineRuns c = true → g.verify = 0 →
    c.started = true → c.planned = true → base % 128 = 0 → s.homeOf c.ctx base = .phys home → home < 2 → s.fate c.ctx false .store home (base % 2 ^ 54) = .ok pk code →
    let lk := lineKey home (base % 2 ^ 54)
    c.owned = some (lk, base) → (s.line lk).owner = some c.id → (s.line lk).lock = none → s.barred home (pk / 128) = false → s.hostNeed home (pk / 128) true = none →
    let vt := max s.gt (max (s.line lk).h (s.line lk).p) + 1
    ∃ t, exec (.engineLineWrite id fab) s = .next t ∧ t.mem = s.mem ∧ t.groves = s.groves ∧
      t.pend = s.pend ++ [{ id := s.nextId, line := lk, vt := vt, core := none, shared := false, bytes := c.buf.map fun e => (pk + e.1, e.2.1) }] ∧
      t.reqs = (s.reqs.map fun x => if x.atOwner = true ∧ x.dest = .phys home ∧ lineKey home (x.va % 2 ^ 54) = lk then
        { x with atOwner := false, atHost := none, after := max x.after vt } else x) ∧
      (t.line lk).owner = none ∧ (t.line lk).p = vt ∧
      t.cmds = s.cmds.map fun x => if x.id = id then { x with moves := c.moves, owned := none, buf := [], vt := max x.vt (vt + if c.die = home then 0 else 20) } else x) ∧
  (∀ (s : State) (id : Nat) (c : EngCmd) (g : Grove) (h n : Nat), s.cmd? id = some c → s.grove? c.gid = some g → s.engineRuns c = true → c.started = true → c.planned = true → c.moves = [] →
    c.owned = none → c.vt ≤ s.gt → (∀ x ∈ s.peerStores, x.core ≠ 256 + c.id) → c.deliver = [(h, n)] →
    let r := { s with cmds := s.cmds.filter fun x => decide (x.id ≠ id) }
    (h = 0xFFFFFFFF → exec (.engineCommandComplete id) s = .next r) ∧
    ∀ b, EntryOf s g h b → -2 ^ 39 ≤ b.pend - n → b.pend - n < 2 ^ 39 → exec (.engineCommandComplete id) s = .next (afterTest r g h { b with pend := b.pend - n })) ∧
  (∀ (s : State) (id : Nat) (c : EngCmd) (g : Grove), s.cmd? id = some c → s.grove? c.gid = some g → c.op = .coll → c.started = true → c.planned = false → c.owned = none →
    (s.ctx c.ctx).halted = false → c.since + 1000 * ((s.csrRaw c.ctx 7).toNat % 2 ^ 28) ≤ s.gt →
    ∃ t, exec (.collTimeout id) s = .next t ∧ GroveBecomes { s with cmds := s.cmds.filter fun x => decide (x.id ≠ id) } t c.gid
      { g with pending := g.pending ++ [⟨0x0A, 7, c.desc, c.pc⟩] }) ∧
  (∀ (s : State) (id : Nat) (fab : FabIn) (b : Beam) (g : Grove), s.beams.find? (fun x => x.id == id) = some b → s.grove? b.gid = some g → s.clocked (b.core / 128) = true → b.traced = true →
    let r := { s with beams := s.beams.filter fun x => decide (x.id ≠ id) }
    (b.req = false → b.vt ≤ s.gt → (∀ x ∈ s.peerStores, x.core ≠ 256 + b.id) →
      (b.handle = 0xFFFFFFFF → exec (.beamComplete id fab) s = .next r) ∧
      ∀ e, EntryOf s g b.handle e → -2 ^ 39 ≤ e.pend - b.bytes → e.pend - b.bytes < 2 ^ 39 →
        exec (.beamComplete id fab) s = .next (afterTest r g b.handle { e with pend := e.pend - b.bytes })) ∧
    (b.req = true → b.plant = [] → exec (.atlasRequestComplete id fab) s = .next r) ∧
    (∀ x, b.req = true → b.plant = [x] → x.ready ≤ s.gt → s.bedCount b.core (bedOf x.entry.toNat) g.ctx < 256 →
      ∃ t p, exec (.atlasRequestComplete id fab) s = .next t ∧ Planted s p g b.core x.entry x.args x.key ∧
        t = { p with beams := s.beams.filter fun q => decide (q.id ≠ id) })) ∧
  ∀ (s s1 s2 s3 : State) (id : Nat) (fab : FabIn) (b : Beam), s.beams.find? (fun x => x.id == id) = some b → s.clocked (b.core / 128) = true → b.traced = false → s.mayStartBeam b = true →
    (∀ st h n vt, b.req = false → s.planBeams (b.agent fab) b.list = .ok (s1, .go st h n) → s1.storesReady (b.agent fab) st = .ok s2 →
      s2.storeAll (b.agent fab) st = (s3, vt, none) →
      exec (.beamComplete id fab) s = .next { s3 with beams := s3.beams.map fun x => if x.id = b.id then { x with traced := true, handle := h, bytes := n, vt := vt } else x }) ∧
    (∀ bs, b.req = true → b.count = 1 → s.unitRead (b.agent fab) 2 b.list 32 = .ok (s1, bs) → bs.length = 32 → (∀ e ∈ bs, e.2 = false) → s1.clocked (b.core / 128) = true →
      let d := bs.map Prod.fst
      let word := fun o => BitVec.ofNat 32 (fieldOf d o 4)
      exec (.atlasRequestComplete id fab) s = exec (.atlasRequestComplete id fab) { s1 with beams := s1.beams.map fun x =>
        if x.id = id then { x with traced := true, plant := [⟨0, word 8, argsOf [word 0, word 4, word 12, word 16], atlasKey b.ord 0⟩] } else x })

/-- CSRR, CSRW, PGINV and HALT in a context with PRIV, and SNAP, LOGMARK and DIGEST (R328, R329, R339, R343, R344, R366, R368, R371). A privileged word of a context without PRIV traps PRIVILEGED, with the word in TVAL (R84, R343). -/
def Obligations.PrivilegedWords : Prop :=
  (∀ (h : Hdr) (a b : Fin 32) (s : State) (gid : Nat) (w l : Word) (g : Grove), FrontAt s gid w l g → g.front.guard h = true → (∀ x, g.front.seg = some x → x.checks = []) →
    let x := (g.front.reg a.val).toNat
    let v := (g.front.reg b.val).toNat
    (∀ (d : Fin 32), FrontDecodes ⟨h, 1, false, 1, []⟩ g → Privileged s g →
      (x < 2 ^ 18 → ListedCsr (x % 2 ^ 12) → x % 2 ^ 12 ∉ [2, 3, 4] →
        ∃ t, exec (.csrr h d a) s = .next t ∧ FrontDoes s t gid g (Took 1 [(.gpr d.val, s.csrRaw (x / 2 ^ 12) (x % 2 ^ 12))] g.front)) ∧
      (∀ n ≤ 9, x = 2 ^ 18 + n → ∃ t, exec (.csrr h d a) s = .next t ∧ FrontDoes s t gid g (Took 1 [(.gpr d.val, tabGet 0 s.devb n)] g.front))) ∧
    (FrontDecodes ⟨h, 1, false, 0, []⟩ g → Privileged s g → x < 2 ^ 18 → ∀ y, csrKept (x % 2 ^ 12) v = some y →
      ∃ t, exec (.csrw h b a) s = .next t ∧ FrontDoes (s.setCsrRaw (x / 2 ^ 12) (x % 2 ^ 12) (BitVec.ofNat 32 y)) t gid g (Passed 1 g.front)) ∧
    (∀ (z : PgSize) (home : Nat), FrontDecodes ⟨h, 1, true, 0, [.s a.val 2 2]⟩ g → Privileged s g → s.releaseMet g.id none g.front.core .system s.nextId = true →
      let va := (g.front.pair a.val).toNat
      va / 2 ^ 57 = 0 → va / 2 ^ 54 ≠ 4 → s.homeOf g.ctx va = .phys home →
      let page := fun n => (va % 2 ^ 54 / 2 ^ n * 2 ^ n, va % 2 ^ 54 / 2 ^ n * 2 ^ n + 2 ^ n)
      let r := match z with
        | .k64 => page 16
        | .m2 => page 21
        | .g1 => page 30
        | .all => (0, 2 ^ 54)
      ∃ t, exec (.pginv h a z) s = .next t ∧ FrontDoes { s with
          nextId := s.nextId + 1
          tlb := s.tlb.filter fun e => decide ¬ (e.1 / 2 ^ 54 = home ∧ e.1 % 2 ^ 54 < r.2 ∧ r.1 < e.1 % 2 ^ 54 + 2 ^ e.2.1)
          pginvs := { id := s.nextId, home := home, lo := r.1, hi := r.2, span := s.maxLease home + 20, start := s.gt, point := some s.gt
                      copies := s.hostCopies home r.1 r.2 } :: s.pginvs.filter fun q => decide (q.id ≠ s.nextId) } t gid g (BarPassed (.pginv s.nextId) g.front) ∧
        (home < 3 → ∀ c < 64, s.ctxEnabled c = true → (s.csrRaw c 1).toNat % 2 ^ 13 ≤ s.maxLease home)) ∧
    (∀ (home lo hi l : Nat), l ∈ s.hostCopies home lo hi ↔ home < 2 ∧ tabGet 0 s.snoopFilter l ≠ 0 ∧
      ∃ e ∈ s.lines, e.1 / 2 ^ 54 = home ∧ lo ≤ e.1 % 2 ^ 54 ∧ e.1 % 2 ^ 54 < hi ∧ e.2.phys.map (· / 128) = some l) ∧
    (∀ (n : Nat), FrontDecodes ⟨h, 1, false, 0, []⟩ g → Privileged s g → (g.front.reg a.val).toNat = n → n ≤ 63 →
      (s.ctxEnabled n = false → ∃ t, exec (.halt h a) s = .next t ∧ FrontDoes s t gid g (Passed 1 g.front)) ∧
      (s.ctxEnabled n = true → n ≠ g.ctx → ∃ t u', exec (.halt h a) s = .next t ∧ ContextEnded t n ∧ t.grove? gid = some { g with front := u' } ∧ Passed 1 g.front u')) ∧
    (∀ (n : Fin 32768), FrontDecodes ⟨h, 1, false, 0, []⟩ g →
      (natBit s.hub.snapCfg 0 = false → ∃ t, exec (.snap h n) s = .next t ∧ FrontDoes s t gid g (Passed 1 g.front)) ∧
      (natBit s.hub.snapCfg 0 = true → natBit s.hub.snapStat 0 = false →
        ∃ t, exec (.snap h n) s = .next t ∧ FrontDoes { s with
          hub := { s.hub with snapStat := 1 + 2 * 1 + 2 ^ 11 * g.ctx + 2 ^ 17 * n.val, snapGt := s.gt, snapId := s.hub.snapId + 1 }
          outbox := s.outbox ++ [⟨0, 4, 0, [], none⟩, ⟨1, 4, 0, [], none⟩] } t gid g (Passed 1 g.front))) ∧
    (FrontDecodes ⟨h, 1, false, 0, []⟩ g → g.unlogged = true → ∃ t, exec (.logmark h a) s = .next t ∧ FrontDoes s t gid g (Passed 1 g.front)) ∧
    (FrontDecodes ⟨h, 1, false, 0, [.s a.val 4 4]⟩ g →
      ∃ t, exec (.digest h a) s = .next t ∧ FrontDoes s t gid
        { g with digest := if g.verify = 0 then g.digest else (g.digest + digestTerm (List.replicate 8 0xFF ++ toBytes (valuesFrom g.front a.val 4))) % 2 ^ 128 }
        (Passed 1 g.front))) ∧
  (∀ (h : Hdr) (d a : Fin 32) (z : PgSize) (s : State) (gid : Nat) (w l : Word) (g : Grove) (entry : Word), FrontAloneAt s gid w l g h →
    g.front.th = false → g.front.txn.isOpen = false → s.handler g.ctx true = some entry → natBit s.hub.snapMask 3 = false → ¬ Privileged s g →
    ∀ p ∈ [(Instr.csrr h d a, Shape.mk h 1 false 1 []), (.csrw h d a, ⟨h, 1, false, 0, []⟩), (.pginv h a z, ⟨h, 1, true, 0, [.s a.val 2 2]⟩), (.halt h a, ⟨h, 1, true, 0, []⟩)],
      FrontDecodes p.2 g → ∃ t u', exec p.1 s = .next t ∧ FrontIs s t gid g u' ∧ Entered g.desc.vregs entry 3 0 false g.front.now.pc (w.setWidth 64) 0 g.front u')

/-- A PGINV of the window reaches its invalidation point when its time has come; a PGINV asks the host for the copies of its range, and completes once the host has given them up, no line of its range is owned or locked and its lease wait has ended; and waits on a barrier entry, of a replayed choice, time out (R224, R305, R338, R339). -/
def Obligations.WaitsEnd : Prop :=
  (∀ (s : State) (p : Pginv), s.pginvs.find? (fun q => q.id == p.id) = some p →
    (p.point = none → p.start ≤ s.gt →
      exec (.pginvComplete p.id) s = .next { s with
        tlb := s.tlb.filter fun e => decide ¬ (e.1 / 2 ^ 54 = p.home ∧ e.1 % 2 ^ 54 < p.hi ∧ p.lo < e.1 % 2 ^ 54 + 2 ^ e.2.1)
        pginvs := { p with point := some s.gt, copies := s.hostCopies p.home p.lo p.hi } :: s.pginvs.filter fun q => decide (q.id ≠ p.id) }) ∧
    (∀ t0 l ls, p.point = some t0 → p.copies = l :: ls → (l, 3) ∉ s.hostReqs →
      exec (.pginvComplete p.id) s = .next { s with hostReqs := (l, 3) :: s.hostReqs, outbox := s.outbox ++ [⟨4, l, 3, [], none⟩] }) ∧
    ∀ t0, p.point = some t0 → p.copies = [] → t0 + p.span ≤ s.gt →
      (∀ e ∈ s.lines, e.1 / 2 ^ 54 = p.home → p.lo ≤ e.1 % 2 ^ 54 → e.1 % 2 ^ 54 < p.hi → e.2.owner = none ∧ e.2.lock = none) →
      exec (.pginvComplete p.id) s = .next { s with
        pginvs := s.pginvs.filter fun q => decide (q.id ≠ p.id)
        groves := s.groves.map fun g => if g.front.wait = .pginv p.id then { g with front := { g.front with wait := .none } } else g }) ∧
  (∀ (s : State) (gid h p since : Nat) (who : Option Nat) (g : Grove) (u : Thread), s.grove? gid = some g → g.thread? who = some u → u.wait = .bar h p since →
    (s.groves.map Grove.id).Nodup → (g.lanes.map Thread.tid).Nodup → h / 2 ^ 19 % 2 = 0 →
    (∀ v, (v ∈ g.lanes ∨ v = g.front) → ∀ n, v.wait = .bar h p n → since ≤ n) → (s.ctx g.ctx).halted = false →
    since + 1000 * ((s.csrRaw g.ctx 7).toNat % 2 ^ 28) ≤ s.gt → (s.csrRaw g.ctx 0xB).toNat % 2 ^ 16 = 0 →
    ∃ t g', exec (.barrierTimeout gid who) s = .next t ∧ GroveBecomes s t gid g' ∧ g' = { g with lanes := g'.lanes, front := g'.front } ∧
      g'.lanes.map Thread.tid = g.lanes.map Thread.tid ∧
      (∀ v ∈ g.lanes, ∃ v' ∈ g'.lanes, v'.tid = v.tid ∧ ((∃ n, v.wait = .bar h p n) → TimedOut 0x0A 1 0 v v') ∧ ((∀ n, v.wait ≠ .bar h p n) → v' = v)) ∧
      ((∃ n, g.front.wait = .bar h p n) → TimedOut 0x0A 1 0 g.front g'.front) ∧ ((∀ n, g.front.wait ≠ .bar h p n) → g'.front = g.front)) ∧
  ∀ (s : State) (gid tid since : Nat) (g : Grove) (u : Thread), s.grove? gid = some g → g.thread? (some tid) = some u → u.wait = .replay since →
    (g.lanes.map Thread.tid).Nodup → u.txn.isOpen = true → (s.ctx g.ctx).halted = false → since + 1000 * ((s.csrRaw g.ctx 7).toNat % 2 ^ 28) ≤ s.gt →
    ∃ t g' u' n, exec (.replayWaitTimeout gid (some tid)) s = .next t ∧ GroveBecomes s t gid g' ∧ g' = withThread g tid u' ∧ TimedOut 0x1A 2 n u u'

/-- Launch queues (R290-R293, R376): the register writes, NOP, WAITEV, SIGNAL, and a LAUNCH that is rejected with its reason or accepted as a launch. -/
def Obligations.LaunchQueues : Prop :=
  (∀ (s : State) (q : Nat) (v : Word), s.hub.ready = true → q < 64 →
    let x := s.queue q
    (∃ t, exec (.qcfgWrite q v) s = .next t ∧ t = { s with queues := t.queues } ∧ QueueIs s t q
      (if x.en then { x with en := decide (v.toNat / 4 % 2 = 1) } else { x with en := decide (v.toNat / 4 % 2 = 1), cls := v.toNat % 4, ctx := v.toNat / 8 % 64 })) ∧
    (∃ t, exec (.qstatResume q) s = .next t ∧ t = { s with queues := t.queues } ∧ QueueIs s t q { x with stopped := false }) ∧
    ∃ t, exec (.queueTailWrite q v) s = .next t ∧ t = { s with queues := t.queues } ∧ QueueIs s t q { x with tail := v.toNat % 2 ^ 20 }) ∧
  (∀ (s : State) (q : Nat), q < 64 → s.mayStart (s.queue q) = true →
    let x := s.queue q
    let va := x.ring + 32 * x.head
    let stops := fun (t : State) (k : Nat) => OnlyQueues s t ∧ t.outbox = s.outbox ++ [⟨0, 3, 0, [], none⟩, ⟨1, 3, 0, [], none⟩] ∧ t.launches = s.launches ∧ t.events = s.events ∧
      QueueIs s t q { headPast x with stopped := true, reason := k, cidx := x.head }
    (∀ c d, s.readCp x.ctx va 32 = .refused c d → ∃ t, exec (.cmdNop q) s = .next t ∧ stops t 8) ∧
    ∀ r, RecordIs s q r →
      let e := r / 2 ^ 8 % 2 ^ 12
      let arg := r / 2 ^ 64 % 2 ^ 64
      (4 ≤ r % 2 ^ 8 → ∃ t, exec (.cmdNop q) s = .next t ∧ stops t 9) ∧
      (r % 2 ^ 8 ≠ 1 → ¬ WellFormedRecord s q r → (r % 2 ^ 8 = 3 → ∀ l ∈ s.launches, l.queue ≠ q) → ∀ i, (r % 2 ^ 8, i) ∈ [(0, Instr.cmdNop q), (2, .waitev q), (3, .signal q)] →
        ∃ t, exec i s = .next t ∧ stops t 9) ∧
      (r % 2 ^ 8 = 0 → WellFormedRecord s q r → ∃ t, exec (.cmdNop q) s = .next t ∧ QuietQueue s t q (headPast x) ∧ t.events = s.events) ∧
      (r % 2 ^ 8 = 2 → WellFormedRecord s q r → ∃ t, exec (.waitev q) s = .next t ∧ t.events = s.events ∧
        QuietQueue s t q (if arg ≤ tabGet 0 s.events e then headPast x else { headPast x with wait := some (e, arg) })) ∧
      (r % 2 ^ 8 = 3 → (∃ l ∈ s.launches, l.queue = q) → exec (.signal q) s = .next s) ∧
      (r % 2 ^ 8 = 3 → WellFormedRecord s q r → (∀ l ∈ s.launches, l.queue ≠ q) → ∃ t, exec (.signal q) s = .next t ∧
        QuietQueue s t q (headPast x) ∧ tabGet 0 t.events e = (tabGet 0 s.events e + arg) % 2 ^ 64 ∧ ∀ k, k ≠ e → tabGet 0 t.events k = tabGet 0 s.events k) ∧
      (r % 2 ^ 8 = 1 →
        (arg % 128 ≠ 0 → ∃ t, exec (.launch q) s = .next t ∧ stops t 1) ∧
        (∀ c d, arg % 128 = 0 → s.readSubmission x.ctx arg (r / 2 ^ 128 % 2 ^ 64) = .refused c d → ∃ t, exec (.launch q) s = .next t ∧ stops t 8) ∧
        ∀ sub, arg % 128 = 0 → s.readSubmission x.ctx arg (r / 2 ^ 128 % 2 ^ 64) = .ok sub →
          let why := s.reasons x.ctx (realtimeClass x.cls) (decide ¬ WellFormedRecord s q r) (r / 2 ^ 128 % 2 ^ 64) sub
          (∀ k ks, why = k :: ks → (∀ j ∈ ks, k < j) ∧ ∃ t, exec (.launch q) s = .next t ∧ stops t k) ∧
          (why = [] → sub.desc.mode = 0 →
            ∃ t, exec (.launch q) s = .next t ∧ OnlyQueues s t ∧ QueueIs s t q { headPast x with launch := some s.nextId } ∧ t.outbox = s.outbox ∧ t.events = s.events ∧
              t.nextId = s.nextId + 1 ∧ t.ltagNext = (s.ltagNext + 1) % 2 ^ 16 ∧
              t.launches = s.launches ++ [{ id := s.nextId, ctx := x.ctx, queue := q, cls := x.cls, ltag := s.ltagNext, desc := sub.desc, nodes := sub.nodes.getD []
                                            log := r / 2 ^ 128 % 2 ^ 64, next := 0, replay := sub.recs, reruns := [], nnodes := 0, relTime := 0 }]))) ∧
  (∀ (s : State) (q e arg : Nat), (s.queue q).wait = some (e, arg) → arg ≤ tabGet 0 s.events e →
    ∃ t, exec (.waitevSatisfied q) s = .next t ∧ t = { s with queues := t.queues } ∧ QueueIs s t q { s.queue q with wait := none })

/-- Groves come and go (R46, R49, R292, R294-R298, R332): the next grove of a launch takes a core and slot that accept it and starts clear, a grid of one likewise, a record becomes a node grove with its argument words in S0 to S3 and its data address in S4:S5, an old record is offered to its whole die, a retired grove leaves and the last of a launch signals its event, an empty core is wiped, and a check with equal digests ends. -/
def Obligations.GroveLife : Prop :=
  (∀ (s : State) (n core slot : Nat) (l : Launch), s.launchOf n = some l → l.desc.cogrid = false → s.launchReady l = true → s.firstInClass l.cls false = true → s.queueTurn l = true →
    core ∈ s.launchCores l.desc l.next → s.eligible l.ctx (realtimeClass l.cls) l.desc core slot = true → l.desc.verify = false → l.desc.pair = false →
    ∃ t g, exec (.groveDispatch n core slot false) s = .next t ∧ GroveStarts l s.nextId core slot g ∧ t.groves = s.groves ++ [g] ∧
      t.launches = s.launches.map (fun x => if x.id = l.id then { x with next := x.next + 1 } else x) ∧
      (realtimeClass l.cls = false → CoreIs s t core { s.core core with
        owner := some l.ctx, l1 := if (s.core core).l1Size = l.desc.l1 then (s.core core).l1 else [], l1Size := l.desc.l1 }) ∧ tabGet 63 t.turns l.cls = l.queue ∧ t.mem = s.mem ∧ t.conts = s.conts) ∧
  (∀ (s : State) (n core slot : Nat) (l : Launch), s.launchOf n = some l → l.desc.cogrid = true → l.next = 0 → l.desc.size = 1 →
    s.dispatching l.ctx = true → s.cogridWaits l = false → s.firstInClass l.cls false = true → s.queueTurn l = true → core ∈ s.launchCores l.desc 0 →
    s.eligible l.ctx (realtimeClass l.cls) l.desc core slot = true → l.desc.verify = false → l.desc.pair = false →
    ∃ t g, exec (.cogridDispatch n [(core, slot)]) s = .next t ∧ GroveStarts l s.nextId core slot g ∧ t.groves = s.groves ++ [g]) ∧
  (∀ (s : State) (n core slot : Nat) (r : ContRec) (l : Launch) (d : Desc), s.conts.find? (fun x => x.id == n) = some r → s.launchOf r.launch = some l → l.desc.mode = 0 →
    l.nodes[r.node]? = some d → s.dispatching l.ctx = true → s.contNext l r = true → core ∈ r.cores →
    s.eligible l.ctx (realtimeClass l.cls) d core slot = true → s.firstInClass l.cls true = true → d.verify = false → d.pair = false → r.args.length = 4 →
    (∀ i < 4, ∃ v, r.args[i]? = some (i, v)) →
    ∃ t g, exec (.nodeGroveDispatch n core slot) s = .next t ∧ t.groves = s.groves ++ [g] ∧ t.conts = s.conts.filter (fun x => decide (x.id ≠ n)) ∧
      g.node = true ∧ g.nodeTag = 2 ^ 39 + l.nnodes ∧ g.core = core ∧ g.slot = slot ∧ g.desc = d ∧ g.launch = l.id ∧
      (∀ i v, r.args[i]? = some (i, v) → tabGet 0 g.front.regs i = v) ∧ tabGet 0 g.front.regs 4 = BitVec.ofNat 32 r.daddr ∧
      tabGet 0 g.front.regs 5 = BitVec.ofNat 32 (r.daddr / 2 ^ 32)) ∧
  (∀ (s : State) (n : Nat), (∀ x ∈ s.conts, x.id = n → x.born + 4096 ≤ s.gt ∧ ∀ l, s.launchOf x.launch = some l → (s.ctx l.ctx).halted = false) →
    exec (.contqFallback n) s = .next { s with conts := s.conts.map fun x => if x.id = n then { x with wide := true } else x }) ∧
  (∀ (s : State) (core c : Nat), core < 256 → (∀ g ∈ s.groves, core ∉ g.cores) → (s.core core).owner = some c →
    ∃ t, exec (.coreHandover core) s = .next t ∧ t = { s with cores := t.cores, ctxs := t.ctxs } ∧
      CoreIs s t core { s.core core with owner := none, l1 := [], l1Size := 0, seeds := [], timers := [] } ∧
      CtxIs s t c { s.ctx c with drainSet := (s.ctx c).drainSet.filter fun e => decide (e.1 ≠ core) && s.holdsCore c e.1 }) ∧
  (∀ (s : State) (gid : Nat) (g : Grove) (l : Launch), s.grove? gid = some g → s.retirable g = true → s.launchOf g.launch = some l →
    ((∃ o ∈ s.groves, o.launch = g.launch ∧ o.id ≠ gid) → ∃ t, exec (.groveRetire gid) s = .next t ∧ t.groves = s.groves.filter (fun o => decide (o.id ≠ gid)) ∧ t.events = s.events) ∧
    ((∀ o ∈ s.groves, o.launch = g.launch → o.id = gid) → (∀ r ∈ s.conts, r.launch ≠ g.launch) → l.reruns = [] → l.desc.size ≤ l.next → l.desc.mode = 0 →
      g.relTime ≤ s.gt → l.relTime ≤ s.gt →
      ∃ t, exec (.groveRetire gid) s = .next t ∧ t.groves = s.groves.filter (fun o => decide (o.id ≠ gid)) ∧ (∀ x ∈ t.launches, x.id ≠ l.id) ∧
        (l.desc.evinc ≠ 0 → tabGet 0 t.events l.desc.event = (tabGet 0 s.events l.desc.event + l.desc.evinc) % 2 ^ 64) ∧
        ∀ e, e ≠ l.desc.event → tabGet 0 t.events e = tabGet 0 s.events e)) ∧
  ∀ (s : State) (n tag a : Nat) (l : Launch) (r : Rerun), s.launchOf n = some l → l.reruns.find? (fun x => x.tag == tag) = some r → r.orig = some a → r.again = some a → r.skipped = false →
    l.next < l.desc.size →
    exec (.verifyCompare n tag) s = .next { s with launches := s.launches.map fun x => if x.id = n then { x with reruns := x.reruns.filter fun y => decide (y.tag ≠ tag) } else x }

/-- What the host and the peers do (R261-R263, R340, R341): a snoop of a line the device holds waits at the hub and is answered once leases have expired and stores are visible, with the state of the line after it; an eviction gives a line up; a host read inside the HDM of a die answers with the bytes memory holds and is kept in the snoop filter, or returns poison where it is refused; a host write is accepted as a store or dropped; a back-invalidation ends; a peer's load and store through an export window are answered, the store's acknowledgement being due at its VT, and without one refused. That a clean line leaves with CleanEvict is the model's choice (log 54), and the message codes are its own. -/
def Obligations.HostAndPeers : Prop :=
  (∀ (s : State) (n : Nat),
    let st := tabGet 0 s.mesi n
    (st = 0 → exec (.snpData n) s = .next s ∧ exec (.snpInv n) s = .next s ∧ exec (.snpCur n) s = .next s) ∧
    (st ≠ 0 → exec (.snpData n) s = .next { s with snoops := s.snoops ++ [⟨n, 0⟩] } ∧ exec (.snpInv n) s = .next { s with snoops := s.snoops ++ [⟨n, 1⟩] } ∧
      exec (.snpCur n) s = .next { s with snoops := s.snoops ++ [⟨n, 2⟩] })) ∧
  (∀ (s : State) (n k : Nat), s.snoops.find? (fun x => x.line == n) = some ⟨n, k⟩ → StoresSeen s n → (k < 2 → LeasesOver s n) → s.anyPoison (n * 128) 128 = false → k < 3 →
    let m := decide (tabGet 0 s.mesi n = 3)
    ∃ t, exec (.snoopResponse n) s = .next t ∧ t.snoops = s.snoops.erase ⟨n, k⟩ ∧ t.mem = s.mem ∧
      t.outbox = s.outbox ++ [⟨7, n, 2 * k + (if m then 1 else 2), if m then s.bytesFor none (n * 128) 128 else [], none⟩] ∧
      tabGet 0 t.mesi n = (if k = 0 then 1 else if k = 1 then 0 else tabGet 0 s.mesi n) ∧ ∀ j, j ≠ n → tabGet 0 t.mesi j = tabGet 0 s.mesi j) ∧
  (∀ (s : State) (n : Nat), tabGet 0 s.mesi n ≠ 0 → (∀ x ∈ s.snoops, x.line ≠ n) → StoresSeen s n → LeasesOver s n → s.anyPoison (n * 128) 128 = false →
    let m := decide (tabGet 0 s.mesi n = 3)
    ∃ t, exec (.hubEviction n) s = .next t ∧ t = { s with mesi := t.mesi, outbox := t.outbox } ∧ tabGet 0 t.mesi n = 0 ∧
      t.outbox = s.outbox ++ [⟨7, n, if m then 7 else 8, if m then s.bytesFor none (n * 128) 128 else [], none⟩] ∧ ∀ j, j ≠ n → tabGet 0 t.mesi j = tabGet 0 s.mesi j) ∧
  (∀ (s : State) (die off keep c : Nat) (data : List Byte), s.hub.ready = true → off % 128 = 0 → data.length = 128 →
    (die ≥ 2 ∨ s.liveStacks die * 2 ^ 36 ≤ off → exec (.hostMemRead die off keep) s = .next s ∧ exec (.hostMemWrite die off data) s = .next s) ∧
    (die < 2 → off < s.liveStacks die * 2 ^ 36 →
      let refused := { s with hub := { s.hub with refused := s.hub.refused + 1 } }
      let refusedRead := { refused with outbox := s.outbox ++ [⟨7, (die * 2 ^ 54 + off) / 128, 25, [], none⟩] }
      ((tabGet 0 s.devb 8).toNat / 64 % 2 = 0 → exec (.hostMemRead die off keep) s = .next refusedRead ∧ exec (.hostMemWrite die off data) s = .next refused) ∧
      ((tabGet 0 s.devb 8).toNat / 64 % 2 = 1 → (tabGet 0 s.devb 8).toNat % 64 = c →
        ((∀ pk code, s.fate c true .load die off ≠ .ok pk code) → exec (.hostMemRead die off keep) s = .next refusedRead) ∧
        ((∀ pk code, s.fate c true .store die off ≠ .ok pk code) → exec (.hostMemWrite die off data) s = .next refused) ∧
        ∀ pk code, (s.line (lineKey die off)).lock = none → (s.line (lineKey die off)).owner = none → s.barred die (pk / 128) = false →
          (s.fate c true .load die off = .ok pk code → s.lineComing (lineKey die off) = false → s.anyPoison (pk / 128 * 128) 128 = false → keep < 3 →
            ∃ t, exec (.hostMemRead die off keep) s = .next t ∧ t.mem = s.mem ∧ t.pend = s.pend ∧
              t.outbox = s.outbox ++ [⟨7, pk / 128, 9, s.bytesFor none (pk / 128 * 128) 128, none⟩] ∧
              tabGet 0 t.snoopFilter (pk / 128) = if keep = 0 then tabGet 0 s.snoopFilter (pk / 128) else keep) ∧
          (s.fate c true .store die off = .ok pk code →
            ∃ t, exec (.hostMemWrite die off data) s = .next t ∧ t.mem = s.mem ∧ t.hub = s.hub ∧
              t.pend = s.pend ++ [{ id := s.nextId, line := lineKey die off, vt := max s.gt (max (s.line (lineKey die off)).h (s.line (lineKey die off)).p) + 1
                                    core := none, shared := false, bytes := (List.range 128).zipWith (fun i b => (pk + i, b)) data }])))) ∧
  (∀ (s : State) (n k : Nat), s.hostReqs.find? (fun e => e.1 == n && 3 ≤ e.2) = some (n, k) → s.unitWrites = [] → (∀ r ∈ s.reqs, r.atHost = some n → r.op.writes = false) →
    ∃ t, exec (.biRspI n none) s = .next t ∧ t = { s with hostReqs := s.hostReqs.erase (n, k), snoopFilter := t.snoopFilter, pginvs := t.pginvs, reqs := t.reqs } ∧
      tabGet 0 t.snoopFilter n = 0 ∧ (∀ j, j ≠ n → tabGet 0 t.snoopFilter j = tabGet 0 s.snoopFilter j) ∧
      t.pginvs = s.pginvs.map (fun p => { p with copies := p.copies.filter fun l => decide (l ≠ n) }) ∧
      t.reqs = s.reqs.map fun r => if r.atHost = some n then { r with atOwner := false, atHost := none } else r) ∧
  ∀ (s : State) (dev c off : Nat) (op : PeerOp),
    (s.hub.ready = false → exec (.peerAccessArrival dev c off op) s = .next s) ∧
    (s.hub.ready = true → s.ctxEnabled c = false ∨ (s.csrRaw c 2).toNat / 16 % 2 = 0 ∨ (∀ k < 64, (s.csrRaw c (0x100 + k)).toNat % 2 ^ 17 ≠ 2 ^ 16 + dev) ∨
        (s.csrRaw c 0x1A).toNat % 2 ^ 24 * 65536 ≤ off →
      exec (.peerAccessArrival dev c off op) s = .next { s with outbox := s.outbox ++ [⟨10, dev, 1, [], none⟩] }) ∧
    ∀ k home pk code, s.hub.ready = true → c < 64 → s.ctxEnabled c = true → (s.csrRaw c 2).toNat / 16 % 2 = 1 → k < 64 → (s.csrRaw c (0x100 + k)).toNat = 2 ^ 16 + dev → dev < 2 ^ 16 →
      off < (s.csrRaw c 0x1A).toNat % 2 ^ 24 * 65536 →
      let va := (s.csrRaw c 0x18).toNat + 2 ^ 32 * (s.csrRaw c 0x19).toNat + off
      let lk := lineKey home (va % 2 ^ 54)
      s.homeOf c va = .phys home → home < 2 → (s.line lk).lock = none → (s.line lk).owner = none → s.barred home (pk / 128) = false →
      (∀ n, op = .load n → s.fate c true .load home (va % 2 ^ 54) = .ok pk code → va % 128 + n ≤ 128 → s.lineComing lk = false →
        s.hostNeed home (pk / 128) false = none → s.anyPoison pk n = false →
        ∃ t, exec (.peerAccessArrival dev c off op) s = .next t ∧ t.mem = s.mem ∧ t.pend = s.pend ∧ t.groves = s.groves ∧
          t.outbox = s.outbox ++ [⟨10, dev, 0, s.bytesFor none pk n, none⟩]) ∧
      (∀ bs, op = .store bs → s.fate c true .store home (va % 2 ^ 54) = .ok pk code → va % 128 + bs.length ≤ 128 → s.hostNeed home (pk / 128) true = none →
        let vt := max s.gt (max (s.line lk).h (s.line lk).p) + 1
        ∃ t, exec (.peerAccessArrival dev c off op) s = .next t ∧ t.mem = s.mem ∧ t.groves = s.groves ∧
          t.pend = s.pend ++ [{ id := s.nextId, line := lk, vt := vt, core := none, shared := false, bytes := (List.range bs.length).zipWith (fun i b => (pk + i, b)) bs }] ∧
          t.outbox = s.outbox ++ [⟨10, dev, 0, [], none⟩] ∧ t.acksDue = s.acksDue ++ [(dev, vt)])

/-- Contexts (R306-R310, R329, R331, R344, R357, R358): halt in place from request to resumption, draining switches and their watchdog, slices and grants of clusters, enabling and ending through the window, and the release or kill of a parked thread. -/
def Obligations.ContextEvents : Prop :=
  (∀ (s : State) (v : Nat), s.ctxEnabled v = true → (s.ctx v).haltReq = false → (s.ctx v).halted = false → (∀ d < 2, s.partMask v d ≠ 0 → tabGet 0 s.hub.relockEnd d = 0) →
    s.rtBound v ((s.heldCores v).filter fun c => (s.grovesOn c).any fun g => g.ctx == v && !g.realtime) = true →
    ∃ t, exec (.haltInPlaceRequest v) s = .next t ∧ t = { s with ctxs := t.ctxs } ∧ CtxIs s t v { s.ctx v with haltReq := true, reported := [] }) ∧
  (∀ (s : State) (v core : Nat), (s.ctx v).haltReq = true → core ∉ (s.ctx v).reported → core ∈ s.heldCores v → s.haltWork v core = false →
    ∃ t, exec (.haltReport v core) s = .next t ∧ t.mem = s.mem ∧ t.groves.length = s.groves.length ∧
      (t.ctx v).reported = core :: (s.ctx v).reported ∧
      ((t.ctx v).halted = true ↔ (s.ctx v).halted = true ∨ ∀ c ∈ s.heldCores v, c = core ∨ c ∈ (s.ctx v).reported) ∧
      ∀ g ∈ s.groves, g.ctx = v → g.realtime = false → core ∈ g.cores → ∃ g' ∈ t.groves, g' = { g with msq := g.msq.map fun m => { m with held := true } }) ∧
  (∀ (s : State) (v : Nat), (s.ctx v).halted = true → (∀ c ∈ s.heldCores v, ∀ g ∈ s.groves, c ∈ g.cores → g.realtime = true → g.ctx = v) → s.rtBound v (s.heldCores v) = false →
    ∃ t, exec (.contextResume v) s = .next t ∧ t.mem = s.mem ∧
      CtxIs s t v { s.ctx v with
        halted := false, reported := [], drainSet := (s.ctx v).drainSet.map fun e => (e.1, e.2 + (s.gt - max (s.ctx v).haltAt e.2)) } ∧
      (∀ r ∈ s.conts, ∀ l, s.launchOf r.launch = some l → (if l.ctx = v then { r with born := r.born + (s.gt - max (s.ctx v).haltAt r.born) } else r) ∈ t.conts) ∧
      ∀ g ∈ s.groves, g.ctx = v → g.realtime = false → ∃ g' ∈ t.groves, g'.id = g.id ∧ g'.msq = g.msq.map fun m => { m with held := false }) ∧
  (∀ (s : State) (v : Nat) (cores : List Nat), s.ctxEnabled v = true → (s.ctx v).halted = false → (∀ g ∈ s.groves, g.ctx = v → g.desc.cogrid = true → g.node = true) →
    ∃ t, exec (.contextSwitch ⟨v, cores⟩) s = .next t ∧ t = { s with ctxs := t.ctxs } ∧ CtxIs s t v { s.ctx v with drainSet := (t.ctx v).drainSet } ∧
      ∀ k t0, (k, t0) ∈ (t.ctx v).drainSet ↔ (k, t0) ∈ (s.ctx v).drainSet ∨
        (t0 = s.gt ∧ k < 256 ∧ k ∈ cores ∧ s.holdsCore v k = true ∧ ∀ t1, (k, t1) ∉ (s.ctx v).drainSet)) ∧
  (∀ (s : State) (v k t0 : Nat) (g : Grove), s.ctxEnabled v = true → (s.ctx v).halted = false → (k, t0) ∈ (s.ctx v).drainSet →
    t0 + 1000 * ((s.csrRaw v 8).toNat % 2 ^ 28) ≤ s.gt → g ∈ s.groves → g.ctx = v → k ∈ g.cores →
    ∃ t, exec (.drainWatchdog v) s = .next t ∧ ContextEnded t v) ∧
  (∀ (s : State) (c v x : Nat), (s.cluster c).grant = some v → (s.cluster c).drainAt = none → (s.csrRaw v 5).toNat % 2 ^ 24 ≠ 0 →
    (s.cluster c).since + 1000 * ((s.csrRaw v 5).toNat % 2 ^ 24) ≤ s.gt → x ∈ s.namers c → x ≠ v → s.hasWork x c = true → s.hasCogrid v = false → (s.ctx v).halted = false →
    ∃ t, exec (.temporalSliceExpiry c) s = .next t ∧ t = { s with clusters := t.clusters } ∧ ClusterIs s t c { s.cluster c with drainAt := some s.gt }) ∧
  (∀ (s : State) (c v : Nat), c < 64 → (s.cluster c).grant = none → (s.cluster c).drainAt = none → v ∈ s.namers c → s.hasWork v c = true →
    (∀ x ∈ s.namers c, s.hasWork x c = true → (v + 63 - (s.cluster c).lastCtx) % 64 ≤ (x + 63 - (s.cluster c).lastCtx) % 64) →
    ∃ t, exec (.clusterGrant c v) s = .next t ∧ t = { s with clusters := t.clusters } ∧
      ClusterIs s t c { s.cluster c with grant := some v, since := s.gt, lastCtx := v, drainAt := none }) ∧
  (∀ (s : State) (c : Nat) (v : Word), s.hub.ready = true → c < 64 →
    (v.toNat % 2 = 1 → s.ctxEnabled c = false → ∃ t, exec (.ctxcfgEnable c v) s = .next t ∧ (t.csrRaw c 0).toNat = v.toNat % 8 ∧ t.groves = s.groves ∧
      (∀ k < 4096, tabGet Barrier.init t.dbars (4096 * c + k) = Barrier.init) ∧ (t.ctx c).logs = [] ∧ (t.ctx c).halted = false ∧
      ∀ n, n ≠ 4096 * c → tabGet 0 t.csr n = tabGet 0 s.csr n) ∧
    (v.toNat % 2 = 0 → s.ctxEnabled c = true → ∃ t, exec (.ctxcfgEnd c v) s = .next t ∧ ContextEnded t c)) ∧
  ∀ (s : State) (die idx : Nat) (d : Deadfall) (g : Grove) (u : Thread), s.hub.ready = true → s.deadfall? die idx = some d →
    s.grove? d.gid = some g → g.thread? (if d.front then none else some d.tid) = some u → d.front = false → (g.lanes.map Thread.tid).Nodup →
    (∃ t, exec (.dfactRelease die idx) s = .next t ∧ t.deadfall? die idx = none ∧
      t = { s with deadfalls := t.deadfalls, groves := t.groves } ∧ t.grove? d.gid = some (withThread g d.tid { u with life := .run, wait := .none })) ∧
    (u.th = false → u.front = false → ∀ entry, s.handler g.ctx false = some entry → natBit s.hub.snapMask 7 = false → u.seg = none →
      ∃ t u', exec (.dfactKill die idx) s = .next t ∧ t.grove? d.gid = some (withThread g d.tid u') ∧ u'.tcause = BitVec.ofNat 32 (7 + 2 ^ 16 * 2) ∧
        u'.tval = BitVec.ofNat 64 d.va ∧ u'.tpc = d.pc ∧ u'.ctl.pc = entry ∧ u'.th = true ∧ u'.life = .run)

/-- The hub (R15, R22, R23, R236, R345-R349, R361-R366, R380-R385, R388): resets and bring-up, frequency and power, the carve, snapshots, the mailbox, window writes, the understory's counts and device failures. -/
def Obligations.HubEvents : Prop :=
  (∀ (s : State) (b : BootIn) (secret : List Byte), BootPasses b secret →
    let ext := fun (item : List Byte) => shakeNat 64 (List.replicate 64 0 ++ leBytes 64 (shakeNat 64 item))
    ∃ t u v, exec (.powerOn b) s = .next t ∧ exec (.deviceReset b) s = .next u ∧ exec (.cxlHotReset b) s = .next v ∧ u = v ∧
      t.gt = b.domain.getD 0 ∧ u.gt = b.domain.getD s.gt ∧ t.hub.ready = true ∧ u.hub.ready = true ∧ t.groves = [] ∧ u.groves = [] ∧ u.launches = [] ∧
      (∀ c, u.ctxEnabled c = false) ∧ (∀ q, u.queue q = Queue.init) ∧ u.tlb = [] ∧ u.pend = [] ∧ (∀ c, (u.core c).l1 = []) ∧
      u.hub.secret = secret ∧ u.hub.idSeed = (shake ([0x50, 0x59, 0x52, 0x2D, 0x49, 0x44] ++ secret)).take 96 ∧ u.hub.portsDown = (b.record.ports ++ b.portsDown).dedup ∧
      tabGet 0 u.hub.mch 4 = ext b.fuses.bytes ∧
      ∀ i, (∀ k c, (k, c) ∈ [(0, 0), (1, 1), (2, 2), (3, 5)] → b.images[k]? = some i → tabGet 0 u.hub.mch c = ext i.image)) ∧
  (∀ (s : State) (b : BootIn) (stage : Nat), BootStops b stage → ∃ t, exec (.powerOn b) s = .next t ∧
    t.hub.ready = false ∧ t.hub.recovery = true ∧ t.hub.stage = stage ∧ t.cores = [] ∧ t.hub.stackMasks = [] ∧ t.hub.record = []) ∧
  (∀ (s : State) (die : Nat) (v : Word), s.hub.ready = true → die < 2 →
    (v.toNat % 64 ≤ 52 → ∃ t, exec (.freqreqWrite die v) s = .next t ∧ t = { s with hub := { s.hub with freqReq := t.hub.freqReq } } ∧ tabGet 48 t.hub.freqReq die = v.toNat % 64) ∧
    (52 < v.toNat % 64 → exec (.freqreqWrite die v) s = .next s)) ∧
  (∀ (s : State) (die : Nat), die < 2 → tabGet 0 s.hub.relockEnd die = 0 → (∀ c < 64, (s.ctx c).haltReq = false) →
    let goal := min (tabGet 48 s.hub.freqReq die) (tabGet 52 s.hub.allowed die)
    (goal ≠ tabGet 48 s.hub.freqCur die → ∃ t, exec (.frequencyStep die) s = .next t ∧
      t = { s with hub := { s.hub with freqNext := t.hub.freqNext, relockEnd := t.hub.relockEnd } } ∧ tabGet 48 t.hub.freqNext die = goal ∧ tabGet 0 t.hub.relockEnd die = s.gt + 600) ∧
    (goal = tabGet 48 s.hub.freqCur die → exec (.frequencyStep die) s = .next s)) ∧
  (∀ (s : State) (die : Nat), die < 2 → tabGet 0 s.hub.relockEnd die ≠ 0 → tabGet 0 s.hub.relockEnd die ≤ s.gt → (∀ c < 64, (s.ctx c).haltReq = false) →
    ∃ t, exec (.relockEnd die) s = .next t ∧ tabGet 48 t.hub.freqCur die = tabGet 48 s.hub.freqNext die ∧
      tabGet 0 t.hub.relockEnd die = (if min (tabGet 48 s.hub.freqReq die) (tabGet 52 s.hub.allowed die) = tabGet 48 s.hub.freqNext die then 0 else s.gt + 600) ∧
      tabGet 0 t.hub.stepCnt die = (tabGet 0 s.hub.stepCnt die + 1) % 2 ^ 32 ∧
      tabGet 0 t.hub.steps (16 * die + tabGet 0 s.hub.stepCnt die % 16) % 2 ^ 64 = s.gt % 2 ^ 64) ∧
  (∀ (s : State) (die code : Nat), die < 2 → code ≤ 52 →
    (code < tabGet 52 s.hub.allowed die ∧ s.hub.pwrLim < s.pwrNow) ∨ (tabGet 52 s.hub.allowed die < code ∧ s.pwrNow < s.hub.pwrLim) →
    ∃ t, exec (.powerLimitAction die code) s = .next t ∧ t = { s with hub := { s.hub with allowed := t.hub.allowed } } ∧ tabGet 52 t.hub.allowed die = code) ∧
  (∀ (s : State) (die : Nat) (v : Word), s.hub.ready = true → die < 2 → s.liveDie die = true → 1 ≤ v.toNat % 64 → v.toNat % 64 ≤ 32 → (∀ c < 64, s.ctxEnabled c = true → s.partMask c die = 0) →
    ∃ t, exec (.carveWrite die v) s = .next t ∧ tabGet 1 t.hub.carve die = v.toNat % 64 ∧ t.groves = s.groves ∧
      ∀ a, readByte t.mem a = if die * 2 ^ 52 + 2 ^ 40 + (s.carveOf die - 1) * 2 ^ 25 ≤ a ∧ a < die * 2 ^ 52 + 2 ^ 40 + (v.toNat % 64 - 1) * 2 ^ 25 then 0 else readByte s.mem a) ∧
  (∀ (s : State) (die : Nat) (v : Word), s.liveDie die = false → exec (.carveWrite die v) s = .next s) ∧
  (∀ (s : State), s.hub.ready = true →
    exec .snapstatFree s = .next { s with hub := { s.hub with snapStat := s.hub.snapStat / 2 * 2 } } ∧
    (s.hub.mbStatus ≠ 1 → exec .mailboxAttest s = .next { s with hub := { s.hub with mbStatus := 1, mbReq := (List.range 32).map fun i => tabGet 0 s.hub.mbBuf i } }) ∧
    (s.hub.mbStatus = 1 → ∃ t, exec .attestAnswerReady s = .next t ∧ t.hub.mbStatus = 2 ∧ t.outbox = s.outbox ++ [⟨0, 5, 0, [], none⟩, ⟨1, 5, 0, [], none⟩] ∧ t.hub.mch = s.hub.mch) ∧
    (∀ k, s.hub.mbStatus ≠ 1 → (k = 6 ∨ k = 7) →
      let n := ((List.range 4).map fun i => (tabGet 0 s.hub.mbBuf i).toNat * 2 ^ (8 * i)).sum
      (n ≤ 131068 → ∃ t, exec (.mailboxExtend k) s = .next t ∧ t.hub.mbStatus = 2 ∧ ∀ j, j ≠ k → tabGet 0 t.hub.mch j = tabGet 0 s.hub.mch j) ∧
      (131068 < n → exec (.mailboxExtend k) s = .next { s with hub := { s.hub with mbStatus := 3 } })) ∧
    (∀ (v : Word), exec (.registerWrite (.reg 0xA2000) v) s = .next { s with hub := { s.hub with snapCfg := v.toNat % 4 } } ∧
      exec (.registerWrite (.reg 0xA2004) v) s = .next { s with hub := { s.hub with snapMask := v.toNat } } ∧
      exec (.registerWrite (.reg 0xA8020) v) s = .next (if 2000 ≤ v.toNat % 4096 ∧ v.toNat % 4096 ≤ 3600 then { s with hub := { s.hub with pwrLim := v.toNat % 4096 } } else s))) ∧
  (∀ (s : State), natBit s.hub.snapCfg 1 = false → exec .snapshotExternal s = .next s) ∧
  (∀ (s : State), natBit s.hub.snapCfg 0 = true → natBit s.hub.snapCfg 1 = true → natBit s.hub.snapStat 0 = false →
    exec .snapshotExternal s = .next { s with hub := { s.hub with snapStat := 5, snapGt := s.gt, snapId := s.hub.snapId + 1 }, outbox := s.outbox ++ [⟨0, 4, 0, [], none⟩, ⟨1, 4, 0, [], none⟩] }) ∧
  (∀ (s : State) (n : Nat), ∃ t, exec (.scrubPass n) s = .next t ∧ Counted s t 0 ∧ t = { s with hub := { s.hub with telemetry := t.hub.telemetry } }) ∧
  (∀ (s : State) (c l : Nat), l < 32 →
    let p := if (s.core c).laneMap = [] then l else (s.core c).laneMap.getD l l
    (l ∉ (s.core c).mismatch → ∃ t, exec (.spareLaneTestDone c (.mismatch l)) s = .next t ∧ t = { s with cores := t.cores } ∧
      CoreIs s t c { s.core c with mismatch := l :: (s.core c).mismatch }) ∧
    (l ∈ (s.core c).mismatch → ∃ t, exec (.spareLaneTestDone c (.mismatch l)) s = .next t ∧ l ∈ (t.core c).faulty ∧ (c, p) ∈ t.hub.badLanes ∧ t.usable c = false)) ∧
  (∀ (s : State) (c p : Nat), p < 34 → (∀ l < 32, (if (s.core c).laneMap = [] then l else (s.core c).laneMap.getD l l) ≠ p) →
    ∃ t, exec (.spareLaneTestDone c (.spareBad p)) s = .next t ∧ t = { s with hub := { s.hub with badLanes := t.hub.badLanes } } ∧ (c, p) ∈ t.hub.badLanes) ∧
  (∀ (s : State) (c n : Nat), ∃ t u, exec (.supplySag c n) s = .next t ∧ exec (.sagLevelLower c) s = .next u ∧ Counted s t 2 ∧
    ClusterIs s t c { s.cluster c with sag := max (s.cluster c).sag (min n 2) } ∧ ClusterIs s u c { s.cluster c with sag := (s.cluster c).sag - 1 }) ∧
  (∀ (s : State) (k : Nat), s.hub.granules.length < 16 → ∃ t, exec (.uncorrectableError (.granule k)) s = .next t ∧ Counted s t 1 ∧ tabGet false t.poison (k / 32) = true ∧ t.mem = s.mem ∧
    ∀ j, j ≠ k / 32 → tabGet false t.poison j = tabGet false s.poison j) ∧
  (∀ (s : State) (die stack link : Nat), die < 2 → ∃ t u v, exec (.hbmStackFailure die stack) s = .next t ∧ exec (.dieUnresponsive die) s = .next u ∧ exec (.linkFailure link) s = .next v ∧
    t.liveDie die = false ∧ u.liveDie die = false ∧ 8 * die + stack ∈ t.hub.fenceReq ∧ (link = die ∨ link = 2 → v.liveDie die = false) ∧
    ∀ c < 64, s.ctxEnabled c = true → s.partMask c die ≠ 0 → ContextEnded t c ∧ ContextEnded u c) ∧
  ∀ (s : State) (p : Nat), ∃ t, exec (.expanderFailure p) s = .next t ∧ t = { s with hub := { s.hub with expFailed := t.hub.expFailed } } ∧ tabGet false t.hub.expFailed p = true

/-- Words written out in the spec's examples decode to the instructions they stand for there, and those it lists as refused are refused with their DETAIL (R81, R84, R89-R95, R105, R106). -/
def Obligations.DecodeWords : Prop :=
  (decode 0x04C20200 0 = .ok (.ldg ⟨false, 0⟩ 4 (.v 2) .plain .relaxed .normal) ∧
    decode 0x0000A103 0 = .ok (.iadd ⟨false, 0⟩ 5 (.v 4) 3) ∧
    decode 0x00009FC0 0x00000007 = .ok (.iadd ⟨false, 0⟩ 4 (.lit 7) 0) ∧
    decode 0x025960C0 0 = .ok (.fcmp ⟨false, 0⟩ 1 .le (.v 3) 0) ∧
    decode 0x4E300000 0 = .ok (.exit ⟨true, 1⟩) ∧
    decode 0x066A0503 0 = .ok (.trace ⟨false, 0⟩ 16 10 1 true) ∧
    decode 0x0DCC12A3 0 = .ok (.atgx ⟨false, 1⟩ 24 (.v 18) .device .relaxed .xadd) ∧
    decode 0x46792248 0 = .ok (.getsr ⟨true, 0⟩ 9 4 (some 8)) ∧
    decode 0x07440000 0 = .ok (.eretLane ⟨false, 0⟩)) ∧
  (decode 0x80C92320 0 = .ok (.scmp ⟨false, 0⟩ 1 .eq (.sp 3) (.sp 0)) ∧
    decode 0x8000817D 0 = .ok (.sadd ⟨false, 0⟩ 2 (.s 1) (.imm 61)) ∧
    decode 0x827652C0 0 = .ok (.sstg ⟨false, 0⟩ 22 (.s 20) .device .release 0) ∧
    decode 0x9E0FFFFD 0 = .ok (.sbra ⟨false, 3⟩ 0x7FFFD) ∧
    decode 0x8C380001 0x00004000 = .ok (.mmaMx4 ⟨false, 1⟩ ⟨0, 0, 0, false, .dense, 1⟩ ⟨0, 0, 0, true⟩) ∧
    decode 0x84A01200 0 = .ok (.mdrain ⟨false, 0⟩ 0 1 .fp16 .rne false) ∧
    decode 0x850A1600 0 = .ok (.tcopym ⟨false, 0⟩ 8 11 .issuing) ∧
    decode 0x8688CE00 0 = .ok (.csrr ⟨false, 0⟩ 3 7) ∧
    decode 0x85829700 0 = .ok (.barnew ⟨false, 0⟩ 10 11 true)) ∧
  (∀ l, decode 0x07780000 l = .error 2) ∧ (∀ l, decode 0x00003E00 l = .error 4) ∧ (∀ l, decode 0x04C20206 l = .error 3) ∧
  (∀ l, decode 0x04C202B0 l = .error 3) ∧ (∀ l, decode 0x80003FFF l = .error 6)

/-- Decode gives back every well-formed word from its encoding, with every operand and the literal; a word's set and whether it takes a literal are read right from the word alone; and no two well-formed words have one encoding (R81, R82, R89-R96). -/
def Obligations.EncodeDecode : Prop :=
  (∀ i : Instr, i.isWord = true → i.wf = true →
    ∃ w, (encode i).head? = some w ∧ takesLiteral w = i.literal.isSome ∧ (encode i).length = i.length ∧
      (∀ l, decode w ((encode i).tail.headD l) = .ok i)) ∧
  ∀ i j : Instr, i.isWord = true → i.wf = true → j.isWord = true → j.wf = true → encode i = encode j → i = j

/-- Every word that decode accepts is the encoding of the instruction it gives, which is well-formed: no bit of an accepted word, or of its literal, is ignored (R82, R84, R92). -/
def Obligations.DecodeEncode : Prop :=
  ∀ (w l : Word) (i : Instr), decode w l = .ok i → i.isWord = true ∧ i.wf = true ∧ encode i = if takesLiteral w = true then [w, l] else [w]

/-- A step at a ready thread's turn runs the instruction that the words at its PC decode to, in the stand its PC group forms or in the front thread, with the words held beside it; nothing else has changed but the turn taken, the stand's age and wait age, the front thread's turn, what the core notes of its issues, and the translations kept; a step whose words a peer, the host or an earlier store still keeps waiting leaves only what it has asked for; afterwards nothing is being issued (R31, R35, R82, R299, R300). -/
def Obligations.StepRunsDecoded : Prop :=
  (∀ (s r : State) (gid tid : Nat) (g : Grove) (t : Thread) (w l : Word) (i : Instr), LaneTurn s r gid tid g t →
    Fetches s false g.ctx t.core g.desc.image t.now.pc w l i →
    let n := (r.formStand g t).2
    ∃ q g', step s = finish (exec i { q with cur := .lane gid n w l }) ∧ OnlyTurn s q ∧ (∀ j, j ≠ gid → q.grove? j = s.grove? j) ∧
      (r.formStand g t).1.grove? gid = some g' ∧
      let cyc := tabGet 0 s.hub.cyc (t.core / 128)
      q.grove? gid = some { g' with lanes := g'.lanes.map fun u => if u.stand = n then { u with age := q.nextId, since := cyc, issuedAt := cyc + 1 } else u }) ∧
  (∀ (s r : State) (gid : Nat) (g : Grove) (w l : Word) (i : Instr), FrontTurn s r gid g →
    Fetches s true g.ctx g.core g.desc.image g.front.now.pc w l i →
    ∃ q, step s = finish (exec i { q with cur := .front gid w l }) ∧ OnlyTurn s q ∧ (∀ j, j ≠ gid → q.grove? j = s.grove? j) ∧
      q.grove? gid = some { g with front := { g.front with age := q.nextId, yielded := false } }) ∧
  (∀ (s r : State) (gid tid : Nat) (g : Grove) (t : Thread) (x : State), LaneTurn s r gid tid g t → r.fetch g.ctx t.core g.desc.image t.now.pc = .wait x → step s = .next x) ∧
  (∀ (s r : State) (gid : Nat) (g : Grove) (x : State), FrontTurn s r gid g → r.fetch g.ctx g.core g.desc.image g.front.now.pc = .wait x → step s = .next x) ∧
  (∀ (o : State), finish (.next o) = .next { o with cur := .none })

/-- A PC group forms a stand (R31): the threads taken get the stand's number and nothing else changes; a stand with an open segment issues again, and while a wait holds some of its threads the others issue with a number of their own and stay its members. -/
def Obligations.StandForming : Prop :=
  ∀ (s : State) (gid : Nat) (g : Grove) (t : Thread), s.grove? gid = some g → t ∈ g.lanes → t.ready = true → (g.lanes.map Thread.tid).Pairwise (· < ·) →
    let f := s.formStand g t
    let given := fun (first : Bool) (m : List Thread) =>
      f.2 = s.nextId ∧ OnlyTurn s f.1 ∧ (∀ j, j ≠ gid → f.1.grove? j = s.grove? j) ∧
        f.1.grove? gid = some { g with lanes := g.lanes.map fun u => if u ∈ m then { u with team := if first then s.nextId else u.team, stand := s.nextId } else u }
    (t.stand = 0 → ∃ m, StandOfPc g t m ∧ given true m) ∧
    (t.stand ≠ 0 → (∀ u ∈ g.lanes, u.issuing t.stand = true → u.waiting = false) → f = (s, t.stand)) ∧
    (t.stand ≠ 0 → (∃ u ∈ g.lanes, u.issuing t.stand = true ∧ u.waiting = true) →
      ∃ m : List Thread, (∀ u, u ∈ m ↔ u ∈ g.lanes ∧ u.issuing t.stand = true ∧ u.waiting = false) ∧ given false m)

/-- Time passes, and all stores whose visibility time has come are visible; the wait age of a thread that could not issue starts again, and the acknowledgements of peers' stores leave at their time; a turn no thread can take, or that is not the core's next, has no effect but that it is over; an event of the device happens (R19, R20, R245). -/
def Obligations.StepTurns : Prop :=
  (∀ (s r : State) (n : Nat), s.nextTurn = (.tick n, r) →
    ∃ t, step s = .next t ∧ t.gt = s.gt + n ∧
      (s.unitWrites = [] → t.pend = (s.pend.filter fun x => decide (s.gt + n < x.vt)) ∧ t.lines = s.lines ∧
        t.acksDue = s.acksDue.filter (fun e => decide (s.gt + n < e.2)) ∧
        t.outbox = s.outbox ++ (s.acksDue.filter fun e => decide (e.2 ≤ s.gt + n)).map fun e => ⟨11, e.1, e.2, [], none⟩) ∧
      ((∀ x ∈ s.pend, (x.bytes.map Prod.fst).Nodup) →
        ∀ k, readByte t.mem k = overlayByte k (s.pend.filter fun x => decide (x.vt ≤ s.gt + n)) (readByte s.mem k)) ∧
      t.groves = s.groves.map (fun g => { g with lanes := g.lanes.map (waitsFrom s t g) }) ∧
      t.reqs = s.reqs ∧ t.csr = s.csr ∧ t.queues = s.queues ∧
      ∀ d, tabGet 0 t.hub.cyc d = if d < 2 ∧ s.clocked d = true then
        (tabGet 0 s.hub.cyc d + (tabGet 0 s.hub.cycPhase d + n * (800 + 25 * tabGet 48 s.hub.freqCur d)) / 1000) % 2 ^ 64 else tabGet 0 s.hub.cyc d) ∧
  (∀ (s r : State) (gid tid : Nat), s.nextTurn = (.lane gid tid, r) →
    (∀ g t, s.grove? gid = some g → s.thread? gid (some tid) = some t → ¬ (t.ready = true ∧ s.mayRun g t.core = true ∧ r.laneTurn g t = true)) → step s = .next r) ∧
  (∀ (s r : State) (gid : Nat) (g : Grove), s.nextTurn = (.front gid, r) → s.grove? gid = some g →
    ¬ (g.front.ready = true ∧ s.mayRun g g.core = true ∧ (g.front.th = true ∨ g.pending = []) ∧ r.frontTurn g = true) → step s = .next r) ∧
  (∀ (s r : State) (e : Instr), s.nextTurn = (.event e, r) → e.isWord = false → step s = finish (exec e { r with cur := .none })) ∧
  ∀ (s : State) (x : Turn) (rest : List Turn), s.sched = x :: rest → s.nextTurn = (x, { s with sched := rest })

/-- Every step of every state answers a next state: whatever is scheduled, the machine neither faults nor is refused. -/
def Obligations.StepAnswers : Prop :=
  ∀ s : State, StepsOn s

/-- Every step keeps the canonical form of memory: addresses strictly rising, and no byte listed that an unlisted address reads as. -/
def Obligations.MemoryKept : Prop :=
  ∀ s t : State, Memory.wf s.mem = true → step s = .next t → Memory.wf t.mem = true

/-- After power-on reset GT is 0, no context is enabled, every register of the context, device and management blocks reads as the tables of the spec give it, and memory is in canonical form (R328, R329, R343, R366, R380, R381, R382, R384, R385). -/
def Obligations.ResetState : Prop :=
  let s := State.reset
  (s.gt = 0 ∧ Memory.wf s.mem = true ∧ s.hub.ready = false ∧ s.hub.recovery = false ∧ s.hub.stage = 0) ∧
  (∀ c < 64, s.ctxEnabled c = false ∧ ∀ n, ListedCsr n → n ≠ 2 →
    s.csrRaw c n = if n = 1 then 512 else if n = 7 then 250000 else if n = 8 then 100000 else 0) ∧
  (∀ n ≤ 9, s.devReg n = 0) ∧
  (s.hub.snapCfg = 0 ∧ s.hub.snapMask = 0 ∧ s.hub.snapStat = 0 ∧ s.hub.snapGt = 0) ∧ s.hub.pwrLim = 3200 ∧
  (∀ d < 2, tabGet 48 s.hub.freqReq d = 48 ∧ tabGet 48 s.hub.freqCur d = 48 ∧ s.clocked d = true ∧ s.carveOf d = 1) ∧
  s.hub.mch = [] ∧ s.groves = [] ∧ s.launches = []

/-- Fetch and decode faults trap every thread of the stand, and the front thread, at the word's PC, with the causes, DETAIL and TVAL of R82 and R84; the rest of the device is as it was. Checks 1 to 7 are those of a step's fetch; checks 8 to 11 go by the registers, units and results a word names, and trap for the words listed, of every family that names a group, a unit or results of variable latency (R60, R65, R67, R82, R84, R87, R350, R352). -/
def Obligations.DecodeTraps : Prop :=
  (∀ (s r : State) (gid : Nat) (g : Grove) (cause detail : Nat) (dec : Bool) (tval : DWord) (entry : Word), natBit s.hub.snapMask cause = false →
    (∀ (tid n : Nat) (g' : Grove) (t : Thread), LaneTurn s r gid tid g t → FetchTraps s false g.ctx t.core g.desc.image t.now.pc cause detail dec tval →
      s.handler g.ctx false = some entry → (g.lanes.map Thread.tid).Nodup → (r.formStand g t).2 = n → (r.formStand g t).1.grove? gid = some g' →
      (∀ u ∈ g'.lanes, u.stand = n → u.issuing n = true ∧ TrapsHere u ∧ placeOf u = placeOf t ∧ u.now.pc = t.now.pc) →
      (∀ u ∈ g'.lanes, ∀ v ∈ g'.lanes, u.stand = n → (v.team = u.team ↔ v.stand = n)) →
      ∃ q g'', step s = .next q ∧ OnlyTurn s q ∧ (∀ j, j ≠ gid → q.grove? j = s.grove? j) ∧ q.grove? gid = some g'' ∧ OnlyLanes g g'' ∧
        g''.lanes.map Thread.tid = g.lanes.map Thread.tid ∧
        ∀ u ∈ g'.lanes, ∃ u' ∈ g''.lanes, u'.tid = u.tid ∧
          if u.stand = n then Entered g.desc.vregs entry cause detail dec t.now.pc tval (strandMask g' n u) u u' else u' = u) ∧
    (FrontTurn s r gid g → FetchTraps s true g.ctx g.core g.desc.image g.front.now.pc cause detail dec tval → s.handler g.ctx true = some entry →
      g.front.front = true → g.front.th = false → g.front.txn.isOpen = false → g.front.stopped = false → (∀ x, g.front.seg = some x → SegDone x) →
      ∃ q u', step s = .next q ∧ OnlyTurn s q ∧ (∀ j, j ≠ gid → q.grove? j = s.grove? j) ∧ q.grove? gid = some { g with front := u' } ∧
        Entered g.desc.vregs entry cause detail dec g.front.now.pc tval 0 g.front u')) ∧
  -- checks 8 to 11, by what a word names
  (∀ (d : Desc) (needs : List Need) (nvar used : Nat),
    let beyond := ∃ r c a, (Need.v r c a ∈ needs ∧ d.vregs < r + c) ∨ (Need.s r c a ∈ needs ∧ 32 < r + c)
    let odd := ∃ r c a, (Need.v r c a ∈ needs ∨ Need.s r c a ∈ needs) ∧ r % a ≠ 0
    let unit := ∃ u, (Need.ta u ∈ needs ∧ d.tas ≤ u) ∨ (Need.wb u ∈ needs ∧ d.wbs ≤ u) ∨ (Need.ac u ∈ needs ∧ d.acs ≤ u) ∨
      (Need.acw u ∈ needs ∧ ((u ≠ 0 ∧ u ≠ 5) ∨ d.acs < u + 5)) ∨ (Need.strands u ∈ needs ∧ (u % (64 / d.width) ≠ 0 ∨ d.nstr < u + 64 / d.width)) ∨ Need.ok false ∈ needs
    (beyond → decodeCheck d needs nvar used = some (0x02, 1)) ∧
      (¬ beyond → odd → decodeCheck d needs nvar used = some (0x02, 2)) ∧
      (¬ beyond → ¬ odd → unit → decodeCheck d needs nvar used = some (0x02, 3)) ∧
      (¬ beyond → ¬ odd → ¬ unit → 16 < used + nvar → decodeCheck d needs nvar used = some (0x10, 0)) ∧
      (¬ beyond → ¬ odd → ¬ unit → used + nvar ≤ 16 → decodeCheck d needs nvar used = none)) ∧
  (∀ (h : Hdr) (p : Scope) (o : Order) (t : Hint) (a : LaneA) (k : Fin 8) (d b n : Fin 64) (f : Fin 32) (u : AtFn) (x : AtxFn) (y : Bool) (ta ac : Fin 16) (cb : Fin 8) (m : Fin 4) (sel : TdrainSel) (e : SfnFn),
    (∀ i ∈ [(Instr.iadd h d a b, 0, v1 d ++ needA a ++ v1 b), (.imad h d a b, 0, v1 d ++ needA a ++ v1 b), (.ffma h d a b, 0, v1 d ++ needA a ++ v1 b), (.hadd2 h d a b, 0, v1 d ++ needA a ++ v1 b),
        (.iadd64 h d a b, 0, v2 d ++ needA64 a ++ v2 b), (.shl64 h d a b, 0, v2 d ++ needA a ++ v2 b), (.mov64 h d a, 0, v2 d ++ needA64 a), (.cvt h d a b, 0, v1 d ++ needA a), (.sfn h d a e, 1, v1 d ++ needA a),
        (.lds h d a k f, 1, groupV d 1 ++ needA a), (.lds4 h d a k f, 4, groupV d 4 ++ needA a), (.sts2 h d a k f, 0, groupV d 2 ++ needA a), (.ldg h d a p o t, 1, groupV d 1 ++ needA64 a),
        (.ldg2 h d a p o t, 2, groupV d 2 ++ needA64 a), (.ldg4 h d a p o t, 4, groupV d 4 ++ needA64 a), (.stg h d a p o t, 0, groupV d 1 ++ needA64 a), (.stg4 h d a p o t, 0, groupV d 4 ++ needA64 a),
        (.ats h d a k u, 1, (if u = .cas then v2 d else v1 d) ++ needA a), (.atg h d a p o u, 1, groupV d (operandsOf u) ++ needA64 a), (.atgx h d a p o x, (atxRow x).2.2, groupV d (atxRow x).2.1 ++ needA64 a)],
      LaneDecodeTraps i.1 ⟨h, lenA a, false, i.2.1, i.2.2⟩) ∧
    ∀ i ∈ [(Instr.spawn h d b, 0, v1 d ++ [.v b.val 4 4]), (.spawng h d b n, 0, [.v d.val 4 4] ++ v2 b ++ v1 n), (.trace h d b n y, 0, [.v d.val 8 8] ++ v2 b ++ v1 n), (.dqpop h d, 5, groupV d 4),
        (.tstore h d ta cb m, 0, [.v d.val (2 ^ m.val) (2 ^ m.val)] ++ [.ta ta.val]), (.tdrain h d ac sel, 8, [.v d.val 8 8] ++ [.ac ac.val]), (.bara h d, 0, v1 d)],
      LaneDecodeTraps i.1 ⟨h, 1, false, i.2.1, i.2.2⟩) ∧
  ∀ (h : Hdr) (p : Scope) (o : Order) (b : UniA) (d j : Fin 32) (f : Fin 32) (u : AtFn) (q : Place) (m : MmaArgs) (l : MmaLit) (c t r : Fin 16) (w n : Fin 8) (x : TxFmt) (df : DrainFmt) (z : Rnd) (y : Bool) (k : TileClass) (rk : Rank),
    (∀ i ∈ [(Instr.sldg h d b p o f, 1, groupS d 1 ++ needUA64 b), (.sldg2 h d b p o f, 2, groupS d 2 ++ needUA64 b), (.sldg4 h d b p o f, 4, groupS d 4 ++ needUA64 b), (.sstg h d b p o f, 0, groupS d 1 ++ needUA64 b),
        (.sstg2 h d b p o f, 0, groupS d 2 ++ needUA64 b), (.satg h d b p o u, 1, groupS d (operandsOf u) ++ needUA64 b)],
      FrontDecodeTraps i.1 ⟨h, lenUA b, false, i.2.1, i.2.2⟩) ∧
    (∀ e ∈ mmaTable h m l, FrontDecodeTraps e.1 (mmaShapeOf h m e.2.2.1 e.2.2.2)) ∧
    ∀ i ∈ [(Instr.medge h c t w, 0, [Need.ac c.val, .ta t.val, .wb w.val]), (.mfilt h c t w x, 0, [.ac c.val, .ta t.val, .wb w.val]), (.mblend h c t r, 0, [.acw c.val, .ta t.val, .ta r.val]),
        (.mdrain h c n df z y, 0, [.ac c.val]), (.mfill h c n, 0, [.ac c.val]), (.mzero h c k, 0, if k = .acw then [.acw c.val] else [.ac c.val]), (.tload h t r n, 0, [.ta (t.val + r.val)]), (.wload h w n rk, 0, [.wb w.val]),
        (.tcopy h d j q, 0, [.s d.val 2 2]), (.coll h d j q, 0, [.s d.val 2 2]), (.beamgo h d, 0, [.s d.val 2 2]), (.dqpush h d, 0, [.s d.val 4 4]), (.digest h d, 0, [.s d.val 4 4])],
      FrontDecodeTraps i.1 ⟨h, 1, false, i.2.1, i.2.2⟩

/-- Loads, stores and atomics trap ADDRESS_HOME, MISALIGNED and SCRATCH_RANGE with the address in TVAL and without any effect (R53, R57, R230, R264, R267, R269, R353). A load, store or atomic that its home refuses ends its thread's segment at its word with TRANSLATION, PROTECTION or POISON_CONSUMED, or parks there; when the segment commits, the thread takes that trap, or parks with its record in the die's queue, or traps where the queue is full (R88, R230, R350, R353, R356, R357). -/
def Obligations.AddressTraps : Prop :=
  (∀ (s : State) (id : Nat) (r : Req) (g : Grove) (home : Nat) (u : Thread) (x : Seg), AtCheck s id r g home → SenderIs r g u x →
    let off := r.va % 2 ^ 54
    (r.op = .load → r.after ≤ s.gt →
      let i := Instr.loadAtHome id
      let f := s.fate g.ctx false .load home off
      (f = .translation → TurnsAway i s r g u x 0x07 0) ∧ (f = .protection → TurnsAway i s r g u x 0x06 0) ∧ (f = .demand → home < 2 → ParksAt i s r g u x 0 home) ∧
        ∀ pk code k, f = .ok pk code → s.barred home (pk / 128) = false → s.hostNeed home (pk / 128) false = none → k < r.size → tabGet false s.poison ((pk + k) / 32) = true →
          TurnsAway i s r g u x 0x0D 0x100) ∧
    ∀ (fate : Nat) (i : Instr), (r.op = .store ∧ i = .storeArrival id fate) ∨ (r.op.isAtomic = true ∧ r.va < 2 ^ 64 ∧ i = .atomicAtHome id) → s.mayPerform r = true → s.writeWaits g r = false →
      let f := s.fate g.ctx false .store home off
      (f = .translation → TurnsAway i s r g u x 0x07 0) ∧ (f = .protection → TurnsAway i s r g u x 0x06 1) ∧ (f = .demand → home < 2 → ParksAt i s r g u x 1 home) ∧
        ∀ pk code k, f = .ok pk code → r.op.isAtomic = true → g.verify ≠ 2 → s.barred home (pk / 128) = false → s.hostNeed home (pk / 128) true = none → k < r.size →
          tabGet false s.poison ((pk + k) / 32) = true → TurnsAway i s r g u x 0x0D 0x100) ∧
  (∀ (s : State) (gid : Nat) (g : Grove) (x : Seg), s.grove? gid = some g → x.abort = none →
    (g.front.seg = some x → g.front.front = true → s.mayRun g g.front.core = true → g.front.commitReady = true →
      (∀ ti entry, x.trap = some ti → x.park = none → ti.txn = false → g.front.th = false → g.front.txn.isOpen = false → s.handler g.ctx true = some entry → natBit s.hub.snapMask ti.cause = false →
        ∃ t u', exec (.segmentCommit gid none) s = .next t ∧ FrontIs s t gid g u' ∧ Entered g.desc.vregs entry ti.cause ti.detail ti.decode ti.pc ti.tval 0 g.front u') ∧
      (∀ p, x.trap = none → x.park = some p → (tabGet [] s.deadfalls p.die).length < 4096 →
        ∃ t u', exec (.segmentCommit gid none) s = .next t ∧ Recorded s t true gid g.front.tid g.ctx p ∧ (∀ j, j ≠ gid → t.grove? j = s.grove? j) ∧
          t.grove? gid = some { g with front := u' } ∧ HasParked p g.front u') ∧
      ∀ p entry, x.trap = none → x.park = some p → 4096 ≤ (tabGet [] s.deadfalls p.die).length → g.front.th = false → s.handler g.ctx true = some entry → natBit s.hub.snapMask 0x07 = false →
        ∃ t u', exec (.segmentCommit gid none) s = .next t ∧ FrontIs s t gid g u' ∧ Entered g.desc.vregs entry 0x07 1 false p.pc (BitVec.ofNat 64 p.va) 0 g.front u') ∧
    ∀ u ∈ g.lanes, u.seg = some x → u.front = false → (∀ v ∈ g.lanes, v.team = u.team ∨ v.tid = u.tid → v = u) → s.mayRun g u.core = true → u.commitReady = true →
      (∀ ti entry, x.trap = some ti → ti.mask = none → x.park = none → ti.txn = false → u.th = false → u.txn.isOpen = false → s.handler g.ctx false = some entry → natBit s.hub.snapMask ti.cause = false →
        ∃ t u', exec (.segmentCommit gid (some u.tid)) s = .next t ∧ OneLeaves s t gid g u.tid u' ∧
          Entered g.desc.vregs entry ti.cause ti.detail ti.decode ti.pc ti.tval (BitVec.ofNat 64 (2 ^ u.lane)) u u') ∧
      (∀ p, x.trap = none → x.park = some p → (tabGet [] s.deadfalls p.die).length < 4096 →
        ∃ t u', exec (.segmentCommit gid (some u.tid)) s = .next t ∧ Recorded s t false gid u.tid g.ctx p ∧ (∀ j, j ≠ gid → t.grove? j = s.grove? j) ∧
          t.grove? gid = some (withThread g u.tid u') ∧ HasParked p u u') ∧
      ∀ p entry, x.trap = none → x.park = some p → 4096 ≤ (tabGet [] s.deadfalls p.die).length → u.th = false → s.handler g.ctx false = some entry → natBit s.hub.snapMask 0x07 = false →
        ∃ t u', exec (.segmentCommit gid (some u.tid)) s = .next t ∧ OneLeaves s t gid g u.tid u' ∧
          Entered g.desc.vregs entry 0x07 1 false p.pc (BitVec.ofNat 64 p.va) (BitVec.ofNat 64 (2 ^ u.lane)) u u') ∧
  (∀ (h : Hdr) (d : Fin 32) (b : UniA) (k : Fin 8) (f : Fin 128),
    FrontScratchTraps (.slds h d b k f) ⟨h, lenUA b, false, 1, []⟩ 4 (fun s g => scratchEa (readUA (s.env g) g.front b) (f.val * 4) k) (fun s g => s.acquiring g.id none = false) ∧
    FrontScratchTraps (.ssts h d b k f) ⟨h, lenUA b, false, 0, []⟩ 4 (fun s g => scratchEa (readUA (s.env g) g.front b) (f.val * 4) k) FrontFree ∧
    let ea := fun (s : State) (g : Grove) => (readUA (s.env g) g.front b).toNat + 4 * f.val
    let free := fun (s : State) (g : Grove) => s.loadHeld g.id none (g.desc.const + (readUA (s.env g) g.front b).toNat + 4 * f.val) = false
    FrontRefusesAt (.sldk h d b f) ⟨h, lenUA b, false, 1, []⟩ 0x04 0 ea (fun s g => free s g ∧ ea s g % 4 ≠ 0) ∧
    FrontRefusesAt (.sldk h d b f) ⟨h, lenUA b, false, 1, []⟩ 0x02 0
      (fun s _ => match s.cur with | .front _ w l => w.toNat + 2 ^ 32 * (if lenUA b = 2 then l.toNat else 0) | _ => 0) (fun s g => free s g ∧ ea s g % 4 = 0 ∧ 65536 ≤ ea s g)) ∧
  ∀ (h : Hdr) (p : Scope) (o : Order) (t : Hint) (a : LaneA) (b : UniA) (k : Fin 8),
    (∀ (d : Fin 64), ∀ i ∈ [(Instr.ldg h d a p o t, 1), (.ldg2 h d a p o t, 2), (.ldg4 h d a p o t, 4)],
      LaneAddressTraps i.1 ⟨h, lenA a, false, i.2, groupV d i.2 ++ needA64 a⟩ (4 * i.2) (fun s g u => laneEa s g u a)
        (fun s g u => s.loadHeld g.id (some u.tid) (laneEa s g u a) = false)) ∧
    (∀ (d : Fin 64), ∀ i ∈ [(Instr.stg h d a p o t, 1), (.stg2 h d a p o t, 2), (.stg4 h d a p o t, 4)],
      LaneAddressTraps i.1 ⟨h, lenA a, false, 0, groupV d i.2 ++ needA64 a⟩ (4 * i.2) (fun s g u => laneEa s g u a)
        (fun s g u => s.acquiring g.id (some u.tid) = false)) ∧
    (∀ (d : Fin 64) (f : AtFn), LaneAddressTraps (.atg h d a p o f) ⟨h, lenA a, false, 1, groupV d (operandsOf f) ++ needA64 a⟩ 4
      (fun s g u => laneEa s g u a) (fun s g u => s.acquiring g.id (some u.tid) = false)) ∧
    (∀ (d : Fin 64) (f : AtxFn), LaneAddressTraps (.atgx h d a p o f) ⟨h, lenA a, false, (atxRow f).2.2, groupV d (atxRow f).2.1 ++ needA64 a⟩ (atxRow f).1
      (fun s g u => laneEa s g u a) (fun s g u => s.acquiring g.id (some u.tid) = false)) ∧
    (∀ (d : Fin 32) (f : Fin 32), ∀ i ∈ [(Instr.sldg h d b p o f, 1), (.sldg2 h d b p o f, 2), (.sldg4 h d b p o f, 4)],
      FrontAddressTraps i.1 ⟨h, lenUA b, false, i.2, groupS d i.2 ++ needUA64 b⟩ (4 * i.2) (fun s g => frontEa s g b (f.val * (4 * i.2)))
        (fun s g => s.loadHeld g.id none (frontEa s g b (f.val * (4 * i.2))) = false)) ∧
    (∀ (d : Fin 32) (f : Fin 32), ∀ i ∈ [(Instr.sstg h d b p o f, 1), (.sstg2 h d b p o f, 2)],
      FrontAddressTraps i.1 ⟨h, lenUA b, false, 0, groupS d i.2 ++ needUA64 b⟩ (4 * i.2) (fun s g => frontEa s g b (f.val * (4 * i.2)))
        (fun s g => FrontFree s g)) ∧
    (∀ (d : Fin 32) (f : AtFn), FrontAddressTraps (.satg h d b p o f) ⟨h, lenUA b, false, 1, groupS d (operandsOf f) ++ needUA64 b⟩ 4
      (fun s g => frontEa s g b 0) (fun s g => FrontFree s g)) ∧
    (∀ (d : Fin 64) (f : Fin 32),
      (∀ i ∈ [(Instr.lds h d a k f, 1), (.lds2 h d a k f, 2), (.lds4 h d a k f, 4)],
        LaneScratchTraps i.1 ⟨h, lenA a, false, i.2, groupV d i.2 ++ needA a⟩ (4 * i.2) (fun s g u => scratchEa (readA (s.env g) u a) (f.val * (4 * i.2)) k)) ∧
      (∀ i ∈ [(Instr.sts h d a k f, 1), (.sts2 h d a k f, 2), (.sts4 h d a k f, 4)],
        LaneScratchTraps i.1 ⟨h, lenA a, false, 0, groupV d i.2 ++ needA a⟩ (4 * i.2) (fun s g u => scratchEa (readA (s.env g) u a) (f.val * (4 * i.2)) k))) ∧
    ∀ (d : Fin 64) (f : AtFn), LaneScratchTraps (.ats h d a k f) ⟨h, lenA a, false, 1, (if f = .cas then v2 d else v1 d) ++ needA a⟩ 4
      (fun s g u => scratchEa (readA (s.env g) u a) 0 k)

/-- A word whose guard is false has no effect but that its threads go past it: memory words, traps and ends of threads, spawning words, fences, barriers, the decision queue, transactions, tiles, and words of the front thread that act on the device: the matrix array, engines, beams, waits, records and the device's registers (R83). A false guard of the words that change the control state of their threads is in their own statements. -/
def Obligations.GuardFalse : Prop :=
  ∀ (h : Hdr) (p : Scope) (o : Order) (t : Hint) (a : LaneA) (b : UniA) (k : Fin 8) (c : Fin 65536),
    (∀ (d e n : Fin 64) (f : Fin 32) (u : AtFn) (x : AtxFn) (y : Bool),
      LaneSkips (.lds h d a k f) ⟨h, lenA a, false, 1, groupV d 1 ++ needA a⟩ ∧ LaneSkips (.lds2 h d a k f) ⟨h, lenA a, false, 2, groupV d 2 ++ needA a⟩ ∧
      LaneSkips (.lds4 h d a k f) ⟨h, lenA a, false, 4, groupV d 4 ++ needA a⟩ ∧ LaneSkips (.sts h d a k f) ⟨h, lenA a, false, 0, groupV d 1 ++ needA a⟩ ∧
      LaneSkips (.sts2 h d a k f) ⟨h, lenA a, false, 0, groupV d 2 ++ needA a⟩ ∧ LaneSkips (.sts4 h d a k f) ⟨h, lenA a, false, 0, groupV d 4 ++ needA a⟩ ∧
      LaneSkips (.ldg h d a p o t) ⟨h, lenA a, false, 1, groupV d 1 ++ needA64 a⟩ ∧ LaneSkips (.ldg2 h d a p o t) ⟨h, lenA a, false, 2, groupV d 2 ++ needA64 a⟩ ∧
      LaneSkips (.ldg4 h d a p o t) ⟨h, lenA a, false, 4, groupV d 4 ++ needA64 a⟩ ∧ LaneSkips (.stg h d a p o t) ⟨h, lenA a, false, 0, groupV d 1 ++ needA64 a⟩ ∧
      LaneSkips (.stg2 h d a p o t) ⟨h, lenA a, false, 0, groupV d 2 ++ needA64 a⟩ ∧ LaneSkips (.stg4 h d a p o t) ⟨h, lenA a, false, 0, groupV d 4 ++ needA64 a⟩ ∧
      LaneSkips (.ats h d a k u) ⟨h, lenA a, false, 1, (if u = .cas then v2 d else v1 d) ++ needA a⟩ ∧
      LaneSkips (.atg h d a p o u) ⟨h, lenA a, false, 1, groupV d (operandsOf u) ++ needA64 a⟩ ∧
      LaneSkips (.atgx h d a p o x) ⟨h, lenA a, false, (atxRow x).2.2, groupV d (atxRow x).2.1 ++ needA64 a⟩ ∧
      LaneSkips (.prf h a t) ⟨h, lenA a, false, 0, needA64 a⟩ ∧
      LaneSkips (.trap h c) ⟨h, 1, true, 0, []⟩ ∧ LaneSkips (.bpt h c) ⟨h, 1, true, 0, []⟩ ∧ LaneSkips (.eretLane h) ⟨h, 1, true, 0, []⟩ ∧
      LaneSkips (.exit h) ⟨h, 1, true, 0, []⟩ ∧ LaneSkips (.spawn h d e) ⟨h, 1, false, 0, v1 d ++ [.v e.val 4 4]⟩ ∧
      LaneSkips (.spawng h d e n) ⟨h, 1, false, 0, [.v d.val 4 4] ++ v2 e ++ v1 n⟩ ∧
      LaneSkips (.trace h d e n y) ⟨h, 1, false, 0, [.v d.val 8 8] ++ v2 e ++ v1 n⟩) ∧
    (∀ (d e : Fin 64) (i : Fin 524288) (x : Fin 256) (ta ac : Fin 16) (cb : Fin 8) (n : Fin 4) (sel : TdrainSel),
      LaneSkips (.fence h p o) ⟨h, 1, true, 0, []⟩ ∧ LaneSkips (.bar h d) ⟨h, 1, true, 0, v1 d⟩ ∧ LaneSkips (.bara h d) ⟨h, 1, false, 0, v1 d⟩ ∧
      LaneSkips (.barw h d e) ⟨h, 1, true, 0, v1 d ++ v1 e⟩ ∧ LaneSkips (.gbar h) ⟨h, 1, true, 0, []⟩ ∧ LaneSkips (.dqpop h d) ⟨h, 1, false, 5, groupV d 4⟩ ∧
      LaneSkips (.tbegin h i) ⟨h, 1, true, 0, []⟩ ∧ LaneSkips (.tabort h x) ⟨h, 1, true, 0, []⟩ ∧ LaneSkips (.tend h) ⟨h, 1, true, 0, []⟩ ∧
      LaneSkips (.tstore h d ta cb n) ⟨h, 1, false, 0, [.v d.val (2 ^ n.val) (2 ^ n.val)] ++ [.ta ta.val]⟩ ∧
      LaneSkips (.tdrain h d ac sel) ⟨h, 1, false, 8, [.v d.val 8 8] ++ [.ac ac.val]⟩) ∧
    (∀ (m : MmaArgs) (l : MmaLit), ∀ e ∈ mmaTable h m l, FrontSkips e.1 (mmaShapeOf h m e.2.2.1 e.2.2.2)) ∧
    (∀ (c t q r : Fin 16) (w n : Fin 8) (x : TxFmt) (f : DrainFmt) (z : Rnd) (y : Bool) (k : TileClass) (rk : Rank),
      FrontSkips (.medge h c t w) ⟨h, 1, false, 0, [.ac c.val, .ta t.val, .wb w.val]⟩ ∧ FrontSkips (.mfilt h c t w x) ⟨h, 1, false, 0, [.ac c.val, .ta t.val, .wb w.val]⟩ ∧
      FrontSkips (.mblend h c t q) ⟨h, 1, false, 0, [.acw c.val, .ta t.val, .ta q.val]⟩ ∧
      FrontSkips (.mblendb h c t q r) ⟨h, 1, false, 0, [.acw c.val, .ta t.val, .ta q.val, .ta r.val]⟩ ∧
      FrontSkips (.mdrain h c n f z y) ⟨h, 1, false, 0, [.ac c.val]⟩ ∧ FrontSkips (.mspill h c n) ⟨h, 1, false, 0, [.ac c.val]⟩ ∧
      FrontSkips (.macc h c n) ⟨h, 1, false, 0, [.ac c.val]⟩ ∧ FrontSkips (.mfill h c n) ⟨h, 1, false, 0, [.ac c.val]⟩ ∧
      FrontSkips (.mzero h c k) ⟨h, 1, false, 0, if k = .acw then [.acw c.val] else [.ac c.val]⟩ ∧
      FrontSkips (.tload h t q n) ⟨h, 1, false, 0, [.ta (t.val + q.val)]⟩ ∧ FrontSkips (.wload h w n rk) ⟨h, 1, false, 0, [.wb w.val]⟩ ∧ FrontSkips (.mwait h) ⟨h, 1, true, 0, []⟩) ∧
    (∀ (d j : Fin 32) (q : Place) (v : Bool) (x : SbarArg) (e : McfgSel),
      (∀ i ∈ [Instr.tcopy h d j q, .tcopym h d j q, .gather h d j q, .scatter h d j q, .sortk h d j q, .route h d j q, .coll h d j q, .beamgo h d, .beamgoReq h d j],
        FrontSkips i ⟨h, 1, false, 0, [.s d.val 2 2]⟩) ∧
      (∀ i ∈ [Instr.sfence h p o, .sbar h d x, .sstep h, .swaits h], FrontSkips i ⟨h, 1, true, 0, []⟩) ∧
      (∀ i ∈ [Instr.cfence h, .sbara h d, .barfree h d, .barexp h d j, .mcfg h e d, .dqclose h, .logmark h d], FrontSkips i ⟨h, 1, false, 0, []⟩) ∧
      FrontSkips (.barnew h d j v) ⟨h, 1, false, 1, []⟩ ∧ FrontSkips (.timewait h d v) ⟨h, 1, true, 0, [.s d.val 2 2]⟩ ∧
      FrontSkips (.dqpush h d) ⟨h, 1, false, 0, [.s d.val 4 4]⟩ ∧ FrontSkips (.digest h d) ⟨h, 1, false, 0, [.s d.val 4 4]⟩) ∧
    ∀ (d e n : Fin 32) (f : Fin 32) (u : AtFn) (m : Fin 128) (z : PgSize) (y : Fin 32768),
      FrontSkips (.sldg h d b p o f) ⟨h, lenUA b, false, 1, groupS d 1 ++ needUA64 b⟩ ∧ FrontSkips (.sldg2 h d b p o f) ⟨h, lenUA b, false, 2, groupS d 2 ++ needUA64 b⟩ ∧
      FrontSkips (.sldg4 h d b p o f) ⟨h, lenUA b, false, 4, groupS d 4 ++ needUA64 b⟩ ∧ FrontSkips (.sstg h d b p o f) ⟨h, lenUA b, false, 0, groupS d 1 ++ needUA64 b⟩ ∧
      FrontSkips (.sstg2 h d b p o f) ⟨h, lenUA b, false, 0, groupS d 2 ++ needUA64 b⟩ ∧
      FrontSkips (.satg h d b p o u) ⟨h, lenUA b, false, 1, groupS d (operandsOf u) ++ needUA64 b⟩ ∧
      FrontSkips (.slds h d b k m) ⟨h, lenUA b, false, 1, []⟩ ∧ FrontSkips (.ssts h d b k m) ⟨h, lenUA b, false, 0, []⟩ ∧
      FrontSkips (.sldk h d b m) ⟨h, lenUA b, false, 1, []⟩ ∧ FrontSkips (.sprf h b f) ⟨h, lenUA b, false, 0, needUA64 b⟩ ∧
      FrontSkips (.strap h c) ⟨h, 1, true, 0, []⟩ ∧ FrontSkips (.sbpt h c) ⟨h, 1, true, 0, []⟩ ∧ FrontSkips (.eret h) ⟨h, 1, true, 0, []⟩ ∧
      FrontSkips (.sexit h) ⟨h, 1, true, 0, []⟩ ∧ FrontSkips (.csrr h d e) ⟨h, 1, false, 1, []⟩ ∧ FrontSkips (.csrw h d e) ⟨h, 1, false, 0, []⟩ ∧
      FrontSkips (.pginv h d z) ⟨h, 1, true, 0, [.s d.val 2 2]⟩ ∧ FrontSkips (.halt h d) ⟨h, 1, true, 0, []⟩ ∧ FrontSkips (.snap h y) ⟨h, 1, false, 0, []⟩ ∧
      FrontSkips (.sspawng h d e n) ⟨h, 1, false, 0, [.s d.val 4 4] ++ s2 e⟩

/-- The laws of the float operations that FloatWords and UniformWords name, for every FPC: the limits of the formats; RoundOnce; sums, differences, products, fused and dot sums rounded once, with their NaNs, infinities and zero signs; minimum, maximum and comparison; FRND, FLDEXP, FFRACT and FSAT; every conversion; and of SFN the special operands, RCP, SQRT, RSQ, EXP2 of integers and LOG2 of powers of two (R108-R125, R137-R145, R157). The other values of EXP2, LOG2, SIN, COS, TANH and ERF are not stated. -/
def Obligations.FloatLaws : Prop :=
  ∀ x : Nat,
  let v := FEnv.ofFpc x
  let rm := rmOf x
  (codeValue .fp32 (Fmt.maxCode .fp32) = (2 - 2 ^ (-23 : ℤ)) * 2 ^ 127 ∧ codeValue .fp16 (Fmt.maxCode .fp16) = 65504 ∧ codeValue .bf16 (Fmt.maxCode .bf16) = (2 - 2 ^ (-7 : ℤ)) * 2 ^ 127 ∧
    codeValue .fp8e5 (Fmt.maxCode .fp8e5) = 57344 ∧ codeValue .fp8e4 (Fmt.maxCode .fp8e4) = 448 ∧ codeValue .fp8e4z (Fmt.maxCode .fp8e4z) = 240 ∧
    codeValue .fp6e3 (Fmt.maxCode .fp6e3) = 28 ∧ codeValue .fp6e2 (Fmt.maxCode .fp6e2) = 7.5 ∧ codeValue .fp4 (Fmt.maxCode .fp4) = 6) ∧
  (∀ (f : Fmt) (mode : Rnd) (r : Nat) (neg : Bool) (n d : Nat), r < 2 ^ 24 → 0 < n → 0 < d → RoundsOnce x f mode r ((if neg then -1 else 1) * (n / d)) (roundQ v f mode r neg n d)) ∧
  (∀ f ∈ [Fmt.fp32, .fp16, .bf16], ∀ a b c : Nat, a < 2 ^ f.width → b < 2 ^ f.width → c < 2 ^ f.width →
    let A := readNum x f a
    let B := readNum x f b
    let C := readNum x f c
    SumsTo x f [(f, a), (f, b)] [A, B] (faddOp v f a b) ∧
    SumsTo x f [(f, a), (f, b)] [A, B.opp] (fsubOp v f a b) ∧
    SumsTo x f [(f, a), (f, b)] [A.mul B] (fmulOp v f a b) ∧
    SumsTo x f [(f, a), (f, b), (f, c)] [A.mul B, C] (ffmaOp v f false a b c) ∧
    SumsTo x f [(f, a), (f, b), (f, c)] [A.mul B, C.opp] (ffmaOp v f true a b c) ∧
    (∀ isMax num : Bool,
      let res := fminmax v f isMax num a b
      let na := nanCode f a
      let nb := nanCode f b
      (na = true ∧ nb = true ∨ (na = true ∨ nb = true) ∧ num = false → NaNResult x f [(f, a), (f, b)] False res) ∧
      (na = true → nb = false → num = true → res = (flushCode x f b, if sigCode f a then 1 else 0)) ∧
      (na = false → nb = true → num = true → res = (flushCode x f a, if sigCode f b then 1 else 0)) ∧
      (na = false → nb = false → res.2 = 0 ∧
        ((if isMax then A.Before B else B.Before A) → res.1 = flushCode x f b) ∧ (¬ (if isMax then A.Before B else B.Before A) → res.1 = flushCode x f a))) ∧
    (∀ k : FCond,
      let res := fcmpOp v f k a b
      let some := nanCode f a || nanCode f b
      let sig := sigCode f a || sigCode f b
      (res.1 = true ↔ match k with
        | .eq => some = false ∧ ¬ A.Before B ∧ ¬ B.Before A
        | .ne => some = true ∨ A.Before B ∨ B.Before A
        | .lt => some = false ∧ A.Before B
        | .le => some = false ∧ ¬ B.Before A
        | .gt => some = false ∧ B.Before A
        | .ge => some = false ∧ ¬ A.Before B
        | .ord => some = false
        | .uno => some = true) ∧
      res.2 = if sig || (some && (k == .lt || k == .le || k == .gt || k == .ge)) then 1 else 0)) ∧
  (∀ e ∈ [(Fmt.bf16, 2), (.fp16, 2), (.fp8e4, 4)], ∀ a b c : Nat, a < 2 ^ 32 → b < 2 ^ 32 → c < 2 ^ 32 →
    let at_ := fun (w i : Nat) => w / 2 ^ (e.1.width * i) % 2 ^ e.1.width
    SumsTo x .fp32 ((List.range e.2).map (fun i => (e.1, at_ a i)) ++ (List.range e.2).map (fun i => (e.1, at_ b i)) ++ [(.fp32, c)])
      ((List.range e.2).map (fun i => (readNum x e.1 (at_ a i)).mul (readNum x e.1 (at_ b i))) ++ [readNum x .fp32 c]) (dotOp v e.1 e.2 a b c)) ∧
  (∀ a b : Nat, a < 2 ^ 32 → b < 2 ^ 32 →
    (∀ mode ∈ [Rnd.rne, .rtz, .rup, .rdn],
      let res := frndOp v mode a
      match readNum x .fp32 a with
      | .num n z => ∃ k : ℤ, RoundsToInt mode z k ∧ res.1 < 2 ^ 32 ∧ nanCode .fp32 res.1 = false ∧ infCode .fp32 res.1 = false ∧ codeValue .fp32 res.1 = k ∧ signOf .fp32 res.1 = n ∧ res.2 = 0
      | .inf _ => res = (a, 0)
      | _ => NaNResult x .fp32 [(.fp32, a)] False res) ∧
    (match readNum x .fp32 a with
      | .num n z => (z ≠ 0 → RoundsOnce x .fp32 rm 0 (z * 2 ^ signedOf 32 b) (fldexpOp v a b)) ∧ (z = 0 → fldexpOp v a b = (zeroCode .fp32 n, 0)) ∧
        (Int.fract z = 0 → ffractOp v a = (0, 0)) ∧
        (Int.fract z ≠ 0 → ∃ y, RoundsOnce x .fp32 rm 0 (Int.fract z) y ∧ ffractOp v a = if y.1 = 0x3F800000 then (0x3F7FFFFF, y.2 ||| 16) else y) ∧
        (z ≤ 0 → fsatOp v a = (0, 0)) ∧ (1 ≤ z → fsatOp v a = (0x3F800000, 0)) ∧ (0 < z → z < 1 → RoundsOnce x .fp32 rm 0 z (fsatOp v a))
      | .inf n => fldexpOp v a b = (infOf .fp32 n, 0) ∧ ffractOp v a = (0x7FC00000, 1) ∧ fsatOp v a = (if n then 0 else 0x3F800000, 0)
      | _ => NaNResult x .fp32 [(.fp32, a)] False (fldexpOp v a b) ∧ NaNResult x .fp32 [(.fp32, a)] False (ffractOp v a) ∧
        fsatOp v a = (0, if sigCode .fp32 a then 1 else 0))) ∧
  (∀ a : Nat, a < 2 ^ 64 →
    let lo := a % 2 ^ 32
    (∀ e ∈ [(0x00, Fmt.fp16), (0x01, .bf16), (0x06, .fp8e4), (0x07, .fp8e4z), (0x08, .fp8e5), (0x09, .fp6e3), (0x0A, .fp6e2), (0x0B, .fp4)], ConvertsTo x .fp32 e.2 lo (convert v e.1 a)) ∧
    (∀ e ∈ [(0x02, Fmt.fp16, 0), (0x03, .fp16, 1), (0x04, .bf16, 0), (0x05, .bf16, 1), (0x0C, .fp8e4, 0), (0x0D, .fp8e4z, 0), (0x0E, .fp8e5, 0), (0x0F, .fp6e3, 0), (0x10, .fp6e2, 0), (0x11, .fp4, 0)],
      WidensTo x e.2.1 (a / 2 ^ (16 * e.2.2) % 2 ^ e.2.1.width) (convert v e.1 a)) ∧
    (∀ e ∈ [(0x12, rm, (-2 ^ 31 : ℤ), (2 ^ 31 - 1 : ℤ)), (0x13, .rtz, -2 ^ 31, 2 ^ 31 - 1), (0x14, rm, 0, 2 ^ 32 - 1), (0x15, .rtz, 0, 2 ^ 32 - 1), (0x18, rm, -2 ^ 15, 2 ^ 15 - 1), (0x19, rm, 0, 2 ^ 16 - 1),
        (0x1A, rm, -128, 127), (0x1B, rm, 0, 255)],
      ∃ n, IntConverts x e.2.1 e.2.2.1 e.2.2.2 lo n (convert v e.1 a).2 ∧ ((convert v e.1 a).1 : ℤ) = n % 2 ^ 32) ∧
    (∃ n, IntConverts x .rtz (-2 ^ 63) (2 ^ 63 - 1) lo n (convert v 0x37 a).2 ∧ ((convert v 0x37 a).1 : ℤ) = n % 2 ^ 64) ∧
    (∀ e ∈ [(0x16, signedOf 32 a), (0x17, (lo : ℤ)), (0x35, signedOf 64 a), (0x36, (a : ℤ))], FloatsTo x e.2 (convert v e.1 a)) ∧
    (∀ e ∈ [(0x1C, signedOf 32 a, (-2 ^ 15 : ℤ), (2 ^ 15 - 1 : ℤ)), (0x1D, signedOf 32 a, -128, 127), (0x1E, signedOf 32 a, -8, 7), (0x1F, (lo : ℤ), 0, 2 ^ 16 - 1), (0x20, (lo : ℤ), 0, 255), (0x21, (lo : ℤ), 0, 15)],
      let n := max e.2.2.1 (min e.2.2.2 e.2.1)
      convert v e.1 a = ((n % 2 ^ 32).toNat, if n = e.2.1 then 0 else 32)) ∧
    (∀ k : ℤ, -67108351 ≤ k → k ≤ 2 ^ 26 → Residue lo k → convert v 0x30 a = ((k % 2 ^ 32).toNat, 0) ∧ FloatsTo x k (convert v 0x32 a)) ∧
    (511 ≤ lo % 512 ∨ 513 ≤ lo / 2 ^ 18 % 1024 ∨ lo / 2 ^ 28 ≠ 0 → convert v 0x30 a = (0x80000000, 1) ∧ convert v 0x32 a = (0x7FC00000, 1)) ∧
    (let k := max (-67108351) (min (2 ^ 26) (signedOf 32 a))
     Residue (convert v 0x31 a).1 k ∧ (convert v 0x31 a).2 = if k = signedOf 32 a then 0 else 32) ∧
    (a % 256 ≠ 255 → RoundsOnce x .fp32 rm 0 (2 ^ ((a % 256 : ℕ) - 127 : ℤ)) (convert v 0x33 a)) ∧ (a % 256 = 255 → convert v 0x33 a = (0x7FC00000, 0)) ∧
    match readNum x .fp32 lo with
    | .num _ z => (z = 0 → convert v 0x34 a = (0, 0)) ∧ ∀ k : ℤ, (2 : ℝ) ^ k ≤ |z| → |z| < 2 ^ (k + 1) → convert v 0x34 a = ((max 0 (min 0xFE (k + 127))).toNat, 0)
    | _ => convert v 0x34 a = (0xFF, 0)) ∧
  (∀ e ∈ [(SfnFn.rcp, 0xFF800000, 0x80000000, 0), (.rcp, 0x80000000, 0xFF800000, 2), (.rcp, 0, 0x7F800000, 2), (.rcp, 0x7F800000, 0, 0),
      (.rsq, 0xFF800000, 0x7FC00000, 1), (.rsq, 0x80000000, 0xFF800000, 2), (.rsq, 0, 0x7F800000, 2), (.rsq, 0x7F800000, 0, 0),
      (.sqrt, 0xFF800000, 0x7FC00000, 1), (.sqrt, 0x80000000, 0x80000000, 0), (.sqrt, 0, 0, 0), (.sqrt, 0x7F800000, 0x7F800000, 0),
      (.exp2, 0xFF800000, 0, 0), (.exp2, 0x80000000, 0x3F800000, 0), (.exp2, 0, 0x3F800000, 0), (.exp2, 0x7F800000, 0x7F800000, 0),
      (.log2, 0xFF800000, 0x7FC00000, 1), (.log2, 0x80000000, 0xFF800000, 2), (.log2, 0, 0xFF800000, 2), (.log2, 0x7F800000, 0x7F800000, 0),
      (.sin, 0xFF800000, 0x7FC00000, 1), (.sin, 0x80000000, 0x80000000, 0), (.sin, 0, 0, 0), (.sin, 0x7F800000, 0x7FC00000, 1),
      (.cos, 0xFF800000, 0x7FC00000, 1), (.cos, 0x80000000, 0x3F800000, 0), (.cos, 0, 0x3F800000, 0), (.cos, 0x7F800000, 0x7FC00000, 1),
      (.tanh, 0xFF800000, 0xBF800000, 0), (.tanh, 0x80000000, 0x80000000, 0), (.tanh, 0, 0, 0), (.tanh, 0x7F800000, 0x3F800000, 0),
      (.erf, 0xFF800000, 0xBF800000, 0), (.erf, 0x80000000, 0x80000000, 0), (.erf, 0, 0, 0), (.erf, 0x7F800000, 0x3F800000, 0)],
    sfnOp v e.1 e.2.1 = e.2.2) ∧
  ∀ a : Nat, a < 2 ^ 32 →
    (nanCode .fp32 a = true → ∀ f : SfnFn, NaNResult x .fp32 [(.fp32, a)] False (sfnOp v f a)) ∧
    ∀ n z, readNum x .fp32 a = .num n z → z ≠ 0 →
      RoundsOnce x .fp32 rm 0 (1 / z) (sfnOp v .rcp a) ∧
      (0 < z → RoundsOnce x .fp32 rm 0 (Real.sqrt z) (sfnOp v .sqrt a) ∧ RoundsOnce x .fp32 rm 0 (1 / Real.sqrt z) (sfnOp v .rsq a)) ∧
      (z < 0 → ∀ f ∈ [SfnFn.sqrt, .rsq, .log2], sfnOp v f a = (0x7FC00000, 1)) ∧
      (∀ k : ℤ, z = k → RoundsOnce x .fp32 rm 0 (2 ^ k) (sfnOp v .exp2 a)) ∧
      ∀ k : ℤ, z = 2 ^ k → FloatsTo x k (sfnOp v .log2 a)
end

