-- ==== Sys2Proof/Laws/Bits.lean ====
section
/-! SUPPORT. Fields of words: reading the fields of a packed word gives what was packed, and every field reading of the decoder gives back the operand its code was taken from. -/

namespace Sys2Proof

/-- Every field's value fits its width. -/
def Fits : List (Nat × Nat) → Prop
  | [] => True
  | p :: r => p.2 < 2 ^ p.1 ∧ Fits r

theorem packBits_lt : ∀ l : List (Nat × Nat), Fits l → packBits l < 2 ^ (l.map Prod.fst).sum
  | [], _ => by simp [packBits]
  | (w, v) :: r, h => by
    have ih := packBits_lt r h.2
    have hv : v + 1 ≤ 2 ^ w := h.1
    have := Nat.mul_le_mul_right (2 ^ (r.map Prod.fst).sum) hv
    simp only [packBits, List.map_cons, List.sum_cons, Nat.pow_add]
    rw [Nat.add_mul] at this
    omega

theorem fields_add : ∀ (ws : List Nat) (k n : Nat), fields ws (k * 2 ^ ws.sum + n) = fields ws n
  | [], _, _ => rfl
  | w :: r, k, n => by
    have e : k * 2 ^ (w :: r).sum = (k * 2 ^ w) * 2 ^ r.sum := by
      rw [List.sum_cons, Nat.pow_add, Nat.mul_assoc]
    simp only [fields]
    rw [e, fields_add r, Nat.add_comm, Nat.add_mul_div_right _ _ (Nat.two_pow_pos _), Nat.add_mul_mod_self_right]

/-- Reading the fields of a packed word gives the values packed. -/
theorem fields_packBits : ∀ l : List (Nat × Nat), Fits l → fields (l.map Prod.fst) (packBits l) = l.map Prod.snd
  | [], _ => rfl
  | (w, v) :: r, h => by
    have hr := packBits_lt r h.2
    simp only [List.map_cons, fields, packBits]
    rw [fields_add, fields_packBits r h.2, Nat.add_comm, Nat.add_mul_div_right _ _ (Nat.two_pow_pos _),
      Nat.div_eq_of_lt hr, Nat.zero_add, Nat.mod_eq_of_lt h.1]

@[simp] theorem Scope.ofCode_code (x : Scope) : Scope.ofCode x.code = some x := by cases x <;> rfl

@[simp] theorem Order.ofCode_code (x : Order) : Order.ofCode x.code = some x := by cases x <;> rfl

@[simp] theorem Hint.ofCode_code (x : Hint) : Hint.ofCode x.code = some x := by cases x <;> rfl

@[simp] theorem FCond.ofCode_code (x : FCond) : FCond.ofCode x.code = some x := by cases x <;> rfl

@[simp] theorem ICond.ofCode_code (x : ICond) : ICond.ofCode x.code = some x := by cases x <;> rfl

@[simp] theorem UCond.ofCode_code (x : UCond) : UCond.ofCode x.code = some x := by cases x <;> rfl

@[simp] theorem RndSel.ofCode_code (x : RndSel) : RndSel.ofCode x.code = some x := by cases x <;> rfl

@[simp] theorem SfnFn.ofCode_code (x : SfnFn) : SfnFn.ofCode x.code = some x := by cases x <;> rfl

@[simp] theorem AtFn.ofCode_code (x : AtFn) : AtFn.ofCode x.code = some x := by cases x <;> rfl

@[simp] theorem AtxFn.ofCode_code (x : AtxFn) : AtxFn.ofCode x.code = some x := by cases x <;> rfl

@[simp] theorem LogicOp.ofCode_code (x : LogicOp) : LogicOp.ofCode x.code = some x := by cases x <;> rfl

@[simp] theorem VoteFn.ofCode_code (x : VoteFn) : VoteFn.ofCode x.code = some x := by cases x <;> rfl

@[simp] theorem RedFn.ofCode_code (x : RedFn) : RedFn.ofCode x.code = some x := by cases x <;> rfl

@[simp] theorem CmmabTy.ofCode_code (x : CmmabTy) : CmmabTy.ofCode x.code = some x := by cases x <;> rfl

@[simp] theorem CmmaqTy.ofCode_code (x : CmmaqTy) : CmmaqTy.ofCode x.code = some x := by cases x <;> rfl

@[simp] theorem PgSize.ofCode_code (x : PgSize) : PgSize.ofCode x.code = some x := by cases x <;> rfl

@[simp] theorem TxFmt.ofCode_code (x : TxFmt) : TxFmt.ofCode x.code = some x := by cases x <;> rfl

@[simp] theorem DrainFmt.ofCode_code (x : DrainFmt) : DrainFmt.ofCode x.code = some x := by cases x <;> rfl

@[simp] theorem Rnd.ofCode_code (x : Rnd) : Rnd.ofCode x.code = some x := by cases x <;> rfl

@[simp] theorem TileClass.ofCode_code (x : TileClass) : TileClass.ofCode x.code = some x := by cases x <;> rfl

@[simp] theorem McfgSel.ofCode_code (x : McfgSel) : McfgSel.ofCode x.code = some x := by cases x <;> rfl

@[simp] theorem Rank.ofCode_code (x : Rank) : Rank.ofCode x.code = some x := by cases x <;> rfl

@[simp] theorem Place.ofCode_code (x : Place) : Place.ofCode x.code = some x := by cases x <;> rfl

@[simp] theorem Dm.ofCode_code (x : Dm) : Dm.ofCode x.code = some x := by cases x <;> rfl

theorem Scope.code_lt (x : Scope) : x.code < 8 := by cases x <;> decide

theorem Order.code_lt (x : Order) : x.code < 4 := by cases x <;> decide

theorem Hint.code_lt (x : Hint) : x.code < 8 := by cases x <;> decide

theorem FCond.code_lt (x : FCond) : x.code < 8 := by cases x <;> decide

theorem ICond.code_lt (x : ICond) : x.code < 8 := by cases x <;> decide

theorem UCond.code_lt (x : UCond) : x.code < 4 := by cases x <;> decide

theorem RndSel.code_lt (x : RndSel) : x.code < 64 := by cases x <;> decide

theorem SfnFn.code_lt (x : SfnFn) : x.code < 64 := by cases x <;> decide

theorem AtFn.code_lt (x : AtFn) : x.code < 8 := by cases x <;> decide

theorem AtxFn.code_lt (x : AtxFn) : x.code < 8 := by cases x <;> decide

theorem LogicOp.code_lt (x : LogicOp) : x.code < 4 := by cases x <;> decide

theorem VoteFn.code_lt (x : VoteFn) : x.code < 4 := by cases x <;> decide

theorem RedFn.code_lt (x : RedFn) : x.code < 16 := by cases x <;> decide

theorem CmmabTy.code_lt (x : CmmabTy) : x.code < 4 := by cases x <;> decide

theorem CmmaqTy.code_lt (x : CmmaqTy) : x.code < 4 := by cases x <;> decide

theorem PgSize.code_lt (x : PgSize) : x.code < 4 := by cases x <;> decide

theorem TxFmt.code_lt (x : TxFmt) : x.code < 4 := by cases x <;> decide

theorem DrainFmt.code_lt (x : DrainFmt) : x.code < 8 := by cases x <;> decide

theorem Rnd.code_lt (x : Rnd) : x.code < 8 := by cases x <;> decide

theorem TileClass.code_lt (x : TileClass) : x.code < 4 := by cases x <;> decide

theorem McfgSel.code_lt (x : McfgSel) : x.code < 4 := by cases x <;> decide

theorem Rank.code_lt (x : Rank) : x.code < 4 := by cases x <;> decide

theorem Place.code_lt (x : Place) : x.code < 4 := by cases x <;> decide

theorem Dm.code_lt (x : Dm) : x.code < 8 := by cases x <;> decide

theorem b2n_lt (b : Bool) : b2n b < 2 := by cases b <;> decide

@[simp] theorem Dec.bool_b2n (b : Bool) : Dec.bool (b2n b) = .ok b := by cases b <;> rfl

@[simp] theorem Dec.opt_some {α : Type} (e : Nat) (x : α) : Dec.opt e (some x) = .ok x := rfl

@[simp] theorem Dec.ap_ok {α β : Type} (f : α → β) (x : α) : Dec.ap (.ok f) (.ok x) = .ok (f x) := rfl

@[simp] theorem Dec.zero_zero {α : Type} (x : Dec α) : Dec.zero 0 x = x := rfl

@[simp] theorem Dec.guard_true {α : Type} (e : Nat) (x : Dec α) : Dec.guard e true x = x := rfl

@[simp] theorem Dec.fin_val {n : Nat} (x : Fin n) : Dec.fin n x.val = .ok x := by simp [Dec.fin]

theorem LaneA.code_lt (a : LaneA) : a.code < 128 := by cases a <;> simp only [LaneA.code] <;> omega

theorem UniA.code_lt (a : UniA) : a.code < 64 := by cases a <;> simp only [UniA.code] <;> omega

theorem UniB.code_lt (b : UniB) : b.code < 256 := by cases b <;> simp only [UniB.code] <;> omega

/-- The reading of operand A gives back the operand whose code it reads, its literal with it. -/
theorem Dec.laneA_code (a : LaneA) (l : Word) : Dec.laneA (a.literal.getD l) a.code = .ok a := by
  cases a with
  | v r => simp [Dec.laneA, LaneA.code]
  | s r => simp [Dec.laneA, LaneA.code]
  | slot r =>
    have := r.isLt
    simp [Dec.laneA, LaneA.code, show ¬ 96 + r.val < 64 by omega, show ¬ 96 + r.val - 64 < 32 by omega]
  | lit w => simp [Dec.laneA, LaneA.code, LaneA.literal]

theorem Dec.laneA64_code (a : LaneA) (l : Word) (h : a.ok64 = true) :
    Dec.laneA64 (a.literal.getD l) a.code = .ok a := by
  have hc : (a.code != 116 && a.code != 118) = true := by
    cases a with
    | v r => have := r.isLt; simp [LaneA.code]; omega
    | s r => have := r.isLt; simp [LaneA.code]; omega
    | slot r => simp [LaneA.ok64] at h; simp [LaneA.code]; omega
    | lit w => rfl
  rw [Dec.laneA64, hc, Dec.guard_true, Dec.laneA_code]

theorem Dec.uniA_code (a : UniA) (l : Word) : Dec.uniA (a.literal.getD l) a.code = .ok a := by
  cases a with
  | s r => simp [Dec.uniA, UniA.code]
  | sp r => simp [Dec.uniA, UniA.code, show ¬ 32 + r.val < 32 by omega]
  | lit w => simp [Dec.uniA, UniA.code, UniA.literal]

theorem Dec.uniA64_code (a : UniA) (l : Word) (h : a.ok64 = true) :
    Dec.uniA64 (a.literal.getD l) a.code = .ok a := by
  have hc : (a.code != 44 && a.code != 46) = true := by
    cases a with
    | s r => have := r.isLt; simp [UniA.code]; omega
    | sp r => simp [UniA.ok64] at h; simp [UniA.code]; omega
    | lit w => rfl
  rw [Dec.uniA64, hc, Dec.guard_true, Dec.uniA_code]

theorem Dec.uniB_code (b : UniB) (l : Word) : Dec.uniB (b.literal.getD l) b.code = .ok b := by
  cases b with
  | s r => simp [Dec.uniB, UniB.code]
  | sp r => simp [Dec.uniB, UniB.code, show ¬ 32 + r.val < 32 by omega]
  | imm r =>
    have := r.isLt
    simp [Dec.uniB, UniB.code, show ¬ 64 + r.val < 32 by omega, show ¬ 64 + r.val - 32 < 16 by omega,
      show ¬ 64 + r.val < 64 by omega]
  | lit w => simp [Dec.uniB, UniB.code, UniB.literal]

theorem Dec.uniB64_code (b : UniB) (l : Word) (h : b.ok64 = true) :
    Dec.uniB64 (b.literal.getD l) b.code = .ok b := by
  have hc : (b.code != 44 && b.code != 46) = true := by
    cases b with
    | s r => have := r.isLt; simp [UniB.code]; omega
    | sp r => simp [UniB.ok64] at h; simp [UniB.code]; omega
    | imm r => have := r.isLt; simp [UniB.code]; omega
    | lit w => rfl
  rw [Dec.uniB64, hc, Dec.guard_true, Dec.uniB_code]

end Sys2Proof
end

