-- ==== Sys2Proof/Laws/Codes.lean ====
section
/-! SUPPORT. The forms of the words, read back: for each form, the decoder gives on the fields its encoder packs the operands they were packed from. -/

namespace Sys2Proof

theorem encHdr_lt (set cls : Nat) (h : Hdr) (body : Nat) (h1 : set < 2) (h2 : cls < 4) (h3 : body < 2 ^ 25) :
    encHdr set cls h body < 2 ^ 32 :=
  packBits_lt [(1, set), (1, b2n h.s), (3, h.g.val), (2, cls), (25, body)]
    ⟨h1, b2n_lt _, h.g.isLt, h2, h3, trivial⟩

theorem hdrOf_code (h : Hdr) : hdrOf (b2n h.s) h.g.val = h := by
  obtain ⟨s, g⟩ := h
  have hg : g.val % 8 = g.val := Nat.mod_eq_of_lt g.isLt
  cases s <;> simp [hdrOf, b2n, hg]

/-- The header, the class and the body of an encoded word are what was packed. -/
theorem fields_hdr (set cls : Nat) (h : Hdr) (body : Nat) (h1 : set < 2) (h2 : cls < 4) (h3 : body < 2 ^ 25) :
    fields [1, 1, 3, 2, 25] (BitVec.ofNat 32 (encHdr set cls h body)).toNat
      = [set, b2n h.s, h.g.val, cls, body] := by
  rw [BitVec.toNat_ofNat, Nat.mod_eq_of_lt (encHdr_lt set cls h body h1 h2 h3)]
  exact fields_packBits [(1, set), (1, b2n h.s), (3, h.g.val), (2, cls), (25, body)]
    ⟨h1, b2n_lt _, h.g.isLt, h2, h3, trivial⟩

theorem decode_classA (h : Hdr) (body : Nat) (l : Word) (hb : body < 2 ^ 25) :
    decode (BitVec.ofNat 32 (encHdr 0 0 h body)) l = decodeA h l body := by
  rw [decode, decodeNat, fields_hdr 0 0 h body (by decide) (by decide) hb]
  exact congrArg (fun k => decodeA k l body) (hdrOf_code h)

theorem decode_classF (h : Hdr) (body : Nat) (l : Word) (hb : body < 2 ^ 25) :
    decode (BitVec.ofNat 32 (encHdr 0 1 h body)) l = decodeF h l body := by
  rw [decode, decodeNat, fields_hdr 0 1 h body (by decide) (by decide) hb]
  exact congrArg (fun k => decodeF k l body) (hdrOf_code h)

theorem decode_classM (h : Hdr) (body : Nat) (l : Word) (hb : body < 2 ^ 25) :
    decode (BitVec.ofNat 32 (encHdr 0 2 h body)) l = decodeM h l body := by
  rw [decode, decodeNat, fields_hdr 0 2 h body (by decide) (by decide) hb]
  exact congrArg (fun k => decodeM k l body) (hdrOf_code h)

theorem decode_classX (h : Hdr) (body : Nat) (l : Word) (hb : body < 2 ^ 25) :
    decode (BitVec.ofNat 32 (encHdr 0 3 h body)) l = decodeX h body := by
  rw [decode, decodeNat, fields_hdr 0 3 h body (by decide) (by decide) hb]
  exact congrArg (fun k => decodeX k body) (hdrOf_code h)

theorem decode_classUA (h : Hdr) (body : Nat) (l : Word) (hb : body < 2 ^ 25) :
    decode (BitVec.ofNat 32 (encHdr 1 0 h body)) l = decodeUA h l body := by
  rw [decode, decodeNat, fields_hdr 1 0 h body (by decide) (by decide) hb]
  exact congrArg (fun k => decodeUA k l body) (hdrOf_code h)

theorem decode_classUM (h : Hdr) (body : Nat) (l : Word) (hb : body < 2 ^ 25) :
    decode (BitVec.ofNat 32 (encHdr 1 1 h body)) l = decodeUM h l body := by
  rw [decode, decodeNat, fields_hdr 1 1 h body (by decide) (by decide) hb]
  exact congrArg (fun k => decodeUM k l body) (hdrOf_code h)

theorem decode_classUE (h : Hdr) (body : Nat) (l : Word) (hb : body < 2 ^ 25) :
    decode (BitVec.ofNat 32 (encHdr 1 2 h body)) l = decodeUE h l body := by
  rw [decode, decodeNat, fields_hdr 1 2 h body (by decide) (by decide) hb]
  exact congrArg (fun k => decodeUE k l body) (hdrOf_code h)

theorem decode_classUX (h : Hdr) (body : Nat) (l : Word) (hb : body < 2 ^ 25) :
    decode (BitVec.ofNat 32 (encHdr 1 3 h body)) l = decodeUX h body := by
  rw [decode, decodeNat, fields_hdr 1 3 h body (by decide) (by decide) hb]
  exact congrArg (fun k => decodeUX k body) (hdrOf_code h)


/-- A word of class A decodes by its four fields. -/
theorem classA_word {op d a b : Nat} {h : Hdr} {l : Word} {t : Dec Instr} (ho : op < 2 ^ 6) (hd : d < 2 ^ 6)
    (ha : a < 2 ^ 7) (hb : b < 2 ^ 6) (hop : ∀ w, fields [6, 6, 7, 6] w = [op, d, a, b] → decodeA h l w = t) :
    decode (BitVec.ofNat 32 (encHdr 0 0 h (packBits [(6, op), (6, d), (7, a), (6, b)]))) l = t := by
  have hf : Fits [(6, op), (6, d), (7, a), (6, b)] := ⟨ho, hd, ha, hb, trivial⟩
  rw [decode_classA _ _ _ (packBits_lt _ hf), hop _ (fields_packBits _ hf)]

/-- A word of class F decodes by its four fields. -/
theorem classF_word {op d a b : Nat} {h : Hdr} {l : Word} {t : Dec Instr} (ho : op < 2 ^ 6) (hd : d < 2 ^ 6)
    (ha : a < 2 ^ 7) (hb : b < 2 ^ 6) (hop : ∀ w, fields [6, 6, 7, 6] w = [op, d, a, b] → decodeF h l w = t) :
    decode (BitVec.ofNat 32 (encHdr 0 1 h (packBits [(6, op), (6, d), (7, a), (6, b)]))) l = t := by
  have hf : Fits [(6, op), (6, d), (7, a), (6, b)] := ⟨ho, hd, ha, hb, trivial⟩
  rw [decode_classF _ _ _ (packBits_lt _ hf), hop _ (fields_packBits _ hf)]

/-- A word of class M decodes by its four fields. -/
theorem classM_word {op d a m : Nat} {h : Hdr} {l : Word} {t : Dec Instr} (ho : op < 2 ^ 4) (hd : d < 2 ^ 6)
    (ha : a < 2 ^ 7) (hm : m < 2 ^ 8) (hop : ∀ w, fields [4, 6, 7, 8] w = [op, d, a, m] → decodeM h l w = t) :
    decode (BitVec.ofNat 32 (encHdr 0 2 h (packBits [(4, op), (6, d), (7, a), (8, m)]))) l = t := by
  have hf : Fits [(4, op), (6, d), (7, a), (8, m)] := ⟨ho, hd, ha, hm, trivial⟩
  rw [decode_classM _ _ _ (packBits_lt _ hf), hop _ (fields_packBits _ hf)]

/-- A word of class UA decodes by its four fields. -/
theorem classUA_word {op d a b : Nat} {h : Hdr} {l : Word} {t : Dec Instr} (ho : op < 2 ^ 6) (hd : d < 2 ^ 5)
    (ha : a < 2 ^ 6) (hb : b < 2 ^ 8) (hop : ∀ w, fields [6, 5, 6, 8] w = [op, d, a, b] → decodeUA h l w = t) :
    decode (BitVec.ofNat 32 (encHdr 1 0 h (packBits [(6, op), (5, d), (6, a), (8, b)]))) l = t := by
  have hf : Fits [(6, op), (5, d), (6, a), (8, b)] := ⟨ho, hd, ha, hb, trivial⟩
  rw [decode_classUA _ _ _ (packBits_lt _ hf), hop _ (fields_packBits _ hf)]

/-- A word of class UM decodes by its four fields. -/
theorem classUM_word {op d a m : Nat} {h : Hdr} {l : Word} {t : Dec Instr} (ho : op < 2 ^ 4) (hd : d < 2 ^ 5)
    (ha : a < 2 ^ 6) (hm : m < 2 ^ 10) (hop : ∀ w, fields [4, 5, 6, 10] w = [op, d, a, m] → decodeUM h l w = t) :
    decode (BitVec.ofNat 32 (encHdr 1 1 h (packBits [(4, op), (5, d), (6, a), (10, m)]))) l = t := by
  have hf : Fits [(4, op), (5, d), (6, a), (10, m)] := ⟨ho, hd, ha, hm, trivial⟩
  rw [decode_classUM _ _ _ (packBits_lt _ hf), hop _ (fields_packBits _ hf)]

/-- A word of class X decodes by its opcode and its 19 bits. -/
theorem classX_word {op q : Nat} {h : Hdr} {l : Word} {t : Dec Instr} (ho : op < 2 ^ 6) (hq : q < 2 ^ 19)
    (hop : ∀ w, fields [6, 19] w = [op, q] → decodeX h w = t) :
    decode (BitVec.ofNat 32 (encHdr 0 3 h (packBits [(6, op), (19, q)]))) l = t := by
  have hf : Fits [(6, op), (19, q)] := ⟨ho, hq, trivial⟩
  rw [decode_classX _ _ _ (packBits_lt _ hf), hop _ (fields_packBits _ hf)]

/-- A word of class UE decodes by its opcode and its 19 bits. -/
theorem classUE_word {op q : Nat} {h : Hdr} {l : Word} {t : Dec Instr} (ho : op < 2 ^ 6) (hq : q < 2 ^ 19)
    (hop : ∀ w, fields [6, 19] w = [op, q] → decodeUE h l w = t) :
    decode (BitVec.ofNat 32 (encHdr 1 2 h (packBits [(6, op), (19, q)]))) l = t := by
  have hf : Fits [(6, op), (19, q)] := ⟨ho, hq, trivial⟩
  rw [decode_classUE _ _ _ (packBits_lt _ hf), hop _ (fields_packBits _ hf)]

/-- A word of class UX decodes by its opcode and its 19 bits. -/
theorem classUX_word {op q : Nat} {h : Hdr} {l : Word} {t : Dec Instr} (ho : op < 2 ^ 6) (hq : q < 2 ^ 19)
    (hop : ∀ w, fields [6, 19] w = [op, q] → decodeUX h w = t) :
    decode (BitVec.ofNat 32 (encHdr 1 3 h (packBits [(6, op), (19, q)]))) l = t := by
  have hf : Fits [(6, op), (19, q)] := ⟨ho, hq, trivial⟩
  rw [decode_classUX _ _ _ (packBits_lt _ hf), hop _ (fields_packBits _ hf)]

theorem Dec.bin_code (f : Fin 64 → LaneA → Fin 64 → Instr) (d : Fin 64) (a : LaneA) (b : Fin 64) (l : Word) :
    Dec.bin f d.val a.code b.val (a.literal.getD l) = .ok (f d a b) := by
  simp [Dec.bin, Dec.laneA_code]

theorem Dec.bin64_code (f : Fin 64 → LaneA → Fin 64 → Instr) (d : Fin 64) (a : LaneA) (b : Fin 64) (l : Word)
    (h : a.ok64 = true) : Dec.bin64 f d.val a.code b.val (a.literal.getD l) = .ok (f d a b) := by
  simp [Dec.bin64, Dec.laneA64_code a l h]

theorem Dec.un_code (f : Fin 64 → LaneA → Instr) (d : Fin 64) (a : LaneA) (l : Word) :
    Dec.un f d.val a.code (0 : Fin 64).val (a.literal.getD l) = .ok (f d a) := by
  simp [Dec.un, Dec.laneA_code]

theorem Dec.un64_code (f : Fin 64 → LaneA → Instr) (d : Fin 64) (a : LaneA) (l : Word) (h : a.ok64 = true) :
    Dec.un64 f d.val a.code (0 : Fin 64).val (a.literal.getD l) = .ok (f d a) := by
  simp [Dec.un64, Dec.laneA64_code a l h]

theorem Dec.prd_val (k : Fin 8) (h : (k.val != 0) = true) : Dec.prd k.val = .ok k := by
  rw [Dec.prd, h, Dec.guard_true, Dec.fin_val]

theorem pair33_lt (k : Fin 8) (c : Nat) (hc : c < 2 ^ 3) : packBits [(3, k.val), (3, c)] < 2 ^ 6 :=
  packBits_lt [(3, k.val), (3, c)] ⟨k.isLt, hc, trivial⟩

theorem Dec.pred_code {γ : Type} (cond : Nat → Option γ) (f : Fin 8 → γ → LaneA → Fin 64 → Instr) (k : Fin 8)
    (c : Nat) (x : γ) (a : LaneA) (b : Fin 64) (l : Word) (hk : (k.val != 0) = true) (hc : c < 2 ^ 3)
    (hx : cond c = some x) :
    Dec.pred cond f (packBits [(3, k.val), (3, c)]) a.code b.val (a.literal.getD l) = .ok (f k x a b) := by
  have e : fields [3, 3] (packBits [(3, k.val), (3, c)]) = [k.val, c] :=
    fields_packBits [(3, k.val), (3, c)] ⟨k.isLt, hc, trivial⟩
  simp [Dec.pred, e, Dec.prd_val k hk, hx, Dec.laneA_code]

theorem Dec.predI_code (f : Fin 8 → ICond → LaneA → Fin 64 → Instr) (k : Fin 8) (c : ICond) (a : LaneA) (b : Fin 64)
    (l : Word) (hk : (k.val != 0) = true) :
    Dec.predI f (packBits [(3, k.val), (3, c.code)]) a.code b.val (a.literal.getD l) = .ok (f k c a b) :=
  Dec.pred_code _ f k _ c a b l hk c.code_lt c.ofCode_code

theorem Dec.predF_code (f : Fin 8 → FCond → LaneA → Fin 64 → Instr) (k : Fin 8) (c : FCond) (a : LaneA) (b : Fin 64)
    (l : Word) (hk : (k.val != 0) = true) :
    Dec.predF f (packBits [(3, k.val), (3, c.code)]) a.code b.val (a.literal.getD l) = .ok (f k c a b) :=
  Dec.pred_code _ f k _ c a b l hk c.code_lt c.ofCode_code

theorem Dec.predH_code (f : Fin 8 → FCond → LaneA → Fin 64 → Instr) (k : Fin 8) (c : FCond) (a : LaneA) (b : Fin 64)
    (l : Word) (hk : (k.val != 0 && k.val != 7) = true) :
    Dec.predH f (packBits [(3, k.val), (3, c.code)]) a.code b.val (a.literal.getD l) = .ok (f k c a b) := by
  rw [Bool.and_eq_true] at hk
  have hd : packBits [(3, k.val), (3, c.code)] / 8 = k.val := by
    have := c.code_lt
    simp [packBits]; omega
  rw [Dec.predH, hd, hk.2, Dec.guard_true, Dec.pred_code _ f k _ c a b l hk.1 c.code_lt c.ofCode_code]

theorem Dec.selR_code (f : Fin 64 → LaneA → RndSel → Instr) (d : Fin 64) (a : LaneA) (e : RndSel) (l : Word) :
    Dec.selR f d.val a.code e.code (a.literal.getD l) = .ok (f d a e) := by
  simp [Dec.selR, Dec.laneA_code]

theorem Dec.selS_code (f : Fin 64 → LaneA → SfnFn → Instr) (d : Fin 64) (a : LaneA) (e : SfnFn) (l : Word) :
    Dec.selS f d.val a.code e.code (a.literal.getD l) = .ok (f d a e) := by
  simp [Dec.selS, Dec.laneA_code]

theorem Dec.selC_code (f : Fin 64 → LaneA → Fin 64 → Instr) (d : Fin 64) (a : LaneA) (e : Fin 64) (l : Word)
    (h : cvtOk e = true) : Dec.selC f d.val a.code e.val (a.literal.getD l) = .ok (f d a e) := by
  rw [cvtOk] at h
  rw [Dec.selC, h, Dec.guard_true, Dec.bin_code]

theorem Dec.selQ_code (f : Fin 64 → LaneA → Fin 64 → Instr) (d : Fin 64) (a : LaneA) (e : Fin 64) (l : Word)
    (h : (cvtqOk e && (!cvtqWide e || a.ok64)) = true) :
    Dec.selQ f d.val a.code e.val (a.literal.getD l) = .ok (f d a e) := by
  rw [Bool.and_eq_true] at h
  have h1 := h.1
  have h2 := h.2
  rw [cvtqOk] at h1
  rw [Dec.selQ, h1, Dec.guard_true]
  unfold cvtqWide at h2
  cases hq : (e.val == 0x35 || e.val == 0x36)
  · exact Dec.bin_code f d a e l
  · rw [hq] at h2
    exact Dec.bin64_code f d a e l (by simpa using h2)

theorem pair35_lt (w : Fin 8) (f : Nat) (hf : f < 2 ^ 5) : packBits [(3, w.val), (5, f)] < 2 ^ 8 :=
  packBits_lt [(3, w.val), (5, f)] ⟨w.isLt, hf, trivial⟩

theorem trip323_lt (p : Scope) (r : Order) (t : Nat) (ht : t < 2 ^ 3) :
    packBits [(3, p.code), (2, r.code), (3, t)] < 2 ^ 8 :=
  packBits_lt [(3, p.code), (2, r.code), (3, t)] ⟨p.code_lt, r.code_lt, ht, trivial⟩

theorem fields_323 (p : Scope) (r : Order) (t : Nat) (ht : t < 2 ^ 3) :
    fields [3, 2, 3] (packBits [(3, p.code), (2, r.code), (3, t)]) = [p.code, r.code, t] :=
  fields_packBits [(3, p.code), (2, r.code), (3, t)] ⟨p.code_lt, r.code_lt, ht, trivial⟩

theorem Dec.sp_code (f : Fin 64 → LaneA → Fin 8 → Fin 32 → Instr) (d : Fin 64) (a : LaneA) (w : Fin 8) (o : Fin 32)
    (l : Word) :
    Dec.sp f d.val a.code (packBits [(3, w.val), (5, o.val)]) (a.literal.getD l) = .ok (f d a w o) := by
  have e : fields [3, 5] (packBits [(3, w.val), (5, o.val)]) = [w.val, o.val] :=
    fields_packBits [(3, w.val), (5, o.val)] ⟨w.isLt, o.isLt, trivial⟩
  simp [Dec.sp, e, Dec.laneA_code]

theorem Dec.combo_code (store : Bool) (p : Scope) (r : Order) (h : accessOk store p r = true) :
    Dec.combo store p.code r.code = true := by
  revert h; cases store <;> cases p <;> cases r <;> decide

theorem Dec.gl_code (store : Bool) (f : Fin 64 → LaneA → Scope → Order → Hint → Instr) (d : Fin 64) (a : LaneA)
    (p : Scope) (r : Order) (t : Hint) (l : Word) (h : (a.ok64 && accessOk store p r) = true) :
    Dec.gl store f d.val a.code (packBits [(3, p.code), (2, r.code), (3, t.code)]) (a.literal.getD l)
      = .ok (f d a p r t) := by
  rw [Bool.and_eq_true] at h
  simp [Dec.gl, fields_323 p r t.code t.code_lt, Dec.combo_code store p r h.2, Dec.laneA64_code a l h.1]

theorem Dec.ats_code (f : Fin 64 → LaneA → Fin 8 → AtFn → Instr) (d : Fin 64) (a : LaneA) (w : Fin 8) (u : AtFn)
    (l : Word) :
    Dec.ats f d.val a.code (packBits [(3, w.val), (5, u.code)]) (a.literal.getD l) = .ok (f d a w u) := by
  have hu := u.code_lt
  have e0 : packBits [(3, w.val), (5, u.code)] = packBits [(3, w.val), (2, 0), (3, u.code)] := by simp [packBits]
  have e : fields [3, 2, 3] (packBits [(3, w.val), (2, 0), (3, u.code)]) = [w.val, 0, u.code] :=
    fields_packBits [(3, w.val), (2, 0), (3, u.code)] ⟨w.isLt, by decide, hu, trivial⟩
  rw [e0]
  simp [Dec.ats, e, Dec.laneA_code]

theorem Scope.code_ne (p : Scope) (h : atomicOk p = true) : (p.code != 0) = true := by
  revert h; cases p <;> decide

theorem Dec.atomic_code {γ : Type} (fn : Nat → Option γ) (f : Fin 64 → LaneA → Scope → Order → γ → Instr) (d : Fin 64)
    (a : LaneA) (p : Scope) (r : Order) (u : Nat) (x : γ) (l : Word) (h : (a.ok64 && atomicOk p) = true)
    (hu : u < 2 ^ 3) (hx : fn u = some x) :
    Dec.atomic fn f d.val a.code (packBits [(3, p.code), (2, r.code), (3, u)]) (a.literal.getD l)
      = .ok (f d a p r x) := by
  rw [Bool.and_eq_true] at h
  simp [Dec.atomic, fields_323 p r u hu, p.code_ne h.2, Dec.laneA64_code a l h.1, hx]

theorem Dec.atg_code (f : Fin 64 → LaneA → Scope → Order → AtFn → Instr) (d : Fin 64) (a : LaneA) (p : Scope)
    (r : Order) (u : AtFn) (l : Word) (h : (a.ok64 && atomicOk p) = true) :
    Dec.atg f d.val a.code (packBits [(3, p.code), (2, r.code), (3, u.code)]) (a.literal.getD l)
      = .ok (f d a p r u) :=
  Dec.atomic_code _ f d a p r _ u l h u.code_lt u.ofCode_code

theorem Dec.atgx_code (f : Fin 64 → LaneA → Scope → Order → AtxFn → Instr) (d : Fin 64) (a : LaneA) (p : Scope)
    (r : Order) (u : AtxFn) (l : Word) (h : (a.ok64 && atomicOk p) = true) :
    Dec.atgx f d.val a.code (packBits [(3, p.code), (2, r.code), (3, u.code)]) (a.literal.getD l)
      = .ok (f d a p r u) :=
  Dec.atomic_code _ f d a p r _ u l h u.code_lt u.ofCode_code

theorem Dec.prf_code (f : LaneA → Hint → Instr) (a : LaneA) (t : Hint) (l : Word) (h : a.ok64 = true) :
    Dec.prf f (0 : Fin 64).val a.code (packBits [(3, Scope.plain.code), (2, Order.relaxed.code), (3, t.code)])
      (a.literal.getD l) = .ok (f a t) := by
  have e0 : packBits [(3, Scope.plain.code), (2, Order.relaxed.code), (3, t.code)] = packBits [(5, 0), (3, t.code)] := by
    simp [packBits, Scope.code, Order.code]
  have e : fields [5, 3] (packBits [(5, 0), (3, t.code)]) = [0, t.code] :=
    fields_packBits [(5, 0), (3, t.code)] ⟨by decide, t.code_lt, trivial⟩
  rw [e0]
  simp [Dec.prf, e, Dec.laneA64_code a l h]

/-- Reading both operands of a uniform word with its one literal. -/
theorem Dec.uniAB_code (a : UniA) (b : UniB) (l : Word) (h : oneLiteral a b = true) :
    (!(a.code == 63 && b.code == 255)) = true ∧
      Dec.uniA ((a.literal.orElse fun _ => b.literal).getD l) a.code = .ok a ∧
      Dec.uniB ((a.literal.orElse fun _ => b.literal).getD l) b.code = .ok b := by
  cases a with
  | s r => exact ⟨by have := r.isLt; simp [UniA.code]; omega, by simp [Dec.uniA, UniA.code], Dec.uniB_code b l⟩
  | sp r =>
    exact ⟨by have := r.isLt; simp [UniA.code]; omega, by simp [Dec.uniA, UniA.code, show ¬ 32 + r.val < 32 by omega],
      Dec.uniB_code b l⟩
  | lit w =>
    cases b with
    | lit v => cases h
    | s r => exact ⟨by have := r.isLt; simp [UniA.code, UniB.code]; omega, Dec.uniA_code (.lit w) l, by simp [Dec.uniB, UniB.code]⟩
    | sp r =>
      exact ⟨by have := r.isLt; simp [UniA.code, UniB.code]; omega, Dec.uniA_code (.lit w) l,
        by simp [Dec.uniB, UniB.code, show ¬ 32 + r.val < 32 by omega]⟩
    | imm r =>
      have := r.isLt
      exact ⟨by simp [UniA.code, UniB.code]; omega, Dec.uniA_code (.lit w) l,
        by simp [Dec.uniB, UniB.code, show ¬ 64 + r.val < 32 by omega, show ¬ 64 + r.val - 32 < 16 by omega,
          show ¬ 64 + r.val < 64 by omega]⟩

theorem Dec.ubin_code (f : Fin 32 → UniA → UniB → Instr) (d : Fin 32) (a : UniA) (b : UniB) (l : Word)
    (h : oneLiteral a b = true) :
    Dec.ubin f d.val a.code b.code ((a.literal.orElse fun _ => b.literal).getD l) = .ok (f d a b) := by
  obtain ⟨h1, h2, h3⟩ := Dec.uniAB_code a b l h
  rw [Dec.ubin, h1, Dec.guard_true, h2, h3]; simp

theorem Dec.ubin64_code (f : Fin 32 → UniA → UniB → Instr) (d : Fin 32) (a : UniA) (b : UniB) (l : Word)
    (h : (oneLiteral a b && a.ok64 && b.ok64) = true) :
    Dec.ubin64 f d.val a.code b.code ((a.literal.orElse fun _ => b.literal).getD l) = .ok (f d a b) := by
  rw [Bool.and_eq_true, Bool.and_eq_true] at h
  obtain ⟨h1, h2, h3⟩ := Dec.uniAB_code a b l h.1.1
  have ha := Dec.uniA64_code a l h.1.2
  have hb := Dec.uniB64_code b l h.2
  have ga : (a.code != 44 && a.code != 46) = true := by
    cases hg : (a.code != 44 && a.code != 46)
    · rw [Dec.uniA64, hg, Dec.uniA_code] at ha; simp [Dec.guard] at ha
    · rfl
  have gb : (b.code != 44 && b.code != 46) = true := by
    cases hg : (b.code != 44 && b.code != 46)
    · rw [Dec.uniB64, hg, Dec.uniB_code] at hb; simp [Dec.guard] at hb
    · rfl
  rw [Dec.ubin64, h1, Dec.guard_true, Dec.uniA64, ga, Dec.guard_true, Dec.uniB64, gb, Dec.guard_true, h2, h3]; simp

theorem Dec.uun_code (f : Fin 32 → UniB → Instr) (d : Fin 32) (b : UniB) (l : Word) :
    Dec.uun f d.val 0 b.code (b.literal.getD l) = .ok (f d b) := by
  simp [Dec.uun, Dec.uniB_code]

theorem Dec.usel_code (f : Fin 32 → Fin 64 → UniB → Instr) (d : Fin 32) (e : Fin 64) (b : UniB) (l : Word)
    (h : cvtOk e = true) : Dec.usel f d.val e.val b.code (b.literal.getD l) = .ok (f d e b) := by
  rw [cvtOk] at h
  rw [Dec.usel, h, Dec.guard_true]
  simp [Dec.uniB_code]

theorem pair32_lt (k : Fin 8) (c : UCond) : packBits [(3, k.val), (2, c.code)] < 2 ^ 5 :=
  packBits_lt [(3, k.val), (2, c.code)] ⟨k.isLt, c.code_lt, trivial⟩

theorem Dec.upred_code (f : Fin 8 → UCond → UniA → UniB → Instr) (k : Fin 8) (c : UCond) (a : UniA) (b : UniB)
    (l : Word) (h : (k.val != 0 && oneLiteral a b) = true) :
    Dec.upred f (packBits [(3, k.val), (2, c.code)]) a.code b.code
      ((a.literal.orElse fun _ => b.literal).getD l) = .ok (f k c a b) := by
  rw [Bool.and_eq_true] at h
  obtain ⟨h1, h2, h3⟩ := Dec.uniAB_code a b l h.2
  have e : fields [3, 2] (packBits [(3, k.val), (2, c.code)]) = [k.val, c.code] :=
    fields_packBits [(3, k.val), (2, c.code)] ⟨k.isLt, c.code_lt, trivial⟩
  rw [Dec.upred, e]
  show Dec.guard 6 _ _ = _
  rw [h1, Dec.guard_true, h2, h3, Dec.prd_val k h.1]; simp

theorem trip325_lt (p : Scope) (r : Order) (f : Nat) (hf : f < 2 ^ 5) :
    packBits [(3, p.code), (2, r.code), (5, f)] < 2 ^ 10 :=
  packBits_lt [(3, p.code), (2, r.code), (5, f)] ⟨p.code_lt, r.code_lt, hf, trivial⟩

theorem pair37_lt (w : Fin 8) (f : Fin 128) : packBits [(3, w.val), (7, f.val)] < 2 ^ 10 :=
  packBits_lt [(3, w.val), (7, f.val)] ⟨w.isLt, f.isLt, trivial⟩

theorem fields_37 (w : Fin 8) (o : Fin 128) :
    fields [3, 7] (packBits [(3, w.val), (7, o.val)]) = [w.val, o.val] :=
  fields_packBits [(3, w.val), (7, o.val)] ⟨w.isLt, o.isLt, trivial⟩

theorem Dec.ugl_code (store : Bool) (f : Fin 32 → UniA → Scope → Order → Fin 32 → Instr) (d : Fin 32) (a : UniA)
    (p : Scope) (r : Order) (o : Fin 32) (l : Word) (h : (a.ok64 && accessOk store p r) = true) :
    Dec.ugl store f d.val a.code (packBits [(3, p.code), (2, r.code), (5, o.val)]) (a.literal.getD l)
      = .ok (f d a p r o) := by
  rw [Bool.and_eq_true] at h
  have e : fields [3, 2, 5] (packBits [(3, p.code), (2, r.code), (5, o.val)]) = [p.code, r.code, o.val] :=
    fields_packBits [(3, p.code), (2, r.code), (5, o.val)] ⟨p.code_lt, r.code_lt, o.isLt, trivial⟩
  simp [Dec.ugl, e, Dec.combo_code store p r h.2, Dec.uniA64_code a l h.1]

theorem Dec.usp_code (f : Fin 32 → UniA → Fin 8 → Fin 128 → Instr) (d : Fin 32) (a : UniA) (w : Fin 8) (o : Fin 128)
    (l : Word) :
    Dec.usp f d.val a.code (packBits [(3, w.val), (7, o.val)]) (a.literal.getD l) = .ok (f d a w o) := by
  simp [Dec.usp, fields_37 w o, Dec.uniA_code]

theorem Dec.usldk_code (f : Fin 32 → UniA → Fin 128 → Instr) (d : Fin 32) (a : UniA) (o : Fin 128) (l : Word) :
    Dec.usldk f d.val a.code (packBits [(3, (0 : Fin 8).val), (7, o.val)]) (a.literal.getD l) = .ok (f d a o) := by
  simp only [Dec.usldk, fields_37 0 o]
  simp [Dec.uniA_code]

theorem Dec.usatg_code (f : Fin 32 → UniA → Scope → Order → AtFn → Instr) (d : Fin 32) (a : UniA) (p : Scope)
    (r : Order) (u : AtFn) (l : Word) (h : (a.ok64 && atomicOk p) = true) :
    Dec.usatg f d.val a.code (packBits [(3, p.code), (2, r.code), (5, 4 * u.code)]) (a.literal.getD l)
      = .ok (f d a p r u) := by
  rw [Bool.and_eq_true] at h
  have e0 : packBits [(3, p.code), (2, r.code), (5, 4 * u.code)] = packBits [(3, p.code), (2, r.code), (3, u.code), (2, 0)] := by
    simp [packBits]; omega
  have e : fields [3, 2, 3, 2] (packBits [(3, p.code), (2, r.code), (3, u.code), (2, 0)])
      = [p.code, r.code, u.code, 0] :=
    fields_packBits [(3, p.code), (2, r.code), (3, u.code), (2, 0)] ⟨p.code_lt, r.code_lt, u.code_lt, by decide, trivial⟩
  rw [e0]
  simp [Dec.usatg, e, p.code_ne h.2, Dec.uniA64_code a l h.1]

theorem Dec.usprf_code (f : UniA → Fin 32 → Instr) (a : UniA) (o : Fin 32) (l : Word) (h : a.ok64 = true) :
    Dec.usprf f (0 : Fin 32).val a.code (packBits [(3, Scope.plain.code), (2, Order.relaxed.code), (5, o.val)])
      (a.literal.getD l) = .ok (f a o) := by
  have e0 : packBits [(3, Scope.plain.code), (2, Order.relaxed.code), (5, o.val)] = packBits [(5, 0), (5, o.val)] := by
    simp [packBits, Scope.code, Order.code]
  have e : fields [5, 5] (packBits [(5, 0), (5, o.val)]) = [0, o.val] :=
    fields_packBits [(5, 0), (5, o.val)] ⟨by decide, o.isLt, trivial⟩
  rw [e0]
  simp [Dec.usprf, e, Dec.uniA64_code a l h]

/-- The six fields of an MMA form. -/
theorem fits_mma (m : MmaArgs) :
    Fits [(4, m.ac.val), (4, m.ta.val), (3, m.wb.val), (1, b2n m.t), (3, m.dm.code), (4, m.kc.val)] :=
  ⟨Nat.lt_of_lt_of_le m.ac.isLt (show 10 ≤ 2 ^ 4 by decide), m.ta.isLt, m.wb.isLt, b2n_lt _,
    Nat.lt_of_lt_of_le m.dm.code_lt (show 8 ≤ 2 ^ 3 by decide), m.kc.isLt, trivial⟩

theorem Dec.mmaArgs_code (form : MmaForm) (m : MmaArgs) (h : m.dm.permits form = true) :
    Dec.mmaArgs form (packBits [(4, m.ac.val), (4, m.ta.val), (3, m.wb.val), (1, b2n m.t), (3, m.dm.code), (4, m.kc.val)])
      = .ok m := by
  have e : fields [4, 4, 3, 1, 3, 4]
      (packBits [(4, m.ac.val), (4, m.ta.val), (3, m.wb.val), (1, b2n m.t), (3, m.dm.code), (4, m.kc.val)])
        = [m.ac.val, m.ta.val, m.wb.val, b2n m.t, m.dm.code, m.kc.val] := fields_packBits _ (fits_mma m)
  simp [Dec.mmaArgs, e, h]

theorem Dec.mma_code (form : MmaForm) (f : MmaArgs → Instr) (m : MmaArgs) (h : m.dm.permits form = true) :
    Dec.mma form f (packBits [(4, m.ac.val), (4, m.ta.val), (3, m.wb.val), (1, b2n m.t), (3, m.dm.code), (4, m.kc.val)])
      = .ok (f m) := by
  rw [Dec.mma, Dec.mmaArgs_code form m h, Dec.ap_ok]

theorem Dec.mmaScale_code (form : MmaForm) (t : MmaLit) (l : Word) (h : t.okFor form = true) :
    Dec.mmaScale form (t.literal.getD l) = .ok t := by
  have hf : Fits [(16, 0), (2, b2n t.ones), (2, t.sel.val), (6, t.svb.val), (6, t.sstr.val)] :=
    ⟨by decide, Nat.lt_of_lt_of_le (b2n_lt _) (show 2 ≤ 2 ^ 2 by decide), t.sel.isLt, t.svb.isLt, t.sstr.isLt, trivial⟩
  have e : fields [16, 2, 2, 6, 6] (t.literal.getD l).toNat
      = [0, b2n t.ones, t.sel.val, t.svb.val, t.sstr.val] := by
    rw [MmaLit.literal, Option.getD_some, BitVec.toNat_ofNat, Nat.mod_eq_of_lt (show _ < 2 ^ 32 from packBits_lt _ hf)]
    exact fields_packBits _ hf
  have hb := b2n_lt t.ones
  rw [MmaLit.okFor] at h
  simp only [Dec.mmaScale, e]
  cases hx : (form == .mmaI8e4 || form == .mmaBfmx4)
  · simp [hb]
  · rw [hx] at h
    simp only [if_true, Bool.and_eq_true, beq_iff_eq] at h
    obtain ⟨⟨⟨h1, h2⟩, h3⟩, h4⟩ := h
    simp [h1, h2, h3, h4, b2n]
    obtain ⟨a, b, c, d⟩ := t
    simp only at h1 h2 h3 h4
    simp [Dec.fin, Dec.bool, h1, Fin.ext_iff, h2, h3, h4]

theorem Dec.mmaLit_code (form : MmaForm) (f : MmaArgs → MmaLit → Instr) (m : MmaArgs) (t : MmaLit) (l : Word)
    (h : (m.dm.permits form && t.okFor form) = true) :
    Dec.mmaLit form f (packBits [(4, m.ac.val), (4, m.ta.val), (3, m.wb.val), (1, b2n m.t), (3, m.dm.code), (4, m.kc.val)])
      (t.literal.getD l) = .ok (f m t) := by
  rw [Bool.and_eq_true] at h
  rw [Dec.mmaLit, Dec.mmaArgs_code form m h.1, Dec.mmaScale_code form t l h.2, Dec.ap_ok, Dec.ap_ok]

@[simp] theorem Dec.lvl_val (x : Fin 3) : Dec.lvl x.val = .ok x := Dec.fin_val x

@[simp] theorem Dec.sr_val (x : Fin 23) : Dec.sr x.val = .ok x := by simp [Dec.sr]

theorem Dec.fenceScope_code (p : Scope) (h : (p != .plain) = true) : Dec.fenceScope p.code = .ok p := by
  revert h; cases p <;> decide

theorem Dec.fenceOrder_code (r : Order) (h : (r != .relaxed) = true) : Dec.fenceOrder r.code = .ok r := by
  revert h; cases r <;> decide

theorem encSrc6_lt (w : Option (Fin 64)) : encSrc6 w < 2 ^ 7 := by
  cases w <;> simp [encSrc6]; omega

theorem encSrc5_lt (w : Option (Fin 32)) : 4 * encSrc5 w < 2 ^ 8 := by
  cases w <;> simp [encSrc5]; omega

theorem Dec.src6_code (w : Option (Fin 64)) : Dec.src6 (encSrc6 w) = .ok w := by
  cases w with
  | none => rfl
  | some b =>
    have e : fields [1, 6] (64 + b.val) = [1, b.val] := by
      have := fields_packBits [(1, 1), (6, b.val)] ⟨by decide, b.isLt, trivial⟩
      simpa [packBits] using this
    simp [Dec.src6, encSrc6, e]

theorem Dec.src5_code (w : Option (Fin 32)) : Dec.src5 (4 * encSrc5 w) = .ok w := by
  cases w with
  | none => rfl
  | some b =>
    have e : fields [1, 5, 2] (4 * (32 + b.val)) = [1, b.val, 0] := by
      have := fields_packBits [(1, 1), (5, b.val), (2, 0)] ⟨by decide, b.isLt, by decide, trivial⟩
      have e0 : packBits [(1, 1), (5, b.val), (2, 0)] = 4 * (32 + b.val) := by simp [packBits]; omega
      rw [e0] at this
      exact this
    simp [Dec.src5, encSrc5, e]

theorem MsetArg.code_lt (m : MsetArg) : m.code < 2 ^ 19 := by
  cases m with
  | pair b => exact packBits_lt [(2, 0), (11, 0), (6, b.val)] ⟨by decide, by decide, b.isLt, trivial⟩
  | dflt => decide
  | andPair b => exact packBits_lt [(2, 2), (11, 0), (6, b.val)] ⟨by decide, by decide, b.isLt, trivial⟩

theorem Dec.mset_code (m : MsetArg) : Dec.mset m.code = .ok m := by
  cases m with
  | pair b =>
    have e : fields [2, 11, 6] (packBits [(2, 0), (11, 0), (6, b.val)]) = [0, 0, b.val] :=
      fields_packBits [(2, 0), (11, 0), (6, b.val)] ⟨by decide, by decide, b.isLt, trivial⟩
    simp [Dec.mset, MsetArg.code, e]
  | dflt => rfl
  | andPair b =>
    have e : fields [2, 11, 6] (packBits [(2, 2), (11, 0), (6, b.val)]) = [2, 0, b.val] :=
      fields_packBits [(2, 2), (11, 0), (6, b.val)] ⟨by decide, by decide, b.isLt, trivial⟩
    simp [Dec.mset, MsetArg.code, e]

theorem ShufSrc.code_lt (c : ShufSrc) : c.code < 2 ^ 7 := by
  cases c with
  | imm c => exact packBits_lt [(1, 1), (6, c.val)] ⟨by decide, c.isLt, trivial⟩
  | reg c => exact packBits_lt [(1, 0), (6, c.val)] ⟨by decide, c.isLt, trivial⟩

theorem Dec.shuf_code (c : ShufSrc) : Dec.shuf c.code = .ok c := by
  cases c with
  | imm c =>
    have e : fields [1, 6] (packBits [(1, 1), (6, c.val)]) = [1, c.val] :=
      fields_packBits [(1, 1), (6, c.val)] ⟨by decide, c.isLt, trivial⟩
    simp [Dec.shuf, ShufSrc.code, e]
  | reg c =>
    have e : fields [1, 6] (packBits [(1, 0), (6, c.val)]) = [0, c.val] :=
      fields_packBits [(1, 0), (6, c.val)] ⟨by decide, c.isLt, trivial⟩
    simp [Dec.shuf, ShufSrc.code, e]

theorem PmovArg.code_lt (m : PmovArg) : m.code < 2 ^ 19 := by
  cases m with
  | toPred v m =>
    exact packBits_lt [(1, 0), (6, v.val), (7, m.val), (5, 0)] ⟨by decide, v.isLt, m.isLt, by decide, trivial⟩
  | fromPred v =>
    exact packBits_lt [(1, 1), (6, v.val), (7, 0), (5, 0)] ⟨by decide, v.isLt, by decide, by decide, trivial⟩

theorem Dec.pmov_code (m : PmovArg) : Dec.pmov m.code = .ok m := by
  cases m with
  | toPred v m =>
    have e : fields [1, 6, 7, 5] (packBits [(1, 0), (6, v.val), (7, m.val), (5, 0)]) = [0, v.val, m.val, 0] :=
      fields_packBits [(1, 0), (6, v.val), (7, m.val), (5, 0)] ⟨by decide, v.isLt, m.isLt, by decide, trivial⟩
    simp [Dec.pmov, PmovArg.code, e]
  | fromPred v =>
    have e : fields [1, 6, 7, 5] (packBits [(1, 1), (6, v.val), (7, 0), (5, 0)]) = [1, v.val, 0, 0] :=
      fields_packBits [(1, 1), (6, v.val), (7, 0), (5, 0)] ⟨by decide, v.isLt, by decide, by decide, trivial⟩
    simp [Dec.pmov, PmovArg.code, e]

theorem TdrainSel.code_lt (x : TdrainSel) : x.code < 2 ^ 9 := by
  cases x with
  | body f r cb =>
    exact packBits_lt [(3, f.code), (3, r.code), (3, cb.val)]
      ⟨Nat.lt_of_lt_of_le f.code_lt (show 8 ≤ 2 ^ 3 by decide), Nat.lt_of_lt_of_le r.code_lt (show 8 ≤ 2 ^ 3 by decide), cb.isLt, trivial⟩
  | hdr cb =>
    exact packBits_lt [(3, 6), (3, 0), (3, cb.val)]
      ⟨by decide, by decide, Nat.lt_of_lt_of_le cb.isLt (show 2 ≤ 2 ^ 3 by decide), trivial⟩

theorem Dec.tdrain_code (x : TdrainSel) (h : x.ok = true) : Dec.tdrain x.code = .ok x := by
  cases x with
  | body f r cb =>
    have e : fields [3, 3, 3] (packBits [(3, f.code), (3, r.code), (3, cb.val)]) = [f.code, r.code, cb.val] :=
      fields_packBits [(3, f.code), (3, r.code), (3, cb.val)]
        ⟨Nat.lt_of_lt_of_le f.code_lt (show 8 ≤ 2 ^ 3 by decide), Nat.lt_of_lt_of_le r.code_lt (show 8 ≤ 2 ^ 3 by decide), cb.isLt, trivial⟩
    have hf : f.code ≠ 6 := by cases f <;> decide
    have hr : r.code < 5 := by revert h; cases r <;> simp [TdrainSel.ok, Rnd.code]
    simp [Dec.tdrain, TdrainSel.code, e, hf, hr]
  | hdr cb =>
    have e : fields [3, 3, 3] (packBits [(3, 6), (3, 0), (3, cb.val)]) = [6, 0, cb.val] :=
      fields_packBits [(3, 6), (3, 0), (3, cb.val)]
        ⟨by decide, by decide, Nat.lt_of_lt_of_le cb.isLt (show 2 ≤ 2 ^ 3 by decide), trivial⟩
    have := cb.isLt
    simp [Dec.tdrain, TdrainSel.code, e]
    omega

theorem SbarArg.code_lt (x : SbarArg) : x.code < 2 ^ 14 := by
  cases x with
  | arrive => decide
  | wait p => exact packBits_lt [(1, 1), (5, p.val), (8, 0)] ⟨by decide, p.isLt, by decide, trivial⟩

theorem Dec.sbar_code (x : SbarArg) : Dec.sbar x.code = .ok x := by
  cases x with
  | arrive => rfl
  | wait p =>
    have e : fields [1, 5, 8] (packBits [(1, 1), (5, p.val), (8, 0)]) = [1, p.val, 0] :=
      fields_packBits [(1, 1), (5, p.val), (8, 0)] ⟨by decide, p.isLt, by decide, trivial⟩
    simp [Dec.sbar, SbarArg.code, e]

theorem Dec.laneAq_code (a : LaneA) (h : (a.noLit && a.ok64) = true) : Dec.laneAq a.code = .ok a := by
  rw [Bool.and_eq_true] at h
  have hc : (a.code != 127) = true := by
    cases a with
    | v r => have := r.isLt; simp [LaneA.code]; omega
    | s r => have := r.isLt; simp [LaneA.code]; omega
    | slot r => have := r.isLt; simp [LaneA.code]; omega
    | lit w => exact absurd h.1 (by simp [LaneA.noLit])
  have hl : a.literal.getD 0 = 0 := by
    cases a with
    | lit w => exact absurd h.1 (by simp [LaneA.noLit])
    | _ => rfl
  have := Dec.laneA64_code a 0 h.2
  rw [hl] at this
  rw [Dec.laneAq, hc, Dec.guard_true, this]

end Sys2Proof
end

