-- ==== Sys2Proof/Laws/State.lean ====
section
/-! SUPPORT. What the updates of the state, of a grove and of a thread leave as it is, one lemma for each field, and what a grove or thread looked up after an update is. -/

namespace Sys2Proof.Machine

@[simp] theorem State.modGrove_gt (s : State) (i : Nat) (f : Grove → Grove) : (s.modGrove i f).gt = s.gt := rfl
@[simp] theorem State.modGrove_sched (s : State) (i : Nat) (f : Grove → Grove) : (s.modGrove i f).sched = s.sched := rfl
@[simp] theorem State.modGrove_autoCount (s : State) (i : Nat) (f : Grove → Grove) : (s.modGrove i f).autoCount = s.autoCount := rfl
@[simp] theorem State.modGrove_cur (s : State) (i : Nat) (f : Grove → Grove) : (s.modGrove i f).cur = s.cur := rfl
@[simp] theorem State.modGrove_nextId (s : State) (i : Nat) (f : Grove → Grove) : (s.modGrove i f).nextId = s.nextId := rfl
@[simp] theorem State.modGrove_cores (s : State) (i : Nat) (f : Grove → Grove) : (s.modGrove i f).cores = s.cores := rfl
@[simp] theorem State.modGrove_clusters (s : State) (i : Nat) (f : Grove → Grove) : (s.modGrove i f).clusters = s.clusters := rfl
@[simp] theorem State.modGrove_mem (s : State) (i : Nat) (f : Grove → Grove) : (s.modGrove i f).mem = s.mem := rfl
@[simp] theorem State.modGrove_pend (s : State) (i : Nat) (f : Grove → Grove) : (s.modGrove i f).pend = s.pend := rfl
@[simp] theorem State.modGrove_lines (s : State) (i : Nat) (f : Grove → Grove) : (s.modGrove i f).lines = s.lines := rfl
@[simp] theorem State.modGrove_junction (s : State) (i : Nat) (f : Grove → Grove) : (s.modGrove i f).junction = s.junction := rfl
@[simp] theorem State.modGrove_poison (s : State) (i : Nat) (f : Grove → Grove) : (s.modGrove i f).poison = s.poison := rfl
@[simp] theorem State.modGrove_reqs (s : State) (i : Nat) (f : Grove → Grove) : (s.modGrove i f).reqs = s.reqs := rfl
@[simp] theorem State.modGrove_peerStores (s : State) (i : Nat) (f : Grove → Grove) : (s.modGrove i f).peerStores = s.peerStores := rfl
@[simp] theorem State.modGrove_acksDue (s : State) (i : Nat) (f : Grove → Grove) : (s.modGrove i f).acksDue = s.acksDue := rfl
@[simp] theorem State.modGrove_unitReads (s : State) (i : Nat) (f : Grove → Grove) : (s.modGrove i f).unitReads = s.unitReads := rfl
@[simp] theorem State.modGrove_unitWrites (s : State) (i : Nat) (f : Grove → Grove) : (s.modGrove i f).unitWrites = s.unitWrites := rfl
@[simp] theorem State.modGrove_tlb (s : State) (i : Nat) (f : Grove → Grove) : (s.modGrove i f).tlb = s.tlb := rfl
@[simp] theorem State.modGrove_cmds (s : State) (i : Nat) (f : Grove → Grove) : (s.modGrove i f).cmds = s.cmds := rfl
@[simp] theorem State.modGrove_rays (s : State) (i : Nat) (f : Grove → Grove) : (s.modGrove i f).rays = s.rays := rfl
@[simp] theorem State.modGrove_beams (s : State) (i : Nat) (f : Grove → Grove) : (s.modGrove i f).beams = s.beams := rfl
@[simp] theorem State.modGrove_launches (s : State) (i : Nat) (f : Grove → Grove) : (s.modGrove i f).launches = s.launches := rfl
@[simp] theorem State.modGrove_conts (s : State) (i : Nat) (f : Grove → Grove) : (s.modGrove i f).conts = s.conts := rfl
@[simp] theorem State.modGrove_ltagNext (s : State) (i : Nat) (f : Grove → Grove) : (s.modGrove i f).ltagNext = s.ltagNext := rfl
@[simp] theorem State.modGrove_queues (s : State) (i : Nat) (f : Grove → Grove) : (s.modGrove i f).queues = s.queues := rfl
@[simp] theorem State.modGrove_turns (s : State) (i : Nat) (f : Grove → Grove) : (s.modGrove i f).turns = s.turns := rfl
@[simp] theorem State.modGrove_events (s : State) (i : Nat) (f : Grove → Grove) : (s.modGrove i f).events = s.events := rfl
@[simp] theorem State.modGrove_serial (s : State) (i : Nat) (f : Grove → Grove) : (s.modGrove i f).serial = s.serial := rfl
@[simp] theorem State.modGrove_csr (s : State) (i : Nat) (f : Grove → Grove) : (s.modGrove i f).csr = s.csr := rfl
@[simp] theorem State.modGrove_devb (s : State) (i : Nat) (f : Grove → Grove) : (s.modGrove i f).devb = s.devb := rfl
@[simp] theorem State.modGrove_ctxs (s : State) (i : Nat) (f : Grove → Grove) : (s.modGrove i f).ctxs = s.ctxs := rfl
@[simp] theorem State.modGrove_dbars (s : State) (i : Nat) (f : Grove → Grove) : (s.modGrove i f).dbars = s.dbars := rfl
@[simp] theorem State.modGrove_deadfalls (s : State) (i : Nat) (f : Grove → Grove) : (s.modGrove i f).deadfalls = s.deadfalls := rfl
@[simp] theorem State.modGrove_dfidx (s : State) (i : Nat) (f : Grove → Grove) : (s.modGrove i f).dfidx = s.dfidx := rfl
@[simp] theorem State.modGrove_pginvs (s : State) (i : Nat) (f : Grove → Grove) : (s.modGrove i f).pginvs = s.pginvs := rfl
@[simp] theorem State.modGrove_mesi (s : State) (i : Nat) (f : Grove → Grove) : (s.modGrove i f).mesi = s.mesi := rfl
@[simp] theorem State.modGrove_snoopFilter (s : State) (i : Nat) (f : Grove → Grove) : (s.modGrove i f).snoopFilter = s.snoopFilter := rfl
@[simp] theorem State.modGrove_snoops (s : State) (i : Nat) (f : Grove → Grove) : (s.modGrove i f).snoops = s.snoops := rfl
@[simp] theorem State.modGrove_outbox (s : State) (i : Nat) (f : Grove → Grove) : (s.modGrove i f).outbox = s.outbox := rfl
@[simp] theorem State.modGrove_hub (s : State) (i : Nat) (f : Grove → Grove) : (s.modGrove i f).hub = s.hub := rfl
@[simp] theorem State.modGrove_hostReqs (s : State) (i : Nat) (f : Grove → Grove) : (s.modGrove i f).hostReqs = s.hostReqs := rfl

@[simp] theorem State.modThread_gt (s : State) (i : Nat) (w : Who) (f : Thread → Thread) : (s.modThread i w f).gt = s.gt := rfl
@[simp] theorem State.modThread_sched (s : State) (i : Nat) (w : Who) (f : Thread → Thread) : (s.modThread i w f).sched = s.sched := rfl
@[simp] theorem State.modThread_autoCount (s : State) (i : Nat) (w : Who) (f : Thread → Thread) : (s.modThread i w f).autoCount = s.autoCount := rfl
@[simp] theorem State.modThread_cur (s : State) (i : Nat) (w : Who) (f : Thread → Thread) : (s.modThread i w f).cur = s.cur := rfl
@[simp] theorem State.modThread_nextId (s : State) (i : Nat) (w : Who) (f : Thread → Thread) : (s.modThread i w f).nextId = s.nextId := rfl
@[simp] theorem State.modThread_cores (s : State) (i : Nat) (w : Who) (f : Thread → Thread) : (s.modThread i w f).cores = s.cores := rfl
@[simp] theorem State.modThread_clusters (s : State) (i : Nat) (w : Who) (f : Thread → Thread) : (s.modThread i w f).clusters = s.clusters := rfl
@[simp] theorem State.modThread_mem (s : State) (i : Nat) (w : Who) (f : Thread → Thread) : (s.modThread i w f).mem = s.mem := rfl
@[simp] theorem State.modThread_pend (s : State) (i : Nat) (w : Who) (f : Thread → Thread) : (s.modThread i w f).pend = s.pend := rfl
@[simp] theorem State.modThread_lines (s : State) (i : Nat) (w : Who) (f : Thread → Thread) : (s.modThread i w f).lines = s.lines := rfl
@[simp] theorem State.modThread_junction (s : State) (i : Nat) (w : Who) (f : Thread → Thread) : (s.modThread i w f).junction = s.junction := rfl
@[simp] theorem State.modThread_poison (s : State) (i : Nat) (w : Who) (f : Thread → Thread) : (s.modThread i w f).poison = s.poison := rfl
@[simp] theorem State.modThread_reqs (s : State) (i : Nat) (w : Who) (f : Thread → Thread) : (s.modThread i w f).reqs = s.reqs := rfl
@[simp] theorem State.modThread_peerStores (s : State) (i : Nat) (w : Who) (f : Thread → Thread) : (s.modThread i w f).peerStores = s.peerStores := rfl
@[simp] theorem State.modThread_acksDue (s : State) (i : Nat) (w : Who) (f : Thread → Thread) : (s.modThread i w f).acksDue = s.acksDue := rfl
@[simp] theorem State.modThread_unitReads (s : State) (i : Nat) (w : Who) (f : Thread → Thread) : (s.modThread i w f).unitReads = s.unitReads := rfl
@[simp] theorem State.modThread_unitWrites (s : State) (i : Nat) (w : Who) (f : Thread → Thread) : (s.modThread i w f).unitWrites = s.unitWrites := rfl
@[simp] theorem State.modThread_tlb (s : State) (i : Nat) (w : Who) (f : Thread → Thread) : (s.modThread i w f).tlb = s.tlb := rfl
@[simp] theorem State.modThread_cmds (s : State) (i : Nat) (w : Who) (f : Thread → Thread) : (s.modThread i w f).cmds = s.cmds := rfl
@[simp] theorem State.modThread_rays (s : State) (i : Nat) (w : Who) (f : Thread → Thread) : (s.modThread i w f).rays = s.rays := rfl
@[simp] theorem State.modThread_beams (s : State) (i : Nat) (w : Who) (f : Thread → Thread) : (s.modThread i w f).beams = s.beams := rfl
@[simp] theorem State.modThread_launches (s : State) (i : Nat) (w : Who) (f : Thread → Thread) : (s.modThread i w f).launches = s.launches := rfl
@[simp] theorem State.modThread_conts (s : State) (i : Nat) (w : Who) (f : Thread → Thread) : (s.modThread i w f).conts = s.conts := rfl
@[simp] theorem State.modThread_ltagNext (s : State) (i : Nat) (w : Who) (f : Thread → Thread) : (s.modThread i w f).ltagNext = s.ltagNext := rfl
@[simp] theorem State.modThread_queues (s : State) (i : Nat) (w : Who) (f : Thread → Thread) : (s.modThread i w f).queues = s.queues := rfl
@[simp] theorem State.modThread_turns (s : State) (i : Nat) (w : Who) (f : Thread → Thread) : (s.modThread i w f).turns = s.turns := rfl
@[simp] theorem State.modThread_events (s : State) (i : Nat) (w : Who) (f : Thread → Thread) : (s.modThread i w f).events = s.events := rfl
@[simp] theorem State.modThread_serial (s : State) (i : Nat) (w : Who) (f : Thread → Thread) : (s.modThread i w f).serial = s.serial := rfl
@[simp] theorem State.modThread_csr (s : State) (i : Nat) (w : Who) (f : Thread → Thread) : (s.modThread i w f).csr = s.csr := rfl
@[simp] theorem State.modThread_devb (s : State) (i : Nat) (w : Who) (f : Thread → Thread) : (s.modThread i w f).devb = s.devb := rfl
@[simp] theorem State.modThread_ctxs (s : State) (i : Nat) (w : Who) (f : Thread → Thread) : (s.modThread i w f).ctxs = s.ctxs := rfl
@[simp] theorem State.modThread_dbars (s : State) (i : Nat) (w : Who) (f : Thread → Thread) : (s.modThread i w f).dbars = s.dbars := rfl
@[simp] theorem State.modThread_deadfalls (s : State) (i : Nat) (w : Who) (f : Thread → Thread) : (s.modThread i w f).deadfalls = s.deadfalls := rfl
@[simp] theorem State.modThread_dfidx (s : State) (i : Nat) (w : Who) (f : Thread → Thread) : (s.modThread i w f).dfidx = s.dfidx := rfl
@[simp] theorem State.modThread_pginvs (s : State) (i : Nat) (w : Who) (f : Thread → Thread) : (s.modThread i w f).pginvs = s.pginvs := rfl
@[simp] theorem State.modThread_mesi (s : State) (i : Nat) (w : Who) (f : Thread → Thread) : (s.modThread i w f).mesi = s.mesi := rfl
@[simp] theorem State.modThread_snoopFilter (s : State) (i : Nat) (w : Who) (f : Thread → Thread) : (s.modThread i w f).snoopFilter = s.snoopFilter := rfl
@[simp] theorem State.modThread_snoops (s : State) (i : Nat) (w : Who) (f : Thread → Thread) : (s.modThread i w f).snoops = s.snoops := rfl
@[simp] theorem State.modThread_outbox (s : State) (i : Nat) (w : Who) (f : Thread → Thread) : (s.modThread i w f).outbox = s.outbox := rfl
@[simp] theorem State.modThread_hub (s : State) (i : Nat) (w : Who) (f : Thread → Thread) : (s.modThread i w f).hub = s.hub := rfl
@[simp] theorem State.modThread_hostReqs (s : State) (i : Nat) (w : Who) (f : Thread → Thread) : (s.modThread i w f).hostReqs = s.hostReqs := rfl

@[simp] theorem State.setLine_gt (s : State) (k : Nat) (l : Line) : (s.setLine k l).gt = s.gt := rfl
@[simp] theorem State.setLine_sched (s : State) (k : Nat) (l : Line) : (s.setLine k l).sched = s.sched := rfl
@[simp] theorem State.setLine_autoCount (s : State) (k : Nat) (l : Line) : (s.setLine k l).autoCount = s.autoCount := rfl
@[simp] theorem State.setLine_cur (s : State) (k : Nat) (l : Line) : (s.setLine k l).cur = s.cur := rfl
@[simp] theorem State.setLine_nextId (s : State) (k : Nat) (l : Line) : (s.setLine k l).nextId = s.nextId := rfl
@[simp] theorem State.setLine_groves (s : State) (k : Nat) (l : Line) : (s.setLine k l).groves = s.groves := rfl
@[simp] theorem State.setLine_cores (s : State) (k : Nat) (l : Line) : (s.setLine k l).cores = s.cores := rfl
@[simp] theorem State.setLine_clusters (s : State) (k : Nat) (l : Line) : (s.setLine k l).clusters = s.clusters := rfl
@[simp] theorem State.setLine_mem (s : State) (k : Nat) (l : Line) : (s.setLine k l).mem = s.mem := rfl
@[simp] theorem State.setLine_pend (s : State) (k : Nat) (l : Line) : (s.setLine k l).pend = s.pend := rfl
@[simp] theorem State.setLine_junction (s : State) (k : Nat) (l : Line) : (s.setLine k l).junction = s.junction := rfl
@[simp] theorem State.setLine_poison (s : State) (k : Nat) (l : Line) : (s.setLine k l).poison = s.poison := rfl
@[simp] theorem State.setLine_reqs (s : State) (k : Nat) (l : Line) : (s.setLine k l).reqs = s.reqs := rfl
@[simp] theorem State.setLine_peerStores (s : State) (k : Nat) (l : Line) : (s.setLine k l).peerStores = s.peerStores := rfl
@[simp] theorem State.setLine_acksDue (s : State) (k : Nat) (l : Line) : (s.setLine k l).acksDue = s.acksDue := rfl
@[simp] theorem State.setLine_unitReads (s : State) (k : Nat) (l : Line) : (s.setLine k l).unitReads = s.unitReads := rfl
@[simp] theorem State.setLine_unitWrites (s : State) (k : Nat) (l : Line) : (s.setLine k l).unitWrites = s.unitWrites := rfl
@[simp] theorem State.setLine_tlb (s : State) (k : Nat) (l : Line) : (s.setLine k l).tlb = s.tlb := rfl
@[simp] theorem State.setLine_cmds (s : State) (k : Nat) (l : Line) : (s.setLine k l).cmds = s.cmds := rfl
@[simp] theorem State.setLine_rays (s : State) (k : Nat) (l : Line) : (s.setLine k l).rays = s.rays := rfl
@[simp] theorem State.setLine_beams (s : State) (k : Nat) (l : Line) : (s.setLine k l).beams = s.beams := rfl
@[simp] theorem State.setLine_launches (s : State) (k : Nat) (l : Line) : (s.setLine k l).launches = s.launches := rfl
@[simp] theorem State.setLine_conts (s : State) (k : Nat) (l : Line) : (s.setLine k l).conts = s.conts := rfl
@[simp] theorem State.setLine_ltagNext (s : State) (k : Nat) (l : Line) : (s.setLine k l).ltagNext = s.ltagNext := rfl
@[simp] theorem State.setLine_queues (s : State) (k : Nat) (l : Line) : (s.setLine k l).queues = s.queues := rfl
@[simp] theorem State.setLine_turns (s : State) (k : Nat) (l : Line) : (s.setLine k l).turns = s.turns := rfl
@[simp] theorem State.setLine_events (s : State) (k : Nat) (l : Line) : (s.setLine k l).events = s.events := rfl
@[simp] theorem State.setLine_serial (s : State) (k : Nat) (l : Line) : (s.setLine k l).serial = s.serial := rfl
@[simp] theorem State.setLine_csr (s : State) (k : Nat) (l : Line) : (s.setLine k l).csr = s.csr := rfl
@[simp] theorem State.setLine_devb (s : State) (k : Nat) (l : Line) : (s.setLine k l).devb = s.devb := rfl
@[simp] theorem State.setLine_ctxs (s : State) (k : Nat) (l : Line) : (s.setLine k l).ctxs = s.ctxs := rfl
@[simp] theorem State.setLine_dbars (s : State) (k : Nat) (l : Line) : (s.setLine k l).dbars = s.dbars := rfl
@[simp] theorem State.setLine_deadfalls (s : State) (k : Nat) (l : Line) : (s.setLine k l).deadfalls = s.deadfalls := rfl
@[simp] theorem State.setLine_dfidx (s : State) (k : Nat) (l : Line) : (s.setLine k l).dfidx = s.dfidx := rfl
@[simp] theorem State.setLine_pginvs (s : State) (k : Nat) (l : Line) : (s.setLine k l).pginvs = s.pginvs := rfl
@[simp] theorem State.setLine_mesi (s : State) (k : Nat) (l : Line) : (s.setLine k l).mesi = s.mesi := rfl
@[simp] theorem State.setLine_snoopFilter (s : State) (k : Nat) (l : Line) : (s.setLine k l).snoopFilter = s.snoopFilter := rfl
@[simp] theorem State.setLine_snoops (s : State) (k : Nat) (l : Line) : (s.setLine k l).snoops = s.snoops := rfl
@[simp] theorem State.setLine_outbox (s : State) (k : Nat) (l : Line) : (s.setLine k l).outbox = s.outbox := rfl
@[simp] theorem State.setLine_hub (s : State) (k : Nat) (l : Line) : (s.setLine k l).hub = s.hub := rfl
@[simp] theorem State.setLine_hostReqs (s : State) (k : Nat) (l : Line) : (s.setLine k l).hostReqs = s.hostReqs := rfl

@[simp] theorem State.modCore_gt (s : State) (c : Nat) (f : Core → Core) : (s.modCore c f).gt = s.gt := rfl
@[simp] theorem State.modCore_sched (s : State) (c : Nat) (f : Core → Core) : (s.modCore c f).sched = s.sched := rfl
@[simp] theorem State.modCore_autoCount (s : State) (c : Nat) (f : Core → Core) : (s.modCore c f).autoCount = s.autoCount := rfl
@[simp] theorem State.modCore_cur (s : State) (c : Nat) (f : Core → Core) : (s.modCore c f).cur = s.cur := rfl
@[simp] theorem State.modCore_nextId (s : State) (c : Nat) (f : Core → Core) : (s.modCore c f).nextId = s.nextId := rfl
@[simp] theorem State.modCore_groves (s : State) (c : Nat) (f : Core → Core) : (s.modCore c f).groves = s.groves := rfl
@[simp] theorem State.modCore_clusters (s : State) (c : Nat) (f : Core → Core) : (s.modCore c f).clusters = s.clusters := rfl
@[simp] theorem State.modCore_mem (s : State) (c : Nat) (f : Core → Core) : (s.modCore c f).mem = s.mem := rfl
@[simp] theorem State.modCore_pend (s : State) (c : Nat) (f : Core → Core) : (s.modCore c f).pend = s.pend := rfl
@[simp] theorem State.modCore_lines (s : State) (c : Nat) (f : Core → Core) : (s.modCore c f).lines = s.lines := rfl
@[simp] theorem State.modCore_junction (s : State) (c : Nat) (f : Core → Core) : (s.modCore c f).junction = s.junction := rfl
@[simp] theorem State.modCore_poison (s : State) (c : Nat) (f : Core → Core) : (s.modCore c f).poison = s.poison := rfl
@[simp] theorem State.modCore_reqs (s : State) (c : Nat) (f : Core → Core) : (s.modCore c f).reqs = s.reqs := rfl
@[simp] theorem State.modCore_peerStores (s : State) (c : Nat) (f : Core → Core) : (s.modCore c f).peerStores = s.peerStores := rfl
@[simp] theorem State.modCore_acksDue (s : State) (c : Nat) (f : Core → Core) : (s.modCore c f).acksDue = s.acksDue := rfl
@[simp] theorem State.modCore_unitReads (s : State) (c : Nat) (f : Core → Core) : (s.modCore c f).unitReads = s.unitReads := rfl
@[simp] theorem State.modCore_unitWrites (s : State) (c : Nat) (f : Core → Core) : (s.modCore c f).unitWrites = s.unitWrites := rfl
@[simp] theorem State.modCore_tlb (s : State) (c : Nat) (f : Core → Core) : (s.modCore c f).tlb = s.tlb := rfl
@[simp] theorem State.modCore_cmds (s : State) (c : Nat) (f : Core → Core) : (s.modCore c f).cmds = s.cmds := rfl
@[simp] theorem State.modCore_rays (s : State) (c : Nat) (f : Core → Core) : (s.modCore c f).rays = s.rays := rfl
@[simp] theorem State.modCore_beams (s : State) (c : Nat) (f : Core → Core) : (s.modCore c f).beams = s.beams := rfl
@[simp] theorem State.modCore_launches (s : State) (c : Nat) (f : Core → Core) : (s.modCore c f).launches = s.launches := rfl
@[simp] theorem State.modCore_conts (s : State) (c : Nat) (f : Core → Core) : (s.modCore c f).conts = s.conts := rfl
@[simp] theorem State.modCore_ltagNext (s : State) (c : Nat) (f : Core → Core) : (s.modCore c f).ltagNext = s.ltagNext := rfl
@[simp] theorem State.modCore_queues (s : State) (c : Nat) (f : Core → Core) : (s.modCore c f).queues = s.queues := rfl
@[simp] theorem State.modCore_turns (s : State) (c : Nat) (f : Core → Core) : (s.modCore c f).turns = s.turns := rfl
@[simp] theorem State.modCore_events (s : State) (c : Nat) (f : Core → Core) : (s.modCore c f).events = s.events := rfl
@[simp] theorem State.modCore_serial (s : State) (c : Nat) (f : Core → Core) : (s.modCore c f).serial = s.serial := rfl
@[simp] theorem State.modCore_csr (s : State) (c : Nat) (f : Core → Core) : (s.modCore c f).csr = s.csr := rfl
@[simp] theorem State.modCore_devb (s : State) (c : Nat) (f : Core → Core) : (s.modCore c f).devb = s.devb := rfl
@[simp] theorem State.modCore_ctxs (s : State) (c : Nat) (f : Core → Core) : (s.modCore c f).ctxs = s.ctxs := rfl
@[simp] theorem State.modCore_dbars (s : State) (c : Nat) (f : Core → Core) : (s.modCore c f).dbars = s.dbars := rfl
@[simp] theorem State.modCore_deadfalls (s : State) (c : Nat) (f : Core → Core) : (s.modCore c f).deadfalls = s.deadfalls := rfl
@[simp] theorem State.modCore_dfidx (s : State) (c : Nat) (f : Core → Core) : (s.modCore c f).dfidx = s.dfidx := rfl
@[simp] theorem State.modCore_pginvs (s : State) (c : Nat) (f : Core → Core) : (s.modCore c f).pginvs = s.pginvs := rfl
@[simp] theorem State.modCore_mesi (s : State) (c : Nat) (f : Core → Core) : (s.modCore c f).mesi = s.mesi := rfl
@[simp] theorem State.modCore_snoopFilter (s : State) (c : Nat) (f : Core → Core) : (s.modCore c f).snoopFilter = s.snoopFilter := rfl
@[simp] theorem State.modCore_snoops (s : State) (c : Nat) (f : Core → Core) : (s.modCore c f).snoops = s.snoops := rfl
@[simp] theorem State.modCore_outbox (s : State) (c : Nat) (f : Core → Core) : (s.modCore c f).outbox = s.outbox := rfl
@[simp] theorem State.modCore_hub (s : State) (c : Nat) (f : Core → Core) : (s.modCore c f).hub = s.hub := rfl
@[simp] theorem State.modCore_hostReqs (s : State) (c : Nat) (f : Core → Core) : (s.modCore c f).hostReqs = s.hostReqs := rfl

@[simp] theorem State.setCsrRaw_gt (s : State) (c n : Nat) (v : Word) : (s.setCsrRaw c n v).gt = s.gt := rfl
@[simp] theorem State.setCsrRaw_sched (s : State) (c n : Nat) (v : Word) : (s.setCsrRaw c n v).sched = s.sched := rfl
@[simp] theorem State.setCsrRaw_autoCount (s : State) (c n : Nat) (v : Word) : (s.setCsrRaw c n v).autoCount = s.autoCount := rfl
@[simp] theorem State.setCsrRaw_cur (s : State) (c n : Nat) (v : Word) : (s.setCsrRaw c n v).cur = s.cur := rfl
@[simp] theorem State.setCsrRaw_nextId (s : State) (c n : Nat) (v : Word) : (s.setCsrRaw c n v).nextId = s.nextId := rfl
@[simp] theorem State.setCsrRaw_groves (s : State) (c n : Nat) (v : Word) : (s.setCsrRaw c n v).groves = s.groves := rfl
@[simp] theorem State.setCsrRaw_cores (s : State) (c n : Nat) (v : Word) : (s.setCsrRaw c n v).cores = s.cores := rfl
@[simp] theorem State.setCsrRaw_clusters (s : State) (c n : Nat) (v : Word) : (s.setCsrRaw c n v).clusters = s.clusters := rfl
@[simp] theorem State.setCsrRaw_mem (s : State) (c n : Nat) (v : Word) : (s.setCsrRaw c n v).mem = s.mem := rfl
@[simp] theorem State.setCsrRaw_pend (s : State) (c n : Nat) (v : Word) : (s.setCsrRaw c n v).pend = s.pend := rfl
@[simp] theorem State.setCsrRaw_lines (s : State) (c n : Nat) (v : Word) : (s.setCsrRaw c n v).lines = s.lines := rfl
@[simp] theorem State.setCsrRaw_junction (s : State) (c n : Nat) (v : Word) : (s.setCsrRaw c n v).junction = s.junction := rfl
@[simp] theorem State.setCsrRaw_poison (s : State) (c n : Nat) (v : Word) : (s.setCsrRaw c n v).poison = s.poison := rfl
@[simp] theorem State.setCsrRaw_reqs (s : State) (c n : Nat) (v : Word) : (s.setCsrRaw c n v).reqs = s.reqs := rfl
@[simp] theorem State.setCsrRaw_peerStores (s : State) (c n : Nat) (v : Word) : (s.setCsrRaw c n v).peerStores = s.peerStores := rfl
@[simp] theorem State.setCsrRaw_acksDue (s : State) (c n : Nat) (v : Word) : (s.setCsrRaw c n v).acksDue = s.acksDue := rfl
@[simp] theorem State.setCsrRaw_unitReads (s : State) (c n : Nat) (v : Word) : (s.setCsrRaw c n v).unitReads = s.unitReads := rfl
@[simp] theorem State.setCsrRaw_unitWrites (s : State) (c n : Nat) (v : Word) : (s.setCsrRaw c n v).unitWrites = s.unitWrites := rfl
@[simp] theorem State.setCsrRaw_tlb (s : State) (c n : Nat) (v : Word) : (s.setCsrRaw c n v).tlb = s.tlb := rfl
@[simp] theorem State.setCsrRaw_cmds (s : State) (c n : Nat) (v : Word) : (s.setCsrRaw c n v).cmds = s.cmds := rfl
@[simp] theorem State.setCsrRaw_rays (s : State) (c n : Nat) (v : Word) : (s.setCsrRaw c n v).rays = s.rays := rfl
@[simp] theorem State.setCsrRaw_beams (s : State) (c n : Nat) (v : Word) : (s.setCsrRaw c n v).beams = s.beams := rfl
@[simp] theorem State.setCsrRaw_launches (s : State) (c n : Nat) (v : Word) : (s.setCsrRaw c n v).launches = s.launches := rfl
@[simp] theorem State.setCsrRaw_conts (s : State) (c n : Nat) (v : Word) : (s.setCsrRaw c n v).conts = s.conts := rfl
@[simp] theorem State.setCsrRaw_ltagNext (s : State) (c n : Nat) (v : Word) : (s.setCsrRaw c n v).ltagNext = s.ltagNext := rfl
@[simp] theorem State.setCsrRaw_queues (s : State) (c n : Nat) (v : Word) : (s.setCsrRaw c n v).queues = s.queues := rfl
@[simp] theorem State.setCsrRaw_turns (s : State) (c n : Nat) (v : Word) : (s.setCsrRaw c n v).turns = s.turns := rfl
@[simp] theorem State.setCsrRaw_events (s : State) (c n : Nat) (v : Word) : (s.setCsrRaw c n v).events = s.events := rfl
@[simp] theorem State.setCsrRaw_serial (s : State) (c n : Nat) (v : Word) : (s.setCsrRaw c n v).serial = s.serial := rfl
@[simp] theorem State.setCsrRaw_devb (s : State) (c n : Nat) (v : Word) : (s.setCsrRaw c n v).devb = s.devb := rfl
@[simp] theorem State.setCsrRaw_ctxs (s : State) (c n : Nat) (v : Word) : (s.setCsrRaw c n v).ctxs = s.ctxs := rfl
@[simp] theorem State.setCsrRaw_dbars (s : State) (c n : Nat) (v : Word) : (s.setCsrRaw c n v).dbars = s.dbars := rfl
@[simp] theorem State.setCsrRaw_deadfalls (s : State) (c n : Nat) (v : Word) : (s.setCsrRaw c n v).deadfalls = s.deadfalls := rfl
@[simp] theorem State.setCsrRaw_dfidx (s : State) (c n : Nat) (v : Word) : (s.setCsrRaw c n v).dfidx = s.dfidx := rfl
@[simp] theorem State.setCsrRaw_pginvs (s : State) (c n : Nat) (v : Word) : (s.setCsrRaw c n v).pginvs = s.pginvs := rfl
@[simp] theorem State.setCsrRaw_mesi (s : State) (c n : Nat) (v : Word) : (s.setCsrRaw c n v).mesi = s.mesi := rfl
@[simp] theorem State.setCsrRaw_snoopFilter (s : State) (c n : Nat) (v : Word) : (s.setCsrRaw c n v).snoopFilter = s.snoopFilter := rfl
@[simp] theorem State.setCsrRaw_snoops (s : State) (c n : Nat) (v : Word) : (s.setCsrRaw c n v).snoops = s.snoops := rfl
@[simp] theorem State.setCsrRaw_outbox (s : State) (c n : Nat) (v : Word) : (s.setCsrRaw c n v).outbox = s.outbox := rfl
@[simp] theorem State.setCsrRaw_hub (s : State) (c n : Nat) (v : Word) : (s.setCsrRaw c n v).hub = s.hub := rfl
@[simp] theorem State.setCsrRaw_hostReqs (s : State) (c n : Nat) (v : Word) : (s.setCsrRaw c n v).hostReqs = s.hostReqs := rfl

@[simp] theorem State.modCtx_gt (s : State) (c : Nat) (f : Ctx → Ctx) : (s.modCtx c f).gt = s.gt := rfl
@[simp] theorem State.modCtx_sched (s : State) (c : Nat) (f : Ctx → Ctx) : (s.modCtx c f).sched = s.sched := rfl
@[simp] theorem State.modCtx_autoCount (s : State) (c : Nat) (f : Ctx → Ctx) : (s.modCtx c f).autoCount = s.autoCount := rfl
@[simp] theorem State.modCtx_cur (s : State) (c : Nat) (f : Ctx → Ctx) : (s.modCtx c f).cur = s.cur := rfl
@[simp] theorem State.modCtx_nextId (s : State) (c : Nat) (f : Ctx → Ctx) : (s.modCtx c f).nextId = s.nextId := rfl
@[simp] theorem State.modCtx_groves (s : State) (c : Nat) (f : Ctx → Ctx) : (s.modCtx c f).groves = s.groves := rfl
@[simp] theorem State.modCtx_cores (s : State) (c : Nat) (f : Ctx → Ctx) : (s.modCtx c f).cores = s.cores := rfl
@[simp] theorem State.modCtx_clusters (s : State) (c : Nat) (f : Ctx → Ctx) : (s.modCtx c f).clusters = s.clusters := rfl
@[simp] theorem State.modCtx_mem (s : State) (c : Nat) (f : Ctx → Ctx) : (s.modCtx c f).mem = s.mem := rfl
@[simp] theorem State.modCtx_pend (s : State) (c : Nat) (f : Ctx → Ctx) : (s.modCtx c f).pend = s.pend := rfl
@[simp] theorem State.modCtx_lines (s : State) (c : Nat) (f : Ctx → Ctx) : (s.modCtx c f).lines = s.lines := rfl
@[simp] theorem State.modCtx_junction (s : State) (c : Nat) (f : Ctx → Ctx) : (s.modCtx c f).junction = s.junction := rfl
@[simp] theorem State.modCtx_poison (s : State) (c : Nat) (f : Ctx → Ctx) : (s.modCtx c f).poison = s.poison := rfl
@[simp] theorem State.modCtx_reqs (s : State) (c : Nat) (f : Ctx → Ctx) : (s.modCtx c f).reqs = s.reqs := rfl
@[simp] theorem State.modCtx_peerStores (s : State) (c : Nat) (f : Ctx → Ctx) : (s.modCtx c f).peerStores = s.peerStores := rfl
@[simp] theorem State.modCtx_acksDue (s : State) (c : Nat) (f : Ctx → Ctx) : (s.modCtx c f).acksDue = s.acksDue := rfl
@[simp] theorem State.modCtx_unitReads (s : State) (c : Nat) (f : Ctx → Ctx) : (s.modCtx c f).unitReads = s.unitReads := rfl
@[simp] theorem State.modCtx_unitWrites (s : State) (c : Nat) (f : Ctx → Ctx) : (s.modCtx c f).unitWrites = s.unitWrites := rfl
@[simp] theorem State.modCtx_tlb (s : State) (c : Nat) (f : Ctx → Ctx) : (s.modCtx c f).tlb = s.tlb := rfl
@[simp] theorem State.modCtx_cmds (s : State) (c : Nat) (f : Ctx → Ctx) : (s.modCtx c f).cmds = s.cmds := rfl
@[simp] theorem State.modCtx_rays (s : State) (c : Nat) (f : Ctx → Ctx) : (s.modCtx c f).rays = s.rays := rfl
@[simp] theorem State.modCtx_beams (s : State) (c : Nat) (f : Ctx → Ctx) : (s.modCtx c f).beams = s.beams := rfl
@[simp] theorem State.modCtx_launches (s : State) (c : Nat) (f : Ctx → Ctx) : (s.modCtx c f).launches = s.launches := rfl
@[simp] theorem State.modCtx_conts (s : State) (c : Nat) (f : Ctx → Ctx) : (s.modCtx c f).conts = s.conts := rfl
@[simp] theorem State.modCtx_ltagNext (s : State) (c : Nat) (f : Ctx → Ctx) : (s.modCtx c f).ltagNext = s.ltagNext := rfl
@[simp] theorem State.modCtx_queues (s : State) (c : Nat) (f : Ctx → Ctx) : (s.modCtx c f).queues = s.queues := rfl
@[simp] theorem State.modCtx_turns (s : State) (c : Nat) (f : Ctx → Ctx) : (s.modCtx c f).turns = s.turns := rfl
@[simp] theorem State.modCtx_events (s : State) (c : Nat) (f : Ctx → Ctx) : (s.modCtx c f).events = s.events := rfl
@[simp] theorem State.modCtx_serial (s : State) (c : Nat) (f : Ctx → Ctx) : (s.modCtx c f).serial = s.serial := rfl
@[simp] theorem State.modCtx_csr (s : State) (c : Nat) (f : Ctx → Ctx) : (s.modCtx c f).csr = s.csr := rfl
@[simp] theorem State.modCtx_devb (s : State) (c : Nat) (f : Ctx → Ctx) : (s.modCtx c f).devb = s.devb := rfl
@[simp] theorem State.modCtx_dbars (s : State) (c : Nat) (f : Ctx → Ctx) : (s.modCtx c f).dbars = s.dbars := rfl
@[simp] theorem State.modCtx_deadfalls (s : State) (c : Nat) (f : Ctx → Ctx) : (s.modCtx c f).deadfalls = s.deadfalls := rfl
@[simp] theorem State.modCtx_dfidx (s : State) (c : Nat) (f : Ctx → Ctx) : (s.modCtx c f).dfidx = s.dfidx := rfl
@[simp] theorem State.modCtx_pginvs (s : State) (c : Nat) (f : Ctx → Ctx) : (s.modCtx c f).pginvs = s.pginvs := rfl
@[simp] theorem State.modCtx_mesi (s : State) (c : Nat) (f : Ctx → Ctx) : (s.modCtx c f).mesi = s.mesi := rfl
@[simp] theorem State.modCtx_snoopFilter (s : State) (c : Nat) (f : Ctx → Ctx) : (s.modCtx c f).snoopFilter = s.snoopFilter := rfl
@[simp] theorem State.modCtx_snoops (s : State) (c : Nat) (f : Ctx → Ctx) : (s.modCtx c f).snoops = s.snoops := rfl
@[simp] theorem State.modCtx_outbox (s : State) (c : Nat) (f : Ctx → Ctx) : (s.modCtx c f).outbox = s.outbox := rfl
@[simp] theorem State.modCtx_hub (s : State) (c : Nat) (f : Ctx → Ctx) : (s.modCtx c f).hub = s.hub := rfl
@[simp] theorem State.modCtx_hostReqs (s : State) (c : Nat) (f : Ctx → Ctx) : (s.modCtx c f).hostReqs = s.hostReqs := rfl

@[simp] theorem State.emit_gt (s : State) (k a b : Nat) (d : List Byte) : (s.emit k a b d).gt = s.gt := rfl
@[simp] theorem State.emit_sched (s : State) (k a b : Nat) (d : List Byte) : (s.emit k a b d).sched = s.sched := rfl
@[simp] theorem State.emit_autoCount (s : State) (k a b : Nat) (d : List Byte) : (s.emit k a b d).autoCount = s.autoCount := rfl
@[simp] theorem State.emit_cur (s : State) (k a b : Nat) (d : List Byte) : (s.emit k a b d).cur = s.cur := rfl
@[simp] theorem State.emit_nextId (s : State) (k a b : Nat) (d : List Byte) : (s.emit k a b d).nextId = s.nextId := rfl
@[simp] theorem State.emit_groves (s : State) (k a b : Nat) (d : List Byte) : (s.emit k a b d).groves = s.groves := rfl
@[simp] theorem State.emit_cores (s : State) (k a b : Nat) (d : List Byte) : (s.emit k a b d).cores = s.cores := rfl
@[simp] theorem State.emit_clusters (s : State) (k a b : Nat) (d : List Byte) : (s.emit k a b d).clusters = s.clusters := rfl
@[simp] theorem State.emit_mem (s : State) (k a b : Nat) (d : List Byte) : (s.emit k a b d).mem = s.mem := rfl
@[simp] theorem State.emit_pend (s : State) (k a b : Nat) (d : List Byte) : (s.emit k a b d).pend = s.pend := rfl
@[simp] theorem State.emit_lines (s : State) (k a b : Nat) (d : List Byte) : (s.emit k a b d).lines = s.lines := rfl
@[simp] theorem State.emit_junction (s : State) (k a b : Nat) (d : List Byte) : (s.emit k a b d).junction = s.junction := rfl
@[simp] theorem State.emit_poison (s : State) (k a b : Nat) (d : List Byte) : (s.emit k a b d).poison = s.poison := rfl
@[simp] theorem State.emit_reqs (s : State) (k a b : Nat) (d : List Byte) : (s.emit k a b d).reqs = s.reqs := rfl
@[simp] theorem State.emit_peerStores (s : State) (k a b : Nat) (d : List Byte) : (s.emit k a b d).peerStores = s.peerStores := rfl
@[simp] theorem State.emit_acksDue (s : State) (k a b : Nat) (d : List Byte) : (s.emit k a b d).acksDue = s.acksDue := rfl
@[simp] theorem State.emit_unitReads (s : State) (k a b : Nat) (d : List Byte) : (s.emit k a b d).unitReads = s.unitReads := rfl
@[simp] theorem State.emit_unitWrites (s : State) (k a b : Nat) (d : List Byte) : (s.emit k a b d).unitWrites = s.unitWrites := rfl
@[simp] theorem State.emit_tlb (s : State) (k a b : Nat) (d : List Byte) : (s.emit k a b d).tlb = s.tlb := rfl
@[simp] theorem State.emit_cmds (s : State) (k a b : Nat) (d : List Byte) : (s.emit k a b d).cmds = s.cmds := rfl
@[simp] theorem State.emit_rays (s : State) (k a b : Nat) (d : List Byte) : (s.emit k a b d).rays = s.rays := rfl
@[simp] theorem State.emit_beams (s : State) (k a b : Nat) (d : List Byte) : (s.emit k a b d).beams = s.beams := rfl
@[simp] theorem State.emit_launches (s : State) (k a b : Nat) (d : List Byte) : (s.emit k a b d).launches = s.launches := rfl
@[simp] theorem State.emit_conts (s : State) (k a b : Nat) (d : List Byte) : (s.emit k a b d).conts = s.conts := rfl
@[simp] theorem State.emit_ltagNext (s : State) (k a b : Nat) (d : List Byte) : (s.emit k a b d).ltagNext = s.ltagNext := rfl
@[simp] theorem State.emit_queues (s : State) (k a b : Nat) (d : List Byte) : (s.emit k a b d).queues = s.queues := rfl
@[simp] theorem State.emit_turns (s : State) (k a b : Nat) (d : List Byte) : (s.emit k a b d).turns = s.turns := rfl
@[simp] theorem State.emit_events (s : State) (k a b : Nat) (d : List Byte) : (s.emit k a b d).events = s.events := rfl
@[simp] theorem State.emit_serial (s : State) (k a b : Nat) (d : List Byte) : (s.emit k a b d).serial = s.serial := rfl
@[simp] theorem State.emit_csr (s : State) (k a b : Nat) (d : List Byte) : (s.emit k a b d).csr = s.csr := rfl
@[simp] theorem State.emit_devb (s : State) (k a b : Nat) (d : List Byte) : (s.emit k a b d).devb = s.devb := rfl
@[simp] theorem State.emit_ctxs (s : State) (k a b : Nat) (d : List Byte) : (s.emit k a b d).ctxs = s.ctxs := rfl
@[simp] theorem State.emit_dbars (s : State) (k a b : Nat) (d : List Byte) : (s.emit k a b d).dbars = s.dbars := rfl
@[simp] theorem State.emit_deadfalls (s : State) (k a b : Nat) (d : List Byte) : (s.emit k a b d).deadfalls = s.deadfalls := rfl
@[simp] theorem State.emit_dfidx (s : State) (k a b : Nat) (d : List Byte) : (s.emit k a b d).dfidx = s.dfidx := rfl
@[simp] theorem State.emit_pginvs (s : State) (k a b : Nat) (d : List Byte) : (s.emit k a b d).pginvs = s.pginvs := rfl
@[simp] theorem State.emit_mesi (s : State) (k a b : Nat) (d : List Byte) : (s.emit k a b d).mesi = s.mesi := rfl
@[simp] theorem State.emit_snoopFilter (s : State) (k a b : Nat) (d : List Byte) : (s.emit k a b d).snoopFilter = s.snoopFilter := rfl
@[simp] theorem State.emit_snoops (s : State) (k a b : Nat) (d : List Byte) : (s.emit k a b d).snoops = s.snoops := rfl
@[simp] theorem State.emit_hub (s : State) (k a b : Nat) (d : List Byte) : (s.emit k a b d).hub = s.hub := rfl
@[simp] theorem State.emit_hostReqs (s : State) (k a b : Nat) (d : List Byte) : (s.emit k a b d).hostReqs = s.hostReqs := rfl

@[simp] theorem State.count_gt (s : State) (k : Nat) : (s.count k).gt = s.gt := rfl
@[simp] theorem State.count_sched (s : State) (k : Nat) : (s.count k).sched = s.sched := rfl
@[simp] theorem State.count_autoCount (s : State) (k : Nat) : (s.count k).autoCount = s.autoCount := rfl
@[simp] theorem State.count_cur (s : State) (k : Nat) : (s.count k).cur = s.cur := rfl
@[simp] theorem State.count_nextId (s : State) (k : Nat) : (s.count k).nextId = s.nextId := rfl
@[simp] theorem State.count_groves (s : State) (k : Nat) : (s.count k).groves = s.groves := rfl
@[simp] theorem State.count_cores (s : State) (k : Nat) : (s.count k).cores = s.cores := rfl
@[simp] theorem State.count_clusters (s : State) (k : Nat) : (s.count k).clusters = s.clusters := rfl
@[simp] theorem State.count_mem (s : State) (k : Nat) : (s.count k).mem = s.mem := rfl
@[simp] theorem State.count_pend (s : State) (k : Nat) : (s.count k).pend = s.pend := rfl
@[simp] theorem State.count_lines (s : State) (k : Nat) : (s.count k).lines = s.lines := rfl
@[simp] theorem State.count_junction (s : State) (k : Nat) : (s.count k).junction = s.junction := rfl
@[simp] theorem State.count_poison (s : State) (k : Nat) : (s.count k).poison = s.poison := rfl
@[simp] theorem State.count_reqs (s : State) (k : Nat) : (s.count k).reqs = s.reqs := rfl
@[simp] theorem State.count_peerStores (s : State) (k : Nat) : (s.count k).peerStores = s.peerStores := rfl
@[simp] theorem State.count_acksDue (s : State) (k : Nat) : (s.count k).acksDue = s.acksDue := rfl
@[simp] theorem State.count_unitReads (s : State) (k : Nat) : (s.count k).unitReads = s.unitReads := rfl
@[simp] theorem State.count_unitWrites (s : State) (k : Nat) : (s.count k).unitWrites = s.unitWrites := rfl
@[simp] theorem State.count_tlb (s : State) (k : Nat) : (s.count k).tlb = s.tlb := rfl
@[simp] theorem State.count_cmds (s : State) (k : Nat) : (s.count k).cmds = s.cmds := rfl
@[simp] theorem State.count_rays (s : State) (k : Nat) : (s.count k).rays = s.rays := rfl
@[simp] theorem State.count_beams (s : State) (k : Nat) : (s.count k).beams = s.beams := rfl
@[simp] theorem State.count_launches (s : State) (k : Nat) : (s.count k).launches = s.launches := rfl
@[simp] theorem State.count_conts (s : State) (k : Nat) : (s.count k).conts = s.conts := rfl
@[simp] theorem State.count_ltagNext (s : State) (k : Nat) : (s.count k).ltagNext = s.ltagNext := rfl
@[simp] theorem State.count_queues (s : State) (k : Nat) : (s.count k).queues = s.queues := rfl
@[simp] theorem State.count_turns (s : State) (k : Nat) : (s.count k).turns = s.turns := rfl
@[simp] theorem State.count_events (s : State) (k : Nat) : (s.count k).events = s.events := rfl
@[simp] theorem State.count_serial (s : State) (k : Nat) : (s.count k).serial = s.serial := rfl
@[simp] theorem State.count_csr (s : State) (k : Nat) : (s.count k).csr = s.csr := rfl
@[simp] theorem State.count_devb (s : State) (k : Nat) : (s.count k).devb = s.devb := rfl
@[simp] theorem State.count_ctxs (s : State) (k : Nat) : (s.count k).ctxs = s.ctxs := rfl
@[simp] theorem State.count_dbars (s : State) (k : Nat) : (s.count k).dbars = s.dbars := rfl
@[simp] theorem State.count_deadfalls (s : State) (k : Nat) : (s.count k).deadfalls = s.deadfalls := rfl
@[simp] theorem State.count_dfidx (s : State) (k : Nat) : (s.count k).dfidx = s.dfidx := rfl
@[simp] theorem State.count_pginvs (s : State) (k : Nat) : (s.count k).pginvs = s.pginvs := rfl
@[simp] theorem State.count_mesi (s : State) (k : Nat) : (s.count k).mesi = s.mesi := rfl
@[simp] theorem State.count_snoopFilter (s : State) (k : Nat) : (s.count k).snoopFilter = s.snoopFilter := rfl
@[simp] theorem State.count_snoops (s : State) (k : Nat) : (s.count k).snoops = s.snoops := rfl
@[simp] theorem State.count_outbox (s : State) (k : Nat) : (s.count k).outbox = s.outbox := rfl
@[simp] theorem State.count_hostReqs (s : State) (k : Nat) : (s.count k).hostReqs = s.hostReqs := rfl

@[simp] theorem State.settleStores_gt (s : State) : (s.settleStores).gt = s.gt := rfl
@[simp] theorem State.settleStores_sched (s : State) : (s.settleStores).sched = s.sched := rfl
@[simp] theorem State.settleStores_autoCount (s : State) : (s.settleStores).autoCount = s.autoCount := rfl
@[simp] theorem State.settleStores_cur (s : State) : (s.settleStores).cur = s.cur := rfl
@[simp] theorem State.settleStores_nextId (s : State) : (s.settleStores).nextId = s.nextId := rfl
@[simp] theorem State.settleStores_groves (s : State) : (s.settleStores).groves = s.groves := rfl
@[simp] theorem State.settleStores_cores (s : State) : (s.settleStores).cores = s.cores := rfl
@[simp] theorem State.settleStores_clusters (s : State) : (s.settleStores).clusters = s.clusters := rfl
@[simp] theorem State.settleStores_lines (s : State) : (s.settleStores).lines = s.lines := rfl
@[simp] theorem State.settleStores_junction (s : State) : (s.settleStores).junction = s.junction := rfl
@[simp] theorem State.settleStores_poison (s : State) : (s.settleStores).poison = s.poison := rfl
@[simp] theorem State.settleStores_reqs (s : State) : (s.settleStores).reqs = s.reqs := rfl
@[simp] theorem State.settleStores_peerStores (s : State) : (s.settleStores).peerStores = s.peerStores := rfl
@[simp] theorem State.settleStores_acksDue (s : State) : (s.settleStores).acksDue = s.acksDue := rfl
@[simp] theorem State.settleStores_unitReads (s : State) : (s.settleStores).unitReads = s.unitReads := rfl
@[simp] theorem State.settleStores_unitWrites (s : State) : (s.settleStores).unitWrites = s.unitWrites := rfl
@[simp] theorem State.settleStores_tlb (s : State) : (s.settleStores).tlb = s.tlb := rfl
@[simp] theorem State.settleStores_cmds (s : State) : (s.settleStores).cmds = s.cmds := rfl
@[simp] theorem State.settleStores_rays (s : State) : (s.settleStores).rays = s.rays := rfl
@[simp] theorem State.settleStores_beams (s : State) : (s.settleStores).beams = s.beams := rfl
@[simp] theorem State.settleStores_launches (s : State) : (s.settleStores).launches = s.launches := rfl
@[simp] theorem State.settleStores_conts (s : State) : (s.settleStores).conts = s.conts := rfl
@[simp] theorem State.settleStores_ltagNext (s : State) : (s.settleStores).ltagNext = s.ltagNext := rfl
@[simp] theorem State.settleStores_queues (s : State) : (s.settleStores).queues = s.queues := rfl
@[simp] theorem State.settleStores_turns (s : State) : (s.settleStores).turns = s.turns := rfl
@[simp] theorem State.settleStores_events (s : State) : (s.settleStores).events = s.events := rfl
@[simp] theorem State.settleStores_serial (s : State) : (s.settleStores).serial = s.serial := rfl
@[simp] theorem State.settleStores_csr (s : State) : (s.settleStores).csr = s.csr := rfl
@[simp] theorem State.settleStores_devb (s : State) : (s.settleStores).devb = s.devb := rfl
@[simp] theorem State.settleStores_ctxs (s : State) : (s.settleStores).ctxs = s.ctxs := rfl
@[simp] theorem State.settleStores_dbars (s : State) : (s.settleStores).dbars = s.dbars := rfl
@[simp] theorem State.settleStores_deadfalls (s : State) : (s.settleStores).deadfalls = s.deadfalls := rfl
@[simp] theorem State.settleStores_dfidx (s : State) : (s.settleStores).dfidx = s.dfidx := rfl
@[simp] theorem State.settleStores_pginvs (s : State) : (s.settleStores).pginvs = s.pginvs := rfl
@[simp] theorem State.settleStores_mesi (s : State) : (s.settleStores).mesi = s.mesi := rfl
@[simp] theorem State.settleStores_snoopFilter (s : State) : (s.settleStores).snoopFilter = s.snoopFilter := rfl
@[simp] theorem State.settleStores_snoops (s : State) : (s.settleStores).snoops = s.snoops := rfl
@[simp] theorem State.settleStores_outbox (s : State) : (s.settleStores).outbox = s.outbox := rfl
@[simp] theorem State.settleStores_hub (s : State) : (s.settleStores).hub = s.hub := rfl
@[simp] theorem State.settleStores_hostReqs (s : State) : (s.settleStores).hostReqs = s.hostReqs := rfl

@[simp] theorem Grove.modLanes_id (g : Grove) (p : Thread → Bool) (f : Thread → Thread) : (g.modLanes p f).id = g.id := rfl
@[simp] theorem Grove.modLanes_ctx (g : Grove) (p : Thread → Bool) (f : Thread → Thread) : (g.modLanes p f).ctx = g.ctx := rfl
@[simp] theorem Grove.modLanes_launch (g : Grove) (p : Thread → Bool) (f : Thread → Thread) : (g.modLanes p f).launch = g.launch := rfl
@[simp] theorem Grove.modLanes_ltag (g : Grove) (p : Thread → Bool) (f : Thread → Thread) : (g.modLanes p f).ltag = g.ltag := rfl
@[simp] theorem Grove.modLanes_linear (g : Grove) (p : Thread → Bool) (f : Thread → Thread) : (g.modLanes p f).linear = g.linear := rfl
@[simp] theorem Grove.modLanes_node (g : Grove) (p : Thread → Bool) (f : Thread → Thread) : (g.modLanes p f).node = g.node := rfl
@[simp] theorem Grove.modLanes_nodeTag (g : Grove) (p : Thread → Bool) (f : Thread → Thread) : (g.modLanes p f).nodeTag = g.nodeTag := rfl
@[simp] theorem Grove.modLanes_gx (g : Grove) (p : Thread → Bool) (f : Thread → Thread) : (g.modLanes p f).gx = g.gx := rfl
@[simp] theorem Grove.modLanes_gy (g : Grove) (p : Thread → Bool) (f : Thread → Thread) : (g.modLanes p f).gy = g.gy := rfl
@[simp] theorem Grove.modLanes_gz (g : Grove) (p : Thread → Bool) (f : Thread → Thread) : (g.modLanes p f).gz = g.gz := rfl
@[simp] theorem Grove.modLanes_core (g : Grove) (p : Thread → Bool) (f : Thread → Thread) : (g.modLanes p f).core = g.core := rfl
@[simp] theorem Grove.modLanes_slot (g : Grove) (p : Thread → Bool) (f : Thread → Thread) : (g.modLanes p f).slot = g.slot := rfl
@[simp] theorem Grove.modLanes_coreName (g : Grove) (p : Thread → Bool) (f : Thread → Thread) : (g.modLanes p f).coreName = g.coreName := rfl
@[simp] theorem Grove.modLanes_desc (g : Grove) (p : Thread → Bool) (f : Thread → Thread) : (g.modLanes p f).desc = g.desc := rfl
@[simp] theorem Grove.modLanes_realtime (g : Grove) (p : Thread → Bool) (f : Thread → Thread) : (g.modLanes p f).realtime = g.realtime := rfl
@[simp] theorem Grove.modLanes_front (g : Grove) (p : Thread → Bool) (f : Thread → Thread) : (g.modLanes p f).front = g.front := rfl
@[simp] theorem Grove.modLanes_dq (g : Grove) (p : Thread → Bool) (f : Thread → Thread) : (g.modLanes p f).dq = g.dq := rfl
@[simp] theorem Grove.modLanes_dqNext (g : Grove) (p : Thread → Bool) (f : Thread → Thread) : (g.modLanes p f).dqNext = g.dqNext := rfl
@[simp] theorem Grove.modLanes_dqClosed (g : Grove) (p : Thread → Bool) (f : Thread → Thread) : (g.modLanes p f).dqClosed = g.dqClosed := rfl
@[simp] theorem Grove.modLanes_bars (g : Grove) (p : Thread → Bool) (f : Thread → Thread) : (g.modLanes p f).bars = g.bars := rfl
@[simp] theorem Grove.modLanes_scratch (g : Grove) (p : Thread → Bool) (f : Thread → Thread) : (g.modLanes p f).scratch = g.scratch := rfl
@[simp] theorem Grove.modLanes_scratchPoison (g : Grove) (p : Thread → Bool) (f : Thread → Thread) : (g.modLanes p f).scratchPoison = g.scratchPoison := rfl
@[simp] theorem Grove.modLanes_ta (g : Grove) (p : Thread → Bool) (f : Thread → Thread) : (g.modLanes p f).ta = g.ta := rfl
@[simp] theorem Grove.modLanes_taPoison (g : Grove) (p : Thread → Bool) (f : Thread → Thread) : (g.modLanes p f).taPoison = g.taPoison := rfl
@[simp] theorem Grove.modLanes_wb (g : Grove) (p : Thread → Bool) (f : Thread → Thread) : (g.modLanes p f).wb = g.wb := rfl
@[simp] theorem Grove.modLanes_wbPoison (g : Grove) (p : Thread → Bool) (f : Thread → Thread) : (g.modLanes p f).wbPoison = g.wbPoison := rfl
@[simp] theorem Grove.modLanes_wbRank (g : Grove) (p : Thread → Bool) (f : Thread → Thread) : (g.modLanes p f).wbRank = g.wbRank := rfl
@[simp] theorem Grove.modLanes_ac (g : Grove) (p : Thread → Bool) (f : Thread → Thread) : (g.modLanes p f).ac = g.ac := rfl
@[simp] theorem Grove.modLanes_mcs0 (g : Grove) (p : Thread → Bool) (f : Thread → Thread) : (g.modLanes p f).mcs0 = g.mcs0 := rfl
@[simp] theorem Grove.modLanes_mcs1 (g : Grove) (p : Thread → Bool) (f : Thread → Thread) : (g.modLanes p f).mcs1 = g.mcs1 := rfl
@[simp] theorem Grove.modLanes_mcs2 (g : Grove) (p : Thread → Bool) (f : Thread → Thread) : (g.modLanes p f).mcs2 = g.mcs2 := rfl
@[simp] theorem Grove.modLanes_psel (g : Grove) (p : Thread → Bool) (f : Thread → Thread) : (g.modLanes p f).psel = g.psel := rfl
@[simp] theorem Grove.modLanes_msq (g : Grove) (p : Thread → Bool) (f : Thread → Thread) : (g.modLanes p f).msq = g.msq := rfl
@[simp] theorem Grove.modLanes_loads (g : Grove) (p : Thread → Bool) (f : Thread → Thread) : (g.modLanes p f).loads = g.loads := rfl
@[simp] theorem Grove.modLanes_pending (g : Grove) (p : Thread → Bool) (f : Thread → Thread) : (g.modLanes p f).pending = g.pending := rfl
@[simp] theorem Grove.modLanes_cfence (g : Grove) (p : Thread → Bool) (f : Thread → Thread) : (g.modLanes p f).cfence = g.cfence := rfl
@[simp] theorem Grove.modLanes_verify (g : Grove) (p : Thread → Bool) (f : Thread → Thread) : (g.modLanes p f).verify = g.verify := rfl
@[simp] theorem Grove.modLanes_digest (g : Grove) (p : Thread → Bool) (f : Thread → Thread) : (g.modLanes p f).digest = g.digest := rfl
@[simp] theorem Grove.modLanes_shadow (g : Grove) (p : Thread → Bool) (f : Thread → Thread) : (g.modLanes p f).shadow = g.shadow := rfl
@[simp] theorem Grove.modLanes_skipped (g : Grove) (p : Thread → Bool) (f : Thread → Thread) : (g.modLanes p f).skipped = g.skipped := rfl
@[simp] theorem Grove.modLanes_relTime (g : Grove) (p : Thread → Bool) (f : Thread → Thread) : (g.modLanes p f).relTime = g.relTime := rfl

@[simp] theorem Thread.modSeg_front (f : Seg → Seg) (t : Thread) : (t.modSeg f).front = t.front := rfl
@[simp] theorem Thread.modSeg_tid (f : Seg → Seg) (t : Thread) : (t.modSeg f).tid = t.tid := rfl
@[simp] theorem Thread.modSeg_strand (f : Seg → Seg) (t : Thread) : (t.modSeg f).strand = t.strand := rfl
@[simp] theorem Thread.modSeg_lane (f : Seg → Seg) (t : Thread) : (t.modSeg f).lane = t.lane := rfl
@[simp] theorem Thread.modSeg_width (f : Seg → Seg) (t : Thread) : (t.modSeg f).width = t.width := rfl
@[simp] theorem Thread.modSeg_seedling (f : Seg → Seg) (t : Thread) : (t.modSeg f).seedling = t.seedling := rfl
@[simp] theorem Thread.modSeg_core (f : Seg → Seg) (t : Thread) : (t.modSeg f).core = t.core := rfl
@[simp] theorem Thread.modSeg_life (f : Seg → Seg) (t : Thread) : (t.modSeg f).life = t.life := rfl
@[simp] theorem Thread.modSeg_regs (f : Seg → Seg) (t : Thread) : (t.modSeg f).regs = t.regs := rfl
@[simp] theorem Thread.modSeg_preds (f : Seg → Seg) (t : Thread) : (t.modSeg f).preds = t.preds := rfl
@[simp] theorem Thread.modSeg_ctl (f : Seg → Seg) (t : Thread) : (t.modSeg f).ctl = t.ctl := rfl
@[simp] theorem Thread.modSeg_fpc (f : Seg → Seg) (t : Thread) : (t.modSeg f).fpc = t.fpc := rfl
@[simp] theorem Thread.modSeg_flg (f : Seg → Seg) (t : Thread) : (t.modSeg f).flg = t.flg := rfl
@[simp] theorem Thread.modSeg_tpc (f : Seg → Seg) (t : Thread) : (t.modSeg f).tpc = t.tpc := rfl
@[simp] theorem Thread.modSeg_tcause (f : Seg → Seg) (t : Thread) : (t.modSeg f).tcause = t.tcause := rfl
@[simp] theorem Thread.modSeg_tmask (f : Seg → Seg) (t : Thread) : (t.modSeg f).tmask = t.tmask := rfl
@[simp] theorem Thread.modSeg_tval (f : Seg → Seg) (t : Thread) : (t.modSeg f).tval = t.tval := rfl
@[simp] theorem Thread.modSeg_th (f : Seg → Seg) (t : Thread) : (t.modSeg f).th = t.th := rfl
@[simp] theorem Thread.modSeg_bankRegs (f : Seg → Seg) (t : Thread) : (t.modSeg f).bankRegs = t.bankRegs := rfl
@[simp] theorem Thread.modSeg_bankLc (f : Seg → Seg) (t : Thread) : (t.modSeg f).bankLc = t.bankLc := rfl
@[simp] theorem Thread.modSeg_bankMm (f : Seg → Seg) (t : Thread) : (t.modSeg f).bankMm = t.bankMm := rfl
@[simp] theorem Thread.modSeg_bankFrames (f : Seg → Seg) (t : Thread) : (t.modSeg f).bankFrames = t.bankFrames := rfl
@[simp] theorem Thread.modSeg_seedw (f : Seg → Seg) (t : Thread) : (t.modSeg f).seedw = t.seedw := rfl
@[simp] theorem Thread.modSeg_stand (f : Seg → Seg) (t : Thread) : (t.modSeg f).stand = t.stand := rfl
@[simp] theorem Thread.modSeg_team (f : Seg → Seg) (t : Thread) : (t.modSeg f).team = t.team := rfl
@[simp] theorem Thread.modSeg_wait (f : Seg → Seg) (t : Thread) : (t.modSeg f).wait = t.wait := rfl
@[simp] theorem Thread.modSeg_txn (f : Seg → Seg) (t : Thread) : (t.modSeg f).txn = t.txn := rfl
@[simp] theorem Thread.modSeg_dqPos (f : Seg → Seg) (t : Thread) : (t.modSeg f).dqPos = t.dqPos := rfl
@[simp] theorem Thread.modSeg_gbars (f : Seg → Seg) (t : Thread) : (t.modSeg f).gbars = t.gbars := rfl
@[simp] theorem Thread.modSeg_ssteps (f : Seg → Seg) (t : Thread) : (t.modSeg f).ssteps = t.ssteps := rfl
@[simp] theorem Thread.modSeg_arrived (f : Seg → Seg) (t : Thread) : (t.modSeg f).arrived = t.arrived := rfl
@[simp] theorem Thread.modSeg_arriveGt (f : Seg → Seg) (t : Thread) : (t.modSeg f).arriveGt = t.arriveGt := rfl
@[simp] theorem Thread.modSeg_again (f : Seg → Seg) (t : Thread) : (t.modSeg f).again = t.again := rfl
@[simp] theorem Thread.modSeg_spawnOrd (f : Seg → Seg) (t : Thread) : (t.modSeg f).spawnOrd = t.spawnOrd := rfl
@[simp] theorem Thread.modSeg_traceOrd (f : Seg → Seg) (t : Thread) : (t.modSeg f).traceOrd = t.traceOrd := rfl
@[simp] theorem Thread.modSeg_postOrd (f : Seg → Seg) (t : Thread) : (t.modSeg f).postOrd = t.postOrd := rfl
@[simp] theorem Thread.modSeg_beamOrd (f : Seg → Seg) (t : Thread) : (t.modSeg f).beamOrd = t.beamOrd := rfl
@[simp] theorem Thread.modSeg_age (f : Seg → Seg) (t : Thread) : (t.modSeg f).age = t.age := rfl
@[simp] theorem Thread.modSeg_yielded (f : Seg → Seg) (t : Thread) : (t.modSeg f).yielded = t.yielded := rfl
@[simp] theorem Thread.modSeg_since (f : Seg → Seg) (t : Thread) : (t.modSeg f).since = t.since := rfl
@[simp] theorem Thread.modSeg_issuedAt (f : Seg → Seg) (t : Thread) : (t.modSeg f).issuedAt = t.issuedAt := rfl

@[simp] theorem Thread.put_front (x : Bool) (ws : List (Reg × Word)) (t : Thread) : (t.put x ws).front = t.front := rfl
@[simp] theorem Thread.put_tid (x : Bool) (ws : List (Reg × Word)) (t : Thread) : (t.put x ws).tid = t.tid := rfl
@[simp] theorem Thread.put_strand (x : Bool) (ws : List (Reg × Word)) (t : Thread) : (t.put x ws).strand = t.strand := rfl
@[simp] theorem Thread.put_lane (x : Bool) (ws : List (Reg × Word)) (t : Thread) : (t.put x ws).lane = t.lane := rfl
@[simp] theorem Thread.put_width (x : Bool) (ws : List (Reg × Word)) (t : Thread) : (t.put x ws).width = t.width := rfl
@[simp] theorem Thread.put_seedling (x : Bool) (ws : List (Reg × Word)) (t : Thread) : (t.put x ws).seedling = t.seedling := rfl
@[simp] theorem Thread.put_core (x : Bool) (ws : List (Reg × Word)) (t : Thread) : (t.put x ws).core = t.core := rfl
@[simp] theorem Thread.put_life (x : Bool) (ws : List (Reg × Word)) (t : Thread) : (t.put x ws).life = t.life := rfl
@[simp] theorem Thread.put_regs (x : Bool) (ws : List (Reg × Word)) (t : Thread) : (t.put x ws).regs = t.regs := rfl
@[simp] theorem Thread.put_preds (x : Bool) (ws : List (Reg × Word)) (t : Thread) : (t.put x ws).preds = t.preds := rfl
@[simp] theorem Thread.put_ctl (x : Bool) (ws : List (Reg × Word)) (t : Thread) : (t.put x ws).ctl = t.ctl := rfl
@[simp] theorem Thread.put_fpc (x : Bool) (ws : List (Reg × Word)) (t : Thread) : (t.put x ws).fpc = t.fpc := rfl
@[simp] theorem Thread.put_flg (x : Bool) (ws : List (Reg × Word)) (t : Thread) : (t.put x ws).flg = t.flg := rfl
@[simp] theorem Thread.put_tpc (x : Bool) (ws : List (Reg × Word)) (t : Thread) : (t.put x ws).tpc = t.tpc := rfl
@[simp] theorem Thread.put_tcause (x : Bool) (ws : List (Reg × Word)) (t : Thread) : (t.put x ws).tcause = t.tcause := rfl
@[simp] theorem Thread.put_tmask (x : Bool) (ws : List (Reg × Word)) (t : Thread) : (t.put x ws).tmask = t.tmask := rfl
@[simp] theorem Thread.put_tval (x : Bool) (ws : List (Reg × Word)) (t : Thread) : (t.put x ws).tval = t.tval := rfl
@[simp] theorem Thread.put_th (x : Bool) (ws : List (Reg × Word)) (t : Thread) : (t.put x ws).th = t.th := rfl
@[simp] theorem Thread.put_bankRegs (x : Bool) (ws : List (Reg × Word)) (t : Thread) : (t.put x ws).bankRegs = t.bankRegs := rfl
@[simp] theorem Thread.put_bankLc (x : Bool) (ws : List (Reg × Word)) (t : Thread) : (t.put x ws).bankLc = t.bankLc := rfl
@[simp] theorem Thread.put_bankMm (x : Bool) (ws : List (Reg × Word)) (t : Thread) : (t.put x ws).bankMm = t.bankMm := rfl
@[simp] theorem Thread.put_bankFrames (x : Bool) (ws : List (Reg × Word)) (t : Thread) : (t.put x ws).bankFrames = t.bankFrames := rfl
@[simp] theorem Thread.put_seedw (x : Bool) (ws : List (Reg × Word)) (t : Thread) : (t.put x ws).seedw = t.seedw := rfl
@[simp] theorem Thread.put_stand (x : Bool) (ws : List (Reg × Word)) (t : Thread) : (t.put x ws).stand = t.stand := rfl
@[simp] theorem Thread.put_team (x : Bool) (ws : List (Reg × Word)) (t : Thread) : (t.put x ws).team = t.team := rfl
@[simp] theorem Thread.put_wait (x : Bool) (ws : List (Reg × Word)) (t : Thread) : (t.put x ws).wait = t.wait := rfl
@[simp] theorem Thread.put_txn (x : Bool) (ws : List (Reg × Word)) (t : Thread) : (t.put x ws).txn = t.txn := rfl
@[simp] theorem Thread.put_dqPos (x : Bool) (ws : List (Reg × Word)) (t : Thread) : (t.put x ws).dqPos = t.dqPos := rfl
@[simp] theorem Thread.put_gbars (x : Bool) (ws : List (Reg × Word)) (t : Thread) : (t.put x ws).gbars = t.gbars := rfl
@[simp] theorem Thread.put_ssteps (x : Bool) (ws : List (Reg × Word)) (t : Thread) : (t.put x ws).ssteps = t.ssteps := rfl
@[simp] theorem Thread.put_arrived (x : Bool) (ws : List (Reg × Word)) (t : Thread) : (t.put x ws).arrived = t.arrived := rfl
@[simp] theorem Thread.put_arriveGt (x : Bool) (ws : List (Reg × Word)) (t : Thread) : (t.put x ws).arriveGt = t.arriveGt := rfl
@[simp] theorem Thread.put_again (x : Bool) (ws : List (Reg × Word)) (t : Thread) : (t.put x ws).again = t.again := rfl
@[simp] theorem Thread.put_spawnOrd (x : Bool) (ws : List (Reg × Word)) (t : Thread) : (t.put x ws).spawnOrd = t.spawnOrd := rfl
@[simp] theorem Thread.put_traceOrd (x : Bool) (ws : List (Reg × Word)) (t : Thread) : (t.put x ws).traceOrd = t.traceOrd := rfl
@[simp] theorem Thread.put_postOrd (x : Bool) (ws : List (Reg × Word)) (t : Thread) : (t.put x ws).postOrd = t.postOrd := rfl
@[simp] theorem Thread.put_beamOrd (x : Bool) (ws : List (Reg × Word)) (t : Thread) : (t.put x ws).beamOrd = t.beamOrd := rfl
@[simp] theorem Thread.put_age (x : Bool) (ws : List (Reg × Word)) (t : Thread) : (t.put x ws).age = t.age := rfl
@[simp] theorem Thread.put_yielded (x : Bool) (ws : List (Reg × Word)) (t : Thread) : (t.put x ws).yielded = t.yielded := rfl
@[simp] theorem Thread.put_since (x : Bool) (ws : List (Reg × Word)) (t : Thread) : (t.put x ws).since = t.since := rfl
@[simp] theorem Thread.put_issuedAt (x : Bool) (ws : List (Reg × Word)) (t : Thread) : (t.put x ws).issuedAt = t.issuedAt := rfl

@[simp] theorem Thread.advance_front (n : Nat) (t : Thread) : (t.advance n).front = t.front := rfl
@[simp] theorem Thread.advance_tid (n : Nat) (t : Thread) : (t.advance n).tid = t.tid := rfl
@[simp] theorem Thread.advance_strand (n : Nat) (t : Thread) : (t.advance n).strand = t.strand := rfl
@[simp] theorem Thread.advance_lane (n : Nat) (t : Thread) : (t.advance n).lane = t.lane := rfl
@[simp] theorem Thread.advance_width (n : Nat) (t : Thread) : (t.advance n).width = t.width := rfl
@[simp] theorem Thread.advance_seedling (n : Nat) (t : Thread) : (t.advance n).seedling = t.seedling := rfl
@[simp] theorem Thread.advance_core (n : Nat) (t : Thread) : (t.advance n).core = t.core := rfl
@[simp] theorem Thread.advance_life (n : Nat) (t : Thread) : (t.advance n).life = t.life := rfl
@[simp] theorem Thread.advance_regs (n : Nat) (t : Thread) : (t.advance n).regs = t.regs := rfl
@[simp] theorem Thread.advance_preds (n : Nat) (t : Thread) : (t.advance n).preds = t.preds := rfl
@[simp] theorem Thread.advance_ctl (n : Nat) (t : Thread) : (t.advance n).ctl = t.ctl := rfl
@[simp] theorem Thread.advance_fpc (n : Nat) (t : Thread) : (t.advance n).fpc = t.fpc := rfl
@[simp] theorem Thread.advance_flg (n : Nat) (t : Thread) : (t.advance n).flg = t.flg := rfl
@[simp] theorem Thread.advance_tpc (n : Nat) (t : Thread) : (t.advance n).tpc = t.tpc := rfl
@[simp] theorem Thread.advance_tcause (n : Nat) (t : Thread) : (t.advance n).tcause = t.tcause := rfl
@[simp] theorem Thread.advance_tmask (n : Nat) (t : Thread) : (t.advance n).tmask = t.tmask := rfl
@[simp] theorem Thread.advance_tval (n : Nat) (t : Thread) : (t.advance n).tval = t.tval := rfl
@[simp] theorem Thread.advance_th (n : Nat) (t : Thread) : (t.advance n).th = t.th := rfl
@[simp] theorem Thread.advance_bankRegs (n : Nat) (t : Thread) : (t.advance n).bankRegs = t.bankRegs := rfl
@[simp] theorem Thread.advance_bankLc (n : Nat) (t : Thread) : (t.advance n).bankLc = t.bankLc := rfl
@[simp] theorem Thread.advance_bankMm (n : Nat) (t : Thread) : (t.advance n).bankMm = t.bankMm := rfl
@[simp] theorem Thread.advance_bankFrames (n : Nat) (t : Thread) : (t.advance n).bankFrames = t.bankFrames := rfl
@[simp] theorem Thread.advance_seedw (n : Nat) (t : Thread) : (t.advance n).seedw = t.seedw := rfl
@[simp] theorem Thread.advance_stand (n : Nat) (t : Thread) : (t.advance n).stand = t.stand := rfl
@[simp] theorem Thread.advance_team (n : Nat) (t : Thread) : (t.advance n).team = t.team := rfl
@[simp] theorem Thread.advance_wait (n : Nat) (t : Thread) : (t.advance n).wait = t.wait := rfl
@[simp] theorem Thread.advance_txn (n : Nat) (t : Thread) : (t.advance n).txn = t.txn := rfl
@[simp] theorem Thread.advance_dqPos (n : Nat) (t : Thread) : (t.advance n).dqPos = t.dqPos := rfl
@[simp] theorem Thread.advance_gbars (n : Nat) (t : Thread) : (t.advance n).gbars = t.gbars := rfl
@[simp] theorem Thread.advance_ssteps (n : Nat) (t : Thread) : (t.advance n).ssteps = t.ssteps := rfl
@[simp] theorem Thread.advance_arrived (n : Nat) (t : Thread) : (t.advance n).arrived = t.arrived := rfl
@[simp] theorem Thread.advance_arriveGt (n : Nat) (t : Thread) : (t.advance n).arriveGt = t.arriveGt := rfl
@[simp] theorem Thread.advance_again (n : Nat) (t : Thread) : (t.advance n).again = t.again := rfl
@[simp] theorem Thread.advance_spawnOrd (n : Nat) (t : Thread) : (t.advance n).spawnOrd = t.spawnOrd := rfl
@[simp] theorem Thread.advance_traceOrd (n : Nat) (t : Thread) : (t.advance n).traceOrd = t.traceOrd := rfl
@[simp] theorem Thread.advance_postOrd (n : Nat) (t : Thread) : (t.advance n).postOrd = t.postOrd := rfl
@[simp] theorem Thread.advance_beamOrd (n : Nat) (t : Thread) : (t.advance n).beamOrd = t.beamOrd := rfl
@[simp] theorem Thread.advance_age (n : Nat) (t : Thread) : (t.advance n).age = t.age := rfl
@[simp] theorem Thread.advance_yielded (n : Nat) (t : Thread) : (t.advance n).yielded = t.yielded := rfl
@[simp] theorem Thread.advance_since (n : Nat) (t : Thread) : (t.advance n).since = t.since := rfl
@[simp] theorem Thread.advance_issuedAt (n : Nat) (t : Thread) : (t.advance n).issuedAt = t.issuedAt := rfl

@[simp] theorem Thread.countVar_front (n : Nat) (t : Thread) : (t.countVar n).front = t.front := rfl
@[simp] theorem Thread.countVar_tid (n : Nat) (t : Thread) : (t.countVar n).tid = t.tid := rfl
@[simp] theorem Thread.countVar_strand (n : Nat) (t : Thread) : (t.countVar n).strand = t.strand := rfl
@[simp] theorem Thread.countVar_lane (n : Nat) (t : Thread) : (t.countVar n).lane = t.lane := rfl
@[simp] theorem Thread.countVar_width (n : Nat) (t : Thread) : (t.countVar n).width = t.width := rfl
@[simp] theorem Thread.countVar_seedling (n : Nat) (t : Thread) : (t.countVar n).seedling = t.seedling := rfl
@[simp] theorem Thread.countVar_core (n : Nat) (t : Thread) : (t.countVar n).core = t.core := rfl
@[simp] theorem Thread.countVar_life (n : Nat) (t : Thread) : (t.countVar n).life = t.life := rfl
@[simp] theorem Thread.countVar_regs (n : Nat) (t : Thread) : (t.countVar n).regs = t.regs := rfl
@[simp] theorem Thread.countVar_preds (n : Nat) (t : Thread) : (t.countVar n).preds = t.preds := rfl
@[simp] theorem Thread.countVar_ctl (n : Nat) (t : Thread) : (t.countVar n).ctl = t.ctl := rfl
@[simp] theorem Thread.countVar_fpc (n : Nat) (t : Thread) : (t.countVar n).fpc = t.fpc := rfl
@[simp] theorem Thread.countVar_flg (n : Nat) (t : Thread) : (t.countVar n).flg = t.flg := rfl
@[simp] theorem Thread.countVar_tpc (n : Nat) (t : Thread) : (t.countVar n).tpc = t.tpc := rfl
@[simp] theorem Thread.countVar_tcause (n : Nat) (t : Thread) : (t.countVar n).tcause = t.tcause := rfl
@[simp] theorem Thread.countVar_tmask (n : Nat) (t : Thread) : (t.countVar n).tmask = t.tmask := rfl
@[simp] theorem Thread.countVar_tval (n : Nat) (t : Thread) : (t.countVar n).tval = t.tval := rfl
@[simp] theorem Thread.countVar_th (n : Nat) (t : Thread) : (t.countVar n).th = t.th := rfl
@[simp] theorem Thread.countVar_bankRegs (n : Nat) (t : Thread) : (t.countVar n).bankRegs = t.bankRegs := rfl
@[simp] theorem Thread.countVar_bankLc (n : Nat) (t : Thread) : (t.countVar n).bankLc = t.bankLc := rfl
@[simp] theorem Thread.countVar_bankMm (n : Nat) (t : Thread) : (t.countVar n).bankMm = t.bankMm := rfl
@[simp] theorem Thread.countVar_bankFrames (n : Nat) (t : Thread) : (t.countVar n).bankFrames = t.bankFrames := rfl
@[simp] theorem Thread.countVar_seedw (n : Nat) (t : Thread) : (t.countVar n).seedw = t.seedw := rfl
@[simp] theorem Thread.countVar_stand (n : Nat) (t : Thread) : (t.countVar n).stand = t.stand := rfl
@[simp] theorem Thread.countVar_team (n : Nat) (t : Thread) : (t.countVar n).team = t.team := rfl
@[simp] theorem Thread.countVar_wait (n : Nat) (t : Thread) : (t.countVar n).wait = t.wait := rfl
@[simp] theorem Thread.countVar_txn (n : Nat) (t : Thread) : (t.countVar n).txn = t.txn := rfl
@[simp] theorem Thread.countVar_dqPos (n : Nat) (t : Thread) : (t.countVar n).dqPos = t.dqPos := rfl
@[simp] theorem Thread.countVar_gbars (n : Nat) (t : Thread) : (t.countVar n).gbars = t.gbars := rfl
@[simp] theorem Thread.countVar_ssteps (n : Nat) (t : Thread) : (t.countVar n).ssteps = t.ssteps := rfl
@[simp] theorem Thread.countVar_arrived (n : Nat) (t : Thread) : (t.countVar n).arrived = t.arrived := rfl
@[simp] theorem Thread.countVar_arriveGt (n : Nat) (t : Thread) : (t.countVar n).arriveGt = t.arriveGt := rfl
@[simp] theorem Thread.countVar_again (n : Nat) (t : Thread) : (t.countVar n).again = t.again := rfl
@[simp] theorem Thread.countVar_spawnOrd (n : Nat) (t : Thread) : (t.countVar n).spawnOrd = t.spawnOrd := rfl
@[simp] theorem Thread.countVar_traceOrd (n : Nat) (t : Thread) : (t.countVar n).traceOrd = t.traceOrd := rfl
@[simp] theorem Thread.countVar_postOrd (n : Nat) (t : Thread) : (t.countVar n).postOrd = t.postOrd := rfl
@[simp] theorem Thread.countVar_beamOrd (n : Nat) (t : Thread) : (t.countVar n).beamOrd = t.beamOrd := rfl
@[simp] theorem Thread.countVar_age (n : Nat) (t : Thread) : (t.countVar n).age = t.age := rfl
@[simp] theorem Thread.countVar_yielded (n : Nat) (t : Thread) : (t.countVar n).yielded = t.yielded := rfl
@[simp] theorem Thread.countVar_since (n : Nat) (t : Thread) : (t.countVar n).since = t.since := rfl
@[simp] theorem Thread.countVar_issuedAt (n : Nat) (t : Thread) : (t.countVar n).issuedAt = t.issuedAt := rfl

@[simp] theorem Thread.setCtl_front (f : Ctl → Ctl) (t : Thread) : (t.setCtl f).front = t.front := rfl
@[simp] theorem Thread.setCtl_tid (f : Ctl → Ctl) (t : Thread) : (t.setCtl f).tid = t.tid := rfl
@[simp] theorem Thread.setCtl_strand (f : Ctl → Ctl) (t : Thread) : (t.setCtl f).strand = t.strand := rfl
@[simp] theorem Thread.setCtl_lane (f : Ctl → Ctl) (t : Thread) : (t.setCtl f).lane = t.lane := rfl
@[simp] theorem Thread.setCtl_width (f : Ctl → Ctl) (t : Thread) : (t.setCtl f).width = t.width := rfl
@[simp] theorem Thread.setCtl_seedling (f : Ctl → Ctl) (t : Thread) : (t.setCtl f).seedling = t.seedling := rfl
@[simp] theorem Thread.setCtl_core (f : Ctl → Ctl) (t : Thread) : (t.setCtl f).core = t.core := rfl
@[simp] theorem Thread.setCtl_life (f : Ctl → Ctl) (t : Thread) : (t.setCtl f).life = t.life := rfl
@[simp] theorem Thread.setCtl_regs (f : Ctl → Ctl) (t : Thread) : (t.setCtl f).regs = t.regs := rfl
@[simp] theorem Thread.setCtl_preds (f : Ctl → Ctl) (t : Thread) : (t.setCtl f).preds = t.preds := rfl
@[simp] theorem Thread.setCtl_ctl (f : Ctl → Ctl) (t : Thread) : (t.setCtl f).ctl = t.ctl := rfl
@[simp] theorem Thread.setCtl_fpc (f : Ctl → Ctl) (t : Thread) : (t.setCtl f).fpc = t.fpc := rfl
@[simp] theorem Thread.setCtl_flg (f : Ctl → Ctl) (t : Thread) : (t.setCtl f).flg = t.flg := rfl
@[simp] theorem Thread.setCtl_tpc (f : Ctl → Ctl) (t : Thread) : (t.setCtl f).tpc = t.tpc := rfl
@[simp] theorem Thread.setCtl_tcause (f : Ctl → Ctl) (t : Thread) : (t.setCtl f).tcause = t.tcause := rfl
@[simp] theorem Thread.setCtl_tmask (f : Ctl → Ctl) (t : Thread) : (t.setCtl f).tmask = t.tmask := rfl
@[simp] theorem Thread.setCtl_tval (f : Ctl → Ctl) (t : Thread) : (t.setCtl f).tval = t.tval := rfl
@[simp] theorem Thread.setCtl_th (f : Ctl → Ctl) (t : Thread) : (t.setCtl f).th = t.th := rfl
@[simp] theorem Thread.setCtl_bankRegs (f : Ctl → Ctl) (t : Thread) : (t.setCtl f).bankRegs = t.bankRegs := rfl
@[simp] theorem Thread.setCtl_bankLc (f : Ctl → Ctl) (t : Thread) : (t.setCtl f).bankLc = t.bankLc := rfl
@[simp] theorem Thread.setCtl_bankMm (f : Ctl → Ctl) (t : Thread) : (t.setCtl f).bankMm = t.bankMm := rfl
@[simp] theorem Thread.setCtl_bankFrames (f : Ctl → Ctl) (t : Thread) : (t.setCtl f).bankFrames = t.bankFrames := rfl
@[simp] theorem Thread.setCtl_seedw (f : Ctl → Ctl) (t : Thread) : (t.setCtl f).seedw = t.seedw := rfl
@[simp] theorem Thread.setCtl_stand (f : Ctl → Ctl) (t : Thread) : (t.setCtl f).stand = t.stand := rfl
@[simp] theorem Thread.setCtl_team (f : Ctl → Ctl) (t : Thread) : (t.setCtl f).team = t.team := rfl
@[simp] theorem Thread.setCtl_wait (f : Ctl → Ctl) (t : Thread) : (t.setCtl f).wait = t.wait := rfl
@[simp] theorem Thread.setCtl_txn (f : Ctl → Ctl) (t : Thread) : (t.setCtl f).txn = t.txn := rfl
@[simp] theorem Thread.setCtl_dqPos (f : Ctl → Ctl) (t : Thread) : (t.setCtl f).dqPos = t.dqPos := rfl
@[simp] theorem Thread.setCtl_gbars (f : Ctl → Ctl) (t : Thread) : (t.setCtl f).gbars = t.gbars := rfl
@[simp] theorem Thread.setCtl_ssteps (f : Ctl → Ctl) (t : Thread) : (t.setCtl f).ssteps = t.ssteps := rfl
@[simp] theorem Thread.setCtl_arrived (f : Ctl → Ctl) (t : Thread) : (t.setCtl f).arrived = t.arrived := rfl
@[simp] theorem Thread.setCtl_arriveGt (f : Ctl → Ctl) (t : Thread) : (t.setCtl f).arriveGt = t.arriveGt := rfl
@[simp] theorem Thread.setCtl_again (f : Ctl → Ctl) (t : Thread) : (t.setCtl f).again = t.again := rfl
@[simp] theorem Thread.setCtl_spawnOrd (f : Ctl → Ctl) (t : Thread) : (t.setCtl f).spawnOrd = t.spawnOrd := rfl
@[simp] theorem Thread.setCtl_traceOrd (f : Ctl → Ctl) (t : Thread) : (t.setCtl f).traceOrd = t.traceOrd := rfl
@[simp] theorem Thread.setCtl_postOrd (f : Ctl → Ctl) (t : Thread) : (t.setCtl f).postOrd = t.postOrd := rfl
@[simp] theorem Thread.setCtl_beamOrd (f : Ctl → Ctl) (t : Thread) : (t.setCtl f).beamOrd = t.beamOrd := rfl
@[simp] theorem Thread.setCtl_age (f : Ctl → Ctl) (t : Thread) : (t.setCtl f).age = t.age := rfl
@[simp] theorem Thread.setCtl_yielded (f : Ctl → Ctl) (t : Thread) : (t.setCtl f).yielded = t.yielded := rfl
@[simp] theorem Thread.setCtl_since (f : Ctl → Ctl) (t : Thread) : (t.setCtl f).since = t.since := rfl
@[simp] theorem Thread.setCtl_issuedAt (f : Ctl → Ctl) (t : Thread) : (t.setCtl f).issuedAt = t.issuedAt := rfl

@[simp] theorem Thread.jump_front (p : Word) (t : Thread) : (t.jump p).front = t.front := rfl
@[simp] theorem Thread.jump_tid (p : Word) (t : Thread) : (t.jump p).tid = t.tid := rfl
@[simp] theorem Thread.jump_strand (p : Word) (t : Thread) : (t.jump p).strand = t.strand := rfl
@[simp] theorem Thread.jump_lane (p : Word) (t : Thread) : (t.jump p).lane = t.lane := rfl
@[simp] theorem Thread.jump_width (p : Word) (t : Thread) : (t.jump p).width = t.width := rfl
@[simp] theorem Thread.jump_seedling (p : Word) (t : Thread) : (t.jump p).seedling = t.seedling := rfl
@[simp] theorem Thread.jump_core (p : Word) (t : Thread) : (t.jump p).core = t.core := rfl
@[simp] theorem Thread.jump_life (p : Word) (t : Thread) : (t.jump p).life = t.life := rfl
@[simp] theorem Thread.jump_regs (p : Word) (t : Thread) : (t.jump p).regs = t.regs := rfl
@[simp] theorem Thread.jump_preds (p : Word) (t : Thread) : (t.jump p).preds = t.preds := rfl
@[simp] theorem Thread.jump_ctl (p : Word) (t : Thread) : (t.jump p).ctl = t.ctl := rfl
@[simp] theorem Thread.jump_fpc (p : Word) (t : Thread) : (t.jump p).fpc = t.fpc := rfl
@[simp] theorem Thread.jump_flg (p : Word) (t : Thread) : (t.jump p).flg = t.flg := rfl
@[simp] theorem Thread.jump_tpc (p : Word) (t : Thread) : (t.jump p).tpc = t.tpc := rfl
@[simp] theorem Thread.jump_tcause (p : Word) (t : Thread) : (t.jump p).tcause = t.tcause := rfl
@[simp] theorem Thread.jump_tmask (p : Word) (t : Thread) : (t.jump p).tmask = t.tmask := rfl
@[simp] theorem Thread.jump_tval (p : Word) (t : Thread) : (t.jump p).tval = t.tval := rfl
@[simp] theorem Thread.jump_th (p : Word) (t : Thread) : (t.jump p).th = t.th := rfl
@[simp] theorem Thread.jump_bankRegs (p : Word) (t : Thread) : (t.jump p).bankRegs = t.bankRegs := rfl
@[simp] theorem Thread.jump_bankLc (p : Word) (t : Thread) : (t.jump p).bankLc = t.bankLc := rfl
@[simp] theorem Thread.jump_bankMm (p : Word) (t : Thread) : (t.jump p).bankMm = t.bankMm := rfl
@[simp] theorem Thread.jump_bankFrames (p : Word) (t : Thread) : (t.jump p).bankFrames = t.bankFrames := rfl
@[simp] theorem Thread.jump_seedw (p : Word) (t : Thread) : (t.jump p).seedw = t.seedw := rfl
@[simp] theorem Thread.jump_stand (p : Word) (t : Thread) : (t.jump p).stand = t.stand := rfl
@[simp] theorem Thread.jump_team (p : Word) (t : Thread) : (t.jump p).team = t.team := rfl
@[simp] theorem Thread.jump_wait (p : Word) (t : Thread) : (t.jump p).wait = t.wait := rfl
@[simp] theorem Thread.jump_txn (p : Word) (t : Thread) : (t.jump p).txn = t.txn := rfl
@[simp] theorem Thread.jump_dqPos (p : Word) (t : Thread) : (t.jump p).dqPos = t.dqPos := rfl
@[simp] theorem Thread.jump_gbars (p : Word) (t : Thread) : (t.jump p).gbars = t.gbars := rfl
@[simp] theorem Thread.jump_ssteps (p : Word) (t : Thread) : (t.jump p).ssteps = t.ssteps := rfl
@[simp] theorem Thread.jump_arrived (p : Word) (t : Thread) : (t.jump p).arrived = t.arrived := rfl
@[simp] theorem Thread.jump_arriveGt (p : Word) (t : Thread) : (t.jump p).arriveGt = t.arriveGt := rfl
@[simp] theorem Thread.jump_again (p : Word) (t : Thread) : (t.jump p).again = t.again := rfl
@[simp] theorem Thread.jump_spawnOrd (p : Word) (t : Thread) : (t.jump p).spawnOrd = t.spawnOrd := rfl
@[simp] theorem Thread.jump_traceOrd (p : Word) (t : Thread) : (t.jump p).traceOrd = t.traceOrd := rfl
@[simp] theorem Thread.jump_postOrd (p : Word) (t : Thread) : (t.jump p).postOrd = t.postOrd := rfl
@[simp] theorem Thread.jump_beamOrd (p : Word) (t : Thread) : (t.jump p).beamOrd = t.beamOrd := rfl
@[simp] theorem Thread.jump_age (p : Word) (t : Thread) : (t.jump p).age = t.age := rfl
@[simp] theorem Thread.jump_yielded (p : Word) (t : Thread) : (t.jump p).yielded = t.yielded := rfl
@[simp] theorem Thread.jump_since (p : Word) (t : Thread) : (t.jump p).since = t.since := rfl
@[simp] theorem Thread.jump_issuedAt (p : Word) (t : Thread) : (t.jump p).issuedAt = t.issuedAt := rfl

@[simp] theorem Thread.endWord_front (n : Nat) (e : Bool) (t : Thread) : (t.endWord n e).front = t.front := rfl
@[simp] theorem Thread.endWord_tid (n : Nat) (e : Bool) (t : Thread) : (t.endWord n e).tid = t.tid := rfl
@[simp] theorem Thread.endWord_strand (n : Nat) (e : Bool) (t : Thread) : (t.endWord n e).strand = t.strand := rfl
@[simp] theorem Thread.endWord_lane (n : Nat) (e : Bool) (t : Thread) : (t.endWord n e).lane = t.lane := rfl
@[simp] theorem Thread.endWord_width (n : Nat) (e : Bool) (t : Thread) : (t.endWord n e).width = t.width := rfl
@[simp] theorem Thread.endWord_seedling (n : Nat) (e : Bool) (t : Thread) : (t.endWord n e).seedling = t.seedling := rfl
@[simp] theorem Thread.endWord_core (n : Nat) (e : Bool) (t : Thread) : (t.endWord n e).core = t.core := rfl
@[simp] theorem Thread.endWord_life (n : Nat) (e : Bool) (t : Thread) : (t.endWord n e).life = t.life := rfl
@[simp] theorem Thread.endWord_regs (n : Nat) (e : Bool) (t : Thread) : (t.endWord n e).regs = t.regs := rfl
@[simp] theorem Thread.endWord_preds (n : Nat) (e : Bool) (t : Thread) : (t.endWord n e).preds = t.preds := rfl
@[simp] theorem Thread.endWord_ctl (n : Nat) (e : Bool) (t : Thread) : (t.endWord n e).ctl = t.ctl := rfl
@[simp] theorem Thread.endWord_fpc (n : Nat) (e : Bool) (t : Thread) : (t.endWord n e).fpc = t.fpc := rfl
@[simp] theorem Thread.endWord_flg (n : Nat) (e : Bool) (t : Thread) : (t.endWord n e).flg = t.flg := rfl
@[simp] theorem Thread.endWord_tpc (n : Nat) (e : Bool) (t : Thread) : (t.endWord n e).tpc = t.tpc := rfl
@[simp] theorem Thread.endWord_tcause (n : Nat) (e : Bool) (t : Thread) : (t.endWord n e).tcause = t.tcause := rfl
@[simp] theorem Thread.endWord_tmask (n : Nat) (e : Bool) (t : Thread) : (t.endWord n e).tmask = t.tmask := rfl
@[simp] theorem Thread.endWord_tval (n : Nat) (e : Bool) (t : Thread) : (t.endWord n e).tval = t.tval := rfl
@[simp] theorem Thread.endWord_th (n : Nat) (e : Bool) (t : Thread) : (t.endWord n e).th = t.th := rfl
@[simp] theorem Thread.endWord_bankRegs (n : Nat) (e : Bool) (t : Thread) : (t.endWord n e).bankRegs = t.bankRegs := rfl
@[simp] theorem Thread.endWord_bankLc (n : Nat) (e : Bool) (t : Thread) : (t.endWord n e).bankLc = t.bankLc := rfl
@[simp] theorem Thread.endWord_bankMm (n : Nat) (e : Bool) (t : Thread) : (t.endWord n e).bankMm = t.bankMm := rfl
@[simp] theorem Thread.endWord_bankFrames (n : Nat) (e : Bool) (t : Thread) : (t.endWord n e).bankFrames = t.bankFrames := rfl
@[simp] theorem Thread.endWord_seedw (n : Nat) (e : Bool) (t : Thread) : (t.endWord n e).seedw = t.seedw := rfl
@[simp] theorem Thread.endWord_stand (n : Nat) (e : Bool) (t : Thread) : (t.endWord n e).stand = t.stand := rfl
@[simp] theorem Thread.endWord_team (n : Nat) (e : Bool) (t : Thread) : (t.endWord n e).team = t.team := rfl
@[simp] theorem Thread.endWord_wait (n : Nat) (e : Bool) (t : Thread) : (t.endWord n e).wait = t.wait := rfl
@[simp] theorem Thread.endWord_txn (n : Nat) (e : Bool) (t : Thread) : (t.endWord n e).txn = t.txn := rfl
@[simp] theorem Thread.endWord_dqPos (n : Nat) (e : Bool) (t : Thread) : (t.endWord n e).dqPos = t.dqPos := rfl
@[simp] theorem Thread.endWord_gbars (n : Nat) (e : Bool) (t : Thread) : (t.endWord n e).gbars = t.gbars := rfl
@[simp] theorem Thread.endWord_ssteps (n : Nat) (e : Bool) (t : Thread) : (t.endWord n e).ssteps = t.ssteps := rfl
@[simp] theorem Thread.endWord_arrived (n : Nat) (e : Bool) (t : Thread) : (t.endWord n e).arrived = t.arrived := rfl
@[simp] theorem Thread.endWord_arriveGt (n : Nat) (e : Bool) (t : Thread) : (t.endWord n e).arriveGt = t.arriveGt := rfl
@[simp] theorem Thread.endWord_again (n : Nat) (e : Bool) (t : Thread) : (t.endWord n e).again = t.again := rfl
@[simp] theorem Thread.endWord_spawnOrd (n : Nat) (e : Bool) (t : Thread) : (t.endWord n e).spawnOrd = t.spawnOrd := rfl
@[simp] theorem Thread.endWord_traceOrd (n : Nat) (e : Bool) (t : Thread) : (t.endWord n e).traceOrd = t.traceOrd := rfl
@[simp] theorem Thread.endWord_postOrd (n : Nat) (e : Bool) (t : Thread) : (t.endWord n e).postOrd = t.postOrd := rfl
@[simp] theorem Thread.endWord_beamOrd (n : Nat) (e : Bool) (t : Thread) : (t.endWord n e).beamOrd = t.beamOrd := rfl
@[simp] theorem Thread.endWord_age (n : Nat) (e : Bool) (t : Thread) : (t.endWord n e).age = t.age := rfl
@[simp] theorem Thread.endWord_yielded (n : Nat) (e : Bool) (t : Thread) : (t.endWord n e).yielded = t.yielded := rfl
@[simp] theorem Thread.endWord_since (n : Nat) (e : Bool) (t : Thread) : (t.endWord n e).since = t.since := rfl
@[simp] theorem Thread.endWord_issuedAt (n : Nat) (e : Bool) (t : Thread) : (t.endWord n e).issuedAt = t.issuedAt := rfl

@[simp] theorem Thread.endHere_front (t : Thread) : (t.endHere).front = t.front := rfl
@[simp] theorem Thread.endHere_tid (t : Thread) : (t.endHere).tid = t.tid := rfl
@[simp] theorem Thread.endHere_strand (t : Thread) : (t.endHere).strand = t.strand := rfl
@[simp] theorem Thread.endHere_lane (t : Thread) : (t.endHere).lane = t.lane := rfl
@[simp] theorem Thread.endHere_width (t : Thread) : (t.endHere).width = t.width := rfl
@[simp] theorem Thread.endHere_seedling (t : Thread) : (t.endHere).seedling = t.seedling := rfl
@[simp] theorem Thread.endHere_core (t : Thread) : (t.endHere).core = t.core := rfl
@[simp] theorem Thread.endHere_life (t : Thread) : (t.endHere).life = t.life := rfl
@[simp] theorem Thread.endHere_regs (t : Thread) : (t.endHere).regs = t.regs := rfl
@[simp] theorem Thread.endHere_preds (t : Thread) : (t.endHere).preds = t.preds := rfl
@[simp] theorem Thread.endHere_ctl (t : Thread) : (t.endHere).ctl = t.ctl := rfl
@[simp] theorem Thread.endHere_fpc (t : Thread) : (t.endHere).fpc = t.fpc := rfl
@[simp] theorem Thread.endHere_flg (t : Thread) : (t.endHere).flg = t.flg := rfl
@[simp] theorem Thread.endHere_tpc (t : Thread) : (t.endHere).tpc = t.tpc := rfl
@[simp] theorem Thread.endHere_tcause (t : Thread) : (t.endHere).tcause = t.tcause := rfl
@[simp] theorem Thread.endHere_tmask (t : Thread) : (t.endHere).tmask = t.tmask := rfl
@[simp] theorem Thread.endHere_tval (t : Thread) : (t.endHere).tval = t.tval := rfl
@[simp] theorem Thread.endHere_th (t : Thread) : (t.endHere).th = t.th := rfl
@[simp] theorem Thread.endHere_bankRegs (t : Thread) : (t.endHere).bankRegs = t.bankRegs := rfl
@[simp] theorem Thread.endHere_bankLc (t : Thread) : (t.endHere).bankLc = t.bankLc := rfl
@[simp] theorem Thread.endHere_bankMm (t : Thread) : (t.endHere).bankMm = t.bankMm := rfl
@[simp] theorem Thread.endHere_bankFrames (t : Thread) : (t.endHere).bankFrames = t.bankFrames := rfl
@[simp] theorem Thread.endHere_seedw (t : Thread) : (t.endHere).seedw = t.seedw := rfl
@[simp] theorem Thread.endHere_stand (t : Thread) : (t.endHere).stand = t.stand := rfl
@[simp] theorem Thread.endHere_team (t : Thread) : (t.endHere).team = t.team := rfl
@[simp] theorem Thread.endHere_wait (t : Thread) : (t.endHere).wait = t.wait := rfl
@[simp] theorem Thread.endHere_txn (t : Thread) : (t.endHere).txn = t.txn := rfl
@[simp] theorem Thread.endHere_dqPos (t : Thread) : (t.endHere).dqPos = t.dqPos := rfl
@[simp] theorem Thread.endHere_gbars (t : Thread) : (t.endHere).gbars = t.gbars := rfl
@[simp] theorem Thread.endHere_ssteps (t : Thread) : (t.endHere).ssteps = t.ssteps := rfl
@[simp] theorem Thread.endHere_arrived (t : Thread) : (t.endHere).arrived = t.arrived := rfl
@[simp] theorem Thread.endHere_arriveGt (t : Thread) : (t.endHere).arriveGt = t.arriveGt := rfl
@[simp] theorem Thread.endHere_again (t : Thread) : (t.endHere).again = t.again := rfl
@[simp] theorem Thread.endHere_spawnOrd (t : Thread) : (t.endHere).spawnOrd = t.spawnOrd := rfl
@[simp] theorem Thread.endHere_traceOrd (t : Thread) : (t.endHere).traceOrd = t.traceOrd := rfl
@[simp] theorem Thread.endHere_postOrd (t : Thread) : (t.endHere).postOrd = t.postOrd := rfl
@[simp] theorem Thread.endHere_beamOrd (t : Thread) : (t.endHere).beamOrd = t.beamOrd := rfl
@[simp] theorem Thread.endHere_age (t : Thread) : (t.endHere).age = t.age := rfl
@[simp] theorem Thread.endHere_yielded (t : Thread) : (t.endHere).yielded = t.yielded := rfl
@[simp] theorem Thread.endHere_since (t : Thread) : (t.endHere).since = t.since := rfl
@[simp] theorem Thread.endHere_issuedAt (t : Thread) : (t.endHere).issuedAt = t.issuedAt := rfl

@[simp] theorem Thread.trap_front (c d : Nat) (x : Bool) (v : DWord) (t : Thread) : (t.trap c d x v).front = t.front := rfl
@[simp] theorem Thread.trap_tid (c d : Nat) (x : Bool) (v : DWord) (t : Thread) : (t.trap c d x v).tid = t.tid := rfl
@[simp] theorem Thread.trap_strand (c d : Nat) (x : Bool) (v : DWord) (t : Thread) : (t.trap c d x v).strand = t.strand := rfl
@[simp] theorem Thread.trap_lane (c d : Nat) (x : Bool) (v : DWord) (t : Thread) : (t.trap c d x v).lane = t.lane := rfl
@[simp] theorem Thread.trap_width (c d : Nat) (x : Bool) (v : DWord) (t : Thread) : (t.trap c d x v).width = t.width := rfl
@[simp] theorem Thread.trap_seedling (c d : Nat) (x : Bool) (v : DWord) (t : Thread) : (t.trap c d x v).seedling = t.seedling := rfl
@[simp] theorem Thread.trap_core (c d : Nat) (x : Bool) (v : DWord) (t : Thread) : (t.trap c d x v).core = t.core := rfl
@[simp] theorem Thread.trap_life (c d : Nat) (x : Bool) (v : DWord) (t : Thread) : (t.trap c d x v).life = t.life := rfl
@[simp] theorem Thread.trap_regs (c d : Nat) (x : Bool) (v : DWord) (t : Thread) : (t.trap c d x v).regs = t.regs := rfl
@[simp] theorem Thread.trap_preds (c d : Nat) (x : Bool) (v : DWord) (t : Thread) : (t.trap c d x v).preds = t.preds := rfl
@[simp] theorem Thread.trap_ctl (c d : Nat) (x : Bool) (v : DWord) (t : Thread) : (t.trap c d x v).ctl = t.ctl := rfl
@[simp] theorem Thread.trap_fpc (c d : Nat) (x : Bool) (v : DWord) (t : Thread) : (t.trap c d x v).fpc = t.fpc := rfl
@[simp] theorem Thread.trap_flg (c d : Nat) (x : Bool) (v : DWord) (t : Thread) : (t.trap c d x v).flg = t.flg := rfl
@[simp] theorem Thread.trap_tpc (c d : Nat) (x : Bool) (v : DWord) (t : Thread) : (t.trap c d x v).tpc = t.tpc := rfl
@[simp] theorem Thread.trap_tcause (c d : Nat) (x : Bool) (v : DWord) (t : Thread) : (t.trap c d x v).tcause = t.tcause := rfl
@[simp] theorem Thread.trap_tmask (c d : Nat) (x : Bool) (v : DWord) (t : Thread) : (t.trap c d x v).tmask = t.tmask := rfl
@[simp] theorem Thread.trap_tval (c d : Nat) (x : Bool) (v : DWord) (t : Thread) : (t.trap c d x v).tval = t.tval := rfl
@[simp] theorem Thread.trap_th (c d : Nat) (x : Bool) (v : DWord) (t : Thread) : (t.trap c d x v).th = t.th := rfl
@[simp] theorem Thread.trap_bankRegs (c d : Nat) (x : Bool) (v : DWord) (t : Thread) : (t.trap c d x v).bankRegs = t.bankRegs := rfl
@[simp] theorem Thread.trap_bankLc (c d : Nat) (x : Bool) (v : DWord) (t : Thread) : (t.trap c d x v).bankLc = t.bankLc := rfl
@[simp] theorem Thread.trap_bankMm (c d : Nat) (x : Bool) (v : DWord) (t : Thread) : (t.trap c d x v).bankMm = t.bankMm := rfl
@[simp] theorem Thread.trap_bankFrames (c d : Nat) (x : Bool) (v : DWord) (t : Thread) : (t.trap c d x v).bankFrames = t.bankFrames := rfl
@[simp] theorem Thread.trap_seedw (c d : Nat) (x : Bool) (v : DWord) (t : Thread) : (t.trap c d x v).seedw = t.seedw := rfl
@[simp] theorem Thread.trap_stand (c d : Nat) (x : Bool) (v : DWord) (t : Thread) : (t.trap c d x v).stand = t.stand := rfl
@[simp] theorem Thread.trap_team (c d : Nat) (x : Bool) (v : DWord) (t : Thread) : (t.trap c d x v).team = t.team := rfl
@[simp] theorem Thread.trap_txn (c d : Nat) (x : Bool) (v : DWord) (t : Thread) : (t.trap c d x v).txn = t.txn := rfl
@[simp] theorem Thread.trap_dqPos (c d : Nat) (x : Bool) (v : DWord) (t : Thread) : (t.trap c d x v).dqPos = t.dqPos := rfl
@[simp] theorem Thread.trap_gbars (c d : Nat) (x : Bool) (v : DWord) (t : Thread) : (t.trap c d x v).gbars = t.gbars := rfl
@[simp] theorem Thread.trap_ssteps (c d : Nat) (x : Bool) (v : DWord) (t : Thread) : (t.trap c d x v).ssteps = t.ssteps := rfl
@[simp] theorem Thread.trap_arrived (c d : Nat) (x : Bool) (v : DWord) (t : Thread) : (t.trap c d x v).arrived = t.arrived := rfl
@[simp] theorem Thread.trap_arriveGt (c d : Nat) (x : Bool) (v : DWord) (t : Thread) : (t.trap c d x v).arriveGt = t.arriveGt := rfl
@[simp] theorem Thread.trap_again (c d : Nat) (x : Bool) (v : DWord) (t : Thread) : (t.trap c d x v).again = t.again := rfl
@[simp] theorem Thread.trap_spawnOrd (c d : Nat) (x : Bool) (v : DWord) (t : Thread) : (t.trap c d x v).spawnOrd = t.spawnOrd := rfl
@[simp] theorem Thread.trap_traceOrd (c d : Nat) (x : Bool) (v : DWord) (t : Thread) : (t.trap c d x v).traceOrd = t.traceOrd := rfl
@[simp] theorem Thread.trap_postOrd (c d : Nat) (x : Bool) (v : DWord) (t : Thread) : (t.trap c d x v).postOrd = t.postOrd := rfl
@[simp] theorem Thread.trap_beamOrd (c d : Nat) (x : Bool) (v : DWord) (t : Thread) : (t.trap c d x v).beamOrd = t.beamOrd := rfl
@[simp] theorem Thread.trap_age (c d : Nat) (x : Bool) (v : DWord) (t : Thread) : (t.trap c d x v).age = t.age := rfl
@[simp] theorem Thread.trap_yielded (c d : Nat) (x : Bool) (v : DWord) (t : Thread) : (t.trap c d x v).yielded = t.yielded := rfl
@[simp] theorem Thread.trap_since (c d : Nat) (x : Bool) (v : DWord) (t : Thread) : (t.trap c d x v).since = t.since := rfl
@[simp] theorem Thread.trap_issuedAt (c d : Nat) (x : Bool) (v : DWord) (t : Thread) : (t.trap c d x v).issuedAt = t.issuedAt := rfl

@[simp] theorem Thread.abortTxn_front (c : Nat) (t : Thread) : (t.abortTxn c).front = t.front := rfl
@[simp] theorem Thread.abortTxn_tid (c : Nat) (t : Thread) : (t.abortTxn c).tid = t.tid := rfl
@[simp] theorem Thread.abortTxn_strand (c : Nat) (t : Thread) : (t.abortTxn c).strand = t.strand := rfl
@[simp] theorem Thread.abortTxn_lane (c : Nat) (t : Thread) : (t.abortTxn c).lane = t.lane := rfl
@[simp] theorem Thread.abortTxn_width (c : Nat) (t : Thread) : (t.abortTxn c).width = t.width := rfl
@[simp] theorem Thread.abortTxn_seedling (c : Nat) (t : Thread) : (t.abortTxn c).seedling = t.seedling := rfl
@[simp] theorem Thread.abortTxn_core (c : Nat) (t : Thread) : (t.abortTxn c).core = t.core := rfl
@[simp] theorem Thread.abortTxn_life (c : Nat) (t : Thread) : (t.abortTxn c).life = t.life := rfl
@[simp] theorem Thread.abortTxn_regs (c : Nat) (t : Thread) : (t.abortTxn c).regs = t.regs := rfl
@[simp] theorem Thread.abortTxn_preds (c : Nat) (t : Thread) : (t.abortTxn c).preds = t.preds := rfl
@[simp] theorem Thread.abortTxn_ctl (c : Nat) (t : Thread) : (t.abortTxn c).ctl = t.ctl := rfl
@[simp] theorem Thread.abortTxn_fpc (c : Nat) (t : Thread) : (t.abortTxn c).fpc = t.fpc := rfl
@[simp] theorem Thread.abortTxn_flg (c : Nat) (t : Thread) : (t.abortTxn c).flg = t.flg := rfl
@[simp] theorem Thread.abortTxn_tpc (c : Nat) (t : Thread) : (t.abortTxn c).tpc = t.tpc := rfl
@[simp] theorem Thread.abortTxn_tcause (c : Nat) (t : Thread) : (t.abortTxn c).tcause = t.tcause := rfl
@[simp] theorem Thread.abortTxn_tmask (c : Nat) (t : Thread) : (t.abortTxn c).tmask = t.tmask := rfl
@[simp] theorem Thread.abortTxn_tval (c : Nat) (t : Thread) : (t.abortTxn c).tval = t.tval := rfl
@[simp] theorem Thread.abortTxn_th (c : Nat) (t : Thread) : (t.abortTxn c).th = t.th := rfl
@[simp] theorem Thread.abortTxn_bankRegs (c : Nat) (t : Thread) : (t.abortTxn c).bankRegs = t.bankRegs := rfl
@[simp] theorem Thread.abortTxn_bankLc (c : Nat) (t : Thread) : (t.abortTxn c).bankLc = t.bankLc := rfl
@[simp] theorem Thread.abortTxn_bankMm (c : Nat) (t : Thread) : (t.abortTxn c).bankMm = t.bankMm := rfl
@[simp] theorem Thread.abortTxn_bankFrames (c : Nat) (t : Thread) : (t.abortTxn c).bankFrames = t.bankFrames := rfl
@[simp] theorem Thread.abortTxn_seedw (c : Nat) (t : Thread) : (t.abortTxn c).seedw = t.seedw := rfl
@[simp] theorem Thread.abortTxn_stand (c : Nat) (t : Thread) : (t.abortTxn c).stand = t.stand := rfl
@[simp] theorem Thread.abortTxn_team (c : Nat) (t : Thread) : (t.abortTxn c).team = t.team := rfl
@[simp] theorem Thread.abortTxn_txn (c : Nat) (t : Thread) : (t.abortTxn c).txn = t.txn := rfl
@[simp] theorem Thread.abortTxn_dqPos (c : Nat) (t : Thread) : (t.abortTxn c).dqPos = t.dqPos := rfl
@[simp] theorem Thread.abortTxn_gbars (c : Nat) (t : Thread) : (t.abortTxn c).gbars = t.gbars := rfl
@[simp] theorem Thread.abortTxn_ssteps (c : Nat) (t : Thread) : (t.abortTxn c).ssteps = t.ssteps := rfl
@[simp] theorem Thread.abortTxn_arrived (c : Nat) (t : Thread) : (t.abortTxn c).arrived = t.arrived := rfl
@[simp] theorem Thread.abortTxn_arriveGt (c : Nat) (t : Thread) : (t.abortTxn c).arriveGt = t.arriveGt := rfl
@[simp] theorem Thread.abortTxn_again (c : Nat) (t : Thread) : (t.abortTxn c).again = t.again := rfl
@[simp] theorem Thread.abortTxn_spawnOrd (c : Nat) (t : Thread) : (t.abortTxn c).spawnOrd = t.spawnOrd := rfl
@[simp] theorem Thread.abortTxn_traceOrd (c : Nat) (t : Thread) : (t.abortTxn c).traceOrd = t.traceOrd := rfl
@[simp] theorem Thread.abortTxn_postOrd (c : Nat) (t : Thread) : (t.abortTxn c).postOrd = t.postOrd := rfl
@[simp] theorem Thread.abortTxn_beamOrd (c : Nat) (t : Thread) : (t.abortTxn c).beamOrd = t.beamOrd := rfl
@[simp] theorem Thread.abortTxn_age (c : Nat) (t : Thread) : (t.abortTxn c).age = t.age := rfl
@[simp] theorem Thread.abortTxn_yielded (c : Nat) (t : Thread) : (t.abortTxn c).yielded = t.yielded := rfl
@[simp] theorem Thread.abortTxn_since (c : Nat) (t : Thread) : (t.abortTxn c).since = t.since := rfl
@[simp] theorem Thread.abortTxn_issuedAt (c : Nat) (t : Thread) : (t.abortTxn c).issuedAt = t.issuedAt := rfl

@[simp] theorem Thread.openSeg_tid (a : List (Nat × Word)) (t : Thread) : (t.openSeg a).tid = t.tid := by
  unfold Thread.openSeg; split <;> rfl
@[simp] theorem Thread.openSeg_front (a : List (Nat × Word)) (t : Thread) : (t.openSeg a).front = t.front := by
  unfold Thread.openSeg; split <;> rfl
@[simp] theorem Thread.openSeg_stand (a : List (Nat × Word)) (t : Thread) : (t.openSeg a).stand = t.stand := by
  unfold Thread.openSeg; split <;> rfl
@[simp] theorem Thread.openSeg_team (a : List (Nat × Word)) (t : Thread) : (t.openSeg a).team = t.team := by
  unfold Thread.openSeg; split <;> rfl
@[simp] theorem Thread.raiseFlags_tid (n : Nat) (t : Thread) : (t.raiseFlags n).tid = t.tid := by
  unfold Thread.raiseFlags; split <;> rfl
@[simp] theorem Thread.raiseFlags_front (n : Nat) (t : Thread) : (t.raiseFlags n).front = t.front := by
  unfold Thread.raiseFlags; split <;> rfl
@[simp] theorem Thread.apply_tid (x : Bool) (o : WordOut) (t : Thread) : (t.apply x o).tid = t.tid := by
  unfold Thread.apply; split <;> simp

@[simp] theorem State.modGrove_groves (s : State) (i : Nat) (f : Grove → Grove) :
    (s.modGrove i f).groves = s.groves.map fun g => if g.id == i then f g else g := rfl

@[simp] theorem Grove.modLanes_lanes (g : Grove) (p : Thread → Bool) (f : Thread → Thread) :
    (g.modLanes p f).lanes = g.lanes.map fun t => if p t then f t else t := rfl

@[simp] theorem Grove.modThread_id (g : Grove) (w : Who) (f : Thread → Thread) : (g.modThread w f).id = g.id := by
  cases w <;> rfl

@[simp] theorem Grove.modThread_front_front (g : Grove) (f : Thread → Thread) : (g.modThread none f).front = f g.front := rfl

/-- The grove an update names, looked up after it. -/
theorem State.grove?_modGrove_same (s : State) (i : Nat) (f : Grove → Grove) (hf : ∀ g, (f g).id = g.id) :
    (s.modGrove i f).grove? i = (s.grove? i).map f := by
  have e : ((fun g : Grove => g.id == i) ∘ fun g => if g.id == i then f g else g) = fun g => g.id == i := by
    funext g; by_cases h : g.id = i <;> simp [h, hf]
  unfold State.grove?
  rw [State.modGrove_groves, List.find?_map, e]
  cases h : s.groves.find? fun g => g.id == i with
  | none => rfl
  | some g => have := List.find?_some h; simp_all

/-- A grove an update does not name is as it was. -/
theorem State.grove?_modGrove_other (s : State) (i j : Nat) (f : Grove → Grove) (hf : ∀ g, (f g).id = g.id) (hj : j ≠ i) :
    (s.modGrove i f).grove? j = s.grove? j := by
  have e : ((fun g : Grove => g.id == j) ∘ fun g => if g.id == i then f g else g) = fun g => g.id == j := by
    funext g; by_cases h : g.id = i <;> simp [h, hf]
  unfold State.grove?
  rw [State.modGrove_groves, List.find?_map, e]
  cases h : s.groves.find? fun g => g.id == j with
  | none => rfl
  | some g => have := List.find?_some h; simp_all

/-- The lane thread of a TID after a map that keeps TIDs. -/
theorem find?_map_tid (l : List Thread) (k : Nat) (f : Thread → Thread) (hf : ∀ t, (f t).tid = t.tid) :
    (l.map f).find? (fun t => t.tid == k) = (l.find? fun t => t.tid == k).map f := by
  simp [List.find?_map, hf]

/-- A lane thread after an update of the threads p picks. -/
theorem Grove.thread?_modLanes (g : Grove) (k : Nat) (p : Thread → Bool) (f : Thread → Thread) (hf : ∀ t, (f t).tid = t.tid) :
    (g.modLanes p f).thread? (some k) = (g.thread? (some k)).map fun t => if p t then f t else t := by
  simp only [Grove.thread?, Grove.modLanes_lanes]
  exact find?_map_tid _ _ _ fun t => by split <;> simp [hf]

end Sys2Proof.Machine
end

