-- ==== Sys2Proof/Laws/Tab.lean ====
section
/-! SUPPORT. What the sparse tables do: read after write, and the canonical form. -/

namespace Sys2Proof.Machine

@[simp] theorem tabGet_nil {α : Type} (d : α) (k : Nat) : tabGet d [] k = d := rfl

theorem tabGet_insert {α : Type} (d : α) (k j : Nat) (v : α) (t : List (Nat × α)) :
    tabGet d (tabInsert k v t) j = if j = k then v else tabGet d t j := by
  induction t with
  | nil => simp [tabInsert, tabGet, eq_comm]
  | cons e r ih =>
    obtain ⟨i, x⟩ := e
    simp only [tabInsert]
    split
    · simp only [tabGet, eq_comm]
    · split
      · subst_vars; simp only [tabGet]; by_cases h : j = i
        · simp [h]
        · simp [h, Ne.symm h]
      · simp only [tabGet, ih]
        split <;> split <;> simp_all

theorem tabGet_erase {α : Type} (d : α) (k j : Nat) (t : List (Nat × α)) :
    tabGet d (tabErase k t) j = if j = k then d else tabGet d t j := by
  induction t with
  | nil => simp [tabErase]
  | cons e r ih =>
    obtain ⟨i, x⟩ := e
    simp only [tabErase] at ih ⊢
    by_cases h : i = k
    · subst h; simp only [List.filter_cons, bne_self_eq_false, Bool.false_eq_true, ↓reduceIte, ih, tabGet]
      by_cases h : j = i
      · simp [h]
      · simp [h, Ne.symm h]
    · have : (i != k) = true := by simpa using h
      simp only [List.filter_cons, this, ↓reduceIte, tabGet, ih]
      split <;> split <;> simp_all

/-- Read after write: the written key gives the value, every other key what it gave. -/
theorem tabGet_set {α : Type} [DecidableEq α] (d : α) (t : List (Nat × α)) (k j : Nat) (v : α) :
    tabGet d (tabSet d t k v) j = if j = k then v else tabGet d t j := by
  unfold tabSet
  split
  · subst_vars; rw [tabGet_erase]
  · rw [tabGet_insert]

@[simp] theorem tabGet_set_same {α : Type} [DecidableEq α] (d : α) (t : List (Nat × α)) (k : Nat) (v : α) :
    tabGet d (tabSet d t k v) k = v := by simp [tabGet_set]

theorem tabGet_set_other {α : Type} [DecidableEq α] (d : α) (t : List (Nat × α)) (k j : Nat) (v : α) (h : j ≠ k) :
    tabGet d (tabSet d t k v) j = tabGet d t j := by simp [tabGet_set, h]

theorem tabErase_wf {α : Type} [DecidableEq α] (d : α) (k : Nat) (t : List (Nat × α)) (h : tabWf d t = true) :
    tabWf d (tabErase k t) = true := by
  induction t with
  | nil => rfl
  | cons e r ih =>
    obtain ⟨i, x⟩ := e
    simp only [tabWf, Bool.and_eq_true, decide_eq_true_eq, List.all_eq_true] at h
    simp only [tabErase, List.filter_cons] at ih ⊢
    split
    · simp only [tabWf, Bool.and_eq_true, decide_eq_true_eq, List.all_eq_true]
      refine ⟨⟨h.1.1, fun e he => ?_⟩, ih h.2⟩
      exact h.1.2 e (List.mem_of_mem_filter he)
    · exact ih h.2

theorem mem_tabInsert {α : Type} (k : Nat) (v : α) (t : List (Nat × α)) (e : Nat × α) (h : e ∈ tabInsert k v t) :
    e = (k, v) ∨ e ∈ t := by
  induction t with
  | nil => simp [tabInsert] at h; exact .inl h
  | cons f r ih =>
    obtain ⟨i, x⟩ := f
    simp only [tabInsert] at h
    split at h
    · simpa using h
    · split at h
      · rcases List.mem_cons.1 h with h | h
        · exact .inl h
        · exact .inr (List.mem_cons_of_mem _ h)
      · rcases List.mem_cons.1 h with h | h
        · exact .inr (h ▸ List.mem_cons_self)
        · rcases ih h with h | h
          · exact .inl h
          · exact .inr (List.mem_cons_of_mem _ h)

theorem tabInsert_wf {α : Type} [DecidableEq α] (d : α) (k : Nat) (v : α) (t : List (Nat × α)) (hv : v ≠ d)
    (h : tabWf d t = true) : tabWf d (tabInsert k v t) = true := by
  induction t with
  | nil => simp [tabInsert, tabWf, hv]
  | cons e r ih =>
    obtain ⟨i, x⟩ := e
    have h0 := h
    simp only [tabWf, Bool.and_eq_true, decide_eq_true_eq, List.all_eq_true] at h
    simp only [tabInsert]
    split
    · rename_i hk
      simp only [tabWf, Bool.and_eq_true, decide_eq_true_eq, List.all_eq_true]
      refine ⟨⟨hv, fun e he => ?_⟩, ⟨h.1.1, fun e he => h.1.2 e he⟩, h.2⟩
      rcases List.mem_cons.1 he with rfl | he
      · exact hk
      · have := h.1.2 e he; omega
    · split
      · rename_i h1 h2
        simp only [tabWf, Bool.and_eq_true, decide_eq_true_eq, List.all_eq_true]
        exact ⟨⟨hv, fun e he => by have := h.1.2 e he; omega⟩, h.2⟩
      · rename_i h1 h2
        simp only [tabWf, Bool.and_eq_true, decide_eq_true_eq, List.all_eq_true]
        refine ⟨⟨h.1.1, fun e he => ?_⟩, ih h.2⟩
        rcases mem_tabInsert _ _ _ _ he with rfl | he
        · simp only; omega
        · exact h.1.2 e he

/-- Writing keeps the canonical form. -/
theorem tabSet_wf {α : Type} [DecidableEq α] (d : α) (t : List (Nat × α)) (k : Nat) (v : α) (h : tabWf d t = true) :
    tabWf d (tabSet d t k v) = true := by
  unfold tabSet
  split
  · exact tabErase_wf d k t h
  · exact tabInsert_wf d k v t ‹_› h

end Sys2Proof.Machine
end

