-- ==== Sys2Proof/Laws/Thread.lean ====
section
/-! SUPPORT. What a word does to the thread that issues it: registers read back, results put into an open segment, and the thread as the segment leaves it. -/

namespace Sys2Proof.Machine

open Sys2Proof.Safety

/-- A committed register read after a committed write. -/
theorem Thread.arch_setArch (t : Thread) (r q : Reg) (v : Word) :
    (t.setArch r v).arch q = if q = r then (match r with
      | .gpr _ => v
      | .pred _ => if v = 0 then 0 else 1) else t.arch q := by
  cases r with
  | gpr n =>
    cases q with
    | gpr m => by_cases h : m = n <;> simp [Thread.setArch, Thread.arch, tabGet_set, h]
    | pred m => rw [if_neg (by simp)]; rfl
  | pred n =>
    cases q with
    | gpr m => rw [if_neg (by simp)]; rfl
    | pred m => by_cases h : m = n <;> by_cases hv : v = 0 <;> simp [Thread.setArch, Thread.arch, tabGet_set, h, hv]

/-- Results committed, oldest first. -/
def Thread.setAll (rs : List Result) (t : Thread) : Thread := rs.foldl (fun t x => t.setArch x.reg (x.val.getD 0)) t

/-- A thread with other registers and predicates. -/
def Thread.withRegs (t : Thread) (r : List (Nat × Word)) (p : List (Nat × Bool)) : Thread := { t with regs := r, preds := p }

theorem Thread.setArch_eq (t : Thread) (r : Reg) (v : Word) : t.setArch r v = t.withRegs (t.setArch r v).regs (t.setArch r v).preds := by
  cases r <;> rfl

/-- Committing results touches nothing but registers and predicates. -/
theorem Thread.setAll_eq (rs : List Result) (t : Thread) : t.setAll rs = t.withRegs (t.setAll rs).regs (t.setAll rs).preds := by
  induction rs generalizing t with
  | nil => rfl
  | cons x r ih =>
    have h : t.setAll (x :: r) = (t.setArch x.reg (x.val.getD 0)).setAll r := rfl
    rw [h, ih, Thread.setArch_eq]; rfl

@[simp] theorem Thread.setAll_tid (rs : List Result) (t : Thread) : (t.setAll rs).tid = t.tid := by rw [Thread.setAll_eq]; rfl

@[simp] theorem Thread.commitRegs_tid (t : Thread) : t.commitRegs.tid = t.tid := by
  unfold Thread.commitRegs
  split
  · rfl
  · exact Thread.setAll_tid _ t

/-- Registers after results committed, the latest for each register. -/
theorem Thread.arch_setAll (rs : List Result) (t : Thread) (r : Reg) :
    (t.setAll rs).arch r = match rs.reverse.find? fun x => x.reg == r with
      | some x => (match r with
        | .gpr _ => x.val.getD 0
        | .pred _ => if x.val.getD 0 = 0 then 0 else 1)
      | none => t.arch r := by
  induction rs generalizing t with
  | nil => rfl
  | cons x l ih =>
    have h : t.setAll (x :: l) = (t.setArch x.reg (x.val.getD 0)).setAll l := rfl
    rw [h, ih, List.reverse_cons, List.find?_append]
    cases hf : l.reverse.find? fun x => x.reg == r with
    | some y => simp
    | none =>
      rw [Thread.arch_setArch]
      by_cases hr : x.reg = r
      · subst hr; simp
      · have : ¬ r = x.reg := fun e => hr e.symm
        simp [hr, this]

/-- Registers and predicates after results committed, oldest first. -/
def regFold : List Result → List (Nat × Word) × List (Nat × Bool) → List (Nat × Word) × List (Nat × Bool)
  | [], p => p
  | x :: r, p => regFold r (match x.reg with
    | .gpr n => (tabSet 0 p.1 n (x.val.getD 0), p.2)
    | .pred n => (p.1, tabSet false p.2 n (x.val.getD 0 != 0)))

theorem Thread.setAll_regFold (rs : List Result) (t : Thread) :
    t.setAll rs = t.withRegs (regFold rs (t.regs, t.preds)).1 (regFold rs (t.regs, t.preds)).2 := by
  induction rs generalizing t with
  | nil => rfl
  | cons x r ih =>
    have h : t.setAll (x :: r) = (t.setArch x.reg (x.val.getD 0)).setAll r := rfl
    rw [h, ih, regFold]
    cases x.reg <;> rfl

/-- A thread with an open segment as that leaves it. -/
theorem ended_open (t : Thread) (g : Seg) (h : t.seg = some g) :
    ended t = { t with
      regs := (regFold g.results.reverse (t.regs, t.preds)).1
      preds := (regFold g.results.reverse (t.regs, t.preds)).2
      fpc := match g.writes.find? fun x => x.sr == 0 with
        | some w => w.val.toNat
        | none => t.fpc
      flg := g.flgAfter t.flg
      tpc := match g.writes.find? fun x => x.sr == 4 with
        | some w => w.val
        | none => t.tpc
      txn := match g.writes.find? fun x => x.sr == 4 with
        | some _ => { t.txn with eretTo := none }
        | none => t.txn
      ctl := g.ctl
      seg := none
      wait := .none
      team := 0
      stand := 0 } := by
  have e : g.results.reverse.foldl (fun t x => t.setArch x.reg (x.val.getD 0)) t = t.setAll g.results.reverse := rfl
  simp only [ended, Thread.commitRegs, h, e, Thread.setAll_regFold]; rfl

theorem ended_closed (t : Thread) (h : t.seg = none) : ended t = { t with wait := .none, team := 0, stand := 0 } := by
  simp only [ended, Thread.commitRegs, h]

/-- Once the segment has ended, what it was due to hold it holds (R86). -/
theorem ended_commitRegs (t : Thread) : ended t.commitRegs = ended t := by
  cases h : t.seg with
  | none => simp [ended, Thread.commitRegs, h]
  | some g =>
    have : t.commitRegs.seg = none := by simp [Thread.commitRegs, h]
    rw [ended_closed _ this]; rfl

/-- What a register is due to hold (R86): the latest result of the open segment, or the committed value. -/
theorem due_open (t : Thread) (g : Seg) (h : t.seg = some g) (r : Reg) :
    due t r = match g.results.find? fun x => x.reg == r with
      | some x => (match r with
        | .gpr _ => x.val.getD 0
        | .pred _ => if x.val.getD 0 = 0 then 0 else 1)
      | none => t.arch r := by
  have e : ∀ a b : Thread, a.regs = b.regs → a.preds = b.preds → a.arch r = b.arch r := by
    intro a b h1 h2; cases r <;> simp [Thread.arch, h1, h2]
  rw [due, ended_open t g h]
  refine (e _ (t.setAll g.results.reverse) (by rw [Thread.setAll_regFold]; rfl) (by rw [Thread.setAll_regFold]; rfl)).trans ?_
  rw [Thread.arch_setAll, List.reverse_reverse]

theorem due_closed (t : Thread) (h : t.seg = none) (r : Reg) : due t r = t.arch r := by
  rw [due, ended_closed t h]; cases r <;> rfl

end Sys2Proof.Machine
end

