-- ==== Sys2Proof/Laws/Issue.lean ====
section
/-! SUPPORT. Everything a word of a stand or of a front thread can do when it acts on its own threads only: the frame of 04 R83-R88 said once. -/

namespace Sys2Proof.Machine

open Sys2Proof.Safety

@[simp] theorem onlyGroves_refl (s : State) : OnlyGroves s s := rfl

theorem onlyGroves_trans {a b c : State} (h : OnlyGroves a b) (k : OnlyGroves b c) : OnlyGroves a c := by
  unfold OnlyGroves at *; rw [k, h]

@[simp] theorem onlyGroves_modGrove (s : State) (i : Nat) (f : Grove → Grove) : OnlyGroves s (s.modGrove i f) := rfl
@[simp] theorem onlyGroves_modThread (s : State) (i : Nat) (w : Who) (f : Thread → Thread) : OnlyGroves s (s.modThread i w f) := rfl

/-- Two updates of one grove are one. -/
theorem State.modGrove_modGrove (s : State) (i : Nat) (f f' : Grove → Grove) (hf : ∀ g, (f g).id = g.id) :
    (s.modGrove i f).modGrove i f' = s.modGrove i fun g => f' (f g) := by
  simp only [State.modGrove, List.map_map]
  congr 1
  apply List.map_congr_left
  intro g _
  by_cases h : g.id = i <;> simp [h, hf]

/-- A thread about to issue a word: its segment open, the word counted, the PC past it. -/
def Thread.begin (sh : Shape) (start : List (Nat × Word)) (t : Thread) : Thread :=
  { ((t.openSeg start).advance sh.len).countVar sh.nvar with wait := .none }

/-- A thread at the end of a word (R85, R350). -/
def Thread.finish (sh : Shape) (t : Thread) : Thread := t.endWord sh.len (sh.h.s || sh.ends || t.atLimit)

@[simp] theorem Thread.finish_tid (sh : Shape) (t : Thread) : (t.finish sh).tid = t.tid := rfl
@[simp] theorem Thread.finish_strand (sh : Shape) (t : Thread) : (t.finish sh).strand = t.strand := rfl
@[simp] theorem Thread.finish_lane (sh : Shape) (t : Thread) : (t.finish sh).lane = t.lane := rfl
@[simp] theorem Thread.finish_stand (sh : Shape) (t : Thread) : (t.finish sh).stand = t.stand := rfl
@[simp] theorem Thread.finish_team (sh : Shape) (t : Thread) : (t.finish sh).team = t.team := rfl
@[simp] theorem Thread.finish_wait (sh : Shape) (t : Thread) : (t.finish sh).wait = t.wait := rfl

/-- A thread in a word that does F to it where the guard is true, before the word's end (R83). -/
def Thread.wordMid (sh : Shape) (start : List (Nat × Word)) (F : Thread → Thread) (t : Thread) : Thread :=
  if t.guard sh.h then F (t.begin sh start) else t.begin sh start

/-- A thread after the end of the word (R85, R350). -/
def Thread.wordDone (sh : Shape) (start : List (Nat × Word)) (F : Thread → Thread) (t : Thread) : Thread :=
  (t.wordMid sh start F).finish sh

@[simp] theorem Thread.begin_tid (sh : Shape) (a : List (Nat × Word)) (t : Thread) : (t.begin sh a).tid = t.tid := by simp [Thread.begin]
@[simp] theorem Thread.begin_team (sh : Shape) (a : List (Nat × Word)) (t : Thread) : (t.begin sh a).team = t.team := by simp [Thread.begin]
@[simp] theorem Thread.begin_stand (sh : Shape) (a : List (Nat × Word)) (t : Thread) : (t.begin sh a).stand = t.stand := by simp [Thread.begin]

/-- The open segment a thread has or begins. -/
def Thread.segOf (start : List (Nat × Word)) (t : Thread) : Seg := t.seg.getD (Seg.new t.ctl start)

theorem Thread.begin_seg (sh : Shape) (a : List (Nat × Word)) (t : Thread) :
    (t.begin sh a).seg = some { t.segOf a with
      words := (t.segOf a).words + 1
      pcs := (t.segOf a).ctl.pc :: (t.segOf a).pcs
      moved := false
      ctl := { (t.segOf a).ctl with pc := (t.segOf a).ctl.pc + BitVec.ofNat 32 sh.len }
      nvar := (t.segOf a).nvar + sh.nvar } := by
  unfold Thread.begin Thread.segOf Thread.openSeg
  split <;> rename_i h <;> simp [Thread.countVar, Thread.advance, Thread.modSeg, h]

theorem Thread.endWord_seg (n : Nat) (e : Bool) (t : Thread) (x : Seg) (h : t.seg = some x) (hr : x.fin = .running) :
    (t.endWord n e).seg = some (
      if x.moved then { x with fin := if e then .ended else .running }
      else match endTest (x.pcs.headD 0) n false x.ctl.frames x.ctl with
        | some c => { x with ctl := c, fin := .ended }
        | none => { x with fin := if e then .ended else .running }) := by
  simp only [Thread.endWord, Thread.modSeg, h, Option.map_some, hr, bne_self_eq_false, Bool.false_eq_true, ↓reduceIte]
  congr 1
  cases e <;> simp only [Bool.false_eq_true, ↓reduceIte] <;>
    generalize endTest (x.pcs.headD 0) n false x.ctl.frames x.ctl = q <;> cases q <;> cases hm : x.moved <;> simp [← hr] <;> (cases x; simp_all)

/-- Ending a word never makes a thread stop. -/
@[simp] theorem Thread.endWord_stopped (n : Nat) (e : Bool) (t : Thread) : (t.endWord n e).stopped = t.stopped := by
  unfold Thread.endWord Thread.modSeg Thread.stopped
  cases h : t.seg with
  | none => simp
  | some x =>
    simp only [Option.map_some]
    split
    · rfl
    · cases e <;> simp only [Bool.false_eq_true, ↓reduceIte] <;>
        generalize endTest (x.pcs.headD 0) n false x.ctl.frames x.ctl = q <;> cases q <;> cases x.moved <;> rfl

@[simp] theorem Thread.finish_stopped (sh : Shape) (t : Thread) : (t.finish sh).stopped = t.stopped := Thread.endWord_stopped ..

/-- A thread's updates by TID over a list without repeats are one update of the lanes. -/
theorem fold_modThread (gid : Nat) (F : Thread → Thread) (hF : ∀ t, (F t).tid = t.tid) (eff : Nat → Nat → State → State) (s0 : State)
    (heff : ∀ s, OnlyGroves s0 s → ∀ k, eff gid k s = s.modThread gid (some k) F) (ks : List Nat) (hn : ks.Nodup) (s : State)
    (hs : OnlyGroves s0 s) :
    ks.foldl (fun s k => eff gid k s) s = s.modGrove gid fun g => g.modLanes (fun t => ks.contains t.tid) F := by
  induction ks generalizing s with
  | nil =>
    simp only [List.foldl_nil, State.modGrove, Grove.modLanes]
    have : (fun g : Grove => if g.id == gid then ({ g with lanes := g.lanes.map fun t => if [].contains t.tid then F t else t } : Grove) else g) = id := by
      funext g; simp
    rw [this, List.map_id]
  | cons k r ih =>
    rw [List.nodup_cons] at hn
    rw [List.foldl_cons, heff s hs k, ih hn.2 _ (onlyGroves_trans hs (onlyGroves_modThread ..)), State.modThread,
      State.modGrove_modGrove _ _ _ _ (by simp)]
    simp only [State.modGrove]
    congr 1
    apply List.map_congr_left
    intro g _
    by_cases h : g.id = gid
    · simp only [h, beq_self_eq_true, ↓reduceIte, Grove.modThread, Grove.modLanes, List.map_map]
      congr 1
      apply List.map_congr_left
      intro t _
      by_cases ht : t.tid = k
      · subst ht; have hc : r.contains t.tid = false := by simpa using hn.1
        simp [hF, hn.1]
      · simp [ht]
    · simp [h]

/-- In a list without repeated TIDs the thread found by TID is the one in the list. -/
theorem find?_of_nodup (l : List Thread) (hn : (l.map Thread.tid).Nodup) (u : Thread) (hu : u ∈ l) :
    l.find? (fun t => t.tid == u.tid) = some u := by
  induction l with
  | nil => cases hu
  | cons t r ih =>
    simp only [List.map_cons, List.nodup_cons] at hn
    rcases List.mem_cons.1 hu with rfl | h
    · simp
    · have : t.tid ≠ u.tid := fun e => hn.1 (e ▸ List.mem_map_of_mem h)
      rw [List.find?_cons_of_neg (by simpa using this)]
      exact ih hn.2 h

theorem eq_of_tid (l : List Thread) (hn : (l.map Thread.tid).Nodup) (u v : Thread) (hu : u ∈ l) (hv : v ∈ l) (h : u.tid = v.tid) : u = v := by
  have a := find?_of_nodup l hn u hu
  rw [h, find?_of_nodup l hn v hv] at a
  exact (Option.some.inj a).symm

/-- A segment that ends in the plain way: no trap, park or abort, no exit and no return from a handler. -/
def Thread.plainEnd (t : Thread) : Bool :=
  match t.seg with
  | some x => x.trap.isNone && x.park.isNone && x.abort.isNone && x.fin != .exits && x.fin != .erets
  | none => true

/-- The commit of a segment that ends in the plain way touches only its own thread (R86). -/
theorem commitThread_plain (s : State) (gid : Nat) (w : Who) (g : Grove) (t : Thread) (hg : s.grove? gid = some g)
    (ht : g.thread? w = some t) (x : Seg) (hx : t.seg = some x) (hp : t.plainEnd = true) :
    s.commitThread gid w = s.modThread gid w fun _ => t.commitRegs := by
  simp only [Thread.plainEnd, hx, Bool.and_eq_true, Option.isNone_iff_eq_none, bne_iff_ne] at hp
  obtain ⟨⟨⟨⟨h1, h2⟩, h3⟩, h4⟩, h5⟩ := hp
  simp only [State.commitThread, hg, ht, hx, h1, h2, h3]

/-- The commits of threads of one grove, each of which ends its segment in the plain way. -/
theorem fold_commit (gid : Nat) (ks : List Nat) (hn : ks.Nodup) (s : State) (g : Grove) (hg : s.grove? gid = some g)
    (hd : (g.lanes.map Thread.tid).Nodup)
    (hk : ∀ k ∈ ks, ∃ t ∈ g.lanes, t.tid = k ∧ t.seg.isSome = true ∧ t.plainEnd = true) :
    OnlyGroves s (ks.foldl (fun s k => s.commitThread gid (some k)) s) ∧
    (∀ j, j ≠ gid → (ks.foldl (fun s k => s.commitThread gid (some k)) s).grove? j = s.grove? j) ∧
    (ks.foldl (fun s k => s.commitThread gid (some k)) s).grove? gid =
      some (g.modLanes (fun t => ks.contains t.tid) Thread.commitRegs) := by
  induction ks generalizing s g with
  | nil =>
    refine ⟨rfl, fun _ _ => rfl, hg.trans ?_⟩
    simp [Grove.modLanes]
  | cons k r ih =>
    rw [List.nodup_cons] at hn
    obtain ⟨t, htm, htk, hts, htp⟩ := hk k List.mem_cons_self
    obtain ⟨x, hx⟩ := Option.isSome_iff_exists.1 hts
    have hf : g.thread? (some k) = some t := by subst htk; exact find?_of_nodup _ hd t htm
    have hc := commitThread_plain s gid (some k) g t hg hf x hx htp
    rw [List.foldl_cons, hc]
    have hid : ∀ g : Grove, (g.modThread (some k) fun _ => t.commitRegs).id = g.id := by simp
    have hg1 : (s.modThread gid (some k) fun _ => t.commitRegs).grove? gid = some (g.modThread (some k) fun _ => t.commitRegs) := by
      rw [State.modThread, State.grove?_modGrove_same _ _ _ hid, hg]; rfl
    have hl : (g.modThread (some k) fun _ => t.commitRegs) = g.modLanes (fun u => u.tid == k) Thread.commitRegs := by
      simp only [Grove.modThread, Grove.modLanes]
      congr 1
      apply List.map_congr_left
      intro u hu
      by_cases h : u.tid = k
      · have : u = t := eq_of_tid _ hd u t hu htm (h.trans htk.symm)
        simp [this]
      · simp [h]
    have htids : ((g.modLanes (fun u => u.tid == k) Thread.commitRegs).lanes.map Thread.tid) = g.lanes.map Thread.tid := by
      simp only [Grove.modLanes_lanes, List.map_map]
      apply List.map_congr_left; intro u _; simp only [Function.comp_apply]; split <;> simp
    rw [hl] at hg1
    obtain ⟨h1, h2, h3⟩ := ih hn.2 _ _ hg1 (htids ▸ hd) (by
      intro j hj
      obtain ⟨v, hvm, hvk, hvs, hvp⟩ := hk j (List.mem_cons_of_mem _ hj)
      have hne : v.tid ≠ k := by rw [hvk]; rintro rfl; exact hn.1 hj
      refine ⟨v, ?_, hvk, hvs, hvp⟩
      simp only [Grove.modLanes_lanes, List.mem_map]
      exact ⟨v, hvm, by simp [hne]⟩)
    refine ⟨onlyGroves_trans (onlyGroves_modThread s gid (some k) _) h1, fun j hj => (h2 j hj).trans ?_, h3.trans ?_⟩
    · exact State.grove?_modGrove_other _ _ _ _ hid hj
    · congr 1
      simp only [Grove.modLanes, List.map_map]
      congr 1
      apply List.map_congr_left
      intro u hu
      by_cases h : u.tid = k
      · have hc : k ∉ r := hn.1
        simp [h, hc]
      · simp [h]

/-- A grove whose stand holds no trap keeps it when masks are fixed. -/
theorem fixMasks_none (g : Grove) (team : Nat) (h : ∀ t ∈ g.lanes, t.team = team → (t.seg.bind fun x => x.trap) = none) :
    g.fixMasks team = g := by
  unfold Grove.fixMasks Grove.modLanes
  have : (g.lanes.map fun t => if (if t.team == team then t.seg.bind fun x => x.trap else none).isSome = true then
      t.modSeg fun x => { x with trap := x.trap.map fun ti => if ti.mask.isNone then { ti with mask := some (BitVec.ofNat 64
        ((g.lanes.filter fun u => u.strand == t.strand && ((if u.team == team then u.seg.bind fun x => x.trap else none).map TrapInfo.idx ==
          (if t.team == team then t.seg.bind fun x => x.trap else none).map TrapInfo.idx)).foldl (fun a u => a ||| 2 ^ u.lane) 0)) } else ti }
      else t) = g.lanes := by
    conv_rhs => rw [← List.map_id g.lanes]
    apply List.map_congr_left
    intro t ht
    by_cases hs : t.team = team
    · simp [hs, h t ht hs]
    · simp [hs]
  simp only [this]

/-- A stand none of whose threads parks keeps it when full deadfall queues are looked for. -/
theorem trapFull_none (room : Nat → Nat) (team : Nat) (l : List Thread) (h : ∀ t ∈ l, t.team = team → (t.seg.bind fun x => x.park) = none) :
    trapFull room team l = l := by
  induction l with
  | nil => rfl
  | cons t r ih =>
    have hn : (if t.team == team then (t.seg.bind fun x => x.park) else none) = none := by
      by_cases ht : t.team = team
      · simp [ht, h t List.mem_cons_self ht]
      · simp [ht]
    simp only [trapFull, hn, ih fun u hu => h u (List.mem_cons_of_mem _ hu)]

/-- Nothing stops in a stand none of whose threads has stopped. -/
theorem stopsOpen_none (g : Grove) (team : Nat) (h : ∀ t ∈ g.lanes, t.team = team → t.stopped = false) : g.stopsOpen team = false := by
  simp only [Grove.stopsOpen, Bool.or_eq_false_iff, Bool.and_eq_false_iff, List.any_eq_false]
  refine ⟨fun t ht => ?_, .inl fun t ht => ?_⟩ <;>
  · by_cases hs : t.team = team
    · simp [h t ht hs]
    · simp [hs]

/-- A thread that has not stopped holds no trap. -/
theorem trap_none_of_stopped (t : Thread) (h : t.stopped = false) : (t.seg.bind fun x => x.trap) = none := by
  unfold Thread.stopped at h
  cases hs : t.seg with
  | none => rfl
  | some x => simp_all

/-- Nor a park. -/
theorem park_none_of_stopped (t : Thread) (h : t.stopped = false) : (t.seg.bind fun x => x.park) = none := by
  unfold Thread.stopped at h
  cases hs : t.seg with
  | none => rfl
  | some x => simp_all

theorem stopped_of_plainEnd (t : Thread) (h : t.plainEnd = true) : t.stopped = false := by
  unfold Thread.plainEnd at h
  unfold Thread.stopped
  cases hs : t.seg with
  | none => rfl
  | some x => simp_all

/-- After a word, what can commit of a stand commits: nothing but its own threads changes, and each is as its segment leaves it. -/
theorem commitStand_plain (s : State) (gid team : Nat) (g : Grove) (hg : s.grove? gid = some g)
    (hd : (g.lanes.map Thread.tid).Nodup) (hs : ∀ t ∈ g.lanes, t.team = team → t.stopped = false)
    (hp : ∀ t ∈ g.lanes, t.team = team → t.commitReady = true → t.plainEnd = true) :
    OnlyGroves s (s.commitStand gid team) ∧ (∀ j, j ≠ gid → (s.commitStand gid team).grove? j = s.grove? j) ∧
    ∃ p : Thread → Bool, (∀ t ∈ g.lanes, p t = true → t.team = team ∧ t.commitReady = true) ∧
      (s.commitStand gid team).grove? gid = some (g.modLanes p Thread.commitRegs) := by
  unfold State.commitStand
  simp only [hg]
  split
  · refine ⟨rfl, fun _ _ => rfl, fun _ => false, (fun _ _ (h : false = true) => Bool.noConfusion h), hg.trans ?_⟩
    simp [Grove.modLanes]
  · simp only [stopsOpen_none g team hs, Bool.not_false, Bool.true_or, Bool.and_true, ↓reduceIte]
    have hid : ∀ g : Grove, (({ g with lanes := trapFull (fun d => deadfallMax - (tabGet [] s.deadfalls d).length) team g.lanes } : Grove).fixMasks team).id = g.id :=
      fun _ => rfl
    have hg' : (s.modGrove gid fun g => ({ g with lanes := trapFull (fun d => deadfallMax - (tabGet [] s.deadfalls d).length) team g.lanes } : Grove).fixMasks team).grove? gid
        = some g := by
      rw [State.grove?_modGrove_same _ _ _ hid, hg, Option.map_some, trapFull_none _ _ _ (fun t ht h => park_none_of_stopped t (hs t ht h)),
        fixMasks_none g team fun t ht h => trap_none_of_stopped t (hs t ht h)]
    obtain ⟨h1, h2, h3⟩ := fold_commit gid ((g.lanes.filter fun t => t.team == team && t.commitReady).map Thread.tid)
      (List.Nodup.sublist (List.filter_sublist.map _) hd) _ g hg' hd (by
        intro k hk
        simp only [List.mem_map, List.mem_filter, Bool.and_eq_true, beq_iff_eq] at hk
        obtain ⟨t, ⟨htm, hts, htc⟩, hk⟩ := hk
        refine ⟨t, htm, hk, ?_, hp t htm hts htc⟩
        unfold Thread.commitReady at htc
        cases hs : t.seg <;> simp_all)
    refine ⟨onlyGroves_trans (onlyGroves_modGrove ..) h1, fun j hj => (h2 j hj).trans (State.grove?_modGrove_other _ _ _ _ hid hj),
      _, fun t ht hc => ?_, h3⟩
    simp only [List.contains_eq_mem, List.mem_map, List.mem_filter, Bool.and_eq_true, beq_iff_eq, decide_eq_true_eq] at hc
    obtain ⟨v, hv, he⟩ := hc
    rw [← eq_of_tid _ hd v t hv.1 ht he]; exact hv.2

/-- The rest of a stand goes on when no thread that issued the word has stopped. -/
theorem haltMates_none (s : State) (gid team : Nat) (T : List Nat) (g : Grove) (hg : s.grove? gid = some g)
    (h : ∀ t ∈ g.lanes, T.contains t.tid = true → t.stopped = false) : s.haltMates gid team T = s := by
  have hf : (g.lanes.find? fun t => T.contains t.tid && t.stopped) = none := by
    rw [List.find?_eq_none]; intro t ht; cases hc : T.contains t.tid
    · simp
    · simp [h t ht hc]
  simp only [State.haltMates, hg, hf]

/-- The stand of which the threads that issue a word are all or a part. -/
def teamOf (g : Grove) (stand : Nat) : Nat := (((standOf g stand).head?).map Thread.team).getD 0

/-- A word of a stand that passes decode and is not held: its effect in each thread whose guard is true, in ascending TID, the end of the word, and the commits. -/
theorem laneIssue_runs (s : State) (gid stand : Nat) (w l : Word) (g : Grove) (sh : Shape)
    (hold : State → Grove → Nat → List Thread → Bool) (eff : Nat → Nat → State → State) (hc : s.cur = .lane gid stand w l)
    (hg : s.grove? gid = some g) (hd : LaneDecodes sh g stand)
    (hh : hold s g stand ((standOf g stand).filter fun t => t.guard sh.h) = false) :
    laneIssue sh hold eff s = .next
      (((((standOf g stand).filter fun t => t.guard sh.h).map Thread.tid).foldl (fun s k => eff gid k s)
        (s.modGrove gid fun g' => g'.modLanes (fun t => ((standOf g stand).map Thread.tid).contains t.tid) (Thread.begin sh (s.srStart g)))).modGrove gid
          (Grove.endWord ((standOf g stand).map Thread.tid) sh) |>.haltMates gid (teamOf g stand) ((standOf g stand).map Thread.tid) |>.commitStand gid (teamOf g stand)) := by
  unfold LaneDecodes standOf at hd
  unfold standOf at hh
  unfold teamOf standOf
  simp only [laneIssue, hc, hg, hd, hh, Bool.false_eq_true, ↓reduceIte]
  rfl

/-- A word of a stand that fails a decode check traps every thread of the stand (R84). -/
theorem laneIssue_traps (s : State) (gid stand : Nat) (w l : Word) (g : Grove) (sh : Shape) (c d : Nat)
    (hold : State → Grove → Nat → List Thread → Bool) (eff : Nat → Nat → State → State) (hc : s.cur = .lane gid stand w l)
    (hg : s.grove? gid = some g)
    (hd : decodeCheck g.desc sh.needs sh.nvar ((((standOf g stand).head?).map Thread.used).getD 0) = some (c, d)) :
    laneIssue sh hold eff s = .next
      (((s.modGrove gid fun g' => g'.modLanes (fun t => ((standOf g stand).map Thread.tid).contains t.tid) (Thread.begin sh (s.srStart g))).modGrove gid
        fun g' => g'.modLanes (fun t => ((standOf g stand).map Thread.tid).contains t.tid) fun t => t.trap c d true (wordTval w l sh.len)).modGrove gid
          (Grove.endWord ((standOf g stand).map Thread.tid) sh) |>.commitStand gid (teamOf g stand)) := by
  unfold standOf at hd
  unfold teamOf standOf
  simp only [laneIssue, hc, hg, hd]
  rfl

/-- The end of a word in a stand none of whose threads has stopped. -/
theorem endWord_plain (g : Grove) (T : List Nat) (sh : Shape) (h : ∀ t ∈ g.lanes, T.contains t.tid = true → t.stopped = false) :
    g.endWord T sh = g.modLanes (fun t => T.contains t.tid) fun t => t.finish sh := by
  have : (g.lanes.any fun t => T.contains t.tid && t.stopped) = false := by
    rw [List.any_eq_false]; intro t ht; cases hc : T.contains t.tid
    · simp
    · simp [h t ht hc]
  simp only [Grove.endWord, this, Bool.false_eq_true, ↓reduceIte]
  rfl

/-- Every thread of a stand that issues is of the stand's team. -/
theorem teamOf_stand {s : State} {gid stand : Nat} {w l : Word} {g : Grove} (hs : StandAt s gid stand w l g) :
    ∀ u ∈ g.lanes, u.stand = stand → u.team = teamOf g stand := by
  intro u hu h
  unfold teamOf
  cases hq : (standOf g stand).head? with
  | none =>
    rw [List.head?_eq_none_iff] at hq
    have : u ∈ standOf g stand := List.mem_filter.2 ⟨hu, (hs.whole u hu h).1⟩
    rw [hq] at this; cases this
  | some v =>
    have hv := List.mem_filter.1 (List.mem_of_mem_head? hq)
    have hvs : v.stand = stand := by have := hv.2; simp [Thread.issuing] at this; exact this.1.2
    exact hs.team u hu v hv.1 h hvs

/-- What a word does that acts only on its own threads: the rest of the device and every other grove and thread stay as they are, and each thread that issues it is as the word leaves it. -/
theorem laneIssue_local (s : State) (gid stand : Nat) (w l : Word) (g : Grove) (sh : Shape)
    (hold : State → Grove → Nat → List Thread → Bool) (eff : Nat → Nat → State → State) (F : Thread → Thread)
    (hs : StandAt s gid stand w l g) (hd : LaneDecodes sh g stand)
    (hh : hold s g stand ((standOf g stand).filter fun t => t.guard sh.h) = false)
    (hF : ∀ t, (F t).tid = t.tid ∧ (F t).stand = t.stand ∧ (F t).team = t.team)
    (heff : ∀ s', OnlyGroves s s' → ∀ k, eff gid k s' = s'.modThread gid (some k) F)
    (hend : ∀ u ∈ g.lanes, u.stand = stand →
      (u.wordDone sh (s.srStart g) F).plainEnd = true) :
    ∃ t, laneIssue sh hold eff s = .next t ∧ StandLeaves s t gid stand g fun u u' =>
      ended u' = ended (u.wordDone sh (s.srStart g) F) ∧
        (u' = u.wordDone sh (s.srStart g) F ∨ u' = (u.wordDone sh (s.srStart g) F).commitRegs) := by
  rw [laneIssue_runs s gid stand w l g sh hold eff hs.issues hs.resident hd hh]
  have htm := teamOf_stand hs
  obtain ⟨hc, hg, hn, ⟨u0, hu0, hu0s⟩, hw, -, hmt⟩ := hs
  have hiss : ∀ u ∈ g.lanes, (u.issuing stand = true ↔ u.stand = stand) := fun u hu =>
    ⟨fun h => by simp [Thread.issuing] at h; exact h.1.2, fun h => (hw u hu h).1⟩
  have hmem : ∀ u ∈ g.lanes, (((standOf g stand).map Thread.tid).contains u.tid = true ↔ u.stand = stand) := by
    intro u hu
    simp only [standOf, List.contains_eq_mem, List.mem_map, List.mem_filter, decide_eq_true_eq]
    constructor
    · rintro ⟨v, ⟨hv, hvi⟩, he⟩
      rw [← eq_of_tid _ hn v u hv hu he]; exact (hiss v hv).1 hvi
    · intro h; exact ⟨u, ⟨hu, (hiss u hu).2 h⟩, rfl⟩
  have hon : ∀ u ∈ g.lanes, ((((standOf g stand).filter fun t => t.guard sh.h).map Thread.tid).contains u.tid = true ↔
      u.stand = stand ∧ u.guard sh.h = true) := by
    intro u hu
    simp only [standOf, List.contains_eq_mem, List.mem_map, List.mem_filter, decide_eq_true_eq]
    constructor
    · rintro ⟨v, ⟨⟨hv, hvi⟩, hvg⟩, he⟩
      have := eq_of_tid _ hn v u hv hu he; subst this; exact ⟨(hiss v hv).1 hvi, hvg⟩
    · rintro ⟨h, hg⟩; exact ⟨u, ⟨⟨hu, (hiss u hu).2 h⟩, hg⟩, rfl⟩
  have hOn : (((standOf g stand).filter fun t => t.guard sh.h).map Thread.tid).Nodup :=
    List.Nodup.sublist ((List.filter_sublist.trans List.filter_sublist).map _) hn
  generalize (standOf g stand).map Thread.tid = T at hmem ⊢
  generalize ((standOf g stand).filter fun t => t.guard sh.h).map Thread.tid = O at hon hOn ⊢
  generalize s.srStart g = a at hend ⊢
  rw [fold_modThread gid F (fun t => (hF t).1) eff s heff O hOn _ (onlyGroves_modGrove ..)]
  -- the lanes after the word
  have h3 : (Grove.endWord T sh ((g.modLanes (fun t => T.contains t.tid) (Thread.begin sh a)).modLanes (fun t => O.contains t.tid) F)) =
      { g with lanes := g.lanes.map fun u => if u.stand = stand then u.wordDone sh a F else u } := by
    rw [endWord_plain]
    · simp only [Grove.modLanes, List.map_map]
      congr 1
      apply List.map_congr_left
      intro u hu
      simp only [Function.comp_apply]
      by_cases h : u.stand = stand
      · have ht := (hmem u hu).2 h
        by_cases hgd : u.guard sh.h = true
        · have ho := (hon u hu).2 ⟨h, hgd⟩
          simp only [ht, ↓reduceIte, Thread.begin_tid, ho, (hF _).1, h, Thread.wordDone, Thread.wordMid, hgd]
        · have ho : O.contains u.tid = false := by rw [Bool.eq_false_iff]; intro e; exact hgd ((hon u hu).1 e).2
          simp only [ht, ↓reduceIte, Thread.begin_tid, ho, h, Thread.wordDone, Thread.wordMid, hgd, Bool.false_eq_true]
      · have ht : T.contains u.tid = false := by rw [Bool.eq_false_iff]; intro e; exact h ((hmem u hu).1 e)
        have ho : O.contains u.tid = false := by rw [Bool.eq_false_iff]; intro e; exact h ((hon u hu).1 e).1
        simp only [ht, Bool.false_eq_true, ↓reduceIte, ho, h]
    · intro t ht hT
      simp only [Grove.modLanes_lanes, List.map_map, List.mem_map, Function.comp_apply] at ht
      obtain ⟨u, hu, rfl⟩ := ht
      have hut : (if O.contains (if T.contains u.tid = true then Thread.begin sh a u else u).tid = true then
          F (if T.contains u.tid = true then Thread.begin sh a u else u) else if T.contains u.tid = true then Thread.begin sh a u else u).tid = u.tid := by
        repeat' split
        all_goals simp [hF]
      rw [hut] at hT
      have h := (hmem u hu).1 hT
      have hp := hend u hu h
      have hst : (u.wordDone sh a F).stopped = false := stopped_of_plainEnd _ hp
      rw [Thread.wordDone, Thread.finish_stopped, Thread.wordMid] at hst
      by_cases hgd : u.guard sh.h = true
      · have ho := (hon u hu).2 ⟨h, hgd⟩
        simpa only [hT, ↓reduceIte, Thread.begin_tid, ho, hgd] using hst
      · have ho : O.contains u.tid = false := by rw [Bool.eq_false_iff]; intro e; exact hgd ((hon u hu).1 e).2
        simpa only [hT, ↓reduceIte, Thread.begin_tid, ho, hgd, Bool.false_eq_true] using hst
  have hid1 : ∀ (p : Thread → Bool) (f : Thread → Thread) (g : Grove), (g.modLanes p f).id = g.id := fun _ _ _ => rfl
  have hid2 : ∀ g : Grove, (g.endWord T sh).id = g.id := fun _ => rfl
  generalize hs3 : (((s.modGrove gid fun g' => g'.modLanes (fun t => T.contains t.tid) (Thread.begin sh a)).modGrove gid
    fun g => g.modLanes (fun t => O.contains t.tid) F).modGrove gid (Grove.endWord T sh)) = s3
  have hg3 : s3.grove? gid = some { g with lanes := g.lanes.map fun u => if u.stand = stand then u.wordDone sh a F else u } := by
    rw [← hs3, State.grove?_modGrove_same _ _ _ hid2, State.grove?_modGrove_same _ _ _ (hid1 _ _),
      State.grove?_modGrove_same _ _ _ (hid1 _ _), hg, Option.map_some, Option.map_some, Option.map_some, h3]
  have ho3 : OnlyGroves s s3 := by rw [← hs3]; rfl
  have hj3 : ∀ j, j ≠ gid → s3.grove? j = s.grove? j := by
    intro j hj
    rw [← hs3, State.grove?_modGrove_other _ _ _ _ hid2 hj, State.grove?_modGrove_other _ _ _ _ (hid1 _ _) hj,
      State.grove?_modGrove_other _ _ _ _ (hid1 _ _) hj]
  have hwt : ∀ u : Thread, (u.wordDone sh a F).tid = u.tid := by
    intro u; unfold Thread.wordDone; rw [Thread.finish_tid]; unfold Thread.wordMid; split <;> simp [hF]
  have hws : ∀ u : Thread, (u.wordDone sh a F).stand = u.stand := by
    intro u; unfold Thread.wordDone; rw [Thread.finish_stand]; unfold Thread.wordMid; split <;> simp [hF]
  have hwm : ∀ u : Thread, (u.wordDone sh a F).team = u.team := by
    intro u; unfold Thread.wordDone; rw [Thread.finish_team]; unfold Thread.wordMid; split <;> simp [hF]
  generalize teamOf g stand = team at htm ⊢
  have htids : (g.lanes.map fun u => if u.stand = stand then u.wordDone sh a F else u).map Thread.tid = g.lanes.map Thread.tid := by
    rw [List.map_map]; apply List.map_congr_left; intro u _; simp only [Function.comp_apply]; split <;> simp [hwt]
  have hst3 : ∀ u ∈ g.lanes, (u.stand = stand ∨ u.team = team) → (if u.stand = stand then u.wordDone sh a F else u).stopped = false := by
    intro u hu h
    by_cases hus : u.stand = stand
    · simp only [hus, ↓reduceIte]; exact stopped_of_plainEnd _ (hend u hu hus)
    · simp only [hus, ↓reduceIte]
      exact (hmt u0 hu0 u hu hu0s hus ((h.resolve_left hus).trans (htm u0 hu0 hu0s).symm)).2
  rw [haltMates_none s3 gid team T _ hg3 (by
    intro t ht hT
    simp only [List.mem_map] at ht
    obtain ⟨u, hu, rfl⟩ := ht
    have hut : (if u.stand = stand then u.wordDone sh a F else u).tid = u.tid := by split <;> simp [hwt]
    rw [hut] at hT
    exact hst3 u hu (.inl ((hmem u hu).1 hT)))]
  obtain ⟨h1, h2, p, hp, h4⟩ := commitStand_plain s3 gid team _ hg3 (htids ▸ hn) (by
    intro t ht hts
    simp only [List.mem_map] at ht
    obtain ⟨u, hu, rfl⟩ := ht
    have hut : (if u.stand = stand then u.wordDone sh a F else u).team = u.team := by split <;> simp [hwm]
    exact hst3 u hu (.inr (hut ▸ hts))) (by
    intro t ht hts hr
    simp only [List.mem_map] at ht
    obtain ⟨u, hu, rfl⟩ := ht
    by_cases h : u.stand = stand
    · simp only [h, ↓reduceIte]; exact hend u hu h
    · simp only [h, ↓reduceIte] at hts hr
      rw [(hmt u0 hu0 u hu hu0s h (hts.trans (htm u0 hu0 hu0s).symm)).1] at hr
      cases hr)
  refine ⟨_, rfl, onlyGroves_trans ho3 h1, fun j hj => (h2 j hj).trans (hj3 j hj), _, h4, rfl, ?_, ?_⟩
  · rw [Grove.modLanes_lanes, List.map_map, ← htids]
    apply List.map_congr_left; intro u _; simp only [Function.comp_apply]; split <;> simp
  · intro u hu
    by_cases h : u.stand = stand
    · simp only [h, ↓reduceIte]
      by_cases hc : p (u.wordDone sh a F) = true
      · exact ⟨(u.wordDone sh a F).commitRegs, by
          simp only [Grove.modLanes_lanes, List.map_map, List.mem_map, Function.comp_apply]; exact ⟨u, hu, by simp [h, hc]⟩,
          by simp [hwt], ended_commitRegs _, .inr rfl⟩
      · exact ⟨u.wordDone sh a F, by
          simp only [Grove.modLanes_lanes, List.map_map, List.mem_map, Function.comp_apply]; exact ⟨u, hu, by simp [h, hc]⟩,
          hwt u, rfl, .inl rfl⟩
    · simp only [h, ↓reduceIte]
      have hpu : p u = false := by
        rw [Bool.eq_false_iff]; intro e
        have hr := hp u (by simp only [List.mem_map]; exact ⟨u, hu, by simp [h]⟩) e
        rw [(hmt u0 hu0 u hu hu0s h (hr.1.trans (htm u0 hu0 hu0s).symm)).1] at hr
        cases hr.2
      exact ⟨u, by simp only [Grove.modLanes_lanes, List.map_map, List.mem_map, Function.comp_apply]; exact ⟨u, hu, by simp [h, hpu]⟩, rfl, rfl⟩

/-- What a stand leaves may be said more weakly. -/
theorem standLeaves_mono {s t : State} {gid stand : Nat} {g : Grove} {P Q : Thread → Thread → Prop} (h : StandLeaves s t gid stand g P)
    (k : ∀ u ∈ g.lanes, u.stand = stand → ∀ u', P u u' → Q u u') : StandLeaves s t gid stand g Q := by
  obtain ⟨h1, h2, g', h3, h4, h5, h6⟩ := h
  refine ⟨h1, h2, g', h3, h4, h5, fun u hu => ?_⟩
  obtain ⟨u', m1, m2, m3⟩ := h6 u hu
  refine ⟨u', m1, m2, ?_⟩
  split <;> rename_i hst <;> simp only [hst, ↓reduceIte] at m3
  · exact k u hu hst u' m3
  · exact m3

/-- A uniform word that passes decode and is not held, with its guard true or false. -/
theorem uniIssue_runs (s : State) (gid : Nat) (w l : Word) (g : Grove) (sh : Shape) (push : Bool)
    (hold : State → Grove → Bool) (eff : Nat → State → State) (hc : s.cur = .front gid w l)
    (hg : s.grove? gid = some g) (hd : FrontDecodes sh g) (hh : g.front.guard sh.h = true → hold s g = false) :
    uniIssue sh push hold eff s = .next
      (((if g.front.guard sh.h then eff gid (s.modThread gid none (Thread.begin sh (s.srStart g))) else s.modThread gid none (Thread.begin sh (s.srStart g))).modThread
        gid none fun t => t.finish sh) |>.commitFront gid) := by
  unfold FrontDecodes at hd
  by_cases hgd : g.front.guard sh.h = true
  · simp only [uniIssue, hc, hg, hd, hgd, hh hgd, Bool.and_false, Bool.false_eq_true, ↓reduceIte]; rfl
  · simp only [uniIssue, hc, hg, hd, hgd, Bool.false_and, Bool.false_eq_true, ↓reduceIte]; rfl

/-- A uniform word that fails a decode check traps its front thread (R84). -/
theorem uniIssue_traps (s : State) (gid : Nat) (w l : Word) (g : Grove) (sh : Shape) (push : Bool) (c d : Nat)
    (hold : State → Grove → Bool) (eff : Nat → State → State) (hc : s.cur = .front gid w l)
    (hg : s.grove? gid = some g) (hd : decodeCheck g.desc sh.needs sh.nvar g.front.used = some (c, d)) :
    uniIssue sh push hold eff s = .next
      ((((s.modThread gid none (Thread.begin sh (s.srStart g))).modThread gid none fun t => t.trap c d true (wordTval w l sh.len)).modThread gid none
        fun t => t.finish sh) |>.commitFront gid) := by
  simp only [uniIssue, hc, hg, hd]; rfl

/-- What a uniform word does that acts only on the front thread: the rest of the device stays as it is, and the front thread is as the word leaves it. -/
theorem uniIssue_local (s : State) (gid : Nat) (w l : Word) (g : Grove) (sh : Shape) (push : Bool)
    (hold : State → Grove → Bool) (eff : Nat → State → State) (F : Thread → Thread)
    (hs : FrontAt s gid w l g) (hd : FrontDecodes sh g) (hh : g.front.guard sh.h = true → hold s g = false)
    (heff : ∀ s', OnlyGroves s s' → eff gid s' = s'.modThread gid none F)
    (hend : (g.front.wordDone sh (s.srStart g) F).plainEnd = true) :
    ∃ t, uniIssue sh push hold eff s = .next t ∧ FrontLeaves s t gid g fun u u' =>
      ended u' = ended (u.wordDone sh (s.srStart g) F) ∧
        (u' = u.wordDone sh (s.srStart g) F ∨ u' = (u.wordDone sh (s.srStart g) F).commitRegs) := by
  rw [uniIssue_runs s gid w l g sh push hold eff hs.issues hs.resident hd hh]
  obtain ⟨hc, hg, -, -⟩ := hs
  generalize s.srStart g = a at hend ⊢
  have hid : ∀ (f : Thread → Thread) (g : Grove), (g.modThread none f).id = g.id := fun _ _ => rfl
  generalize hs2 : (if g.front.guard sh.h then eff gid (s.modThread gid none (Thread.begin sh a)) else s.modThread gid none (Thread.begin sh a)) = s2
  have h2 : OnlyGroves s s2 ∧ (∀ j, j ≠ gid → s2.grove? j = s.grove? j) ∧
      s2.grove? gid = some { g with front := if g.front.guard sh.h then F (g.front.begin sh a) else g.front.begin sh a } := by
    rw [← hs2]
    split
    · rw [heff _ (onlyGroves_modThread ..)]
      refine ⟨rfl, fun j hj => ?_, ?_⟩
      · rw [State.modThread, State.grove?_modGrove_other _ _ _ _ (hid _) hj, State.modThread, State.grove?_modGrove_other _ _ _ _ (hid _) hj]
      · rw [State.modThread, State.grove?_modGrove_same _ _ _ (hid _), State.modThread, State.grove?_modGrove_same _ _ _ (hid _), hg]; rfl
    · refine ⟨rfl, fun j hj => ?_, ?_⟩
      · rw [State.modThread, State.grove?_modGrove_other _ _ _ _ (hid _) hj]
      · rw [State.modThread, State.grove?_modGrove_same _ _ _ (hid _), hg]; rfl
  generalize hs3 : (s2.modThread gid none fun t => t.finish sh) = s3
  have h3 : OnlyGroves s s3 ∧ (∀ j, j ≠ gid → s3.grove? j = s.grove? j) ∧
      s3.grove? gid = some { g with front := g.front.wordDone sh a F } := by
    rw [← hs3]
    refine ⟨onlyGroves_trans h2.1 (onlyGroves_modThread ..), fun j hj => ?_, ?_⟩
    · rw [State.modThread, State.grove?_modGrove_other _ _ _ _ (hid _) hj, h2.2.1 j hj]
    · rw [State.modThread, State.grove?_modGrove_same _ _ _ (hid _), h2.2.2]; rfl
  refine ⟨_, rfl, ?_⟩
  unfold State.commitFront
  simp only [h3.2.2]
  split
  · rename_i hr
    obtain ⟨x, hx⟩ : ∃ x, (g.front.wordDone sh a F).seg = some x := by
      unfold Thread.commitReady at hr
      cases hq : (g.front.wordDone sh a F).seg with
      | none => simp [hq] at hr
      | some x => exact ⟨x, rfl⟩
    rw [commitThread_plain s3 gid none _ _ h3.2.2 rfl x hx hend]
    refine ⟨onlyGroves_trans h3.1 (onlyGroves_modThread ..), fun j hj => ?_, (g.front.wordDone sh a F).commitRegs, ?_, ended_commitRegs _, .inr rfl⟩
    · rw [State.modThread, State.grove?_modGrove_other _ _ _ _ (hid _) hj, h3.2.1 j hj]
    · rw [State.modThread, State.grove?_modGrove_same _ _ _ (hid _), h3.2.2]; rfl
  · exact ⟨h3.1, h3.2.1, _, h3.2.2, rfl, .inl rfl⟩

end Sys2Proof.Machine
end

