-- ==== Sys2Proof/Laws/Words.lean ====
section
/-! SUPPORT. The words that act on registers of their own thread: what each register is due to hold after one, and what it leaves alone (04 R86, R89-R93). -/

namespace Sys2Proof.Machine

open Sys2Proof.Safety

/-- Two threads alike in registers and predicates read alike. -/
theorem Thread.arch_congr (a b : Thread) (h : a.regs = b.regs) (k : a.preds = b.preds) (r : Reg) : a.arch r = b.arch r := by
  cases r <;> simp [Thread.arch, h, k]

/-- The end of a word changes nothing but control. -/
theorem ended_endWord (n : Nat) (e : Bool) (t : Thread) : ended (t.endWord n e) = { ended t with ctl := (ended (t.endWord n e)).ctl } := by
  cases h : t.seg with
  | none =>
    have : t.endWord n e = t := by simp only [Thread.endWord, Thread.modSeg, h, Option.map_none]; rw [← h]
    rw [this]
  | some x =>
    by_cases hr : x.fin = .running
    · rw [ended_open _ _ (Thread.endWord_seg n e t x h hr), ended_open _ _ h]
      generalize endTest (x.pcs.headD 0) n false x.ctl.frames x.ctl = q
      cases q <;> cases x.moved <;> rfl
    · have : t.endWord n e = t := by
        have hr' : (x.fin != .running) = true := by simpa using hr
        simp only [Thread.endWord, Thread.modSeg, h, Option.map_some, hr', ↓reduceIte]; rw [← h]
      rw [this]

theorem ended_finish (sh : Shape) (t : Thread) : ended (t.finish sh) = { ended t with ctl := (ended (t.finish sh)).ctl } := ended_endWord ..

/-- Beginning a word changes nothing but control. -/
theorem ended_begin (sh : Shape) (a : List (Nat × Word)) (t : Thread) : ended (t.begin sh a) = { ended t with ctl := (ended (t.begin sh a)).ctl } := by
  rw [ended_open _ _ (Thread.begin_seg sh a t)]
  cases h : t.seg with
  | none =>
    rw [ended_closed _ h]
    simp only [Thread.segOf, h, Option.getD_none, Seg.new, regFold, List.reverse_nil, List.find?_nil, Seg.flgAfter]
    simp [Thread.begin, Thread.openSeg, h, Thread.countVar, Thread.advance, Thread.modSeg]
  | some x =>
    rw [ended_open _ _ h]
    simp only [Thread.segOf, h, Option.getD_some]
    simp [Thread.begin, Thread.openSeg, h, Thread.countVar, Thread.advance, Thread.modSeg]
    rfl

/-! ### What a word that has begun reads -/

@[simp] theorem begin_src (sh : Shape) (a : List (Nat × Word)) (t : Thread) (r : Reg) : (t.begin sh a).src r = t.src r := by
  have hr : (t.begin sh a).regs = t.regs ∧ (t.begin sh a).preds = t.preds := by
    simp only [Thread.begin, Thread.openSeg]; split <;> exact ⟨rfl, rfl⟩
  have ha : (t.begin sh a).arch r = t.arch r := Thread.arch_congr _ _ hr.1 hr.2 r
  unfold Thread.src
  rw [Thread.begin_seg, ha]
  cases h : t.seg with
  | none => simp [Thread.segOf, h, Seg.new, bypass]
  | some x => simp [Thread.segOf, h]

@[simp] theorem begin_reg (sh : Shape) (a : List (Nat × Word)) (t : Thread) (n : Nat) : (t.begin sh a).reg n = t.reg n := begin_src ..
@[simp] theorem begin_pair (sh : Shape) (a : List (Nat × Word)) (t : Thread) (n : Nat) : (t.begin sh a).pair n = t.pair n := by
  simp [Thread.pair]
@[simp] theorem begin_predSrc (sh : Shape) (a : List (Nat × Word)) (t : Thread) (n : Nat) : (t.begin sh a).predSrc n = t.predSrc n := by
  simp [Thread.predSrc]
@[simp] theorem begin_guard (sh : Shape) (a : List (Nat × Word)) (t : Thread) (h : Hdr) : (t.begin sh a).guard h = t.guard h := by
  simp [Thread.guard]
@[simp] theorem begin_lane (sh : Shape) (a : List (Nat × Word)) (t : Thread) : (t.begin sh a).lane = t.lane := by
  simp only [Thread.begin, Thread.openSeg]; split <;> rfl
@[simp] theorem begin_strand (sh : Shape) (a : List (Nat × Word)) (t : Thread) : (t.begin sh a).strand = t.strand := by
  simp only [Thread.begin, Thread.openSeg]; split <;> rfl
@[simp] theorem begin_width (sh : Shape) (a : List (Nat × Word)) (t : Thread) : (t.begin sh a).width = t.width := by
  simp only [Thread.begin, Thread.openSeg]; split <;> rfl
@[simp] theorem begin_core (sh : Shape) (a : List (Nat × Word)) (t : Thread) : (t.begin sh a).core = t.core := by
  simp only [Thread.begin, Thread.openSeg]; split <;> rfl
@[simp] theorem begin_seedw (sh : Shape) (a : List (Nat × Word)) (t : Thread) : (t.begin sh a).seedw = t.seedw := by
  simp only [Thread.begin, Thread.openSeg]; split <;> rfl
@[simp] theorem begin_fpc (sh : Shape) (a : List (Nat × Word)) (t : Thread) : (t.begin sh a).fpc = t.fpc := by
  simp only [Thread.begin, Thread.openSeg]; split <;> rfl
@[simp] theorem begin_coreNumber (e : Env) (sh : Shape) (a : List (Nat × Word)) (t : Thread) : e.coreNumber (t.begin sh a) = e.coreNumber t := by
  simp [Env.coreNumber]

@[simp] theorem begin_slot (e : Env) (sh : Shape) (a : List (Nat × Word)) (t : Thread) (n : Nat) : e.slot (t.begin sh a) n = e.slot t n := by
  unfold Env.slot; simp only [begin_lane, Thread.begin_tid, begin_strand, begin_width, begin_coreNumber, begin_seedw]
@[simp] theorem begin_uslot (e : Env) (sh : Shape) (a : List (Nat × Word)) (t : Thread) (n : Nat) : e.uslot (t.begin sh a) n = e.uslot t n := by
  unfold Env.uslot; simp only [begin_coreNumber]
@[simp] theorem begin_readA (e : Env) (sh : Shape) (a : List (Nat × Word)) (t : Thread) (x : LaneA) : readA e (t.begin sh a) x = readA e t x := by
  cases x <;> simp [readA]
@[simp] theorem begin_readA64 (e : Env) (sh : Shape) (a : List (Nat × Word)) (t : Thread) (x : LaneA) : readA64 e (t.begin sh a) x = readA64 e t x := by
  cases x <;> simp [readA64]
@[simp] theorem begin_readUA (e : Env) (sh : Shape) (a : List (Nat × Word)) (t : Thread) (x : UniA) : readUA e (t.begin sh a) x = readUA e t x := by
  cases x <;> simp [readUA]
@[simp] theorem begin_readUB (e : Env) (sh : Shape) (a : List (Nat × Word)) (t : Thread) (x : UniB) : readUB e (t.begin sh a) x = readUB e t x := by
  cases x <;> simp [readUB]
@[simp] theorem begin_readUA64 (e : Env) (sh : Shape) (a : List (Nat × Word)) (t : Thread) (x : UniA) : readUA64 e (t.begin sh a) x = readUA64 e t x := by
  cases x <;> simp [readUA64, Env.uslot64]
@[simp] theorem begin_readUB64 (e : Env) (sh : Shape) (a : List (Nat × Word)) (t : Thread) (x : UniB) : readUB64 e (t.begin sh a) x = readUB64 e t x := by
  cases x <;> simp [readUB64, Env.uslot64]

/-! ### Results put into an open segment -/

/-- New results before older ones: the latest of a register is the new one where it writes that register. -/
theorem find?_put (k : Nat) (x : Bool) (ws : List (Reg × Word)) (l : List Result) (r : Reg) :
    ((ws.map fun w => Result.mk k w.1 x (some w.2)) ++ l).find? (fun y => y.reg == r) =
      match ws.lookup r with
      | some v => some ⟨k, r, x, some v⟩
      | none => l.find? fun y => y.reg == r := by
  induction ws with
  | nil => rfl
  | cons w ws ih =>
    obtain ⟨q, v⟩ := w
    by_cases h : q = r
    · subst h; simp
    · have h' : (r == q) = false := by simpa using fun e => h e.symm
      simp only [List.map_cons, List.cons_append, List.lookup_cons, h']
      rw [List.find?_cons_of_neg (by simpa using h)]
      exact ih

/-- Predicates are written as 0 or 1. -/
def predsOk (ws : List (Reg × Word)) : Prop := ∀ n v, ws.lookup (.pred n) = some v → v = 0 ∨ v = 1

/-- What a word that does not trap leaves: its results over what the registers were due to hold, its flags, and all else kept. -/
theorem apply_law (fixed : Bool) (o : WordOut) (ho : o.trap = none) (hp : predsOk o.writes) (t : Thread) (x : Seg) (hx : t.seg = some x) :
    (∀ r, due (t.apply fixed o) r = dueAfter t o.writes r) ∧ KeepsRest t (t.apply fixed o) ∧
      (o.flags = 0 ∨ (x.writes.find? fun y => y.sr == 1) = none → (ended (t.apply fixed o)).flg = (ended t).flg ||| o.flags) ∧
      ∃ y, (t.apply fixed o).seg = some y ∧ y.fin = x.fin ∧ y.trap = x.trap ∧ y.park = x.park ∧ y.abort = x.abort ∧ y.ctl = x.ctl ∧
        y.moved = x.moved ∧ y.pcs = x.pcs := by
  have hseg : (t.apply fixed o).seg = some { x with
      results := (o.writes.map fun w => Result.mk (x.words - 1) w.1 fixed (some w.2)) ++ x.results
      flags := if o.flags = 0 then x.flags else (x.words - 1, o.flags) :: x.flags } := by
    unfold Thread.apply
    simp only [ho]
    unfold Thread.raiseFlags
    split <;> simp [Thread.put, Thread.modSeg, hx]
  have hregs : (t.apply fixed o).regs = t.regs ∧ (t.apply fixed o).preds = t.preds := by
    unfold Thread.apply; simp only [ho]; unfold Thread.raiseFlags; split <;> exact ⟨rfl, rfl⟩
  refine ⟨fun r => ?_, ?_, ?_, _, hseg, rfl, rfl, rfl, rfl, rfl, rfl, rfl⟩
  · rw [due_open _ _ hseg, dueAfter, due_open _ _ hx, find?_put, Thread.arch_congr _ t hregs.1 hregs.2]
    cases hl : o.writes.lookup r with
    | none => rfl
    | some v =>
      cases r with
      | gpr n => rfl
      | pred n => rcases hp n v hl with rfl | rfl <;> rfl
  · unfold KeepsRest
    rw [ended_open _ _ hseg, ended_open _ _ hx]
    unfold Thread.apply; simp only [ho]; unfold Thread.raiseFlags; split <;> rfl
  · intro hf
    rw [ended_open _ _ hseg, ended_open _ _ hx]
    have hflg : (t.apply fixed o).flg = t.flg := by
      unfold Thread.apply; simp only [ho]; unfold Thread.raiseFlags; split <;> rfl
    simp only [hflg]
    by_cases h0 : o.flags = 0
    · simp only [h0, ↓reduceIte, Nat.or_zero]; rfl
    · rcases hf with hf | hf
      · exact absurd hf h0
      · simp only [Seg.flgAfter, hf, h0, ↓reduceIte, List.foldl_cons]
        generalize x.flags = l
        generalize t.flg = n
        induction l generalizing n with
        | nil => rfl
        | cons e l ih => simp only [List.foldl_cons]; rw [← ih, Nat.or_assoc, Nat.or_assoc, Nat.or_comm o.flags]

/-! ### A word in its thread -/

theorem due_of_ended (a b : Thread) (h : ended a = ended b) (r : Reg) : due a r = due b r := by rw [due, due, h]

theorem keepsRest_refl (a : Thread) : KeepsRest a a := rfl

theorem keepsRest_trans {a b c : Thread} (h : KeepsRest a b) (k : KeepsRest b c) : KeepsRest a c := by
  unfold KeepsRest at *; rw [k, h]

theorem keepsRest_of_ended {a b c : Thread} (h : ended b = ended c) (k : KeepsRest a c) : KeepsRest a b := by
  unfold KeepsRest at *; rw [h]; exact k

theorem keepsRest_ctl {a b : Thread} (h : ended b = { ended a with ctl := (ended b).ctl }) : KeepsRest a b := by
  unfold KeepsRest; rw [h]

theorem due_ctl {a b : Thread} (h : ended b = { ended a with ctl := (ended b).ctl }) (r : Reg) : due b r = due a r := by
  rw [due, due, h]; exact Thread.arch_congr _ _ rfl rfl r

theorem flg_ctl {a b : Thread} (h : ended b = { ended a with ctl := (ended b).ctl }) : (ended b).flg = (ended a).flg := by rw [h]

/-- The end of a word that has met nothing to stop it is plain. -/
theorem plainEnd_endWord (n : Nat) (e : Bool) (t : Thread) (x : Seg) (hx : t.seg = some x) (hr : x.fin = .running) (h1 : x.trap = none)
    (h2 : x.park = none) (h3 : x.abort = none) : (t.endWord n e).plainEnd = true := by
  unfold Thread.plainEnd
  rw [Thread.endWord_seg n e t x hx hr]
  generalize endTest (x.pcs.headD 0) n false x.ctl.frames x.ctl = q
  cases q <;> cases x.moved <;> cases e <;> simp [h1, h2, h3]

theorem plainEnd_finish (sh : Shape) (t : Thread) (x : Seg) (hx : t.seg = some x) (hr : x.fin = .running) (h1 : x.trap = none)
    (h2 : x.park = none) (h3 : x.abort = none) : (t.finish sh).plainEnd = true := plainEnd_endWord _ _ t x hx hr h1 h2 h3

/-- The segment of a thread that may issue: running, nothing stopped. -/
theorem segOf_running (a : List (Nat × Word)) (t : Thread) (hi : ∀ x, t.seg = some x → x.fin = .running) (hs : t.stopped = false) :
    (t.segOf a).fin = .running ∧ (t.segOf a).trap = none ∧ (t.segOf a).park = none ∧ (t.segOf a).abort = none := by
  unfold Thread.segOf
  unfold Thread.stopped at hs
  cases h : t.seg with
  | none => exact ⟨rfl, rfl, rfl, rfl⟩
  | some x => simp_all

/-- A thread that issues with its stand is in a running segment or in none. -/
theorem running_of_issuing (t : Thread) (stand : Nat) (h : t.issuing stand = true) : ∀ x, t.seg = some x → x.fin = .running := by
  intro x hx; unfold Thread.issuing at h; simp_all

/-- A word in its thread that writes registers and flags and does not trap (R83, R86). -/
theorem wordDone_apply (sh : Shape) (a : List (Nat × Word)) (fixed : Bool) (f : Thread → WordOut) (u : Thread)
    (hi : (∀ x, u.seg = some x → x.fin = .running) ∧ u.stopped = false) (hf : f (u.begin sh a) = f u)
    (ht : u.guard sh.h = true → (f u).trap = none) (hp : predsOk (f u).writes) :
    (u.wordDone sh a fun t => t.apply fixed (f t)).plainEnd = true ∧
      KeepsRest u (u.wordDone sh a fun t => t.apply fixed (f t)) ∧
      (∀ r, due (u.wordDone sh a fun t => t.apply fixed (f t)) r = if u.guard sh.h then dueAfter u (f u).writes r else due u r) ∧
      ((f u).flags = 0 ∨ NoFlgWrite u →
        (ended (u.wordDone sh a fun t => t.apply fixed (f t))).flg = (ended u).flg ||| (if u.guard sh.h then (f u).flags else 0)) := by
  obtain ⟨r1, r2, r3, r4⟩ := segOf_running a u hi.1 hi.2
  have hb := ended_begin sh a u
  have hw := ended_finish sh
  have hbs := Thread.begin_seg sh a u
  unfold Thread.wordDone Thread.wordMid
  by_cases hg : u.guard sh.h = true
  · simp only [hg, ↓reduceIte, hf]
    obtain ⟨k1, k2, k3, y, hy, q1, q2, q3, q4, -, -⟩ := apply_law fixed (f u) (ht hg) hp (u.begin sh a) _ hbs
    refine ⟨plainEnd_finish _ _ y hy (q1.trans r1) (q2.trans r2) (q3.trans r3) (q4.trans r4), ?_, fun r => ?_, fun h => ?_⟩
    · exact keepsRest_trans (keepsRest_ctl hb) (keepsRest_trans k2 (keepsRest_ctl (hw _)))
    · rw [due_ctl (hw _) r, k1 r, dueAfter, dueAfter, due_ctl hb r]
    · have h' : (f u).flags = 0 ∨ ((u.segOf a).writes.find? fun y => y.sr == 1) = none := h.imp id fun q => by
        rw [List.find?_eq_none]
        unfold Thread.segOf
        cases hx : u.seg with
        | none => simp [Seg.new]
        | some x => intro y hy; simpa using q x hx y hy
      rw [flg_ctl (hw _), k3 h', flg_ctl hb]
  · simp only [hg, Bool.false_eq_true, ↓reduceIte]
    refine ⟨plainEnd_finish _ _ _ hbs r1 r2 r3 r4, ?_, fun r => ?_, fun _ => ?_⟩
    · exact keepsRest_trans (keepsRest_ctl hb) (keepsRest_ctl (hw _))
    · rw [due_ctl (hw _) r, due_ctl hb r]
    · rw [flg_ctl (hw _), flg_ctl hb, Nat.or_zero]

@[simp] theorem Thread.raiseFlags_stand (n : Nat) (t : Thread) : (t.raiseFlags n).stand = t.stand := by
  unfold Thread.raiseFlags; split <;> rfl
@[simp] theorem Thread.raiseFlags_team (n : Nat) (t : Thread) : (t.raiseFlags n).team = t.team := by
  unfold Thread.raiseFlags; split <;> rfl
@[simp] theorem Thread.apply_team (x : Bool) (o : WordOut) (t : Thread) : (t.apply x o).team = t.team := by
  unfold Thread.apply; split <;> simp
@[simp] theorem Thread.apply_stand (x : Bool) (o : WordOut) (t : Thread) : (t.apply x o).stand = t.stand := by
  unfold Thread.apply; split <;> simp

@[simp] theorem commitRegs_wait (t : Thread) : t.commitRegs.wait = t.wait := by
  cases h : t.seg with
  | none => simp [Thread.commitRegs, h]
  | some x =>
    simp only [Thread.commitRegs, h]
    generalize x.results.reverse = q
    suffices ∀ (q : List Result) (t : Thread), (q.foldl (fun t x => t.setArch x.reg (x.val.getD 0)) t).wait = t.wait from this q t
    intro q
    induction q with
    | nil => intro t; rfl
    | cons y q ih => intro t; rw [List.foldl_cons, ih]; cases y.reg <;> rfl

/-- A word that does not trap leaves its thread waiting for nothing. -/
theorem wordDone_wait (sh : Shape) (a : List (Nat × Word)) (fixed : Bool) (f : Thread → WordOut) (u : Thread) :
    (u.wordDone sh a fun t => t.apply fixed (f t)).wait = .none := by
  have hb : (u.begin sh a).wait = .none := rfl
  unfold Thread.wordDone
  rw [Thread.finish_wait, Thread.wordMid]
  split
  · show ((u.begin sh a).apply fixed (f (u.begin sh a))).wait = .none
    unfold Thread.apply
    split
    · rfl
    · unfold Thread.raiseFlags; split <;> exact hb
  · exact hb

/-- A lane word that touches only registers and flags of its own threads (R83-R88): what it answers, and what each thread is due to hold. -/
theorem lanePure_law (s : State) (gid stand : Nat) (w l : Word) (g : Grove) (sh : Shape) (fixed : Bool) (f : Env → Thread → WordOut)
    (hs : StandAt s gid stand w l g) (hd : LaneDecodes sh g stand)
    (hf : ∀ u a, f (s.env g) (u.begin sh a) = f (s.env g) u)
    (ht : ∀ u ∈ g.lanes, u.stand = stand → u.guard sh.h = true → (f (s.env g) u).trap = none)
    (hp : ∀ u, predsOk (f (s.env g) u).writes) :
    ∃ t, lanePure sh fixed f s = .next t ∧ StandLeaves s t gid stand g (Wrote sh.h (f (s.env g))) := by
  have hw := fun u hu hst => wordDone_apply sh (s.srStart g) fixed (f (s.env g)) u ⟨running_of_issuing u stand (hs.whole u hu hst).1, (hs.whole u hu hst).2⟩ (hf u _) (ht u hu hst) (hp u)
  obtain ⟨t, h1, h2⟩ := laneIssue_local s gid stand w l g sh (fun _ _ _ _ => false)
    (fun gid tid s' => s'.modThread gid (some tid) fun t => t.apply fixed (f (s.env g) t)) (fun t => t.apply fixed (f (s.env g) t)) hs hd rfl
    (fun t => ⟨by simp, by simp, by simp⟩) (fun _ _ _ => rfl) (fun u hu hst => (hw u hu hst).1)
  refine ⟨t, ?_, standLeaves_mono h2 fun u hu hst u' h => ?_⟩
  · rw [← h1]
    simp only [lanePure, hs.issues, hs.resident]
    rfl
  · obtain ⟨-, b1, b2, b3⟩ := hw u hu hst
    refine ⟨?_, keepsRest_of_ended h.1 b1, fun r => (due_of_ended _ _ h.1 r).trans (b2 r), fun q => by rw [h.1]; exact b3 q⟩
    rcases h.2 with e | e <;> rw [e] <;> simp [wordDone_wait]

/-- A uniform word that touches only registers and flags of the front thread (R83-R88). -/
theorem uniPure_law (s : State) (gid : Nat) (w l : Word) (g : Grove) (sh : Shape) (fixed : Bool) (f : Env → Thread → WordOut)
    (hs : FrontAt s gid w l g) (hd : FrontDecodes sh g)
    (hf : ∀ u a, f (s.env g) (u.begin sh a) = f (s.env g) u)
    (ht : g.front.guard sh.h = true → (f (s.env g) g.front).trap = none)
    (hp : ∀ u, predsOk (f (s.env g) u).writes) :
    ∃ t, uniPure sh fixed f s = .next t ∧ FrontLeaves s t gid g (Wrote sh.h (f (s.env g))) := by
  have hw := wordDone_apply sh (s.srStart g) fixed (f (s.env g)) g.front hs.running (hf g.front _) ht (hp _)
  obtain ⟨t, h1, h2⟩ := uniIssue_local s gid w l g sh false (fun _ _ => false)
    (fun gid s' => s'.modThread gid none fun t => t.apply fixed (f (s.env g) t)) (fun t => t.apply fixed (f (s.env g) t)) hs hd (fun _ => rfl)
    (fun _ _ => rfl) hw.1
  refine ⟨t, ?_, h2.1, h2.2.1, ?_⟩
  · rw [← h1]
    simp only [uniPure, hs.issues, hs.resident]
    rfl
  · obtain ⟨u', m1, m2, m3⟩ := h2.2.2
    obtain ⟨-, b1, b2, b3⟩ := hw
    refine ⟨u', m1, ?_, keepsRest_of_ended m2 b1, fun r => (due_of_ended _ _ m2 r).trans (b2 r), fun q => by rw [m2]; exact b3 q⟩
    rcases m3 with e | e <;> rw [e] <;> simp [wordDone_wait]

end Sys2Proof.Machine
end

