-- ==== Sys2Proof/Laws/Effects.lean ====
section
/-! SUPPORT. The words whose effect goes beyond their own thread: the state they leave, once for the front thread and once for a stand in which one thread acts (04 R83-R88). -/

namespace Sys2Proof.Machine

open Sys2Proof.Safety

theorem advanced_refl (u : Thread) : Advanced u u := rfl
theorem advanced_trans {a b c : Thread} (h : Advanced a b) (k : Advanced b c) : Advanced a c := by unfold Advanced at *; rw [k, h]
theorem advanced_begin (sh : Shape) (a : List (Nat × Word)) (t : Thread) : Advanced t (t.begin sh a) := ended_begin sh a t
theorem advanced_endWord (n : Nat) (e : Bool) (t : Thread) : Advanced t (t.endWord n e) := ended_endWord n e t
theorem advanced_finish (sh : Shape) (t : Thread) : Advanced t (t.finish sh) := ended_finish sh t
theorem advanced_of_ended {a b c : Thread} (h : ended c = ended b) (k : Advanced a b) : Advanced a c := by unfold Advanced at *; rw [h, k]
theorem advanced_due {a b : Thread} (h : Advanced a b) (r : Reg) : due b r = due a r := due_ctl h r
theorem advanced_keepsRest {a b : Thread} (h : Advanced a b) : KeepsRest a b := keepsRest_ctl h

/-- The grove that a state's grove? finds bears its id. -/
theorem grove?_id {s : State} {i : Nat} {g : Grove} (h : s.grove? i = some g) : g.id = i := by
  have := List.find?_some h; simpa using this

/-- A uniform word whose guard is true, which passes decode and is not held: what its effect makes of the state, with the front thread past the word. -/
theorem uniIssue_does (s : State) (gid : Nat) (w l : Word) (g : Grove) (sh : Shape) (push : Bool)
    (hold : State → Grove → Bool) (eff : Nat → State → State) (hs : FrontAt s gid w l g) (hd : FrontDecodes sh g)
    (hg : g.front.guard sh.h = true) (hh : hold s g = false) (r : State) (g' : Grove)
    (he : eff gid (s.modThread gid none (Thread.begin sh (s.srStart g))) = r) (hr : r.grove? gid = some g')
    (hend : (g'.front.finish sh).plainEnd = true) :
    ∃ t, uniIssue sh push hold eff s = .next t ∧ FrontDoes r t gid g' fun u' =>
      ended u' = ended (g'.front.finish sh) ∧ u'.wait = g'.front.wait ∧
        (u' = g'.front.finish sh ∨
          ((g'.front.finish sh).commitReady = true ∧ u' = (g'.front.finish sh).commitRegs)) := by
  rw [uniIssue_runs s gid w l g sh push hold eff hs.issues hs.resident hd (fun _ => hh)]
  simp only [hg, ↓reduceIte, he]
  have hid : ∀ (f : Thread → Thread) (g : Grove), (g.modThread none f).id = g.id := fun _ _ => rfl
  generalize hF : g'.front.finish sh = F at hend ⊢
  have hw : F.wait = g'.front.wait := by rw [← hF]; simp
  generalize hs3 : (r.modThread gid none fun t => t.finish sh) = s3
  have h3 : OnlyGroves r s3 ∧ (∀ j, j ≠ gid → s3.grove? j = r.grove? j) ∧ s3.grove? gid = some { g' with front := F } := by
    rw [← hs3]
    refine ⟨onlyGroves_modThread .., fun j hj => ?_, ?_⟩
    · rw [State.modThread, State.grove?_modGrove_other _ _ _ _ (hid _) hj]
    · rw [State.modThread, State.grove?_modGrove_same _ _ _ (hid _), hr, ← hF]; rfl
  refine ⟨_, rfl, ?_⟩
  unfold State.commitFront
  simp only [h3.2.2]
  split
  · rename_i hc
    obtain ⟨x, hx⟩ : ∃ x, F.seg = some x := by
      unfold Thread.commitReady at hc
      cases hq : F.seg with
      | none => simp [hq] at hc
      | some x => exact ⟨x, rfl⟩
    rw [commitThread_plain s3 gid none _ _ h3.2.2 rfl x hx hend]
    refine ⟨onlyGroves_trans h3.1 (onlyGroves_modThread ..), fun j hj => ?_, F.commitRegs, ?_, ended_commitRegs _, ?_, .inr ⟨hc, rfl⟩⟩
    · rw [State.modThread, State.grove?_modGrove_other _ _ _ _ (hid _) hj, h3.2.1 j hj]
    · rw [State.modThread, State.grove?_modGrove_same _ _ _ (hid _), h3.2.2]; rfl
    · rw [commitRegs_wait, hw]
  · exact ⟨h3.1, h3.2.1, _, h3.2.2, rfl, hw, .inl rfl⟩

/-- The state in which the threads of a stand have begun a word. -/
def State.begunLane (s : State) (gid stand : Nat) (g : Grove) (sh : Shape) : State :=
  s.modGrove gid fun g' => g'.modLanes (fun t => ((standOf g stand).map Thread.tid).contains t.tid) (Thread.begin sh (s.srStart g))

/-- A grove whose stand has begun a word. -/
def Grove.begun (g : Grove) (stand : Nat) (sh : Shape) (a : List (Nat × Word)) : Grove :=
  { g with lanes := g.lanes.map fun v => if v.stand = stand then v.begin sh a else v }

theorem standOf_tids {s : State} {gid stand : Nat} {w l : Word} {g : Grove} (hs : StandAt s gid stand w l g) (u : Thread) (hu : u ∈ g.lanes) :
    ((standOf g stand).map Thread.tid).contains u.tid = true ↔ u.stand = stand := by
  simp only [standOf, List.contains_eq_mem, List.mem_map, List.mem_filter, decide_eq_true_eq]
  constructor
  · rintro ⟨v, ⟨hv, hvi⟩, he⟩
    rw [← eq_of_tid _ hs.distinct v u hv hu he]
    simp [Thread.issuing] at hvi; exact hvi.1.2
  · intro h; exact ⟨u, ⟨hu, (hs.whole u hu h).1⟩, rfl⟩

theorem begunLane_grove? {s : State} {gid stand : Nat} {w l : Word} {g : Grove} (sh : Shape) (hs : StandAt s gid stand w l g) :
    (s.begunLane gid stand g sh).grove? gid = some (g.begun stand sh (s.srStart g)) := by
  unfold State.begunLane
  rw [State.grove?_modGrove_same _ _ _ (by intro g; rfl), hs.resident, Option.map_some]
  congr 1
  simp only [Grove.modLanes, Grove.begun]
  congr 1
  apply List.map_congr_left
  intro u hu
  by_cases h : u.stand = stand
  · rw [if_pos ((standOf_tids hs u hu).2 h), if_pos h]
  · rw [if_neg (fun e => h ((standOf_tids hs u hu).1 e)), if_neg h]

theorem begunLane_other {s : State} {gid stand : Nat} {g : Grove} (sh : Shape) (j : Nat) (hj : j ≠ gid) :
    (s.begunLane gid stand g sh).grove? j = s.grove? j := by
  unfold State.begunLane
  rw [State.grove?_modGrove_other _ _ _ _ (by intro g; rfl) hj]

theorem begunLane_only {s : State} {gid stand : Nat} {g : Grove} (sh : Shape) : OnlyGroves s (s.begunLane gid stand g sh) := rfl

/-- The one thread of a stand whose guard is true. -/
theorem oneAt_on {s : State} {gid stand : Nat} {w l : Word} {g : Grove} {h : Hdr} {u : Thread} (hs : OneAt s gid stand w l g h u) :
    ((standOf g stand).filter fun t => t.guard h) = [u] := by
  have hi : ∀ v ∈ g.lanes, (v.issuing stand && v.guard h) = decide (v = u) := by
    intro v hv
    by_cases e : v = u
    · subst e
      simp [(hs.at_.whole v hv hs.inStand).1, (hs.one v hv hs.inStand).2 rfl]
    · rw [decide_eq_false e, Bool.eq_false_iff]
      intro k
      simp only [Bool.and_eq_true] at k
      have hst : v.stand = stand := by have := k.1; simp [Thread.issuing] at this; exact this.1.2
      exact e ((hs.one v hv hst).1 k.2)
  rw [standOf, List.filter_filter]
  have : g.lanes.filter (fun a => a.guard h && a.issuing stand) = g.lanes.filter fun v => decide (v = u) := by
    apply List.filter_congr
    intro v hv
    rw [Bool.and_comm, hi v hv]
  rw [this]
  have hnd : g.lanes.Nodup := List.Nodup.of_map _ hs.at_.distinct
  have := hs.member
  generalize g.lanes = L at hnd this
  induction L with
  | nil => cases this
  | cons x L ih =>
    rw [List.nodup_cons] at hnd
    by_cases e : x = u
    · subst e
      rw [List.filter_cons_of_pos (by simp)]
      congr 1
      rw [List.filter_eq_nil_iff]
      intro y hy; simp only [decide_eq_true_eq]; rintro rfl; exact hnd.1 hy
    · rw [List.filter_cons_of_neg (by simpa using e)]
      exact ih hnd.2 ((List.mem_cons.1 this).resolve_left (Ne.symm e))

/-- A word of a stand that acts in the one thread u and passes decode and is not held: what its effect makes of the state, with the stand past the word. -/
theorem laneIssue_does (s : State) (gid stand : Nat) (w l : Word) (g : Grove) (u : Thread) (sh : Shape)
    (hold : State → Grove → Nat → List Thread → Bool) (eff : Nat → Nat → State → State) (hs : OneAt s gid stand w l g sh.h u)
    (hd : LaneDecodes sh g stand) (hh : hold s g stand [u] = false) (r : State) (gr g' : Grove) (F : Thread)
    (he : eff gid u.tid (s.begunLane gid stand g sh) = r) (hr : r.grove? gid = some gr)
    (hl : gr = { g' with lanes := g'.lanes.map fun v => if v.tid = u.tid then F else if v.stand = stand then v.begin sh (s.srStart g) else v })
    (hts : g'.lanes.map (fun v => (v.tid, v.stand, v.team)) = g.lanes.map fun v => (v.tid, v.stand, v.team))
    (hv : ∀ v ∈ g'.lanes, v.stand = stand → v.tid ≠ u.tid → v ∈ g.lanes)
    (hm : ∀ v ∈ g'.lanes, v.stand ≠ stand → v.team = u.team → v.stopped = false ∧ (v.commitReady = true → v.plainEnd = true))
    (hF : F.tid = u.tid ∧ F.stand = stand ∧ F.team = u.team) (hend : (F.finish sh).plainEnd = true) :
    ∃ t, laneIssue sh hold eff s = .next t ∧ LaneDoes r t gid stand g' u fun u' =>
      ended u' = ended (F.finish sh) ∧ u'.wait = F.wait ∧
        (u' = F.finish sh ∨
          ((F.finish sh).commitReady = true ∧ u' = (F.finish sh).commitRegs)) := by
  have hon := oneAt_on hs
  rw [laneIssue_runs s gid stand w l g sh hold eff hs.at_.issues hs.at_.resident hd (by rw [hon]; exact hh), hon]
  simp only [List.map_cons, List.map_nil, List.foldl_cons, List.foldl_nil]
  rw [show (s.modGrove gid fun g' => g'.modLanes (fun t => ((standOf g stand).map Thread.tid).contains t.tid) (Thread.begin sh (s.srStart g))) = s.begunLane gid stand g sh from rfl, he]
  have hT := standOf_tids hs.at_
  have hteam : teamOf g stand = u.team := (teamOf_stand hs.at_ u hs.member hs.inStand).symm
  rw [hteam]
  generalize (standOf g stand).map Thread.tid = T at hT ⊢
  generalize s.srStart g = a at hl ⊢
  -- the threads of g' in the stand
  have hmem : ∀ v ∈ g'.lanes, ∃ v0 ∈ g.lanes, v0.tid = v.tid ∧ v0.stand = v.stand := by
    intro v hv
    have : (v.tid, v.stand, v.team) ∈ g'.lanes.map fun v => (v.tid, v.stand, v.team) := List.mem_map_of_mem hv
    rw [hts, List.mem_map] at this
    obtain ⟨v0, h0, e⟩ := this
    exact ⟨v0, h0, congrArg Prod.fst e, congrArg (fun x => x.2.1) e⟩
  have htids' : g'.lanes.map Thread.tid = g.lanes.map Thread.tid := by
    have := congrArg (List.map Prod.fst) hts
    simpa [List.map_map, Function.comp_def] using this
  have hT' : ∀ v ∈ g'.lanes, T.contains v.tid = true ↔ v.stand = stand := by
    intro v hvm
    obtain ⟨v0, h0, e1, e2⟩ := hmem v hvm
    rw [← e1, ← e2]; exact hT v0 h0
  have hustand : ∀ v ∈ g'.lanes, v.tid = u.tid → v.stand = stand := by
    intro v hvm e
    obtain ⟨v0, h0, e1, e2⟩ := hmem v hvm
    rw [← e2, eq_of_tid _ hs.at_.distinct v0 u h0 hs.member (e1.trans e), hs.inStand]
  let N : Thread → Thread := fun v => if v.tid = u.tid then F else if v.stand = stand then v.begin sh a else v
  let M : Thread → Thread := fun v =>
    if v.tid = u.tid then F.finish sh else if v.stand = stand then (v.begin sh a).finish sh else v
  have hNtid : ∀ v, (N v).tid = v.tid := by
    intro v; simp only [N]; split
    · rename_i e; rw [hF.1, e]
    · split <;> simp
  have hplain : ∀ v ∈ g'.lanes, v.stand = stand → (M v).plainEnd = true := by
    intro v hvm hst
    simp only [M]
    split
    · exact hend
    · rename_i hne
      have hvg := hv v hvm hst hne
      obtain ⟨r1, r2, r3, r4⟩ := segOf_running a v (running_of_issuing v stand (hs.at_.whole v hvg hst).1) (hs.at_.whole v hvg hst).2
      exact plainEnd_finish _ _ _ (Thread.begin_seg sh a v) r1 r2 r3 r4
  have hstop : ∀ v ∈ g'.lanes, T.contains (N v).tid = true → (N v).stopped = false := by
    intro v hvm hc
    rw [hNtid] at hc
    have hst := (hT' v hvm).1 hc
    have := stopped_of_plainEnd _ (hplain v hvm hst)
    simp only [M] at this
    simp only [N]
    split
    · rename_i e; rw [if_pos e, Thread.finish_stopped] at this; exact this
    · rename_i e; rw [if_neg e, if_pos hst, Thread.finish_stopped] at this; exact this
  have hgr : gr.endWord T sh = { g' with lanes := g'.lanes.map M } := by
    rw [endWord_plain]
    · rw [hl]
      simp only [Grove.modLanes, List.map_map]
      congr 1
      apply List.map_congr_left
      intro v hvm
      simp only [Function.comp_apply]
      rw [show (if v.tid = u.tid then F else if v.stand = stand then v.begin sh a else v) = N v from rfl, hNtid]
      by_cases e : v.tid = u.tid
      · rw [if_pos ((hT' v hvm).2 (hustand v hvm e))]; simp only [N, M, e, ↓reduceIte]
      · by_cases e2 : v.stand = stand
        · rw [if_pos ((hT' v hvm).2 e2)]; simp only [N, M, e, e2, ↓reduceIte]
        · rw [if_neg (fun k => e2 ((hT' v hvm).1 k))]; simp only [N, M, e, e2, ↓reduceIte]
    · intro v hvm hc
      rw [hl] at hvm
      simp only [List.mem_map] at hvm
      obtain ⟨v0, h0, rfl⟩ := hvm
      exact hstop v0 h0 hc
  have hMtid : ∀ v, (M v).tid = v.tid := by
    intro v; simp only [M]; split
    · rename_i e; rw [Thread.finish_tid, hF.1, e]
    · split <;> simp
  have hMstand : ∀ v ∈ g'.lanes, (M v).stand = v.stand := by
    intro v hvm; simp only [M]; split
    · rename_i e; rw [Thread.finish_stand, hF.2.1, hustand v hvm e]
    · split <;> simp
  have huteam : ∀ v ∈ g'.lanes, v.tid = u.tid → v.team = u.team := by
    intro v hvm e
    have : (v.tid, v.stand, v.team) ∈ g'.lanes.map fun v => (v.tid, v.stand, v.team) := List.mem_map_of_mem hvm
    rw [hts, List.mem_map] at this
    obtain ⟨v0, h0, e0⟩ := this
    have h3 : v0.team = v.team := congrArg (fun x => x.2.2) e0
    rw [← h3, eq_of_tid _ hs.at_.distinct v0 u h0 hs.member ((congrArg Prod.fst e0).trans e)]
  have hMteam : ∀ v ∈ g'.lanes, (M v).team = v.team := by
    intro v hvm; simp only [M]; split
    · rename_i e; rw [Thread.finish_team, hF.2.2, huteam v hvm e]
    · split <;> simp
  have hid2 : ∀ g : Grove, (g.endWord T sh).id = g.id := fun _ => rfl
  generalize hs3 : r.modGrove gid (Grove.endWord T sh) = s3
  have hg3 : s3.grove? gid = some { g' with lanes := g'.lanes.map M } := by
    rw [← hs3, State.grove?_modGrove_same _ _ _ hid2, hr, Option.map_some, hgr]
  have ho3 : OnlyGroves r s3 := by rw [← hs3]; rfl
  have hj3 : ∀ j, j ≠ gid → s3.grove? j = r.grove? j := by
    intro j hj; rw [← hs3, State.grove?_modGrove_other _ _ _ _ hid2 hj]
  have htids : (g'.lanes.map M).map Thread.tid = g'.lanes.map Thread.tid := by
    rw [List.map_map]; apply List.map_congr_left; intro v _; exact hMtid v
  have hMout : ∀ v ∈ g'.lanes, v.stand ≠ stand → M v = v := by
    intro v hvm h
    have : v.tid ≠ u.tid := fun e => h (hustand v hvm e)
    simp only [M, this, h, ↓reduceIte]
  rw [haltMates_none s3 gid u.team T _ hg3 (by
    intro t ht hc
    simp only [List.mem_map] at ht
    obtain ⟨v, hvm, rfl⟩ := ht
    rw [hMtid] at hc
    exact stopped_of_plainEnd _ (hplain v hvm ((hT' v hvm).1 hc)))]
  obtain ⟨h1, h2, p, hq, h4⟩ := commitStand_plain s3 gid u.team _ hg3 (by rw [htids, htids']; exact hs.at_.distinct) (by
    intro t ht hst
    simp only [List.mem_map] at ht
    obtain ⟨v, hvm, rfl⟩ := ht
    rw [hMteam v hvm] at hst
    by_cases h : v.stand = stand
    · exact stopped_of_plainEnd _ (hplain v hvm h)
    · rw [hMout v hvm h]; exact (hm v hvm h hst).1) (by
    intro t ht hst hr
    simp only [List.mem_map] at ht
    obtain ⟨v, hvm, rfl⟩ := ht
    rw [hMteam v hvm] at hst
    by_cases h : v.stand = stand
    · exact hplain v hvm h
    · rw [hMout v hvm h] at hr ⊢; exact (hm v hvm h hst).2 hr)
  refine ⟨_, rfl, onlyGroves_trans ho3 h1, fun j hj => (h2 j hj).trans (hj3 j hj), _, h4, rfl, ?_, ?_⟩
  · rw [Grove.modLanes_lanes, List.map_map, ← htids]
    apply List.map_congr_left; intro v _; simp only [Function.comp_apply]; split <;> simp
  · intro v hvm
    have hin : ∀ x, x = (if p (M v) = true then (M v).commitRegs else M v) →
        x ∈ (Grove.modLanes { g' with lanes := g'.lanes.map M } p Thread.commitRegs).lanes := by
      rintro x rfl
      simp only [Grove.modLanes_lanes, List.map_map, List.mem_map, Function.comp_apply]
      exact ⟨v, hvm, rfl⟩
    refine ⟨_, hin _ rfl, by split <;> simp [hMtid], ?_⟩
    by_cases e : v.tid = u.tid
    · rw [if_pos e]
      have hM : M v = F.finish sh := by simp only [M, e, ↓reduceIte]
      rw [hM]
      split
      · rename_i hpm
        exact ⟨ended_commitRegs _, by simp, .inr ⟨(hq _ (by rw [List.mem_map]; exact ⟨v, hvm, hM⟩) hpm).2, rfl⟩⟩
      · exact ⟨rfl, by simp, .inl rfl⟩
    · rw [if_neg e]
      by_cases e2 : v.stand = stand
      · rw [if_pos e2]
        have hM : M v = (v.begin sh a).finish sh := by simp only [M, e, e2, ↓reduceIte]
        rw [hM]
        have hA := advanced_trans (advanced_begin sh a v) (advanced_finish sh _)
        split
        · exact advanced_of_ended (ended_commitRegs _) hA
        · exact hA
      · rw [if_neg e2]
        have hM : M v = v := by simp only [M, e, e2, ↓reduceIte]
        rw [hM]
        split
        · rename_i hpm
          obtain ⟨h1, h2⟩ := hq v (by rw [List.mem_map]; exact ⟨v, hvm, hM⟩) hpm
          exact .inr ⟨h1, h2, rfl⟩
        · exact .inl rfl

/-- The threads that a word acts in are those of its stand whose guard is true. -/
theorem activeOf_eq {s : State} {gid stand : Nat} {w l : Word} {g : Grove} (hs : StandAt s gid stand w l g) (h : Hdr) :
    ((standOf g stand).filter fun t => t.guard h) = activeOf g stand h := by
  rw [standOf, List.filter_filter, activeOf]
  apply List.filter_congr
  intro v hv
  by_cases e : v.stand = stand
  · simp [e, (hs.whole v hv e).1, Bool.and_comm]
  · have : v.issuing stand = false := by
      rw [Bool.eq_false_iff]; intro k; simp [Thread.issuing] at k; exact e k.1.2
    simp [e, this]

/-- A word of a stand that passes decode and is not held, its effects in the threads of the stand given: the stand past the word. N is each thread after the effects. -/
theorem laneIssue_each (s : State) (gid stand : Nat) (w l : Word) (g : Grove) (sh : Shape)
    (hold : State → Grove → Nat → List Thread → Bool) (eff : Nat → Nat → State → State) (hs : StandAt s gid stand w l g)
    (hd : LaneDecodes sh g stand) (hh : hold s g stand (activeOf g stand sh.h) = false) (r : State) (g' : Grove) (N : Thread → Thread)
    (he : ((activeOf g stand sh.h).map Thread.tid).foldl (fun s k => eff gid k s) (s.begunLane gid stand g sh) = r)
    (hr : r.grove? gid = some { g' with lanes := g.lanes.map N })
    (hN : ∀ v ∈ g.lanes, (N v).tid = v.tid ∧ (N v).stand = v.stand ∧ (N v).team = v.team ∧ (v.stand ≠ stand → N v = v))
    (hend : ∀ v ∈ g.lanes, v.stand = stand → ((N v).finish sh).plainEnd = true) :
    ∃ t, laneIssue sh hold eff s = .next t ∧ OnlyGroves r t ∧ (∀ j, j ≠ gid → t.grove? j = r.grove? j) ∧
      ∃ g'', t.grove? gid = some g'' ∧ OnlyLanes g' g'' ∧ g''.lanes.map Thread.tid = g.lanes.map Thread.tid ∧
        ∀ v ∈ g.lanes, ∃ v' ∈ g''.lanes, v'.tid = v.tid ∧
          if v.stand = stand then v' = (N v).finish sh ∨ (((N v).finish sh).commitReady = true ∧ v' = ((N v).finish sh).commitRegs) else v' = v := by
  rw [laneIssue_runs s gid stand w l g sh hold eff hs.issues hs.resident hd (by rw [activeOf_eq hs]; exact hh), activeOf_eq hs]
  rw [show (s.modGrove gid fun g' => g'.modLanes (fun t => ((standOf g stand).map Thread.tid).contains t.tid) (Thread.begin sh (s.srStart g))) = s.begunLane gid stand g sh from rfl, he]
  have hT := standOf_tids hs
  have htm := teamOf_stand hs
  obtain ⟨-, -, hn, ⟨u0, hu0, hu0s⟩, -, -, hmt⟩ := hs
  generalize teamOf g stand = team at htm ⊢
  generalize (standOf g stand).map Thread.tid = T at hT ⊢
  let M : Thread → Thread := fun v => if v.stand = stand then (N v).finish sh else v
  have hMin : ∀ v, v.stand = stand → M v = (N v).finish sh := fun v h => by simp only [M, h, ↓reduceIte]
  have hMout : ∀ v, v.stand ≠ stand → M v = v := fun v h => by simp only [M, h, ↓reduceIte]
  have hMtid : ∀ v ∈ g.lanes, (M v).tid = v.tid := by
    intro v hv; simp only [M]; split
    · rw [Thread.finish_tid, (hN v hv).1]
    · rfl
  have hMteam : ∀ v ∈ g.lanes, (M v).team = v.team := by
    intro v hv; simp only [M]; split
    · rw [Thread.finish_team, (hN v hv).2.2.1]
    · rfl
  have hmate : ∀ v ∈ g.lanes, v.stand ≠ stand → v.team = team → v.commitReady = false ∧ v.stopped = false := fun v hv h ht =>
    hmt u0 hu0 v hv hu0s h (ht.trans (htm u0 hu0 hu0s).symm)
  have hnr : ∀ v : Thread, v.commitReady = false → v.commitReady = true → False := fun v h k => by rw [h] at k; cases k
  have hgr : Grove.endWord T sh ({ g' with lanes := g.lanes.map N } : Grove) = { g' with lanes := g.lanes.map M } := by
    rw [endWord_plain]
    · simp only [Grove.modLanes, List.map_map]
      congr 1
      apply List.map_congr_left
      intro v hv
      simp only [Function.comp_apply, (hN v hv).1]
      by_cases e : v.stand = stand
      · rw [if_pos ((hT v hv).2 e), hMin v e]
      · rw [if_neg (fun k => e ((hT v hv).1 k)), hMout v e, (hN v hv).2.2.2 e]
    · intro v hvm hc
      simp only [List.mem_map] at hvm
      obtain ⟨v0, h0, rfl⟩ := hvm
      rw [(hN v0 h0).1] at hc
      have := stopped_of_plainEnd _ (hend v0 h0 ((hT v0 h0).1 hc))
      rwa [Thread.finish_stopped] at this
  have hid2 : ∀ g : Grove, (g.endWord T sh).id = g.id := fun _ => rfl
  generalize hs3 : r.modGrove gid (Grove.endWord T sh) = s3
  have hg3 : s3.grove? gid = some { g' with lanes := g.lanes.map M } := by
    rw [← hs3, State.grove?_modGrove_same _ _ _ hid2, hr, Option.map_some, hgr]
  have ho3 : OnlyGroves r s3 := by rw [← hs3]; rfl
  have hj3 : ∀ j, j ≠ gid → s3.grove? j = r.grove? j := by
    intro j hj; rw [← hs3, State.grove?_modGrove_other _ _ _ _ hid2 hj]
  have htids : (g.lanes.map M).map Thread.tid = g.lanes.map Thread.tid := by
    rw [List.map_map]; exact List.map_congr_left hMtid
  have hst : ∀ v ∈ g.lanes, v.team = team → (M v).stopped = false := by
    intro v hv ht
    by_cases e : v.stand = stand
    · rw [hMin v e]; exact stopped_of_plainEnd _ (hend v hv e)
    · rw [hMout v e]; exact (hmate v hv e ht).2
  rw [haltMates_none s3 gid team T _ hg3 (by
    intro t ht hc
    simp only [List.mem_map] at ht
    obtain ⟨v, hv, rfl⟩ := ht
    rw [hMtid v hv] at hc
    exact hst v hv (htm v hv ((hT v hv).1 hc)))]
  obtain ⟨h1, h2, p, hq, h4⟩ := commitStand_plain s3 gid team _ hg3 (by rw [htids]; exact hn) (by
    intro t ht hts
    simp only [List.mem_map] at ht
    obtain ⟨v, hv, rfl⟩ := ht
    rw [hMteam v hv] at hts
    exact hst v hv hts) (by
    intro t ht hts hc
    simp only [List.mem_map] at ht
    obtain ⟨v, hv, rfl⟩ := ht
    rw [hMteam v hv] at hts
    by_cases e : v.stand = stand
    · rw [hMin v e]; exact hend v hv e
    · rw [hMout v e] at hc; exact (hnr v (hmate v hv e hts).1 hc).elim)
  refine ⟨_, rfl, onlyGroves_trans ho3 h1, fun j hj => (h2 j hj).trans (hj3 j hj), _, h4, rfl, ?_, ?_⟩
  · rw [Grove.modLanes_lanes, List.map_map, ← htids]
    apply List.map_congr_left; intro v _; simp only [Function.comp_apply]; split <;> simp
  · intro v hv
    have hin : (if p (M v) = true then (M v).commitRegs else M v) ∈ (Grove.modLanes { g' with lanes := g.lanes.map M } p Thread.commitRegs).lanes := by
      simp only [Grove.modLanes_lanes, List.map_map, List.mem_map, Function.comp_apply]
      exact ⟨v, hv, rfl⟩
    have hmem : M v ∈ ({ g' with lanes := g.lanes.map M } : Grove).lanes := List.mem_map_of_mem hv
    refine ⟨_, hin, by split <;> simp [hMtid v hv], ?_⟩
    by_cases e : v.stand = stand
    · rw [if_pos e]
      split
      · rename_i hp; right; exact ⟨hMin v e ▸ (hq _ hmem hp).2, by rw [hMin v e]⟩
      · left; exact hMin v e
    · rw [if_neg e]
      have hpf : p (M v) = false := by
        rw [Bool.eq_false_iff]; intro k
        have := hq _ hmem k
        rw [hMteam v hv, hMout v e] at this
        exact hnr v (hmate v hv e this.1).1 this.2
      rw [hpf, hMout v e]; rfl

end Sys2Proof.Machine
end

