-- ==== Sys2Proof/Laws/Memory.lean ====
section
/-! SUPPORT. Memory's canonical form and its reads: every operation that writes memory keeps the form, and a read of a byte gives the last byte written there (R237). -/

namespace Sys2Proof.Machine

theorem tabFilter_wf {α : Type} [DecidableEq α] (d : α) (p : Nat × α → Bool) (t : List (Nat × α)) (h : tabWf d t = true) :
    tabWf d (t.filter p) = true := by
  induction t with
  | nil => rfl
  | cons e r ih =>
    simp only [tabWf, Bool.and_eq_true, decide_eq_true_eq, List.all_eq_true] at h
    simp only [List.filter_cons]
    split
    · simp only [tabWf, Bool.and_eq_true, decide_eq_true_eq, List.all_eq_true]
      exact ⟨⟨h.1.1, fun e he => h.1.2 e (List.mem_of_mem_filter he)⟩, ih h.2⟩
    · exact ih h.2

theorem readByte_writeByte (m : List Host.Cell) (k j : Nat) (b : Byte) :
    readByte (writeByte m k b) j = if j = k then b else readByte m j := tabGet_set _ _ _ _ _

/-- A range of bytes written leaves every byte outside it alone. -/
theorem readByte_writeBytes_other (m : List Host.Cell) (l : List (Nat × Byte)) (j : Nat) (h : ∀ e ∈ l, e.1 ≠ j) :
    readByte (writeBytes m l) j = readByte m j := by
  induction l generalizing m with
  | nil => rfl
  | cons e r ih =>
    rw [writeBytes, ih _ fun e he => h e (List.mem_cons_of_mem _ he), readByte_writeByte,
      if_neg fun c => h e List.mem_cons_self c.symm]

theorem writeByte_wf (m : List Host.Cell) (k : Nat) (b : Byte) (h : Memory.wf m = true) :
    Memory.wf (writeByte m k b) = true := tabSet_wf _ _ _ _ h

theorem writeBytes_wf (l : List (Nat × Byte)) (m : List Host.Cell) (h : Memory.wf m = true) :
    Memory.wf (writeBytes m l) = true := by
  induction l generalizing m with
  | nil => exact h
  | cons e r ih => exact ih _ (writeByte_wf _ _ _ h)

/-- Stores written in the order of their acceptance keep the form. -/
theorem writeStores_wf (l : List Store) (m : List Host.Cell) (h : Memory.wf m = true) :
    Memory.wf (l.foldl (fun m st => writeBytes m st.bytes) m) = true := by
  induction l generalizing m with
  | nil => exact h
  | cons e r ih => exact ih _ (writeBytes_wf _ _ h)

theorem settleStores_wf (s : State) (h : Memory.wf s.mem = true) : Memory.wf s.settleStores.mem = true :=
  writeStores_wf _ _ h

theorem survivors_wf (s : State) (gt : Nat) (h : Memory.wf s.mem = true) : Memory.wf (s.survivors gt).mem = true :=
  writeStores_wf _ _ h

theorem carveWrite_wf (die : Nat) (v : Word) (s t : State) (h : Memory.wf s.mem = true)
    (ht : execCarveWrite die v s = .next t) : Memory.wf t.mem = true := by
  simp only [execCarveWrite, Host.Outcome.next.injEq] at ht
  subst ht
  split
  · exact tabFilter_wf _ _ _ h
  · exact h

theorem cxlCacheResponse_wf (line : Nat) (data : List Byte) (s t : State) (h : Memory.wf s.mem = true)
    (ht : execCxlCacheResponse line data s = .next t) : Memory.wf t.mem = true := by
  simp only [execCxlCacheResponse, Host.Outcome.next.injEq] at ht
  subst ht
  split
  · exact h
  · dsimp only
    split
    · exact h
    · exact writeBytes_wf _ _ h

theorem placed_wf (s : State) (w : Nat) (h : Memory.wf s.mem = true) : Memory.wf (s.placed w).mem = true :=
  writeBytes_wf _ _ h

theorem reset_mem_wf : Memory.wf State.reset.mem = true := rfl

end Sys2Proof.Machine
end

