-- ==== Sys2Proof/Laws/PerInstr.lean ====
section
/-! SUPPORT. One lemma for each constructor of Instr: a well-formed word decodes to itself. An event of the device is no word, and the statement says nothing of it. -/

namespace Sys2Proof.Laws

-- checked one after another: many lemmas waiting for each other would take a thread each
set_option Elab.async false

/-- A well-formed word decodes to itself, whatever follows it where it has no literal. -/
def ReadsBack.Statement (i : Instr) : Prop :=
  i.isWord = true → i.wf = true → ∀ l : Word, decode (BitVec.ofNat 32 i.wordNat) (i.literal.getD l) = .ok i


theorem ReadsBack.cmdNop (q : Nat) : ReadsBack.Statement (.cmdNop q) := nofun

theorem ReadsBack.launch (q : Nat) : ReadsBack.Statement (.launch q) := nofun

theorem ReadsBack.waitev (q : Nat) : ReadsBack.Statement (.waitev q) := nofun

theorem ReadsBack.waitevSatisfied (q : Nat) : ReadsBack.Statement (.waitevSatisfied q) := nofun

theorem ReadsBack.signal (q : Nat) : ReadsBack.Statement (.signal q) := nofun

theorem ReadsBack.qcfgWrite (q : Nat) (v : Word) : ReadsBack.Statement (.qcfgWrite q v) := nofun

theorem ReadsBack.qstatResume (q : Nat) : ReadsBack.Statement (.qstatResume q) := nofun

theorem ReadsBack.queueTailWrite (q : Nat) (v : Word) : ReadsBack.Statement (.queueTailWrite q v) := nofun

theorem ReadsBack.registerWrite (w : WindowOp) (v : Word) : ReadsBack.Statement (.registerWrite w v) := nofun

theorem ReadsBack.groveDispatch (l : Nat) (core : Nat) (slot : Nat) (rerun : Bool) : ReadsBack.Statement (.groveDispatch l core slot rerun) := nofun

theorem ReadsBack.cogridDispatch (l : Nat) (places : List (Nat × Nat)) : ReadsBack.Statement (.cogridDispatch l places) := nofun

theorem ReadsBack.nodeGroveDispatch (r : Nat) (core : Nat) (slot : Nat) : ReadsBack.Statement (.nodeGroveDispatch r core slot) := nofun

theorem ReadsBack.contqFallback (r : Nat) : ReadsBack.Statement (.contqFallback r) := nofun

theorem ReadsBack.coreHandover (core : Nat) : ReadsBack.Statement (.coreHandover core) := nofun

theorem ReadsBack.groveRetire (gid : Nat) : ReadsBack.Statement (.groveRetire gid) := nofun

theorem ReadsBack.segmentCommit (gid : Nat) (who : Option Nat) : ReadsBack.Statement (.segmentCommit gid who) := nofun

theorem ReadsBack.loadAtHome (id : Nat) : ReadsBack.Statement (.loadAtHome id) := nofun

theorem ReadsBack.loadReturn (id : Nat) (data : List Word) (fate : Nat) : ReadsBack.Statement (.loadReturn id data fate) := nofun

theorem ReadsBack.storeArrival (id : Nat) (fate : Nat) : ReadsBack.Statement (.storeArrival id fate) := nofun

theorem ReadsBack.atomicAtHome (id : Nat) : ReadsBack.Statement (.atomicAtHome id) := nofun

theorem ReadsBack.clusterJunctionRelease (cluster : Nat) (store : Nat) : ReadsBack.Statement (.clusterJunctionRelease cluster store) := nofun

theorem ReadsBack.engineLineWrite (cmd : Nat) (c : FabIn) : ReadsBack.Statement (.engineLineWrite cmd c) := nofun

theorem ReadsBack.serialTokenGrant (gid : Nat) (tid : Nat) : ReadsBack.Statement (.serialTokenGrant gid tid) := nofun

theorem ReadsBack.txnLineUnlock (line : Nat) : ReadsBack.Statement (.txnLineUnlock line) := nofun

theorem ReadsBack.txnCommitComplete (gid : Nat) (tid : Nat) : ReadsBack.Statement (.txnCommitComplete gid tid) := nofun

theorem ReadsBack.snpData (line : Nat) : ReadsBack.Statement (.snpData line) := nofun

theorem ReadsBack.snpInv (line : Nat) : ReadsBack.Statement (.snpInv line) := nofun

theorem ReadsBack.snpCur (line : Nat) : ReadsBack.Statement (.snpCur line) := nofun

theorem ReadsBack.snoopResponse (line : Nat) : ReadsBack.Statement (.snoopResponse line) := nofun

theorem ReadsBack.hubEviction (line : Nat) : ReadsBack.Statement (.hubEviction line) := nofun

theorem ReadsBack.hostMemRead (die : Nat) (off : Nat) (keep : Nat) : ReadsBack.Statement (.hostMemRead die off keep) := nofun

theorem ReadsBack.hostMemWrite (die : Nat) (off : Nat) (data : List Byte) : ReadsBack.Statement (.hostMemWrite die off data) := nofun

theorem ReadsBack.biRspI (line : Nat) (wb : Option (List Byte)) : ReadsBack.Statement (.biRspI line wb) := nofun

theorem ReadsBack.peerAccessArrival (dev : Nat) (ctx : Nat) (off : Nat) (op : PeerOp) : ReadsBack.Statement (.peerAccessArrival dev ctx off op) := nofun

theorem ReadsBack.peerStoreAck (id : Nat) : ReadsBack.Statement (.peerStoreAck id) := nofun

theorem ReadsBack.gatheringComplete (gid : Nat) (tid : Nat) : ReadsBack.Statement (.gatheringComplete gid tid) := nofun

theorem ReadsBack.barrierTimeout (gid : Nat) (who : Option Nat) : ReadsBack.Statement (.barrierTimeout gid who) := nofun

theorem ReadsBack.replayWaitTimeout (gid : Nat) (who : Option Nat) : ReadsBack.Statement (.replayWaitTimeout gid who) := nofun

theorem ReadsBack.sstepRelease (gid : Nat) : ReadsBack.Statement (.sstepRelease gid) := nofun

theorem ReadsBack.seedbedTimerExpiry (gid : Nat) (bed : Nat) : ReadsBack.Statement (.seedbedTimerExpiry gid bed) := nofun

theorem ReadsBack.seedlingStandLaunch (gid : Nat) (bed : Nat) (entry : Word) : ReadsBack.Statement (.seedlingStandLaunch gid bed entry) := nofun

theorem ReadsBack.bteRayDone (ray : Nat) (c : FabIn) : ReadsBack.Statement (.bteRayDone ray c) := nofun

theorem ReadsBack.beamComplete (beam : Nat) (c : FabIn) : ReadsBack.Statement (.beamComplete beam c) := nofun

theorem ReadsBack.atlasRequestComplete (beam : Nat) (c : FabIn) : ReadsBack.Statement (.atlasRequestComplete beam c) := nofun

theorem ReadsBack.sequencerChunk (gid : Nat) (c : FabIn) : ReadsBack.Statement (.sequencerChunk gid c) := nofun

theorem ReadsBack.arrayCommandComplete (gid : Nat) : ReadsBack.Statement (.arrayCommandComplete gid) := nofun

theorem ReadsBack.loaderSlot (gid : Nat) (id : Nat) (c : FabIn) : ReadsBack.Statement (.loaderSlot gid id c) := nofun

theorem ReadsBack.tileLoadComplete (gid : Nat) (id : Nat) : ReadsBack.Statement (.tileLoadComplete gid id) := nofun

theorem ReadsBack.pendingTrapDelivery (gid : Nat) : ReadsBack.Statement (.pendingTrapDelivery gid) := nofun

theorem ReadsBack.engineCommandComplete (cmd : Nat) : ReadsBack.Statement (.engineCommandComplete cmd) := nofun

theorem ReadsBack.collTimeout (cmd : Nat) : ReadsBack.Statement (.collTimeout cmd) := nofun

theorem ReadsBack.timewaitDeadline (gid : Nat) : ReadsBack.Statement (.timewaitDeadline gid) := nofun

theorem ReadsBack.pginvComplete (id : Nat) : ReadsBack.Statement (.pginvComplete id) := nofun

theorem ReadsBack.dfactRelease (die : Nat) (idx : Nat) : ReadsBack.Statement (.dfactRelease die idx) := nofun

theorem ReadsBack.dfactKill (die : Nat) (idx : Nat) : ReadsBack.Statement (.dfactKill die idx) := nofun

theorem ReadsBack.haltInPlaceRequest (ctx : Nat) : ReadsBack.Statement (.haltInPlaceRequest ctx) := nofun

theorem ReadsBack.haltReport (ctx : Nat) (core : Nat) : ReadsBack.Statement (.haltReport ctx core) := nofun

theorem ReadsBack.contextResume (ctx : Nat) : ReadsBack.Statement (.contextResume ctx) := nofun

theorem ReadsBack.contextSwitch (w : CoreSwitch) : ReadsBack.Statement (.contextSwitch w) := nofun

theorem ReadsBack.drainWatchdog (ctx : Nat) : ReadsBack.Statement (.drainWatchdog ctx) := nofun

theorem ReadsBack.temporalSliceExpiry (cluster : Nat) : ReadsBack.Statement (.temporalSliceExpiry cluster) := nofun

theorem ReadsBack.clusterGrant (cluster : Nat) (ctx : Nat) : ReadsBack.Statement (.clusterGrant cluster ctx) := nofun

theorem ReadsBack.ctxcfgEnable (ctx : Nat) (v : Word) : ReadsBack.Statement (.ctxcfgEnable ctx v) := nofun

theorem ReadsBack.ctxcfgEnd (ctx : Nat) (v : Word) : ReadsBack.Statement (.ctxcfgEnd ctx v) := nofun

theorem ReadsBack.powerOn (b : BootIn) : ReadsBack.Statement (.powerOn b) := nofun

theorem ReadsBack.deviceReset (b : BootIn) : ReadsBack.Statement (.deviceReset b) := nofun

theorem ReadsBack.cxlHotReset (b : BootIn) : ReadsBack.Statement (.cxlHotReset b) := nofun

theorem ReadsBack.freqreqWrite (die : Nat) (v : Word) : ReadsBack.Statement (.freqreqWrite die v) := nofun

theorem ReadsBack.frequencyStep (die : Nat) : ReadsBack.Statement (.frequencyStep die) := nofun

theorem ReadsBack.relockEnd (die : Nat) : ReadsBack.Statement (.relockEnd die) := nofun

theorem ReadsBack.powerLimitAction (die : Nat) (code : Nat) : ReadsBack.Statement (.powerLimitAction die code) := nofun

theorem ReadsBack.carveWrite (die : Nat) (v : Word) : ReadsBack.Statement (.carveWrite die v) := nofun

theorem ReadsBack.snapstatFree : ReadsBack.Statement (.snapstatFree ) := nofun

theorem ReadsBack.snapshotExternal : ReadsBack.Statement (.snapshotExternal ) := nofun

theorem ReadsBack.mailboxAttest : ReadsBack.Statement (.mailboxAttest ) := nofun

theorem ReadsBack.mailboxExtend (k : Nat) : ReadsBack.Statement (.mailboxExtend k) := nofun

theorem ReadsBack.attestAnswerReady : ReadsBack.Statement (.attestAnswerReady ) := nofun

theorem ReadsBack.scrubPass (key : Nat) : ReadsBack.Statement (.scrubPass key) := nofun

theorem ReadsBack.spareLaneTestDone (core : Nat) (r : LaneTest) : ReadsBack.Statement (.spareLaneTestDone core r) := nofun

theorem ReadsBack.supplySag (cluster : Nat) (level : Nat) : ReadsBack.Statement (.supplySag cluster level) := nofun

theorem ReadsBack.sagLevelLower (cluster : Nat) : ReadsBack.Statement (.sagLevelLower cluster) := nofun

theorem ReadsBack.uncorrectableError (e : ErrSite) : ReadsBack.Statement (.uncorrectableError e) := nofun

theorem ReadsBack.hbmStackFailure (die : Nat) (stack : Nat) : ReadsBack.Statement (.hbmStackFailure die stack) := nofun

theorem ReadsBack.linkFailure (link : Nat) : ReadsBack.Statement (.linkFailure link) := nofun

theorem ReadsBack.dieUnresponsive (die : Nat) : ReadsBack.Statement (.dieUnresponsive die) := nofun

theorem ReadsBack.verifyCompare (l : Nat) (tag : Nat) : ReadsBack.Statement (.verifyCompare l tag) := nofun

theorem ReadsBack.releasePerformed (gid : Nat) (who : Option Nat) : ReadsBack.Statement (.releasePerformed gid who) := nofun

theorem ReadsBack.cxlCacheResponse (line : Nat) (data : List Byte) : ReadsBack.Statement (.cxlCacheResponse line data) := nofun

theorem ReadsBack.expanderFailure (port : Nat) : ReadsBack.Statement (.expanderFailure port) := nofun

theorem ReadsBack.iadd (h : Hdr) (d : Fin 64) (a : LaneA) (b : Fin 64) : ReadsBack.Statement (.iadd h d a b) := fun _ hw lw => 
  (classA_word (by decide) d.isLt a.code_lt b.isLt (fun wd hg => by rw [decodeA, hg]; rfl)).trans
    (Dec.bin_code _ d a b lw)

theorem ReadsBack.isub (h : Hdr) (d : Fin 64) (a : LaneA) (b : Fin 64) : ReadsBack.Statement (.isub h d a b) := fun _ hw lw => 
  (classA_word (by decide) d.isLt a.code_lt b.isLt (fun wd hg => by rw [decodeA, hg]; rfl)).trans
    (Dec.bin_code _ d a b lw)

theorem ReadsBack.isubr (h : Hdr) (d : Fin 64) (a : LaneA) (b : Fin 64) : ReadsBack.Statement (.isubr h d a b) := fun _ hw lw => 
  (classA_word (by decide) d.isLt a.code_lt b.isLt (fun wd hg => by rw [decodeA, hg]; rfl)).trans
    (Dec.bin_code _ d a b lw)

theorem ReadsBack.imul (h : Hdr) (d : Fin 64) (a : LaneA) (b : Fin 64) : ReadsBack.Statement (.imul h d a b) := fun _ hw lw => 
  (classA_word (by decide) d.isLt a.code_lt b.isLt (fun wd hg => by rw [decodeA, hg]; rfl)).trans
    (Dec.bin_code _ d a b lw)

theorem ReadsBack.imulhi (h : Hdr) (d : Fin 64) (a : LaneA) (b : Fin 64) : ReadsBack.Statement (.imulhi h d a b) := fun _ hw lw => 
  (classA_word (by decide) d.isLt a.code_lt b.isLt (fun wd hg => by rw [decodeA, hg]; rfl)).trans
    (Dec.bin_code _ d a b lw)

theorem ReadsBack.nmulhi (h : Hdr) (d : Fin 64) (a : LaneA) (b : Fin 64) : ReadsBack.Statement (.nmulhi h d a b) := fun _ hw lw => 
  (classA_word (by decide) d.isLt a.code_lt b.isLt (fun wd hg => by rw [decodeA, hg]; rfl)).trans
    (Dec.bin_code _ d a b lw)

theorem ReadsBack.imad (h : Hdr) (d : Fin 64) (a : LaneA) (b : Fin 64) : ReadsBack.Statement (.imad h d a b) := fun _ hw lw => 
  (classA_word (by decide) d.isLt a.code_lt b.isLt (fun wd hg => by rw [decodeA, hg]; rfl)).trans
    (Dec.bin_code _ d a b lw)

theorem ReadsBack.imin (h : Hdr) (d : Fin 64) (a : LaneA) (b : Fin 64) : ReadsBack.Statement (.imin h d a b) := fun _ hw lw => 
  (classA_word (by decide) d.isLt a.code_lt b.isLt (fun wd hg => by rw [decodeA, hg]; rfl)).trans
    (Dec.bin_code _ d a b lw)

theorem ReadsBack.imax (h : Hdr) (d : Fin 64) (a : LaneA) (b : Fin 64) : ReadsBack.Statement (.imax h d a b) := fun _ hw lw => 
  (classA_word (by decide) d.isLt a.code_lt b.isLt (fun wd hg => by rw [decodeA, hg]; rfl)).trans
    (Dec.bin_code _ d a b lw)

theorem ReadsBack.nmin (h : Hdr) (d : Fin 64) (a : LaneA) (b : Fin 64) : ReadsBack.Statement (.nmin h d a b) := fun _ hw lw => 
  (classA_word (by decide) d.isLt a.code_lt b.isLt (fun wd hg => by rw [decodeA, hg]; rfl)).trans
    (Dec.bin_code _ d a b lw)

theorem ReadsBack.nmax (h : Hdr) (d : Fin 64) (a : LaneA) (b : Fin 64) : ReadsBack.Statement (.nmax h d a b) := fun _ hw lw => 
  (classA_word (by decide) d.isLt a.code_lt b.isLt (fun wd hg => by rw [decodeA, hg]; rfl)).trans
    (Dec.bin_code _ d a b lw)

theorem ReadsBack.iabs (h : Hdr) (d : Fin 64) (a : LaneA) : ReadsBack.Statement (.iabs h d a) := fun _ hw lw => 
  (classA_word (by decide) d.isLt a.code_lt (by decide) (fun wd hg => by rw [decodeA, hg]; rfl)).trans
    (Dec.un_code _ d a lw)

theorem ReadsBack.and (h : Hdr) (d : Fin 64) (a : LaneA) (b : Fin 64) : ReadsBack.Statement (.and h d a b) := fun _ hw lw => 
  (classA_word (by decide) d.isLt a.code_lt b.isLt (fun wd hg => by rw [decodeA, hg]; rfl)).trans
    (Dec.bin_code _ d a b lw)

theorem ReadsBack.or (h : Hdr) (d : Fin 64) (a : LaneA) (b : Fin 64) : ReadsBack.Statement (.or h d a b) := fun _ hw lw => 
  (classA_word (by decide) d.isLt a.code_lt b.isLt (fun wd hg => by rw [decodeA, hg]; rfl)).trans
    (Dec.bin_code _ d a b lw)

theorem ReadsBack.xor (h : Hdr) (d : Fin 64) (a : LaneA) (b : Fin 64) : ReadsBack.Statement (.xor h d a b) := fun _ hw lw => 
  (classA_word (by decide) d.isLt a.code_lt b.isLt (fun wd hg => by rw [decodeA, hg]; rfl)).trans
    (Dec.bin_code _ d a b lw)

theorem ReadsBack.andn (h : Hdr) (d : Fin 64) (a : LaneA) (b : Fin 64) : ReadsBack.Statement (.andn h d a b) := fun _ hw lw => 
  (classA_word (by decide) d.isLt a.code_lt b.isLt (fun wd hg => by rw [decodeA, hg]; rfl)).trans
    (Dec.bin_code _ d a b lw)

theorem ReadsBack.shl (h : Hdr) (d : Fin 64) (a : LaneA) (b : Fin 64) : ReadsBack.Statement (.shl h d a b) := fun _ hw lw => 
  (classA_word (by decide) d.isLt a.code_lt b.isLt (fun wd hg => by rw [decodeA, hg]; rfl)).trans
    (Dec.bin_code _ d a b lw)

theorem ReadsBack.shr (h : Hdr) (d : Fin 64) (a : LaneA) (b : Fin 64) : ReadsBack.Statement (.shr h d a b) := fun _ hw lw => 
  (classA_word (by decide) d.isLt a.code_lt b.isLt (fun wd hg => by rw [decodeA, hg]; rfl)).trans
    (Dec.bin_code _ d a b lw)

theorem ReadsBack.sar (h : Hdr) (d : Fin 64) (a : LaneA) (b : Fin 64) : ReadsBack.Statement (.sar h d a b) := fun _ hw lw => 
  (classA_word (by decide) d.isLt a.code_lt b.isLt (fun wd hg => by rw [decodeA, hg]; rfl)).trans
    (Dec.bin_code _ d a b lw)

theorem ReadsBack.rotl (h : Hdr) (d : Fin 64) (a : LaneA) (b : Fin 64) : ReadsBack.Statement (.rotl h d a b) := fun _ hw lw => 
  (classA_word (by decide) d.isLt a.code_lt b.isLt (fun wd hg => by rw [decodeA, hg]; rfl)).trans
    (Dec.bin_code _ d a b lw)

theorem ReadsBack.bfx (h : Hdr) (d : Fin 64) (a : LaneA) (b : Fin 64) : ReadsBack.Statement (.bfx h d a b) := fun _ hw lw => 
  (classA_word (by decide) d.isLt a.code_lt b.isLt (fun wd hg => by rw [decodeA, hg]; rfl)).trans
    (Dec.bin_code _ d a b lw)

theorem ReadsBack.bfxs (h : Hdr) (d : Fin 64) (a : LaneA) (b : Fin 64) : ReadsBack.Statement (.bfxs h d a b) := fun _ hw lw => 
  (classA_word (by decide) d.isLt a.code_lt b.isLt (fun wd hg => by rw [decodeA, hg]; rfl)).trans
    (Dec.bin_code _ d a b lw)

theorem ReadsBack.bfi (h : Hdr) (d : Fin 64) (a : LaneA) (b : Fin 64) : ReadsBack.Statement (.bfi h d a b) := fun _ hw lw => 
  (classA_word (by decide) d.isLt a.code_lt b.isLt (fun wd hg => by rw [decodeA, hg]; rfl)).trans
    (Dec.bin_code _ d a b lw)

theorem ReadsBack.popc (h : Hdr) (d : Fin 64) (a : LaneA) : ReadsBack.Statement (.popc h d a) := fun _ hw lw => 
  (classA_word (by decide) d.isLt a.code_lt (by decide) (fun wd hg => by rw [decodeA, hg]; rfl)).trans
    (Dec.un_code _ d a lw)

theorem ReadsBack.clz (h : Hdr) (d : Fin 64) (a : LaneA) : ReadsBack.Statement (.clz h d a) := fun _ hw lw => 
  (classA_word (by decide) d.isLt a.code_lt (by decide) (fun wd hg => by rw [decodeA, hg]; rfl)).trans
    (Dec.un_code _ d a lw)

theorem ReadsBack.ctz (h : Hdr) (d : Fin 64) (a : LaneA) : ReadsBack.Statement (.ctz h d a) := fun _ hw lw => 
  (classA_word (by decide) d.isLt a.code_lt (by decide) (fun wd hg => by rw [decodeA, hg]; rfl)).trans
    (Dec.un_code _ d a lw)

theorem ReadsBack.brev (h : Hdr) (d : Fin 64) (a : LaneA) : ReadsBack.Statement (.brev h d a) := fun _ hw lw => 
  (classA_word (by decide) d.isLt a.code_lt (by decide) (fun wd hg => by rw [decodeA, hg]; rfl)).trans
    (Dec.un_code _ d a lw)

theorem ReadsBack.iadd64 (h : Hdr) (d : Fin 64) (a : LaneA) (b : Fin 64) : ReadsBack.Statement (.iadd64 h d a b) := fun _ hw lw => 
  (classA_word (by decide) d.isLt a.code_lt b.isLt (fun wd hg => by rw [decodeA, hg]; rfl)).trans
    (Dec.bin64_code _ d a b lw hw)

theorem ReadsBack.isub64 (h : Hdr) (d : Fin 64) (a : LaneA) (b : Fin 64) : ReadsBack.Statement (.isub64 h d a b) := fun _ hw lw => 
  (classA_word (by decide) d.isLt a.code_lt b.isLt (fun wd hg => by rw [decodeA, hg]; rfl)).trans
    (Dec.bin64_code _ d a b lw hw)

theorem ReadsBack.imul64 (h : Hdr) (d : Fin 64) (a : LaneA) (b : Fin 64) : ReadsBack.Statement (.imul64 h d a b) := fun _ hw lw => 
  (classA_word (by decide) d.isLt a.code_lt b.isLt (fun wd hg => by rw [decodeA, hg]; rfl)).trans
    (Dec.bin64_code _ d a b lw hw)

theorem ReadsBack.shl64 (h : Hdr) (d : Fin 64) (a : LaneA) (b : Fin 64) : ReadsBack.Statement (.shl64 h d a b) := fun _ hw lw => 
  (classA_word (by decide) d.isLt a.code_lt b.isLt (fun wd hg => by rw [decodeA, hg]; rfl)).trans
    (Dec.bin_code _ d a b lw)

theorem ReadsBack.shr64 (h : Hdr) (d : Fin 64) (a : LaneA) (b : Fin 64) : ReadsBack.Statement (.shr64 h d a b) := fun _ hw lw => 
  (classA_word (by decide) d.isLt a.code_lt b.isLt (fun wd hg => by rw [decodeA, hg]; rfl)).trans
    (Dec.bin_code _ d a b lw)

theorem ReadsBack.icmp (h : Hdr) (k : Fin 8) (c : ICond) (a : LaneA) (b : Fin 64) : ReadsBack.Statement (.icmp h k c a b) := fun _ hw lw => 
  (classA_word (by decide) (pair33_lt _ _ c.code_lt) a.code_lt b.isLt (fun wd hg => by rw [decodeA, hg]; rfl)).trans
    (Dec.predI_code _ k c a b lw hw)

theorem ReadsBack.ncmp (h : Hdr) (k : Fin 8) (c : ICond) (a : LaneA) (b : Fin 64) : ReadsBack.Statement (.ncmp h k c a b) := fun _ hw lw => 
  (classA_word (by decide) (pair33_lt _ _ c.code_lt) a.code_lt b.isLt (fun wd hg => by rw [decodeA, hg]; rfl)).trans
    (Dec.predI_code _ k c a b lw hw)

theorem ReadsBack.mov (h : Hdr) (d : Fin 64) (a : LaneA) : ReadsBack.Statement (.mov h d a) := fun _ hw lw => 
  (classA_word (by decide) d.isLt a.code_lt (by decide) (fun wd hg => by rw [decodeA, hg]; rfl)).trans
    (Dec.un_code _ d a lw)

theorem ReadsBack.mov64 (h : Hdr) (d : Fin 64) (a : LaneA) : ReadsBack.Statement (.mov64 h d a) := fun _ hw lw => 
  (classA_word (by decide) d.isLt a.code_lt (by decide) (fun wd hg => by rw [decodeA, hg]; rfl)).trans
    (Dec.un64_code _ d a lw hw)

theorem ReadsBack.iadds (h : Hdr) (d : Fin 64) (a : LaneA) (b : Fin 64) : ReadsBack.Statement (.iadds h d a b) := fun _ hw lw => 
  (classA_word (by decide) d.isLt a.code_lt b.isLt (fun wd hg => by rw [decodeA, hg]; rfl)).trans
    (Dec.bin_code _ d a b lw)

theorem ReadsBack.isubs (h : Hdr) (d : Fin 64) (a : LaneA) (b : Fin 64) : ReadsBack.Statement (.isubs h d a b) := fun _ hw lw => 
  (classA_word (by decide) d.isLt a.code_lt b.isLt (fun wd hg => by rw [decodeA, hg]; rfl)).trans
    (Dec.bin_code _ d a b lw)

theorem ReadsBack.dot4i (h : Hdr) (d : Fin 64) (a : LaneA) (b : Fin 64) : ReadsBack.Statement (.dot4i h d a b) := fun _ hw lw => 
  (classA_word (by decide) d.isLt a.code_lt b.isLt (fun wd hg => by rw [decodeA, hg]; rfl)).trans
    (Dec.bin_code _ d a b lw)

theorem ReadsBack.dot4n (h : Hdr) (d : Fin 64) (a : LaneA) (b : Fin 64) : ReadsBack.Statement (.dot4n h d a b) := fun _ hw lw => 
  (classA_word (by decide) d.isLt a.code_lt b.isLt (fun wd hg => by rw [decodeA, hg]; rfl)).trans
    (Dec.bin_code _ d a b lw)

theorem ReadsBack.pack (h : Hdr) (d : Fin 64) (a : LaneA) (b : Fin 64) : ReadsBack.Statement (.pack h d a b) := fun _ hw lw => 
  (classA_word (by decide) d.isLt a.code_lt b.isLt (fun wd hg => by rw [decodeA, hg]; rfl)).trans
    (Dec.bin_code _ d a b lw)

theorem ReadsBack.permb (h : Hdr) (d : Fin 64) (a : LaneA) (b : Fin 64) : ReadsBack.Statement (.permb h d a b) := fun _ hw lw => 
  (classA_word (by decide) d.isLt a.code_lt b.isLt (fun wd hg => by rw [decodeA, hg]; rfl)).trans
    (Dec.bin_code _ d a b lw)

theorem ReadsBack.xswz (h : Hdr) (d : Fin 64) (a : LaneA) (b : Fin 64) : ReadsBack.Statement (.xswz h d a b) := fun _ hw lw => 
  (classA_word (by decide) d.isLt a.code_lt b.isLt (fun wd hg => by rw [decodeA, hg]; rfl)).trans
    (Dec.bin_code _ d a b lw)

theorem ReadsBack.fadd (h : Hdr) (d : Fin 64) (a : LaneA) (b : Fin 64) : ReadsBack.Statement (.fadd h d a b) := fun _ hw lw => 
  (classF_word (by decide) d.isLt a.code_lt b.isLt (fun wd hg => by rw [decodeF, hg]; rfl)).trans
    (Dec.bin_code _ d a b lw)

theorem ReadsBack.fsub (h : Hdr) (d : Fin 64) (a : LaneA) (b : Fin 64) : ReadsBack.Statement (.fsub h d a b) := fun _ hw lw => 
  (classF_word (by decide) d.isLt a.code_lt b.isLt (fun wd hg => by rw [decodeF, hg]; rfl)).trans
    (Dec.bin_code _ d a b lw)

theorem ReadsBack.fmul (h : Hdr) (d : Fin 64) (a : LaneA) (b : Fin 64) : ReadsBack.Statement (.fmul h d a b) := fun _ hw lw => 
  (classF_word (by decide) d.isLt a.code_lt b.isLt (fun wd hg => by rw [decodeF, hg]; rfl)).trans
    (Dec.bin_code _ d a b lw)

theorem ReadsBack.ffma (h : Hdr) (d : Fin 64) (a : LaneA) (b : Fin 64) : ReadsBack.Statement (.ffma h d a b) := fun _ hw lw => 
  (classF_word (by decide) d.isLt a.code_lt b.isLt (fun wd hg => by rw [decodeF, hg]; rfl)).trans
    (Dec.bin_code _ d a b lw)

theorem ReadsBack.ffms (h : Hdr) (d : Fin 64) (a : LaneA) (b : Fin 64) : ReadsBack.Statement (.ffms h d a b) := fun _ hw lw => 
  (classF_word (by decide) d.isLt a.code_lt b.isLt (fun wd hg => by rw [decodeF, hg]; rfl)).trans
    (Dec.bin_code _ d a b lw)

theorem ReadsBack.fmin (h : Hdr) (d : Fin 64) (a : LaneA) (b : Fin 64) : ReadsBack.Statement (.fmin h d a b) := fun _ hw lw => 
  (classF_word (by decide) d.isLt a.code_lt b.isLt (fun wd hg => by rw [decodeF, hg]; rfl)).trans
    (Dec.bin_code _ d a b lw)

theorem ReadsBack.fmax (h : Hdr) (d : Fin 64) (a : LaneA) (b : Fin 64) : ReadsBack.Statement (.fmax h d a b) := fun _ hw lw => 
  (classF_word (by decide) d.isLt a.code_lt b.isLt (fun wd hg => by rw [decodeF, hg]; rfl)).trans
    (Dec.bin_code _ d a b lw)

theorem ReadsBack.fminn (h : Hdr) (d : Fin 64) (a : LaneA) (b : Fin 64) : ReadsBack.Statement (.fminn h d a b) := fun _ hw lw => 
  (classF_word (by decide) d.isLt a.code_lt b.isLt (fun wd hg => by rw [decodeF, hg]; rfl)).trans
    (Dec.bin_code _ d a b lw)

theorem ReadsBack.fmaxn (h : Hdr) (d : Fin 64) (a : LaneA) (b : Fin 64) : ReadsBack.Statement (.fmaxn h d a b) := fun _ hw lw => 
  (classF_word (by decide) d.isLt a.code_lt b.isLt (fun wd hg => by rw [decodeF, hg]; rfl)).trans
    (Dec.bin_code _ d a b lw)

theorem ReadsBack.fabs (h : Hdr) (d : Fin 64) (a : LaneA) : ReadsBack.Statement (.fabs h d a) := fun _ hw lw => 
  (classF_word (by decide) d.isLt a.code_lt (by decide) (fun wd hg => by rw [decodeF, hg]; rfl)).trans
    (Dec.un_code _ d a lw)

theorem ReadsBack.fneg (h : Hdr) (d : Fin 64) (a : LaneA) : ReadsBack.Statement (.fneg h d a) := fun _ hw lw => 
  (classF_word (by decide) d.isLt a.code_lt (by decide) (fun wd hg => by rw [decodeF, hg]; rfl)).trans
    (Dec.un_code _ d a lw)

theorem ReadsBack.fcmp (h : Hdr) (k : Fin 8) (c : FCond) (a : LaneA) (b : Fin 64) : ReadsBack.Statement (.fcmp h k c a b) := fun _ hw lw => 
  (classF_word (by decide) (pair33_lt _ _ c.code_lt) a.code_lt b.isLt (fun wd hg => by rw [decodeF, hg]; rfl)).trans
    (Dec.predF_code _ k c a b lw hw)

theorem ReadsBack.fclass (h : Hdr) (d : Fin 64) (a : LaneA) : ReadsBack.Statement (.fclass h d a) := fun _ hw lw => 
  (classF_word (by decide) d.isLt a.code_lt (by decide) (fun wd hg => by rw [decodeF, hg]; rfl)).trans
    (Dec.un_code _ d a lw)

theorem ReadsBack.frnd (h : Hdr) (d : Fin 64) (a : LaneA) (e : RndSel) : ReadsBack.Statement (.frnd h d a e) := fun _ hw lw => 
  (classF_word (by decide) d.isLt a.code_lt e.code_lt (fun wd hg => by rw [decodeF, hg]; rfl)).trans
    (Dec.selR_code _ d a e lw)

theorem ReadsBack.fldexp (h : Hdr) (d : Fin 64) (a : LaneA) (b : Fin 64) : ReadsBack.Statement (.fldexp h d a b) := fun _ hw lw => 
  (classF_word (by decide) d.isLt a.code_lt b.isLt (fun wd hg => by rw [decodeF, hg]; rfl)).trans
    (Dec.bin_code _ d a b lw)

theorem ReadsBack.ffract (h : Hdr) (d : Fin 64) (a : LaneA) : ReadsBack.Statement (.ffract h d a) := fun _ hw lw => 
  (classF_word (by decide) d.isLt a.code_lt (by decide) (fun wd hg => by rw [decodeF, hg]; rfl)).trans
    (Dec.un_code _ d a lw)

theorem ReadsBack.hadd2 (h : Hdr) (d : Fin 64) (a : LaneA) (b : Fin 64) : ReadsBack.Statement (.hadd2 h d a b) := fun _ hw lw => 
  (classF_word (by decide) d.isLt a.code_lt b.isLt (fun wd hg => by rw [decodeF, hg]; rfl)).trans
    (Dec.bin_code _ d a b lw)

theorem ReadsBack.hmul2 (h : Hdr) (d : Fin 64) (a : LaneA) (b : Fin 64) : ReadsBack.Statement (.hmul2 h d a b) := fun _ hw lw => 
  (classF_word (by decide) d.isLt a.code_lt b.isLt (fun wd hg => by rw [decodeF, hg]; rfl)).trans
    (Dec.bin_code _ d a b lw)

theorem ReadsBack.hfma2 (h : Hdr) (d : Fin 64) (a : LaneA) (b : Fin 64) : ReadsBack.Statement (.hfma2 h d a b) := fun _ hw lw => 
  (classF_word (by decide) d.isLt a.code_lt b.isLt (fun wd hg => by rw [decodeF, hg]; rfl)).trans
    (Dec.bin_code _ d a b lw)

theorem ReadsBack.hmin2 (h : Hdr) (d : Fin 64) (a : LaneA) (b : Fin 64) : ReadsBack.Statement (.hmin2 h d a b) := fun _ hw lw => 
  (classF_word (by decide) d.isLt a.code_lt b.isLt (fun wd hg => by rw [decodeF, hg]; rfl)).trans
    (Dec.bin_code _ d a b lw)

theorem ReadsBack.hmax2 (h : Hdr) (d : Fin 64) (a : LaneA) (b : Fin 64) : ReadsBack.Statement (.hmax2 h d a b) := fun _ hw lw => 
  (classF_word (by decide) d.isLt a.code_lt b.isLt (fun wd hg => by rw [decodeF, hg]; rfl)).trans
    (Dec.bin_code _ d a b lw)

theorem ReadsBack.badd2 (h : Hdr) (d : Fin 64) (a : LaneA) (b : Fin 64) : ReadsBack.Statement (.badd2 h d a b) := fun _ hw lw => 
  (classF_word (by decide) d.isLt a.code_lt b.isLt (fun wd hg => by rw [decodeF, hg]; rfl)).trans
    (Dec.bin_code _ d a b lw)

theorem ReadsBack.bmul2 (h : Hdr) (d : Fin 64) (a : LaneA) (b : Fin 64) : ReadsBack.Statement (.bmul2 h d a b) := fun _ hw lw => 
  (classF_word (by decide) d.isLt a.code_lt b.isLt (fun wd hg => by rw [decodeF, hg]; rfl)).trans
    (Dec.bin_code _ d a b lw)

theorem ReadsBack.bfma2 (h : Hdr) (d : Fin 64) (a : LaneA) (b : Fin 64) : ReadsBack.Statement (.bfma2 h d a b) := fun _ hw lw => 
  (classF_word (by decide) d.isLt a.code_lt b.isLt (fun wd hg => by rw [decodeF, hg]; rfl)).trans
    (Dec.bin_code _ d a b lw)

theorem ReadsBack.hcmp2 (h : Hdr) (k : Fin 8) (c : FCond) (a : LaneA) (b : Fin 64) : ReadsBack.Statement (.hcmp2 h k c a b) := fun _ hw lw => 
  (classF_word (by decide) (pair33_lt _ _ c.code_lt) a.code_lt b.isLt (fun wd hg => by rw [decodeF, hg]; rfl)).trans
    (Dec.predH_code _ k c a b lw hw)

theorem ReadsBack.cvt (h : Hdr) (d : Fin 64) (a : LaneA) (e : Fin 64) : ReadsBack.Statement (.cvt h d a e) := fun _ hw lw => 
  (classF_word (by decide) d.isLt a.code_lt e.isLt (fun wd hg => by rw [decodeF, hg]; rfl)).trans
    (Dec.selC_code _ d a e lw hw)

theorem ReadsBack.cvtq (h : Hdr) (d : Fin 64) (a : LaneA) (e : Fin 64) : ReadsBack.Statement (.cvtq h d a e) := fun _ hw lw => 
  (classF_word (by decide) d.isLt a.code_lt e.isLt (fun wd hg => by rw [decodeF, hg]; rfl)).trans
    (Dec.selQ_code _ d a e lw hw)

theorem ReadsBack.sfn (h : Hdr) (d : Fin 64) (a : LaneA) (e : SfnFn) : ReadsBack.Statement (.sfn h d a e) := fun _ hw lw => 
  (classF_word (by decide) d.isLt a.code_lt e.code_lt (fun wd hg => by rw [decodeF, hg]; rfl)).trans
    (Dec.selS_code _ d a e lw)

theorem ReadsBack.fdot2 (h : Hdr) (d : Fin 64) (a : LaneA) (b : Fin 64) : ReadsBack.Statement (.fdot2 h d a b) := fun _ hw lw => 
  (classF_word (by decide) d.isLt a.code_lt b.isLt (fun wd hg => by rw [decodeF, hg]; rfl)).trans
    (Dec.bin_code _ d a b lw)

theorem ReadsBack.hdot2 (h : Hdr) (d : Fin 64) (a : LaneA) (b : Fin 64) : ReadsBack.Statement (.hdot2 h d a b) := fun _ hw lw => 
  (classF_word (by decide) d.isLt a.code_lt b.isLt (fun wd hg => by rw [decodeF, hg]; rfl)).trans
    (Dec.bin_code _ d a b lw)

theorem ReadsBack.qdot4 (h : Hdr) (d : Fin 64) (a : LaneA) (b : Fin 64) : ReadsBack.Statement (.qdot4 h d a b) := fun _ hw lw => 
  (classF_word (by decide) d.isLt a.code_lt b.isLt (fun wd hg => by rw [decodeF, hg]; rfl)).trans
    (Dec.bin_code _ d a b lw)

theorem ReadsBack.fsat (h : Hdr) (d : Fin 64) (a : LaneA) : ReadsBack.Statement (.fsat h d a) := fun _ hw lw => 
  (classF_word (by decide) d.isLt a.code_lt (by decide) (fun wd hg => by rw [decodeF, hg]; rfl)).trans
    (Dec.un_code _ d a lw)

theorem ReadsBack.lds (h : Hdr) (d : Fin 64) (a : LaneA) (w : Fin 8) (f : Fin 32) : ReadsBack.Statement (.lds h d a w f) := fun _ hw lw => 
  (classM_word (by decide) d.isLt a.code_lt (pair35_lt w _ f.isLt) (fun wd hg => by rw [decodeM, hg]; rfl)).trans
    (Dec.sp_code _ d a w f lw)

theorem ReadsBack.lds2 (h : Hdr) (d : Fin 64) (a : LaneA) (w : Fin 8) (f : Fin 32) : ReadsBack.Statement (.lds2 h d a w f) := fun _ hw lw => 
  (classM_word (by decide) d.isLt a.code_lt (pair35_lt w _ f.isLt) (fun wd hg => by rw [decodeM, hg]; rfl)).trans
    (Dec.sp_code _ d a w f lw)

theorem ReadsBack.lds4 (h : Hdr) (d : Fin 64) (a : LaneA) (w : Fin 8) (f : Fin 32) : ReadsBack.Statement (.lds4 h d a w f) := fun _ hw lw => 
  (classM_word (by decide) d.isLt a.code_lt (pair35_lt w _ f.isLt) (fun wd hg => by rw [decodeM, hg]; rfl)).trans
    (Dec.sp_code _ d a w f lw)

theorem ReadsBack.sts (h : Hdr) (d : Fin 64) (a : LaneA) (w : Fin 8) (f : Fin 32) : ReadsBack.Statement (.sts h d a w f) := fun _ hw lw => 
  (classM_word (by decide) d.isLt a.code_lt (pair35_lt w _ f.isLt) (fun wd hg => by rw [decodeM, hg]; rfl)).trans
    (Dec.sp_code _ d a w f lw)

theorem ReadsBack.sts2 (h : Hdr) (d : Fin 64) (a : LaneA) (w : Fin 8) (f : Fin 32) : ReadsBack.Statement (.sts2 h d a w f) := fun _ hw lw => 
  (classM_word (by decide) d.isLt a.code_lt (pair35_lt w _ f.isLt) (fun wd hg => by rw [decodeM, hg]; rfl)).trans
    (Dec.sp_code _ d a w f lw)

theorem ReadsBack.sts4 (h : Hdr) (d : Fin 64) (a : LaneA) (w : Fin 8) (f : Fin 32) : ReadsBack.Statement (.sts4 h d a w f) := fun _ hw lw => 
  (classM_word (by decide) d.isLt a.code_lt (pair35_lt w _ f.isLt) (fun wd hg => by rw [decodeM, hg]; rfl)).trans
    (Dec.sp_code _ d a w f lw)

theorem ReadsBack.ldg (h : Hdr) (d : Fin 64) (a : LaneA) (p : Scope) (r : Order) (t : Hint) : ReadsBack.Statement (.ldg h d a p r t) := fun _ hw lw => 
  (classM_word (by decide) d.isLt a.code_lt (trip323_lt p r _ t.code_lt) (fun wd hg => by rw [decodeM, hg]; rfl)).trans
    (Dec.gl_code _ _ d a p r t lw hw)

theorem ReadsBack.ldg2 (h : Hdr) (d : Fin 64) (a : LaneA) (p : Scope) (r : Order) (t : Hint) : ReadsBack.Statement (.ldg2 h d a p r t) := fun _ hw lw => 
  (classM_word (by decide) d.isLt a.code_lt (trip323_lt p r _ t.code_lt) (fun wd hg => by rw [decodeM, hg]; rfl)).trans
    (Dec.gl_code _ _ d a p r t lw hw)

theorem ReadsBack.ldg4 (h : Hdr) (d : Fin 64) (a : LaneA) (p : Scope) (r : Order) (t : Hint) : ReadsBack.Statement (.ldg4 h d a p r t) := fun _ hw lw => 
  (classM_word (by decide) d.isLt a.code_lt (trip323_lt p r _ t.code_lt) (fun wd hg => by rw [decodeM, hg]; rfl)).trans
    (Dec.gl_code _ _ d a p r t lw hw)

theorem ReadsBack.stg (h : Hdr) (d : Fin 64) (a : LaneA) (p : Scope) (r : Order) (t : Hint) : ReadsBack.Statement (.stg h d a p r t) := fun _ hw lw => 
  (classM_word (by decide) d.isLt a.code_lt (trip323_lt p r _ t.code_lt) (fun wd hg => by rw [decodeM, hg]; rfl)).trans
    (Dec.gl_code _ _ d a p r t lw hw)

theorem ReadsBack.stg2 (h : Hdr) (d : Fin 64) (a : LaneA) (p : Scope) (r : Order) (t : Hint) : ReadsBack.Statement (.stg2 h d a p r t) := fun _ hw lw => 
  (classM_word (by decide) d.isLt a.code_lt (trip323_lt p r _ t.code_lt) (fun wd hg => by rw [decodeM, hg]; rfl)).trans
    (Dec.gl_code _ _ d a p r t lw hw)

theorem ReadsBack.stg4 (h : Hdr) (d : Fin 64) (a : LaneA) (p : Scope) (r : Order) (t : Hint) : ReadsBack.Statement (.stg4 h d a p r t) := fun _ hw lw => 
  (classM_word (by decide) d.isLt a.code_lt (trip323_lt p r _ t.code_lt) (fun wd hg => by rw [decodeM, hg]; rfl)).trans
    (Dec.gl_code _ _ d a p r t lw hw)

theorem ReadsBack.ats (h : Hdr) (d : Fin 64) (a : LaneA) (w : Fin 8) (u : AtFn) : ReadsBack.Statement (.ats h d a w u) := fun _ hw lw => 
  (classM_word (by decide) d.isLt a.code_lt (pair35_lt w _ (Nat.lt_of_lt_of_le u.code_lt (show 8 ≤ 2 ^ 5 by decide))) (fun wd hg => by rw [decodeM, hg]; rfl)).trans
    (Dec.ats_code _ d a w u lw)

theorem ReadsBack.atg (h : Hdr) (d : Fin 64) (a : LaneA) (p : Scope) (r : Order) (u : AtFn) : ReadsBack.Statement (.atg h d a p r u) := fun _ hw lw => 
  (classM_word (by decide) d.isLt a.code_lt (trip323_lt p r _ u.code_lt) (fun wd hg => by rw [decodeM, hg]; rfl)).trans
    (Dec.atg_code _ d a p r u lw hw)

theorem ReadsBack.atgx (h : Hdr) (d : Fin 64) (a : LaneA) (p : Scope) (r : Order) (u : AtxFn) : ReadsBack.Statement (.atgx h d a p r u) := fun _ hw lw => 
  (classM_word (by decide) d.isLt a.code_lt (trip323_lt p r _ u.code_lt) (fun wd hg => by rw [decodeM, hg]; rfl)).trans
    (Dec.atgx_code _ d a p r u lw hw)

theorem ReadsBack.prf (h : Hdr) (a : LaneA) (t : Hint) : ReadsBack.Statement (.prf h a t) := fun _ hw lw => 
  (classM_word (by decide) (by decide) a.code_lt (trip323_lt .plain .relaxed _ t.code_lt) (fun wd hg => by rw [decodeM, hg]; rfl)).trans
    (Dec.prf_code _ a t lw hw)

theorem ReadsBack.nop (h : Hdr) : ReadsBack.Statement (.nop h) := by
  intro _ _ lw
  have hf : Fits [(19, 0)] := ⟨(by decide), trivial⟩
  have hfs : fields [19] (packBits [(19, 0)]) = [0] := fields_packBits _ hf
  refine (classX_word (t := .ok (.nop h)) (by decide) (packBits_lt _ hf) (fun wd hg => ?_))
  rw [decodeX, hg]
  simp [hfs]

theorem ReadsBack.bra (h : Hdr) (o : Fin 524288) : ReadsBack.Statement (.bra h o) := by
  intro _ _ lw
  have hf : Fits [(19, o.val)] := ⟨o.isLt, trivial⟩
  have hfs : fields [19] (packBits [(19, o.val)]) = [o.val] := fields_packBits _ hf
  refine (classX_word (t := .ok (.bra h o)) (by decide) (packBits_lt _ hf) (fun wd hg => ?_))
  rw [decodeX, hg]
  simp [hfs]

theorem ReadsBack.brx (h : Hdr) (b : Fin 64) : ReadsBack.Statement (.brx h b) := by
  intro _ _ lw
  have hf : Fits [(13, 0), (6, b.val)] := ⟨(by decide), b.isLt, trivial⟩
  have hfs : fields [13, 6] (packBits [(13, 0), (6, b.val)]) = [0, b.val] := fields_packBits _ hf
  refine (classX_word (t := .ok (.brx h b)) (by decide) (packBits_lt _ hf) (fun wd hg => ?_))
  rw [decodeX, hg]
  simp [hfs]

theorem ReadsBack.call (h : Hdr) (o : Fin 524288) : ReadsBack.Statement (.call h o) := by
  intro _ _ lw
  have hf : Fits [(19, o.val)] := ⟨o.isLt, trivial⟩
  have hfs : fields [19] (packBits [(19, o.val)]) = [o.val] := fields_packBits _ hf
  refine (classX_word (t := .ok (.call h o)) (by decide) (packBits_lt _ hf) (fun wd hg => ?_))
  rw [decodeX, hg]
  simp [hfs]

theorem ReadsBack.callx (h : Hdr) (b : Fin 64) : ReadsBack.Statement (.callx h b) := by
  intro _ _ lw
  have hf : Fits [(13, 0), (6, b.val)] := ⟨(by decide), b.isLt, trivial⟩
  have hfs : fields [13, 6] (packBits [(13, 0), (6, b.val)]) = [0, b.val] := fields_packBits _ hf
  refine (classX_word (t := .ok (.callx h b)) (by decide) (packBits_lt _ hf) (fun wd hg => ?_))
  rw [decodeX, hg]
  simp [hfs]

theorem ReadsBack.ret (h : Hdr) : ReadsBack.Statement (.ret h) := by
  intro _ _ lw
  have hf : Fits [(19, 0)] := ⟨(by decide), trivial⟩
  have hfs : fields [19] (packBits [(19, 0)]) = [0] := fields_packBits _ hf
  refine (classX_word (t := .ok (.ret h)) (by decide) (packBits_lt _ hf) (fun wd hg => ?_))
  rw [decodeX, hg]
  simp [hfs]

theorem ReadsBack.exit (h : Hdr) : ReadsBack.Statement (.exit h) := by
  intro _ _ lw
  have hf : Fits [(19, 0)] := ⟨(by decide), trivial⟩
  have hfs : fields [19] (packBits [(19, 0)]) = [0] := fields_packBits _ hf
  refine (classX_word (t := .ok (.exit h)) (by decide) (packBits_lt _ hf) (fun wd hg => ?_))
  rw [decodeX, hg]
  simp [hfs]

theorem ReadsBack.loop (h : Hdr) (l : Fin 3) (n : Fin 256) (b : Fin 64) : ReadsBack.Statement (.loop h l n b) := by
  intro _ _ lw
  have hf : Fits [(2, l.val), (8, n.val), (3, 0), (6, b.val)] := ⟨(Nat.lt_of_lt_of_le l.isLt (show 3 ≤ 2 ^ 2 by decide)), n.isLt, (by decide), b.isLt, trivial⟩
  have hfs : fields [2, 8, 3, 6] (packBits [(2, l.val), (8, n.val), (3, 0), (6, b.val)]) = [l.val, n.val, 0, b.val] := fields_packBits _ hf
  refine (classX_word (t := .ok (.loop h l n b)) (by decide) (packBits_lt _ hf) (fun wd hg => ?_))
  rw [decodeX, hg]
  simp [hfs]

theorem ReadsBack.loopi (h : Hdr) (l : Fin 3) (n : Fin 256) (c : Fin 512) : ReadsBack.Statement (.loopi h l n c) := by
  intro _ _ lw
  have hf : Fits [(2, l.val), (8, n.val), (9, c.val)] := ⟨(Nat.lt_of_lt_of_le l.isLt (show 3 ≤ 2 ^ 2 by decide)), n.isLt, c.isLt, trivial⟩
  have hfs : fields [2, 8, 9] (packBits [(2, l.val), (8, n.val), (9, c.val)]) = [l.val, n.val, c.val] := fields_packBits _ hf
  refine (classX_word (t := .ok (.loopi h l n c)) (by decide) (packBits_lt _ hf) (fun wd hg => ?_))
  rw [decodeX, hg]
  simp [hfs]

theorem ReadsBack.lbrk (h : Hdr) : ReadsBack.Statement (.lbrk h) := by
  intro _ _ lw
  have hf : Fits [(19, 0)] := ⟨(by decide), trivial⟩
  have hfs : fields [19] (packBits [(19, 0)]) = [0] := fields_packBits _ hf
  refine (classX_word (t := .ok (.lbrk h)) (by decide) (packBits_lt _ hf) (fun wd hg => ?_))
  rw [decodeX, hg]
  simp [hfs]

theorem ReadsBack.spawn (h : Hdr) (e : Fin 64) (a : Fin 64) : ReadsBack.Statement (.spawn h e a) := by
  intro _ _ lw
  have hf : Fits [(6, e.val), (6, a.val), (7, 0)] := ⟨e.isLt, a.isLt, (by decide), trivial⟩
  have hfs : fields [6, 6, 7] (packBits [(6, e.val), (6, a.val), (7, 0)]) = [e.val, a.val, 0] := fields_packBits _ hf
  refine (classX_word (t := .ok (.spawn h e a)) (by decide) (packBits_lt _ hf) (fun wd hg => ?_))
  rw [decodeX, hg]
  simp [hfs]

theorem ReadsBack.spawng (h : Hdr) (a : Fin 64) (d : Fin 64) (n : Fin 64) : ReadsBack.Statement (.spawng h a d n) := by
  intro _ _ lw
  have hf : Fits [(6, a.val), (6, d.val), (6, n.val), (1, 0)] := ⟨a.isLt, d.isLt, n.isLt, (by decide), trivial⟩
  have hfs : fields [6, 6, 6, 1] (packBits [(6, a.val), (6, d.val), (6, n.val), (1, 0)]) = [a.val, d.val, n.val, 0] := fields_packBits _ hf
  refine (classX_word (t := .ok (.spawng h a d n)) (by decide) (packBits_lt _ hf) (fun wd hg => ?_))
  rw [decodeX, hg]
  simp [hfs]

theorem ReadsBack.yield (h : Hdr) : ReadsBack.Statement (.yield h) := by
  intro _ _ lw
  have hf : Fits [(19, 0)] := ⟨(by decide), trivial⟩
  have hfs : fields [19] (packBits [(19, 0)]) = [0] := fields_packBits _ hf
  refine (classX_word (t := .ok (.yield h)) (by decide) (packBits_lt _ hf) (fun wd hg => ?_))
  rw [decodeX, hg]
  simp [hfs]

theorem ReadsBack.trace (h : Hdr) (r : Fin 64) (c : Fin 64) (p : Fin 64) (y : Bool) : ReadsBack.Statement (.trace h r c p y) := by
  intro _ _ lw
  have hf : Fits [(6, r.val), (6, c.val), (6, p.val), (1, b2n y)] := ⟨r.isLt, c.isLt, p.isLt, (b2n_lt _), trivial⟩
  have hfs : fields [6, 6, 6, 1] (packBits [(6, r.val), (6, c.val), (6, p.val), (1, b2n y)]) = [r.val, c.val, p.val, b2n y] := fields_packBits _ hf
  refine (classX_word (t := .ok (.trace h r c p y)) (by decide) (packBits_lt _ hf) (fun wd hg => ?_))
  rw [decodeX, hg]
  simp [hfs]

theorem ReadsBack.dqpop (h : Hdr) (d : Fin 64) : ReadsBack.Statement (.dqpop h d) := by
  intro _ _ lw
  have hf : Fits [(6, d.val), (13, 0)] := ⟨d.isLt, (by decide), trivial⟩
  have hfs : fields [6, 13] (packBits [(6, d.val), (13, 0)]) = [d.val, 0] := fields_packBits _ hf
  refine (classX_word (t := .ok (.dqpop h d)) (by decide) (packBits_lt _ hf) (fun wd hg => ?_))
  rw [decodeX, hg]
  simp [hfs]

theorem ReadsBack.getsr (h : Hdr) (d : Fin 64) (r : Fin 23) (w : Option (Fin 64)) : ReadsBack.Statement (.getsr h d r w) := by
  intro _ _ lw
  have hf : Fits [(6, d.val), (6, r.val), (7, encSrc6 w)] := ⟨d.isLt, (Nat.lt_of_lt_of_le r.isLt (show 23 ≤ 2 ^ 6 by decide)), (encSrc6_lt w), trivial⟩
  have hfs : fields [6, 6, 7] (packBits [(6, d.val), (6, r.val), (7, encSrc6 w)]) = [d.val, r.val, encSrc6 w] := fields_packBits _ hf
  refine (classX_word (t := .ok (.getsr h d r w)) (by decide) (packBits_lt _ hf) (fun wd hg => ?_))
  rw [decodeX, hg]
  simp [hfs, Dec.src6_code w]

theorem ReadsBack.bar (h : Hdr) (j : Fin 64) : ReadsBack.Statement (.bar h j) := by
  intro _ _ lw
  have hf : Fits [(6, j.val), (13, 0)] := ⟨j.isLt, (by decide), trivial⟩
  have hfs : fields [6, 13] (packBits [(6, j.val), (13, 0)]) = [j.val, 0] := fields_packBits _ hf
  refine (classX_word (t := .ok (.bar h j)) (by decide) (packBits_lt _ hf) (fun wd hg => ?_))
  rw [decodeX, hg]
  simp [hfs]

theorem ReadsBack.bara (h : Hdr) (j : Fin 64) : ReadsBack.Statement (.bara h j) := by
  intro _ _ lw
  have hf : Fits [(6, j.val), (13, 0)] := ⟨j.isLt, (by decide), trivial⟩
  have hfs : fields [6, 13] (packBits [(6, j.val), (13, 0)]) = [j.val, 0] := fields_packBits _ hf
  refine (classX_word (t := .ok (.bara h j)) (by decide) (packBits_lt _ hf) (fun wd hg => ?_))
  rw [decodeX, hg]
  simp [hfs]

theorem ReadsBack.barw (h : Hdr) (j : Fin 64) (p : Fin 64) : ReadsBack.Statement (.barw h j p) := by
  intro _ _ lw
  have hf : Fits [(6, j.val), (6, p.val), (7, 0)] := ⟨j.isLt, p.isLt, (by decide), trivial⟩
  have hfs : fields [6, 6, 7] (packBits [(6, j.val), (6, p.val), (7, 0)]) = [j.val, p.val, 0] := fields_packBits _ hf
  refine (classX_word (t := .ok (.barw h j p)) (by decide) (packBits_lt _ hf) (fun wd hg => ?_))
  rw [decodeX, hg]
  simp [hfs]

theorem ReadsBack.gbar (h : Hdr) : ReadsBack.Statement (.gbar h) := by
  intro _ _ lw
  have hf : Fits [(19, 0)] := ⟨(by decide), trivial⟩
  have hfs : fields [19] (packBits [(19, 0)]) = [0] := fields_packBits _ hf
  refine (classX_word (t := .ok (.gbar h)) (by decide) (packBits_lt _ hf) (fun wd hg => ?_))
  rw [decodeX, hg]
  simp [hfs]

theorem ReadsBack.fence (h : Hdr) (p : Scope) (r : Order) : ReadsBack.Statement (.fence h p r) := by
  intro _ hw lw
  have hw : (p != .plain && r != .relaxed) = true := hw
  rw [Bool.and_eq_true] at hw
  have hf : Fits [(3, p.code), (2, r.code), (14, 0)] := ⟨p.code_lt, r.code_lt, (by decide), trivial⟩
  have hfs : fields [3, 2, 14] (packBits [(3, p.code), (2, r.code), (14, 0)]) = [p.code, r.code, 0] := fields_packBits _ hf
  refine (classX_word (t := .ok (.fence h p r)) (by decide) (packBits_lt _ hf) (fun wd hg => ?_))
  rw [decodeX, hg]
  simp [hfs, Dec.fenceScope_code p hw.1, Dec.fenceOrder_code r hw.2]

theorem ReadsBack.mset (h : Hdr) (m : MsetArg) : ReadsBack.Statement (.mset h m) := by
  intro _ _ lw
  have hf : Fits [(19, m.code)] := ⟨m.code_lt, trivial⟩
  have hfs : fields [19] (packBits [(19, m.code)]) = [m.code] := fields_packBits _ hf
  refine (classX_word (t := .ok (.mset h m)) (by decide) (packBits_lt _ hf) (fun wd hg => ?_))
  rw [decodeX, hg]
  simp [hfs, Dec.mset_code m]

theorem ReadsBack.syncm (h : Hdr) : ReadsBack.Statement (.syncm h) := by
  intro _ _ lw
  have hf : Fits [(19, 0)] := ⟨(by decide), trivial⟩
  have hfs : fields [19] (packBits [(19, 0)]) = [0] := fields_packBits _ hf
  refine (classX_word (t := .ok (.syncm h)) (by decide) (packBits_lt _ hf) (fun wd hg => ?_))
  rw [decodeX, hg]
  simp [hfs]

theorem ReadsBack.shfl (h : Hdr) (d : Fin 64) (c : ShufSrc) (b : Fin 64) : ReadsBack.Statement (.shfl h d c b) := by
  intro _ _ lw
  have hf : Fits [(6, d.val), (7, c.code), (6, b.val)] := ⟨d.isLt, c.code_lt, b.isLt, trivial⟩
  have hfs : fields [6, 7, 6] (packBits [(6, d.val), (7, c.code), (6, b.val)]) = [d.val, c.code, b.val] := fields_packBits _ hf
  refine (classX_word (t := .ok (.shfl h d c b)) (by decide) (packBits_lt _ hf) (fun wd hg => ?_))
  rw [decodeX, hg]
  simp [hfs, Dec.shuf_code c]

theorem ReadsBack.shflx (h : Hdr) (d : Fin 64) (c : ShufSrc) (b : Fin 64) : ReadsBack.Statement (.shflx h d c b) := by
  intro _ _ lw
  have hf : Fits [(6, d.val), (7, c.code), (6, b.val)] := ⟨d.isLt, c.code_lt, b.isLt, trivial⟩
  have hfs : fields [6, 7, 6] (packBits [(6, d.val), (7, c.code), (6, b.val)]) = [d.val, c.code, b.val] := fields_packBits _ hf
  refine (classX_word (t := .ok (.shflx h d c b)) (by decide) (packBits_lt _ hf) (fun wd hg => ?_))
  rw [decodeX, hg]
  simp [hfs, Dec.shuf_code c]

theorem ReadsBack.shflu (h : Hdr) (d : Fin 64) (c : ShufSrc) (b : Fin 64) : ReadsBack.Statement (.shflu h d c b) := by
  intro _ _ lw
  have hf : Fits [(6, d.val), (7, c.code), (6, b.val)] := ⟨d.isLt, c.code_lt, b.isLt, trivial⟩
  have hfs : fields [6, 7, 6] (packBits [(6, d.val), (7, c.code), (6, b.val)]) = [d.val, c.code, b.val] := fields_packBits _ hf
  refine (classX_word (t := .ok (.shflu h d c b)) (by decide) (packBits_lt _ hf) (fun wd hg => ?_))
  rw [decodeX, hg]
  simp [hfs, Dec.shuf_code c]

theorem ReadsBack.shfld (h : Hdr) (d : Fin 64) (c : ShufSrc) (b : Fin 64) : ReadsBack.Statement (.shfld h d c b) := by
  intro _ _ lw
  have hf : Fits [(6, d.val), (7, c.code), (6, b.val)] := ⟨d.isLt, c.code_lt, b.isLt, trivial⟩
  have hfs : fields [6, 7, 6] (packBits [(6, d.val), (7, c.code), (6, b.val)]) = [d.val, c.code, b.val] := fields_packBits _ hf
  refine (classX_word (t := .ok (.shfld h d c b)) (by decide) (packBits_lt _ hf) (fun wd hg => ?_))
  rw [decodeX, hg]
  simp [hfs, Dec.shuf_code c]

theorem ReadsBack.vote (h : Hdr) (k : Fin 8) (q : Fin 8) (n : Bool) (f : VoteFn) : ReadsBack.Statement (.vote h k q n f) := by
  intro _ hw lw
  have hf : Fits [(3, k.val), (3, q.val), (1, b2n n), (2, f.code), (10, 0)] := ⟨k.isLt, q.isLt, (b2n_lt _), f.code_lt, (by decide), trivial⟩
  have hfs : fields [3, 3, 1, 2, 10] (packBits [(3, k.val), (3, q.val), (1, b2n n), (2, f.code), (10, 0)]) = [k.val, q.val, b2n n, f.code, 0] := fields_packBits _ hf
  refine (classX_word (t := .ok (.vote h k q n f)) (by decide) (packBits_lt _ hf) (fun wd hg => ?_))
  rw [decodeX, hg]
  simp [hfs, Dec.prd_val k hw]

theorem ReadsBack.ballot (h : Hdr) (d : Fin 64) (q : Fin 8) (n : Bool) : ReadsBack.Statement (.ballot h d q n) := by
  intro _ _ lw
  have hf : Fits [(6, d.val), (3, q.val), (1, b2n n), (9, 0)] := ⟨d.isLt, q.isLt, (b2n_lt _), (by decide), trivial⟩
  have hfs : fields [6, 3, 1, 9] (packBits [(6, d.val), (3, q.val), (1, b2n n), (9, 0)]) = [d.val, q.val, b2n n, 0] := fields_packBits _ hf
  refine (classX_word (t := .ok (.ballot h d q n)) (by decide) (packBits_lt _ hf) (fun wd hg => ?_))
  rw [decodeX, hg]
  simp [hfs]

theorem ReadsBack.sred (h : Hdr) (d : Fin 64) (f : RedFn) (b : Fin 64) : ReadsBack.Statement (.sred h d f b) := by
  intro _ _ lw
  have hf : Fits [(6, d.val), (4, f.code), (3, 0), (6, b.val)] := ⟨d.isLt, f.code_lt, (by decide), b.isLt, trivial⟩
  have hfs : fields [6, 4, 3, 6] (packBits [(6, d.val), (4, f.code), (3, 0), (6, b.val)]) = [d.val, f.code, 0, b.val] := fields_packBits _ hf
  refine (classX_word (t := .ok (.sred h d f b)) (by decide) (packBits_lt _ hf) (fun wd hg => ?_))
  rw [decodeX, hg]
  simp [hfs]

theorem ReadsBack.sscan (h : Hdr) (d : Fin 64) (f : RedFn) (x : Bool) (b : Fin 64) : ReadsBack.Statement (.sscan h d f x b) := by
  intro _ _ lw
  have hf : Fits [(6, d.val), (4, f.code), (1, b2n x), (2, 0), (6, b.val)] := ⟨d.isLt, f.code_lt, (b2n_lt _), (by decide), b.isLt, trivial⟩
  have hfs : fields [6, 4, 1, 2, 6] (packBits [(6, d.val), (4, f.code), (1, b2n x), (2, 0), (6, b.val)]) = [d.val, f.code, b2n x, 0, b.val] := fields_packBits _ hf
  refine (classX_word (t := .ok (.sscan h d f x b)) (by decide) (packBits_lt _ hf) (fun wd hg => ?_))
  rw [decodeX, hg]
  simp [hfs]

theorem ReadsBack.cmmab (h : Hdr) (e : Fin 4) (a : Fin 16) (b : Fin 16) (t : CmmabTy) : ReadsBack.Statement (.cmmab h e a b t) := by
  intro _ _ lw
  have hf : Fits [(2, e.val), (4, a.val), (4, b.val), (2, t.code), (7, 0)] := ⟨e.isLt, a.isLt, b.isLt, t.code_lt, (by decide), trivial⟩
  have hfs : fields [2, 4, 4, 2, 7] (packBits [(2, e.val), (4, a.val), (4, b.val), (2, t.code), (7, 0)]) = [e.val, a.val, b.val, t.code, 0] := fields_packBits _ hf
  refine (classX_word (t := .ok (.cmmab h e a b t)) (by decide) (packBits_lt _ hf) (fun wd hg => ?_))
  rw [decodeX, hg]
  simp [hfs]

theorem ReadsBack.cmmaq (h : Hdr) (e : Fin 4) (a : Fin 16) (b : Fin 16) (t : CmmaqTy) : ReadsBack.Statement (.cmmaq h e a b t) := by
  intro _ _ lw
  have hf : Fits [(2, e.val), (4, a.val), (4, b.val), (2, t.code), (7, 0)] := ⟨e.isLt, a.isLt, b.isLt, t.code_lt, (by decide), trivial⟩
  have hfs : fields [2, 4, 4, 2, 7] (packBits [(2, e.val), (4, a.val), (4, b.val), (2, t.code), (7, 0)]) = [e.val, a.val, b.val, t.code, 0] := fields_packBits _ hf
  refine (classX_word (t := .ok (.cmmaq h e a b t)) (by decide) (packBits_lt _ hf) (fun wd hg => ?_))
  rw [decodeX, hg]
  simp [hfs]

theorem ReadsBack.tstore (h : Hdr) (b : Fin 64) (t : Fin 16) (c : Fin 8) (n : Fin 4) : ReadsBack.Statement (.tstore h b t c n) := by
  intro _ _ lw
  have hf : Fits [(6, b.val), (4, t.val), (3, c.val), (2, n.val), (4, 0)] := ⟨b.isLt, t.isLt, c.isLt, n.isLt, (by decide), trivial⟩
  have hfs : fields [6, 4, 3, 2, 4] (packBits [(6, b.val), (4, t.val), (3, c.val), (2, n.val), (4, 0)]) = [b.val, t.val, c.val, n.val, 0] := fields_packBits _ hf
  refine (classX_word (t := .ok (.tstore h b t c n)) (by decide) (packBits_lt _ hf) (fun wd hg => ?_))
  rw [decodeX, hg]
  simp [hfs]

theorem ReadsBack.tdrain (h : Hdr) (d : Fin 64) (c : Fin 16) (sel : TdrainSel) : ReadsBack.Statement (.tdrain h d c sel) := by
  intro _ hw lw
  have hf : Fits [(6, d.val), (4, c.val), (9, sel.code)] := ⟨d.isLt, c.isLt, sel.code_lt, trivial⟩
  have hfs : fields [6, 4, 9] (packBits [(6, d.val), (4, c.val), (9, sel.code)]) = [d.val, c.val, sel.code] := fields_packBits _ hf
  refine (classX_word (t := .ok (.tdrain h d c sel)) (by decide) (packBits_lt _ hf) (fun wd hg => ?_))
  rw [decodeX, hg]
  simp [hfs, Dec.tdrain_code sel hw]

theorem ReadsBack.pset (h : Hdr) (k : Fin 8) (a : Fin 8) (b : Fin 8) (o : LogicOp) (m : Bool) (n : Bool) : ReadsBack.Statement (.pset h k a b o m n) := by
  intro _ hw lw
  have hf : Fits [(3, k.val), (3, a.val), (3, b.val), (2, o.code), (1, b2n m), (1, b2n n), (6, 0)] := ⟨k.isLt, a.isLt, b.isLt, o.code_lt, (b2n_lt _), (b2n_lt _), (by decide), trivial⟩
  have hfs : fields [3, 3, 3, 2, 1, 1, 6] (packBits [(3, k.val), (3, a.val), (3, b.val), (2, o.code), (1, b2n m), (1, b2n n), (6, 0)]) = [k.val, a.val, b.val, o.code, b2n m, b2n n, 0] := fields_packBits _ hf
  refine (classX_word (t := .ok (.pset h k a b o m n)) (by decide) (packBits_lt _ hf) (fun wd hg => ?_))
  rw [decodeX, hg]
  simp [hfs, Dec.prd_val k hw]

theorem ReadsBack.pmov (h : Hdr) (mv : PmovArg) : ReadsBack.Statement (.pmov h mv) := by
  intro _ _ lw
  have hf : Fits [(19, mv.code)] := ⟨mv.code_lt, trivial⟩
  have hfs : fields [19] (packBits [(19, mv.code)]) = [mv.code] := fields_packBits _ hf
  refine (classX_word (t := .ok (.pmov h mv)) (by decide) (packBits_lt _ hf) (fun wd hg => ?_))
  rw [decodeX, hg]
  simp [hfs, Dec.pmov_code mv]

theorem ReadsBack.tbegin (h : Hdr) (o : Fin 524288) : ReadsBack.Statement (.tbegin h o) := by
  intro _ _ lw
  have hf : Fits [(19, o.val)] := ⟨o.isLt, trivial⟩
  have hfs : fields [19] (packBits [(19, o.val)]) = [o.val] := fields_packBits _ hf
  refine (classX_word (t := .ok (.tbegin h o)) (by decide) (packBits_lt _ hf) (fun wd hg => ?_))
  rw [decodeX, hg]
  simp [hfs]

theorem ReadsBack.tend (h : Hdr) : ReadsBack.Statement (.tend h) := by
  intro _ _ lw
  have hf : Fits [(19, 0)] := ⟨(by decide), trivial⟩
  have hfs : fields [19] (packBits [(19, 0)]) = [0] := fields_packBits _ hf
  refine (classX_word (t := .ok (.tend h)) (by decide) (packBits_lt _ hf) (fun wd hg => ?_))
  rw [decodeX, hg]
  simp [hfs]

theorem ReadsBack.tabort (h : Hdr) (c : Fin 256) : ReadsBack.Statement (.tabort h c) := by
  intro _ _ lw
  have hf : Fits [(11, 0), (8, c.val)] := ⟨(by decide), c.isLt, trivial⟩
  have hfs : fields [11, 8] (packBits [(11, 0), (8, c.val)]) = [0, c.val] := fields_packBits _ hf
  refine (classX_word (t := .ok (.tabort h c)) (by decide) (packBits_lt _ hf) (fun wd hg => ?_))
  rw [decodeX, hg]
  simp [hfs]

theorem ReadsBack.trap (h : Hdr) (c : Fin 65536) : ReadsBack.Statement (.trap h c) := by
  intro _ _ lw
  have hf : Fits [(1, 0), (2, 0), (16, c.val)] := ⟨by decide, by decide, c.isLt, trivial⟩
  have e0 : packBits [(1, 0), (2, 0), (16, c.val)] = c.val := by simp [packBits]
  have hfs : fields [1, 2, 16] (c.val) = [0, 0, c.val] := by
    have := fields_packBits _ hf
    rw [e0] at this
    exact this
  refine (classX_word (t := .ok (.trap h c)) (by decide) (e0 ▸ packBits_lt _ hf) (fun wd hg => ?_))
  rw [decodeX, hg]
  simp [Dec.trap, hfs]

theorem ReadsBack.eretLane (h : Hdr) : ReadsBack.Statement (.eretLane h) := by
  intro _ _ lw
  have hf : Fits [(1, 1), (2, 0), (16, 0)] := ⟨by decide, by decide, by decide, trivial⟩
  have e0 : packBits [(1, 1), (2, 0), (16, 0)] = 262144 := by simp [packBits]
  have hfs : fields [1, 2, 16] (262144) = [1, 0, 0] := by
    have := fields_packBits _ hf
    rw [e0] at this
    exact this
  refine (classX_word (t := .ok (.eretLane h)) (by decide) (e0 ▸ packBits_lt _ hf) (fun wd hg => ?_))
  rw [decodeX, hg]
  simp [Dec.trap, hfs]

theorem ReadsBack.bpt (h : Hdr) (c : Fin 65536) : ReadsBack.Statement (.bpt h c) := by
  intro _ _ lw
  have hf : Fits [(1, 0), (2, 0), (16, c.val)] := ⟨by decide, by decide, c.isLt, trivial⟩
  have e0 : packBits [(1, 0), (2, 0), (16, c.val)] = c.val := by simp [packBits]
  have hfs : fields [1, 2, 16] (c.val) = [0, 0, c.val] := by
    have := fields_packBits _ hf
    rw [e0] at this
    exact this
  refine (classX_word (t := .ok (.bpt h c)) (by decide) (e0 ▸ packBits_lt _ hf) (fun wd hg => ?_))
  rw [decodeX, hg]
  simp [Dec.bpt, hfs]

theorem ReadsBack.qhop (h : Hdr) (d : Fin 64) (a : LaneA) (b : Fin 64) : ReadsBack.Statement (.qhop h d a b) := by
  intro _ hw lw
  have hf : Fits [(6, d.val), (7, a.code), (6, b.val)] := ⟨d.isLt, a.code_lt, b.isLt, trivial⟩
  have hfs : fields [6, 7, 6] (packBits [(6, d.val), (7, a.code), (6, b.val)]) = [d.val, a.code, b.val] := fields_packBits _ hf
  refine (classX_word (t := .ok (.qhop h d a b)) (by decide) (packBits_lt _ hf) (fun wd hg => ?_))
  rw [decodeX, hg]
  simp [hfs, Dec.laneAq_code a hw]

theorem ReadsBack.sadd (h : Hdr) (d : Fin 32) (a : UniA) (b : UniB) : ReadsBack.Statement (.sadd h d a b) := fun _ hw lw => 
  (classUA_word (by decide) d.isLt a.code_lt b.code_lt (fun wd hg => by rw [decodeUA, hg]; rfl)).trans
    (Dec.ubin_code _ d a b lw hw)

theorem ReadsBack.ssub (h : Hdr) (d : Fin 32) (a : UniA) (b : UniB) : ReadsBack.Statement (.ssub h d a b) := fun _ hw lw => 
  (classUA_word (by decide) d.isLt a.code_lt b.code_lt (fun wd hg => by rw [decodeUA, hg]; rfl)).trans
    (Dec.ubin_code _ d a b lw hw)

theorem ReadsBack.ssubr (h : Hdr) (d : Fin 32) (a : UniA) (b : UniB) : ReadsBack.Statement (.ssubr h d a b) := fun _ hw lw => 
  (classUA_word (by decide) d.isLt a.code_lt b.code_lt (fun wd hg => by rw [decodeUA, hg]; rfl)).trans
    (Dec.ubin_code _ d a b lw hw)

theorem ReadsBack.smul (h : Hdr) (d : Fin 32) (a : UniA) (b : UniB) : ReadsBack.Statement (.smul h d a b) := fun _ hw lw => 
  (classUA_word (by decide) d.isLt a.code_lt b.code_lt (fun wd hg => by rw [decodeUA, hg]; rfl)).trans
    (Dec.ubin_code _ d a b lw hw)

theorem ReadsBack.smulhi (h : Hdr) (d : Fin 32) (a : UniA) (b : UniB) : ReadsBack.Statement (.smulhi h d a b) := fun _ hw lw => 
  (classUA_word (by decide) d.isLt a.code_lt b.code_lt (fun wd hg => by rw [decodeUA, hg]; rfl)).trans
    (Dec.ubin_code _ d a b lw hw)

theorem ReadsBack.snmulhi (h : Hdr) (d : Fin 32) (a : UniA) (b : UniB) : ReadsBack.Statement (.snmulhi h d a b) := fun _ hw lw => 
  (classUA_word (by decide) d.isLt a.code_lt b.code_lt (fun wd hg => by rw [decodeUA, hg]; rfl)).trans
    (Dec.ubin_code _ d a b lw hw)

theorem ReadsBack.smad (h : Hdr) (d : Fin 32) (a : UniA) (b : UniB) : ReadsBack.Statement (.smad h d a b) := fun _ hw lw => 
  (classUA_word (by decide) d.isLt a.code_lt b.code_lt (fun wd hg => by rw [decodeUA, hg]; rfl)).trans
    (Dec.ubin_code _ d a b lw hw)

theorem ReadsBack.smin (h : Hdr) (d : Fin 32) (a : UniA) (b : UniB) : ReadsBack.Statement (.smin h d a b) := fun _ hw lw => 
  (classUA_word (by decide) d.isLt a.code_lt b.code_lt (fun wd hg => by rw [decodeUA, hg]; rfl)).trans
    (Dec.ubin_code _ d a b lw hw)

theorem ReadsBack.smax (h : Hdr) (d : Fin 32) (a : UniA) (b : UniB) : ReadsBack.Statement (.smax h d a b) := fun _ hw lw => 
  (classUA_word (by decide) d.isLt a.code_lt b.code_lt (fun wd hg => by rw [decodeUA, hg]; rfl)).trans
    (Dec.ubin_code _ d a b lw hw)

theorem ReadsBack.snmin (h : Hdr) (d : Fin 32) (a : UniA) (b : UniB) : ReadsBack.Statement (.snmin h d a b) := fun _ hw lw => 
  (classUA_word (by decide) d.isLt a.code_lt b.code_lt (fun wd hg => by rw [decodeUA, hg]; rfl)).trans
    (Dec.ubin_code _ d a b lw hw)

theorem ReadsBack.snmax (h : Hdr) (d : Fin 32) (a : UniA) (b : UniB) : ReadsBack.Statement (.snmax h d a b) := fun _ hw lw => 
  (classUA_word (by decide) d.isLt a.code_lt b.code_lt (fun wd hg => by rw [decodeUA, hg]; rfl)).trans
    (Dec.ubin_code _ d a b lw hw)

theorem ReadsBack.sand (h : Hdr) (d : Fin 32) (a : UniA) (b : UniB) : ReadsBack.Statement (.sand h d a b) := fun _ hw lw => 
  (classUA_word (by decide) d.isLt a.code_lt b.code_lt (fun wd hg => by rw [decodeUA, hg]; rfl)).trans
    (Dec.ubin_code _ d a b lw hw)

theorem ReadsBack.sor (h : Hdr) (d : Fin 32) (a : UniA) (b : UniB) : ReadsBack.Statement (.sor h d a b) := fun _ hw lw => 
  (classUA_word (by decide) d.isLt a.code_lt b.code_lt (fun wd hg => by rw [decodeUA, hg]; rfl)).trans
    (Dec.ubin_code _ d a b lw hw)

theorem ReadsBack.sxor (h : Hdr) (d : Fin 32) (a : UniA) (b : UniB) : ReadsBack.Statement (.sxor h d a b) := fun _ hw lw => 
  (classUA_word (by decide) d.isLt a.code_lt b.code_lt (fun wd hg => by rw [decodeUA, hg]; rfl)).trans
    (Dec.ubin_code _ d a b lw hw)

theorem ReadsBack.sandn (h : Hdr) (d : Fin 32) (a : UniA) (b : UniB) : ReadsBack.Statement (.sandn h d a b) := fun _ hw lw => 
  (classUA_word (by decide) d.isLt a.code_lt b.code_lt (fun wd hg => by rw [decodeUA, hg]; rfl)).trans
    (Dec.ubin_code _ d a b lw hw)

theorem ReadsBack.sshl (h : Hdr) (d : Fin 32) (a : UniA) (b : UniB) : ReadsBack.Statement (.sshl h d a b) := fun _ hw lw => 
  (classUA_word (by decide) d.isLt a.code_lt b.code_lt (fun wd hg => by rw [decodeUA, hg]; rfl)).trans
    (Dec.ubin_code _ d a b lw hw)

theorem ReadsBack.sshr (h : Hdr) (d : Fin 32) (a : UniA) (b : UniB) : ReadsBack.Statement (.sshr h d a b) := fun _ hw lw => 
  (classUA_word (by decide) d.isLt a.code_lt b.code_lt (fun wd hg => by rw [decodeUA, hg]; rfl)).trans
    (Dec.ubin_code _ d a b lw hw)

theorem ReadsBack.ssar (h : Hdr) (d : Fin 32) (a : UniA) (b : UniB) : ReadsBack.Statement (.ssar h d a b) := fun _ hw lw => 
  (classUA_word (by decide) d.isLt a.code_lt b.code_lt (fun wd hg => by rw [decodeUA, hg]; rfl)).trans
    (Dec.ubin_code _ d a b lw hw)

theorem ReadsBack.sbfx (h : Hdr) (d : Fin 32) (a : UniA) (b : UniB) : ReadsBack.Statement (.sbfx h d a b) := fun _ hw lw => 
  (classUA_word (by decide) d.isLt a.code_lt b.code_lt (fun wd hg => by rw [decodeUA, hg]; rfl)).trans
    (Dec.ubin_code _ d a b lw hw)

theorem ReadsBack.sbfi (h : Hdr) (d : Fin 32) (a : UniA) (b : UniB) : ReadsBack.Statement (.sbfi h d a b) := fun _ hw lw => 
  (classUA_word (by decide) d.isLt a.code_lt b.code_lt (fun wd hg => by rw [decodeUA, hg]; rfl)).trans
    (Dec.ubin_code _ d a b lw hw)

theorem ReadsBack.spopc (h : Hdr) (d : Fin 32) (b : UniB) : ReadsBack.Statement (.spopc h d b) := fun _ hw lw => 
  (classUA_word (by decide) d.isLt (by decide) b.code_lt (fun wd hg => by rw [decodeUA, hg]; rfl)).trans
    (Dec.uun_code _ d b lw)

theorem ReadsBack.sclz (h : Hdr) (d : Fin 32) (b : UniB) : ReadsBack.Statement (.sclz h d b) := fun _ hw lw => 
  (classUA_word (by decide) d.isLt (by decide) b.code_lt (fun wd hg => by rw [decodeUA, hg]; rfl)).trans
    (Dec.uun_code _ d b lw)

theorem ReadsBack.smov (h : Hdr) (d : Fin 32) (b : UniB) : ReadsBack.Statement (.smov h d b) := fun _ hw lw => 
  (classUA_word (by decide) d.isLt (by decide) b.code_lt (fun wd hg => by rw [decodeUA, hg]; rfl)).trans
    (Dec.uun_code _ d b lw)

theorem ReadsBack.sadd64 (h : Hdr) (d : Fin 32) (a : UniA) (b : UniB) : ReadsBack.Statement (.sadd64 h d a b) := fun _ hw lw => 
  (classUA_word (by decide) d.isLt a.code_lt b.code_lt (fun wd hg => by rw [decodeUA, hg]; rfl)).trans
    (Dec.ubin64_code _ d a b lw hw)

theorem ReadsBack.ssub64 (h : Hdr) (d : Fin 32) (a : UniA) (b : UniB) : ReadsBack.Statement (.ssub64 h d a b) := fun _ hw lw => 
  (classUA_word (by decide) d.isLt a.code_lt b.code_lt (fun wd hg => by rw [decodeUA, hg]; rfl)).trans
    (Dec.ubin64_code _ d a b lw hw)

theorem ReadsBack.scmp (h : Hdr) (k : Fin 8) (c : UCond) (a : UniA) (b : UniB) : ReadsBack.Statement (.scmp h k c a b) := fun _ hw lw => 
  (classUA_word (by decide) (pair32_lt k c) a.code_lt b.code_lt (fun wd hg => by rw [decodeUA, hg]; rfl)).trans
    (Dec.upred_code _ k c a b lw hw)

theorem ReadsBack.sncmp (h : Hdr) (k : Fin 8) (c : UCond) (a : UniA) (b : UniB) : ReadsBack.Statement (.sncmp h k c a b) := fun _ hw lw => 
  (classUA_word (by decide) (pair32_lt k c) a.code_lt b.code_lt (fun wd hg => by rw [decodeUA, hg]; rfl)).trans
    (Dec.upred_code _ k c a b lw hw)

theorem ReadsBack.sfadd (h : Hdr) (d : Fin 32) (a : UniA) (b : UniB) : ReadsBack.Statement (.sfadd h d a b) := fun _ hw lw => 
  (classUA_word (by decide) d.isLt a.code_lt b.code_lt (fun wd hg => by rw [decodeUA, hg]; rfl)).trans
    (Dec.ubin_code _ d a b lw hw)

theorem ReadsBack.sfmul (h : Hdr) (d : Fin 32) (a : UniA) (b : UniB) : ReadsBack.Statement (.sfmul h d a b) := fun _ hw lw => 
  (classUA_word (by decide) d.isLt a.code_lt b.code_lt (fun wd hg => by rw [decodeUA, hg]; rfl)).trans
    (Dec.ubin_code _ d a b lw hw)

theorem ReadsBack.sffma (h : Hdr) (d : Fin 32) (a : UniA) (b : UniB) : ReadsBack.Statement (.sffma h d a b) := fun _ hw lw => 
  (classUA_word (by decide) d.isLt a.code_lt b.code_lt (fun wd hg => by rw [decodeUA, hg]; rfl)).trans
    (Dec.ubin_code _ d a b lw hw)

theorem ReadsBack.sfcmp (h : Hdr) (k : Fin 8) (c : UCond) (a : UniA) (b : UniB) : ReadsBack.Statement (.sfcmp h k c a b) := fun _ hw lw => 
  (classUA_word (by decide) (pair32_lt k c) a.code_lt b.code_lt (fun wd hg => by rw [decodeUA, hg]; rfl)).trans
    (Dec.upred_code _ k c a b lw hw)

theorem ReadsBack.scvt (h : Hdr) (d : Fin 32) (e : Fin 64) (b : UniB) : ReadsBack.Statement (.scvt h d e b) := fun _ hw lw => 
  (classUA_word (by decide) d.isLt e.isLt b.code_lt (fun wd hg => by rw [decodeUA, hg]; rfl)).trans
    (Dec.usel_code _ d e b lw hw)

theorem ReadsBack.ssel (h : Hdr) (d : Fin 32) (a : UniA) (b : UniB) : ReadsBack.Statement (.ssel h d a b) := fun _ hw lw => 
  (classUA_word (by decide) d.isLt a.code_lt b.code_lt (fun wd hg => by rw [decodeUA, hg]; rfl)).trans
    (Dec.ubin_code _ d a b lw hw)

theorem ReadsBack.sldg (h : Hdr) (d : Fin 32) (a : UniA) (p : Scope) (r : Order) (f : Fin 32) : ReadsBack.Statement (.sldg h d a p r f) := fun _ hw lw => 
  (classUM_word (by decide) d.isLt a.code_lt (trip325_lt p r _ f.isLt) (fun wd hg => by rw [decodeUM, hg]; rfl)).trans
    (Dec.ugl_code _ _ d a p r f lw hw)

theorem ReadsBack.sldg2 (h : Hdr) (d : Fin 32) (a : UniA) (p : Scope) (r : Order) (f : Fin 32) : ReadsBack.Statement (.sldg2 h d a p r f) := fun _ hw lw => 
  (classUM_word (by decide) d.isLt a.code_lt (trip325_lt p r _ f.isLt) (fun wd hg => by rw [decodeUM, hg]; rfl)).trans
    (Dec.ugl_code _ _ d a p r f lw hw)

theorem ReadsBack.sldg4 (h : Hdr) (d : Fin 32) (a : UniA) (p : Scope) (r : Order) (f : Fin 32) : ReadsBack.Statement (.sldg4 h d a p r f) := fun _ hw lw => 
  (classUM_word (by decide) d.isLt a.code_lt (trip325_lt p r _ f.isLt) (fun wd hg => by rw [decodeUM, hg]; rfl)).trans
    (Dec.ugl_code _ _ d a p r f lw hw)

theorem ReadsBack.sstg (h : Hdr) (d : Fin 32) (a : UniA) (p : Scope) (r : Order) (f : Fin 32) : ReadsBack.Statement (.sstg h d a p r f) := fun _ hw lw => 
  (classUM_word (by decide) d.isLt a.code_lt (trip325_lt p r _ f.isLt) (fun wd hg => by rw [decodeUM, hg]; rfl)).trans
    (Dec.ugl_code _ _ d a p r f lw hw)

theorem ReadsBack.sstg2 (h : Hdr) (d : Fin 32) (a : UniA) (p : Scope) (r : Order) (f : Fin 32) : ReadsBack.Statement (.sstg2 h d a p r f) := fun _ hw lw => 
  (classUM_word (by decide) d.isLt a.code_lt (trip325_lt p r _ f.isLt) (fun wd hg => by rw [decodeUM, hg]; rfl)).trans
    (Dec.ugl_code _ _ d a p r f lw hw)

theorem ReadsBack.slds (h : Hdr) (d : Fin 32) (a : UniA) (w : Fin 8) (f : Fin 128) : ReadsBack.Statement (.slds h d a w f) := fun _ hw lw => 
  (classUM_word (by decide) d.isLt a.code_lt (pair37_lt w f) (fun wd hg => by rw [decodeUM, hg]; rfl)).trans
    (Dec.usp_code _ d a w f lw)

theorem ReadsBack.ssts (h : Hdr) (d : Fin 32) (a : UniA) (w : Fin 8) (f : Fin 128) : ReadsBack.Statement (.ssts h d a w f) := fun _ hw lw => 
  (classUM_word (by decide) d.isLt a.code_lt (pair37_lt w f) (fun wd hg => by rw [decodeUM, hg]; rfl)).trans
    (Dec.usp_code _ d a w f lw)

theorem ReadsBack.satg (h : Hdr) (d : Fin 32) (a : UniA) (p : Scope) (r : Order) (u : AtFn) : ReadsBack.Statement (.satg h d a p r u) := fun _ hw lw => 
  (classUM_word (by decide) d.isLt a.code_lt (trip325_lt p r _ (by have := u.code_lt; omega)) (fun wd hg => by rw [decodeUM, hg]; rfl)).trans
    (Dec.usatg_code _ d a p r u lw hw)

theorem ReadsBack.sldk (h : Hdr) (d : Fin 32) (a : UniA) (f : Fin 128) : ReadsBack.Statement (.sldk h d a f) := fun _ hw lw => 
  (classUM_word (by decide) d.isLt a.code_lt (pair37_lt 0 f) (fun wd hg => by rw [decodeUM, hg]; rfl)).trans
    (Dec.usldk_code _ d a f lw)

theorem ReadsBack.sprf (h : Hdr) (a : UniA) (f : Fin 32) : ReadsBack.Statement (.sprf h a f) := fun _ hw lw => 
  (classUM_word (by decide) (by decide) a.code_lt (trip325_lt .plain .relaxed _ f.isLt) (fun wd hg => by rw [decodeUM, hg]; rfl)).trans
    (Dec.usprf_code _ a f lw hw)

theorem ReadsBack.mmaBf16 (h : Hdr) (m : MmaArgs) : ReadsBack.Statement (.mmaBf16 h m) := fun _ hw lw => 
  (classUE_word (by decide) (packBits_lt _ (fits_mma m)) (fun wd hg => by rw [decodeUE, hg]; rfl)).trans
    (Dec.mma_code _ _ m hw)

theorem ReadsBack.mmaFp16 (h : Hdr) (m : MmaArgs) : ReadsBack.Statement (.mmaFp16 h m) := fun _ hw lw => 
  (classUE_word (by decide) (packBits_lt _ (fits_mma m)) (fun wd hg => by rw [decodeUE, hg]; rfl)).trans
    (Dec.mma_code _ _ m hw)

theorem ReadsBack.mmaE4 (h : Hdr) (m : MmaArgs) : ReadsBack.Statement (.mmaE4 h m) := fun _ hw lw => 
  (classUE_word (by decide) (packBits_lt _ (fits_mma m)) (fun wd hg => by rw [decodeUE, hg]; rfl)).trans
    (Dec.mma_code _ _ m hw)

theorem ReadsBack.mmaE5 (h : Hdr) (m : MmaArgs) : ReadsBack.Statement (.mmaE5 h m) := fun _ hw lw => 
  (classUE_word (by decide) (packBits_lt _ (fits_mma m)) (fun wd hg => by rw [decodeUE, hg]; rfl)).trans
    (Dec.mma_code _ _ m hw)

theorem ReadsBack.mmaF6a (h : Hdr) (m : MmaArgs) : ReadsBack.Statement (.mmaF6a h m) := fun _ hw lw => 
  (classUE_word (by decide) (packBits_lt _ (fits_mma m)) (fun wd hg => by rw [decodeUE, hg]; rfl)).trans
    (Dec.mma_code _ _ m hw)

theorem ReadsBack.mmaF6b (h : Hdr) (m : MmaArgs) : ReadsBack.Statement (.mmaF6b h m) := fun _ hw lw => 
  (classUE_word (by decide) (packBits_lt _ (fits_mma m)) (fun wd hg => by rw [decodeUE, hg]; rfl)).trans
    (Dec.mma_code _ _ m hw)

theorem ReadsBack.mmaF4 (h : Hdr) (m : MmaArgs) : ReadsBack.Statement (.mmaF4 h m) := fun _ hw lw => 
  (classUE_word (by decide) (packBits_lt _ (fits_mma m)) (fun wd hg => by rw [decodeUE, hg]; rfl)).trans
    (Dec.mma_code _ _ m hw)

theorem ReadsBack.mmaMx4 (h : Hdr) (m : MmaArgs) (t : MmaLit) : ReadsBack.Statement (.mmaMx4 h m t) := fun _ hw lw => 
  (classUE_word (by decide) (packBits_lt _ (fits_mma m)) (fun wd hg => by rw [decodeUE, hg]; rfl)).trans
    (Dec.mmaLit_code _ _ m t lw hw)

theorem ReadsBack.mmaMx6a (h : Hdr) (m : MmaArgs) (t : MmaLit) : ReadsBack.Statement (.mmaMx6a h m t) := fun _ hw lw => 
  (classUE_word (by decide) (packBits_lt _ (fits_mma m)) (fun wd hg => by rw [decodeUE, hg]; rfl)).trans
    (Dec.mmaLit_code _ _ m t lw hw)

theorem ReadsBack.mmaMx8 (h : Hdr) (m : MmaArgs) (t : MmaLit) : ReadsBack.Statement (.mmaMx8 h m t) := fun _ hw lw => 
  (classUE_word (by decide) (packBits_lt _ (fits_mma m)) (fun wd hg => by rw [decodeUE, hg]; rfl)).trans
    (Dec.mmaLit_code _ _ m t lw hw)

theorem ReadsBack.mmaI8 (h : Hdr) (m : MmaArgs) : ReadsBack.Statement (.mmaI8 h m) := fun _ hw lw => 
  (classUE_word (by decide) (packBits_lt _ (fits_mma m)) (fun wd hg => by rw [decodeUE, hg]; rfl)).trans
    (Dec.mma_code _ _ m hw)

theorem ReadsBack.mmaI4 (h : Hdr) (m : MmaArgs) : ReadsBack.Statement (.mmaI4 h m) := fun _ hw lw => 
  (classUE_word (by decide) (packBits_lt _ (fits_mma m)) (fun wd hg => by rw [decodeUE, hg]; rfl)).trans
    (Dec.mma_code _ _ m hw)

theorem ReadsBack.mmaI8bf (h : Hdr) (m : MmaArgs) (t : MmaLit) : ReadsBack.Statement (.mmaI8bf h m t) := fun _ hw lw => 
  (classUE_word (by decide) (packBits_lt _ (fits_mma m)) (fun wd hg => by rw [decodeUE, hg]; rfl)).trans
    (Dec.mmaLit_code _ _ m t lw hw)

theorem ReadsBack.mmaI8e4 (h : Hdr) (m : MmaArgs) (t : MmaLit) : ReadsBack.Statement (.mmaI8e4 h m t) := fun _ hw lw => 
  (classUE_word (by decide) (packBits_lt _ (fits_mma m)) (fun wd hg => by rw [decodeUE, hg]; rfl)).trans
    (Dec.mmaLit_code _ _ m t lw hw)

theorem ReadsBack.mmaBfmx4 (h : Hdr) (m : MmaArgs) (t : MmaLit) : ReadsBack.Statement (.mmaBfmx4 h m t) := fun _ hw lw => 
  (classUE_word (by decide) (packBits_lt _ (fits_mma m)) (fun wd hg => by rw [decodeUE, hg]; rfl)).trans
    (Dec.mmaLit_code _ _ m t lw hw)

theorem ReadsBack.mmaE4bf (h : Hdr) (m : MmaArgs) (t : MmaLit) : ReadsBack.Statement (.mmaE4bf h m t) := fun _ hw lw => 
  (classUE_word (by decide) (packBits_lt _ (fits_mma m)) (fun wd hg => by rw [decodeUE, hg]; rfl)).trans
    (Dec.mmaLit_code _ _ m t lw hw)

theorem ReadsBack.medge (h : Hdr) (c : Fin 16) (v : Fin 16) (w : Fin 8) : ReadsBack.Statement (.medge h c v w) := by
  intro _ _ lw
  have hf : Fits [(4, c.val), (4, v.val), (3, w.val), (8, 0)] := ⟨c.isLt, v.isLt, w.isLt, (by decide), trivial⟩
  have hfs : fields [4, 4, 3, 8] (packBits [(4, c.val), (4, v.val), (3, w.val), (8, 0)]) = [c.val, v.val, w.val, 0] := fields_packBits _ hf
  refine (classUE_word (t := .ok (.medge h c v w)) (by decide) (packBits_lt _ hf) (fun wd hg => ?_))
  rw [decodeUE, hg]
  simp [hfs]

theorem ReadsBack.mfilt (h : Hdr) (c : Fin 16) (t : Fin 16) (w : Fin 8) (x : TxFmt) : ReadsBack.Statement (.mfilt h c t w x) := by
  intro _ _ lw
  have hf : Fits [(4, c.val), (4, t.val), (3, w.val), (2, x.code), (6, 0)] := ⟨c.isLt, t.isLt, w.isLt, x.code_lt, (by decide), trivial⟩
  have hfs : fields [4, 4, 3, 2, 6] (packBits [(4, c.val), (4, t.val), (3, w.val), (2, x.code), (6, 0)]) = [c.val, t.val, w.val, x.code, 0] := fields_packBits _ hf
  refine (classUE_word (t := .ok (.mfilt h c t w x)) (by decide) (packBits_lt _ hf) (fun wd hg => ?_))
  rw [decodeUE, hg]
  simp [hfs]

theorem ReadsBack.mblend (h : Hdr) (c : Fin 16) (t : Fin 16) (p : Fin 16) : ReadsBack.Statement (.mblend h c t p) := by
  intro _ _ lw
  have hf : Fits [(4, c.val), (4, t.val), (4, p.val), (7, 0)] := ⟨c.isLt, t.isLt, p.isLt, (by decide), trivial⟩
  have hfs : fields [4, 4, 4, 7] (packBits [(4, c.val), (4, t.val), (4, p.val), (7, 0)]) = [c.val, t.val, p.val, 0] := fields_packBits _ hf
  refine (classUE_word (t := .ok (.mblend h c t p)) (by decide) (packBits_lt _ hf) (fun wd hg => ?_))
  rw [decodeUE, hg]
  simp [hfs]

theorem ReadsBack.mblendb (h : Hdr) (c : Fin 16) (t : Fin 16) (p : Fin 16) (q : Fin 16) : ReadsBack.Statement (.mblendb h c t p q) := by
  intro _ _ lw
  have hf : Fits [(4, c.val), (4, t.val), (4, p.val), (4, q.val), (3, 0)] := ⟨c.isLt, t.isLt, p.isLt, q.isLt, (by decide), trivial⟩
  have hfs : fields [4, 4, 4, 4, 3] (packBits [(4, c.val), (4, t.val), (4, p.val), (4, q.val), (3, 0)]) = [c.val, t.val, p.val, q.val, 0] := fields_packBits _ hf
  refine (classUE_word (t := .ok (.mblendb h c t p q)) (by decide) (packBits_lt _ hf) (fun wd hg => ?_))
  rw [decodeUE, hg]
  simp [hfs]

theorem ReadsBack.mdrain (h : Hdr) (c : Fin 16) (n : Fin 8) (f : DrainFmt) (r : Rnd) (x : Bool) : ReadsBack.Statement (.mdrain h c n f r x) := by
  intro _ _ lw
  have hf : Fits [(4, c.val), (3, n.val), (3, f.code), (3, r.code), (1, b2n x), (5, 0)] := ⟨c.isLt, n.isLt, f.code_lt, r.code_lt, (b2n_lt _), (by decide), trivial⟩
  have hfs : fields [4, 3, 3, 3, 1, 5] (packBits [(4, c.val), (3, n.val), (3, f.code), (3, r.code), (1, b2n x), (5, 0)]) = [c.val, n.val, f.code, r.code, b2n x, 0] := fields_packBits _ hf
  refine (classUE_word (t := .ok (.mdrain h c n f r x)) (by decide) (packBits_lt _ hf) (fun wd hg => ?_))
  rw [decodeUE, hg]
  simp [hfs]

theorem ReadsBack.mspill (h : Hdr) (c : Fin 16) (n : Fin 8) : ReadsBack.Statement (.mspill h c n) := by
  intro _ _ lw
  have hf : Fits [(4, c.val), (3, n.val), (12, 0)] := ⟨c.isLt, n.isLt, (by decide), trivial⟩
  have hfs : fields [4, 3, 12] (packBits [(4, c.val), (3, n.val), (12, 0)]) = [c.val, n.val, 0] := fields_packBits _ hf
  refine (classUE_word (t := .ok (.mspill h c n)) (by decide) (packBits_lt _ hf) (fun wd hg => ?_))
  rw [decodeUE, hg]
  simp [hfs]

theorem ReadsBack.mfill (h : Hdr) (c : Fin 16) (n : Fin 8) : ReadsBack.Statement (.mfill h c n) := by
  intro _ _ lw
  have hf : Fits [(4, c.val), (3, n.val), (12, 0)] := ⟨c.isLt, n.isLt, (by decide), trivial⟩
  have hfs : fields [4, 3, 12] (packBits [(4, c.val), (3, n.val), (12, 0)]) = [c.val, n.val, 0] := fields_packBits _ hf
  refine (classUE_word (t := .ok (.mfill h c n)) (by decide) (packBits_lt _ hf) (fun wd hg => ?_))
  rw [decodeUE, hg]
  simp [hfs]

theorem ReadsBack.macc (h : Hdr) (c : Fin 16) (n : Fin 8) : ReadsBack.Statement (.macc h c n) := by
  intro _ _ lw
  have hf : Fits [(4, c.val), (3, n.val), (12, 0)] := ⟨c.isLt, n.isLt, (by decide), trivial⟩
  have hfs : fields [4, 3, 12] (packBits [(4, c.val), (3, n.val), (12, 0)]) = [c.val, n.val, 0] := fields_packBits _ hf
  refine (classUE_word (t := .ok (.macc h c n)) (by decide) (packBits_lt _ hf) (fun wd hg => ?_))
  rw [decodeUE, hg]
  simp [hfs]

theorem ReadsBack.mzero (h : Hdr) (c : Fin 16) (l : TileClass) : ReadsBack.Statement (.mzero h c l) := by
  intro _ _ lw
  have hf : Fits [(4, c.val), (2, l.code), (13, 0)] := ⟨c.isLt, l.code_lt, (by decide), trivial⟩
  have hfs : fields [4, 2, 13] (packBits [(4, c.val), (2, l.code), (13, 0)]) = [c.val, l.code, 0] := fields_packBits _ hf
  refine (classUE_word (t := .ok (.mzero h c l)) (by decide) (packBits_lt _ hf) (fun wd hg => ?_))
  rw [decodeUE, hg]
  simp [hfs]

theorem ReadsBack.mwait (h : Hdr) : ReadsBack.Statement (.mwait h) := by
  intro _ _ lw
  have hf : Fits [(19, 0)] := ⟨(by decide), trivial⟩
  have hfs : fields [19] (packBits [(19, 0)]) = [0] := fields_packBits _ hf
  refine (classUE_word (t := .ok (.mwait h)) (by decide) (packBits_lt _ hf) (fun wd hg => ?_))
  rw [decodeUE, hg]
  simp [hfs]

theorem ReadsBack.mcfg (h : Hdr) (e : McfgSel) (b : Fin 32) : ReadsBack.Statement (.mcfg h e b) := by
  intro _ _ lw
  have hf : Fits [(2, e.code), (5, b.val), (12, 0)] := ⟨e.code_lt, b.isLt, (by decide), trivial⟩
  have hfs : fields [2, 5, 12] (packBits [(2, e.code), (5, b.val), (12, 0)]) = [e.code, b.val, 0] := fields_packBits _ hf
  refine (classUE_word (t := .ok (.mcfg h e b)) (by decide) (packBits_lt _ hf) (fun wd hg => ?_))
  rw [decodeUE, hg]
  simp [hfs]

theorem ReadsBack.wload (h : Hdr) (w : Fin 8) (n : Fin 8) (k : Rank) : ReadsBack.Statement (.wload h w n k) := by
  intro _ _ lw
  have hf : Fits [(3, w.val), (3, n.val), (2, k.code), (11, 0)] := ⟨w.isLt, n.isLt, k.code_lt, (by decide), trivial⟩
  have hfs : fields [3, 3, 2, 11] (packBits [(3, w.val), (3, n.val), (2, k.code), (11, 0)]) = [w.val, n.val, k.code, 0] := fields_packBits _ hf
  refine (classUE_word (t := .ok (.wload h w n k)) (by decide) (packBits_lt _ hf) (fun wd hg => ?_))
  rw [decodeUE, hg]
  simp [hfs]

theorem ReadsBack.tload (h : Hdr) (t : Fin 16) (m : Fin 16) (n : Fin 8) : ReadsBack.Statement (.tload h t m n) := by
  intro _ _ lw
  have hf : Fits [(4, t.val), (4, m.val), (3, n.val), (8, 0)] := ⟨t.isLt, m.isLt, n.isLt, (by decide), trivial⟩
  have hfs : fields [4, 4, 3, 8] (packBits [(4, t.val), (4, m.val), (3, n.val), (8, 0)]) = [t.val, m.val, n.val, 0] := fields_packBits _ hf
  refine (classUE_word (t := .ok (.tload h t m n)) (by decide) (packBits_lt _ hf) (fun wd hg => ?_))
  rw [decodeUE, hg]
  simp [hfs]

theorem ReadsBack.tcopy (h : Hdr) (d : Fin 32) (j : Fin 32) (p : Place) : ReadsBack.Statement (.tcopy h d j p) := by
  intro _ _ lw
  have hf : Fits [(5, d.val), (5, j.val), (2, p.code), (7, 0)] := ⟨d.isLt, j.isLt, p.code_lt, (by decide), trivial⟩
  have hfs : fields [5, 5, 2, 7] (packBits [(5, d.val), (5, j.val), (2, p.code), (7, 0)]) = [d.val, j.val, p.code, 0] := fields_packBits _ hf
  refine (classUE_word (t := .ok (.tcopy h d j p)) (by decide) (packBits_lt _ hf) (fun wd hg => ?_))
  rw [decodeUE, hg]
  simp [hfs]

theorem ReadsBack.tcopym (h : Hdr) (d : Fin 32) (j : Fin 32) (p : Place) : ReadsBack.Statement (.tcopym h d j p) := by
  intro _ _ lw
  have hf : Fits [(5, d.val), (5, j.val), (2, p.code), (7, 0)] := ⟨d.isLt, j.isLt, p.code_lt, (by decide), trivial⟩
  have hfs : fields [5, 5, 2, 7] (packBits [(5, d.val), (5, j.val), (2, p.code), (7, 0)]) = [d.val, j.val, p.code, 0] := fields_packBits _ hf
  refine (classUE_word (t := .ok (.tcopym h d j p)) (by decide) (packBits_lt _ hf) (fun wd hg => ?_))
  rw [decodeUE, hg]
  simp [hfs]

theorem ReadsBack.gather (h : Hdr) (d : Fin 32) (j : Fin 32) (p : Place) : ReadsBack.Statement (.gather h d j p) := by
  intro _ _ lw
  have hf : Fits [(5, d.val), (5, j.val), (2, p.code), (7, 0)] := ⟨d.isLt, j.isLt, p.code_lt, (by decide), trivial⟩
  have hfs : fields [5, 5, 2, 7] (packBits [(5, d.val), (5, j.val), (2, p.code), (7, 0)]) = [d.val, j.val, p.code, 0] := fields_packBits _ hf
  refine (classUE_word (t := .ok (.gather h d j p)) (by decide) (packBits_lt _ hf) (fun wd hg => ?_))
  rw [decodeUE, hg]
  simp [hfs]

theorem ReadsBack.scatter (h : Hdr) (d : Fin 32) (j : Fin 32) (p : Place) : ReadsBack.Statement (.scatter h d j p) := by
  intro _ _ lw
  have hf : Fits [(5, d.val), (5, j.val), (2, p.code), (7, 0)] := ⟨d.isLt, j.isLt, p.code_lt, (by decide), trivial⟩
  have hfs : fields [5, 5, 2, 7] (packBits [(5, d.val), (5, j.val), (2, p.code), (7, 0)]) = [d.val, j.val, p.code, 0] := fields_packBits _ hf
  refine (classUE_word (t := .ok (.scatter h d j p)) (by decide) (packBits_lt _ hf) (fun wd hg => ?_))
  rw [decodeUE, hg]
  simp [hfs]

theorem ReadsBack.sortk (h : Hdr) (d : Fin 32) (j : Fin 32) (p : Place) : ReadsBack.Statement (.sortk h d j p) := by
  intro _ _ lw
  have hf : Fits [(5, d.val), (5, j.val), (2, p.code), (7, 0)] := ⟨d.isLt, j.isLt, p.code_lt, (by decide), trivial⟩
  have hfs : fields [5, 5, 2, 7] (packBits [(5, d.val), (5, j.val), (2, p.code), (7, 0)]) = [d.val, j.val, p.code, 0] := fields_packBits _ hf
  refine (classUE_word (t := .ok (.sortk h d j p)) (by decide) (packBits_lt _ hf) (fun wd hg => ?_))
  rw [decodeUE, hg]
  simp [hfs]

theorem ReadsBack.route (h : Hdr) (d : Fin 32) (j : Fin 32) (p : Place) : ReadsBack.Statement (.route h d j p) := by
  intro _ _ lw
  have hf : Fits [(5, d.val), (5, j.val), (2, p.code), (7, 0)] := ⟨d.isLt, j.isLt, p.code_lt, (by decide), trivial⟩
  have hfs : fields [5, 5, 2, 7] (packBits [(5, d.val), (5, j.val), (2, p.code), (7, 0)]) = [d.val, j.val, p.code, 0] := fields_packBits _ hf
  refine (classUE_word (t := .ok (.route h d j p)) (by decide) (packBits_lt _ hf) (fun wd hg => ?_))
  rw [decodeUE, hg]
  simp [hfs]

theorem ReadsBack.coll (h : Hdr) (d : Fin 32) (j : Fin 32) (p : Place) : ReadsBack.Statement (.coll h d j p) := by
  intro _ _ lw
  have hf : Fits [(5, d.val), (5, j.val), (2, p.code), (7, 0)] := ⟨d.isLt, j.isLt, p.code_lt, (by decide), trivial⟩
  have hfs : fields [5, 5, 2, 7] (packBits [(5, d.val), (5, j.val), (2, p.code), (7, 0)]) = [d.val, j.val, p.code, 0] := fields_packBits _ hf
  refine (classUE_word (t := .ok (.coll h d j p)) (by decide) (packBits_lt _ hf) (fun wd hg => ?_))
  rw [decodeUE, hg]
  simp [hfs]

theorem ReadsBack.cfence (h : Hdr) : ReadsBack.Statement (.cfence h) := by
  intro _ _ lw
  have hf : Fits [(19, 0)] := ⟨(by decide), trivial⟩
  have hfs : fields [19] (packBits [(19, 0)]) = [0] := fields_packBits _ hf
  refine (classUE_word (t := .ok (.cfence h)) (by decide) (packBits_lt _ hf) (fun wd hg => ?_))
  rw [decodeUE, hg]
  simp [hfs]

theorem ReadsBack.beamgo (h : Hdr) (d : Fin 32) : ReadsBack.Statement (.beamgo h d) := by
  intro _ _ lw
  have hf : Fits [(5, d.val), (1, 0), (5, 0), (8, 0)] := ⟨d.isLt, by decide, by decide, by decide, trivial⟩
  have e0 : packBits [(5, d.val), (1, 0), (5, 0), (8, 0)] = packBits [(5, d.val), (14, 0)] := by simp [packBits]
  have hfs : fields [5, 1, 5, 8] (packBits [(5, d.val), (14, 0)]) = [d.val, 0, 0, 0] := by
    rw [← e0]
    exact fields_packBits _ hf
  refine (classUE_word (t := .ok (.beamgo h d)) (by decide) (e0 ▸ packBits_lt _ hf) (fun wd hg => ?_))
  rw [decodeUE, hg]
  simp [Dec.beamgo, hfs]

theorem ReadsBack.beamgoReq (h : Hdr) (d : Fin 32) (n : Fin 32) : ReadsBack.Statement (.beamgoReq h d n) := by
  intro _ _ lw
  have hf : Fits [(5, d.val), (1, 1), (5, n.val), (8, 0)] := ⟨d.isLt, (by decide), n.isLt, (by decide), trivial⟩
  have hfs : fields [5, 1, 5, 8] (packBits [(5, d.val), (1, 1), (5, n.val), (8, 0)]) = [d.val, 1, n.val, 0] := fields_packBits _ hf
  refine (classUE_word (t := .ok (.beamgoReq h d n)) (by decide) (packBits_lt _ hf) (fun wd hg => ?_))
  rw [decodeUE, hg]
  simp [hfs, Dec.beamgo]

theorem ReadsBack.barnew (h : Hdr) (d : Fin 32) (c : Fin 32) (v : Bool) : ReadsBack.Statement (.barnew h d c v) := by
  intro _ _ lw
  have hf : Fits [(5, d.val), (5, c.val), (1, b2n v), (8, 0)] := ⟨d.isLt, c.isLt, (b2n_lt _), (by decide), trivial⟩
  have hfs : fields [5, 5, 1, 8] (packBits [(5, d.val), (5, c.val), (1, b2n v), (8, 0)]) = [d.val, c.val, b2n v, 0] := fields_packBits _ hf
  refine (classUE_word (t := .ok (.barnew h d c v)) (by decide) (packBits_lt _ hf) (fun wd hg => ?_))
  rw [decodeUE, hg]
  simp [hfs]

theorem ReadsBack.barfree (h : Hdr) (j : Fin 32) : ReadsBack.Statement (.barfree h j) := by
  intro _ _ lw
  have hf : Fits [(5, j.val), (14, 0)] := ⟨j.isLt, (by decide), trivial⟩
  have hfs : fields [5, 14] (packBits [(5, j.val), (14, 0)]) = [j.val, 0] := fields_packBits _ hf
  refine (classUE_word (t := .ok (.barfree h j)) (by decide) (packBits_lt _ hf) (fun wd hg => ?_))
  rw [decodeUE, hg]
  simp [hfs]

theorem ReadsBack.barexp (h : Hdr) (j : Fin 32) (b : Fin 32) : ReadsBack.Statement (.barexp h j b) := by
  intro _ _ lw
  have hf : Fits [(5, j.val), (5, b.val), (9, 0)] := ⟨j.isLt, b.isLt, (by decide), trivial⟩
  have hfs : fields [5, 5, 9] (packBits [(5, j.val), (5, b.val), (9, 0)]) = [j.val, b.val, 0] := fields_packBits _ hf
  refine (classUE_word (t := .ok (.barexp h j b)) (by decide) (packBits_lt _ hf) (fun wd hg => ?_))
  rw [decodeUE, hg]
  simp [hfs]

theorem ReadsBack.sbar (h : Hdr) (j : Fin 32) (w : SbarArg) : ReadsBack.Statement (.sbar h j w) := by
  intro _ _ lw
  have hf : Fits [(5, j.val), (14, w.code)] := ⟨j.isLt, w.code_lt, trivial⟩
  have hfs : fields [5, 14] (packBits [(5, j.val), (14, w.code)]) = [j.val, w.code] := fields_packBits _ hf
  refine (classUE_word (t := .ok (.sbar h j w)) (by decide) (packBits_lt _ hf) (fun wd hg => ?_))
  rw [decodeUE, hg]
  simp [hfs, Dec.sbar_code w]

theorem ReadsBack.sbara (h : Hdr) (j : Fin 32) : ReadsBack.Statement (.sbara h j) := by
  intro _ _ lw
  have hf : Fits [(5, j.val), (14, 0)] := ⟨j.isLt, (by decide), trivial⟩
  have hfs : fields [5, 14] (packBits [(5, j.val), (14, 0)]) = [j.val, 0] := fields_packBits _ hf
  refine (classUE_word (t := .ok (.sbara h j)) (by decide) (packBits_lt _ hf) (fun wd hg => ?_))
  rw [decodeUE, hg]
  simp [hfs]

theorem ReadsBack.sstep (h : Hdr) : ReadsBack.Statement (.sstep h) := by
  intro _ _ lw
  have hf : Fits [(19, 0)] := ⟨(by decide), trivial⟩
  have hfs : fields [19] (packBits [(19, 0)]) = [0] := fields_packBits _ hf
  refine (classUE_word (t := .ok (.sstep h)) (by decide) (packBits_lt _ hf) (fun wd hg => ?_))
  rw [decodeUE, hg]
  simp [hfs]

theorem ReadsBack.dqpush (h : Hdr) (a : Fin 32) : ReadsBack.Statement (.dqpush h a) := by
  intro _ _ lw
  have hf : Fits [(5, a.val), (14, 0)] := ⟨a.isLt, (by decide), trivial⟩
  have hfs : fields [5, 14] (packBits [(5, a.val), (14, 0)]) = [a.val, 0] := fields_packBits _ hf
  refine (classUE_word (t := .ok (.dqpush h a)) (by decide) (packBits_lt _ hf) (fun wd hg => ?_))
  rw [decodeUE, hg]
  simp [hfs]

theorem ReadsBack.dqclose (h : Hdr) : ReadsBack.Statement (.dqclose h) := by
  intro _ _ lw
  have hf : Fits [(19, 0)] := ⟨(by decide), trivial⟩
  have hfs : fields [19] (packBits [(19, 0)]) = [0] := fields_packBits _ hf
  refine (classUE_word (t := .ok (.dqclose h)) (by decide) (packBits_lt _ hf) (fun wd hg => ?_))
  rw [decodeUE, hg]
  simp [hfs]

theorem ReadsBack.snop (h : Hdr) : ReadsBack.Statement (.snop h) := by
  intro _ _ lw
  have hf : Fits [(19, 0)] := ⟨(by decide), trivial⟩
  have hfs : fields [19] (packBits [(19, 0)]) = [0] := fields_packBits _ hf
  refine (classUX_word (t := .ok (.snop h)) (by decide) (packBits_lt _ hf) (fun wd hg => ?_))
  rw [decodeUX, hg]
  simp [hfs]

theorem ReadsBack.sbra (h : Hdr) (o : Fin 524288) : ReadsBack.Statement (.sbra h o) := by
  intro _ _ lw
  have hf : Fits [(19, o.val)] := ⟨o.isLt, trivial⟩
  have hfs : fields [19] (packBits [(19, o.val)]) = [o.val] := fields_packBits _ hf
  refine (classUX_word (t := .ok (.sbra h o)) (by decide) (packBits_lt _ hf) (fun wd hg => ?_))
  rw [decodeUX, hg]
  simp [hfs]

theorem ReadsBack.sbrx (h : Hdr) (b : Fin 32) : ReadsBack.Statement (.sbrx h b) := by
  intro _ _ lw
  have hf : Fits [(5, b.val), (14, 0)] := ⟨b.isLt, (by decide), trivial⟩
  have hfs : fields [5, 14] (packBits [(5, b.val), (14, 0)]) = [b.val, 0] := fields_packBits _ hf
  refine (classUX_word (t := .ok (.sbrx h b)) (by decide) (packBits_lt _ hf) (fun wd hg => ?_))
  rw [decodeUX, hg]
  simp [hfs]

theorem ReadsBack.scall (h : Hdr) (o : Fin 524288) : ReadsBack.Statement (.scall h o) := by
  intro _ _ lw
  have hf : Fits [(19, o.val)] := ⟨o.isLt, trivial⟩
  have hfs : fields [19] (packBits [(19, o.val)]) = [o.val] := fields_packBits _ hf
  refine (classUX_word (t := .ok (.scall h o)) (by decide) (packBits_lt _ hf) (fun wd hg => ?_))
  rw [decodeUX, hg]
  simp [hfs]

theorem ReadsBack.sret (h : Hdr) : ReadsBack.Statement (.sret h) := by
  intro _ _ lw
  have hf : Fits [(19, 0)] := ⟨(by decide), trivial⟩
  have hfs : fields [19] (packBits [(19, 0)]) = [0] := fields_packBits _ hf
  refine (classUX_word (t := .ok (.sret h)) (by decide) (packBits_lt _ hf) (fun wd hg => ?_))
  rw [decodeUX, hg]
  simp [hfs]

theorem ReadsBack.sloop (h : Hdr) (l : Fin 3) (n : Fin 256) (b : Fin 32) : ReadsBack.Statement (.sloop h l n b) := by
  intro _ _ lw
  have hf : Fits [(2, l.val), (8, n.val), (4, 0), (5, b.val)] := ⟨(Nat.lt_of_lt_of_le l.isLt (show 3 ≤ 2 ^ 2 by decide)), n.isLt, (by decide), b.isLt, trivial⟩
  have hfs : fields [2, 8, 4, 5] (packBits [(2, l.val), (8, n.val), (4, 0), (5, b.val)]) = [l.val, n.val, 0, b.val] := fields_packBits _ hf
  refine (classUX_word (t := .ok (.sloop h l n b)) (by decide) (packBits_lt _ hf) (fun wd hg => ?_))
  rw [decodeUX, hg]
  simp [hfs]

theorem ReadsBack.sloopi (h : Hdr) (l : Fin 3) (n : Fin 256) (c : Fin 512) : ReadsBack.Statement (.sloopi h l n c) := by
  intro _ _ lw
  have hf : Fits [(2, l.val), (8, n.val), (9, c.val)] := ⟨(Nat.lt_of_lt_of_le l.isLt (show 3 ≤ 2 ^ 2 by decide)), n.isLt, c.isLt, trivial⟩
  have hfs : fields [2, 8, 9] (packBits [(2, l.val), (8, n.val), (9, c.val)]) = [l.val, n.val, c.val] := fields_packBits _ hf
  refine (classUX_word (t := .ok (.sloopi h l n c)) (by decide) (packBits_lt _ hf) (fun wd hg => ?_))
  rw [decodeUX, hg]
  simp [hfs]

theorem ReadsBack.slbrk (h : Hdr) : ReadsBack.Statement (.slbrk h) := by
  intro _ _ lw
  have hf : Fits [(19, 0)] := ⟨(by decide), trivial⟩
  have hfs : fields [19] (packBits [(19, 0)]) = [0] := fields_packBits _ hf
  refine (classUX_word (t := .ok (.slbrk h)) (by decide) (packBits_lt _ hf) (fun wd hg => ?_))
  rw [decodeUX, hg]
  simp [hfs]

theorem ReadsBack.sexit (h : Hdr) : ReadsBack.Statement (.sexit h) := by
  intro _ _ lw
  have hf : Fits [(19, 0)] := ⟨(by decide), trivial⟩
  have hfs : fields [19] (packBits [(19, 0)]) = [0] := fields_packBits _ hf
  refine (classUX_word (t := .ok (.sexit h)) (by decide) (packBits_lt _ hf) (fun wd hg => ?_))
  rw [decodeUX, hg]
  simp [hfs]

theorem ReadsBack.swaits (h : Hdr) : ReadsBack.Statement (.swaits h) := by
  intro _ _ lw
  have hf : Fits [(19, 0)] := ⟨(by decide), trivial⟩
  have hfs : fields [19] (packBits [(19, 0)]) = [0] := fields_packBits _ hf
  refine (classUX_word (t := .ok (.swaits h)) (by decide) (packBits_lt _ hf) (fun wd hg => ?_))
  rw [decodeUX, hg]
  simp [hfs]

theorem ReadsBack.sfence (h : Hdr) (p : Scope) (r : Order) : ReadsBack.Statement (.sfence h p r) := by
  intro _ hw lw
  have hw : (p != .plain && r != .relaxed) = true := hw
  rw [Bool.and_eq_true] at hw
  have hf : Fits [(3, p.code), (2, r.code), (14, 0)] := ⟨p.code_lt, r.code_lt, (by decide), trivial⟩
  have hfs : fields [3, 2, 14] (packBits [(3, p.code), (2, r.code), (14, 0)]) = [p.code, r.code, 0] := fields_packBits _ hf
  refine (classUX_word (t := .ok (.sfence h p r)) (by decide) (packBits_lt _ hf) (fun wd hg => ?_))
  rw [decodeUX, hg]
  simp [hfs, Dec.fenceScope_code p hw.1, Dec.fenceOrder_code r hw.2]

theorem ReadsBack.syield (h : Hdr) : ReadsBack.Statement (.syield h) := by
  intro _ _ lw
  have hf : Fits [(19, 0)] := ⟨(by decide), trivial⟩
  have hfs : fields [19] (packBits [(19, 0)]) = [0] := fields_packBits _ hf
  refine (classUX_word (t := .ok (.syield h)) (by decide) (packBits_lt _ hf) (fun wd hg => ?_))
  rw [decodeUX, hg]
  simp [hfs]

theorem ReadsBack.sgetsr (h : Hdr) (d : Fin 32) (r : Fin 23) (w : Option (Fin 32)) : ReadsBack.Statement (.sgetsr h d r w) := by
  intro _ _ lw
  have hf : Fits [(5, d.val), (6, r.val), (8, 4 * encSrc5 w)] := ⟨d.isLt, (Nat.lt_of_lt_of_le r.isLt (show 23 ≤ 2 ^ 6 by decide)), (encSrc5_lt w), trivial⟩
  have hfs : fields [5, 6, 8] (packBits [(5, d.val), (6, r.val), (8, 4 * encSrc5 w)]) = [d.val, r.val, 4 * encSrc5 w] := fields_packBits _ hf
  refine (classUX_word (t := .ok (.sgetsr h d r w)) (by decide) (packBits_lt _ hf) (fun wd hg => ?_))
  rw [decodeUX, hg]
  simp [hfs, Dec.src5_code w]

theorem ReadsBack.timewait (h : Hdr) (a : Fin 32) (x : Bool) : ReadsBack.Statement (.timewait h a x) := by
  intro _ _ lw
  have hf : Fits [(5, a.val), (1, b2n x), (13, 0)] := ⟨a.isLt, (b2n_lt _), (by decide), trivial⟩
  have hfs : fields [5, 1, 13] (packBits [(5, a.val), (1, b2n x), (13, 0)]) = [a.val, b2n x, 0] := fields_packBits _ hf
  refine (classUX_word (t := .ok (.timewait h a x)) (by decide) (packBits_lt _ hf) (fun wd hg => ?_))
  rw [decodeUX, hg]
  simp [hfs]

theorem ReadsBack.strap (h : Hdr) (c : Fin 65536) : ReadsBack.Statement (.strap h c) := by
  intro _ _ lw
  have hf : Fits [(3, 0), (16, c.val)] := ⟨(by decide), c.isLt, trivial⟩
  have hfs : fields [3, 16] (packBits [(3, 0), (16, c.val)]) = [0, c.val] := fields_packBits _ hf
  refine (classUX_word (t := .ok (.strap h c)) (by decide) (packBits_lt _ hf) (fun wd hg => ?_))
  rw [decodeUX, hg]
  simp [hfs]

theorem ReadsBack.sbpt (h : Hdr) (c : Fin 65536) : ReadsBack.Statement (.sbpt h c) := by
  intro _ _ lw
  have hf : Fits [(3, 0), (16, c.val)] := ⟨(by decide), c.isLt, trivial⟩
  have hfs : fields [3, 16] (packBits [(3, 0), (16, c.val)]) = [0, c.val] := fields_packBits _ hf
  refine (classUX_word (t := .ok (.sbpt h c)) (by decide) (packBits_lt _ hf) (fun wd hg => ?_))
  rw [decodeUX, hg]
  simp [hfs]

theorem ReadsBack.eret (h : Hdr) : ReadsBack.Statement (.eret h) := by
  intro _ _ lw
  have hf : Fits [(19, 0)] := ⟨(by decide), trivial⟩
  have hfs : fields [19] (packBits [(19, 0)]) = [0] := fields_packBits _ hf
  refine (classUX_word (t := .ok (.eret h)) (by decide) (packBits_lt _ hf) (fun wd hg => ?_))
  rw [decodeUX, hg]
  simp [hfs]

theorem ReadsBack.csrr (h : Hdr) (d : Fin 32) (a : Fin 32) : ReadsBack.Statement (.csrr h d a) := by
  intro _ _ lw
  have hf : Fits [(5, d.val), (5, a.val), (9, 0)] := ⟨d.isLt, a.isLt, (by decide), trivial⟩
  have hfs : fields [5, 5, 9] (packBits [(5, d.val), (5, a.val), (9, 0)]) = [d.val, a.val, 0] := fields_packBits _ hf
  refine (classUX_word (t := .ok (.csrr h d a)) (by decide) (packBits_lt _ hf) (fun wd hg => ?_))
  rw [decodeUX, hg]
  simp [hfs]

theorem ReadsBack.csrw (h : Hdr) (b : Fin 32) (a : Fin 32) : ReadsBack.Statement (.csrw h b a) := by
  intro _ _ lw
  have hf : Fits [(5, b.val), (5, a.val), (9, 0)] := ⟨b.isLt, a.isLt, (by decide), trivial⟩
  have hfs : fields [5, 5, 9] (packBits [(5, b.val), (5, a.val), (9, 0)]) = [b.val, a.val, 0] := fields_packBits _ hf
  refine (classUX_word (t := .ok (.csrw h b a)) (by decide) (packBits_lt _ hf) (fun wd hg => ?_))
  rw [decodeUX, hg]
  simp [hfs]

theorem ReadsBack.pginv (h : Hdr) (a : Fin 32) (z : PgSize) : ReadsBack.Statement (.pginv h a z) := by
  intro _ _ lw
  have hf : Fits [(5, a.val), (2, z.code), (12, 0)] := ⟨a.isLt, z.code_lt, (by decide), trivial⟩
  have hfs : fields [5, 2, 12] (packBits [(5, a.val), (2, z.code), (12, 0)]) = [a.val, z.code, 0] := fields_packBits _ hf
  refine (classUX_word (t := .ok (.pginv h a z)) (by decide) (packBits_lt _ hf) (fun wd hg => ?_))
  rw [decodeUX, hg]
  simp [hfs]

theorem ReadsBack.halt (h : Hdr) (c : Fin 32) : ReadsBack.Statement (.halt h c) := by
  intro _ _ lw
  have hf : Fits [(5, c.val), (14, 0)] := ⟨c.isLt, (by decide), trivial⟩
  have hfs : fields [5, 14] (packBits [(5, c.val), (14, 0)]) = [c.val, 0] := fields_packBits _ hf
  refine (classUX_word (t := .ok (.halt h c)) (by decide) (packBits_lt _ hf) (fun wd hg => ?_))
  rw [decodeUX, hg]
  simp [hfs]

theorem ReadsBack.snap (h : Hdr) (t : Fin 32768) : ReadsBack.Statement (.snap h t) := by
  intro _ _ lw
  have hf : Fits [(4, 0), (15, t.val)] := ⟨(by decide), t.isLt, trivial⟩
  have hfs : fields [4, 15] (packBits [(4, 0), (15, t.val)]) = [0, t.val] := fields_packBits _ hf
  refine (classUX_word (t := .ok (.snap h t)) (by decide) (packBits_lt _ hf) (fun wd hg => ?_))
  rw [decodeUX, hg]
  simp [hfs]

theorem ReadsBack.logmark (h : Hdr) (a : Fin 32) : ReadsBack.Statement (.logmark h a) := by
  intro _ _ lw
  have hf : Fits [(5, a.val), (14, 0)] := ⟨a.isLt, (by decide), trivial⟩
  have hfs : fields [5, 14] (packBits [(5, a.val), (14, 0)]) = [a.val, 0] := fields_packBits _ hf
  refine (classUX_word (t := .ok (.logmark h a)) (by decide) (packBits_lt _ hf) (fun wd hg => ?_))
  rw [decodeUX, hg]
  simp [hfs]

theorem ReadsBack.digest (h : Hdr) (a : Fin 32) : ReadsBack.Statement (.digest h a) := by
  intro _ _ lw
  have hf : Fits [(5, a.val), (14, 0)] := ⟨a.isLt, (by decide), trivial⟩
  have hfs : fields [5, 14] (packBits [(5, a.val), (14, 0)]) = [a.val, 0] := fields_packBits _ hf
  refine (classUX_word (t := .ok (.digest h a)) (by decide) (packBits_lt _ hf) (fun wd hg => ?_))
  rw [decodeUX, hg]
  simp [hfs]

theorem ReadsBack.sspawng (h : Hdr) (a : Fin 32) (d : Fin 32) (n : Fin 32) : ReadsBack.Statement (.sspawng h a d n) := by
  intro _ _ lw
  have hf : Fits [(5, a.val), (5, d.val), (5, n.val), (4, 0)] := ⟨a.isLt, d.isLt, n.isLt, (by decide), trivial⟩
  have hfs : fields [5, 5, 5, 4] (packBits [(5, a.val), (5, d.val), (5, n.val), (4, 0)]) = [a.val, d.val, n.val, 0] := fields_packBits _ hf
  refine (classUX_word (t := .ok (.sspawng h a d n)) (by decide) (packBits_lt _ hf) (fun wd hg => ?_))
  rw [decodeUX, hg]
  simp [hfs]

theorem ReadsBack.qpset (h : Hdr) (k : Fin 8) (a : Fin 8) (b : Fin 8) (o : LogicOp) (m : Bool) (n : Bool) : ReadsBack.Statement (.qpset h k a b o m n) := by
  intro _ hw lw
  have hf : Fits [(3, k.val), (3, a.val), (3, b.val), (2, o.code), (1, b2n m), (1, b2n n), (6, 0)] := ⟨k.isLt, a.isLt, b.isLt, o.code_lt, (b2n_lt _), (b2n_lt _), (by decide), trivial⟩
  have hfs : fields [3, 3, 3, 2, 1, 1, 6] (packBits [(3, k.val), (3, a.val), (3, b.val), (2, o.code), (1, b2n m), (1, b2n n), (6, 0)]) = [k.val, a.val, b.val, o.code, b2n m, b2n n, 0] := fields_packBits _ hf
  refine (classUX_word (t := .ok (.qpset h k a b o m n)) (by decide) (packBits_lt _ hf) (fun wd hg => ?_))
  rw [decodeUX, hg]
  simp [hfs, Dec.prd_val k hw]

end Sys2Proof.Laws
end

