-- ==== Sys2Proof/Laws/Turns.lean ====
section
/-! SUPPORT. The words that act on their own threads beyond registers: what a stand and a front thread leave, and the control state after transfers, loop words and plain words (15 R311-R316). -/

namespace Sys2Proof.Machine

open Sys2Proof.Safety

/-- The open segment of a thread, or the one it begins, stands where the thread issues. -/
theorem segOf_ctl (a : List (Nat × Word)) (t : Thread) : (t.segOf a).ctl = t.now := by
  unfold Thread.segOf Thread.now; cases t.seg <;> rfl

theorem begin_now (sh : Shape) (a : List (Nat × Word)) (t : Thread) :
    (t.begin sh a).now = { t.now with pc := t.now.pc + BitVec.ofNat 32 sh.len } := by
  unfold Thread.now; rw [Thread.begin_seg]; simp only [segOf_ctl]; rfl

theorem begin_wordPc (sh : Shape) (a : List (Nat × Word)) (t : Thread) : (t.begin sh a).wordPc = t.now.pc := by
  unfold Thread.wordPc; rw [Thread.begin_seg]; simp only [List.headD_cons, segOf_ctl]

@[simp] theorem begin_txn (sh : Shape) (a : List (Nat × Word)) (t : Thread) : (t.begin sh a).txn = t.txn := by
  simp only [Thread.begin, Thread.openSeg]; split <;> rfl
@[simp] theorem begin_th (sh : Shape) (a : List (Nat × Word)) (t : Thread) : (t.begin sh a).th = t.th := by
  simp only [Thread.begin, Thread.openSeg]; split <;> rfl
@[simp] theorem begin_ctl (sh : Shape) (a : List (Nat × Word)) (t : Thread) : (t.begin sh a).ctl = t.ctl := by
  simp only [Thread.begin, Thread.openSeg]; split <;> rfl
@[simp] theorem begin_seedling (sh : Shape) (a : List (Nat × Word)) (t : Thread) : (t.begin sh a).seedling = t.seedling := by
  simp only [Thread.begin, Thread.openSeg]; split <;> rfl
@[simp] theorem begin_front (sh : Shape) (a : List (Nat × Word)) (t : Thread) : (t.begin sh a).front = t.front := by
  simp only [Thread.begin, Thread.openSeg]; split <;> rfl
@[simp] theorem begin_life (sh : Shape) (a : List (Nat × Word)) (t : Thread) : (t.begin sh a).life = t.life := by
  simp only [Thread.begin, Thread.openSeg]; split <;> rfl

/-- A thread whose word has replaced the control state of its segment, past the word: the end test runs unless a transfer was taken (R314, R315). -/
theorem turn_law (sh : Shape) (a : List (Nat × Word)) (u v : Thread) (c : Ctl) (m : Bool)
    (hi : (∀ x, u.seg = some x → x.fin = .running) ∧ u.stopped = false)
    (hv : v = (u.begin sh a).modSeg fun x => { x with ctl := c, moved := m }) :
    (v.finish sh).plainEnd = true ∧ (v.finish sh).wait = .none ∧
      ended (v.finish sh) =
        { ended u with ctl := if m then c else (endTest u.now.pc sh.len false c.frames c).getD c } := by
  obtain ⟨r1, r2, r3, r4⟩ := segOf_running a u hi.1 hi.2
  have hvs : v.seg = some { u.segOf a with
      words := (u.segOf a).words + 1, pcs := u.now.pc :: (u.segOf a).pcs, moved := m, ctl := c, nvar := (u.segOf a).nvar + sh.nvar } := by
    rw [hv]; simp only [Thread.modSeg, Thread.begin_seg, Option.map_some, segOf_ctl]
  refine ⟨plainEnd_finish _ _ _ hvs r1 r2 r3 r4, by rw [Thread.finish_wait, hv]; rfl, ?_⟩
  have hvr : ended v = { ended u with ctl := (ended v).ctl } := by
    have h1 : ended v = { ended (u.begin sh a) with ctl := (ended v).ctl } := by
      rw [ended_open _ _ hvs, ended_open _ _ (Thread.begin_seg sh a u), hv]; rfl
    rw [h1, ended_begin sh a u]
  rw [ended_finish, hvr]
  simp only
  congr 1
  rw [Thread.finish, ended_open _ _ (Thread.endWord_seg _ _ _ _ hvs r1)]
  cases m
  · simp only [Bool.false_eq_true, ↓reduceIte, List.headD_cons]
    cases endTest u.now.pc sh.len false c.frames c <;> rfl
  · rfl

/-- A lane word that acts on each of its own threads, in a stand that passes decode. -/
theorem laneEach_local (s : State) (gid stand : Nat) (w l : Word) (g : Grove) (sh : Shape) (f : DWord → Env → Grove → Thread → Thread)
    (hs : StandAt s gid stand w l g) (hd : LaneDecodes sh g stand)
    (hf : ∀ t, (f (wordTval w l sh.len) (s.env g) g t).tid = t.tid ∧ (f (wordTval w l sh.len) (s.env g) g t).stand = t.stand ∧
      (f (wordTval w l sh.len) (s.env g) g t).team = t.team)
    (hend : ∀ u ∈ g.lanes, u.stand = stand → (u.wordDone sh (s.srStart g) (f (wordTval w l sh.len) (s.env g) g)).plainEnd = true) :
    ∃ t, laneEach sh f s = .next t ∧ StandLeaves s t gid stand g fun u u' =>
      ended u' = ended (u.wordDone sh (s.srStart g) (f (wordTval w l sh.len) (s.env g) g)) ∧
        u'.wait = (u.wordDone sh (s.srStart g) (f (wordTval w l sh.len) (s.env g) g)).wait := by
  obtain ⟨t, h1, h2⟩ := laneIssue_local s gid stand w l g sh (fun _ _ _ _ => false)
    (fun gid tid s' => s'.modThread gid (some tid) (f (wordTval w l sh.len) (s.env g) g)) (f (wordTval w l sh.len) (s.env g) g) hs hd rfl hf
    (fun _ _ _ => rfl) hend
  refine ⟨t, ?_, standLeaves_mono h2 fun u _ _ u' h => ⟨h.1, ?_⟩⟩
  · rw [← h1]; simp only [laneEach, hs.issues, hs.resident]; rfl
  · rcases h.2 with e | e <;> rw [e]; simp

/-- A uniform word that acts on the front thread, which passes decode. -/
theorem uniEach_local (s : State) (gid : Nat) (w l : Word) (g : Grove) (sh : Shape) (f : DWord → Env → Grove → Thread → Thread)
    (hs : FrontAt s gid w l g) (hd : FrontDecodes sh g)
    (hend : (g.front.wordDone sh (s.srStart g) (f (wordTval w l sh.len) (s.env g) g)).plainEnd = true) :
    ∃ t, uniEach sh f s = .next t ∧ FrontLeaves s t gid g fun u u' =>
      ended u' = ended (u.wordDone sh (s.srStart g) (f (wordTval w l sh.len) (s.env g) g)) ∧
        u'.wait = (u.wordDone sh (s.srStart g) (f (wordTval w l sh.len) (s.env g) g)).wait := by
  obtain ⟨t, h1, h2, h3, u', h4, h5, h6⟩ := uniIssue_local s gid w l g sh false (fun _ _ => false)
    (fun gid s' => s'.modThread gid none (f (wordTval w l sh.len) (s.env g) g)) (f (wordTval w l sh.len) (s.env g) g) hs hd (fun _ => rfl)
    (fun _ _ => rfl) hend
  refine ⟨t, ?_, h2, h3, u', h4, h5, ?_⟩
  · rw [← h1]; simp only [uniEach, hs.issues, hs.resident]; rfl
  · rcases h6 with e | e <;> rw [e]; simp

end Sys2Proof.Machine
end

