-- ==== Sys2Proof/Laws/Stops.lean ====
section
/-! SUPPORT. Words that stop their thread: a trap taken, an exit, a return from a handler, each in a stand of one thread or in the front thread (17 R350-R355, 15 R316). -/

namespace Sys2Proof.Machine

open Sys2Proof.Safety

/-- The exchange with a bank (R66): n registers from r trade places with n entries of the bank. -/
theorem swapBank_spec (r n : Nat) (regs bank : List (Nat × Word)) :
    (∀ k < n, tabGet 0 (swapBank r n regs bank).1 (r + k) = tabGet 0 bank k ∧ tabGet 0 (swapBank r n regs bank).2 k = tabGet 0 regs (r + k)) ∧
    (∀ m, (∀ k < n, m ≠ r + k) → tabGet 0 (swapBank r n regs bank).1 m = tabGet 0 regs m) ∧
    (∀ m, n ≤ m → tabGet 0 (swapBank r n regs bank).2 m = tabGet 0 bank m) := by
  induction n generalizing regs bank with
  | zero => simp [swapBank]
  | succ n ih =>
    obtain ⟨h1, h2, h3⟩ := ih (tabSet 0 regs (r + n) (tabGet 0 bank n)) (tabSet 0 bank n (tabGet 0 regs (r + n)))
    simp only [swapBank]
    refine ⟨fun k hk => ?_, fun m hm => ?_, fun m hm => ?_⟩
    · by_cases h : k < n
      · rw [(h1 k h).1, (h1 k h).2, tabGet_set, tabGet_set]
        simp [show k ≠ n by omega]
      · have : k = n := by omega
        subst this
        rw [h2 _ (by omega), h3 _ le_rfl, tabGet_set, tabGet_set]; simp
    · rw [h2 m (fun k hk => hm k (by omega)), tabGet_set]; simp [hm n (by omega)]
    · rw [h3 m (by omega), tabGet_set]; simp [show m ≠ n by omega]

/-- A trap with the mask of one lane, where none is fixed yet. -/
def Thread.masked (t : Thread) : Thread :=
  t.modSeg fun x => { x with trap := x.trap.map fun ti => if ti.mask.isNone then { ti with mask := some (BitVec.ofNat 64 (2 ^ t.lane)) } else ti }

theorem masked_tid (t : Thread) : t.masked.tid = t.tid := rfl

/-- A word in a stand of one thread that ends its segment, with what it does to the thread: the commit of that thread is all that follows. -/
theorem laneIssue_stops (s : State) (gid stand : Nat) (w l : Word) (g : Grove) (u : Thread) (sh : Shape)
    (hold : State → Grove → Nat → List Thread → Bool) (eff : Nat → Nat → State → State) (f : Thread → Thread)
    (hs : AloneAt s gid stand w l g sh.h u) (hd : LaneDecodes sh g stand) (hh : hold s g stand [u] = false)
    (he : ∀ s', OnlyGroves s s' → ∀ k, eff gid k s' = s'.modThread gid (some k) f) (hf : ∀ t, (f t).tid = t.tid ∧ (f t).stand = t.stand ∧ (f t).team = t.team ∧ (f t).strand = t.strand ∧ (f t).lane = t.lane)
    (x : Seg) (hx : ((f (u.begin sh (s.srStart g))).finish sh).seg = some x) (hfin : x.fin ≠ .running)
    (hpark : x.park = none) (hret : x.returned = true ∧ x.checks = []) (hw : (f (u.begin sh (s.srStart g))).wait = .none) :
    ∃ r, laneIssue sh hold eff s = .next (r.commitThread gid (some u.tid)) ∧ OnlyGroves s r ∧ (∀ j, j ≠ gid → r.grove? j = s.grove? j) ∧
      r.grove? gid = some (withThread g u.tid ((f (u.begin sh (s.srStart g))).finish sh).masked) := by
  have hone : OneAt s gid stand w l g sh.h u := ⟨hs.at_, hs.member, hs.inStand, fun v hv hst => by rw [hs.alone v hv (.inl hst)]; simp [hs.on]⟩
  have hon := oneAt_on hone
  have hstand : standOf g stand = [u] := by
    have h2 : standOf g stand = (standOf g stand).filter fun t => t.guard sh.h := by
      symm; rw [List.filter_eq_self]
      intro v hv
      simp only [standOf, List.mem_filter] at hv
      have : v.stand = stand := by have := hv.2; simp [Thread.issuing] at this; exact this.1.2
      rw [hs.alone v hv.1 (.inl this)]; exact hs.on
    rw [h2, hon]
  have hteam : teamOf g stand = u.team := (teamOf_stand hs.at_ u hs.member hs.inStand).symm
  rw [laneIssue_runs s gid stand w l g sh hold eff hs.at_.issues hs.at_.resident hd (by rw [hon]; exact hh), hon, hstand, hteam]
  simp only [List.map_cons, List.map_nil, List.foldl_cons, List.foldl_nil]
  rw [he _ (onlyGroves_modGrove ..)]
  generalize s.srStart g = a at hx hw ⊢
  generalize hE : (f (u.begin sh a)).finish sh = E at hx ⊢
  have hEt : E.tid = u.tid ∧ E.team = u.team ∧ E.strand = u.strand ∧ E.lane = u.lane ∧ E.wait = .none := by
    rw [← hE]; simp [hf, hw]
  have hin : ∀ v ∈ g.lanes, (v.tid = u.tid ↔ v = u) := fun v hv => ⟨fun h => eq_of_tid _ hs.at_.distinct v u hv hs.member h, fun h => by rw [h]⟩
  have hid : ∀ (p : Thread → Bool) (f : Thread → Thread) (g : Grove), (g.modLanes p f).id = g.id := fun _ _ _ => rfl
  have hid2 : ∀ T (g : Grove), (g.endWord T sh).id = g.id := fun _ _ => rfl
  have hid3 : ∀ g : Grove, (g.modThread (some u.tid) f).id = g.id := fun _ => rfl
  generalize hr0 : ((State.modThread (s.modGrove gid fun g' => g'.modLanes (fun t => [u.tid].contains t.tid) (Thread.begin sh a)) gid (some u.tid) f).modGrove gid
    (Grove.endWord [u.tid] sh)) = r0
  have hg0 : r0.grove? gid = some (withThread g u.tid E) := by
    rw [← hr0, State.grove?_modGrove_same _ _ _ (hid2 _), State.modThread, State.grove?_modGrove_same _ _ _ hid3, State.grove?_modGrove_same _ _ _ (hid _ _), hs.at_.resident]
    simp only [Option.map_some, Option.some.injEq]
    have hlanes : (Grove.modThread (g.modLanes (fun t => [u.tid].contains t.tid) (Thread.begin sh a)) (some u.tid) f) =
        { g with lanes := g.lanes.map fun v => if v.tid = u.tid then f (v.begin sh a) else v } := by
      simp only [Grove.modThread, Grove.modLanes, List.map_map]
      congr 1
      apply List.map_congr_left; intro v hv
      by_cases h : v.tid = u.tid <;> simp [h]
    rw [hlanes]
    simp only [Grove.endWord, Grove.modLanes, withThread, List.map_map]
    congr 1
    apply List.map_congr_left; intro v hv
    simp only [Function.comp_apply]
    by_cases h : v.tid = u.tid
    · have hvu := (hin v hv).1 h
      subst hvu
      have : (f (v.begin sh a)).tid = v.tid := by rw [(hf _).1, Thread.begin_tid]
      simp only [↓reduceIte, List.contains_cons, this, beq_self_eq_true, Bool.true_or]
      rw [show (f (v.begin sh a)).endWord sh.len (sh.h.s || sh.ends || (f (v.begin sh a)).atLimit) = E from hE]
      split
      · unfold Thread.endHere Thread.modSeg
        rw [hx]
        have : (x.fin == .running) = false := by simpa using hfin
        simp only [Option.map_some, this, Bool.false_eq_true, ↓reduceIte]
        rw [← hx]
      · rfl
    · simp [h]
  have ho0 : OnlyGroves s r0 := by rw [← hr0]; rfl
  have hj0 : ∀ j, j ≠ gid → r0.grove? j = s.grove? j := by
    intro j hj
    rw [← hr0, State.grove?_modGrove_other _ _ _ _ (hid2 _) hj, State.modThread, State.grove?_modGrove_other _ _ _ _ hid3 hj,
      State.grove?_modGrove_other _ _ _ _ (hid _ _) hj]
  -- the threads of the grove after the word
  have hwl : ∀ v ∈ (withThread g u.tid E).lanes, v.team = u.team → v = E := by
    intro v hv hst
    simp only [withThread, List.mem_map] at hv
    obtain ⟨v0, h0, rfl⟩ := hv
    by_cases h : v0.tid = u.tid
    · simp [h]
    · simp only [h, ↓reduceIte] at hst
      exact absurd (by rw [hs.alone v0 h0 (.inr hst)]) h
  have hready : E.commitReady = true := by
    unfold Thread.commitReady; rw [hx]
    simp only [bne_iff_ne, Bool.and_eq_true, ne_eq, hfin, not_false_eq_true, hret, List.isEmpty_nil, and_true, Bool.not_eq_true', true_and]
    unfold Thread.waiting; rw [hEt.2.2.2.2]
  have hrun : E.running = false := by unfold Thread.running; rw [hx]; simpa using hfin
  have hhalt : r0.haltMates gid u.team [u.tid] = r0 := by
    have hany : ((withThread g u.tid E).lanes.any fun v => v.team == u.team && !([u.tid].contains v.tid)) = false := by
      simp only [List.any_eq_false, Bool.and_eq_true, beq_iff_eq, not_and]
      intro v hv ht
      rw [hwl v hv ht, hEt.1]; simp
    unfold State.haltMates
    rw [hg0]
    simp only [hany, Bool.false_eq_true, ↓reduceIte]
    split <;> rfl
  have hfull : ∀ room, trapFull room u.team (withThread g u.tid E).lanes = (withThread g u.tid E).lanes := fun room =>
    trapFull_none _ _ _ fun v hv ht => by rw [hwl v hv ht, hx]; exact hpark
  rw [hhalt]
  refine ⟨r0.modGrove gid fun g => ({ g with lanes := trapFull (fun d => deadfallMax - (tabGet [] r0.deadfalls d).length) u.team g.lanes } : Grove).fixMasks u.team,
    ?_, onlyGroves_trans ho0 (onlyGroves_modGrove ..), fun j hj => ?_, ?_⟩
  · congr 1
    unfold State.commitStand
    simp only [hg0]
    have hun : (withThread g u.tid E).unanswered u.team = false := by
      simp only [Grove.unanswered, List.any_eq_false, Bool.and_eq_true, beq_iff_eq, not_and]
      intro v hv hst
      rw [hwl v hv hst, hx]; simp [hret.2]
    have hso : (withThread g u.tid E).stopsOpen u.team = false := by
      simp only [Grove.stopsOpen, Bool.or_eq_false_iff, Bool.and_eq_false_iff, List.any_eq_false, Bool.and_eq_true, beq_iff_eq]
      refine ⟨fun v hv k => ?_, .inr fun v hv k => ?_⟩
      · rw [hwl v hv k.1.1, hready] at k; simp at k
      · rw [hwl v hv k.1, hrun] at k; simp at k
    rw [hun]
    simp only [hso, Bool.false_eq_true, Bool.not_false, Bool.true_or, Bool.and_true, ↓reduceIte]
    have hfl : ((withThread g u.tid E).lanes.filter fun t => t.team == u.team && t.commitReady).map Thread.tid = [u.tid] := by
      have hnd : (g.lanes.map Thread.tid).Nodup := hs.at_.distinct
      have hmem := hs.member
      have hal : ∀ v ∈ g.lanes, v.team = u.team → v = u := fun v hv h => hs.alone v hv (.inr h)
      simp only [withThread]
      generalize g.lanes = L at hnd hmem hal
      induction L with
      | nil => cases hmem
      | cons v L ih =>
        simp only [List.map_cons, List.nodup_cons] at hnd
        by_cases h : v = u
        · subst h
          simp only [List.map_cons, ↓reduceIte]
          rw [List.filter_cons_of_pos (by simp [hEt.2.1, hready])]
          simp only [List.map_cons, hEt.1, List.cons.injEq, true_and, List.map_eq_nil_iff, List.filter_eq_nil_iff, List.mem_map]
          rintro y ⟨v0, h0, rfl⟩
          have hne : v0.tid ≠ v.tid := fun e => hnd.1 (e ▸ List.mem_map_of_mem h0)
          simp only [hne, ↓reduceIte, Bool.and_eq_true, beq_iff_eq, not_and]
          intro hst
          exact absurd (by rw [hal v0 (List.mem_cons_of_mem _ h0) hst]) hne
        · have hu : u ∈ L := (List.mem_cons.1 hmem).resolve_left (Ne.symm h)
          have hne : v.tid ≠ u.tid := fun e => hnd.1 (e ▸ List.mem_map_of_mem hu)
          have hst : v.team ≠ u.team := fun e => h (hal v List.mem_cons_self e)
          simp only [List.map_cons, hne, ↓reduceIte]
          rw [List.filter_cons_of_neg (by simp [hst])]
          exact ih hnd.2 hu fun y hy => hal y (List.mem_cons_of_mem _ hy)
    rw [hfl]; rfl
  · rw [State.grove?_modGrove_other _ _ _ _ (by intro g; rfl) hj, hj0 j hj]
  · rw [State.grove?_modGrove_same _ _ _ (by intro g; rfl), hg0, Option.map_some]
    congr 1
    simp only [hfull]
    simp only [Grove.fixMasks, Grove.modLanes, withThread, List.map_map]
    congr 1
    apply List.map_congr_left
    intro v hv
    simp only [Function.comp_apply]
    by_cases h : v.tid = u.tid
    · simp only [h, ↓reduceIte, hEt.2.1, beq_self_eq_true, hx, Option.bind_some]
      cases ht : x.trap with
      | none =>
        simp only [Option.isSome_none, Bool.false_eq_true, ↓reduceIte, Thread.masked, Thread.modSeg, hx, Option.map_some, ht, Option.map_none]
        rw [← ht, ← hx]
      | some ti =>
        simp only [Option.isSome_some, ↓reduceIte, Thread.masked]
        have hbits : (List.filter (fun v => v.strand == E.strand && (Option.map TrapInfo.idx (if v.team == u.team then v.seg.bind fun x => x.trap else none) == Option.map TrapInfo.idx (some ti)))
            (g.lanes.map fun v => if v.tid = u.tid then E else v)).foldl (fun a v => a ||| 2 ^ v.lane) 0 = 2 ^ E.lane := by
          have hnd : (g.lanes.map Thread.tid).Nodup := hs.at_.distinct
          have hmem := hs.member
          have hal : ∀ v ∈ g.lanes, v.team = u.team → v = u := fun v hv h => hs.alone v hv (.inr h)
          suffices h : (List.filter (fun v => v.strand == E.strand && (Option.map TrapInfo.idx (if v.team == u.team then v.seg.bind fun x => x.trap else none) == Option.map TrapInfo.idx (some ti)))
            (g.lanes.map fun v => if v.tid = u.tid then E else v)) = [E] by rw [h]; simp
          generalize g.lanes = L at hnd hmem hal
          induction L with
          | nil => cases hmem
          | cons v L ih =>
            simp only [List.map_cons, List.nodup_cons] at hnd
            by_cases h : v = u
            · subst h
              simp only [List.map_cons, ↓reduceIte]
              rw [List.filter_cons_of_pos (by simp [hEt.2.1, hx, ht])]
              simp only [List.cons.injEq, true_and, List.filter_eq_nil_iff, List.mem_map]
              rintro y ⟨v0, h0, rfl⟩
              have hne : v0.tid ≠ v.tid := fun e => hnd.1 (e ▸ List.mem_map_of_mem h0)
              simp only [hne, ↓reduceIte, Bool.and_eq_true, beq_iff_eq, not_and]
              intro _
              have : v0.team ≠ v.team := fun e => hne (by rw [hal v0 (List.mem_cons_of_mem _ h0) e])
              simp [this]
            · have hu : u ∈ L := (List.mem_cons.1 hmem).resolve_left (Ne.symm h)
              have hne : v.tid ≠ u.tid := fun e => hnd.1 (e ▸ List.mem_map_of_mem hu)
              have hst : v.team ≠ u.team := fun e => h (hal v List.mem_cons_self e)
              simp only [List.map_cons, hne, ↓reduceIte]
              rw [List.filter_cons_of_neg (by simp [hst])]
              exact ih hnd.2 hu fun y hy => hal y (List.mem_cons_of_mem _ hy)
        simp only [Option.map_some] at hbits ⊢
        rw [hbits]
    · have hst : v.team ≠ u.team := fun e => h (by rw [hs.alone v hv (.inr e)])
      simp [h, hst]

/-- The same in the front thread. -/
theorem uniIssue_stops (s : State) (gid : Nat) (w l : Word) (g : Grove) (sh : Shape) (push : Bool)
    (hold : State → Grove → Bool) (eff : Nat → State → State) (f : Thread → Thread)
    (hs : FrontAloneAt s gid w l g sh.h) (hd : FrontDecodes sh g) (hh : hold s g = false)
    (he : ∀ s', OnlyGroves s s' → eff gid s' = s'.modThread gid none f)
    (x : Seg) (hx : ((f (g.front.begin sh (s.srStart g))).finish sh).seg = some x) (hfin : x.fin ≠ .running)
    (hret : x.returned = true ∧ x.checks = []) (hw : (f (g.front.begin sh (s.srStart g))).wait = .none) :
    ∃ r, uniIssue sh push hold eff s = .next (r.commitThread gid none) ∧ OnlyGroves s r ∧ (∀ j, j ≠ gid → r.grove? j = s.grove? j) ∧
      r.grove? gid = some { g with front := (f (g.front.begin sh (s.srStart g))).finish sh } := by
  rw [uniIssue_runs s gid w l g sh push hold eff hs.at_.issues hs.at_.resident hd (fun _ => hh)]
  simp only [hs.on, ↓reduceIte]
  rw [he _ (onlyGroves_modThread ..)]
  generalize s.srStart g = a at hx hw ⊢
  have hid : ∀ (f : Thread → Thread) (g : Grove), (g.modThread none f).id = g.id := fun _ _ => rfl
  generalize hr0 : (((s.modThread gid none (Thread.begin sh a)).modThread gid none f).modThread gid none fun t => t.finish sh) = r0
  have hg0 : r0.grove? gid = some { g with front := (f (g.front.begin sh a)).finish sh } := by
    rw [← hr0]
    simp only [State.modThread]
    rw [State.grove?_modGrove_same _ _ _ (hid _), State.grove?_modGrove_same _ _ _ (hid _), State.grove?_modGrove_same _ _ _ (hid _), hs.at_.resident]
    rfl
  refine ⟨r0, ?_, by rw [← hr0]; rfl, fun j hj => ?_, hg0⟩
  · congr 1
    unfold State.commitFront
    simp only [hg0]
    have hready : ((f (g.front.begin sh a)).finish sh).commitReady = true := by
      unfold Thread.commitReady; rw [hx]
      simp only [bne_iff_ne, Bool.and_eq_true, ne_eq, hfin, not_false_eq_true, hret, List.isEmpty_nil, and_true, Bool.not_eq_true', true_and]
      unfold Thread.waiting; rw [Thread.finish_wait, hw]
    rw [if_pos hready]
  · rw [← hr0]
    simp only [State.modThread]
    rw [State.grove?_modGrove_other _ _ _ _ (hid _) hj, State.grove?_modGrove_other _ _ _ _ (hid _) hj, State.grove?_modGrove_other _ _ _ _ (hid _) hj]

/-- A thread's segment that ended in a precise trap outside a transaction, with a handler to take it (R88, R352). -/
theorem commitThread_trap (r : State) (gid : Nat) (w : Who) (g : Grove) (t : Thread) (x : Seg) (ti : TrapInfo) (e : Word)
    (hg : r.grove? gid = some g) (ht : g.thread? w = some t)
    (hset : ∀ v : Thread, v.tid = t.tid → (g.modThread w fun _ => v).thread? w = some v)
    (hx : t.seg = some x) (hti : x.trap = some ti) (htxn : ti.txn = false) (hsnap : natBit r.hub.snapMask ti.cause = false)
    (hth : t.th = false) (hh : r.handler g.ctx t.front = some e) :
    r.commitThread gid w = (r.modThread gid w fun _ => { t.commitRegs with ctl := { t.ctl with pc := ti.pc } }).modThread gid w
      fun v => v.enterTrap g.desc.vregs e ti := by
  simp only [State.commitThread, hg, ht, hx, hti, htxn, Bool.false_eq_true, ↓reduceIte]
  generalize hv : ({ t.commitRegs with ctl := { t.ctl with pc := ti.pc } } : Thread) = v
  have hvt : v.tid = t.tid ∧ v.th = false ∧ v.front = t.front := by
    subst hv
    refine ⟨by simp, ?_, ?_⟩
    · simp only [Thread.commitRegs, hx]
      suffices ∀ (q : List Result) (t : Thread), (q.foldl (fun t x => t.setArch x.reg (x.val.getD 0)) t).th = t.th from (this _ _).trans hth
      intro q; induction q with
      | nil => intro t; rfl
      | cons y q ih => intro t; rw [List.foldl_cons, ih]; cases y.reg <;> rfl
    · simp only [Thread.commitRegs, hx]
      suffices ∀ (q : List Result) (t : Thread), (q.foldl (fun t x => t.setArch x.reg (x.val.getD 0)) t).front = t.front from this _ _
      intro q; induction q with
      | nil => intro t; rfl
      | cons y q ih => intro t; rw [List.foldl_cons, ih]; cases y.reg <;> rfl
  have hid : ∀ g : Grove, (g.modThread w fun _ => v).id = g.id := by intro g; cases w <;> rfl
  have hg1 : (r.modThread gid w fun _ => v).grove? gid = some (g.modThread w fun _ => v) := by
    rw [State.modThread, State.grove?_modGrove_same _ _ _ hid, hg]; rfl
  have hc : (g.modThread w fun _ => v).ctx = g.ctx ∧ (g.modThread w fun _ => v).desc = g.desc := by cases w <;> exact ⟨rfl, rfl⟩
  have hhub : (r.modThread gid w fun _ => v).hub = r.hub := rfl
  have hhand : ∀ c b, (r.modThread gid w fun _ => v).handler c b = r.handler c b := fun _ _ => rfl
  simp only [State.takeTrap, hg1, hset v hvt.1, hhub, hsnap, Bool.false_eq_true, ↓reduceIte, hvt.2.1, hvt.2.2, hc, hhand, hh]

end Sys2Proof.Machine
end

