-- ==== Sys2Proof/Laws/Sends.lean ====
section
/-! SUPPORT. A word that adds to its thread's open segment and does not stop it: the thread once it is past the word, with results taken at once or awaited (04 R83-R88). -/

namespace Sys2Proof.Machine

open Sys2Proof.Safety

/-- The segment of a thread that has begun a word. -/
def Thread.begunSeg (sh : Shape) (a : List (Nat × Word)) (u : Thread) : Seg :=
  { u.segOf a with
    words := (u.segOf a).words + 1
    pcs := (u.segOf a).ctl.pc :: (u.segOf a).pcs
    moved := false
    ctl := { (u.segOf a).ctl with pc := (u.segOf a).ctl.pc + BitVec.ofNat 32 sh.len }
    nvar := (u.segOf a).nvar + sh.nvar }

theorem begin_begunSeg (sh : Shape) (a : List (Nat × Word)) (u : Thread) : (u.begin sh a).seg = some (u.begunSeg sh a) := Thread.begin_seg sh a u

theorem segOf_words (a : List (Nat × Word)) (u : Thread) : (u.segOf a).words = placeOf u := by
  unfold Thread.segOf placeOf; cases u.seg <;> rfl

theorem begunSeg_place (sh : Shape) (a : List (Nat × Word)) (u : Thread) : (u.begunSeg sh a).words - 1 = placeOf u := by
  rw [← segOf_words a u]; rfl

theorem begin_idx (sh : Shape) (a : List (Nat × Word)) (u : Thread) : (u.begin sh a).idx = placeOf u := by
  unfold Thread.idx; rw [begin_begunSeg]; exact begunSeg_place sh a u

/-- A thread past a word that has added results, checks and flags to its segment: the segment, and the end test of its loop frames (R85, R314). -/
theorem endWord_added (sh : Shape) (a : List (Nat × Word)) (u v : Thread) (y : Seg)
    (hi : (∀ x, u.seg = some x → x.fin = .running) ∧ u.stopped = false) (hv : v.seg = some y)
    (hy : y = { u.begunSeg sh a with results := y.results, checks := y.checks, flags := y.flags, writes := y.writes }) :
    (v.finish sh).plainEnd = true ∧
      ∃ z, (v.finish sh).seg = some { y with ctl := past u sh.len, fin := z } := by
  obtain ⟨r1, r2, r3, r4⟩ := segOf_running a u hi.1 hi.2
  have q1 : y.fin = .running := by rw [hy]; exact r1
  have q5 : y.moved = false := by rw [hy]; rfl
  have q6 : y.pcs.headD 0 = u.now.pc := by rw [hy]; simp [Thread.begunSeg, segOf_ctl]
  have q7 : y.ctl = { u.now with pc := u.now.pc + BitVec.ofNat 32 sh.len } := by rw [hy]; simp [Thread.begunSeg, segOf_ctl]
  refine ⟨plainEnd_finish _ _ y hv q1 (by rw [hy]; exact r2) (by rw [hy]; exact r3) (by rw [hy]; exact r4), ?_⟩
  rw [Thread.finish, Thread.endWord_seg _ _ _ y hv q1, q5, q6, q7]
  simp only [Bool.false_eq_true, ↓reduceIte, past, seqCtl]
  generalize endTest u.now.pc sh.len false u.now.frames { u.now with pc := u.now.pc + BitVec.ofNat 32 sh.len } = e
  cases e with
  | none => exact ⟨_, by rw [Option.getD_none, ← q7]⟩
  | some c => exact ⟨_, rfl⟩

theorem ended_open' (t : Thread) (g : Seg) (h : t.seg = some g) (c : Ctl) (z : SegEnd) (t' : Thread) (h' : t' = { t with seg := some { g with ctl := c, fin := z } }) :
    ended t' = { ended t with ctl := c } := by
  subst h'
  rw [ended_open t g h, ended_open _ _ rfl]; rfl

/-- A thread's segment with results added is due them, and nothing else changes (R86). -/
theorem ended_results (t t' : Thread) (g g' : Seg) (rs : List Result) (h : t.seg = some g) (h' : t' = { t with seg := some g' })
    (e : g' = { g with results := rs ++ g.results, checks := g'.checks }) :
    ended t' = { ended t with regs := (ended t').regs, preds := (ended t').preds } := by
  have hf : g'.flgAfter t.flg = g.flgAfter t.flg := by rw [e]; rfl
  have hw : g'.writes = g.writes := by rw [e]
  have hc : g'.ctl = g.ctl := by rw [e]
  rw [h', ended_open t g h, ended_open _ g' rfl]
  simp only [hw, hc, hf]

theorem regFold_append (l r : List Result) (p : List (Nat × Word) × List (Nat × Bool)) : regFold (l ++ r) p = regFold r (regFold l p) := by
  induction l generalizing p with
  | nil => rfl
  | cons x l ih => simp only [List.cons_append, regFold, ih]

theorem regFold_gpr (l : List Result) (hl : ∀ x ∈ l, ∃ n, x.reg = .gpr n) (p : List (Nat × Word) × List (Nat × Bool)) : (regFold l p).2 = p.2 := by
  induction l generalizing p with
  | nil => rfl
  | cons x l ih =>
    obtain ⟨n, hn⟩ := hl x List.mem_cons_self
    rw [regFold, ih (fun y hy => hl y (List.mem_cons_of_mem _ hy)), hn]

/-- With results for V or S registers only, the predicates stay. -/
theorem ended_gprs (t t' : Thread) (g g' : Seg) (rs : List Result) (h : t.seg = some g) (h' : t' = { t with seg := some g' })
    (e : g' = { g with results := rs ++ g.results, checks := g'.checks }) (hr : ∀ x ∈ rs, ∃ n, x.reg = .gpr n) :
    ended t' = { ended t with regs := (ended t').regs } := by
  have hp : (ended t').preds = (ended t).preds := by
    have hq : g'.results = rs ++ g.results := by rw [e]
    rw [h', ended_open t g h, ended_open _ g' rfl]
    show (regFold g'.results.reverse (t.regs, t.preds)).2 = (regFold g.results.reverse (t.regs, t.preds)).2
    rw [hq, List.reverse_append, regFold_append, regFold_gpr _ (by simpa using hr)]
  have := ended_results t t' g g' rs h h' e
  rw [hp] at this; exact this

/-- What a thread is due to hold after results for V or S registers are added to its segment (R86). -/
theorem due_gprs (t t' : Thread) (g g' : Seg) (rs : List Result) (h : t.seg = some g) (h' : t' = { t with seg := some g' })
    (e : g' = { g with results := rs ++ g.results, checks := g'.checks }) (hr : ∀ x ∈ rs, ∃ n, x.reg = .gpr n) (r : Reg) :
    due t' r = match rs.find? fun x => x.reg == r with
      | some x => x.val.getD 0
      | none => due t r := by
  have hq : g'.results = rs ++ g.results := by rw [e]
  have hs : t'.seg = some g' := by rw [h']
  have ha : t'.arch r = t.arch r := by rw [h']; cases r <;> rfl
  rw [due_open t' g' hs, due_open t g h, hq, List.find?_append, ha]
  cases hf : rs.find? fun x => x.reg == r with
  | none => simp only [Option.none_or]
  | some x =>
    obtain ⟨n, hn⟩ := hr x (List.mem_of_find?_eq_some hf)
    have := List.find?_some hf
    simp only [beq_iff_eq] at this
    rw [← this, hn]; simp only [Option.some_or]

theorem find?_results (k : Nat) (ws : List (Reg × Word)) (r : Reg) :
    ((ws.map fun w => Result.mk k w.1 false (some w.2)).find? fun x => x.reg == r) = (ws.lookup r).map fun v => Result.mk k r false (some v) := by
  induction ws with
  | nil => rfl
  | cons w l ih =>
    rw [List.map_cons, List.find?_cons, List.lookup_cons]
    by_cases hr : w.1 = r
    · subst hr; simp
    · simp only [beq_eq_false_iff_ne.2 hr, ih, beq_eq_false_iff_ne.2 (Ne.symm hr)]

theorem past_shape (A B C D : Thread) (c : Ctl) (hw : A = { B with ctl := A.ctl }) (hg : B = { C with regs := B.regs })
    (hb : C = { D with ctl := C.ctl }) (hc : A.ctl = c) : A = { D with regs := A.regs, ctl := c } := by
  subst hc
  have h1 : A.regs = B.regs := by rw [hw]
  rw [h1]
  refine hw.trans ?_
  have h2 : { B with ctl := A.ctl } = { { C with regs := B.regs } with ctl := A.ctl } := congrArg (fun x : Thread => { x with ctl := A.ctl }) hg
  have h3 : { { C with regs := B.regs } with ctl := A.ctl } = { { D with ctl := C.ctl } with regs := B.regs, ctl := A.ctl } :=
    congrArg (fun x : Thread => { x with regs := B.regs, ctl := A.ctl }) hb
  exact h2.trans h3

/-- A thread that has begun a word and taken results in V or S registers at once, past the word. -/
theorem took_law (sh : Shape) (a : List (Nat × Word)) (u v : Thread) (ws : List (Reg × Word))
    (hi : (∀ x, u.seg = some x → x.fin = .running) ∧ u.stopped = false) (hws : ∀ e ∈ ws, ∃ n, e.1 = .gpr n)
    (hv : v = (u.begin sh a).put false ws) :
    (v.finish sh).plainEnd = true ∧ Took sh.len ws u (v.finish sh) := by
  have hbs := begin_begunSeg sh a u
  have hrs : ∀ x ∈ (ws.map fun (w : Reg × Word) => Result.mk ((u.begunSeg sh a).words - 1) w.1 false (some w.2)), ∃ n, x.reg = .gpr n := by
    intro x hx; obtain ⟨e, he, rfl⟩ := List.mem_map.1 hx; exact hws e he
  obtain ⟨y, hy⟩ : ∃ y, y = { u.begunSeg sh a with results := (ws.map fun (w : Reg × Word) => Result.mk ((u.begunSeg sh a).words - 1) w.1 false (some w.2)) ++ (u.begunSeg sh a).results } := ⟨_, rfl⟩
  have hv' : v = { u.begin sh a with seg := some y } := by rw [hv, Thread.put, Thread.modSeg, hbs, hy]; rfl
  have hvs : v.seg = some y := by rw [hv']
  obtain ⟨p1, z, p2⟩ := endWord_added sh a u v y hi hvs (by rw [hy])
  have hw := ended_finish sh v
  have hb := ended_begin sh a u
  have hg := ended_gprs _ v _ y _ hbs hv' (by rw [hy]) hrs
  have hd := due_gprs _ v _ y _ hbs hv' (by rw [hy]) hrs
  refine ⟨p1, ?_, ?_, fun r => ?_⟩
  · rw [Thread.finish_wait, hv']; rfl
  · have hc : (ended (v.finish sh)).ctl = past u sh.len := by rw [ended_open _ _ p2]
    exact past_shape _ _ _ _ _ hw hg hb hc
  · rw [due_ctl hw r, hd, find?_results, ← due_ctl hb r]
    cases ws.lookup r <;> rfl

/-- A thread that has begun a word and awaits results in V or S registers under an open home-side check, past the word (R86, R88). -/
theorem awaits_law (sh : Shape) (a : List (Nat × Word)) (u v : Thread) (regs : List Reg)
    (hi : (∀ x, u.seg = some x → x.fin = .running) ∧ u.stopped = false) (hws : ∀ e ∈ regs, ∃ n, e = .gpr n)
    (hv : v = ((u.begin sh a).expect regs).modSeg fun x => { x with checks := placeOf u :: x.checks }) :
    (v.finish sh).plainEnd = true ∧ Awaits sh.len regs u (v.finish sh) := by
  have hbs := begin_begunSeg sh a u
  have hk := begunSeg_place sh a u
  have hrs : ∀ x ∈ (regs.map fun r => Result.mk (placeOf u) r false none), ∃ n, x.reg = .gpr n := by
    intro x hx; obtain ⟨e, he, rfl⟩ := List.mem_map.1 hx; exact hws e he
  obtain ⟨y, hy⟩ : ∃ y, y = { u.begunSeg sh a with
    results := (regs.map fun r => Result.mk (placeOf u) r false none) ++ (u.begunSeg sh a).results
    checks := placeOf u :: (u.begunSeg sh a).checks } := ⟨_, rfl⟩
  have hv' : v = { u.begin sh a with seg := some y } := by
    rw [hv, Thread.expect, Thread.modSeg, Thread.modSeg, hbs, hy, ← hk]; rfl
  have hvs : v.seg = some y := by rw [hv']
  obtain ⟨p1, z, p2⟩ := endWord_added sh a u v y hi hvs (by rw [hy])
  have hw := ended_finish sh v
  have hb := ended_begin sh a u
  have hg := ended_gprs _ v _ y _ hbs hv' (by rw [hy]) hrs
  have hd := due_gprs _ v _ y _ hbs hv' (by rw [hy]) hrs
  refine ⟨p1, ?_, ?_, fun r hr => ?_, _, p2, fun r hr => ?_, ?_⟩
  · rw [Thread.finish_wait, hv']; rfl
  · have hc : (ended (v.finish sh)).ctl = past u sh.len := by rw [ended_open _ _ p2]
    exact past_shape _ _ _ _ _ hw hg hb hc
  · rw [due_ctl hw r, hd, ← due_ctl hb r]
    have : ((regs.map fun r => Result.mk (placeOf u) r false none).find? fun x => x.reg == r) = none := by
      rw [List.find?_eq_none]; intro x hx; obtain ⟨q, hq, rfl⟩ := List.mem_map.1 hx
      simp only [beq_iff_eq]; rintro rfl; exact hr hq
    rw [this]
  · rw [hy]; exact List.mem_append_left _ (List.mem_map.2 ⟨r, hr, rfl⟩)
  · rw [hy]; exact List.mem_cons_self

/-- A thread that has begun a word and is left alone, past the word. -/
theorem passed_law (sh : Shape) (a : List (Nat × Word)) (u : Thread)
    (hi : (∀ x, u.seg = some x → x.fin = .running) ∧ u.stopped = false) :
    ((u.begin sh a).finish sh).plainEnd = true ∧ Passed sh.len u ((u.begin sh a).finish sh) := by
  obtain ⟨p1, z, p2⟩ := endWord_added sh a u _ _ hi (begin_begunSeg sh a u) rfl
  refine ⟨p1, by rw [Thread.finish_wait]; rfl, ?_⟩
  have hc : (ended ((u.begin sh a).finish sh)).ctl = past u sh.len := by rw [ended_open _ _ p2]
  exact (past_shape _ _ _ _ _ (ended_finish _ _) rfl (ended_begin sh a u) hc).trans (by
    have h1 : (ended ((u.begin sh a).finish sh)).regs = (ended u).regs := by rw [ended_finish, ended_begin]
    rw [h1])

/-- A word of a stand that acts in its one thread u as f says and leaves the rest of the device as r: what holds of the thread past the word holds after the step. -/
theorem lane_one (s : State) (gid stand : Nat) (w l : Word) (g : Grove) (u : Thread) (sh : Shape)
    (hold : State → Grove → Nat → List Thread → Bool) (eff : Nat → Nat → State → State) (hs : OneAt s gid stand w l g sh.h u)
    (hd : LaneDecodes sh g stand) (hh : hold s g stand [u] = false) (r : State) (hr : r.groves = s.groves) (f : Grove → Grove) (F : Thread → Thread)
    (hf : ∀ g, (f g).id = g.id ∧ (f g).lanes = g.lanes ∧ ∀ L, f { g with lanes := L } = { f g with lanes := L })
    (he : eff gid u.tid (s.begunLane gid stand g sh) =
      (({ r with groves := (s.begunLane gid stand g sh).groves } : State).modGrove gid f).modThread gid (some u.tid) F)
    (hF : (F (u.begin sh (s.srStart g))).tid = u.tid ∧ (F (u.begin sh (s.srStart g))).stand = stand ∧ (F (u.begin sh (s.srStart g))).team = u.team)
    (hend : ((F (u.begin sh (s.srStart g))).finish sh).plainEnd = true) (P : Thread → Prop)
    (hP : ∀ u', ended u' = ended ((F (u.begin sh (s.srStart g))).finish sh) → u'.wait = (F (u.begin sh (s.srStart g))).wait →
      (u' = (F (u.begin sh (s.srStart g))).finish sh ∨
        ((F (u.begin sh (s.srStart g))).finish sh).commitReady = true) → P u') :
    ∃ t, laneIssue sh hold eff s = .next t ∧ LaneDoes r t gid stand (f g) u P := by
  have hid : ∀ (k : Nat) (F : Thread → Thread) (g : Grove), (g.modThread (some k) F).id = g.id := fun _ _ _ => rfl
  have hg0 := begunLane_grove? sh hs.at_
  generalize hb : s.begunLane gid stand g sh = b at he hg0
  have hbo : ∀ j, j ≠ gid → b.grove? j = s.grove? j := by rw [← hb]; exact fun j hj => begunLane_other sh j hj
  have hg1 : ({ r with groves := b.groves } : State).grove? gid = some (g.begun stand sh (s.srStart g)) := hg0
  have hg2 := State.grove?_modGrove_same ({ r with groves := b.groves } : State) gid f (fun g => (hf g).1)
  rw [hg1, Option.map_some] at hg2
  generalize hq : (({ r with groves := b.groves } : State).modGrove gid f).modThread gid (some u.tid) F = q at he
  have hqo : OnlyGroves r q := by rw [← hq]; rfl
  have hqj : ∀ j, j ≠ gid → q.grove? j = r.grove? j := by
    intro j hj
    rw [← hq, State.modThread, State.grove?_modGrove_other _ _ _ _ (hid _ _) hj, State.grove?_modGrove_other _ _ _ _ (fun g => (hf g).1) hj]
    refine (hbo j hj).trans ?_
    unfold State.grove?; rw [hr]
  have hqg : q.grove? gid = some ((f (g.begun stand sh (s.srStart g))).modThread (some u.tid) F) := by
    rw [← hq, State.modThread, State.grove?_modGrove_same _ _ _ (hid _ _), hg2, Option.map_some]
  obtain ⟨t, h1, h2, h3, g'', h4, h5, h6, h7⟩ := laneIssue_does s gid stand w l g u sh hold eff hs hd hh q
    ((f (g.begun stand sh (s.srStart g))).modThread (some u.tid) F) (f g) (F (u.begin sh (s.srStart g))) (by rw [hb]; exact he) hqg
    (by
      rw [Grove.begun, (hf g).2.2, (hf g).2.1]
      simp only [Grove.modThread, Grove.modLanes, List.map_map]
      congr 1
      apply List.map_congr_left
      intro v hv
      simp only [Function.comp_apply]
      by_cases e : v.tid = u.tid
      · have : v = u := eq_of_tid _ hs.at_.distinct v u hv hs.member e
        subst this
        simp [hs.inStand]
      · by_cases e2 : v.stand = stand <;> simp [e, e2])
    (by rw [(hf g).2.1]) (by rw [(hf g).2.1]; exact fun v hv _ _ => hv) (by
      rw [(hf g).2.1]
      intro v hv e ht
      have hm := hs.at_.mates u hs.member v hv hs.inStand e ht
      exact ⟨hm.2, fun k => by rw [hm.1] at k; cases k⟩) hF hend
  refine ⟨t, h1, ?_, ?_, g'', h4, h5, h6, fun v hv => ?_⟩
  · exact onlyGroves_trans hqo h2
  · exact fun j hj => (h3 j hj).trans (hqj j hj)
  · obtain ⟨v', a1, a2, a3⟩ := h7 v hv
    refine ⟨v', a1, a2, ?_⟩
    split <;> rename_i e <;> simp only [e, ↓reduceIte] at a3
    · exact hP v' a3.1 a3.2.1 (a3.2.2.imp id And.left)
    · exact a3

/-- The same of a uniform word. -/
theorem front_one (s : State) (gid : Nat) (w l : Word) (g : Grove) (sh : Shape) (push : Bool)
    (hold : State → Grove → Bool) (eff : Nat → State → State) (hs : FrontAt s gid w l g)
    (hd : FrontDecodes sh g) (hon : g.front.guard sh.h = true) (hh : hold s g = false) (r : State) (hr : r.groves = s.groves) (f : Grove → Grove)
    (F : Thread → Thread) (hf : ∀ g, (f g).id = g.id ∧ ∀ u, f { g with front := u } = { f g with front := u })
    (he : eff gid (s.modThread gid none (Thread.begin sh (s.srStart g))) =
      (({ r with groves := (s.modThread gid none (Thread.begin sh (s.srStart g))).groves } : State).modGrove gid f).modThread gid none F)
    (hend : ((F (g.front.begin sh (s.srStart g))).finish sh).plainEnd = true) (P : Thread → Prop)
    (hP : ∀ u', ended u' = ended ((F (g.front.begin sh (s.srStart g))).finish sh) → u'.wait = (F (g.front.begin sh (s.srStart g))).wait →
      (u' = (F (g.front.begin sh (s.srStart g))).finish sh ∨
        ((F (g.front.begin sh (s.srStart g))).finish sh).commitReady = true) → P u') :
    ∃ t, uniIssue sh push hold eff s = .next t ∧ FrontDoes r t gid (f g) P := by
  have hid : ∀ (F : Thread → Thread) (g : Grove), (g.modThread none F).id = g.id := fun _ _ => rfl
  generalize ha : s.srStart g = a at *
  have hg0 : (s.modThread gid none (Thread.begin sh a)).grove? gid = some { g with front := g.front.begin sh a } := by
    rw [State.modThread, State.grove?_modGrove_same _ _ _ (hid _), hs.resident]; rfl
  have hbo : ∀ j, j ≠ gid → (s.modThread gid none (Thread.begin sh a)).grove? j = s.grove? j := by
    intro j hj; rw [State.modThread, State.grove?_modGrove_other _ _ _ _ (hid _) hj]
  generalize hb : s.modThread gid none (Thread.begin sh a) = b at he hg0 hbo
  have hg1 : ({ r with groves := b.groves } : State).grove? gid = some { g with front := g.front.begin sh a } := hg0
  have hg2 := State.grove?_modGrove_same ({ r with groves := b.groves } : State) gid f (fun g => (hf g).1)
  rw [hg1, Option.map_some, (hf g).2] at hg2
  generalize hq : (({ r with groves := b.groves } : State).modGrove gid f).modThread gid none F = q at he
  have hqo : OnlyGroves r q := by rw [← hq]; rfl
  have hqj : ∀ j, j ≠ gid → q.grove? j = r.grove? j := by
    intro j hj
    rw [← hq, State.modThread, State.grove?_modGrove_other _ _ _ _ (hid _) hj, State.grove?_modGrove_other _ _ _ _ (fun g => (hf g).1) hj]
    refine (hbo j hj).trans ?_
    unfold State.grove?; rw [hr]
  have hqg : q.grove? gid = some ({ f g with front := F (g.front.begin sh a) } : Grove) := by
    rw [← hq, State.modThread, State.grove?_modGrove_same _ _ _ (hid _), hg2, Option.map_some]; rfl
  obtain ⟨t, h1, h2, h3, u', h4, h5, h6, h7⟩ := uniIssue_does s gid w l g sh push hold eff hs hd hon hh q
    ({ f g with front := F (g.front.begin sh a) } : Grove) (by rw [ha, hb]; exact he) hqg hend
  exact ⟨t, h1, onlyGroves_trans hqo h2, fun j hj => (h3 j hj).trans (hqj j hj), u', h4, hP u' h5 h6 (h7.imp id And.left)⟩

theorem modGrove_id (s : State) (i : Nat) : s.modGrove i id = s := by
  unfold State.modGrove; simp

/-- A thread as it stands in a grove whose stand has begun a word. -/
theorem begunLane_thread? {s : State} {gid stand : Nat} {w l : Word} {g : Grove} {h : Hdr} {u : Thread} (sh : Shape) (hs : OneAt s gid stand w l g h u) :
    (s.begunLane gid stand g sh).thread? gid (some u.tid) = some (u.begin sh (s.srStart g)) := by
  unfold State.thread?
  rw [begunLane_grove? sh hs.at_, Option.bind_some]
  show List.find? (fun t => t.tid == u.tid) (g.begun stand sh (s.srStart g)).lanes = _
  have hm := hs.member
  have hd := hs.at_.distinct
  have hst := hs.inStand
  unfold Grove.begun
  simp only
  generalize s.srStart g = a
  generalize g.lanes = L at hm hd
  induction L with
  | nil => cases hm
  | cons v L ih =>
    rw [List.map_cons, List.find?_cons]
    simp only [List.map_cons, List.nodup_cons] at hd
    by_cases e : v.tid = u.tid
    · have : v = u := by
        rcases List.mem_cons.1 hm with h | h
        · exact h.symm
        · exact absurd (e ▸ List.mem_map_of_mem h) hd.1
      subst this
      simp [hst]
    · have hne : ((if v.stand = stand then v.begin sh a else v).tid == u.tid) = false := by
        split <;> simp [e]
      rw [hne]
      exact ih ((List.mem_cons.1 hm).resolve_left (fun k => e (k ▸ rfl))) hd.2

/-- What one request leaves in the thread that sends it: its results awaited, its home-side check open. -/
def sentBy (q : Req) (t : Thread) : Thread := (t.expect q.regs).modSeg fun x => { x with checks := (t.expect q.regs).idx :: x.checks }

@[simp] theorem sentBy_tid (q : Req) (t : Thread) : (sentBy q t).tid = t.tid := rfl
@[simp] theorem sentBy_stand (q : Req) (t : Thread) : (sentBy q t).stand = t.stand := rfl
@[simp] theorem sentBy_team (q : Req) (t : Thread) : (sentBy q t).team = t.team := rfl

/-- A state in the middle of a stand's word that sends requests: more requests, other threads of the grove, thread k as it was. -/
structure MidSend (b : State) (gid : Nat) (gb : Grove) (k : Nat) (s' : State) : Prop where
  rest : s' = { b with nextId := s'.nextId, reqs := s'.reqs, groves := s'.groves }
  more : ∃ qs, s'.reqs = b.reqs ++ qs
  grove : ∃ g', s'.grove? gid = some g' ∧ OnlyLanes gb g'
  mine : s'.thread? gid (some k) = gb.thread? (some k)

theorem withReq_modGrove (s : State) (i : Nat) (f : Grove → Grove) (q : Req) : withReq (s.modGrove i f) q = (withReq s q).modGrove i f := rfl

theorem withReqs_modGrove (qs : List Req) (s : State) (i : Nat) (f : Grove → Grove) :
    qs.foldl withReq (s.modGrove i f) = (qs.foldl withReq s).modGrove i f := by
  induction qs generalizing s with
  | nil => rfl
  | cons q qs ih => rw [List.foldl_cons, withReq_modGrove, ih]; rfl

/-- Requests change nothing but the list of requests and the next id. -/
theorem withReqs_eq (qs : List Req) (s : State) :
    qs.foldl withReq s = { s with nextId := (qs.foldl withReq s).nextId, reqs := (qs.foldl withReq s).reqs } := by
  induction qs generalizing s with
  | nil => rfl
  | cons q qs ih => rw [List.foldl_cons, ih]; rfl

/-- The sends of several threads of a grove, one after another. -/
theorem fold_sends (gid : Nat) (Q : Nat → Req) (eff : Nat → Nat → State → State) (b : State) (gb : Grove) (ks : List Nat) (hn : ks.Nodup)
    (he : ∀ k ∈ ks, ∀ s', MidSend b gid gb k s' → eff gid k s' = (withReq s' (Q k)).modThread gid (some k) (sentBy (Q k))) (s' : State)
    (hs : ∀ k ∈ ks, MidSend b gid gb k s') :
    ks.foldl (fun s k => eff gid k s) s' =
      ((ks.map Q).foldl withReq s').modGrove gid fun g => g.modLanes (fun t => ks.contains t.tid) fun t => sentBy (Q t.tid) t := by
  induction ks generalizing s' with
  | nil =>
    simp only [List.foldl_nil, List.map_nil, State.modGrove, Grove.modLanes]
    have : (fun g : Grove => if g.id == gid then ({ g with lanes := g.lanes.map fun t => if ([] : List Nat).contains t.tid then sentBy (Q t.tid) t else t } : Grove) else g) = id := by
      funext g; simp
    rw [this, List.map_id]
  | cons k r ih =>
    rw [List.nodup_cons] at hn
    have hid : ∀ g : Grove, (g.modThread (some k) (sentBy (Q k))).id = g.id := fun _ => rfl
    obtain ⟨h1, ⟨qs, h2⟩, ⟨g', h3, h4⟩, -⟩ := hs k List.mem_cons_self
    rw [List.foldl_cons, he k List.mem_cons_self s' (hs k List.mem_cons_self)]
    rw [ih hn.2 (fun j hj => he j (List.mem_cons_of_mem _ hj)) _ (fun j hj => ?_)]
    · rw [List.map_cons, List.foldl_cons, State.modThread, withReqs_modGrove, State.modGrove_modGrove _ _ _ _ hid]
      simp only [State.modGrove]
      congr 1
      apply List.map_congr_left
      intro g _
      by_cases h : g.id = gid
      · simp only [h, beq_self_eq_true, ↓reduceIte, Grove.modThread, Grove.modLanes, List.map_map]
        congr 1
        apply List.map_congr_left
        intro t _
        by_cases ht : t.tid = k
        · subst ht; simp [hn.1]
        · simp [ht]
      · simp [h]
    · obtain ⟨-, -, -, m⟩ := hs j (List.mem_cons_of_mem _ hj)
      have hjk : j ≠ k := fun e => hn.1 (e ▸ hj)
      have hg1 : ((withReq s' (Q k)).modThread gid (some k) (sentBy (Q k))).grove? gid = some (g'.modThread (some k) (sentBy (Q k))) := by
        rw [State.modThread, State.grove?_modGrove_same _ _ _ hid]
        show (s'.grove? gid).map _ = _
        rw [h3]; rfl
      refine ⟨?_, ⟨qs ++ [{ Q k with id := s'.nextId }], ?_⟩, ⟨_, hg1, ?_⟩, ?_⟩
      · show ({ ({ s' with nextId := s'.nextId + 1, reqs := s'.reqs ++ [{ Q k with id := s'.nextId }] } : State) with
          groves := ((withReq s' (Q k)).modThread gid (some k) (sentBy (Q k))).groves } : State) = _
        generalize ((withReq s' (Q k)).modThread gid (some k) (sentBy (Q k))).groves = G
        rw [h1]; rfl
      · show s'.reqs ++ _ = _
        rw [h2, List.append_assoc]
      · unfold OnlyLanes at h4 ⊢; rw [h4]; rfl
      · rw [← m]
        unfold State.thread?
        rw [hg1, h3]
        simp only [Option.bind_some, Grove.thread?, Grove.modThread, Grove.modLanes]
        rw [List.find?_map]
        have e : ((fun t : Thread => t.tid == j) ∘ fun t => if t.tid == k then sentBy (Q k) t else t) = fun t => t.tid == j := by
          funext t; simp only [Function.comp_apply]; split <;> simp
        rw [e]
        cases hf : g'.lanes.find? fun t => t.tid == j with
        | none => rfl
        | some t =>
          have : t.tid = j := by have := List.find?_some hf; simpa using this
          have hb : t.tid ≠ k := by rw [this]; exact hjk
          simp [hb]

/-- A word of a stand that sends a request for each of its threads whose guard is true. -/
theorem laneSends_law (i : Instr) (sh : Shape) (ok : State → Grove → Nat → Thread → Prop) (q : State → Grove → Thread → Req)
    (hold : State → Grove → Nat → List Thread → Bool) (eff : Nat → Nat → State → State) (hm : ∀ s, exec i s = laneIssue sh hold eff s)
    (hh : ∀ s gid stand w l g, StandAt s gid stand w l g → (∀ u ∈ activeOf g stand sh.h, u.txn.isOpen = false ∧ ok s g stand u) →
      hold s g stand (activeOf g stand sh.h) = false)
    (he : ∀ s gid stand w l g u, StandAt s gid stand w l g → u ∈ activeOf g stand sh.h → u.txn.isOpen = false → ok s g stand u →
      ∀ s', MidSend (s.begunLane gid stand g sh) gid (g.begun stand sh (s.srStart g)) u.tid s' → s'.thread? gid (some u.tid) = some (u.begin sh (s.srStart g)) →
        eff gid u.tid s' = (withReq s' (q s g u)).modThread gid (some u.tid) (sentBy (q s g u)))
    (hq : ∀ s g u, ∀ r ∈ (q s g u).regs, ∃ n, r = .gpr n) : LaneSends i sh ok q := by
  intro s gid stand w l g hs hd ho
  rw [hm]
  have hact : ∀ u ∈ activeOf g stand sh.h, u ∈ g.lanes ∧ u.stand = stand ∧ u.guard sh.h = true := by
    intro u hu; simpa [activeOf, and_assoc] using hu
  have hfind : ∀ u ∈ g.lanes, g.lanes.find? (fun t => t.tid == u.tid) = some u := fun u hu => find?_of_nodup _ hs.distinct u hu
  let Q : Nat → Req := fun k => match g.lanes.find? fun t => t.tid == k with
    | some u => q s g u
    | none => q s g g.front
  have hQ : ∀ u ∈ g.lanes, Q u.tid = q s g u := fun u hu => by simp only [Q, hfind u hu]
  have hnd : ((activeOf g stand sh.h).map Thread.tid).Nodup := List.Nodup.sublist (List.filter_sublist.map _) hs.distinct
  have hg0 := begunLane_grove? sh hs
  have hth : ∀ u ∈ g.lanes, u.stand = stand → (g.begun stand sh (s.srStart g)).thread? (some u.tid) = some (u.begin sh (s.srStart g)) := by
    intro u hu hst
    have hd' : ((g.begun stand sh (s.srStart g)).lanes.map Thread.tid).Nodup := by
      have : (g.begun stand sh (s.srStart g)).lanes.map Thread.tid = g.lanes.map Thread.tid := by
        simp only [Grove.begun, List.map_map]
        apply List.map_congr_left; intro v _; simp only [Function.comp_apply]; split <;> simp
      rw [this]; exact hs.distinct
    have hm : u.begin sh (s.srStart g) ∈ (g.begun stand sh (s.srStart g)).lanes := by
      simp only [Grove.begun, List.mem_map]; exact ⟨u, hu, by simp [hst]⟩
    have := find?_of_nodup _ hd' _ hm
    rwa [Thread.begin_tid] at this
  have hmid : ∀ u ∈ activeOf g stand sh.h, MidSend (s.begunLane gid stand g sh) gid (g.begun stand sh (s.srStart g)) u.tid (s.begunLane gid stand g sh) := by
    intro u hu
    refine ⟨rfl, ⟨[], (List.append_nil _).symm⟩, ⟨_, hg0, rfl⟩, ?_⟩
    unfold State.thread?; rw [hg0]; rfl
  have hfold := fold_sends gid Q eff (s.begunLane gid stand g sh) (g.begun stand sh (s.srStart g)) ((activeOf g stand sh.h).map Thread.tid) hnd
    (fun k hk s' hm => by
      obtain ⟨u, hu, rfl⟩ := List.mem_map.1 hk
      obtain ⟨h1, h2, h3⟩ := hact u hu
      rw [hQ u h1]
      exact he s gid stand w l g u hs hu (ho u hu).1 (ho u hu).2 s' hm (hm.mine.trans (hth u h1 h2)))
    (s.begunLane gid stand g sh) (fun k hk => by obtain ⟨u, hu, rfl⟩ := List.mem_map.1 hk; exact hmid u hu)
  have hmapQ : ((activeOf g stand sh.h).map Thread.tid).map Q = (activeOf g stand sh.h).map (q s g) := by
    rw [List.map_map]; exact List.map_congr_left fun u hu => hQ u (hact u hu).1
  rw [hmapQ] at hfold
  have hcont : ∀ v ∈ g.lanes, ((activeOf g stand sh.h).map Thread.tid).contains v.tid = true ↔ v.stand = stand ∧ v.guard sh.h = true := by
    intro v hv
    simp only [List.contains_eq_mem, List.mem_map, decide_eq_true_eq]
    constructor
    · rintro ⟨u, hu, e⟩
      obtain ⟨h1, h2, h3⟩ := hact u hu
      have := eq_of_tid _ hs.distinct u v h1 hv e; subst this; exact ⟨h2, h3⟩
    · rintro ⟨h2, h3⟩; exact ⟨v, by simp [activeOf, hv, h2, h3], rfl⟩
  generalize hA : (activeOf g stand sh.h).map (q s g) = qs at hfold
  let N : Thread → Thread := fun v => if v.stand = stand then (if v.guard sh.h then sentBy (q s g v) (v.begin sh (s.srStart g)) else v.begin sh (s.srStart g)) else v
  have hrun : ∀ v ∈ g.lanes, v.stand = stand → (∀ x, v.seg = some x → x.fin = .running) ∧ v.stopped = false := fun v hv h =>
    ⟨running_of_issuing v stand (hs.whole v hv h).1, (hs.whole v hv h).2⟩
  have hex : ∀ (v : Thread) rs, (v.expect rs).idx = v.idx := by
    intro v rs; unfold Thread.expect Thread.modSeg Thread.idx; cases v.seg <;> rfl
  have hlaw : ∀ v ∈ g.lanes, v.stand = stand → v.guard sh.h = true →
      ((N v).finish sh).plainEnd = true ∧ Awaits sh.len (q s g v).regs v ((N v).finish sh) := by
    intro v hv h hg
    have : N v = ((v.begin sh (s.srStart g)).expect (q s g v).regs).modSeg fun x => { x with checks := placeOf v :: x.checks } := by
      simp only [N, h, hg, ↓reduceIte, sentBy, hex, begin_idx]
    exact awaits_law sh (s.srStart g) v _ (q s g v).regs (hrun v hv h) (hq s g v) this
  have hgr : ((qs.foldl withReq (s.begunLane gid stand g sh)).modGrove gid fun g0 =>
      g0.modLanes (fun t => ((activeOf g stand sh.h).map Thread.tid).contains t.tid) fun t => sentBy (Q t.tid) t).grove? gid =
      some { g with lanes := g.lanes.map N } := by
    rw [State.grove?_modGrove_same _ _ _ (by intro g; rfl)]
    have : (qs.foldl withReq (s.begunLane gid stand g sh)).grove? gid = some (g.begun stand sh (s.srStart g)) := by
      rw [withReqs_eq]; exact hg0
    rw [this, Option.map_some]
    simp only [Grove.modLanes, Grove.begun, List.map_map]
    congr 2
    apply List.map_congr_left
    intro v hv
    have ht : (if v.stand = stand then v.begin sh (s.srStart g) else v).tid = v.tid := by split <;> simp
    simp only [Function.comp_apply, ht, hQ v hv, N]
    by_cases h : v.stand = stand
    · by_cases hg : v.guard sh.h = true
      · simp only [(hcont v hv).2 ⟨h, hg⟩, h, hg, ↓reduceIte]
      · have : ((activeOf g stand sh.h).map Thread.tid).contains v.tid = false := by
          rw [Bool.eq_false_iff]; exact fun e => hg ((hcont v hv).1 e).2
        simp only [this, h, hg, Bool.false_eq_true, ↓reduceIte]
    · have : ((activeOf g stand sh.h).map Thread.tid).contains v.tid = false := by
        rw [Bool.eq_false_iff]; exact fun e => h ((hcont v hv).1 e).1
      simp only [this, h, Bool.false_eq_true, ↓reduceIte]
  obtain ⟨t, h1, h2, h3, g'', h4, h5, h6, h7⟩ := laneIssue_each s gid stand w l g sh hold eff hs hd (hh _ _ _ _ _ _ hs ho) _ g N hfold hgr (by
      intro v _
      simp only [N]
      by_cases h : v.stand = stand
      · by_cases hg : v.guard sh.h = true <;> simp [h, hg]
      · simp [h]) (by
      intro v hv h
      by_cases hg : v.guard sh.h = true
      · exact (hlaw v hv h hg).1
      · simp only [N, h, hg, Bool.false_eq_true, ↓reduceIte]; exact (passed_law sh _ v (hrun v hv h)).1)
  have hoth : ∀ j, j ≠ gid → ((qs.foldl withReq (s.begunLane gid stand g sh)).modGrove gid fun g0 =>
      g0.modLanes (fun t => ((activeOf g stand sh.h).map Thread.tid).contains t.tid) fun t => sentBy (Q t.tid) t).grove? j = (qs.foldl withReq s).grove? j := by
    intro j hj
    rw [State.grove?_modGrove_other _ _ _ _ (by intro g; rfl) hj, withReqs_eq, withReqs_eq qs s]
    exact begunLane_other sh j hj
  refine ⟨t, h1, ?_, fun j hj => (h3 j hj).trans (hoth j hj), g'', h4, h5, h6, fun v hv => ?_⟩
  · refine onlyGroves_trans ?_ h2
    unfold State.begunLane
    rw [withReqs_modGrove]; rfl
  · obtain ⟨v', a1, a2, a3⟩ := h7 v hv
    refine ⟨v', a1, a2, ?_⟩
    by_cases h : v.stand = stand
    · simp only [h, ↓reduceIte] at a3 ⊢
      unfold Each
      by_cases hg : v.guard sh.h = true
      · simp only [hg, ↓reduceIte]
        rcases a3 with rfl | a3
        · exact (hlaw v hv h hg).2
        · exfalso
          obtain ⟨x, b1, b2, b3⟩ := (hlaw v hv h hg).2.awaited
          have e3 := a3.1
          unfold Thread.commitReady at e3
          rw [b1] at e3
          simp only [Bool.and_eq_true, List.isEmpty_iff] at e3
          rw [e3.2] at b3; cases b3
      · simp only [hg, Bool.false_eq_true, ↓reduceIte]
        have hNv : N v = v.begin sh (s.srStart g) := by simp only [N, h, hg, Bool.false_eq_true, ↓reduceIte]
        have hA := advanced_trans (advanced_begin sh (s.srStart g) v) (advanced_finish sh _)
        rw [hNv] at a3
        rcases a3 with rfl | a3
        · exact hA
        · rw [a3.2]; exact advanced_of_ended (ended_commitRegs _) hA
    · simp only [h, ↓reduceIte] at a3 ⊢; exact a3

/-- A request sent in the middle of a stand's word goes where the check of its address says. -/
theorem send_mid {s : State} {gid stand : Nat} {w l : Word} {g : Grove} {sh : Shape} {k : Nat} {s' : State} (hs : StandAt s gid stand w l g)
    (hm : MidSend (s.begunLane gid stand g sh) gid (g.begun stand sh (s.srStart g)) k s') (q : Req) (hop : q.op ≠ .prefetch)
    (hd : q.dest = s.destOf gid q.va) :
    s'.send gid (some k) { q with id := s'.nextId } = (withReq s' q).modThread gid (some k) (sentBy q) := by
  obtain ⟨h1, -, ⟨g', h3, h4⟩, -⟩ := hm
  have hc : g'.ctx = g.ctx := by rw [h4]; rfl
  have hdest : s'.destOf gid q.va = q.dest := by
    rw [hd]
    unfold State.destOf
    rw [h3, hs.resident]
    simp only [Option.map_some, Option.getD_some, hc]
    rw [h1]; rfl
  have hop' : (q.op == .prefetch) = false := by simpa using hop
  simp only [State.send, hdest, hop', Bool.false_eq_true, ↓reduceIte]
  rfl

/-- A uniform word that sends a request of the front thread. -/
theorem frontSends_law (i : Instr) (sh : Shape) (ok : State → Grove → Prop) (q : State → Grove → Req) (push : Bool)
    (hold : State → Grove → Bool) (eff : Nat → State → State) (hm : ∀ s, exec i s = uniIssue sh push hold eff s)
    (hh : ∀ s gid w l g, FrontAt s gid w l g → g.front.txn.isOpen = false → ok s g → hold s g = false)
    (he : ∀ s gid w l g, FrontAt s gid w l g → g.front.txn.isOpen = false → ok s g →
      eff gid (s.modThread gid none (Thread.begin sh (s.srStart g))) = (s.modThread gid none (Thread.begin sh (s.srStart g))).send gid none (q s g))
    (hq : ∀ s g, (∀ r ∈ (q s g).regs, ∃ n, r = .gpr n) ∧ (q s g).op ≠ .prefetch ∧ (q s g).id = s.nextId ∧ (q s g).dest = s.destOf g.id (q s g).va) :
    FrontSends i sh ok q := by
  intro s gid w l g hs hd hon hx ho
  rw [hm]
  have hex : ∀ (v : Thread) rs, (v.expect rs).idx = v.idx := by
    intro v rs; unfold Thread.expect Thread.modSeg Thread.idx; cases v.seg <;> rfl
  let F : Thread → Thread := fun t => (t.expect (q s g).regs).modSeg fun x => { x with checks := (t.expect (q s g).regs).idx :: x.checks }
  have hF : F (g.front.begin sh (s.srStart g)) = ((g.front.begin sh (s.srStart g)).expect (q s g).regs).modSeg fun x => { x with checks := placeOf g.front :: x.checks } := by
    simp only [F, hex, begin_idx]
  obtain ⟨p1, p2⟩ := awaits_law sh (s.srStart g) g.front _ (q s g).regs hs.running (hq s g).1 hF
  refine front_one s gid w l g sh push hold eff hs hd hon (hh _ _ _ _ _ hs hx ho) (withReq s (q s g)) rfl id F (fun _ => ⟨rfl, fun _ => rfl⟩) ?_ p1 _ ?_
  · rw [he _ _ _ _ _ hs hx ho, modGrove_id]
    obtain ⟨-, h2, h3, h4⟩ := hq s g
    have hdest : (s.modThread gid none (Thread.begin sh (s.srStart g))).destOf gid (q s g).va = (q s g).dest := by
      rw [h4, grove?_id hs.resident]
      unfold State.destOf
      rw [State.modThread, State.grove?_modGrove_same _ _ _ (by intro g; rfl), hs.resident]
      rfl
    have hw : withReq s (q s g) = { s with nextId := s.nextId + 1, reqs := s.reqs ++ [q s g] } := by
      unfold withReq; rw [← h3]
    rw [hw]
    simp only [State.send, beq_iff_eq, h2, ↓reduceIte, hdest]
    rfl
  · intro u' e1 e2 e3
    obtain ⟨a1, a2, a3, x, a4, a5, a6⟩ := p2
    rcases e3 with rfl | e3
    · exact ⟨a1, a2, a3, x, a4, a5, a6⟩
    · exfalso
      unfold Thread.commitReady at e3
      rw [a4] at e3
      simp only [Bool.and_eq_true, List.isEmpty_iff] at e3
      rw [e3.2] at a6; cases a6

/-- What a word sees beside its thread does not change when its stand begins it. -/
theorem env_begunLane (s : State) (gid stand : Nat) (g : Grove) (sh : Shape) (a) : (s.begunLane gid stand g sh).env (g.begun stand sh a) = s.env g := rfl

theorem request_begin (s' s : State) (gid : Nat) (sh : Shape) (a) (u : Thread) (op : ReqOp) (va size : Nat) (p : Scope) (o : Order) (t : Hint) (data : List Word) (regs : List Reg) (x : Bool) :
    (u.begin sh a).request s'.nextId gid op va size p o t data regs x =
      { requestOf s gid u op va size p o t data regs x with id := s'.nextId, dest := .bad } := by
  unfold Thread.request requestOf
  rw [begin_idx, begin_wordPc]
  have : (u.begin sh a).fpc = u.fpc ∧ (u.begin sh a).core = u.core := by
    simp only [Thread.begin, Thread.openSeg]; constructor <;> split <;> rfl
  rw [this.1, this.2, begin_front, Thread.begin_tid]
  cases o <;> rfl

theorem addrCheck_ok {s : State} {ctx ea n : Nat} (h : AddressOk s ctx ea n) : s.addrCheck ctx ea n = none := by
  obtain ⟨h1, h2⟩ := h
  unfold State.addrCheck
  split
  · rename_i e; exact absurd e h1
  · simp [h2]

/-- The begun threads of a stand see what the word's state before saw, in the middle of its sends too. -/
theorem midSend_same {s : State} {gid stand : Nat} {g : Grove} {sh : Shape} {k : Nat} {s' : State} {g' : Grove}
    (hm : MidSend (s.begunLane gid stand g sh) gid (g.begun stand sh (s.srStart g)) k s') (hg : s'.grove? gid = some g') :
    g'.ctx = g.ctx ∧ s'.env g' = s.env g ∧ (∀ c ea n, s'.addrCheck c ea n = s.addrCheck c ea n) ∧ (∀ c ea, s'.homeOf c ea = s.homeOf c ea) ∧
      ∀ c h off ea n, s'.l1Words g' c h off ea n = s.l1Words g c h off ea n := by
  obtain ⟨h1, -, ⟨g1, h3, h4⟩, -⟩ := hm
  obtain rfl : g1 = g' := Option.some.inj (h3.symm.trans hg)
  clear h3 hg
  obtain ⟨a, r, G, rfl⟩ : ∃ a r G, s' = { s.begunLane gid stand g sh with nextId := a, reqs := r, groves := G } := ⟨_, _, _, h1⟩
  clear h1
  obtain ⟨L, rfl⟩ : ∃ L, g1 = { g.begun stand sh (s.srStart g) with lanes := L } := ⟨_, h4⟩
  exact ⟨rfl, rfl, fun _ _ _ => rfl, fun _ _ => rfl, fun _ _ _ _ _ => rfl⟩

/-- A global load that no L1 serves sends its request (R265). -/
theorem globalLoad_sends (s : State) (gid stand : Nat) (w l : Word) (g : Grove) (u : Thread) (sh : Shape) (hs : StandAt s gid stand w l g)
    (hx : u.txn.isOpen = false) (ea n d : Nat) (p : Scope) (o : Order) (t : Hint) (ha : AddressOk s g.ctx ea (4 * n)) (hn : NotInL1 s g u ea n t)
    (s' : State) (hm : MidSend (s.begunLane gid stand g sh) gid (g.begun stand sh (s.srStart g)) u.tid s')
    (ht : s'.thread? gid (some u.tid) = some (u.begin sh (s.srStart g))) :
    s'.globalLoad gid (some u.tid) ea n d p o t =
      (withReq s' (requestOf s g.id u .load ea (4 * n) p o t [] (regsFrom d n) false)).modThread gid (some u.tid)
        (sentBy (requestOf s g.id u .load ea (4 * n) p o t [] (regsFrom d n) false)) := by
  obtain ⟨g', hg, -⟩ := hm.grove
  obtain ⟨c1, -, c3, c4, c5⟩ := midSend_same hm hg
  have hid := grove?_id hs.resident
  have hsend := send_mid hs hm (requestOf s g.id u .load ea (4 * n) p o t [] (regsFrom d n) false) (by simp [requestOf]) (by rw [hid]; rfl)
  have hreq : (u.begin sh (s.srStart g)).request s'.nextId gid .load ea (4 * n) p o t [] (regGroup d n) false =
      { requestOf s g.id u .load ea (4 * n) p o t [] (regsFrom d n) false with id := s'.nextId, dest := .bad } := by
    rw [hid]; exact request_begin s' s gid sh (s.srStart g) u .load ea (4 * n) p o t [] (regsFrom d n) false
  have hsend' : s'.send gid (some u.tid) ((u.begin sh (s.srStart g)).request s'.nextId gid .load ea (4 * n) p o t [] (regGroup d n) false) =
      s'.send gid (some u.tid) { requestOf s g.id u .load ea (4 * n) p o t [] (regsFrom d n) false with id := s'.nextId } := by
    rw [hreq]; rfl
  unfold State.globalLoad
  simp only [hg, ht]
  rw [c3, c1, addrCheck_ok ha]
  simp only [begin_txn, hx, Bool.false_eq_true, ↓reduceIte]
  rw [c4, ← hsend, ← hsend']
  split
  · rename_i h hh
    have : (if usesL1 t = true then s'.l1Words g' (u.begin sh (s.srStart g)).core h (ea % 2 ^ 54) ea n else none) = none := by
      by_cases hu : usesL1 t = true
      · rw [if_pos hu, c5, begin_core]; exact hn h hh hu
      · rw [if_neg hu]
    simp only [this]
  · rfl

end Sys2Proof.Machine
end

