-- ==== Sys2Proof/Tests/Slice0.lean ====
section
/-! SUPPORT. Tests of the decoder, the well-formedness checks and the meanings on small states, and a witness for the hypotheses of every statement. Expected values come from the spec's examples and tables, or from hand calculation. -/

namespace Sys2Proof.Tests

open Sys2Proof.Machine Sys2Proof.Safety

-- checked one after another: many tests waiting for each other would take a thread each
set_option Elab.async false

/-- An unguarded word's header. -/
def hU : Hdr := ⟨false, 0⟩

/-- A word guarded by a predicate that is false here. -/
def hF : Hdr := ⟨false, 1⟩

/-- A device with context 0 enabled and privileged on die 0, handlers for both streams, and the first 16 pages mapped to themselves. -/
def wBase : State :=
  let s := (((State.reset.setCsrRaw 0 0 3).setCsrRaw 0 3 1).setCsrRaw 0 0x10 3).setCsrRaw 0 6 0x410021
  { s with
    nextId := 10
    mem := writeBytes s.mem (atKeys 0 (leBytes 8 0x8001) ++ atKeys 0x8000 (leBytes 8 3)) }

/-- Two lane threads, the first of them in stand 5. -/
def wLanes : List Thread := ((placedDesc.lanes 0 []).take 2).map fun t => if t.tid = 0 then { t with team := 5, stand := 5 } else t

/-- Their grove. -/
def wG : Grove := placedDesc.grove 1 0 0 0 0 0 wLanes (placedDesc.front 0 [])

/-- The device while stand 5 of a grove issues. -/
def wL (g : Grove) : State := { wBase with groves := [g], cur := .lane 1 5 0 0 }

/-- The device while the front thread of a grove issues. -/
def wF (g : Grove) : State := { wBase with groves := [g], cur := .front 1 0 0 }

/-- The first lane thread of a grove. -/
def wU (g : Grove) : Thread := g.lanes.headD g.front

/-- What the witnesses ask of a grove: its number, distinct TIDs, one thread in stand 5, which issues, and a front thread that issues, with no segment open. -/
def okG (g : Grove) : Bool :=
  g.id == 1 && (g.lanes.map Thread.tid).Nodup && (g.lanes.all fun u => (u.stand != 5 && u.team != (wU g).team) || (u.issuing 5 && !u.stopped && u == wU g)) &&
    ((g.lanes.head?).map Thread.stand) == some 5 && (g.lanes.all fun u => u.seg.isNone) && g.front.seg.isNone && g.front.front && !g.front.stopped

theorem okG_each {g : Grove} (h : okG g = true) : ∀ u ∈ g.lanes, u.stand ≠ 5 ∧ u.team ≠ (wU g).team ∨ u.issuing 5 = true ∧ u.stopped = false ∧ u = wU g := by
  simp only [okG, Bool.and_eq_true, beq_iff_eq, decide_eq_true_eq, List.all_eq_true, Bool.or_eq_true, bne_iff_ne, Bool.not_eq_true'] at h
  obtain ⟨⟨⟨⟨⟨⟨⟨-, -⟩, h3⟩, -⟩, -⟩, -⟩, -⟩, -⟩ := h
  exact fun u hu => (h3 u hu).imp id fun x => ⟨x.1.1, x.1.2, x.2⟩

theorem okG_member {g : Grove} (h : okG g = true) : wU g ∈ g.lanes ∧ (wU g).stand = 5 ∧ ∀ v ∈ g.lanes, v.stand = 5 → v = wU g := by
  refine (and_assoc.mp ⟨?_, fun v hv h5 => (okG_each h v hv).elim (fun x => absurd h5 x.1) fun x => x.2.2⟩)
  simp only [okG, Bool.and_eq_true, beq_iff_eq] at h
  obtain ⟨⟨⟨⟨⟨⟨⟨-, -⟩, -⟩, h4⟩, -⟩, -⟩, -⟩, -⟩ := h
  cases hl : g.lanes with
  | nil => simp [hl] at h4
  | cons a l => simpa [wU, hl] using h4

theorem okG_stand {g : Grove} (h : okG g = true) : StandAt (wL g) 1 5 0 0 g where
  issues := rfl
  resident := by
    simp only [okG, Bool.and_eq_true, beq_iff_eq] at h
    obtain ⟨⟨⟨⟨⟨⟨⟨h1, -⟩, -⟩, -⟩, -⟩, -⟩, -⟩, -⟩ := h
    simp [wL, State.grove?, h1]
  distinct := by
    simp only [okG, Bool.and_eq_true, decide_eq_true_eq] at h
    obtain ⟨⟨⟨⟨⟨⟨⟨-, h2⟩, -⟩, -⟩, -⟩, -⟩, -⟩, -⟩ := h
    exact h2
  member := ⟨_, (okG_member h).1, (okG_member h).2.1⟩
  whole := fun u hu hs => (okG_each h u hu).elim (fun x => absurd hs x.1) fun x => ⟨x.1, x.2.1⟩
  team := fun u hu v hv hs ht => by rw [(okG_member h).2.2 u hu hs, (okG_member h).2.2 v hv ht]
  mates := fun u hu v hv hs ht he => (okG_each h v hv).elim (fun x => absurd ((okG_member h).2.2 u hu hs ▸ he) x.2) fun x => absurd (x.2.2 ▸ (okG_member h).2.1) ht

theorem okG_noSeg {g : Grove} (h : okG g = true) : ∀ u ∈ g.lanes, u.seg = none := by
  simp only [okG, Bool.and_eq_true, List.all_eq_true, Option.isNone_iff_eq_none] at h
  exact h.1.1.1.2

theorem okG_frontSeg {g : Grove} (h : okG g = true) : g.front.seg = none := by
  simp only [okG, Bool.and_eq_true, Option.isNone_iff_eq_none] at h
  exact h.1.1.2

theorem okG_front {g : Grove} (h : okG g = true) : FrontAt (wF g) 1 0 0 g := by
  have hs := okG_frontSeg h
  simp only [okG, Bool.and_eq_true, beq_iff_eq, Bool.not_eq_true'] at h
  obtain ⟨⟨⟨⟨⟨⟨⟨h1, -⟩, -⟩, -⟩, -⟩, -⟩, h7⟩, h8⟩ := h
  exact ⟨rfl, by simp [wF, State.grove?, h1], h7, by simp [hs], h8⟩

theorem okG_one {g : Grove} {h : Hdr} (k : okG g = true) (hg : (wU g).guard h = true) : OneAt (wL g) 1 5 0 0 g h (wU g) :=
  have m := okG_member k
  ⟨okG_stand k, m.1, m.2.1, fun v hv hs => ⟨fun _ => m.2.2 v hv hs, fun e => e ▸ hg⟩⟩

theorem okG_alone {g : Grove} {h : Hdr} (k : okG g = true) (hg : (wU g).guard h = true) : AloneAt (wL g) 1 5 0 0 g h (wU g) :=
  have m := okG_member k
  ⟨okG_stand k, m.1, m.2.1, fun v hv hs => hs.elim (m.2.2 v hv) fun e => (okG_each k v hv).elim (fun x => absurd e x.2) fun x => x.2.2, hg,
    by simp [okG_noSeg k _ m.1]⟩

theorem okG_frontAlone {g : Grove} {h : Hdr} (k : okG g = true) (hg : g.front.guard h = true) : FrontAloneAt (wF g) 1 0 0 g h :=
  ⟨okG_front k, hg, by simp [okG_frontSeg k]⟩

theorem okG_noneOpen {g : Grove} (k : okG g = true) (n : Nat) : NoneOpen g n := fun _ _ v hv _ _ => by simp [okG_noSeg k v hv]

theorem okG_noChecks {g : Grove} (k : okG g = true) : ∀ x, g.front.seg = some x → x.checks = [] := by simp [okG_frontSeg k]

theorem wG_ok : okG wG = true := by decide

theorem wit_IntegerWords : StandAt (wL wG) 1 5 0 0 wG ∧
    (∀ r ∈ [rowBin hU 63 (.v 0) 1 (fun _ _ _ => 0), rowBin hF 0 (.lit 0) 63 (fun _ _ _ => 0), rowUn hU 63 (.v 63) (fun _ => 0), rowBin64 hU 62 (.v 60) 62 (fun _ _ => 0),
        rowShift64 hU 62 (.v 63) 62 (fun _ _ => 0), rowPred hU 7 (.v 63) 63 (fun _ _ => true), rowFlags hU 63 (.v 63) 63 (fun _ _ _ _ => (0, 0)),
        ⟨⟨hU, 1, false, 0, v2 62 ++ needA64 (.v 62)⟩, fun _ _ => ⟨[], 0, none⟩⟩], LaneDecodes r.sh wG 5) :=
  ⟨okG_stand wG_ok, by unfold LaneDecodes; decide⟩

theorem wit_FloatWords : StandAt (wL wG) 1 5 0 0 wG ∧
    (∀ r ∈ [rowFlags hU 63 (.v 0) 1 (fun _ _ _ _ => (0, 0)), rowPred hU 7 (.lit 0) 63 (fun _ _ => true), rowUn hU 63 (.v 63) (fun _ => 0),
        rowFlagsUn hU 0 63 (.v 63) (fun _ _ => (0, 0)), rowFlagsUn hF 1 0 (.lit 0) (fun _ _ => (0, 0))], LaneDecodes r.sh wG 5) ∧
    -- CVTQ: one register, a pair read, a pair written
    ∀ sh ∈ [(⟨hU, 1, false, 1, v1 63 ++ needA (.v 63)⟩ : Shape), ⟨hU, 1, false, 1, v1 63 ++ needA64 (.v 62)⟩, ⟨hU, 1, false, 2, v2 62 ++ needA (.v 63)⟩], LaneDecodes sh wG 5 :=
  ⟨okG_stand wG_ok, by unfold LaneDecodes; decide, by unfold LaneDecodes; decide⟩

theorem wit_UniformWords : FrontAt (wF wG) 1 0 0 wG ∧
    ∀ r ∈ [urowBin hU 31 (.s 31) (.imm 0) (fun _ _ _ => 0), urowBin hF 0 (.sp 0) (.lit 0) (fun _ _ _ => 0), urowUn hU 31 (.s 31) (fun _ => 0),
        urowBin64 hU 30 (.s 30) (.s 28) (fun _ _ => 0), urowPred hU 7 (.s 31) (.sp 0) (fun _ _ _ => (true, 0)), urowFlags hU 31 (.s 31) (.s 0) (fun _ _ _ _ => (0, 0)),
        ⟨⟨hU, 1, false, 0, []⟩, fun _ _ => ⟨[], 0, none⟩⟩], FrontDecodes r.sh wG :=
  ⟨okG_front wG_ok, by unfold FrontDecodes; decide⟩

/-- The grove with the control state of its threads changed. -/
def wC (f : Ctl → Ctl) : Grove := { wG with lanes := wG.lanes.map fun t => { t with ctl := f t.ctl }, front := { wG.front with ctl := f wG.front.ctl } }

/-- Room for one more link in the hardware part of the return stack, and a full hardware part with room for one more in the spill area. -/
def wCalls : List Grove := [wC fun c => { c with hw := [9, 8, 7, 6, 5, 4, 3] }, wC fun c => { c with hw := [9, 8, 7, 6, 5, 4, 3, 2], spill := [1, 2, 3, 4, 5, 6, 7] }]

/-- One link in the hardware part, and one in the spill area only. -/
def wRets : List Grove := [wC fun c => { c with hw := [9] }, wC fun c => { c with spill := [9] }]

theorem wit_TransferWords : (∀ g ∈ wCalls, okG g = true ∧ LaneDecodes ⟨hU, 1, true, 0, v1 63⟩ g 5 ∧ FrontDecodes ⟨hU, 1, true, 0, []⟩ g ∧
      (∀ u ∈ g.lanes, u.stand = 5 → u.guard hU = true → callRoom g.desc.callstk u) ∧ callRoom g.desc.callstk g.front) ∧
    (∀ g ∈ wRets, okG g = true ∧ LaneDecodes ⟨hU, 1, true, 0, []⟩ g 5 ∧ FrontDecodes ⟨hU, 1, true, 0, []⟩ g ∧
      (∀ u ∈ g.lanes, u.stand = 5 → u.guard hU = true → retRoom u) ∧ retRoom g.front) ∧ ∀ g, okG g = true → StandAt (wL g) 1 5 0 0 g ∧ FrontAt (wF g) 1 0 0 g :=
  ⟨by unfold LaneDecodes FrontDecodes callRoom; decide, by unfold LaneDecodes FrontDecodes retRoom; decide, fun _ k => ⟨okG_stand k, okG_front k⟩⟩

/-- Loop frames open on levels 0 and 1, the inner one's end on the word at the PC, with n iterations left. -/
def wLoop (n : Word) (end_ : Word) : Ctl → Ctl := fun c => { c with pc := 7, frames := [⟨1, 5, end_⟩, ⟨0, 3, 9⟩], lc := [(0, 2), (1, n)] }

theorem wit_LoopWords : (∀ g ∈ [wC (wLoop 2 7), wC (wLoop 1 7), wC (wLoop 1 8)], okG g = true ∧ StandAt (wL g) 1 5 0 0 g ∧ LaneDecodes ⟨hU, 1, true, 0, v1 63⟩ g 5 ∧
      FrontAt (wF g) 1 0 0 g ∧ FrontDecodes ⟨hU, 1, true, 0, []⟩ g ∧ (∀ u ∈ g.lanes, u.stand = 5 → u.guard hU = true → loopRoom 2 u ∧ u.now.frames ≠ []) ∧ loopRoom 2 g.front) ∧
    (∃ u ∈ (wC (wLoop 2 7)).lanes, ∃ f r, u.now.frames = f :: r ∧ f.last = u.now.pc ∧ tabGet 0 u.now.lc f.level ≠ 1) ∧
    (∃ u ∈ (wC (wLoop 1 7)).lanes, ∃ f r, u.now.frames = f :: r ∧ f.last = u.now.pc ∧ tabGet 0 u.now.lc f.level = 1 ∧ ∀ k ∈ r.head?, k.last ≠ u.now.pc) ∧
    (∃ u ∈ (wC (wLoop 1 8)).lanes, ∃ f r, u.now.frames = f :: r ∧ f.last ≠ u.now.pc) := by
  refine ⟨fun g hg => ?_, ⟨_, List.mem_cons_self, _, _, rfl, by decide, by decide⟩, ⟨_, List.mem_cons_self, _, _, rfl, by decide, by decide, by decide⟩, ⟨_, List.mem_cons_self, _, _, rfl, by decide⟩⟩
  have k : okG g = true := by revert g; decide
  refine ⟨k, okG_stand k, ?_, okG_front k, ?_, ?_, ?_⟩ <;> revert g <;> (try unfold LaneDecodes) <;> (try unfold FrontDecodes) <;> (try unfold loopRoom) <;> decide

/-- The grove with its threads inside their handlers. -/
def wH : Grove := { wG with lanes := wG.lanes.map fun t => { t with th := true, tpc := 5 }, front := { wG.front with th := true, tpc := 5 } }

theorem wH_ok : okG wH = true := by decide

theorem wit_TrapWords : (AloneAt (wL wG) 1 5 0 0 wG hU (wU wG) ∧ LaneDecodes ⟨hU, 1, true, 0, []⟩ wG 5 ∧ (wU wG).front = false ∧ (wU wG).th = false ∧ (wU wG).txn.isOpen = false ∧
      (wL wG).handler wG.ctx false = some 0x80 ∧ natBit (wL wG).hub.snapMask 0x15 = false ∧ natBit (wL wG).hub.snapMask 0x16 = false) ∧
    (FrontAloneAt (wF wG) 1 0 0 wG hU ∧ FrontDecodes ⟨hU, 1, true, 0, []⟩ wG ∧ wG.front.th = false ∧ wG.front.txn.isOpen = false ∧ (wF wG).handler wG.ctx true = some 0x100) ∧
    (AloneAt (wL wH) 1 5 0 0 wH hU (wU wH) ∧ LaneDecodes ⟨hU, 1, true, 0, []⟩ wH 5 ∧ (wU wH).front = false ∧ (wU wH).th = true ∧ (wU wH).txn.eretTo = none) ∧
    (FrontAloneAt (wF wH) 1 0 0 wH hU ∧ FrontDecodes ⟨hU, 1, true, 0, []⟩ wH ∧ wH.front.front = true ∧ wH.front.th = true ∧ wH.front.txn.eretTo = none) := by
  unfold LaneDecodes FrontDecodes
  exact ⟨⟨okG_alone wG_ok rfl, by decide⟩, ⟨okG_frontAlone wG_ok rfl, by decide⟩, ⟨okG_alone wH_ok rfl, by decide⟩, ⟨okG_frontAlone wH_ok rfl, by decide⟩⟩

theorem wit_TrapRoundTrip : 8 ≤ 8 ∧ (wU wG).txn.eretTo = none := by decide

/-- The grove with its lane threads exited, as SWAITS asks. -/
def wEnd : Grove := { wG with lanes := wG.lanes.map fun t => { t with life := .exited, stand := 0 } }

theorem wit_ThreadEndWords : (∀ o ∈ (wL wG).groves, ∀ v ∈ o.lanes, v.wait = .none) ∧ (AloneAt (wL wG) 1 5 0 0 wG hU (wU wG) ∧ LaneDecodes ⟨hU, 1, true, 0, []⟩ wG 5 ∧ (wU wG).txn.isOpen = false) ∧
    (FrontAloneAt (wF wG) 1 0 0 wG hU ∧ FrontDecodes ⟨hU, 1, true, 0, []⟩ wG ∧ wG.msq = none) ∧
    (FrontAt (wF wEnd) 1 0 0 wEnd ∧ FrontDecodes ⟨hU, 1, true, 0, []⟩ wEnd ∧ wEnd.msq = none ∧ (∀ u ∈ wEnd.lanes, u.life = .exited ∨ u.life = .empty) ∧
      (∀ e ∈ (wF wEnd).cores, ∀ x ∈ e.2.seeds, x.gid ≠ wEnd.id) ∧ (∀ r ∈ (wF wEnd).rays, r.gid ≠ wEnd.id) ∧ ∀ b ∈ (wF wEnd).beams, b.gid ≠ wEnd.id) := by
  unfold LaneDecodes FrontDecodes
  exact ⟨by decide, ⟨okG_alone wG_ok rfl, by decide⟩, ⟨okG_frontAlone wG_ok rfl, by decide⟩, ⟨rfl, rfl, rfl, nofun, rfl⟩, by decide⟩

theorem wit_SpecialRegisterWords : (StandAt (wL wG) 1 5 0 0 wG ∧ LaneDecodes ⟨hU, 1, false, 1, v1 63 ++ v1 0⟩ wG 5 ∧ srReadable false 0x14 ∧
      ∀ u ∈ wG.lanes, u.stand = 5 → u.front = false ∧ FlagsPlaced u ∧ ∀ n ∈ [0, 1, 4], srWritable n (u.reg 0)) ∧
    (FrontAt (wF wG) 1 0 0 wG ∧ FrontDecodes ⟨hU, 1, false, 1, []⟩ wG ∧ srReadable true 0x16 ∧ FlagsPlaced wG.front ∧ ∀ n ∈ [0, 1, 4], srWritable n (wG.front.reg 0)) := by
  refine ⟨⟨okG_stand wG_ok, ?_, ?_, fun u hu _ => ⟨?_, ?_, ?_⟩⟩, okG_front wG_ok, ?_, ?_, ?_, ?_⟩
  · unfold LaneDecodes; decide
  · unfold srReadable; decide
  · revert u; decide
  · intro x hx; simp [okG_noSeg wG_ok u hu] at hx
  · revert u; unfold srWritable; decide
  · unfold FrontDecodes; decide
  · unfold srReadable; decide
  · nofun
  · unfold srWritable; decide
/-- The grove with registers of its threads set. -/
def wR (r : List (Nat × Word)) : Grove := { wG with lanes := wG.lanes.map fun t => { t with regs := r }, front := { wG.front with regs := r } }

theorem wit_PredicateMaskHopWords : StandAt (wL wG) 1 5 0 0 wG ∧
    (∀ sh ∈ [(⟨hU, 1, true, 0, v2 62⟩ : Shape), ⟨hU, 1, true, 0, []⟩, ⟨hU, 1, false, 0, v1 63 ++ needA64 (.v 62) ++ v2 60⟩, ⟨hU, 2, false, 0, v1 63 ++ needA64 (.lit 0) ++ v2 60⟩,
        ⟨hU, 1, false, 0, []⟩, ⟨hU, 1, false, 0, v1 63⟩], LaneDecodes sh wG 5) ∧
    ∀ u ∈ wG.lanes, u.stand = 5 → ((wL wG).hopEnd wG.ctx (readA64 ((wL wG).env wG) u (.v 62)).toNat).isSome ∧ ((wL wG).hopEnd wG.ctx (u.pair 60).toNat).isSome := by
  unfold LaneDecodes
  exact ⟨okG_stand wG_ok, by decide⟩

/-- A strand of two threads, both in stand 5: a gathering. -/
def wGath : Grove := { wG with lanes := wG.lanes.map fun t => { t with team := 5, stand := 5 } }

theorem wit_CrossLaneWords : StandAt (wL wGath) 1 5 0 0 wGath ∧ Gathers wGath 5 ∧ NoneOpen wGath 5 ∧ (∀ u ∈ wGath.lanes, u.stand = 5 → (wL wGath).mayRun wGath u.core = true) ∧
    ∀ sh ∈ [(⟨hU, 1, false, 1, v1 63 ++ v1 62 ++ v1 0⟩ : Shape), ⟨hU, 1, false, 1, []⟩, ⟨hU, 1, false, 2, v2 62⟩, ⟨hU, 1, false, 1, v1 63 ++ v1 0⟩, ⟨hU, 1, false, 2, v2 62 ++ v2 0⟩,
      ⟨hU, 1, false, 16, [.v 48 16 16, .v 32 8 8, .v 24 8 8]⟩, ⟨hU, 1, false, 16, [.v 48 16 16, .v 32 4 4, .v 24 4 4]⟩, ⟨hU, 1, true, 0, []⟩], LaneDecodes sh wGath 5 := by
  have k : ∀ u ∈ wGath.lanes, u.seg = none := by decide
  exact ⟨⟨rfl, rfl, by decide, by decide, by decide, by decide, by decide⟩, ⟨by decide, by decide⟩, fun _ _ v hv _ _ => by simp [k v hv], by decide, by unfold LaneDecodes; decide⟩

/-- The highest word of the scratchpad allocation, 65,536 bytes, is in V0. -/
def wScr (n : Word) : Grove := wR [(0, n)]

theorem wit_ScratchLoads :
    (∀ p ∈ [(1, wScr 65532), (2, wScr 65528), (4, wScr 65520)], OneAt (wL p.2) 1 5 0 0 p.2 hU (wU p.2) ∧ LaneDecodes ⟨hU, lenA (.v 0), false, p.1, groupV 60 p.1 ++ needA (.v 0)⟩ p.2 5 ∧
      (wL p.2).acquiring p.2.id (some (wU p.2).tid) = false ∧ ScratchOk p.2 (scratchEa (readA ((wL p.2).env p.2) (wU p.2) (.v 0)) (0 * (4 * p.1)) 0) (4 * p.1) ∧
      ScratchClean p.2 (scratchSpot p.2 (wU p.2) (scratchEa (readA ((wL p.2).env p.2) (wU p.2) (.v 0)) (0 * (4 * p.1)) 0)) (4 * p.1)) ∧
    (let g := wScr 65532
     FrontAt (wF g) 1 0 0 g ∧ FrontDecodes ⟨hU, lenUA (.s 0), false, 1, []⟩ g ∧ g.front.guard hU = true ∧ (wF g).acquiring g.id none = false ∧
      ScratchOk g (scratchEa (readUA ((wF g).env g) g.front (.s 0)) 0 0) 4 ∧ ScratchClean g (scratchSpot g g.front (scratchEa (readUA ((wF g).env g) g.front (.s 0)) 0 0)) 4) := by
  refine ⟨fun p hp => ?_, ?_⟩
  · have k : okG p.2 = true ∧ (wU p.2).guard hU = true := by revert p; decide
    refine ⟨okG_one k.1 k.2, ?_⟩
    revert p; unfold LaneDecodes ScratchOk ScratchClean; decide
  · unfold FrontDecodes ScratchOk ScratchClean
    exact ⟨okG_front (by decide), by decide⟩

theorem wit_ScratchWrites :
    (∀ p ∈ [(1, wScr 65532), (2, wScr 65528), (4, wScr 65520)], OneAt (wL p.2) 1 5 0 0 p.2 hU (wU p.2) ∧ NoneOpen p.2 5 ∧ LaneDecodes ⟨hU, lenA (.v 0), false, 0, groupV 60 p.1 ++ needA (.v 0)⟩ p.2 5 ∧
      (wL p.2).acquiring p.2.id (some (wU p.2).tid) = false ∧ ScratchOk p.2 (scratchEa (readA ((wL p.2).env p.2) (wU p.2) (.v 0)) (0 * (4 * p.1)) 0) (4 * p.1)) ∧
    (let g := wScr 65532
     FrontAt (wF g) 1 0 0 g ∧ FrontFree (wF g) g ∧ FrontDecodes ⟨hU, lenUA (.s 0), false, 0, []⟩ g ∧ g.front.guard hU = true ∧ ScratchOk g (scratchEa (readUA ((wF g).env g) g.front (.s 0)) 0 0) 4) ∧
    (let g := wScr 65532
     OneAt (wL g) 1 5 0 0 g hU (wU g) ∧ NoneOpen g 5 ∧ LaneDecodes ⟨hU, lenA (.v 0), false, 1, v2 62 ++ needA (.v 0)⟩ g 5 ∧ (wL g).acquiring g.id (some (wU g).tid) = false ∧
      (wU g).txn.isOpen = false ∧ g.unlogged = true ∧ ScratchOk g (scratchEa (readA ((wL g).env g) (wU g) (.v 0)) 0 0) 4 ∧
      ScratchClean g (scratchSpot g (wU g) (scratchEa (readA ((wL g).env g) (wU g) (.v 0)) 0 0)) 4) := by
  have k : okG (wScr 65532) = true := by decide
  refine ⟨fun p hp => ?_, ⟨okG_front k, ⟨okG_noChecks k, rfl⟩, ?_⟩, okG_one k rfl, okG_noneOpen k 5, ?_⟩
  · have k : okG p.2 = true ∧ (wU p.2).guard hU = true := by revert p; decide
    refine ⟨okG_one k.1 k.2, okG_noneOpen k.1 5, ?_⟩
    revert p; unfold LaneDecodes ScratchOk; decide
  · unfold FrontDecodes ScratchOk; decide
  · unfold LaneDecodes ScratchOk ScratchClean; decide

/-- Registers 0 and 1 hold the address of the last line of the first page but one, 65,408 below 65,536 bytes. -/
def wMem (n : Word) : Grove := wR [(0, n)]

/-- A grove with a constant bank. -/
def wConst : Grove := { wR [(0, 65024)] with desc := { placedDesc with const := 256 } }

/-- A device whose core 0 holds a copy of line 0. -/
def wHit (g : Grove) : State := { wL g with cores := [(0, { Core.init with l1 := [⟨lineKey 0 0, 0, 100, 3, List.replicate 128 7⟩] })] }

theorem wit_GlobalLoads :
    (∀ p ∈ [(1, wMem 65532), (2, wMem 65528), (4, wMem 65520)],
      (OneAt (wL p.2) 1 5 0 0 p.2 hU (wU p.2) ∧ LaneDecodes ⟨hU, lenA (.v 0), false, p.1, groupV 60 p.1 ++ needA64 (.v 0)⟩ p.2 5 ∧ (wU p.2).txn.isOpen = false ∧
        (wL p.2).loadHeld p.2.id (some (wU p.2).tid) (laneEa (wL p.2) p.2 (wU p.2) (.v 0)) = false ∧ AddressOk (wL p.2) p.2.ctx (laneEa (wL p.2) p.2 (wU p.2) (.v 0)) (4 * p.1) ∧
        NotInL1 (wL p.2) p.2 (wU p.2) (laneEa (wL p.2) p.2 (wU p.2) (.v 0)) p.1 .normal) ∧
      FrontAt (wF p.2) 1 0 0 p.2 ∧ FrontDecodes ⟨hU, lenUA (.s 0), false, p.1, groupS 28 p.1 ++ needUA64 (.s 0)⟩ p.2 ∧ p.2.front.guard hU = true ∧ p.2.front.txn.isOpen = false ∧
        (wF p.2).loadHeld p.2.id none (frontEa (wF p.2) p.2 (.s 0) 0) = false ∧ AddressOk (wF p.2) p.2.ctx (frontEa (wF p.2) p.2 (.s 0) 0) (4 * p.1) ∧
        NotInL1 (wF p.2) p.2 p.2.front (frontEa (wF p.2) p.2 (.s 0) 0) p.1 .normal) ∧
    (let g := wConst
     FrontAt (wF g) 1 0 0 g ∧ FrontDecodes ⟨hU, lenUA (.s 0), false, 1, []⟩ g ∧ g.front.guard hU = true ∧ g.front.txn.isOpen = false ∧ g.desc.const ≠ 0 ∧
      ((readUA ((wF g).env g) g.front (.s 0)).toNat + 4 * 127) % 4 = 0 ∧ (readUA ((wF g).env g) g.front (.s 0)).toNat + 4 * 127 < 65536 ∧
      (wF g).loadHeld g.id none (g.desc.const + (readUA ((wF g).env g) g.front (.s 0)).toNat + 4 * 127) = false ∧
      AddressOk (wF g) g.ctx ((g.desc.const + ((readUA ((wF g).env g) g.front (.s 0)).toNat + 4 * 127)) % 2 ^ 64) 4) ∧
    (let g := wR [(0, 65024)]
     FrontAt (wF g) 1 0 0 g ∧ FrontDecodes ⟨hU, lenUA (.s 0), false, 1, []⟩ g ∧ g.front.guard hU = true ∧ g.desc.const = 0 ∧ ((readUA ((wF g).env g) g.front (.s 0)).toNat + 4 * 127) % 4 = 0 ∧
      (readUA ((wF g).env g) g.front (.s 0)).toNat + 4 * 127 < 65536 ∧ (wF g).loadHeld g.id none ((readUA ((wF g).env g) g.front (.s 0)).toNat + 4 * 127) = false) ∧
    (∀ n ∈ [1, 2, 4], ((wHit wG).l1Words wG 0 0 (0 % 2 ^ 54) 0 n).isSome = true) ∧ OneAt (wHit wG) 1 5 0 0 wG hU (wU wG) ∧ (wHit wG).homeOf wG.ctx (laneEa (wHit wG) wG (wU wG) (.v 0)) = .phys 0 ∧
      laneEa (wHit wG) wG (wU wG) (.v 0) = 0 ∧ (wHit wG).loadHeld wG.id (some (wU wG).tid) 0 = false ∧ usesL1 .normal = true := by
  have kc : okG wConst = true := by decide
  have kr : okG (wR [(0, 65024)]) = true := by decide
  have o := okG_one (h := hU) wG_ok rfl
  refine ⟨fun p hp => ?_, ⟨okG_front kc, ?_⟩, ⟨okG_front kr, ?_⟩, by decide, ⟨⟨rfl, rfl, o.at_.distinct, o.at_.member, o.at_.whole, o.at_.team, o.at_.mates⟩, o.member, o.inStand, o.one⟩, by decide⟩
  · have k : okG p.2 = true ∧ (wU p.2).guard hU = true := by revert p; decide
    have n : ∀ h, (wL p.2).l1Words p.2 (wU p.2).core h (laneEa (wL p.2) p.2 (wU p.2) (.v 0) % 2 ^ 54) (laneEa (wL p.2) p.2 (wU p.2) (.v 0)) p.1 = none := fun _ => rfl
    have m : ∀ h, (wF p.2).l1Words p.2 p.2.front.core h (frontEa (wF p.2) p.2 (.s 0) 0 % 2 ^ 54) (frontEa (wF p.2) p.2 (.s 0) 0) p.1 = none := fun _ => rfl
    refine ⟨⟨okG_one k.1 k.2, ?_, ?_, ?_, ?_, fun h _ _ => n h⟩, okG_front k.1, ?_, ?_, ?_, ?_, ?_, fun h _ _ => m h⟩ <;> clear n m k <;> revert p <;>
      (try unfold LaneDecodes) <;> (try unfold FrontDecodes) <;> (try unfold AddressOk) <;> decide
  · unfold FrontDecodes AddressOk; decide
  · unfold FrontDecodes; decide

theorem wit_GlobalStores :
    ∀ p ∈ [(1, wMem 65532), (2, wMem 65528), (4, wMem 65520)],
      (OneAt (wL p.2) 1 5 0 0 p.2 hU (wU p.2) ∧ NoneOpen p.2 5 ∧ LaneDecodes ⟨hU, lenA (.v 0), false, 0, groupV 60 p.1 ++ needA64 (.v 0)⟩ p.2 5 ∧ (wU p.2).txn.isOpen = false ∧
        (wL p.2).acquiring p.2.id (some (wU p.2).tid) = false ∧ AddressOk (wL p.2) p.2.ctx (laneEa (wL p.2) p.2 (wU p.2) (.v 0)) (4 * p.1)) ∧
      FrontAt (wF p.2) 1 0 0 p.2 ∧ FrontFree (wF p.2) p.2 ∧ FrontDecodes ⟨hU, lenUA (.s 0), false, 0, groupS 28 p.1 ++ needUA64 (.s 0)⟩ p.2 ∧ p.2.front.guard hU = true ∧
        p.2.front.txn.isOpen = false ∧ AddressOk (wF p.2) p.2.ctx (frontEa (wF p.2) p.2 (.s 0) 0) (4 * p.1) := by
  intro p hp
  have k : okG p.2 = true ∧ (wU p.2).guard hU = true := by revert p; decide
  refine ⟨⟨okG_one k.1 k.2, okG_noneOpen k.1 5, ?_⟩, okG_front k.1, ⟨okG_noChecks k.1, rfl⟩, ?_⟩
  · revert p; unfold LaneDecodes AddressOk; decide
  · revert p; unfold FrontDecodes AddressOk; decide

theorem wit_GlobalAtomics :
    (∀ f ∈ [AtFn.add, .cas], let g := wMem 65532
      OneAt (wL g) 1 5 0 0 g hU (wU g) ∧ NoneOpen g 5 ∧ LaneDecodes ⟨hU, lenA (.v 0), false, 1, groupV 62 (operandsOf f) ++ needA64 (.v 0)⟩ g 5 ∧
      FrontAt (wF g) 1 0 0 g ∧ FrontFree (wF g) g ∧ FrontDecodes ⟨hU, lenUA (.s 0), false, 1, groupS 30 (operandsOf f) ++ needUA64 (.s 0)⟩ g) ∧
    (∀ f ∈ [AtxFn.add64, .xchg64, .cas64, .xadd, .radd, .radd64, .ror, .rnmax], let g := wMem 65520
      OneAt (wL g) 1 5 0 0 g hU (wU g) ∧ NoneOpen g 5 ∧ LaneDecodes ⟨hU, lenA (.v 0), false, (atxRow f).2.2, groupV 60 (atxRow f).2.1 ++ needA64 (.v 0)⟩ g 5 ∧
      AddressOk (wL g) g.ctx (laneEa (wL g) g (wU g) (.v 0)) (atxRow f).1) ∧
    (let g := wMem 65532
     (wU g).txn.isOpen = false ∧ (wL g).acquiring g.id (some (wU g).tid) = false ∧ AddressOk (wL g) g.ctx (laneEa (wL g) g (wU g) (.v 0)) 4 ∧ AddressOk (wF g) g.ctx (frontEa (wF g) g (.s 0) 0) 4) ∧
    ∀ (g : Grove) (u : Thread) (ea n : Nat), NotInL1Atomic (wL g) g u ea n .device .relaxed ∧ NotInL1Atomic (wF g) g u ea n .device .relaxed := by
  have k : okG (wMem 65532) = true := by decide
  have k2 : okG (wMem 65520) = true := by decide
  refine ⟨fun f hf => ⟨okG_one k rfl, okG_noneOpen k 5, ?_, okG_front k, ⟨okG_noChecks k, rfl⟩, ?_⟩, fun f hf => ⟨okG_one k2 rfl, okG_noneOpen k2 5, ?_⟩, ?_, fun g u ea n => ⟨fun h _ => ?_, fun h _ => ?_⟩⟩
  · revert f; unfold LaneDecodes; decide
  · revert f; unfold FrontDecodes; decide
  · revert f; unfold LaneDecodes AddressOk; decide
  · unfold AddressOk; decide
  all_goals simp [State.l1Atomic]

theorem wit_Prefetches : let g := wMem 65535
    (OneAt (wL g) 1 5 0 0 g hU (wU g) ∧ LaneDecodes ⟨hU, lenA (.v 0), false, 0, needA64 (.v 0)⟩ g 5 ∧ NoneOpen g 5 ∧ (wL g).acquiring g.id (some (wU g).tid) = false ∧
      (wL g).homeOf g.ctx (laneEa (wL g) g (wU g) (.v 0)) = .phys 0) ∧
    FrontAt (wF g) 1 0 0 g ∧ FrontDecodes ⟨hU, lenUA (.s 0), false, 0, needUA64 (.s 0)⟩ g ∧ g.front.guard hU = true ∧ FrontFree (wF g) g := by
  have k : okG (wMem 65535) = true := by decide
  refine ⟨⟨okG_one k rfl, ?_, okG_noneOpen k 5, ?_⟩, okG_front k, ?_, ?_, okG_noChecks k, rfl⟩
  · unfold LaneDecodes; decide
  · decide
  · unfold FrontDecodes; decide
  · rfl

/-- Two threads of one stand whose guards are true, at the last words of the scratchpad and of a page. -/
def wTwo : Grove := { wGath with lanes := wGath.lanes.map fun t => { t with regs := [(0, 65528)] } }

theorem wit_TwoActive : StandAt (wL wTwo) 1 5 0 0 wTwo ∧ NoneOpen wTwo 5 ∧ (activeOf wTwo 5 hU).length = 2 ∧ wTwo.unlogged = true ∧
    (∀ sh ∈ [(⟨hU, lenA (.v 0), false, 1, groupV 60 1 ++ needA (.v 0)⟩ : Shape), ⟨hU, lenA (.v 0), false, 2, groupV 60 2 ++ needA64 (.v 0)⟩, ⟨hU, lenA (.v 0), false, 0, groupV 60 2 ++ needA64 (.v 0)⟩],
      LaneDecodes sh wTwo 5) ∧
    ∀ u ∈ activeOf wTwo 5 hU, u.txn.isOpen = false ∧ (wL wTwo).acquiring wTwo.id (some u.tid) = false ∧
      ScratchOk wTwo (scratchEa (readA ((wL wTwo).env wTwo) u (.v 0)) 0 0) 4 ∧ ScratchClean wTwo (scratchSpot wTwo u (scratchEa (readA ((wL wTwo).env wTwo) u (.v 0)) 0 0)) 4 ∧
      (wL wTwo).loadHeld wTwo.id (some u.tid) (laneEa (wL wTwo) wTwo u (.v 0)) = false ∧ AddressOk (wL wTwo) wTwo.ctx (laneEa (wL wTwo) wTwo u (.v 0)) 8 ∧
      NotInL1Atomic (wL wTwo) wTwo u (laneEa (wL wTwo) wTwo u (.v 0)) 4 .device .relaxed := by
  have k : ∀ u ∈ wTwo.lanes, u.seg = none := by decide
  refine ⟨⟨rfl, rfl, by decide, by decide, by decide, by decide, by decide⟩, fun _ _ v hv _ _ => by simp [k v hv], by decide, rfl, by unfold LaneDecodes; decide, fun u hu => ?_⟩
  have n : NotInL1Atomic (wL wTwo) wTwo u (laneEa (wL wTwo) wTwo u (.v 0)) 4 .device .relaxed := fun h _ => by simp [State.l1Atomic]
  refine and_assoc.mp (and_assoc.mp (and_assoc.mp (and_assoc.mp (and_assoc.mp ⟨?_, n⟩))))
  clear n
  revert u
  unfold ScratchOk ScratchClean AddressOk
  decide
/-- The device with data instead of code in every domain of context 0. -/
def wData (s : State) : State := s.setCsrRaw 0 0x10 2

/-- A request of thread 0 of grove 1 that has reached its home: the last word of line 511, 32 bytes for a TRACE. -/
def wReq (op : ReqOp) (o : Order) (data : List Word) (regs : List Reg) : Req where
  id := 3
  gid := 1
  front := false
  tid := 0
  core := 0
  idx := 0
  pc := 0
  op := op
  va := if op = .trace false then 65408 else 65532
  dest := .phys 0
  size := if op = .trace false then 32 else 4
  atOwner := false
  atHost := none
  after := 0
  hint := .normal
  scope := .device
  order := o
  data := data
  daz := false
  regs := regs
  released := decide (o ≠ .release)
  sent := false
  answer := none
  txn := false

/-- The device while a request is on its way, GT at 50. -/
def wAt (r : Req) : State := { wData (wL wG) with cur := .none, reqs := [r], gt := 50 }

theorem wAt_home (r : Req) (k : AccKind) (h1 : r.id = 3) (h2 : 0 < r.size) (h3 : r.answer = none) (h4 : r.gid = 1)
    (h5 : r.dest = .phys 0) (h8 : r.after = 0) (h6 : (wAt r).fate wG.ctx false k 0 (r.va % 2 ^ 54) = .ok r.va 2) : AtHome (wAt r) 3 r wG 0 r.va 2 k := by
  refine ⟨?_, h2, h3, ?_, h5, h6, ?_, by simp [h8], ?_, ?_⟩
  · simp [State.req?, wAt, h1]
  · rw [h4]; rfl
  · exact ⟨rfl, rfl⟩
  · rfl
  · rfl

theorem wit_LoadsAtHome : (let r := wReq .load .relaxed [] [.gpr 1]
      AtHome (wAt r) 3 r wG 0 65532 2 .load ∧ r.op = .load ∧ r.txn = false ∧ wG.verify ≠ 2 ∧ ∀ i < r.size, tabGet false (wAt r).poison ((65532 + i) / 32) = false) ∧
    (∃ x : Store, x.line = 0 ∧ (wL wG).gt < x.vt) := by
  refine ⟨⟨wAt_home _ .load rfl (by decide) rfl rfl rfl rfl (by decide), rfl, rfl, by decide, fun _ _ => rfl⟩, ⟨7, 0, 1, some 0, false, []⟩, rfl, by decide⟩

theorem wit_ValuesReturn : let r := { wReq .load .relaxed [] [.gpr 1] with answer := some [5] }
    (wAt r).req? 3 = some r ∧ r.answer = some [5] ∧ (wAt r).clocked (r.core / 128) = true := ⟨rfl, rfl, rfl⟩

theorem wit_WritesAtHome : (∀ o ∈ [Order.relaxed, .release], let r := wReq .store o [5] []
      AtHome (wAt r) 3 r wG 0 65532 2 .store ∧ r.op = .store ∧ wG.verify = 0 ∧ (wAt r).mayPerform r = true ∧ (wAt r).writeWaits wG r = false) ∧
    ∀ p ∈ [(ReqOp.atom .add, [Reg.gpr 1]), (.atom .cas, [.gpr 1]), (.atomx .radd, [])], let r := wReq p.1 .relaxed [5, 6] p.2
      AtHome (wAt r) 3 r wG 0 65532 2 .store ∧ r.va < 2 ^ 64 ∧ wG.verify = 0 ∧ wG.desc.mode = 0 ∧ (wAt r).mayPerform r = true ∧ (wAt r).writeWaits wG r = false ∧
      (∀ i < r.size, tabGet false (wAt r).poison ((65532 + i) / 32) = false) ∧ (∀ f, r.op = .atom f → r.size = 4) ∧ r.op.isAtomic = true := by
  refine ⟨fun o ho => ?_, fun p hp => ?_⟩
  · simp only [List.mem_cons, List.not_mem_nil, or_false] at ho
    rcases ho with rfl | rfl <;> exact ⟨wAt_home _ .store rfl (by decide) rfl rfl rfl rfl (by decide), by decide⟩
  · simp only [List.mem_cons, List.not_mem_nil, or_false] at hp
    rcases hp with rfl | rfl | rfl <;>
      exact ⟨wAt_home _ .store rfl (by decide) rfl rfl rfl rfl (by decide), by decide, rfl, rfl, by decide, by decide, fun _ _ => rfl, fun _ _ => rfl, rfl⟩

/-- A segment of one word that has ended, its result returned. -/
def wSeg : Seg where
  words := 1
  pcs := [0]
  results := [⟨0, .gpr 1, false, some 5⟩]
  nvar := 1
  writes := []
  flags := []
  checks := []
  trap := none
  park := none
  abort := none
  ctl := (wU wG).ctl
  moved := false
  fin := .ended
  start := []
  limit := none

/-- A grove whose threads in stand 5 and whose front thread have an ended segment. -/
def wEnded : Grove := { wG with lanes := wG.lanes.map fun t => if t.tid = 0 then { t with seg := some wSeg } else t, front := { wG.front with seg := some wSeg } }

theorem wit_SegmentCommits : (wL wEnded).grove? 1 = some wEnded ∧ (wL wEnded).mayRun wEnded wEnded.front.core = true ∧ EndsPlainly wEnded.front ∧ wEnded.front.commitReady = true ∧
    ∃ u ∈ wEnded.lanes, (wL wEnded).mayRun wEnded u.core = true ∧ (wEnded.lanes.map Thread.tid).Nodup ∧ (∀ v ∈ wEnded.lanes, v.team = u.team → EndsPlainly v ∧ ∀ x, v.seg = some x → x.checks = []) ∧
      u.commitReady = true := by
  have k : ∀ u ∈ wEnded.lanes, u.seg = none ∨ u.seg = some wSeg := by decide
  have e : ∀ u : Thread, u.seg = none ∨ u.seg = some wSeg → EndsPlainly u ∧ ∀ x, u.seg = some x → x.checks = [] := by
    rintro u (h | h) <;> refine ⟨fun x hx => ?_, fun x hx => ?_⟩ <;> rw [h] at hx <;> cases hx <;> decide
  refine ⟨rfl, rfl, (e _ (.inr rfl)).1, rfl, _, List.mem_cons_self, rfl, by decide, fun v hv _ => e v (k v hv), rfl⟩

theorem wit_JunctionPeersHost : (let x : Store := ⟨7, 0, 60, some 3, false, [(5, 1)]⟩
      let s := { wBase with pend := [x], junction := [(0, 7, 60)] }
      s.clocked (0 / 32) = true ∧ (s.pend.find? fun y => y.id == 7) = some x ∧ x.shared = false ∧ x.core = some 3 ∧ 3 / 4 = 0 ∧
        ∀ y ∈ ({ s with pend := [{ x with shared := true }] } : State).pend, y.id = 7 → y.shared = true ∨ y.core.map (· / 4) ≠ some 0) ∧
    ∀ c ∈ [0, 1, 2], let s := { wBase with hostReqs := [(7, c)] }
    c < 3 ∧ (List.replicate 128 (1 : Byte)).length = 128 ∧ (∀ e ∈ s.hostReqs, e.1 = 7 → e = (7, c)) ∧ (7, c) ∈ s.hostReqs :=
  ⟨by decide, fun c hc => ⟨by revert c; decide, List.length_replicate, fun e he _ => by simpa using he, List.mem_cons_self⟩⟩

/-- A grove with a live entry of count 2 at index 31 of its barrier table, one arrival counted when a is 1, phase p; threads hold its handle in register 0 and the phase to wait for in 1. -/
def wBar (a p q : Nat) : Grove := { wR [(0, 0x0030001F), (1, BitVec.ofNat 32 q)] with bars := [(31, ⟨3, true, 2, a, 0, p⟩)] }

/-- The device with a live entry at index 4095 of context 0's device table. -/
def wDev (s : State) (a : Nat) : State := { s with dbars := [(4095, ⟨3, true, 2, a, 0, 0⟩)] }

theorem wit_BarrierWords :
    (∀ g ∈ [wBar 0 0 0, wBar 1 0xFFFFFFFF 0xFFFFFFFF, wBar 1 5 4, wBar 1 5 5], OneAt (wL g) 1 5 0 0 g hU (wU g) ∧ NoneOpen g 5 ∧ (wU g).txn.isOpen = false ∧
      (∀ v ∈ g.lanes, v.team = (wU g).team → EndsPlainly v) ∧
      (∃ b, EntryOf (wL g) g ((wU g).reg 0).toNat b ∧ b.arr ≠ b.count) ∧ (wL g).releaseMet g.id (some (wU g).tid) (wU g).core .grove (wL g).nextId = true ∧
      (∀ sh ∈ [(⟨hU, 1, true, 0, v1 0⟩ : Shape), ⟨hU, 1, false, 0, v1 0⟩, ⟨hU, 1, true, 0, v1 0 ++ v1 1⟩], LaneDecodes sh g 5) ∧
      FrontAt (wF g) 1 0 0 g ∧ g.front.guard hU = true ∧ (∀ x, g.front.seg = some x → x.checks = []) ∧ g.front.txn.isOpen = false ∧
      (∃ b, EntryOf (wF g) g (g.front.reg 0).toNat b ∧ b.arr ≠ b.count) ∧ (wF g).releaseMet g.id none g.front.core .grove (wF g).nextId = true ∧
      ∀ e ∈ [true, false], FrontDecodes ⟨hU, 1, e, 0, []⟩ g) ∧
    -- a device entry
    (let g := wR [(0, 0x00380FFF)]
     EntryOf (wDev (wL g) 1) g ((wU g).reg 0).toNat ⟨3, true, 2, 1, 0, 0⟩ ∧ (wDev (wL g) 1).releaseMet g.id (some (wU g).tid) (wU g).core .device (wL g).nextId = true) := by
  refine ⟨fun g hg => ?_, by unfold EntryOf; decide⟩
  have k : okG g = true ∧ (wU g).guard hU = true := by revert g; decide
  refine ⟨okG_one k.1 k.2, okG_noneOpen k.1 5, ?_, fun v hv _ x hx => by simp [okG_noSeg k.1 v hv] at hx, ⟨tabGet Barrier.init g.bars 31, ?_⟩, ?_, ?_, okG_front k.1, ?_, okG_noChecks k.1, ?_, ⟨tabGet Barrier.init g.bars 31, ?_⟩, ?_, ?_⟩ <;>
    clear k <;> revert g <;> (try unfold EntryOf) <;> (try unfold LaneDecodes) <;> (try unfold FrontDecodes) <;> decide

/-- Full tables of barrier entries. -/
def wFull : Grove := { wR [(3, 1048576)] with bars := (List.range 32).map fun k => (k, ⟨0, true, 1, 0, 0, 0⟩) }

theorem wit_BarrierTable :
    (∀ g ∈ [wR [(3, 1)], wR [(3, 1048576)], wFull, wBar 0 0 0, wBar 1 0 0], FrontAt (wF g) 1 0 0 g ∧ g.front.guard hU = true ∧ (∀ x, g.front.seg = some x → x.checks = []) ∧
      FrontDecodes ⟨hU, 1, false, 1, []⟩ g ∧ FrontDecodes ⟨hU, 1, false, 0, []⟩ g) ∧
    (∀ g ∈ [wR [(3, 1)], wR [(3, 1048576)]], 1 ≤ (g.front.reg 3).toNat ∧ (g.front.reg 3).toNat ≤ 2 ^ 20 ∧ (tabGet Barrier.init g.bars 0).live = false) ∧
    (1 ≤ (wFull.front.reg 3).toNat ∧ (wFull.front.reg 3).toNat ≤ 2 ^ 20 ∧ ∀ k < 32, (tabGet Barrier.init wFull.bars k).live = true) ∧
    ∀ g ∈ [wBar 0 0 0, wBar 1 0 0], ∃ e, EntryOf (wF g) g (g.front.reg 0).toNat e ∧ e.pend + (g.front.reg 1).toNat < 2 ^ 39 ∧ -2 ^ 39 ≤ e.pend + (g.front.reg 1).toNat := by
  refine ⟨fun g hg => ?_, by decide, by decide, fun g hg => ⟨tabGet Barrier.init g.bars 31, ?_⟩⟩
  · have k : okG g = true ∧ g.front.guard hU = true := by revert g; decide
    refine ⟨okG_front k.1, k.2, okG_noChecks k.1, ?_⟩
    clear k; revert g; unfold FrontDecodes; decide
  · revert g; unfold EntryOf; decide
/-- The grove with what its threads wait for changed. -/
def wW (v : Wait) (f : Wait) : Grove := { wG with lanes := wG.lanes.map fun t => if t.tid = 0 then { t with wait := v, stand := 0 } else t, front := { wG.front with wait := f } }

/-- A device with a grove and no word being issued, GT at 50. -/
def wD (g : Grove) : State := { wBase with groves := [g], gt := 50 }

theorem wit_WaitWords : (StandAt (wL wG) 1 5 0 0 wG ∧ LaneDecodes ⟨hU, 1, true, 0, []⟩ wG 5 ∧ NoneOpen wG 5 ∧ ∀ u ∈ wG.lanes, u.stand = 5 → u.txn.isOpen = false) ∧
    (FrontAt (wF wG) 1 0 0 wG ∧ FrontDecodes ⟨hU, 1, true, 0, []⟩ wG ∧ (∀ x, wG.front.seg = some x → x.checks = []) ∧ wG.front.txn.isOpen = false) ∧
    (∀ p ∈ [Scope.plain, .grove, .die, .device, .system], let g := wW (.fence p) (.fence p)
      (wD g).grove? 1 = some g ∧ g.thread? (some 0) = some (wU g) ∧ (wU g).wait = .fence p ∧ (wD g).releaseMet 1 (some 0) (wU g).core p (wD g).nextId = true ∧
        g.thread? none = some g.front ∧ g.front.wait = .fence p ∧ (wD g).releaseMet 1 none g.front.core p (wD g).nextId = true) ∧
    FrontDecodes ⟨hU, 1, true, 0, [.s 30 2 2]⟩ wG ∧
    (let g := wW .none (.until 50)
     (wD g).grove? 1 = some g ∧ g.front.wait = .until 50 ∧ 50 ≤ (wD g).gt % 2 ^ 64) := by
  unfold LaneDecodes FrontDecodes
  exact ⟨⟨okG_stand wG_ok, by decide, okG_noneOpen wG_ok 5, by decide⟩, ⟨okG_front wG_ok, by decide, okG_noChecks wG_ok, rfl⟩, by decide⟩

/-- The grove of a COGRID launch of superstep kernels, its threads with the waits given. -/
def wGrid (v f : Wait) : Grove := { wG with desc := { placedDesc with cogrid := true, superstep := true }, lanes := wG.lanes.map fun t => { t with wait := v }, front := { wG.front with wait := f } }

/-- The grove in which every other thread waits at GBAR 1 already. -/
def wLast : Grove := { wGrid .none .none with lanes := (wGrid .none .none).lanes.map fun t => if t.tid = 0 then t else { t with wait := .gbar 1 0, gbars := 1 } }

theorem wit_GridWaits :
    (∀ g ∈ [wGrid .none .none, wLast], OneAt (wL g) 1 5 0 0 g hU (wU g) ∧ LaneDecodes ⟨hU, 1, true, 0, []⟩ g 5 ∧ NoneOpen g 5 ∧ (∀ v ∈ g.lanes, v.team = (wU g).team → EndsPlainly v) ∧ (wU g).txn.isOpen = false ∧ g.desc.cogrid = true ∧
      (wU g).seedling = false ∧ g.node = false ∧ (wU g).again = none ∧ ((wL g).groves.map Grove.id).Nodup ∧ (wL g).releaseMet g.id (some (wU g).tid) (wU g).core .device (wL g).nextId = true ∧
      gridArrived (wL g) g (wU g) 1 = decide (g = wLast)) ∧
    (let g := wGrid .none .none
     FrontAt (wF g) 1 0 0 g ∧ FrontDecodes ⟨hU, 1, true, 0, []⟩ g ∧ g.front.guard hU = true ∧ (∀ x, g.front.seg = some x → x.checks = []) ∧ g.desc.superstep = true ∧ g.front.again = none) ∧
    (let g := wGrid .none (.sstep 1 false 0)
     (wD g).grove? 1 = some g ∧ g.front.wait = .sstep 1 false 0 ∧ g.msq = none ∧ g.loads = [] ∧ (∀ c ∈ (wD g).cmds, c.gid ≠ g.id) ∧ (∀ b ∈ (wD g).beams, b.gid ≠ g.id) ∧
      (wD g).releaseMet g.id none g.front.core .system (wD g).nextId = true) ∧
    (let g := { wGrid .none (.sstep 1 true 0) with front := { (wGrid .none (.sstep 1 true 0)).front with arrived := 1, arriveGt := 30 } }
     (wD g).grove? 1 = some g ∧ g.front.wait = .sstep 1 true 0 ∧ ((wD g).launches.find? fun l => l.id == g.launch) = none ∧
      (∀ o ∈ (wD g).groves, o.launch = g.launch → o.node = false → (o.verify ≠ 2 ∨ o.id = g.id) → 1 ≤ o.front.arrived ∧ (o.front.arrived = 1 → o.front.arriveGt ≤ (wD g).gt)) ∧ g.node = false) := by
  have k1 : okG (wGrid .none .none) = true := by decide
  have k : ∀ g ∈ [wGrid .none .none, wLast], okG g = true ∧ (wU g).guard hU = true := by decide
  refine ⟨fun g hg => ⟨okG_one (k g hg).1 (k g hg).2, ?_, okG_noneOpen (k g hg).1 5, fun v hv _ x hx => by simp [okG_noSeg (k g hg).1 v hv] at hx, ?_⟩, ⟨okG_front k1, ?_, rfl, okG_noChecks k1, rfl, rfl⟩, by decide, by decide⟩
  · clear k; revert g; unfold LaneDecodes; decide
  · clear k; revert g; decide
  · unfold FrontDecodes; decide

/-- A decision queue of n records, closed or not, thread 0 at the first. -/
def wDq (n : Nat) (c : Bool) : Grove := { wG with dq := (List.range n).map fun i => (i, [1, 2, 3, 4]), dqNext := n, dqClosed := c }

theorem wit_DecisionQueue :
    (∀ n ∈ [0, 63], let g := wDq n false
      FrontAt (wF g) 1 0 0 g ∧ FrontDecodes ⟨hU, 1, false, 0, [.s 28 4 4]⟩ g ∧ FrontDecodes ⟨hU, 1, false, 0, []⟩ g ∧ g.front.guard hU = true ∧ (∀ x, g.front.seg = some x → x.checks = []) ∧
        g.dqClosed = false ∧ g.unfreed < 64) ∧
    (∀ g ∈ [wDq 1 false, wDq 0 false, wDq 0 true], OneAt (wL g) 1 5 0 0 g hU (wU g) ∧ LaneDecodes ⟨hU, 1, false, 5, [.v 60 4 4]⟩ g 5 ∧ NoneOpen g 5 ∧ (wU g).seedling = false ∧
      ∀ ws, g.dq.lookup (wU g).dqPos = some ws → ws.length = 4) ∧
    ∃ u ∈ (wW (.dqpop 60) .none).lanes, u.wait = .dqpop 60 := by
  have k0 : ∀ n ∈ [0, 63], okG (wDq n false) = true := by decide
  have k : ∀ g ∈ [wDq 1 false, wDq 0 false, wDq 0 true], okG g = true ∧ (wU g).guard hU = true := by decide
  refine ⟨fun n hn => ⟨okG_front (k0 n hn), ?_, ?_, ?_, okG_noChecks (k0 n hn), ?_⟩, fun g hg => ⟨okG_one (k g hg).1 (k g hg).2, ?_, okG_noneOpen (k g hg).1 5, ?_, ?_⟩, ?_⟩
  · clear k0; revert n; unfold FrontDecodes; decide
  · clear k0; revert n; unfold FrontDecodes; decide
  · clear k0; revert n; decide
  · clear k0; revert n; decide
  · clear k; revert g; unfold LaneDecodes; decide
  · clear k; revert g; decide
  · simp only [List.mem_cons, List.not_mem_nil, or_false] at hg
    rcases hg with rfl | rfl | rfl <;> intro ws h
    · simp only [show (wDq 1 false).dq.lookup (wU (wDq 1 false)).dqPos = some [1, 2, 3, 4] from rfl, Option.some.injEq] at h
      exact h ▸ rfl
    all_goals cases h
  · decide

/-- The grove whose lane threads have a transaction open or closed, with conflicts counted, lines written and bytes buffered. -/
def wTx (x : Txn) : Grove := { wR [(0, 256)] with lanes := (wR [(0, 256)]).lanes.map fun t => { t with txn := x } }

/-- A transaction that has written line 1 and reads line 2. -/
def wTxn (op ser : Bool) (n : Nat) : Txn where
  isOpen := op
  serial := ser
  cause := 0
  nconf := n
  code := 0
  target := 9
  reads := if op then [(2, 0)] else []
  wlines := if op then [1] else []
  buf := if op then [(128, 1), (129, 2), (130, 3), (131, 4)] else []
  eretTo := none

theorem wit_TransactionWords :
    (∀ g ∈ [wTx (wTxn false false 7), wTx (wTxn false false 8)], StandAt (wL g) 1 5 0 0 g ∧ LaneDecodes ⟨hU, 1, true, 0, []⟩ g 5 ∧ NoneOpen g 5 ∧ ∀ u ∈ g.lanes, u.stand = 5 → u.txn.isOpen = false) ∧
    (let g := wTx (wTxn true false 0)
     StandAt (wL g) 1 5 0 0 g ∧ LaneDecodes ⟨hU, 1, true, 0, []⟩ g 5 ∧ NoneOpen g 5 ∧ (∀ u ∈ g.lanes, u.stand = 5 → u.guard hU = true → u.txn.isOpen = true) ∧
      (∀ u ∈ g.lanes, ∀ v ∈ g.lanes, u.stand = 5 → v.stand = 5 → u.guard hU = true → v.guard hU = true → u.strand = v.strand → v.lane < u.lane → u.txn.serial = true ∨ ¬ TxnConflict u.txn v.txn) ∧
      AloneAt (wL g) 1 5 0 0 g hU (wU g) ∧ (wU g).txn.isOpen = true) := by
  have k : ∀ g ∈ [wTx (wTxn false false 7), wTx (wTxn false false 8)], okG g = true := by decide
  have k1 : okG (wTx (wTxn true false 0)) = true := by decide
  refine ⟨fun g hg => ⟨okG_stand (k g hg), ?_, okG_noneOpen (k g hg) 5, ?_⟩, okG_stand k1, ?_, okG_noneOpen k1 5, by decide, ?_, okG_alone k1 rfl, rfl⟩
  · clear k; revert g; unfold LaneDecodes; decide
  · clear k; revert g; decide
  · unfold LaneDecodes; decide
  · intro u hu v hv h1 h2 _ _ _ hl
    have m := okG_member k1
    rw [m.2.2 u hu h1, m.2.2 v hv h2] at hl
    exact absurd hl (Nat.lt_irrefl _)

/-- The grove whose thread 0 waits at TEND, for the end of its commit, or for the serial token, its lines in domains it may write. -/
def wTw (x : Txn) (w : Wait) : Grove := { wTx x with lanes := (wTx x).lanes.map fun t => if t.tid = 0 then { t with wait := w } else t }

theorem wit_TransactionCommit :
    (let g := { wTw (wTxn true false 0) (.tend true) with lanes := (wTw (wTxn true false 0) (.tend true)).lanes.map fun t => { t with seg := some { wSeg with results := [] } } }
     (wD g).grove? 1 = some g ∧ g.thread? (some 0) = some (wU g) ∧ (wU g).wait = .tend true ∧ (wU g).seg = some { wSeg with results := [] } ∧
      (wD g).releaseMet 1 (some 0) (wU g).core .device (wD g).nextId = true) ∧
    (let g := wTw { wTxn true false 0 with reads := [] } (.tend false)
     let s := wData (wD g)
     s.grove? 1 = some g ∧ g.thread? (some 0) = some (wU g) ∧ (wU g).wait = .tend false ∧ g.desc.mode = 0 ∧ g.verify = 0 ∧ s.releaseMet 1 (some 0) (wU g).core .device s.nextId = true ∧
      s.verdict g (wU g) 0 = .go 51 ∧ (wU g).txn.lines = [1] ∧ 1 ∈ (wU g).txn.wlines ∧ s.homeOf g.ctx (1 * 128) = .phys 0 ∧ s.fate g.ctx false .store 0 (1 * 128 % 2 ^ 54) = .ok 128 2) ∧
    (let g := wTw (wTxn true false 0) (.commit 30)
     (wD g).thread? 1 (some 0) = some (wU g) ∧ (wU g).wait = .commit 30 ∧ 30 + 20 ≤ (wD g).gt) ∧
    (let s := (wD wG).setLine 128 { Line.init with lock := some (1, 0), lockUntil := some 50 }
     (s.line 128).lockUntil = some 50 ∧ 50 ≤ s.gt) ∧
    (let g := wTw (wTxn false false 8) .serial
     (wD g).thread? 1 (some 0) = some (wU g) ∧ (wU g).wait = .serial ∧ (wD g).serial = none) := by decide

/-- A transaction that has written 15 lines and read no line. -/
def wFew : Txn := { wTxn true false 0 with reads := [], wlines := (List.range 15).map (· + 10) }

theorem wit_TransactionAccesses :
    (∀ g ∈ [wTx (wTxn true false 0), { wTx (wTxn true false 0) with lanes := (wTx (wTxn true false 0)).lanes.map fun t => { t with regs := [(0, 128)] } }, wTx wFew],
      OneAt (wL g) 1 5 0 0 g hU (wU g) ∧ LaneDecodes ⟨hU, lenA (.v 0), false, 1, groupV 63 1 ++ needA64 (.v 0)⟩ g 5 ∧ LaneDecodes ⟨hU, lenA (.v 0), false, 0, groupV 63 1 ++ needA64 (.v 0)⟩ g 5 ∧
      LaneDecodes ⟨hU, lenA (.v 0), false, 1, groupV 62 2 ++ needA64 (.v 0)⟩ g 5 ∧ NoneOpen g 5 ∧ AloneAt (wL g) 1 5 0 0 g hU (wU g) ∧ (wU g).txn.isOpen = true ∧
      (wL g).loadHeld g.id (some (wU g).tid) (laneEa (wL g) g (wU g) (.v 0)) = false ∧ (wL g).acquiring g.id (some (wU g).tid) = false ∧ laneEa (wL g) g (wU g) (.v 0) % 4 = 0 ∧
      (wL g).homeOf g.ctx (laneEa (wL g) g (wU g) (.v 0)) = .phys 0 ∧ (wL g).homeOf g.ctx (laneEa (wL g) g (wU g) (.v 0)) ≠ .bad) ∧
    (let u := wU { wTx (wTxn true false 0) with lanes := (wTx (wTxn true false 0)).lanes.map fun t => { t with regs := [(0, 128)] } }
     u.txn.buf.lookup 128 = some 1 ∧ u.txn.buf.lookup 129 = some 2 ∧ u.txn.buf.lookup 130 = some 3 ∧ u.txn.buf.lookup 131 = some 4) ∧
    (let g := wTx (wTxn true false 0)
     (wU g).txn.buf.lookup 256 = none ∧ ((wL g).readLines g.id (some (wU g).tid) (wU g)).length < 32) ∧ (wU (wTx wFew)).txn.wlines.length < 16 := by
  have k : ∀ g ∈ [wTx (wTxn true false 0), { wTx (wTxn true false 0) with lanes := (wTx (wTxn true false 0)).lanes.map fun t => { t with regs := [(0, 128)] } }, wTx wFew],
      okG g = true ∧ (wU g).guard hU = true := by decide
  refine ⟨fun g hg => ⟨okG_one (k g hg).1 (k g hg).2, ?_, ?_, ?_, okG_noneOpen (k g hg).1 5, okG_alone (k g hg).1 (k g hg).2, ?_⟩, by decide, by decide, by decide⟩ <;>
    clear k <;> revert g <;> (try unfold LaneDecodes) <;> decide
/-- A FREE launch of one node entry that grove 1 belongs to. -/
def wLaunch : Launch where
  id := 0
  ctx := 0
  queue := 0
  cls := 0
  ltag := 0
  desc := placedDesc
  nodes := [placedDesc]
  log := 0
  next := 0
  replay := []
  reruns := []
  nnodes := 0
  relTime := 0

/-- A grove whose kernel has one node entry. -/
def wNode : Grove := { wG with desc := { placedDesc with nnode := 1 } }

theorem wit_SpawnWords :
    (OneAt (wL wG) 1 5 0 0 wG hU (wU wG) ∧ LaneDecodes ⟨hU, 1, false, 0, v1 63 ++ [.v 60 4 4]⟩ wG 5 ∧ NoneOpen wG 5 ∧ (wL wG).releaseMet wG.id (some (wU wG).tid) (wU wG).core .grove (wL wG).nextId = true ∧
      wG.desc.seedl ≠ 0 ∧ (wU wG).txn.isOpen = false ∧ (wL wG).bedCount (wU wG).core (bedOf ((wU wG).reg 63).toNat) wG.ctx < 256) ∧
    (OneAt (wL wNode) 1 5 0 0 wNode hU (wU wNode) ∧ LaneDecodes ⟨hU, 1, false, 0, [.v 60 4 4] ++ v2 62 ++ v1 63⟩ wNode 5 ∧ NoneOpen wNode 5 ∧
      (wL wNode).releaseMet wNode.id (some (wU wNode).tid) (wU wNode).core .device (wL wNode).nextId = true ∧ (wU wNode).txn.isOpen = false ∧ (wU wNode).front = false ∧
      MayPost (wL wNode) wNode (wU wNode) 0 ((wU wNode).reg 63).toNat ((wU wNode).pair 62).toNat) ∧
    (FrontAt (wF wNode) 1 0 0 wNode ∧ FrontDecodes ⟨hU, 1, false, 0, [.s 28 4 4] ++ [.s 30 2 2]⟩ wNode ∧ wNode.front.guard hU = true ∧ (∀ x, wNode.front.seg = some x → x.checks = []) ∧
      (wF wNode).releaseMet wNode.id none wNode.front.core .device (wF wNode).nextId = true ∧ MayPost (wF wNode) wNode wNode.front 0 (wNode.front.reg 31).toNat (wNode.front.pair 30).toNat) := by
  have k : okG wNode = true := by decide
  refine ⟨⟨okG_one wG_ok rfl, ?_, okG_noneOpen wG_ok 5, ?_⟩, ⟨okG_one k rfl, ?_, okG_noneOpen k 5, rfl, rfl, rfl, by decide, by decide, by decide, by decide⟩,
    okG_front k, ?_, rfl, okG_noChecks k, rfl, by decide, by decide, by decide, by decide⟩
  · unfold LaneDecodes; decide
  · decide
  · unfold LaneDecodes; decide
  · unfold FrontDecodes; decide

theorem wit_Traces :
    (OneAt (wL wG) 1 5 0 0 wG hU (wU wG) ∧ LaneDecodes ⟨hU, 1, false, 0, [.v 56 8 8] ++ v2 62 ++ v1 63⟩ wG 5 ∧ (wU wG).txn.isOpen = false ∧ NoneOpen wG 5 ∧
      (wL wG).releaseMet wG.id (some (wU wG).tid) (wU wG).core .grove (wL wG).nextId = true ∧ (wL wG).acquiring wG.id (some (wU wG).tid) = false ∧ wG.desc.seedl ≠ 0 ∧
      AddressOk (wL wG) wG.ctx ((wU wG).pair 62).toNat 32) ∧
    (let r := wReq (.trace false) .relaxed (List.replicate 9 0) []
     AtHome (wAt r) 3 r wG 0 65408 2 .load ∧ r.op = .trace false ∧ r.size = 32 ∧ wG.verify ≠ 2 ∧ wG.thread? (sender r) = some (wU wG) ∧ (wAt r).traceWaits r = false ∧
      (∀ i < 32, tabGet false (wAt r).poison ((65408 + i) / 32) = false) ∧ leNat ((((wAt r).bytesFor none 65408 32).drop 0).take 8) % 128 = 0 ∧
      leNat ((((wAt r).bytesFor none 65408 32).drop 24).take 8) % 8 = 0) := by
  refine ⟨⟨okG_one wG_ok rfl, ?_, rfl, okG_noneOpen wG_ok 5, ?_⟩, wAt_home _ .load rfl (by decide) rfl rfl rfl rfl (by decide), rfl, rfl, by decide, rfl, by decide, fun _ _ => rfl, by decide, by decide⟩
  · unfold LaneDecodes; decide
  · unfold AddressOk; decide

/-- n seeds of grove 1 in the bed of entry 5 of core 0, planted in order. -/
def wSeeds (n : Nat) : List Seed := (List.range n).map fun i => ⟨5, 1, 5, [], i, i⟩

/-- The grove with its seedling strand: two lanes of it. -/
def wSeedG : Grove := { wG with lanes := wG.lanes ++ ((placedDesc.lanes 0 []).drop 16).take 2 }

/-- A device whose core 0 holds n seeds, the grove's timer in the bed at 0. -/
def wSeed (n : Nat) : State := { wD wSeedG with cores := [(0, { Core.init with seeds := wSeeds n, timers := [(16 * 1 + 5, 0)] })] }

theorem wit_SeedlingStands : (wSeed 32).grove? 1 = some wSeedG ∧ wSeedG.desc.mode = 0 ∧ wSeedG.desc.pair = false ∧ (wSeed 32).mayRun wSeedG wSeedG.core = true ∧
    (∀ x ∈ ((wSeed 32).core wSeedG.core).seeds, ∀ y ∈ ((wSeed 32).core wSeedG.core).seeds, x.gid = 1 → y.gid = 1 → x.key = y.key → x = y) ∧
    ((wSeed 32).core wSeedG.core).seeds.Pairwise (fun x y => x.born < y.born) ∧ wSeedG.desc.nstr ≤ 1 ∧ 1 < wSeedG.desc.nstr + wSeedG.desc.seedl ∧
    (∀ v ∈ wSeedG.lanes, v.strand = 1 → v.life = .empty ∨ v.life = .exited) ∧ (∀ k, wSeedG.desc.nstr ≤ k → k < 1 → ∃ v ∈ wSeedG.lanes, v.strand = k ∧ v.life ≠ .empty ∧ v.life ≠ .exited) ∧
    32 ≤ (groupOf (wSeed 32) wSeedG wSeedG.core 5 5).length ∧ (wSeed 32).quiesced wSeedG = false ∧
    (∃ x, ((wSeed 32).core wSeedG.core).seeds.find? (fun y => y.gid == wSeedG.id && y.bed == 5) = some x ∧ x.entry = 5) ∧
    ((wSeed 32).core wSeedG.core).timers.lookup (16 * 1 + 5) = some 0 ∧ 0 ≤ tabGet 0 (wSeed 32).hub.cyc (wSeedG.core / 128) := by
  refine ⟨rfl, rfl, rfl, by decide, ?_, ?_, by decide, by decide, by decide, fun k h1 h2 => absurd (show 1 ≤ k from h1) (by omega), by decide, by decide, ⟨_, rfl, rfl⟩, rfl, by decide⟩
  · intro x hx y hy _ _ h
    have e : ∀ z ∈ wSeeds 32, z = ⟨5, 1, 5, [], z.key, z.key⟩ := by
      intro z hz; obtain ⟨i, -, rfl⟩ := List.mem_map.1 hz; rfl
    rw [e x hx, e y hy, h]
  · exact List.Pairwise.map _ (fun _ _ h => h) List.pairwise_lt_range

/-- A ray of grove 1 that meets nothing: TMIN is above TMAX. -/
def wRay (tr : Bool) (p : List Held) : Ray where
  id := 4
  gid := 1
  tid := 0
  ctx := 0
  core := 0
  ord := 0
  regs := [0, 0, 0, 0x3F800000, 0, 0, 0x3F800000, 0]
  payload := 0
  any := false
  root := 65408
  miss := 1
  hit := 2
  ahit := 3
  rmask := 255
  attr := 0
  traced := tr
  plant := p
  slot := 0

/-- An answer of a unit's access that is there and is as f says. -/
def accIs {α : Type} (x : Acc α) (f : α → Bool) : Bool :=
  match x with
  | .ok a => f a
  | _ => false

theorem accIs_ok {α : Type} {x : Acc α} {f : α → Bool} (h : accIs x f = true) : ∃ a, x = .ok a ∧ f a = true := by
  cases x with
  | ok a => exact ⟨a, rfl, h⟩
  | _ => cases h

theorem wit_RayEnds :
    (∀ p ∈ [[], [⟨50, 5, [], 0⟩], [(⟨51, 5, [], 0⟩ : Held)]], ({ wD wG with rays := [wRay true p] } : State).rays.find? (fun q => q.id == 4) = some (wRay true p) ∧
      (wRay true p).traced = true ∧ (wD wG).grove? 1 = some wG ∧ (wD wG).bedCount 0 (bedOf 5) wG.ctx < 256) ∧
    (let s := { wData (wD wG) with rays := [wRay false []] }
     s.rays.find? (fun q => q.id == 4) = some (wRay false []) ∧ (wRay false []).traced = false ∧
      ∃ s1 s2 hits bits seeds, s.traceRay (wRay false []) .none = .ok (s1, hits, bits) ∧ s1.raySeedsOf (wRay false []) .none hits bits = .ok (s2, seeds) ∧ s2.clocked ((wRay false []).core / 128) = true) := by
  refine ⟨by decide, rfl, rfl, ?_⟩
  have h : accIs (({ wData (wD wG) with rays := [wRay false []] } : State).traceRay (wRay false []) .none)
      (fun a => accIs (a.1.raySeedsOf (wRay false []) .none a.2.1 a.2.2) fun b => b.1.clocked 0) = true := by decide +kernel
  obtain ⟨⟨s1, hits, bits⟩, h1, h⟩ := accIs_ok h
  obtain ⟨⟨s2, seeds⟩, h2, h3⟩ := accIs_ok h
  exact ⟨s1, s2, hits, bits, seeds, h1, h2, h3⟩
/-- A grove of two width-32 strands, whose A scales may lie in them. -/
def wMx : Grove := { wG with desc := { placedDesc with width := 32, nstr := 2 } }

/-- The grove with accumulator unit n of a class, its rows as given. -/
def wAc (n : Nat) (c : TileClass) (rows : List (Nat × AcRow)) : Grove := { wMx with ac := [(n, ⟨c, false, rows⟩)] }

/-- The shapes of R105 and R163 with whether the form has a literal. -/
def wRows : List (MmaRow × Bool) :=
  [(⟨.acw, 128, 64, 16384, 9216, 1⟩, false), (⟨.acn, 128, 64, 16384, 9216, 1⟩, false), (⟨.acn, 256, 64, 16384, 10240, 1⟩, false), (⟨.acn, 256, 64, 12288, 8192, 1⟩, false),
    (⟨.acn, 512, 64, 16384, 12288, 1⟩, false), (⟨.acw, 512, 64, 17408, 13312, 1⟩, true), (⟨.acw, 256, 64, 13312, 9216, 1⟩, true), (⟨.acw, 256, 64, 17408, 11264, 1⟩, true),
    (⟨.acz, 256, 32, 16384, 10240, 256⟩, false), (⟨.acz, 512, 32, 16384, 12288, 1⟩, false), (⟨.acw, 128, 64, 16384, 9216, 1⟩, true), (⟨.acn, 256, 64, 16384, 10240, 1⟩, true),
    (⟨.acw, 128, 64, 5120, 4096, 1⟩, true)]

/-- The needs of an MMA of a row. -/
def wNeed (x : MmaRow) (m : MmaArgs) (l : Option MmaLit) : List Need :=
  (match l with
    | some t => scaleNeeds x m t
    | none => []) ++ [.ta (m.ta.val + m.kc.val), .wb (lastSlot x m)] ++ (if x.cls = .acw then [.acw m.ac.val] else [.ac m.ac.val])

theorem wMx_ok : okG wMx = true := by decide

theorem wit_MatrixIssue :
    (∀ x ∈ wRows, ∀ m ∈ [(⟨0, 0, 0, false, .dense, 15⟩ : MmaArgs), ⟨5, 15, 7, true, .sparse, 0⟩, ⟨5, 0, 6, false, .expand, 7⟩, ⟨0, 0, 0, true, .absorb, 0⟩],
      FrontDecodes ⟨hU, if x.2 then 2 else 1, false, 0, wNeed x.1 m (if x.2 then some ⟨0, 0, 0, false⟩ else none)⟩ wMx ∧
      (m.dm = .expand ∨ m.dm = .absorb → (m.kc.val + 1) * wMx.rankOf wMx.psel m.wb.val ≤ 512)) ∧
    (FrontAt (wF wMx) 1 0 0 wMx ∧ wMx.front.guard hU = true ∧ FrontFree (wF wMx) wMx ∧ wMx.msq = none ∧ (∀ c ∈ [TileClass.acn, .acw, .acz], TileFree wMx 5 c)) ∧
    (∀ c ∈ [TileClass.acn, .acw, .acz], TileThere (wAc 5 c []) 5 c ∧ FrontAt (wF (wAc 5 c [])) 1 0 0 (wAc 5 c [])) ∧
    (∀ c ∈ [TileClass.acn, .acw, .acz], let g := wAc 5 .empty [] |> fun g => { g with ac := [(5, ⟨if c = .acn then .acz else .acn, false, []⟩)] }
      ¬ TileFree g 5 c ∧ ¬ TileThere g 5 c ∧ FrontAloneAt (wF g) 1 0 0 g hU ∧ g.front.th = false ∧ g.front.txn.isOpen = false ∧ (wF g).handler g.ctx true = some 0x100 ∧
        natBit (wF g).hub.snapMask 0x18 = false) ∧
    -- the guard of ACZ, at row 0 and at row 63
    ∀ k ∈ [0, 63], let g := wAc 5 .acz [(k, ⟨false, false, 2 ^ 20 - 65535, 0, [], false⟩)]
      k < 64 ∧ FrontAloneAt (wF g) 1 0 0 g hU ∧ FrontDecodes ⟨hU, 1, false, 0, [.ta 0, .wb 0, .ac 5]⟩ g ∧ natBit (wF g).hub.snapMask 0x0E = false ∧ FrontFree (wF g) g ∧ TileThere g 5 .acz ∧
        (∀ j < k, ((g.acUnit g.psel 5).row j).count + (0 + 1) * 256 * 256 ≤ 2 ^ 20) ∧ 2 ^ 20 < ((g.acUnit g.psel 5).row k).count + (0 + 1) * 256 * 256 := by
  have k1 : ∀ c ∈ [TileClass.acn, .acw, .acz], okG (wAc 5 c []) = true := by decide
  have k2 : ∀ c ∈ [TileClass.acn, .acw, .acz], okG ({ wAc 5 .empty [] with ac := [(5, ⟨if c = .acn then .acz else .acn, false, []⟩)] } : Grove) = true := by decide
  have k3 : ∀ k ∈ [0, 63], okG (wAc 5 .acz [(k, ⟨false, false, 2 ^ 20 - 65535, 0, [], false⟩)]) = true := by decide
  refine ⟨?_, ⟨okG_front wMx_ok, rfl, ⟨okG_noChecks wMx_ok, rfl⟩, rfl, ?_⟩, fun c hc => ⟨?_, okG_front (k1 c hc)⟩, fun c hc => ⟨?_, ?_, okG_frontAlone (k2 c hc) rfl, rfl, rfl, ?_⟩,
    fun k hk => ⟨?_, okG_frontAlone (k3 k hk) rfl, ?_, ?_, ⟨okG_noChecks (k3 k hk), rfl⟩, ?_, ?_⟩⟩
  · unfold FrontDecodes; decide
  · unfold TileFree; decide
  · clear k1 k2 k3; revert c; unfold TileThere; decide
  · clear k1 k2 k3; revert c; unfold TileFree; decide
  · clear k1 k2 k3; revert c; unfold TileThere; decide
  · clear k1 k2 k3; revert c; decide
  · clear k1 k2 k3; revert k; decide
  · clear k1 k2 k3; revert k; unfold FrontDecodes; decide
  · clear k1 k2 k3; revert k; decide
  · clear k1 k2 k3; revert k; unfold TileThere; decide
  · clear k1 k2 k3; revert k; decide

/-- A grove whose S group 0 holds an address, a stride and no handle, and unit 5 a tile of a class. -/
def wSg (n stride : Word) (c : TileClass) : Grove :=
  { wMx with front := { wMx.front with regs := [(0, n), (2, stride), (3, 0xFFFFFFFF)] }, ac := if c = .empty then [] else [(5, ⟨c, false, []⟩)] }

theorem wit_TileCommandIssue :
    (∀ c ∈ [TileClass.empty, .acn], let g := wSg 0 0 c
      FrontAloneAt (wF g) 1 0 0 g hU ∧ FrontFree (wF g) g ∧ g.msq = none ∧ FrontDecodes ⟨hU, 1, false, 0, [.ac 5, .ta 15, .wb 7]⟩ g ∧ (TileFree g 5 .acn ∨ TileThere g 5 .acn)) ∧
    (let g := { wSg 0 0 .empty with mcs2 := 1 }
     FrontAloneAt (wF g) 1 0 0 g hU ∧ FrontDecodes ⟨hU, 1, false, 0, [.acw 5, .ta 15, .ta 0, .ta 1]⟩ g ∧ g.mcs2.toNat % 8 ≠ 0 ∧ TileFree g 5 .acw) ∧
    (let g := wSg 0 0 .empty
     FrontDecodes ⟨hU, 1, false, 0, [.acw 5, .ta 15, .ta 0]⟩ g ∧ g.mcs2.toNat % 8 = 0 ∧ g.front.th = false ∧ g.front.txn.isOpen = false ∧ (wF g).handler g.ctx true = some 0x100 ∧
      natBit (wF g).hub.snapMask 0x17 = false ∧ (g.acUnit g.psel 5).cls = .empty) ∧
    (let g := wSg 65520 256 .acn
     FrontAloneAt (wF g) 1 0 0 g hU ∧ FrontFree (wF g) g ∧ TileRead g 5 ∧ (∀ i < 64, ((g.acUnit g.psel 5).row i).poison = false) ∧ AddressOk (wF g) g.ctx (sAddr g 0) 16 ∧ sNum g 0 2 % 16 = 0 ∧
      ∀ f ∈ [DrainFmt.fp32, .fp16, .bf16, .fp8e4, .fp8e5, .i32], 64 * drainBytes f ≤ sNum g 0 2) ∧
    (let g := wSg 65472 0 .acw
     FrontAloneAt (wF g) 1 0 0 g hU ∧ TileRead g 5 ∧ AddressOk (wF g) g.ctx (sAddr g 0) 64 ∧ FrontDecodes ⟨hU, 1, false, 0, [.acw 5]⟩ g ∧ FrontDecodes ⟨hU, 1, false, 0, [.ac 9]⟩ g) ∧
    -- a unit inside a tile, and a tile of another class
    (let g := { wMx with ac := [(6, ⟨.acw, true, []⟩)] }
     (g.acUnit g.psel 6).cls ≠ .empty ∧ (g.acUnit g.psel 6).interior = true ∧ ¬ TileFree g 6 .acn ∧ ¬ TileThere g 6 .acn) := by
  have k : ∀ g ∈ [wSg 0 0 .empty, wSg 0 0 .acn, { wSg 0 0 .empty with mcs2 := 1 }, wSg 65520 256 .acn, wSg 65472 0 .acw], okG g = true := by decide
  simp only [List.forall_mem_cons, List.not_mem_nil, false_imp_iff, implies_true, and_true] at k
  refine ⟨fun c hc => ?_, ⟨okG_frontAlone k.2.2.1 rfl, ?_⟩, ?_, ⟨okG_frontAlone k.2.2.2.1 rfl, ⟨okG_noChecks k.2.2.2.1, rfl⟩, ?_⟩, ⟨okG_frontAlone k.2.2.2.2 rfl, ?_⟩, ?_⟩
  · have h : okG (wSg 0 0 c) = true := by revert c; decide
    refine ⟨okG_frontAlone h rfl, ⟨okG_noChecks h, rfl⟩, ?_⟩
    clear h k; revert c; unfold FrontDecodes TileFree TileThere; decide
  · unfold FrontDecodes TileFree; decide
  · unfold FrontDecodes; decide
  · unfold TileRead AddressOk; decide
  · unfold TileRead AddressOk FrontDecodes; decide
  · unfold TileFree TileThere; decide

/-- Lane registers full of ones, a tile of a class at unit 9. -/
def wDrain (c : TileClass) : Grove := { wG with ac := if c = .empty then [] else [(9, ⟨c, false, [(0, ⟨false, false, 3, 1, [(0, (-5), 0)], false⟩)]⟩)] }

theorem wit_TileWords :
    (let g := wSg 65520 65520 .empty
     FrontAt (wF g) 1 0 0 g ∧ g.front.guard hU = true ∧ FrontFree (wF g) g ∧ g.loads.length < 8 ∧ FrontDecodes ⟨hU, 1, false, 0, [.ta 15]⟩ g ∧ AddressOk (wF g) g.ctx (sAddr g 0) 16 ∧ sNum g 0 2 % 16 = 0 ∧
      FrontDecodes ⟨hU, 1, true, 0, []⟩ g ∧ g.msq = none ∧ g.loads = []) ∧
    (∀ n ∈ [(1024 : Word), 1048576], let g := wSg 65280 n .empty
      AddressOk (wF g) g.ctx (sAddr g 0) 256 ∧ sNum g 0 2 ≠ 0 ∧ sNum g 0 2 % 1024 = 0 ∧ sNum g 0 2 ≤ (g.desc.wbs - 0) * 131072 ∧ FrontDecodes ⟨hU, 1, false, 0, [.wb 0]⟩ g) ∧
    (FrontDecodes ⟨hU, 1, false, 0, []⟩ wG ∧ (∀ x, wG.front.seg = some x → x.checks = []) ∧ (∀ v ∈ [0, 1, 3, 10, 250], v % 8 < 4 ∧ (v % 8 = 2 → v / 8 % 32 ≠ 0)) ∧ ∀ v ∈ [1, 4, 12], v % 8 ≠ 0 ∧ v % 8 < 5) := by
  have k : okG (wSg 65520 65520 .empty) = true := by decide
  refine ⟨⟨okG_front k, rfl, ⟨okG_noChecks k, rfl⟩, ?_⟩, ?_, ⟨?_, okG_noChecks wG_ok, by decide, by decide⟩⟩
  · unfold FrontDecodes AddressOk; decide
  · intro n hn
    simp only [List.mem_cons, List.not_mem_nil, or_false] at hn
    rcases hn with rfl | rfl <;> refine ⟨?_, ?_, ?_, ?_, ?_⟩ <;> (try unfold FrontDecodes) <;> (try unfold AddressOk) <;> decide
  · unfold FrontDecodes; decide

theorem wit_TileWords_strands :
    (OneAt (wL wG) 1 5 0 0 wG hU (wU wG) ∧ NoneOpen wG 5 ∧ (wL wG).acquiring wG.id (some (wU wG).tid) = false ∧ TileUnheld wG ((wU wG).core - wG.core) 15 ∧
      ∀ p ∈ [(63, 0), (62, 1), (60, 2), (56, 3)], LaneDecodes ⟨hU, 1, false, 0, [.v p.1 (2 ^ p.2) (2 ^ p.2)] ++ [.ta 15]⟩ wG 5) ∧
    (∀ c ∈ [TileClass.empty, .acn, .acz], let g := wDrain c
      OneAt (wL g) 1 5 0 0 g hU (wU g) ∧ LaneDecodes ⟨hU, 1, false, 8, [.v 56 8 8] ++ [.ac 9]⟩ g 5 ∧ NoneOpen g 5 ∧ UnitUnheld g ((wU g).core - g.core) 9 ∧
      (tabGet AcUnit.empty g.ac 9).cls = c ∧ (tabGet AcUnit.empty g.ac 9).interior = false ∧ ((tabGet AcUnit.empty g.ac 9).row 0).poison = false ∧
      (c = .acz → ((tabGet AcUnit.empty g.ac 9).row 0).elem 0 = ((-5), 0)) ∧ ((tabGet AcUnit.empty g.ac 9).row 0).df < 16 ∧ ((tabGet AcUnit.empty g.ac 9).row 0).count < 2 ^ 32) := by
  have kd : ∀ c ∈ [TileClass.empty, .acn, .acz], okG (wDrain c) = true := by decide
  have n : wG.msq = none := rfl
  refine ⟨⟨okG_one wG_ok rfl, okG_noneOpen wG_ok 5, rfl, fun m h => by simp [n] at h, ?_⟩,
    fun c hc => ⟨okG_one (kd c hc) rfl, ?_, okG_noneOpen (kd c hc) 5, fun m h => by simp [wDrain, n] at h, ?_⟩⟩
  · unfold LaneDecodes; decide
  · clear kd; revert c; unfold LaneDecodes; decide
  · clear kd; revert c; decide

/-- A command in flight in unit 5 of a grove, with s of t steps done. -/
def wFlight (cmd : ArrayCmd) (s t : Nat) : Msq where
  cmd := cmd
  pc := 0
  fpc := 0
  mcs0 := 0
  mcs1 := 0
  mcs2 := 1
  psel := 0
  sregs := [65280, 0, 256, 0xFFFFFFFF]
  start := 2
  step := s
  total := t
  ac := 5
  units := [5]
  tas := [0]
  wbs := [0]
  rank := 64
  scales := []
  overflow := some (3, 2)
  fault := none
  held := false

/-- A grove with the command in flight, unit 5 a tile of a class. -/
def wSeq (cmd : ArrayCmd) (s t : Nat) (c : TileClass) : Grove := { wSg 0 0 c with msq := some (wFlight cmd s t) }

/-- A dense MMA of one K chunk into unit 5. -/
def wMma : MmaArgs := ⟨5, 0, 0, false, .dense, 0⟩

/-- A tile load of two pieces, d bytes of it written, or one of a weight slot. -/
def wLoad (w : Bool) (d : Nat) : TileLoad := ⟨7, w, 0, 512, 1, 65024, 0xFFFFFFFF, 256, d, 0, 0⟩

/-- A grove with the load in its queue, its traps pending. -/
def wLoads (w : Bool) (d : Nat) : Grove := { wG with loads := [wLoad w d], pending := [⟨0x17, 256, 0, 0⟩] }

theorem wit_ArrayWork :
    (∀ s ∈ [0, 16], let g := wSeq (.mma .mmaI8 wMma none) s 32 .acz
      (wD g).grove? 1 = some g ∧ g.msq = some (wFlight (.mma .mmaI8 wMma none) s 32) ∧ (wD g).chunkTurn g (wFlight (.mma .mmaI8 wMma none) s 32) = true ∧ s % 16 = 0 ∧ s + 16 ≤ 32 ∧ 32 ≤ 32 * (wMma.kc.val + 1) ∧
        (∀ k, tabGet false g.taPoison k = false) ∧ (∀ k, tabGet false g.wbPoison k = false) ∧ (∀ i < 64, ((g.acUnit 0 5).row i).bad = false)) ∧
    (∀ c ∈ [TileClass.empty, .acn, .acw, .acz], let g := wSeq (.mzero c) 0 4 .acn
      (wD g).grove? 1 = some g ∧ (wD g).chunkTurn g (wFlight (.mzero c) 0 4) = true ∧ (wFlight (.mzero c) 0 4).ac < 10 ∧ (c = .acw → (wFlight (.mzero c) 0 4).ac = 0 ∨ (wFlight (.mzero c) 0 4).ac = 5)) ∧
    (∀ s ∈ [0, 15], let g := wSeq (.medge 0 0) s 16 .acw
      (wD g).grove? 1 = some g ∧ (wD g).chunkTurn g (wFlight (.medge 0 0) s 16) = true) ∧
    (let g := wSeq (.mdrain .fp16 .rne false) 63 64 .acn
     (wData (wD g)).grove? 1 = some g ∧ (wFlight (.mdrain .fp16 .rne false) 63 64).total = 63 + 1 ∧ (wData (wD g)).chunkTurn g (wFlight (.mdrain .fp16 .rne false) 63 64) = true ∧ (wData (wD g)).loadWaits g 2 (65280 + 63 * 256) (64 * drainBytes .fp16) = false ∧
      ∃ s1 vt g1, (served (wData (wD g)) g (wFlight (.mdrain .fp16 .rne false) 63 64)).unitStore (g.coreAgent 0 .none) false (65280 + 63 * 256) (List.replicate 128 0) = .ok (s1, vt) ∧
        s1.grove? 1 = some g1 ∧ g1.ac = g.ac ∧ g1.msq = g.msq) ∧
    (∀ cmd ∈ [ArrayCmd.mma .mmaI8 wMma none, .mma .mmaE4 wMma none, .mzero .acn, .mspill], let g := wSeq cmd 4 4 (if cmd = .mma .mmaE4 wMma none then .acn else .acz)
      (wD g).grove? 1 = some g ∧ (wFlight cmd 4 4).total ≤ (wFlight cmd 4 4).step ∧ (wFlight cmd 4 4).ac < 10) ∧
    (let g := wLoads false 256
     (wData (wD g)).grove? 1 = some g ∧ g.loads.head? = some (wLoad false 256) ∧ (wLoad false 256).size = (wLoad false 256).done + 256 ∧ g.msq = none ∧ (wData (wD g)).clocked 0 = true ∧ (wLoad false 256).done % 256 = 0 ∧ (wData (wD g)).loadWaits g 7 (wLoad false 256).source 256 = false ∧
      ∃ s1 bs, (wData (wD g)).unitRead (g.coreAgent 0 .none) 4 ((65024 + 256 / 256 * 256) % 2 ^ 64) 256 = .ok (s1, bs) ∧ bs.length = 256 ∧ (∀ b ∈ bs, b.2 = false) ∧ s1.groves = (wData (wD g)).groves) ∧
    (∀ w ∈ [true, false], let g := wLoads w 512
      (wD g).grove? 1 = some g ∧ g.loads.find? (fun x => x.id == 7) = some (wLoad w 512) ∧ (wLoad w 512).size ≤ (wLoad w 512).done) ∧
    (let g := wLoads false 0
     g.front.ready = true ∧ g.front.front = true ∧ g.front.th = false ∧ g.front.txn.isOpen = false ∧ (wD g).mayRun g g.core = true ∧ g.front.seg = none ∧ (wD g).handler g.ctx true = some 0x100 ∧
      natBit (wD g).hub.snapMask 0x17 = false) := by
  refine ⟨fun s hs => ⟨rfl, rfl, ?_, ?_, ?_, by decide, fun _ => rfl, fun _ => rfl, fun _ _ => rfl⟩, by decide, by decide, ⟨rfl, rfl, by decide, by decide, ?_⟩, by decide, ⟨rfl, rfl, rfl, rfl, rfl, by decide, by decide, ?_⟩, by decide, by decide⟩
  · revert s; decide
  · revert s; decide
  · revert s; decide
  · have h : accIs ((served (wData (wD (wSeq (.mdrain .fp16 .rne false) 63 64 .acn))) (wSeq (.mdrain .fp16 .rne false) 63 64 .acn) (wFlight (.mdrain .fp16 .rne false) 63 64)).unitStore
        ((wSeq (.mdrain .fp16 .rne false) 63 64 .acn).coreAgent 0 .none) false (65280 + 63 * 256) (List.replicate 128 0))
        (fun a => (a.1.grove? 1).any fun g => g.ac == (wSeq (.mdrain .fp16 .rne false) 63 64 .acn).ac && g.msq == (wSeq (.mdrain .fp16 .rne false) 63 64 .acn).msq) = true := by decide +kernel
    obtain ⟨⟨s1, vt⟩, h1, h⟩ := accIs_ok h
    obtain ⟨g1, h2, h⟩ := Option.any_eq_true _ _ |>.1 h
    simp only [Bool.and_eq_true, beq_iff_eq] at h
    exact ⟨s1, vt, g1, h1, h2, h.1, h.2⟩
  · have h : accIs ((wData (wD (wLoads false 256))).unitRead ((wLoads false 256).coreAgent 0 .none) 4 ((65024 + 256 / 256 * 256) % 2 ^ 64) 256)
        (fun a => a.2.length == 256 && (a.2.all fun b => b.2 == false) && a.1.groves == (wData (wD (wLoads false 256))).groves) = true := by decide +kernel
    obtain ⟨⟨s1, bs⟩, h1, h⟩ := accIs_ok h
    simp only [Bool.and_eq_true, beq_iff_eq, List.all_eq_true] at h
    exact ⟨s1, bs, h1, h.1.1, h.1.2, h.2⟩
/-- The device with bytes of memory written from an address. -/
def wMemory (s : State) (a : Nat) (bs : List Byte) : State := { s with mem := writeBytes s.mem (atKeys a bs) }

/-- A grove whose S30:S31 hold a descriptor's address, the last but 64 bytes of a page, and S29 no handle. -/
def wEngG : Grove := wR [(30, 65472), (29, 0xFFFFFFFF)]

theorem wit_EngineWords : (FrontAt (wF wEngG) 1 0 0 wEngG ∧ FrontDecodes ⟨hU, 1, false, 0, [.s 30 2 2]⟩ wEngG ∧ wEngG.front.guard hU = true ∧ FrontFree (wF wEngG) wEngG ∧
      EngineRoom (wF wEngG) wEngG.id ∧ AddressOk (wF wEngG) wEngG.ctx (wEngG.front.pair 30).toNat 64 ∧ (wEngG.front.reg 29).toNat = 0xFFFFFFFF) ∧
    (FrontAt (wF wG) 1 0 0 wG ∧ wG.front.guard hU = true ∧ (∀ x, wG.front.seg = some x → x.checks = []) ∧ FrontDecodes ⟨hU, 1, false, 0, []⟩ wG) ∧
    (∀ n ∈ [(1 : Word), 4096], let g := wR [(30, 65280), (28, n)]
      FrontAt (wF g) 1 0 0 g ∧ (wF g).acquiring g.id none = false ∧ EngineRoom (wF g) g.id ∧ AddressOk (wF g) g.ctx (g.front.pair 30).toNat 256 ∧ AddressOk (wF g) g.ctx (g.front.pair 30).toNat 32 ∧
        1 ≤ (g.front.reg 28).toNat ∧ (g.front.reg 28).toNat ≤ 4096 ∧ g.desc.seedl ≠ 0 ∧ FrontDecodes ⟨hU, 1, false, 0, [.s 30 2 2]⟩ g) := by
  have k : okG wEngG = true := by decide
  have r : (wEngG.front.reg 29).toNat = 0xFFFFFFFF := by decide
  have kn : ∀ n ∈ [(1 : Word), 4096], okG (wR [(30, 65280), (28, n)]) = true := by
    intro n hn
    simp only [List.mem_cons, List.not_mem_nil, or_false] at hn
    rcases hn with rfl | rfl <;> decide
  refine ⟨⟨okG_front k, ?_, rfl, ⟨okG_noChecks k, rfl⟩, ?_, ?_, r⟩, ⟨okG_front wG_ok, rfl, okG_noChecks wG_ok, ?_⟩, fun n hn => ⟨okG_front (kn n hn), rfl, ?_, ?_⟩⟩
  · unfold FrontDecodes; decide
  · unfold EngineRoom; decide
  · unfold AddressOk; decide
  · unfold FrontDecodes; decide
  · show 0 < 16; decide
  · clear kn
    simp only [List.mem_cons, List.not_mem_nil, or_false] at hn
    rcases hn with rfl | rfl <;> refine ⟨?_, ?_, ?_, ?_, ?_, ?_⟩ <;> (try unfold FrontDecodes) <;> (try unfold AddressOk) <;> decide

/-- A command of grove 1. -/
def wCmd (op : EngOp) (started planned : Bool) (moves : List Move) (owned : Option (Nat × Nat)) (h : Nat) : EngCmd where
  id := 4
  gid := 1
  ctx := 0
  op := op
  pc := 0
  desc := 65024
  handle := h
  place := .issuing
  die := 0
  after := 0
  started := started
  since := 0
  planned := planned
  moves := moves
  owned := owned
  buf := [(0, 9, false)]
  vt := 50
  deliver := [(h, 2048)]

/-- The device with the command, GT at 250,000,050, the leaf of the first pages kept. -/
def wE (c : EngCmd) : State := { wData (wD (wBar 0 0 0)) with cmds := [c], gt := 250000050, tlb := [(0, 30, 3)] }

/-- A descriptor of TCOPY: one dimension, elements of size 2^k, 5 of them, strides of 16. -/
def wTcopy (k : Nat) : List Byte :=
  leBytes 8 1024 ++ leBytes 8 2048 ++ leBytes 4 (1 + 16 * k) ++ List.replicate 44 0 ++ leBytes 4 5 ++ leBytes 4 0 ++ leBytes 8 16 ++ leBytes 8 16 ++ leBytes 8 0 ++ List.replicate 416 0

theorem wit_EngineWork_plan : ∀ k ∈ [0, 4], let c := wCmd .tcopy true false [] none 0xFFFFFFFF
    let s := wMemory (wE c) 65024 (wTcopy k)
    s.cmd? 4 = some c ∧ s.grove? c.gid = some (wBar 0 0 0) ∧ s.engineRuns c = true ∧ ∃ s1 bs, s.unitRead (c.agent .none) 5 c.desc 512 = .ok (s1, bs) ∧
      let d := bs.map Prod.fst
      let size := 2 ^ k
      fieldOf d 16 4 = 1 + 16 * k ∧ fieldOf d 28 36 = 0 ∧ fieldOf d 68 4 = 0 ∧ fieldOf d 88 8 = 0 ∧ fieldOf d 0 8 % size = 0 ∧ fieldOf d 8 8 % size = 0 ∧
        signed64 (fieldOf d 72 8) % size = 0 ∧ signed64 (fieldOf d 80 8) % size = 0 ∧ fieldOf d 64 4 * size ≤ 2 ^ 40 := by
  intro k hk
  refine ⟨rfl, rfl, rfl, ?_⟩
  have h : accIs ((wMemory (wE (wCmd .tcopy true false [] none 0xFFFFFFFF)) 65024 (wTcopy k)).unitRead ((wCmd .tcopy true false [] none 0xFFFFFFFF).agent .none) 5 65024 512) (fun a =>
      let d := a.2.map Prod.fst
      let size : Nat := 2 ^ k
      decide (fieldOf d 16 4 = 1 + 16 * k ∧ fieldOf d 28 36 = 0 ∧ fieldOf d 68 4 = 0 ∧ fieldOf d 88 8 = 0 ∧ fieldOf d 0 8 % size = 0 ∧ fieldOf d 8 8 % size = 0 ∧
        signed64 (fieldOf d 72 8) % (size : Nat) = 0 ∧ signed64 (fieldOf d 80 8) % (size : Nat) = 0 ∧ fieldOf d 64 4 * size ≤ 2 ^ 40)) = true := by revert k; decide +kernel
  obtain ⟨⟨s1, bs⟩, h1, h⟩ := accIs_ok h
  refine ⟨s1, bs, h1, ?_⟩
  simpa using of_decide_eq_true h

/-- One element into line 16. -/
def wMove : Move := ⟨2048, 1024, 16, none⟩

theorem wit_EngineWork_lines :
    (let c := wCmd .tcopy false false [] none 0xFFFFFFFF
     (wE c).cmd? 4 = some c ∧ (wE c).grove? c.gid = some (wBar 0 0 0) ∧ (wE c).engineRuns c = true ∧ (∀ x ∈ (wE c).cmds, x.gid = c.gid → x.id < c.id → x.started = true ∧ c.after ≤ x.id) ∧
      ∀ b ∈ (wE c).beams, b.gid = c.gid → c.after ≤ b.id) ∧
    (let c := wCmd .tcopy true true [wMove] none 0xFFFFFFFF
     (wE c).cmd? 4 = some c ∧ c.moves = [wMove] ∧ wMove.dst % 128 + wMove.len ≤ 128 ∧ (wE c).homeOf c.ctx wMove.dst = .phys 0 ∧ (wE c).fate c.ctx false .store 0 (wMove.dst % 2 ^ 54) = .ok 2048 2 ∧
      ((wE c).line (lineKey 0 (wMove.dst % 2 ^ 54))).lock = none ∧ ((wE c).line (lineKey 0 (wMove.dst % 2 ^ 54))).owner = none ∧ (wE c).barred 0 (2048 / 128) = false ∧ (wE c).hostNeed 0 (2048 / 128) true = none ∧
      (wE c).kept 0 (wMove.dst % 2 ^ 54) ≠ none ∧ ∃ s1 bs, (wE c).unitRead (c.agent .none) (wMove.len / 128 + 2) wMove.src wMove.len = .ok (s1, bs) ∧ bs.length = wMove.len ∧ s1.cmds = (wE c).cmds) ∧
    (let c := wCmd .tcopy true true [] (some (lineKey 0 2048, 2048)) 0xFFFFFFFF
     let s := (wE c).setLine (lineKey 0 2048) { Line.init with owner := some 4 }
     s.cmd? 4 = some c ∧ 2048 % 128 = 0 ∧ s.homeOf c.ctx 2048 = .phys 0 ∧ s.fate c.ctx false .store 0 (2048 % 2 ^ 54) = .ok 2048 2 ∧ c.owned = some (lineKey 0 (2048 % 2 ^ 54), 2048) ∧
      (s.line (lineKey 0 (2048 % 2 ^ 54))).owner = some c.id ∧ (s.line (lineKey 0 (2048 % 2 ^ 54))).lock = none ∧ s.barred 0 (2048 / 128) = false ∧ s.hostNeed 0 (2048 / 128) true = none) := by
  refine ⟨by decide, ⟨rfl, rfl, by decide, by decide, by decide, by decide, by decide, by decide, by decide, by decide, ?_⟩, by decide⟩
  have h : accIs ((wE (wCmd .tcopy true true [wMove] none 0xFFFFFFFF)).unitRead ((wCmd .tcopy true true [wMove] none 0xFFFFFFFF).agent .none) (wMove.len / 128 + 2) wMove.src wMove.len)
      (fun a => a.2.length == wMove.len && a.1.cmds == (wE (wCmd .tcopy true true [wMove] none 0xFFFFFFFF)).cmds) = true := by decide +kernel
  obtain ⟨⟨s1, bs⟩, h1, h⟩ := accIs_ok h
  simp only [Bool.and_eq_true, beq_iff_eq] at h
  exact ⟨s1, bs, h1, h.1, h.2⟩

/-- A BEAMGO of grove 1, or its request form. -/
def wBeam (req traced : Bool) (h : Nat) (p : List Held) : Beam := ⟨4, 1, 0, 0, 0, 65280, req, 1, 0, 0, traced, p, h, 2048, 50⟩

/-- The device with the beam command. -/
def wB (b : Beam) : State := { wData (wD (wBar 0 0 0)) with beams := [b] }

/-- A beam list of one tile, without room for a batch. -/
def wList : List Byte := List.replicate 120 0 ++ leBytes 4 1 ++ List.replicate 140 0

theorem wit_EngineWork_ends :
    (∀ h ∈ [0xFFFFFFFF, 0x0030001F], let c := wCmd .tcopy true true [] none h
      (wE c).cmd? 4 = some c ∧ c.vt ≤ (wE c).gt ∧ (∀ x ∈ (wE c).peerStores, x.core ≠ 256 + c.id) ∧ c.deliver = [(h, 2048)]) ∧
    (∃ b, EntryOf (wD (wBar 0 0 0)) (wBar 0 0 0) 0x0030001F b ∧ -2 ^ 39 ≤ b.pend - 2048 ∧ b.pend - 2048 < 2 ^ 39) ∧
    (let c := wCmd .coll true false [] none 0xFFFFFFFF
     (wE c).cmd? 4 = some c ∧ c.op = .coll ∧ ((wE c).ctx c.ctx).halted = false ∧ c.since + 1000 * (((wE c).csrRaw c.ctx 7).toNat % 2 ^ 28) ≤ (wE c).gt) ∧
    (∀ b ∈ [wBeam false true 0xFFFFFFFF [], wBeam false true 0x0030001F [], wBeam true true 0 [], wBeam true true 0 [⟨50, 5, [], 0⟩]], (wB b).beams.find? (fun x => x.id == 4) = some b ∧
      (wB b).grove? b.gid = some (wBar 0 0 0) ∧ (wB b).clocked (b.core / 128) = true ∧ b.traced = true ∧ b.vt ≤ (wB b).gt ∧ (∀ x ∈ (wB b).peerStores, x.core ≠ 256 + b.id) ∧ (wB b).bedCount b.core (bedOf 5) 0 < 256) ∧
    (let b := wBeam false false 0 []
     let s := wMemory (wB b) 65280 wList
     s.beams.find? (fun x => x.id == 4) = some b ∧ s.mayStartBeam b = true ∧
      ∃ s1 s2 s3 st h n vt, s.planBeams (b.agent .none) b.list = .ok (s1, .go st h n) ∧ s1.storesReady (b.agent .none) st = .ok s2 ∧ s2.storeAll (b.agent .none) st = (s3, vt, none)) ∧
    (let b := wBeam true false 0 []
     (wB b).mayStartBeam b = true ∧ b.count = 1 ∧ ∃ s1 bs, (wB b).unitRead (b.agent .none) 2 b.list 32 = .ok (s1, bs) ∧ bs.length = 32 ∧ (∀ e ∈ bs, e.2 = false) ∧ s1.clocked 0 = true) := by
  refine ⟨by decide, ⟨tabGet Barrier.init (wBar 0 0 0).bars 31, by unfold EntryOf; decide⟩, by decide, by decide, ⟨by decide, by decide, ?_⟩, by decide, rfl, ?_⟩
  · have h : accIs ((wMemory (wB (wBeam false false 0 [])) 65280 wList).planBeams ((wBeam false false 0 []).agent .none) (wBeam false false 0 []).list) (fun a =>
        match a.2 with
        | .go st _ _ => accIs (a.1.storesReady ((wBeam false false 0 []).agent .none) st) fun s2 => decide ((s2.storeAll ((wBeam false false 0 []).agent .none) st).2.2 = none)
        | _ => false) = true := by decide +kernel
    obtain ⟨⟨s1, p⟩, h1, h⟩ := accIs_ok h
    cases p with
    | bad _ => cases h
    | go st x n =>
      obtain ⟨s2, h2, h⟩ := accIs_ok h
      exact ⟨s1, s2, _, st, x, n, _, h1, h2, Prod.ext rfl (Prod.ext rfl (of_decide_eq_true h))⟩
  · have h : accIs ((wB (wBeam true false 0 [])).unitRead ((wBeam true false 0 []).agent .none) 2 (wBeam true false 0 []).list 32)
        (fun a => a.2.length == 32 && (a.2.all fun e => e.2 == false) && a.1.clocked 0) = true := by decide +kernel
    obtain ⟨⟨s1, bs⟩, h1, h⟩ := accIs_ok h
    simp only [Bool.and_eq_true, beq_iff_eq, List.all_eq_true] at h
    exact ⟨s1, bs, h1, h.1.1, h.1.2, h.2⟩

/-- The device with context 0 unprivileged. -/
def wUser (s : State) : State := s.setCsrRaw 0 0 1

theorem wit_PrivilegedWords :
    (∀ g ∈ [wG, wR [(0, 0x11B)], wR [(0, 0x40009)], wR [(0, 0x3FFFF), (1, 0xFFFFFFFF)]], FrontAt (wF g) 1 0 0 g ∧ g.front.guard hU = true ∧ (∀ x, g.front.seg = some x → x.checks = []) ∧
      FrontDecodes ⟨hU, 1, false, 1, []⟩ g ∧ FrontDecodes ⟨hU, 1, false, 0, []⟩ g ∧ Privileged (wF g) g) ∧
    (ListedCsr 0x11B ∧ 0x11B ∉ [2, 3, 4] ∧ ListedCsr 0x7FF) ∧
    (∀ e ∈ [(0x01, 128), (0x01, 4096), (0x05, 0xFFFFFFFF), (0x06, 5), (0x07, 1), (0x08, 1), (0x09, 64), (0x0A, 7), (0x0B, 3), (0x10, 0xFFFFFFFF), (0x17, 1), (0x18, 65536), (0x19, 0x7FFFFF), (0x1A, 9),
        (0x1B, 1024), (0x100, 0x1FFFF), (0x13F, 0), (0x400, 5), (0x7FF, 0x80000000)], (csrKept e.1 e.2).isSome) ∧
    (let g := wR [(0, 65536)]
     FrontAt (wF g) 1 0 0 g ∧ FrontDecodes ⟨hU, 1, true, 0, [.s 0 2 2]⟩ g ∧ (wF g).releaseMet g.id none g.front.core .system (wF g).nextId = true ∧ (g.front.pair 0).toNat / 2 ^ 57 = 0 ∧
      (g.front.pair 0).toNat / 2 ^ 54 ≠ 4 ∧ (wF g).homeOf g.ctx (g.front.pair 0).toNat = .phys 0) ∧
    (let g := wR [(0, 63)]
     FrontAt (wF g) 1 0 0 g ∧ (wF g).ctxEnabled 63 = false ∧ ((wF g).setCsrRaw 63 0 1).ctxEnabled 63 = true ∧ 63 ≠ g.ctx ∧ natBit (wF g).hub.snapCfg 0 = false ∧ g.unlogged = true) ∧
    (natBit ({ Hub.reset with snapCfg := 1 } : Hub).snapCfg 0 = true ∧ natBit ({ Hub.reset with snapCfg := 1 } : Hub).snapStat 0 = false) ∧ FrontDecodes ⟨hU, 1, false, 0, [.s 28 4 4]⟩ wG ∧
    (FrontAloneAt (wUser (wF wG)) 1 0 0 wG hU ∧ wG.front.th = false ∧ wG.front.txn.isOpen = false ∧ (wUser (wF wG)).handler wG.ctx true = some 0x100 ∧ natBit (wUser (wF wG)).hub.snapMask 3 = false ∧
      ¬ Privileged (wUser (wF wG)) wG) := by
  have k : ∀ g ∈ [wG, wR [(0, 0x11B)], wR [(0, 0x40009)], wR [(0, 0x3FFFF), (1, 0xFFFFFFFF)]], okG g = true ∧ g.front.guard hU = true := by decide
  have k1 : okG (wR [(0, 65536)]) = true := by decide
  have k2 : okG (wR [(0, 63)]) = true := by decide
  have a := okG_frontAlone (h := hU) wG_ok rfl
  refine ⟨fun g hg => ⟨okG_front (k g hg).1, (k g hg).2, okG_noChecks (k g hg).1, ?_⟩, ?_, ?_, ⟨okG_front k1, ?_⟩, ⟨okG_front k2, ?_⟩, by decide, ?_, ⟨⟨rfl, rfl, a.at_.isFront, a.at_.running⟩, rfl, a.done⟩, ?_⟩
  · clear k; revert g; unfold FrontDecodes Privileged; decide
  · unfold ListedCsr; decide
  · unfold csrKept; decide
  · unfold FrontDecodes; decide
  · decide
  · unfold FrontDecodes; decide
  · unfold Privileged; decide

/-- A PGINV of home 0, at or before its invalidation point, with copies to be given up. -/
def wPg (p : Option Nat) (l : List Nat) : Pginv := ⟨6, 0, 0, 65536, 50, 0, p, l⟩

/-- The device with the PGINV at a GT, and a thread that waits for it. -/
def wPgS (n : Nat) (q : Pginv) : State := { wD (wW .none (.pginv 6)) with gt := n, pginvs := [q], lines := [(128, { Line.init with phys := some 128 })] }

theorem wit_WaitsEnd :
    ((wPgS 0 (wPg none [])).pginvs.find? (fun q => q.id == 6) = some (wPg none []) ∧ (wPg none []).start ≤ (wPgS 0 (wPg none [])).gt) ∧
    ((wPgS 0 (wPg (some 0) [1])).pginvs.find? (fun q => q.id == 6) = some (wPg (some 0) [1]) ∧ (1, 3) ∉ (wPgS 0 (wPg (some 0) [1])).hostReqs) ∧
    (let s := wPgS 50 (wPg (some 0) [])
     s.pginvs.find? (fun q => q.id == 6) = some (wPg (some 0) []) ∧ 0 + (wPg (some 0) []).span ≤ s.gt ∧
      ∀ e ∈ s.lines, e.1 / 2 ^ 54 = 0 → 0 ≤ e.1 % 2 ^ 54 → e.1 % 2 ^ 54 < 65536 → e.2.owner = none ∧ e.2.lock = none) ∧
    (let g := wW (.bar 0x0030001F 1 50) (.bar 0x0030001F 1 60)
     let s := { wD g with gt := 250000050 }
     s.grove? 1 = some g ∧ g.thread? (some 0) = some (wU g) ∧ (wU g).wait = .bar 0x0030001F 1 50 ∧ (s.groves.map Grove.id).Nodup ∧ (g.lanes.map Thread.tid).Nodup ∧ 0x0030001F / 2 ^ 19 % 2 = 0 ∧
      (∀ v, (v ∈ g.lanes ∨ v = g.front) → ∀ n, v.wait = .bar 0x0030001F 1 n → 50 ≤ n) ∧ (s.ctx g.ctx).halted = false ∧ 50 + 1000 * ((s.csrRaw g.ctx 7).toNat % 2 ^ 28) ≤ s.gt ∧
      (s.csrRaw g.ctx 0xB).toNat % 2 ^ 16 = 0) ∧
    (let g := { wTw (wTxn true false 0) (.replay 50) with id := 1 }
     let s := { wD g with gt := 250000050 }
     s.grove? 1 = some g ∧ g.thread? (some 0) = some (wU g) ∧ (wU g).wait = .replay 50 ∧ (g.lanes.map Thread.tid).Nodup ∧ (wU g).txn.isOpen = true ∧ (s.ctx g.ctx).halted = false ∧
      50 + 1000 * ((s.csrRaw g.ctx 7).toNat % 2 ^ 28) ≤ s.gt) := by
  refine ⟨by decide, by decide, by decide, ⟨rfl, rfl, rfl, by decide, by decide, by decide, ?_, rfl, by decide, by decide⟩, by decide⟩
  have k : ∀ v ∈ (wW (.bar 0x0030001F 1 50) (.bar 0x0030001F 1 60)).lanes, v.wait = .bar 0x0030001F 1 50 ∨ v.wait = .none := by decide
  rintro v (h | rfl) n hn
  · rcases k v h with h | h <;> rw [h] at hn <;> cases hn
    exact Nat.le_refl _
  · cases hn; decide
/-- A device ready after boot, whose context 0 owns event 5. -/
def wReady : State := { (wBase.setCsrRaw 0 0xC 0x1005) with hub := { Hub.reset with ready := true }, gt := 50 }

/-- The descriptor of R78 as a number: one grove of one width-32 strand, 16 registers, event 5 incremented by 1; its SEEDT as given. -/
def wDesc (seedt : Nat) : Nat :=
  0x100000 + 2 ^ 128 + 2 ^ 160 + 2 ^ 192 + (1 + 2 ^ 10) * 2 ^ 288 + seedt * 2 ^ 352 + 5 * 2 ^ 704 + 2 ^ 736

/-- The device with queue 7 of class 2 at the record r, the last of its ring, and the descriptor at 0x30000. -/
def wQueue (r seedt : Nat) : State :=
  let s := wMemory (wMemory wReady 0x201E0 (leBytes 32 r)) 0x30000 (leBytes 128 (wDesc seedt))
  { s with queues := [(7, { Queue.init with en := true, cls := 2, ring := 0x20000, ringn := 4, head := 15, tail := 0 })], events := [(5, 3)] }

/-- What the command processor reads is there and is as f says. -/
def gotIs {α : Type} (x : Got α) (f : α → Bool) : Bool :=
  match x with
  | .ok a => f a
  | _ => false

theorem gotIs_ok {α : Type} {x : Got α} {f : α → Bool} (h : gotIs x f = true) : ∃ a, x = .ok a ∧ f a = true := by
  cases x with
  | ok a => exact ⟨a, rfl, h⟩
  | _ => cases h

theorem recordIs_of {s : State} {q r : Nat} (h : gotIs (s.readCp (s.queue q).ctx ((s.queue q).ring + 32 * (s.queue q).head) 32) (fun bs => leNat bs == r) = true) : RecordIs s q r := by
  obtain ⟨bs, h1, h2⟩ := gotIs_ok h
  exact ⟨bs, h1, by simpa using h2⟩

/-- A record: operation, event and argument. -/
def wRec (op ev arg : Nat) : Nat := op + 2 ^ 8 * ev + 2 ^ 64 * arg

theorem wit_LaunchQueues_records :
    (∀ r ∈ [wRec 0 0 0, wRec 2 5 3, wRec 2 5 4, wRec 3 5 (2 ^ 64 - 1), wRec 1 0 0x30040, wRec 1 0 0x30000], (wQueue r 1).mayStart ((wQueue r 1).queue 7) = true ∧ RecordIs (wQueue r 1) 7 r ∧ WellFormedRecord (wQueue r 1) 7 r) ∧
    (∀ r ∈ [wRec 0 (2 ^ 12) 0, wRec 2 6 0, wRec 3 4 0, 2 ^ 255 + wRec 0 0 0, wRec 4 0 0, wRec 255 0 0], (wQueue r 1).mayStart ((wQueue r 1).queue 7) = true ∧ RecordIs (wQueue r 1) 7 r ∧ ¬ WellFormedRecord (wQueue r 1) 7 r) := by
  constructor <;> intro r hr <;> simp only [List.mem_cons, List.not_mem_nil, or_false] at hr <;> rcases hr with rfl | rfl | rfl | rfl | rfl | rfl <;>
    exact ⟨by decide +kernel, recordIs_of (by decide +kernel), by decide +kernel⟩

/-- The queue with a ring outside its home, and with a launch running. -/
def wQueueOff : State := { wQueue (wRec 3 5 1) 1 with queues := [(7, { Queue.init with en := true, cls := 2, ring := 2 ^ 57, ringn := 4, head := 15, tail := 0 })] }

theorem wit_LaunchQueues :
    (wReady.hub.ready = true ∧ 63 < 64) ∧
    (wQueueOff.mayStart (wQueueOff.queue 7) = true ∧ ∃ c d, wQueueOff.readCp (wQueueOff.queue 7).ctx ((wQueueOff.queue 7).ring + 32 * (wQueueOff.queue 7).head) 32 = .refused c d) ∧
    ((∀ l ∈ (wQueue (wRec 3 5 1) 1).launches, l.queue ≠ 7) ∧
      let s := { wQueue (wRec 3 5 1) 1 with launches := [{ wLaunch with queue := 7 }] }
      s.mayStart (s.queue 7) = true ∧ RecordIs s 7 (wRec 3 5 1) ∧ ∃ l ∈ s.launches, l.queue = 7) ∧
    (0x30040 % 128 ≠ 0 ∧ 0x30000 % 128 = 0) ∧
    (∃ c d, (wQueue (wRec 1 0 (2 ^ 57)) 1).readSubmission 0 (2 ^ 57) 0 = .refused c d) ∧
    (∀ d ∈ [0, 1], ∃ sub, (wQueue (wRec 1 0 0x30000) d).readSubmission 0 0x30000 0 = .ok sub ∧
      (wQueue (wRec 1 0 0x30000) d).reasons 0 (realtimeClass 2) (decide ¬ WellFormedRecord (wQueue (wRec 1 0 0x30000) d) 7 (wRec 1 0 0x30000)) 0 sub = (if d = 0 then [1] else []) ∧ sub.desc.mode = 0) ∧
    (let s := { wReady with queues := [(7, { Queue.init with wait := some (5, 3) })], events := [(5, 3)] }
     (s.queue 7).wait = some (5, 3) ∧ 3 ≤ tabGet 0 s.events 5) := by
  refine ⟨by decide, ⟨by decide +kernel, ?_⟩, ⟨by decide, by decide +kernel, recordIs_of (by decide +kernel), by decide⟩, by decide, ?_, fun d hd => ?_, by decide⟩
  · exact ⟨_, _, rfl⟩
  · exact ⟨_, _, rfl⟩
  · have h : gotIs ((wQueue (wRec 1 0 0x30000) d).readSubmission 0 0x30000 0) (fun sub =>
        decide ((wQueue (wRec 1 0 0x30000) d).reasons 0 (realtimeClass 2) (decide ¬ WellFormedRecord (wQueue (wRec 1 0 0x30000) d) 7 (wRec 1 0 0x30000)) 0 sub = (if d = 0 then [1] else [])) &&
          decide (sub.desc.mode = 0)) = true := by
      simp only [List.mem_cons, List.not_mem_nil, or_false] at hd
      rcases hd with rfl | rfl <;> decide +kernel
    obtain ⟨sub, h1, h⟩ := gotIs_ok h
    simp only [Bool.and_eq_true, decide_eq_true_eq] at h
    exact ⟨sub, h1, h.1, h.2⟩

/-- The device with a launch, its queue's turn. -/
def wLife (f : Launch → Launch) : State := { wReady with launches := [f { wLaunch with id := 8, queue := 7, cls := 2 }], nextId := 10 }

/-- A record of node 0 of that launch. -/
def wCont (wide : Bool) : ContRec := ⟨3, 0, 0, 8, 2, 0, 0, [(0, 1), (1, 2), (2, 3), (3, 4)], 256, 0, wide, none⟩

theorem wit_GroveLife :
    (let s := wLife id
     ∃ l, s.launchOf 8 = some l ∧ s.launchReady l = true ∧ s.firstInClass l.cls false = true ∧ s.queueTurn l = true ∧ 3 ∈ s.launchCores l.desc l.next ∧
      s.eligible l.ctx (realtimeClass l.cls) l.desc 3 0 = true ∧ l.desc.verify = false ∧ l.desc.pair = false) ∧
    (let s := wLife fun l => { l with desc := { l.desc with cogrid := true } }
     ∃ l, s.launchOf 8 = some l ∧ l.desc.cogrid = true ∧ l.next = 0 ∧ l.desc.size = 1 ∧ s.dispatching l.ctx = true ∧ s.cogridWaits l = false ∧ s.firstInClass l.cls false = true ∧ s.queueTurn l = true ∧
      3 ∈ s.launchCores l.desc 0 ∧ s.eligible l.ctx (realtimeClass l.cls) l.desc 3 0 = true ∧ l.desc.verify = false ∧ l.desc.pair = false) ∧
    (let s := { wLife id with conts := [wCont false] }
     s.conts.find? (fun x => x.id == 3) = some (wCont false) ∧ ∃ l d, s.launchOf (wCont false).launch = some l ∧ l.desc.mode = 0 ∧ l.nodes[(wCont false).node]? = some d ∧
      s.dispatching l.ctx = true ∧ s.contNext l (wCont false) = true ∧ 3 ∈ (wCont false).cores ∧ s.eligible l.ctx (realtimeClass l.cls) d 3 0 = true ∧
      s.firstInClass l.cls true = true ∧ d.verify = false ∧ d.pair = false ∧ (wCont false).args.length = 4 ∧ ∀ i < 4, ((wCont false).args[i]?).map Prod.fst = some i) ∧
    (let s := { wLife id with conts := [wCont false], gt := 4096 }
     ∀ x ∈ s.conts, x.id = 3 → x.born + 4096 ≤ s.gt ∧ ∀ l, s.launchOf x.launch = some l → (s.ctx l.ctx).halted = false) ∧
    (let s := { wReady with cores := [(255, { Core.init with owner := some 0 })] }
     255 < 256 ∧ (∀ g ∈ s.groves, 255 ∉ g.cores) ∧ (s.core 255).owner = some 0) ∧
    (∀ more ∈ [true, false], let g := { wEnd with launch := 8, front := { wEnd.front with life := .exited } }
      let s := { wLife fun l => { l with next := 1 } with groves := if more then [g, { g with id := 2 }] else [g] }
      s.grove? 1 = some g ∧ s.retirable g = true ∧ (∃ l, s.launchOf g.launch = some l ∧ l.reruns = [] ∧ l.desc.size ≤ l.next ∧ l.desc.mode = 0 ∧ l.relTime ≤ s.gt) ∧
        ((∃ o ∈ s.groves, o.launch = g.launch ∧ o.id ≠ 1) ↔ more = true) ∧ (∀ r ∈ s.conts, r.launch ≠ g.launch) ∧ g.relTime ≤ s.gt) ∧
    (let s := wLife fun l => { l with reruns := [⟨0, 0, none, true, 0, some 5, some 5, false⟩] }
     ∃ l r, s.launchOf 8 = some l ∧ l.reruns.find? (fun x => x.tag == 0) = some r ∧ r.orig = some 5 ∧ r.again = some 5 ∧ r.skipped = false ∧ l.next < l.desc.size) := by
  refine ⟨⟨_, rfl, by decide +kernel⟩, ⟨_, rfl, by decide +kernel⟩, ⟨by decide, _, _, rfl, rfl, rfl, by decide +kernel⟩, ?_, by decide, ?_, ⟨_, _, rfl, rfl, by decide⟩⟩
  · intro s x hx _
    simp only [s, List.mem_cons, List.not_mem_nil, or_false] at hx
    subst hx
    exact ⟨by decide, fun l _ => rfl⟩
  · intro more hm
    simp only [List.mem_cons, List.not_mem_nil, or_false] at hm
    rcases hm with rfl | rfl
    · exact ⟨rfl, by decide, ⟨_, rfl, by decide⟩, by decide, by decide, by decide⟩
    · exact ⟨rfl, by decide, ⟨_, rfl, by decide⟩, by decide, by decide, by decide⟩

/-- A device with the host line 7 in a MESI state. -/
def wHost (st : Nat) : State := { wReady with mesi := if st = 0 then [] else [(7, st)] }

/-- The device with DEVID set to context 0, inbound accesses to domain 0 allowed by a code, and an export window of context 0 for peer 5. -/
def wPeer (code : Word) : State :=
  { ((((wReady.setCsrRaw 0 0x14 code).setCsrRaw 0 2 16).setCsrRaw 0 0x13F 0x10005).setCsrRaw 0 0x1A 1) with devb := [(8, 64)] }

theorem wit_HostAndPeers :
    (tabGet 0 (wHost 0).mesi 7 = 0 ∧ ∀ st ∈ [1, 2, 3], tabGet 0 (wHost st).mesi 7 ≠ 0) ∧
    (∀ st ∈ [1, 2, 3], ∀ k ∈ [0, 1, 2], let s := { wHost st with snoops := [⟨7, k⟩], lines := [(5, { Line.init with phys := some (7 * 128), h := 49, p := 50 })] }
      s.snoops.find? (fun x => x.line == 7) = some ⟨7, k⟩ ∧ StoresSeen s 7 ∧ LeasesOver s 7 ∧ s.anyPoison (7 * 128) 128 = false ∧ k < 3) ∧
    (∀ st ∈ [1, 2, 3], tabGet 0 (wHost st).mesi 7 ≠ 0 ∧ (∀ x ∈ (wHost st).snoops, x.line ≠ 7) ∧ StoresSeen (wHost st) 7 ∧ LeasesOver (wHost st) 7) ∧
    (∀ code ∈ [1, 2, 3], let s := wPeer (BitVec.ofNat 32 code)
      s.hub.ready = true ∧ 65408 < s.liveStacks 0 * 2 ^ 36 ∧ s.liveStacks 1 * 2 ^ 36 ≤ 2 ^ 40 ∧ s.barred 0 (65408 / 128) = false ∧ s.lineComing (lineKey 0 65408) = false ∧
        (tabGet 0 s.devb 8).toNat / 64 % 2 = 1 ∧ (tabGet 0 s.devb 8).toNat % 64 = 0 ∧ 65408 % 128 = 0 ∧ (s.line (lineKey 0 65408)).lock = none ∧ (s.line (lineKey 0 65408)).owner = none ∧
        s.fate 0 true .load 0 65408 = .ok 65408 code ∧ s.anyPoison (65408 / 128 * 128) 128 = false ∧ s.fate 0 true .store 0 65408 = (if code = 2 then .ok 65408 2 else .protection)) ∧
    (∀ pk code, (wPeer 0).fate 0 true .load 0 65408 ≠ .ok pk code) ∧ (∀ pk code, (wPeer 1).fate 0 true .store 0 65408 ≠ .ok pk code) ∧ (tabGet 0 wReady.devb 8).toNat / 64 % 2 = 0 ∧
    (List.replicate 128 (1 : Byte)).length = 128 ∧
    (∀ k ∈ [3, 4], let s := { wReady with hostReqs := [(7, k)], reqs := [{ wReq .load .relaxed [] [] with atOwner := true, atHost := some 7 }] }
      s.hostReqs.find? (fun e => e.1 == 7 && 3 ≤ e.2) = some (7, k) ∧ s.unitWrites = [] ∧ ∀ r ∈ s.reqs, r.atHost = some 7 → r.op.writes = false) ∧
    wReady.ctxEnabled 5 = false ∧ Hub.reset.ready = false ∧
    (let s := wPeer 1
     s.hub.ready = true ∧ 0 < 64 ∧ s.ctxEnabled 0 = true ∧ (s.csrRaw 0 2).toNat / 16 % 2 = 1 ∧ (s.csrRaw 0 (0x100 + 63)).toNat = 2 ^ 16 + 5 ∧ 65520 < (s.csrRaw 0 0x1A).toNat % 2 ^ 24 * 65536 ∧
      let va := (s.csrRaw 0 0x18).toNat + 2 ^ 32 * (s.csrRaw 0 0x19).toNat + 65520
      s.homeOf 0 va = .phys 0 ∧ s.fate 0 true .load 0 (va % 2 ^ 54) = .ok 65520 1 ∧ s.barred 0 (65520 / 128) = false ∧ s.lineComing (lineKey 0 (va % 2 ^ 54)) = false ∧ va % 128 + 16 ≤ 128 ∧ (s.line (lineKey 0 (va % 2 ^ 54))).lock = none ∧
      (s.line (lineKey 0 (va % 2 ^ 54))).owner = none ∧ s.hostNeed 0 (65520 / 128) false = none ∧ s.anyPoison 65520 16 = false) := by
  refine ⟨by decide, ?_, ?_, ?_, ?_, ?_, by decide, List.length_replicate, by decide, by decide, by decide, by decide⟩
  · unfold StoresSeen LeasesOver; decide
  · unfold StoresSeen LeasesOver; decide
  · intro code hc
    simp only [List.mem_cons, List.not_mem_nil, or_false] at hc
    rcases hc with rfl | rfl | rfl <;> decide
  · intro pk code h
    have k : (wPeer 0).fate 0 true .load 0 65408 = .protection := by decide
    rw [k] at h; cases h
  · intro pk code h
    have k : (wPeer 1).fate 0 true .store 0 65408 = .protection := by decide
    rw [k] at h; cases h
/-- The device with grove 1 on core 0, context 1 enabled on the same cluster with a REALTIME queue, and a REALTIME launch of it. -/
def wRt : State :=
  let s := (wReady.setCsrRaw 1 0 1).setCsrRaw 1 3 1
  { s with groves := [wG], queues := [(9, { Queue.init with en := true, cls := 0, ctx := 1 })], launches := [{ wLaunch with id := 8, ctx := 1 }] }

/-- The device with context 0 requested to halt, or halted, or in a draining switch. -/
def wCtx (req halted draining : Bool) : State := { wReady with groves := [wG], gt := 100000000, ctxs := [(0, { Ctx.init with haltReq := req, halted := halted, drainSet := if draining then [(0, 0)] else [] })] }

/-- The device with contexts 0 and 1 on cluster 0, context 1 with a launch, and the cluster granted to 0 or to none. -/
def wShare (grant : Option Nat) : State :=
  let s := ((wReady.setCsrRaw 1 0 1).setCsrRaw 1 3 1).setCsrRaw 0 5 1
  { s with launches := [{ wLaunch with id := 8, ctx := 1, cls := 2 }], gt := 1000, clusters := [(0, { Cluster.init with grant := grant })] }

/-- The grove with thread 0 parked. -/
def wPark : Grove := { wG with lanes := wG.lanes.map fun t => if t.tid = 0 then { t with life := .parked, stand := 0 } else t }

/-- The device with the thread's access set aside. -/
def wFall : State := { wReady with groves := [wPark], deadfalls := [(0, [⟨3, 1, false, 0, 0, 65532, 0, 7, 0, 0⟩])] }

theorem wit_ContextEvents :
    (wRt.ctxEnabled 0 = true ∧ (wRt.ctx 0).haltReq = false ∧ (wRt.ctx 0).halted = false ∧ (∀ d < 2, wRt.partMask 0 d ≠ 0 → tabGet 0 wRt.hub.relockEnd d = 0) ∧
      wRt.rtBound 0 ((wRt.heldCores 0).filter fun c => (wRt.grovesOn c).any fun g => g.ctx == 0 && !g.realtime) = true) ∧
    (let s := wCtx true false false
     (s.ctx 0).haltReq = true ∧ 0 ∉ (s.ctx 0).reported ∧ 0 ∈ s.heldCores 0 ∧ s.haltWork 0 0 = false ∧ ∃ g ∈ s.groves, g.ctx = 0 ∧ g.realtime = false ∧ 0 ∈ g.cores) ∧
    (let s := wCtx false true false
     (s.ctx 0).halted = true ∧ (∀ c ∈ s.heldCores 0, ∀ g ∈ s.groves, c ∈ g.cores → g.realtime = true → g.ctx = 0) ∧ s.rtBound 0 (s.heldCores 0) = false) ∧
    (let s := wCtx false false false
     s.ctxEnabled 0 = true ∧ (s.ctx 0).halted = false ∧ 0 < 256 ∧ s.holdsCore 0 0 = true ∧ ∀ g ∈ s.groves, g.ctx = 0 → g.desc.cogrid = true → g.node = true) ∧
    (let s := wCtx false false true
     s.ctxEnabled 0 = true ∧ (s.ctx 0).halted = false ∧ (0, 0) ∈ (s.ctx 0).drainSet ∧ 0 + 1000 * ((s.csrRaw 0 8).toNat % 2 ^ 28) ≤ s.gt ∧ wG ∈ s.groves ∧ wG.ctx = 0 ∧ 0 ∈ wG.cores) ∧
    (let s := wShare (some 0)
     (s.cluster 0).grant = some 0 ∧ (s.cluster 0).drainAt = none ∧ (s.csrRaw 0 5).toNat % 2 ^ 24 ≠ 0 ∧ (s.cluster 0).since + 1000 * ((s.csrRaw 0 5).toNat % 2 ^ 24) ≤ s.gt ∧ 1 ∈ s.namers 0 ∧
      s.hasWork 1 0 = true ∧ s.hasCogrid 0 = false ∧ (s.ctx 0).halted = false) ∧
    (let s := wShare none
     0 < 64 ∧ (s.cluster 0).grant = none ∧ (s.cluster 0).drainAt = none ∧ 1 ∈ s.namers 0 ∧ s.hasWork 1 0 = true ∧
      ∀ x ∈ s.namers 0, s.hasWork x 0 = true → (1 + 63 - (s.cluster 0).lastCtx) % 64 ≤ (x + 63 - (s.cluster 0).lastCtx) % 64) ∧
    (wReady.hub.ready = true ∧ wReady.ctxEnabled 63 = false ∧ wReady.ctxEnabled 0 = true ∧ (7 : Word).toNat % 2 = 1 ∧ (0 : Word).toNat % 2 = 0) ∧
    (wFall.hub.ready = true ∧ wFall.deadfall? 0 3 = some ⟨3, 1, false, 0, 0, 65532, 0, 7, 0, 0⟩ ∧ wFall.grove? 1 = some wPark ∧ wPark.thread? (some 0) = some (wU wPark) ∧ (wPark.lanes.map Thread.tid).Nodup ∧
      (wU wPark).th = false ∧ (wU wPark).front = false ∧ wFall.handler wPark.ctx false = some 0x80 ∧ natBit wFall.hub.snapMask 7 = false ∧ (wU wPark).seg = none) := by
  refine ⟨?_, ?_, ?_, ?_, ?_, ?_, ?_, ?_, ?_⟩ <;> decide +kernel

/-- What a part brings to a boot: an image of version v for each stage, of a key whose digest the fuses hold, and a record of the part with the secret x. -/
def wBoot (x : Option (List Byte)) (ok : Bool) (v : Nat) (signed : Bool) : BootIn where
  fuses := ⟨[1], ok, shakeNat 64 [7], [0, 0, 2, 0]⟩
  images := [⟨[1], [7], true, 0⟩, ⟨[2], [7], true, 1⟩, ⟨[3], [7], true, v⟩, ⟨[4], [7], true, 0⟩]
  secret := x
  record := ⟨[9], signed, shakeNat 64 (Config.slhPublic ((shake ([0x50, 0x59, 0x52, 0x2D, 0x49, 0x44] ++ [5])).take 96)), true, [3], [], [], [2], []⟩
  portsDown := [1]
  domain := some 9
  expanders := []

theorem wBoot_key (x : Option (List Byte)) (ok signed : Bool) (v : Nat) : shakeNat 64 [7] = (wBoot x ok v signed).fuses.keyDigest := by simp only [wBoot]

theorem wBoot_record (x : Option (List Byte)) (ok signed : Bool) (v : Nat) :
    (wBoot x ok v signed).record.digest = shakeNat 64 (Config.slhPublic ((shake ([0x50, 0x59, 0x52, 0x2D, 0x49, 0x44] ++ [5])).take 96)) := by unfold wBoot; rfl

theorem wBoot_image (x : Option (List Byte)) (ok signed : Bool) (v k : Nat) (hk : k < 4) (h : k = 2 → 2 ≤ v) : ∃ i, (wBoot x ok v signed).images[k]? = some i ∧ ImagePasses (wBoot x ok v signed) k i := by
  match k, hk with
  | 0, _ => exact ⟨_, rfl, wBoot_key x ok signed v, rfl, Nat.le_refl _⟩
  | 1, _ => exact ⟨_, rfl, wBoot_key x ok signed v, rfl, Nat.zero_le _⟩
  | 2, _ => exact ⟨_, rfl, wBoot_key x ok signed v, rfl, h rfl⟩
  | 3, _ => exact ⟨_, rfl, wBoot_key x ok signed v, rfl, Nat.zero_le _⟩

theorem wit_HubEvents_boot : BootPasses (wBoot (some [5]) true 2 true) [5] ∧ BootStops (wBoot none true 2 true) 0 ∧ BootStops (wBoot (some [5]) false 2 true) 1 ∧ BootStops (wBoot (some [5]) true 1 true) 4 ∧
    BootStops (wBoot (some [5]) true 2 false) 6 :=
  ⟨⟨rfl, rfl, fun k hk => wBoot_image _ _ _ _ k hk fun _ => Nat.le_refl _, rfl, wBoot_record _ _ _ _⟩, .secret rfl, .fuses _ rfl rfl,
    .image _ 2 rfl rfl (by decide) (fun j hj => wBoot_image _ _ _ _ j (by omega) fun h => by omega) (fun i hi h => absurd (h.2.2 : 2 ≤ i.version) (by cases hi; decide)),
    .record _ rfl rfl (fun k hk => wBoot_image _ _ _ _ k hk fun _ => Nat.le_refl _) (fun h => nomatch h.1)⟩

/-- The hub while a relock ends, while snapshots are armed, while an answer is due. -/
def wHub (f : Hub → Hub) : State := { wReady with hub := f wReady.hub }

theorem wit_HubEvents :
    (wReady.hub.ready = true ∧ (52 : Word).toNat % 64 ≤ 52 ∧ 52 < (53 : Word).toNat % 64) ∧
    (tabGet 0 wReady.hub.relockEnd 0 = 0 ∧ (∀ c < 64, (wReady.ctx c).haltReq = false) ∧ min (tabGet 48 wReady.hub.freqReq 0) (tabGet 52 wReady.hub.allowed 0) = tabGet 48 wReady.hub.freqCur 0 ∧
      let s := wHub fun h => { h with allowed := [(0, 20)] }
      min (tabGet 48 s.hub.freqReq 0) (tabGet 52 s.hub.allowed 0) ≠ tabGet 48 s.hub.freqCur 0) ∧
    (let s := wHub fun h => { h with relockEnd := [(0, 50)] }
     tabGet 0 s.hub.relockEnd 0 ≠ 0 ∧ tabGet 0 s.hub.relockEnd 0 ≤ s.gt ∧ ∀ c < 64, (s.ctx c).haltReq = false) ∧
    (51 < tabGet 52 wReady.hub.allowed 0 ∧ wReady.liveDie 1 = true ∧ wReady.hub.granules.length < 16) ∧
    (wHub fun h => { h with dieFailed := [(1, true)] }).liveDie 1 = false ∧
    (∀ n ∈ [1, 32], 1 ≤ (BitVec.ofNat 32 n : Word).toNat % 64 ∧ (BitVec.ofNat 32 n : Word).toNat % 64 ≤ 32 ∧ ∀ c < 64, wReady.ctxEnabled c = true → wReady.partMask c 1 = 0) ∧
    (wReady.hub.mbStatus ≠ 1 ∧ (wHub fun h => { h with mbStatus := 1 }).hub.mbStatus = 1) ∧
    (∀ b ∈ [0, 1], let s := wHub fun h => { h with mbBuf := [(0, if b = 0 then 252 else 253), (1, 255), (2, 1)] }
      let n := ((List.range 4).map fun i => (tabGet 0 s.hub.mbBuf i).toNat * 2 ^ (8 * i)).sum
      n = 131068 + b) ∧
    (natBit wReady.hub.snapCfg 1 = false ∧ let s := wHub fun h => { h with snapCfg := 3 }
      natBit s.hub.snapCfg 0 = true ∧ natBit s.hub.snapCfg 1 = true ∧ natBit s.hub.snapStat 0 = false) ∧
    (31 < 32 ∧ 31 ∉ (wReady.core 9).mismatch ∧ 31 ∈ (({ wReady with cores := [(9, { Core.init with mismatch := [31] })] } : State).core 9).mismatch) ∧
    (wReady.ctxEnabled 0 = true ∧ wReady.partMask 0 0 ≠ 0) := by
  refine ⟨?_, ?_, ?_, ?_, ?_, ?_, ?_, ?_, ?_, ?_, ?_⟩ <;> decide +kernel

theorem wit_EncodeDecode : ∃ i j : Instr, i.isWord = true ∧ i.wf = true ∧ j.isWord = true ∧ j.wf = true ∧ encode i = encode j :=
  ⟨.iadd ⟨true, 7⟩ 63 (.lit 0xFFFFFFFF) 63, .iadd ⟨true, 7⟩ 63 (.lit 0xFFFFFFFF) 63, rfl, by decide, rfl, by decide, rfl⟩

theorem wit_DecodeEncode : ∃ (w l : Word) (i : Instr), decode w l = .ok i := ⟨0x00009FC0, 7, _, rfl⟩

/-- The device with a word placed where a stand of thread 0, or the front thread, fetches next. -/
def wStep (w : Nat) : State := (wReady.placed w)

/-- The grove that State.placed makes. -/
def wPlaced : Grove := placedDesc.grove 10 0 0 0 0 0 (placedDesc.lanes 0 []) (placedDesc.front 0 [])

/-- Its first thread. -/
def wFirst : Thread := wPlaced.lanes.headD wPlaced.front

/-- The turn of thread 0 comes and it may issue. -/
def laneTurn (w : Nat) : Bool :=
  let s := wStep w
  decide (s.nextTurn.1 = .lane 10 0) && decide (s.grove? 10 = some wPlaced) && decide (s.thread? 10 (some 0) = some wFirst) && wFirst.ready && s.mayRun wPlaced wFirst.core && s.nextTurn.2.laneTurn wPlaced wFirst

/-- The turn of the front thread comes and it may issue. -/
def frontTurn (w : Nat) : Bool :=
  let s := wStep w
  decide (s.nextTurn.1 = .front 10) && decide (s.grove? 10 = some wPlaced) && wPlaced.front.ready && s.mayRun wPlaced wPlaced.core && s.nextTurn.2.frontTurn wPlaced

theorem wLaneTurn {w : Nat} (h : laneTurn w = true) : LaneTurn (wStep w) (wStep w).nextTurn.2 10 0 wPlaced wFirst := by
  simp only [laneTurn, Bool.and_eq_true, decide_eq_true_eq] at h
  exact ⟨Prod.ext h.1.1.1.1.1 rfl, h.1.1.1.1.2, h.1.1.1.2, h.1.1.2, h.1.2, h.2⟩

theorem wFrontTurn {w : Nat} (h : frontTurn w = true) : FrontTurn (wStep w) (wStep w).nextTurn.2 10 wPlaced := by
  simp only [frontTurn, Bool.and_eq_true, decide_eq_true_eq] at h
  exact ⟨Prod.ext h.1.1.1.1 rfl, h.1.1.1.2, h.1.1.2, h.1.2, .inr (by decide +kernel), h.2⟩

/-- A fetch gives a word. -/
def got (x : Got Word) (w : Word) : Bool := gotIs x fun v => v == w

theorem got_ok {x : Got Word} {w : Word} (h : got x w = true) : x = .ok w := by
  obtain ⟨v, h1, h2⟩ := gotIs_ok h
  rw [h1, eq_of_beq h2]

theorem wit_StepRunsDecoded :
    (LaneTurn (wStep 0x0000A103) (wStep 0x0000A103).nextTurn.2 10 0 wPlaced wFirst ∧
      Fetches (wStep 0x0000A103) false wPlaced.ctx wFirst.core wPlaced.desc.image wFirst.now.pc 0x0000A103 0 (.iadd ⟨false, 0⟩ 5 (.v 4) 3)) ∧
    (LaneTurn (wStep 0x700009FC0) (wStep 0x700009FC0).nextTurn.2 10 0 wPlaced wFirst ∧
      Fetches (wStep 0x700009FC0) false wPlaced.ctx wFirst.core wPlaced.desc.image wFirst.now.pc 0x00009FC0 7 (.iadd ⟨false, 0⟩ 4 (.lit 7) 0)) ∧
    (FrontTurn (wStep 0x8688CE00) (wStep 0x8688CE00).nextTurn.2 10 wPlaced ∧
      Fetches (wStep 0x8688CE00) true wPlaced.ctx wPlaced.core wPlaced.desc.image wPlaced.front.now.pc 0x8688CE00 0 (.csrr ⟨false, 0⟩ 3 7)) := by
  refine ⟨⟨wLaneTurn (by decide +kernel), ⟨got_ok (by decide +kernel), by decide, ?_, rfl⟩⟩, ⟨wLaneTurn (by decide +kernel), ⟨got_ok (by decide +kernel), by decide, ?_, rfl⟩⟩,
    ⟨wFrontTurn (by decide +kernel), ⟨got_ok (by decide +kernel), by decide, ?_, rfl⟩⟩⟩
  · rw [if_neg (by decide)]
  · rw [if_pos (by decide)]; exact got_ok (by decide +kernel)
  · rw [if_neg (by decide)]

/-- The device with the line of the image held by an engine. -/
def wHeld (w : Nat) : State := (wStep w).setLine (lineKey 0 (placedDesc.image)) { Line.init with owner := some 4 }

/-- A fetch waits. -/
def waits (x : Got Word) : Bool :=
  match x with
  | .wait _ => true
  | _ => false

theorem waits_some {x : Got Word} (h : waits x = true) : ∃ s, x = .wait s := by
  cases x with
  | wait s => exact ⟨s, rfl⟩
  | _ => cases h

theorem wit_StepRunsDecoded_waits :
    (∃ r, LaneTurn (wHeld 0x0000A103) r 10 0 wPlaced wFirst ∧ ∃ x, r.fetch wPlaced.ctx wFirst.core wPlaced.desc.image wFirst.now.pc = .wait x) ∧
    (∃ r, FrontTurn (wHeld 0x8688CE00) r 10 wPlaced ∧ ∃ x, r.fetch wPlaced.ctx wPlaced.core wPlaced.desc.image wPlaced.front.now.pc = .wait x) := by
  have h : (wHeld 0x0000A103).nextTurn.1 = .lane 10 0 ∧ (wHeld 0x0000A103).grove? 10 = some wPlaced ∧ (wHeld 0x0000A103).thread? 10 (some 0) = some wFirst ∧ wFirst.ready = true ∧
      (wHeld 0x0000A103).mayRun wPlaced wFirst.core = true ∧ (wHeld 0x0000A103).nextTurn.2.laneTurn wPlaced wFirst = true := by decide +kernel
  have k : (wHeld 0x8688CE00).nextTurn.1 = .front 10 ∧ (wHeld 0x8688CE00).grove? 10 = some wPlaced ∧ wPlaced.front.ready = true ∧
      (wHeld 0x8688CE00).mayRun wPlaced wPlaced.core = true ∧ (wHeld 0x8688CE00).nextTurn.2.frontTurn wPlaced = true := by decide +kernel
  exact ⟨⟨_, ⟨Prod.ext h.1 rfl, h.2.1, h.2.2.1, h.2.2.2.1, h.2.2.2.2.1, h.2.2.2.2.2⟩, waits_some (by decide +kernel)⟩,
    ⟨_, ⟨Prod.ext k.1 rfl, k.2.1, k.2.2.1, k.2.2.2.1, .inr rfl, k.2.2.2.2⟩, waits_some (by decide +kernel)⟩⟩

theorem wit_StandForming : (wD wG).grove? 1 = some wG ∧ (∃ t ∈ wG.lanes, t.ready = true ∧ t.stand = 0) ∧ (∃ t ∈ wG.lanes, t.ready = true ∧ t.stand ≠ 0 ∧ ∀ u ∈ wG.lanes, u.issuing t.stand = true → u.waiting = false) ∧
    (wG.lanes.map Thread.tid).Pairwise (· < ·) ∧
    (let g := { wGath with lanes := wGath.lanes.map fun t => if t.tid = 0 then t else { t with wait := .until 99 } }
     (wD g).grove? 1 = some g ∧ (g.lanes.map Thread.tid).Pairwise (· < ·) ∧ ∃ t ∈ g.lanes, t.ready = true ∧ t.stand ≠ 0 ∧ ∃ u ∈ g.lanes, u.issuing t.stand = true ∧ u.waiting = true) := by
  decide

theorem wit_StepTurns :
    (({ wD wG with sched := [.tick 3], acksDue := [(5, 1), (6, 99)] } : State).nextTurn.1 = .tick 3 ∧ (wD wG).unitWrites = []) ∧ (∀ x ∈ (wD wG).pend, (x.bytes.map Prod.fst).Nodup) ∧
    (∀ g t, ({ wD wPark with sched := [.lane 1 0] } : State).grove? 1 = some g → ({ wD wPark with sched := [.lane 1 0] } : State).thread? 1 (some 0) = some t →
      ¬ (t.ready = true ∧ ({ wD wPark with sched := [.lane 1 0] } : State).mayRun g t.core = true)) ∧
    (let g := wW .none (.until 99)
     let s := { wD g with sched := [.front 1] }
     s.nextTurn.1 = .front 1 ∧ s.grove? 1 = some g ∧ ¬ (g.front.ready = true ∧ s.mayRun g g.core = true)) ∧
    (({ wD wG with sched := [.event (.scrubPass 1)] } : State).nextTurn.1 = .event (.scrubPass 1) ∧ (Instr.scrubPass 1).isWord = false) := by
  refine ⟨by decide, by decide, fun g t h1 h2 => ?_, by decide, by decide⟩
  cases h2.symm.trans (show ({ wD wPark with sched := [.lane 1 0] } : State).thread? 1 (some 0) = some (wU wPark) from rfl)
  exact fun h => absurd h.1 (by decide)

theorem wit_MemoryKept : Memory.wf wBase.mem = true ∧ Memory.wf State.reset.mem = true := by decide +kernel

theorem wit_DecodeTraps :
    (LaneTurn (wStep 0x04C20206) (wStep 0x04C20206).nextTurn.2 10 0 wPlaced wFirst ∧ FetchTraps (wStep 0x04C20206) false wPlaced.ctx wFirst.core wPlaced.desc.image wFirst.now.pc 1 3 true 0x04C20206 ∧
      (wStep 0x04C20206).handler wPlaced.ctx false = some 0x80 ∧ natBit (wStep 0x04C20206).hub.snapMask 1 = false ∧ (wPlaced.lanes.map Thread.tid).Nodup) ∧
    (∃ n g', ((wStep 0x04C20206).nextTurn.2.formStand wPlaced wFirst).2 = n ∧ ((wStep 0x04C20206).nextTurn.2.formStand wPlaced wFirst).1.grove? 10 = some g' ∧
      ∀ u ∈ g'.lanes, u.stand = n → u.issuing n = true ∧ TrapsHere u ∧ placeOf u = placeOf wFirst ∧ u.now.pc = wFirst.now.pc ∧
        ∀ v ∈ g'.lanes, v.team = u.team ↔ v.stand = n) ∧
    (FrontTurn (wStep 0x80003FFF) (wStep 0x80003FFF).nextTurn.2 10 wPlaced ∧ FetchTraps (wStep 0x80003FFF) true wPlaced.ctx wPlaced.core wPlaced.desc.image wPlaced.front.now.pc 1 6 true 0x80003FFF ∧
      (wStep 0x80003FFF).handler wPlaced.ctx true = some 0x100 ∧ wPlaced.front.front = true ∧ wPlaced.front.th = false ∧ wPlaced.front.txn.isOpen = false ∧ wPlaced.front.stopped = false ∧ wPlaced.front.seg = none) := by
  refine ⟨⟨wLaneTurn (by decide +kernel), .inr ⟨0x04C20206, got_ok (by decide +kernel), .inr (.inr (.inl ⟨by decide, by decide, rfl, rfl, rfl, rfl⟩))⟩, by decide, by decide, by decide⟩, ?_,
    wFrontTurn (by decide +kernel), .inr ⟨0x80003FFF, got_ok (by decide +kernel), .inr (.inr (.inl ⟨by decide, by decide, rfl, rfl, rfl, rfl⟩))⟩, by decide, rfl, rfl, rfl, rfl, rfl⟩
  have h : ∃ g', ((wStep 0x04C20206).nextTurn.2.formStand wPlaced wFirst).1.grove? 10 = some g' := Option.isSome_iff_exists.1 (by decide +kernel)
  obtain ⟨g', h⟩ := h
  refine ⟨_, g', rfl, h, ?_⟩
  have e : g'.lanes = ((((wStep 0x04C20206).nextTurn.2.formStand wPlaced wFirst).1.grove? 10).getD wPlaced).lanes := by rw [h]; rfl
  have k : ∀ u ∈ ((((wStep 0x04C20206).nextTurn.2.formStand wPlaced wFirst).1.grove? 10).getD wPlaced).lanes, u.stand = ((wStep 0x04C20206).nextTurn.2.formStand wPlaced wFirst).2 →
      u.issuing ((wStep 0x04C20206).nextTurn.2.formStand wPlaced wFirst).2 = true ∧ u.front = false ∧ u.th = false ∧ u.txn.isOpen = false ∧ u.stopped = false ∧ u.seg = none ∧
        placeOf u = placeOf wFirst ∧ u.now.pc = wFirst.now.pc ∧
        ∀ v ∈ ((((wStep 0x04C20206).nextTurn.2.formStand wPlaced wFirst).1.grove? 10).getD wPlaced).lanes, v.team = u.team ↔ v.stand = ((wStep 0x04C20206).nextTurn.2.formStand wPlaced wFirst).2 := by decide +kernel
  intro u hu hs
  obtain ⟨h1, h2, h3, h4, h5, h6, h7, h8, h9⟩ := k u (e ▸ hu) hs
  exact ⟨h1, ⟨h2, h3, h4, h5, by simp [h6]⟩, h7, h8, fun v hv => h9 v (e ▸ hv)⟩

theorem wit_AddressTraps :
    (∀ g ∈ [wMem 0xFFFFFFFF, wMem 65534], AloneAt (wL g) 1 5 0 0 g hU (wU g) ∧ FrontAloneAt (wF g) 1 0 0 g hU ∧ (wU g).front = false ∧ (wU g).th = false ∧ (wU g).txn.isOpen = false ∧
      (wL g).handler g.ctx false = some 0x80 ∧ (wF g).handler g.ctx true = some 0x100 ∧ (∀ c ∈ [4, 5, 8], natBit (wL g).hub.snapMask c = false ∧ natBit (wF g).hub.snapMask c = false) ∧
      (wL g).loadHeld g.id (some (wU g).tid) (laneEa (wL g) g (wU g) (.v 0)) = false ∧ (wL g).acquiring g.id (some (wU g).tid) = false ∧ FrontFree (wF g) g ∧ g.front.th = false ∧ g.front.txn.isOpen = false) ∧
    (let g := wR [(1, 0x08000000)]
     (wL g).homeOf g.ctx (laneEa (wL g) g (wU g) (.v 0)) = .bad ∧ (wF g).homeOf g.ctx (frontEa (wF g) g (.s 0) 0) = .bad ∧ okG g = true) ∧
    (let g := wMem 65534
     (wL g).homeOf g.ctx (laneEa (wL g) g (wU g) (.v 0)) ≠ .bad ∧ laneEa (wL g) g (wU g) (.v 0) % 4 ≠ 0 ∧ frontEa (wF g) g (.s 0) 0 % 4 ≠ 0 ∧
      scratchEa (readA ((wL g).env g) (wU g) (.v 0)) 0 0 % 4 ≠ 0) ∧
    (let g := wScr 65536
     okG g = true ∧ scratchEa (readA ((wL g).env g) (wU g) (.v 0)) 0 0 % 4 = 0 ∧ OutOfScratch g (scratchEa (readA ((wL g).env g) (wU g) (.v 0)) 0 0) 4) ∧
    (let g := wScr 0x80000000
     okG g = true ∧ OutOfScratch g (scratchEa (readA ((wL g).env g) (wU g) (.v 0)) 0 0) 4) := by
  have k : ∀ g ∈ [wMem 0xFFFFFFFF, wMem 65534], okG g = true ∧ (wU g).guard hU = true ∧ g.front.guard hU = true := by decide +kernel
  refine ⟨fun g hg => ⟨okG_alone (k g hg).1 (k g hg).2.1, okG_frontAlone (k g hg).1 (k g hg).2.2, ?_, ?_, ?_, ?_, ?_, ?_, ?_, ?_, ⟨okG_noChecks (k g hg).1, rfl⟩, ?_, ?_⟩, by decide +kernel, by decide +kernel, ?_, ?_⟩
  any_goals (clear k; revert g; decide +kernel)
  all_goals (unfold OutOfScratch; decide +kernel)

theorem wit_GuardFalse : StandAt (wL wG) 1 5 0 0 wG ∧ NoneOpen wG 5 ∧ (∀ u ∈ wG.lanes, u.stand = 5 → u.guard hF = false) ∧ FrontAt (wF wG) 1 0 0 wG ∧ wG.front.guard hF = false ∧
    (∀ sh ∈ [(⟨hF, 1, false, 1, groupV 63 1 ++ needA (.v 0)⟩ : Shape), ⟨hF, 1, false, 4, groupV 60 4 ++ needA64 (.v 62)⟩, ⟨hF, 1, true, 0, []⟩, ⟨hF, 1, false, 0, v1 63 ++ [.v 60 4 4]⟩,
      ⟨hF, 1, false, 0, [.v 60 4 4] ++ v2 62 ++ v1 63⟩, ⟨hF, 1, false, 0, [.v 56 8 8] ++ v2 62 ++ v1 63⟩], LaneDecodes sh wG 5) ∧
    ∀ sh ∈ [(⟨hF, 1, false, 4, groupS 28 4 ++ needUA64 (.s 30)⟩ : Shape), ⟨hF, 1, true, 0, []⟩, ⟨hF, 1, false, 1, []⟩, ⟨hF, 1, true, 0, [.s 30 2 2]⟩, ⟨hF, 1, false, 0, [.s 28 4 4] ++ s2 30⟩], FrontDecodes sh wG := by
  refine ⟨okG_stand wG_ok, okG_noneOpen wG_ok 5, by decide, okG_front wG_ok, by decide, ?_, ?_⟩
  · unfold LaneDecodes; decide
  · unfold FrontDecodes; decide

/-! Witnesses for the clauses about the array's forms, the numbers, the checks at home and the engines' plans. -/

theorem tabGet_run {α : Type} (d v : α) (k n : Nat) : ∀ a, tabGet d ((List.range' a n).map fun i => (i, v)) k = if a ≤ k ∧ k < a + n then v else d := by
  induction n with
  | zero => intro a; rw [if_neg (by omega)]; rfl
  | succ n ih =>
    intro a
    simp only [List.range'_succ, List.map_cons, tabGet, ih]
    split
    · rw [if_pos (by omega)]
    · split <;> split <;> first | rfl | omega

/-- The array forms and, of the latent modes, those that permit them. -/
def wForms : List MmaForm :=
  [.mmaBf16, .mmaFp16, .mmaE4, .mmaE5, .mmaF6a, .mmaF6b, .mmaF4, .mmaMx4, .mmaMx6a, .mmaMx8, .mmaI8, .mmaI4, .mmaI8bf, .mmaI8e4, .mmaBfmx4, .mmaE4bf]

theorem wSound (cmd : ArrayCmd) (s t : Nat) (c : TileClass) : Sound (wSeq cmd s t c) (wFlight cmd s t) := by
  refine ⟨fun _ => rfl, fun _ => rfl, fun i _ => ?_⟩
  cases c <;> rfl

/-- The chunk's command is due. -/
theorem wDue (cmd : ArrayCmd) (s t : Nat) (c : TileClass) (h : (wD (wSeq cmd s t c)).chunkTurn (wSeq cmd s t c) (wFlight cmd s t) = true) : ChunkDue (wD (wSeq cmd s t c)) 1 (wSeq cmd s t c) (wFlight cmd s t) :=
  ⟨rfl, rfl, h⟩

/-- A grove whose weight slot 0 keeps positions 0 and 1 of every group of a sparse BF16 record. -/
def wKept : Grove := { wSeq (.mma .mmaBf16 { wMma with dm := .sparse } none) 16 32 .acw with wb := (List.range' 8192 1024).map fun i => (i, 0x44) }

theorem wKept_wb : wKept.wb = (List.range' 8192 1024).map fun i => (i, 0x44) := rfl

theorem wit_ArrayWork_mma :
    (∀ f ∈ wForms, ∀ s ∈ [0, 16], ∀ l ∈ [none, some (⟨0, 0, 0, true⟩ : MmaLit)], let g := wSeq (.mma f wMma l) s 32 (formSpec f).cls
      ChunkDue (wD g) 1 g (wFlight (.mma f wMma l) s 32) ∧ Sound g (wFlight (.mma f wMma l) s 32) ∧ s % 16 = 0 ∧ s + 16 ≤ 32) ∧
    (∀ s ∈ [0, 64, 112], let a : MmaArgs := { wMma with dm := .expand }
     let g := wSeq (.mma .mmaBf16 a none) s 128 .acw
     ChunkDue (wD g) 1 g (wFlight (.mma .mmaBf16 a none) s 128) ∧ Sound g (wFlight (.mma .mmaBf16 a none) s 128) ∧ (wFlight (.mma .mmaBf16 a none) s 128).rank ∈ [64, 128, 256, 512] ∧
      stepsOfChunk (formSpec .mmaBf16) (wFlight (.mma .mmaBf16 a none) s 128) a = 128) ∧
    (∀ s ∈ [0, 64, 80], let a : MmaArgs := { wMma with dm := .absorb }
     let g := wSeq (.mma .mmaBf16 a none) s 96 .acw
     ChunkDue (wD g) 1 g (wFlight (.mma .mmaBf16 a none) s 96) ∧ Sound g (wFlight (.mma .mmaBf16 a none) s 96) ∧ 96 = stepsOfChunk (formSpec .mmaBf16) (wFlight (.mma .mmaBf16 a none) s 96) a) ∧
    (let a : MmaArgs := { wMma with dm := .sparse }
     let m := wFlight (.mma .mmaBf16 a none) 16 32
     ChunkDue (wD wKept) 1 wKept m ∧ Sound wKept m ∧ GroupsOk wKept m (formSpec .mmaBf16) a ∧
      (keptAt (wSeq (.mma .mmaBf16 a none) 16 32 .acw) 0 (formSpec .mmaBf16) a 0 0 0).2 ≤ (keptAt (wSeq (.mma .mmaBf16 a none) 16 32 .acw) 0 (formSpec .mmaBf16) a 0 0 0).1) := by
  refine ⟨fun f hf s hs l hl => ⟨wDue _ _ _ _ ?_, wSound _ _ _ _, ?_⟩, fun s hs => ⟨wDue _ _ _ _ ?_, wSound _ _ _ _, by simp [wFlight], by simp [stepsOfChunk, wFlight]⟩, fun s hs => ⟨wDue _ _ _ _ ?_, wSound _ _ _ _, by simp [stepsOfChunk, wFlight, wMma]⟩,
    ⟨rfl, rfl, by decide⟩, wSound (.mma .mmaBf16 { wMma with dm := .sparse } none) 16 32 .acw, ?_, by decide⟩
  · revert f s l; decide
  · revert s; decide
  · revert s; decide
  · revert s; decide
  · intro j hj q hq
    have e : keptAt wKept 0 (formSpec .mmaBf16) { wMma with dm := .sparse } 0 j q = (0, 1) := by
      have v : streamCode (fun o => tabGet 0 wKept.wb (8192 + o)) 4 (j * 32 + q) = 4 := by
        have f : ∀ b < 4, tabGet 0 wKept.wb (8192 + (4 * (j * 32 + q) + b) / 8) = 0x44 := by
          intro b hb
          have hq : q < 32 := hq
          rw [wKept_wb, tabGet_run, if_pos (by omega)]
        have o : ∀ n, (List.range 4).map (fun b => (if b < 4 then (68 : Nat) else 0) / 2 ^ ((4 * n + b) % 8) % 2 * 2 ^ b) = [0, 0, 4, 0] := by
          intro n
          have h : n % 2 = 0 ∨ n % 2 = 1 := by omega
          rcases h with h | h
          · have k : ∀ b < 4, (4 * n + b) % 8 = b := by omega
            simp [List.range_succ, k, show 4 * n % 8 = _ from k 0 (by decide)]
          · have k : ∀ b < 4, (4 * n + b) % 8 = 4 + b := by omega
            simp [List.range_succ, k, show 4 * n % 8 = _ from k 0 (by decide)]
        have l : (List.range 4).map (fun b => (tabGet 0 wKept.wb (8192 + (4 * (j * 32 + q) + b) / 8)).toNat / 2 ^ ((4 * (j * 32 + q) + b) % 8) % 2 * 2 ^ b) =
            (List.range 4).map (fun b => (if b < 4 then (68 : Nat) else 0) / 2 ^ ((4 * (j * 32 + q) + b) % 8) % 2 * 2 ^ b) :=
          List.map_congr_left fun b hb => by rw [f b (List.mem_range.1 hb), if_pos (List.mem_range.1 hb)]; rfl
        unfold streamCode
        rw [l, o]
        rfl
      show ((streamCode (fun o => tabGet 0 wKept.wb (8192 + o)) 4 (j * 32 + q)) % 4, (streamCode (fun o => tabGet 0 wKept.wb (8192 + o)) 4 (j * 32 + q)) / 4) = _
      rw [v]
    show (keptAt wKept 0 (formSpec .mmaBf16) { wMma with dm := .sparse } 0 j q).1 < (keptAt wKept 0 (formSpec .mmaBf16) { wMma with dm := .sparse } 0 j q).2
    rw [e]
    decide

/-- A grove whose threads stand at the end of two nested loops, on the last turn of the inner and a turn n of the outer. -/
def wNested (n : Word) : Grove := wC fun c => { c with pc := 7, frames := [⟨1, 5, 7⟩, ⟨0, 3, 7⟩], lc := [(0, n), (1, 1)] }

theorem wit_LoopWords_nested : ∀ n ∈ [(1 : Word), 2], ∃ u ∈ (wNested n).lanes, ∃ f k, u.now.frames = [f, k] ∧ f.last = u.now.pc ∧ tabGet 0 u.now.lc f.level = 1 ∧ k.last = u.now.pc ∧
    tabGet 0 (tabSet 0 u.now.lc f.level 0) k.level = n := by
  intro n hn
  simp only [List.mem_cons, List.not_mem_nil, or_false] at hn
  rcases hn with rfl | rfl <;> exact ⟨_, List.mem_cons_self, ⟨1, 5, 7⟩, ⟨0, 3, 7⟩, rfl, rfl, rfl, rfl, rfl⟩

theorem readZero32 : codeValue .fp32 0 = 0 := by simp [codeValue, manField, expField, signOf, Fmt.mant, Fmt.width]

theorem readOne32 : codeValue .fp32 0x3F800000 = 1 := by
  have e : expField .fp32 0x3F800000 = 127 := by decide
  have m : manField .fp32 0x3F800000 = 0 := by decide
  have s : signOf .fp32 0x3F800000 = false := by decide
  have b : Fmt.bias .fp32 = 127 := rfl
  simp [codeValue, e, m, s, b]

/-- A weight row of one tap of weight 1 in place 0. -/
theorem wTaps : Taps (fun k => if k = 0 then 0x3F800000 else 0) (fun k => if k = 0 then 3 else 255) (fun k => if k = 0 then 256 else 0) := by
  have n : ∀ k : Nat, k ≠ 0 → ¬ ((if k = 0 then 3 else 255) < 64) := fun k hk => by rw [if_neg hk]; decide
  refine ⟨fun k => if k = 0 then 1 else 0, fun k hk => ⟨fun h => ?_, fun h => ?_⟩, ?_⟩
  · by_cases e : k = 0
    · subst e; exact readOne32.symm
    · exact absurd h.1 (n k e)
  · by_cases e : k = 0
    · subst e
      exact absurd ⟨by decide, by decide, by show 0 < codeValue .fp32 0x3F800000; rw [readOne32]; exact one_pos⟩ h
    · simp [e]
  · have s : ((List.range 8).map fun k : Nat => (if k = 0 then (1 : ℝ) else 0)).sum = 1 := by simp [List.range_succ]
    refine ⟨fun h => absurd (s.symm.trans h) one_ne_zero, fun _ => ⟨0, fun k => if k = 0 then 256 else 0, by decide, fun k _ => ⟨?_, fun _ => Nat.zero_le k⟩, fun k _ => ⟨fun h => ?_, fun h => ?_⟩, fun k _ => ?_⟩⟩
    · by_cases e : k = 0 <;> simp [e]
    · by_cases e : k = 0
      · subst e
        rw [s]
        refine ⟨fun _ => by norm_num, fun h => absurd ⟨256, by norm_num⟩ h⟩
      · exact absurd h.1 (n k e)
    · by_cases e : k = 0
      · subst e
        exact absurd ⟨by decide, by decide, by show 0 < codeValue .fp32 0x3F800000; rw [readOne32]; exact one_pos⟩ h
      · simp [e]
    · by_cases e : k = 0 <;> simp [e, List.range_succ]

/-- Taps go by eight weights and indices. -/
theorem taps_congr {w w' ix ix' : Nat → Nat} {q : Nat → ℤ} (h : ∀ k < 8, w' k = w k ∧ ix' k = ix k) (t : Taps w ix q) : Taps w' ix' q := by
  obtain ⟨u, a, b, c⟩ := t
  refine ⟨u, fun k hk => ?_, b, fun hs => ?_⟩
  · beta_reduce; rw [(h k hk).1, (h k hk).2]; exact a k hk
  · obtain ⟨m, r, hm, hu, hr, hq⟩ := c hs
    refine ⟨m, r, hm, hu, fun k hk => ?_, hq⟩
    beta_reduce
    rw [(h k hk).1, (h k hk).2]
    exact hr k hk

/-- Zero weights give zero taps. -/
theorem wNoTaps (ix : Nat → Nat) : Taps (fun _ => 0) ix (fun _ => 0) := by
  have v : ¬ (0 : ℝ) < codeValue .fp32 0 := by rw [readZero32]; exact lt_irrefl 0
  exact ⟨fun _ => 0, fun k _ => ⟨fun h => absurd h.2.2 v, fun _ => rfl⟩, fun _ _ _ => rfl, fun h => absurd (by simp) h⟩

/-- A grove whose weight row 0 of tile 0 has one tap. -/
def wFilt : Grove := { wSeq (.mfilt 0 0 .fp16) 16 32 .acn with ta := [(2, 0x80), (3, 0x3F), (32, 3), (33, 255), (34, 255), (35, 255), (36, 255), (37, 255), (38, 255), (39, 255)] }

/-- Every entry of a batch has an area, edge functions and a depth. -/
theorem wEntry (g : Grove) (p slot t : Nat) : ∃ area e z, EntryIs g p slot t area e z := by
  let v : Nat → Int × Int := fun k => (signedOf 32 (slotField g p slot (64 + 64 * t + 8 * k) 4), signedOf 32 (slotField g p slot (64 + 64 * t + 8 * k + 4) 4))
  let area := ((v 1).1 - (v 0).1) * ((v 2).2 - (v 0).2) - ((v 2).1 - (v 0).1) * ((v 1).2 - (v 0).2)
  let w := if area < 0 then (v 0, v 2, v 1) else (v 0, v 1, v 2)
  exact ⟨area, fun k => if k = 0 then edge w.2.1 w.2.2 else if k = 1 then edge w.2.2 w.1 else edge w.1 w.2.1, _, ⟨v, fun _ _ => rfl, rfl, rfl, rfl, rfl⟩, fun _ _ => rfl⟩

theorem wFlat (f : Nat → Nat) (h : ∀ n ≤ 10, f n = 0) : FlatSplat f := by
  refine ⟨by rw [h 10 (by decide)]; decide, fun n hn => by rw [h n (by omega)]; decide, ?_, ?_, ?_⟩ <;> rw [h _ (by decide)] <;> exact readZero32

theorem wit_ArrayWork_forms :
    (let g := { wSeq (.medge 0 0) 0 16 .acw with wb := [(4, 16)] }
     ChunkDue (wD g) 1 g (wFlight (.medge 0 0) 0 16) ∧ Sound g (wFlight (.medge 0 0) 0 16) ∧ slotField g 0 0 4 1 = 16 ∧ ∀ t < 16, ∃ area e z, EntryIs g 0 0 t area e z) ∧
    (ChunkDue (wD wFilt) 1 wFilt (wFlight (.mfilt 0 0 .fp16) 16 32) ∧ Sound wFilt (wFlight (.mfilt 0 0 .fp16) 16 32) ∧ ∃ q : Nat → Nat → ℤ, q 0 0 = 256 ∧
      ∀ i < 64, Taps (fun k => tileField wFilt 0 0 (256 * i + 4 * k) 4) (fun k => tileField wFilt 0 0 (256 * i + 32 + k) 1) (q i)) ∧
    (∀ s ∈ [0, 48], let g := wSeq (.mblend 0 1) s 64 .acw
      ChunkDue (wD g) 1 g (wFlight (.mblend 0 1) s 64) ∧ Sound g (wFlight (.mblend 0 1) s 64) ∧ (wFlight (.mblend 0 1) s 64).mcs2.toNat % 8 ≤ 4 ∧
      ∀ t < 16, FlatSplat fun n => tileField g 0 0 (256 * (s + t) + 4 * n) 4) ∧
    (∀ s ∈ [0, 48], let g := wSeq (.mblendb 0 1 2) s 64 .acw
      ChunkDue (wD g) 1 g (wFlight (.mblendb 0 1 2) s 64) ∧ Sound g (wFlight (.mblendb 0 1 2) s 64) ∧ (wFlight (.mblendb 0 1 2) s 64).mcs2.toNat % 8 ≤ 4) ∧
    (∀ cmd ∈ [ArrayCmd.mfilt 0 0 .n8, .mblend 0 1, .mblendb 0 1 2, .mdrain .fp32 .rne true], let g := wSeq cmd 64 64 (if cmd = .mblend 0 1 ∨ cmd = .mblendb 0 1 2 then .acw else .acn)
      (wD g).grove? 1 = some g ∧ (wFlight cmd 64 64).total ≤ (wFlight cmd 64 64).step ∧ (wFlight cmd 64 64).held = false ∧ (wFlight cmd 64 64).ac < 10 ∧ (wFlight cmd 64 64).fault = none ∧
        (g.acUnit 0 5).cls = (if cmd = .mblend 0 1 ∨ cmd = .mblendb 0 1 2 then TileClass.acw else .acn)) := by
  refine ⟨⟨⟨rfl, rfl, by decide⟩, wSound (.medge 0 0) 0 16 .acw, by decide, fun t _ => wEntry _ _ _ t⟩, ⟨⟨rfl, rfl, by decide⟩, wSound (.mfilt 0 0 .fp16) 16 32 .acn, ?_⟩,
    fun s hs => ⟨wDue _ _ _ _ (by revert s; decide), wSound _ _ _ _, by show (1 : Word).toNat % 8 ≤ 4; decide, fun t _ => wFlat _ fun _ _ => rfl⟩,
    fun s hs => ⟨wDue _ _ _ _ (by revert s; decide), wSound _ _ _ _, by show (1 : Word).toNat % 8 ≤ 4; decide⟩, by decide⟩
  refine ⟨fun i => if i = 0 then fun k => if k = 0 then 256 else 0 else fun _ => 0, rfl, fun i hi => ?_⟩
  by_cases e : i = 0
  · subst e
    have a : ∀ k < 8, tileField wFilt 0 0 (256 * 0 + 4 * k) 4 = (if k = 0 then 0x3F800000 else 0) ∧ tileField wFilt 0 0 (256 * 0 + 32 + k) 1 = if k = 0 then 3 else 255 := by decide
    exact taps_congr a wTaps
  · have a : ∀ i < 64, i ≠ 0 → ∀ k < 8, tileField wFilt 0 0 (256 * i + 4 * k) 4 = 0 := by decide +kernel
    beta_reduce
    rw [if_neg e]
    exact taps_congr (fun k hk => ⟨a i hi e k hk, rfl⟩) (wNoTaps _)

/-- Byte o of 64 image rows of the residue class: their headers alone, COUNT and the elements all zero. -/
def wImageByte (o : Nat) : Byte := if o % 320 = 0 then 12 else 0

/-- An image row. -/
def wRow : List Byte := (List.range 320).map wImageByte

/-- The device with the rows from 65280. -/
def wImages (g : Grove) : State := { wMemory (wData (wD g)) 65280 [] with mem := (wData (wD g)).mem ++ (List.range 64).map fun i => (65280 + 320 * i, 12), tlb := [(0, 30, 3)] }

/-- A row as an image holds it. -/
def wZero : AcRow := ⟨false, false, 0, 0, [], false⟩

theorem wImage : RowFits .acz wZero ∧ ImageOf .acz wZero wRow := by
  have z : ∀ j, wZero.elem j = (0, 0) := fun _ => rfl
  have r : ∀ j < 64, (wZero.elem j).2 < 4 ∧ (TileClass.acz = .acw → -2 ^ 639 ≤ (wZero.elem j).1 ∧ (wZero.elem j).1 < 2 ^ 639) ∧
      (TileClass.acz = .acn → -2 ^ 127 ≤ (wZero.elem j).1 ∧ (wZero.elem j).1 < 2 ^ 127) ∧
      (TileClass.acz = .acz → -67108351 ≤ (wZero.elem j).1 ∧ (wZero.elem j).1 ≤ 2 ^ 26 ∧ (wZero.elem j).2 = 0) := fun j _ =>
    ⟨by rw [z]; decide, fun h => (nomatch h), fun h => (nomatch h), fun _ => by rw [z]; decide⟩
  refine ⟨⟨by decide, r, fun _ j _ => z j⟩, by decide +kernel, by decide +kernel, fun j hj => ?_⟩
  have e : leNat ((wRow.drop (64 + 4 * j)).take 4) = 0 := by revert j; decide +kernel
  show (if TileClass.acz = .acz then Residue (leNat ((wRow.drop (64 + 4 * j)).take 4)) 0 else _)
  rw [if_pos rfl, e]
  exact ⟨by decide, by decide, by decide⟩

/-- A list of equal pieces, piece by piece. -/
theorem flatMap_pieces {α : Type} (f : Nat → α) (b n : Nat) : (List.range n).flatMap (fun i => (List.range b).map fun j => f (b * i + j)) = (List.range (n * b)).map f := by
  induction n with
  | zero => simp
  | succ n ih =>
    rw [List.range_succ, List.flatMap_append, ih, Nat.succ_mul, List.range_add, List.map_append]
    simp [Nat.mul_comm]

/-- Lines read one after another, when each leaves the device as it is. -/
theorem unitRead_lines (s : State) (a : Agent) (f : Nat → List (Byte × Bool)) : ∀ (n fuel va : Nat), va % 128 = 0 → va + 128 * n < 2 ^ 64 → n < fuel →
    (∀ k < n, s.unitReadLine a (va + 128 * k) 128 = .ok (s, f k)) → s.unitRead a fuel va (128 * n) = .ok (s, (List.range n).flatMap f) := by
  intro n
  induction n generalizing f with
  | zero => intro fuel va _ _ hf _; cases fuel <;> rfl
  | succ n ih =>
    intro fuel va hv hb hf h
    obtain ⟨fuel, rfl⟩ : ∃ x, fuel = x + 1 := ⟨fuel - 1, by omega⟩
    have k : min (128 * (n + 1)) (128 - va % 128) = 128 := by omega
    have r := ih (fun i => f (i + 1)) fuel (va + 128) (by omega) (by omega) (by omega) fun i hi => by
      rw [show va + 128 + 128 * i = va + 128 * (i + 1) by omega]; exact h (i + 1) (by omega)
    unfold State.unitRead
    rw [if_neg (by omega)]
    simp only [k, show s.unitReadLine a va 128 = .ok (s, f 0) from h 0 (by omega), Acc.andThen]
    rw [Nat.mod_eq_of_lt (by omega), show 128 * (n + 1) - 128 = 128 * n by omega, r]
    simp only [List.range_succ_eq_map, List.flatMap_cons, List.flatMap_map]

/-- A line at a home that nothing holds, read with no store on its way and nothing poisoned. -/
theorem unitReadLine_ok (s : State) (a : Agent) (g : Grove) (va n pk code o : Nat) (ho : va % 2 ^ 54 = o) (h1 : s.pend = []) (h2 : s.poison = []) (h3 : s.grove? a.gid = some g) (h4 : g.verify ≠ 2)
    (h5 : s.homeOf a.ctx va = .phys 0) (h6 : s.fate a.ctx false .load 0 o = .ok pk code) (h7 : (s.line (lineKey 0 o)).lock = none)
    (h8 : (s.line (lineKey 0 o)).owner = none) (h9 : (s.kept 0 o).isSome) (h10 : s.barred 0 (pk / 128) = false) (h11 : s.hostNeed 0 (pk / 128) false = none) :
    s.unitReadLine a va n = .ok (s, (s.bytesFor a.core pk n).map fun b => (b, false)) := by
  obtain ⟨e, h9⟩ := Option.isSome_iff_exists.1 h9
  have l : s.keepWalk 0 o = s := by simp only [State.keepWalk, h9]
  have m : ∀ c, s.noteEarly c 0 (lineKey 0 o) false = s := fun c => by simp [State.noteEarly, h1, earlySeen]
  have z : ((List.range n).zip (s.bytesFor a.core pk n)).map (fun e => (e.2, s.poisoned (pk + e.1))) = (s.bytesFor a.core pk n).map fun b => (b, false) :=
    List.ext_getElem (by simp [State.bytesFor]) (by simp [State.poisoned, h2])
  have v : g.overlay va (s.bytesFor a.core pk n) = s.bytesFor a.core pk n := by simp only [Grove.overlay, if_neg h4]
  have u : s.unitLine a .load va 0 = .ok (s, pk) := by
    simp only [State.unitLine, ho, h6, h7, h8, l]
    simp [h10, show s.hostNeed 0 (pk / 128) (AccKind.load == AccKind.store) = none from h11]
  simp only [State.unitReadLine, h5, u, Acc.andThen, h3, v, ho, m]
  cases hc : a.core <;> simp only [← hc, z]

/-- The device as a chunk of a command that reads an image finds it. -/
def wServed (cmd : ArrayCmd) : State := served (wImages (wSeq cmd 0 16 .acz)) (wSeq cmd 0 16 .acz) (wFlight cmd 0 16)

theorem tabGet_append {α : Type} (d : α) (l r : List (Nat × α)) (k : Nat) (h : ∀ e ∈ l, e.1 ≠ k) : tabGet d (l ++ r) k = tabGet d r k := by
  induction l with
  | nil => rfl
  | cons e l ih =>
    rw [List.cons_append, tabGet, if_neg (h e List.mem_cons_self), ih fun x hx => h x (List.mem_cons_of_mem _ hx)]

theorem tabGet_stride (d v : Byte) (k n : Nat) : ∀ a, tabGet d ((List.range' a n).map fun i => (65280 + 320 * i, v)) k =
    if 65280 + 320 * a ≤ k ∧ k < 65280 + 320 * (a + n) ∧ (k - 65280) % 320 = 0 then v else d := by
  induction n with
  | zero => intro a; rw [if_neg (by omega)]; rfl
  | succ n ih =>
    intro a
    simp only [List.range'_succ, List.map_cons, tabGet, ih]
    split
    · rw [if_pos (by omega)]
    · split <;> split <;> first | rfl | omega

theorem wServed_byte (cmd : ArrayCmd) (o : Nat) (h : o < 20480) : readByte (wServed cmd).mem (65280 + o) = wImageByte o := by
  have p : ∀ e ∈ (wData (wD wG)).mem, e.1 < 65280 := by decide +kernel
  have m : (wServed cmd).mem = (wData (wD wG)).mem ++ (List.range' 0 64).map fun i => (65280 + 320 * i, 12) := by
    rw [← List.range_eq_range']; rfl
  unfold readByte wImageByte
  rw [m, tabGet_append _ _ _ _ fun e he => by have := p e he; omega, tabGet_stride]
  split <;> split <;> first | rfl | omega

/-- What a unit of grove 1 finds for line k of the images. -/
def wLineOk (s : State) (k : Nat) : Bool :=
  let va := 65280 + 128 * k
  s.homeOf 0 va == .phys 0 && (match s.fate 0 false .load 0 va with | .ok pk 2 => pk == va | _ => false) && (s.line (lineKey 0 va)).lock.isNone &&
    (s.line (lineKey 0 va)).owner.isNone && (s.kept 0 va).isSome && !s.barred 0 (va / 128) && (s.hostNeed 0 (va / 128) false).isNone

theorem wServed_lines : ∀ cmd ∈ [ArrayCmd.mfill, .macc], ∀ k < 160, wLineOk (wServed cmd) k = true := by decide +kernel

theorem wServed_read (cmd : ArrayCmd) (hc : cmd ∈ [ArrayCmd.mfill, .macc]) (n : Nat) (hn : n ≤ 160) (fuel : Nat) (hf : n < fuel) :
    (wServed cmd).unitRead ((wSeq cmd 0 16 .acz).coreAgent 0 .none) fuel 65280 (128 * n) = .ok (wServed cmd, (List.range (n * 128)).map fun o => (wImageByte o, false)) := by
  rw [← flatMap_pieces fun o => (wImageByte o, false)]
  refine unitRead_lines _ _ _ n fuel 65280 (by decide) (by omega) hf fun k hk => ?_
  have h := wServed_lines cmd hc k (by omega)
  simp only [wLineOk, Bool.and_eq_true, beq_iff_eq, Bool.not_eq_true', Option.isNone_iff_eq_none] at h
  have hp : (wServed cmd).fate 0 false .load 0 (65280 + 128 * k) = .ok (65280 + 128 * k) 2 := by
    have := h.1.1.1.1.1.2
    split at this
    · rename_i pk e; rw [e, beq_iff_eq.1 this]
    · cases this
  have r := unitReadLine_ok (wServed cmd) ((wSeq cmd 0 16 .acz).coreAgent 0 .none) (wSeq cmd 0 16 .acz) (65280 + 128 * k) 128 (65280 + 128 * k) 2 (65280 + 128 * k) (by omega) rfl rfl rfl (show (wG.verify ≠ 2) by decide)
    h.1.1.1.1.1.1 hp h.1.1.1.1.2 h.1.1.1.2 h.1.1.2 h.1.2 h.2
  rw [r]
  have b : ∀ c, (wServed cmd).bytesFor c (65280 + 128 * k) 128 = (List.range 128).map fun j => wImageByte (128 * k + j) := fun c =>
    List.map_congr_left fun j hj => by
      have := List.mem_range.1 hj
      have e : (wServed cmd).byteFor c (65280 + 128 * k + j) = readByte (wServed cmd).mem (65280 + 128 * k + j) := by cases c <;> rfl
      rw [e, Nat.add_assoc, wServed_byte _ _ (by omega)]
  rw [b, List.map_map]
  rfl

theorem wit_ArrayWork_images : ∀ cmd ∈ [ArrayCmd.mfill, .macc], let g := wSeq cmd 0 16 .acz
    let m := wFlight cmd 0 16
    let s := wImages g
    ChunkDue s 1 g m ∧ s.loadWaits g m.start 65280 331776 = false ∧ (g.acUnit 0 5).cls = .acz ∧ (g.acUnit 0 5).interior = false ∧ (∀ i < 64, ((g.acUnit 0 5).row i).bad = false ∧ ((g.acUnit 0 5).row i).count = 0) ∧
      ∃ s1 s2 hd bs g2, (served s g m).unitRead (g.coreAgent 0 .none) 2 65280 64 = .ok (s1, hd) ∧ hd.map Prod.fst = wRow.take 64 ∧ s1.unitRead (g.coreAgent 0 .none) (linesOf 20480) 65280 20480 = .ok (s2, bs) ∧
        bs.map Prod.fst = (List.range 64).flatMap (fun _ => wRow) ∧ (∀ b ∈ bs, b.2 = false) ∧ s2.grove? 1 = some g2 ∧ g2.ac = g.ac ∧ g2.desc = g.desc ∧ g2.msq = some m := by
  intro cmd hc
  have t : (wImages (wSeq cmd 0 16 .acz)).chunkTurn (wSeq cmd 0 16 .acz) (wFlight cmd 0 16) = true ∧ (wImages (wSeq cmd 0 16 .acz)).loadWaits (wSeq cmd 0 16 .acz) (wFlight cmd 0 16).start 65280 331776 = false := by
    revert cmd; decide +kernel
  have h : accIs ((wServed cmd).unitRead ((wSeq cmd 0 16 .acz).coreAgent 0 .none) 2 65280 64) (fun a => a.2.map Prod.fst == wRow.take 64 && a.1 == wServed cmd) = true := by
    simp only [List.mem_cons, List.not_mem_nil, or_false] at hc
    rcases hc with rfl | rfl <;> decide +kernel
  obtain ⟨⟨s1, hd⟩, h1, h⟩ := accIs_ok h
  simp only [Bool.and_eq_true, beq_iff_eq] at h
  obtain ⟨h2, rfl⟩ := h
  refine ⟨⟨rfl, rfl, t.1⟩, t.2, rfl, rfl, fun i _ => ⟨rfl, rfl⟩, wServed cmd, wServed cmd, hd, _, wSeq cmd 0 16 .acz, h1, h2, wServed_read cmd hc 160 (by decide) (linesOf 20480) (by decide),
    ?_, fun b hb => ?_, rfl, rfl, rfl, rfl⟩
  · have p : (List.range 64).flatMap (fun _ => wRow) = (List.range (64 * 320)).map wImageByte := by
      rw [← flatMap_pieces]
      refine congrArg (fun f => (List.range 64).flatMap f) (funext fun i => List.map_congr_left fun j _ => ?_)
      simp [wImageByte, Nat.add_mod]
    rw [p, List.map_map]
    rfl
  · obtain ⟨o, _, rfl⟩ := List.mem_map.1 hb
    rfl

theorem wit_ArrayWork_spill : let g := wSeq .mspill 63 64 .acz
    let m := wFlight .mspill 63 64
    let s := wData (wD g)
    ChunkDue s 1 g m ∧ (g.acUnit 0 5).cls ≠ .empty ∧ (g.acUnit 0 5).row 63 = wZero ∧ s.loadWaits g m.start (65280 + 63 * 320) 320 = false ∧
      ∃ s1 vt g1, (served s g m).unitStore (g.coreAgent 0 .none) false (65280 + 63 * 320) wRow = .ok (s1, vt) ∧ s1.grove? 1 = some g1 ∧ g1.ac = g.ac ∧ g1.msq = g.msq := by
  refine ⟨⟨rfl, rfl, by decide⟩, by decide, rfl, rfl, ?_⟩
  have h : accIs ((served (wData (wD (wSeq .mspill 63 64 .acz))) (wSeq .mspill 63 64 .acz) (wFlight .mspill 63 64)).unitStore ((wSeq .mspill 63 64 .acz).coreAgent 0 .none) false (65280 + 63 * 320) wRow)
      (fun a => (a.1.grove? 1).any fun g => g.ac == (wSeq .mspill 63 64 .acz).ac && g.msq == (wSeq .mspill 63 64 .acz).msq) = true := by decide +kernel
  obtain ⟨⟨s1, vt⟩, h1, h⟩ := accIs_ok h
  obtain ⟨g1, h2, h⟩ := Option.any_eq_true _ _ |>.1 h
  simp only [Bool.and_eq_true, beq_iff_eq] at h
  exact ⟨s1, vt, g1, h1, h2, h.1, h.2⟩

/-- FP32 codes read as numbers: 2, -2 and 0.5. -/
theorem wReads : readNum 0 .fp32 0x40000000 = .num false 2 ∧ readNum 0 .fp32 0xC0000000 = .num true (-2) ∧ readNum 0 .fp32 0x3F000000 = .num false (1 / 2) := by
  have r : ∀ c e, nanCode .fp32 c = false → infCode .fp32 c = false → expField .fp32 c = e → e ≠ 0 → manField .fp32 c = 0 →
      readNum 0 .fp32 c = .num (signOf .fp32 c) ((if signOf .fp32 c then -1 else 1) * 2 ^ ((e : ℤ) - 127)) := by
    intro c e h1 h2 h3 h4 h5
    have b : (Fmt.bias .fp32 : ℤ) = 127 := rfl
    have n : natBit 0 (dazBit .fp32) = false := by decide
    simp [readNum, h1, h2, n, codeValue, h3, h4, h5, b]
  have s1 : signOf .fp32 0x40000000 = false := by decide
  have s2 : signOf .fp32 0xC0000000 = true := by decide
  have s3 : signOf .fp32 0x3F000000 = false := by decide
  refine ⟨?_, ?_, ?_⟩
  · rw [r _ 128 (by decide) (by decide) (by decide) (by decide) (by decide), s1]; norm_num
  · rw [r _ 128 (by decide) (by decide) (by decide) (by decide) (by decide), s2]; norm_num
  · rw [r _ 126 (by decide) (by decide) (by decide) (by decide) (by decide), s3]; norm_num

theorem wit_FloatLaws :
    (∃ r n d : Nat, r < 2 ^ 24 ∧ 0 < n ∧ 0 < d) ∧ (∀ f ∈ [Fmt.fp32, .fp16, .bf16], ∃ a b : Nat, a < 2 ^ f.width ∧ b < 2 ^ f.width ∧ nanCode f a = true ∧ nanCode f b = false ∧ infCode f b = true) ∧
    (∃ a z : Nat, a < 2 ^ 32 ∧ z < 2 ^ 64 ∧ z % 256 ≠ 255) ∧
    -- numbers other than 0, negative, between 0 and 1, an integer, and a power of two
    (∃ z : ℝ, readNum 0 .fp32 0x40000000 = .num false z ∧ z ≠ 0 ∧ 0 < z ∧ 1 ≤ z ∧ z = (2 : ℤ) ∧ z = 2 ^ (1 : ℤ) ∧ (2 : ℝ) ^ (1 : ℤ) ≤ |z| ∧ |z| < 2 ^ (1 + 1 : ℤ)) ∧
    (∃ z : ℝ, readNum 0 .fp32 0xC0000000 = .num true z ∧ z < 0) ∧ (∃ z : ℝ, readNum 0 .fp32 0x3F000000 = .num false z ∧ 0 < z ∧ z < 1 ∧ Int.fract z ≠ 0) ∧
    -- residues of -3, and elements that are none: 511, 513 and a bit above
    (Residue 0x07FBFBFC (-3) ∧ -67108351 ≤ (-3 : ℤ) ∧ 511 ≤ 511 % 512 ∧ 513 ≤ 513 * 2 ^ 18 / 2 ^ 18 % 1024 ∧ 2 ^ 28 / 2 ^ 28 ≠ 0) := by
  refine ⟨⟨0, 1, 1, by decide⟩, fun f hf => ?_, ⟨0, 0, by decide⟩, ⟨2, wReads.1, by norm_num, by norm_num, by norm_num, by norm_num, by norm_num, by norm_num, by norm_num⟩, ⟨-2, wReads.2.1, by norm_num⟩,
    ⟨1 / 2, wReads.2.2, by norm_num, by norm_num, ?_⟩, ⟨by decide, by decide, by decide⟩, by decide, by decide, by decide, by decide⟩
  · simp only [List.mem_cons, List.not_mem_nil, or_false] at hf
    rcases hf with rfl | rfl | rfl
    · exact ⟨0x7FC00000, 0x7F800000, by decide⟩
    · exact ⟨0x7E00, 0x7C00, by decide⟩
    · exact ⟨0x7FC0, 0x7F80, by decide⟩
  · rw [Int.fract_eq_self.2 ⟨by norm_num, by norm_num⟩]; norm_num

theorem wit_DecodeTraps_needs :
    -- checks 8, 9, 10 and 11, and none
    (∀ e ∈ [([Need.v 60 8 4], 0, 0, some (0x02, 1)), ([.v 2 4 4], 0, 0, some (0x02, 2)), ([.acw 3], 0, 0, some (0x02, 3)), ([.v 0 1 1], 1, 16, some (0x10, 0)), ([.s 30 2 2], 1, 15, none)],
      decodeCheck placedDesc e.1 e.2.1 e.2.2.1 = e.2.2.2) ∧
    (∀ i ∈ [(v1 63 ++ needA (.v 0) ++ v1 0, 0), (groupV 61 4 ++ needA64 (.v 1), 4)], StandAt (wL wG) 1 5 0 0 wG ∧ wU wG ∈ wG.lanes ∧ (wU wG).stand = 5 ∧
      (∀ u ∈ wG.lanes, u.stand = 5 → TrapsHere u ∧ placeOf u = placeOf (wU wG) ∧ u.now.pc = (wU wG).now.pc) ∧ (∀ u ∈ wG.lanes, ∀ v ∈ wG.lanes, u.stand = 5 → (v.team = u.team ↔ v.stand = 5))) ∧
    decodeCheck placedDesc (groupV 61 4 ++ needA64 (.v 1)) 4 0 = some (0x02, 1) ∧ (wL wG).handler wG.ctx false = some 0x80 ∧ natBit (wL wG).hub.snapMask 2 = false ∧
    (FrontAt (wF wG) 1 0 0 wG ∧ (∀ x, wG.front.seg = some x → SegDone x) ∧ wG.front.front = true ∧ wG.front.th = false ∧ wG.front.txn.isOpen = false ∧ wG.front.stopped = false ∧
      decodeCheck wG.desc [.acw 3] 0 wG.front.used = some (0x02, 3) ∧ (wF wG).handler wG.ctx true = some 0x100 ∧ natBit (wF wG).hub.snapMask 0x10 = false) := by
  have n : ∀ u ∈ wG.lanes, u.seg = none := by decide
  have nf : wG.front.seg = none := by decide
  have k : ∀ u ∈ wG.lanes, u.stand = 5 → (u.front = false ∧ u.th = false ∧ u.txn.isOpen = false ∧ u.stopped = false) ∧ placeOf u = placeOf (wU wG) ∧ u.now.pc = (wU wG).now.pc := by decide
  have m : ∀ u ∈ wG.lanes, ∀ v ∈ wG.lanes, u.stand = 5 → (v.team = u.team ↔ v.stand = 5) := by decide
  refine ⟨by decide, fun i _ => ⟨okG_stand wG_ok, (okG_member wG_ok).1, (okG_member wG_ok).2.1, fun u hu hs => ⟨⟨(k u hu hs).1.1, (k u hu hs).1.2.1, (k u hu hs).1.2.2.1, (k u hu hs).1.2.2.2, by simp [n u hu]⟩, (k u hu hs).2⟩, m⟩,
    by decide, by decide, by decide, okG_front wG_ok, by simp [nf], by decide, by decide, by decide, by decide, by decide, by decide, by decide⟩

/-- An open segment of a thread: one word of four lies ahead of its check. -/
def wOpen : Seg := { wSeg with words := 4, pcs := [0, 1, 2, 3], results := [], checks := [0], fin := .running }

/-- A grove whose threads 0 and front have that segment open. -/
def wSends : Grove := { wG with lanes := wG.lanes.map fun t => if t.tid = 0 then { t with seg := some wOpen } else t, front := { wG.front with seg := some wOpen } }

/-- A request of the thread, or of the front thread, to an address: line 511, no page, another domain's page, or a page left to demand. -/
def wAsk (front : Bool) (op : ReqOp) (va : Nat) : Req := { wReq op .relaxed [5] [.gpr 1] with front := front, tid := if front then 0xFFF else 0, va := va }

/-- The device with the request at its home, code as a domain's code, misses of the second GiB left to demand. -/
def wDemand (r : Req) (code : Word) : State :=
  { ((({ wBase with groves := [wSends], reqs := [r], gt := 50 } : State).setCsrRaw 0 0x10 code).setCsrRaw 0 0 7) with mem := writeBytes wBase.mem (atKeys 0x8008 [0, 1]) }

theorem wDemand_at (front : Bool) (op : ReqOp) (va : Nat) (code : Word) (h : 0 < (wAsk front op va).size) : AtCheck (wDemand (wAsk front op va) code) 3 (wAsk front op va) wSends 0 where
  request := rfl
  sized := h
  unanswered := rfl
  grove := rfl
  goesTo := rfl
  unowned := ⟨rfl, rfl⟩
  plain := rfl
  numbered := by cases front <;> rfl

theorem wSender (front : Bool) (op : ReqOp) (va : Nat) : SenderIs (wAsk front op va) wSends (if front then wSends.front else wU wSends) wOpen where
  front := fun h => by change front = true at h; rw [if_pos h]
  lane := fun h => by
    change front = false at h
    subst h
    exact ⟨by decide, rfl, by decide⟩
  seg := by cases front <;> rfl
  inside := (show 0 < 4 by decide)
  unended := ⟨rfl, rfl, rfl⟩

/-- A device whose grove's threads have ended segments that trap, or park. -/
def wStops (x : Seg) : Grove := { wG with lanes := wG.lanes.map fun t => if t.tid = 0 then { t with seg := some x } else t, front := { wG.front with seg := some x } }

/-- A fault at the segment's one word, and an access that parks there. -/
def wFault : TrapInfo := ⟨0, 0, 0x06, 0, false, false, 65532, none⟩
def wParks : ParkInfo := ⟨0, 0, 65532, 0, 0⟩

/-- The device with a deadfall queue that is full. -/
def wQueueFull (x : Seg) : State := { wBase with groves := [wStops x], deadfalls := [(0, (List.range 4096).map fun k => ⟨k, 1, false, 7, 0, 0, 0, 0, 0, 0⟩)] }

theorem wit_AddressTraps_home :
    -- no page, no right, a miss left to demand, a poisoned granule
    (∀ front ∈ [true, false], ∀ e ∈ [(ReqOp.load, AccKind.load), (.store, .store), (.atom .add, .store)],
      (let r := wAsk front e.1 (2 ^ 39)
       AtCheck (wDemand r 2) 3 r wSends 0 ∧ SenderIs r wSends (if front then wSends.front else wU wSends) wOpen ∧ r.after ≤ (wDemand r 2).gt ∧ (wDemand r 2).fate wSends.ctx false e.2 0 (r.va % 2 ^ 54) = .translation ∧
        (wDemand r 2).mayPerform r = true ∧ (wDemand r 2).writeWaits wSends r = false ∧ r.va < 2 ^ 64) ∧
      (let r := wAsk front e.1 65532
       AtCheck (wDemand r 0) 3 r wSends 0 ∧ (wDemand r 0).fate wSends.ctx false e.2 0 (r.va % 2 ^ 54) = .protection) ∧
      (let r := wAsk front e.1 (2 ^ 30)
       AtCheck (wDemand r 2) 3 r wSends 0 ∧ (wDemand r 2).fate wSends.ctx false e.2 0 (r.va % 2 ^ 54) = .demand) ∧
      let r := wAsk front e.1 65532
      let s := { wDemand r 2 with poison := [(2047, true)] }
      s.fate wSends.ctx false e.2 0 (r.va % 2 ^ 54) = .ok 65532 2 ∧ s.barred 0 (65532 / 128) = false ∧ s.hostNeed 0 (65532 / 128) false = none ∧ s.hostNeed 0 (65532 / 128) true = none ∧ wSends.verify ≠ 2 ∧
        3 < r.size ∧ tabGet false s.poison ((65532 + 3) / 32) = true) ∧
    -- commits that trap, park, and find the queue full
    (∀ x ∈ [({ wSeg with trap := some wFault } : Seg), { wSeg with park := some wParks }], let g := wStops x
      (wL g).grove? 1 = some g ∧ x.abort = none ∧ g.front.seg = some x ∧ g.front.front = true ∧ (wL g).mayRun g g.front.core = true ∧ g.front.commitReady = true ∧ g.front.th = false ∧
        g.front.txn.isOpen = false ∧ (wL g).handler g.ctx true = some 0x100 ∧ (wL g).handler g.ctx false = some 0x80 ∧ natBit (wL g).hub.snapMask 6 = false ∧ natBit (wL g).hub.snapMask 7 = false ∧
        (tabGet [] (wL g).deadfalls 0).length < 4096 ∧ wU g ∈ g.lanes ∧ (wU g).seg = some x ∧ (wU g).front = false ∧ (∀ v ∈ g.lanes, v.team = (wU g).team ∨ v.tid = (wU g).tid → v = wU g) ∧
        (wL g).mayRun g (wU g).core = true ∧ (wU g).commitReady = true ∧ (wU g).th = false ∧ (wU g).txn.isOpen = false) ∧
    (let x : Seg := { wSeg with park := some wParks }
     (wQueueFull x).grove? 1 = some (wStops x) ∧ 4096 ≤ (tabGet [] (wQueueFull x).deadfalls 0).length ∧ (wQueueFull x).handler 0 true = some 0x100 ∧ natBit (wQueueFull x).hub.snapMask 7 = false) := by
  refine ⟨fun front hf e he => ⟨⟨wDemand_at _ _ _ _ ?_, wSender _ _ _, Nat.zero_le _, ?_⟩, ⟨wDemand_at _ _ _ _ ?_, ?_⟩, ⟨wDemand_at _ _ _ _ ?_, ?_⟩, ?_⟩, by decide +kernel, rfl, ?_, by decide, by decide⟩
  any_goals (revert front e; decide +kernel)
  have l : tabGet [] (wQueueFull { wSeg with park := some wParks }).deadfalls 0 = (List.range 4096).map fun k => ⟨k, 1, false, 7, 0, 0, 0, 0, 0, 0⟩ := rfl
  rw [l, List.length_map, List.length_range]

theorem wit_AddressTraps_front :
    (let g := wScr 65534
     FrontAloneAt (wF g) 1 0 0 g hU ∧ FrontFree (wF g) g ∧ g.front.th = false ∧ g.front.txn.isOpen = false ∧ scratchEa (readUA ((wF g).env g) g.front (.s 0)) 0 0 % 4 ≠ 0 ∧
      (readUA ((wF g).env g) g.front (.s 0)).toNat % 4 ≠ 0 ∧ (wF g).loadHeld g.id none (g.desc.const + (readUA ((wF g).env g) g.front (.s 0)).toNat) = false ∧ (wF g).acquiring g.id none = false) ∧
    (let g := wScr 65536
     okG g = true ∧ scratchEa (readUA ((wF g).env g) g.front (.s 0)) 0 0 % 4 = 0 ∧ OutOfScratch g (scratchEa (readUA ((wF g).env g) g.front (.s 0)) 0 0) 4 ∧ (readUA ((wF g).env g) g.front (.s 0)).toNat % 4 = 0 ∧
      65536 ≤ (readUA ((wF g).env g) g.front (.s 0)).toNat ∧ natBit (wF g).hub.snapMask 2 = false) := by
  have k : okG (wScr 65534) = true := by decide
  refine ⟨⟨okG_frontAlone k rfl, ⟨okG_noChecks k, rfl⟩, by decide⟩, by decide, by decide, ?_, by decide⟩
  unfold OutOfScratch
  decide

theorem wit_GuardFalse_more :
    (∀ sh ∈ [(⟨hF, 1, true, 0, v1 63⟩ : Shape), ⟨hF, 1, true, 0, v1 63 ++ v1 62⟩, ⟨hF, 1, false, 5, groupV 60 4⟩, ⟨hF, 1, false, 0, [.v 56 8 8] ++ [.ta 15]⟩, ⟨hF, 1, false, 8, [.v 56 8 8] ++ [.ac 9]⟩], LaneDecodes sh wG 5) ∧
    (∀ x ∈ wRows, ∀ m ∈ [(⟨0, 0, 0, false, .dense, 15⟩ : MmaArgs), ⟨5, 15, 7, true, .sparse, 0⟩], FrontDecodes (mmaShapeOf hF m (if x.2 then some ⟨0, 0, 0, false⟩ else none) x.1) wMx) ∧
    FrontAt (wF wMx) 1 0 0 wMx ∧ wMx.front.guard hF = false ∧
    ∀ sh ∈ [(⟨hF, 1, false, 0, [.ac 9, .ta 15, .wb 7]⟩ : Shape), ⟨hF, 1, false, 0, [.acw 5, .ta 15, .ta 0, .ta 1]⟩, ⟨hF, 1, false, 0, [.ac 9]⟩, ⟨hF, 1, false, 0, [.ta 15]⟩, ⟨hF, 1, false, 0, [.wb 7]⟩,
      ⟨hF, 1, false, 0, [.s 30 2 2]⟩, ⟨hF, 1, true, 0, []⟩, ⟨hF, 1, false, 0, []⟩, ⟨hF, 1, false, 1, []⟩, ⟨hF, 1, true, 0, [.s 30 2 2]⟩, ⟨hF, 1, false, 0, [.s 28 4 4]⟩], FrontDecodes sh wMx := by
  refine ⟨?_, ?_, okG_front wMx_ok, by decide, ?_⟩
  · unfold LaneDecodes; decide
  · unfold FrontDecodes; decide
  · unfold FrontDecodes; decide

/-- A device whose core 0 holds a copy, to which it may write, of line 0, the bytes of it all 7. -/
def wCopy (s : State) : State :=
  { wData s with
    cores := [(0, { Core.init with l1 := [⟨lineKey 0 0, 0, 100, 2, List.replicate 128 7⟩] })]
    lines := [(lineKey 0 0, { Line.init with phys := some 0 })] }

theorem wit_GlobalAtomics_L1 : ∀ p ∈ [(4, 124), (8, 120)], let g := wMem (BitVec.ofNat 32 p.2)
    let c : L1Line := ⟨lineKey 0 0, 0, 100, 2, List.replicate 128 7⟩
    (OneAt (wCopy (wL g)) 1 5 0 0 g hU (wU g) ∧ NoneOpen g 5 ∧ (wCopy (wL g)).acquiring g.id (some (wU g).tid) = false ∧ (wU g).txn.isOpen = false ∧ laneEa (wCopy (wL g)) g (wU g) (.v 0) = p.2 ∧
      AddressOk (wCopy (wL g)) g.ctx p.2 p.1 ∧ InL1Atomic (wCopy (wL g)) g (wU g) p.2 p.1 .grove .relaxed 0 p.2 c) ∧
    (FrontAt (wCopy (wF g)) 1 0 0 g ∧ FrontFree (wCopy (wF g)) g ∧ frontEa (wCopy (wF g)) g (.s 0) 0 = p.2 ∧ InL1Atomic (wCopy (wF g)) g g.front p.2 p.1 .grove .acquire 0 p.2 c) := by
  intro p hp
  have k : okG (wMem (BitVec.ofNat 32 p.2)) = true := by revert p; decide
  have o := okG_one (h := hU) k (by rfl)
  have f := okG_front k
  refine ⟨⟨⟨⟨rfl, rfl, o.at_.distinct, o.at_.member, o.at_.whole, o.at_.team, o.at_.mates⟩, o.member, o.inStand, o.one⟩, okG_noneOpen k 5, ?_, ?_, ?_, ?_, ⟨?_, ?_, ?_, 2, ?_⟩⟩,
    ⟨rfl, rfl, f.isFront, f.running⟩, ⟨okG_noChecks k, rfl⟩, ?_, ⟨?_, ?_, ?_, 2, ?_⟩⟩ <;> clear o f k <;> revert p <;> (try unfold AddressOk) <;> decide +kernel

/-- A descriptor of two dimensions, 3 by 2 elements of 4 bytes, a table at 63488. -/
def wCopy2 (w : Nat) : List Byte :=
  leBytes 8 1024 ++ leBytes 8 2048 ++ leBytes 4 (2 + 16 * 2 + w) ++ leBytes 8 63488 ++ List.replicate 36 0 ++
    leBytes 4 3 ++ leBytes 4 0 ++ leBytes 8 4 ++ leBytes 8 4 ++ leBytes 8 0 ++ leBytes 4 2 ++ leBytes 4 0 ++ leBytes 8 128 ++ leBytes 8 64 ++ leBytes 8 0 ++ List.replicate 384 0

/-- The device with a started command, its descriptor and a table. -/
def wDescS (op : EngOp) (d t : List Byte) : State := wMemory (wMemory (wE (wCmd op true false [] none 0xFFFFFFFF)) 65024 d) 63488 t

theorem wReadsDesc (op : EngOp) (d t : List Byte) (x : FabIn) (die : Nat) (f : State → List Byte → Bool) (hd : die = if op = .coll then 9 else 0)
    (h : accIs ((wDescS op d t).unitRead ((wCmd op true false [] none 0xFFFFFFFF).agent x) 5 65024 512) (fun a => f a.1 (a.2.map Prod.fst)) = true) :
    ∃ s1 e, ReadsDesc (wDescS op d t) s1 4 x (wCmd op true false [] none 0xFFFFFFFF) op e die ∧ f s1 e = true := by
  obtain ⟨⟨s1, bs⟩, h1, h⟩ := accIs_ok h
  refine ⟨s1, bs.map Prod.fst, ⟨rfl, ⟨wBar 0 0 0, rfl⟩, ?_, ⟨rfl, rfl⟩, rfl, ?_, bs, h1, rfl⟩, h⟩
  · cases op <;> rfl
  · rw [hd]; cases op <;> rfl

/-- The agent of that command on a die. -/
def wAgent (op : EngOp) (x : FabIn) (die : Nat) : Agent := { (wCmd op true false [] none 0xFFFFFFFF).agent x with die := die }

/-- What a copy's plan asks of its descriptor d and its table. -/
def wCopyOk (op : EngOp) (s : State) (d : List Byte) : Bool :=
  let w := fieldOf d 16 4
  let n := if op = .tcopym then 16 else 8
  w % 16 == 2 && w / 16 % 8 == 2 && w / 2 ^ 9 % 2 ^ 7 == 0 && w / 2 ^ 24 == 0 && w / 2 ^ 16 % 256 == (if op = .tcopym then 1 else 0) && fieldOf d 28 36 == 0 && fieldOf d 20 8 % 4 == 0 &&
    ((List.range 2).all fun k => fieldOf d (68 + 32 * k) 4 == 0 && fieldOf d (88 + 32 * k) 8 == 0 && fieldOf d (64 + 32 * k) 4 == 3 - k) && fieldOf d 0 8 % 4 == 0 && fieldOf d 8 8 % 4 == 0 &&
    accIs (s.unitRead (wAgent op .none 0) (linesOf n) (fieldOf d 20 8) n) fun a => op != .tcopym || decide (fieldOf (a.2.map Prod.fst) 12 4 < 2)

theorem wit_EngineWork_copies :
    ∀ e ∈ [(EngOp.tcopy, 0, []), (.gather, 0, leBytes 4 5 ++ leBytes 4 0xFFFFFFFF), (.scatter, 0, leBytes 4 5 ++ leBytes 4 0xFFFFFFFF), (.tcopym, 2 ^ 16, leBytes 8 4096 ++ leBytes 4 0xFFFFFFFF ++ leBytes 4 0)],
      ∃ s1 d, ReadsDesc (wDescS e.1 (wCopy2 e.2.1) e.2.2) s1 4 .none (wCmd e.1 true false [] none 0xFFFFFFFF) e.1 d 0 ∧ wCopyOk e.1 s1 d = true := by
  intro e he
  refine wReadsDesc e.1 _ _ .none 0 (wCopyOk e.1) ?_ ?_
  · revert e; decide
  · revert e; decide +kernel

/-- A SORTK of two segments of two pairs with a table at 63488; a ROUTE of four tokens of one choice to two experts; a COLL of two members, each an I32 sum, whose table the list ms gives. -/
def wSortk : List Byte := leBytes 8 1024 ++ leBytes 8 2048 ++ leBytes 8 63488 ++ leBytes 8 2 ++ List.replicate 480 0
def wRoute : List Byte :=
  leBytes 8 1024 ++ leBytes 8 63488 ++ leBytes 8 63496 ++ leBytes 8 63504 ++ leBytes 6 (3 + 2 ^ 28) ++ leBytes 4 16 ++ leBytes 8 4096 ++ leBytes 8 4608 ++ leBytes 4 1 ++ leBytes 2 0 ++ List.replicate 448 0
def wColl (fn fmt kind : Nat) : List Byte :=
  leBytes 8 1024 ++ leBytes 8 2048 ++ leBytes 4 2 ++ leBytes 4 (fn + 8 * fmt + 64 * kind + 512) ++ leBytes 8 63488 ++ leBytes 4 0 ++ leBytes 4 1 ++ List.replicate 472 0

/-- What the plans of these ask of their descriptors and tables. -/
def wSortkOk (s : State) (d : List Byte) : Bool :=
  fieldOf d 24 8 == 2 && fieldOf d 32 480 == 0 && fieldOf d 16 8 % 4 == 0 && fieldOf d 0 8 % 8 == 0 && fieldOf d 8 8 % 8 == 0 &&
    accIs (s.unitRead (wAgent .sortk .none 0) (linesOf 12) (fieldOf d 16 8) 12) fun a =>
      let off := fun i => fieldOf (a.2.map Prod.fst) (4 * i) 4
      off 0 == 0 && off 1 == 2 && off 2 == 4 && accIs (a.1.unitRead (wAgent .sortk .none 0) (linesOf 32) (fieldOf d 0 8) 32) fun b => b.2.length == 32
def wRouteOk (s : State) (d : List Byte) : Bool :=
  let w := fieldOf d 32 8
  w % 2 ^ 24 == 3 && w / 2 ^ 24 % 16 == 0 && w / 2 ^ 28 % 2 ^ 12 == 1 && w / 2 ^ 40 % 256 == 0 && fieldOf d 38 4 == 16 && fieldOf d 62 2 == 0 && fieldOf d 72 440 == 0 &&
    accIs (s.unitRead (wAgent .route .none 0) (linesOf 8) (fieldOf d 8 8) 8) fun a => accIs (a.1.unitRead (wAgent .route .none 0) (linesOf 8) (fieldOf d 16 8) 8) fun b =>
      accIs (b.1.unitRead (wAgent .route .none 0) (linesOf 16) (fieldOf d 24 8) 16) fun c =>
        (List.range 4).all fun q => let e := fieldOf (a.2.map Prod.fst) (2 * q) 2
          e == 0xFFFF || (decide (e < 2) && fieldOf (c.2.map Prod.fst) (8 * e) 8 % 16 == 0)
def wCollOk (s : State) (d : List Byte) : Bool :=
  let w := fieldOf d 20 4
  w / 2 ^ 19 == 0 && w / 256 % 2 ^ 11 == 2 && fieldOf d 36 4 == 1 && fieldOf d 40 24 == 0 && fieldOf d 16 4 == 2 && fieldOf d 0 8 % 4 == 0 && fieldOf d 8 8 % 4 == 0 &&
    accIs (s.unitRead (wAgent .coll (.inputs [[1, 0, 0, 0, 2], []]) 9) (linesOf 8) (fieldOf d 24 8) 8) fun a =>
      let m := fun i => fieldOf (a.2.map Prod.fst) (4 * i) 4
      m 0 == 5 && m 1 == 9 + 2 ^ 26 && accIs (a.1.unitRead (wAgent .coll (.inputs [[1, 0, 0, 0, 2], []]) 9) (linesOf 8) (fieldOf d 0 8) 8) fun b => b.2.length == 8

theorem wit_EngineWork_others :
    (∃ s1 d, ReadsDesc (wDescS .sortk wSortk (leBytes 4 0 ++ leBytes 4 2 ++ leBytes 4 4)) s1 4 .none (wCmd .sortk true false [] none 0xFFFFFFFF) .sortk d 0 ∧ wSortkOk s1 d = true) ∧
    (∃ s1 d, ReadsDesc (wDescS .route wRoute (leBytes 2 1 ++ leBytes 2 0xFFFF ++ leBytes 2 0 ++ leBytes 2 1 ++ leBytes 4 1 ++ leBytes 4 1 ++ leBytes 8 8192 ++ leBytes 8 12288)) s1 4 .none
      (wCmd .route true false [] none 0xFFFFFFFF) .route d 0 ∧ wRouteOk s1 d = true) ∧
    (∀ e ∈ [(0, 0, 0), (1, 0, 1), (2, 3, 2), (5, 3, 3)], ∃ s1 d, ReadsDesc (wDescS .coll (wColl e.1 e.2.1 e.2.2) (leBytes 4 5 ++ leBytes 4 (9 + 2 ^ 26))) s1 4 (.inputs [[1, 0, 0, 0, 2], []])
      (wCmd .coll true false [] none 0xFFFFFFFF) .coll d 9 ∧ wCollOk s1 d = true) := by
  refine ⟨wReadsDesc .sortk _ _ .none 0 wSortkOk rfl (by decide +kernel), wReadsDesc .route _ _ .none 0 wRouteOk rfl (by decide +kernel), fun e he => ?_⟩
  refine wReadsDesc .coll _ _ _ 9 wCollOk rfl ?_
  revert e; decide +kernel

theorem wit_EngineWork_group :
    (let c := wCmd .tcopym true true ([2048, 4096].map fun x => ⟨x, 1024, 16, none⟩) none 0xFFFFFFFF
     (wE c).cmd? 4 = some c ∧ (wE c).grove? c.gid = some (wBar 0 0 0) ∧ (wE c).engineRuns c = true ∧
      ∃ s1 ks s2 bs, (wE c).groupKeys (c.agent .none) (([2048, 4096].map (· / 128)).dedup) = .ok (s1, ks) ∧ s1.unitRead (c.agent .none) (linesOf 16) 1024 16 = .ok (s2, bs) ∧ ∀ x ∈ s2.cmds, x.id = 4 → x = c) ∧
    (let m : Move := { wMove with bytes := some (List.replicate 16 (9, false)) }
     let c := wCmd .tcopym true true [m] none 0xFFFFFFFF
     (wE c).cmd? 4 = some c ∧ c.owned = none ∧ m.len = (List.replicate 16 ((9 : Byte), false)).length ∧ m.dst % 128 + m.len ≤ 128 ∧ (wE c).homeOf c.ctx m.dst = .phys 0 ∧
      (wE c).fate c.ctx false .store 0 (m.dst % 2 ^ 54) = .ok 2048 2 ∧ ((wE c).line (lineKey 0 (m.dst % 2 ^ 54))).lock = none ∧ ((wE c).line (lineKey 0 (m.dst % 2 ^ 54))).owner = none ∧
      (wE c).barred 0 (2048 / 128) = false ∧ (wE c).hostNeed 0 (2048 / 128) true = none ∧ (wE c).kept 0 (m.dst % 2 ^ 54) ≠ none) := by
  refine ⟨⟨rfl, rfl, rfl, ?_⟩, by decide⟩
  have h : accIs ((wE (wCmd .tcopym true true ([2048, 4096].map fun x => ⟨x, 1024, 16, none⟩) none 0xFFFFFFFF)).groupKeys ((wCmd .tcopym true true ([2048, 4096].map fun x => ⟨x, 1024, 16, none⟩) none 0xFFFFFFFF).agent .none)
      (([2048, 4096].map (· / 128)).dedup)) (fun a => accIs (a.1.unitRead ((wCmd .tcopym true true ([2048, 4096].map fun x => ⟨x, 1024, 16, none⟩) none 0xFFFFFFFF).agent .none) (linesOf 16) 1024 16) fun b =>
        b.1.cmds == [wCmd .tcopym true true ([2048, 4096].map fun x => ⟨x, 1024, 16, none⟩) none 0xFFFFFFFF]) = true := by decide +kernel
  obtain ⟨⟨s1, ks⟩, h1, h⟩ := accIs_ok h
  obtain ⟨⟨s2, bs⟩, h2, h⟩ := accIs_ok h
  refine ⟨s1, ks, s2, bs, h1, h2, fun x hx _ => ?_⟩
  rw [show s2.cmds = _ from beq_iff_eq.1 h, List.mem_singleton] at hx
  exact hx

/-! The words that the well-formedness checks refuse, one or more for each check. -/

/-- Well-formed words beside the ill-formed ones: the checks refuse no more than they should. -/
theorem test_wf_admits : ([.iadd hU 5 (.slot 20) 3, .icmp hU 7 .eq (.v 0) 0, .hcmp2 hU 6 .uno (.v 0) 0, .cvt hU 0 (.v 0) 0x21, .cvtq hU 0 (.lit 0) 0x37, .ldg hU 0 (.v 0) .plain .relaxed .normal,
    .ldg hU 0 (.slot 19) .system .acquire .stream, .stg hU 0 (.v 0) .die .release .normal, .atg hU 0 (.v 0) .strand .acqRel .add, .qhop hU 0 (.v 2) 0,
    .sadd hU 0 (.lit 0) (.imm 0), .sadd64 hU 0 (.sp 11) (.sp 13), .mmaE4bf hU ⟨0, 0, 0, false, .expand, 0⟩ ⟨0, 0, 0, false⟩, .mmaI8e4 hU ⟨0, 0, 0, false, .dense, 0⟩ ⟨0, 0, 0, true⟩,
    .tdrain hU 0 0 (.hdr 0), .fence hU .grove .acqRel] : List Instr).all Instr.wf = true := by decide +kernel

/-- Specials that have no 64-bit reading (R89, R93). -/
theorem test_wf_wide : ([.iadd64 hU 0 (.slot 20) 0, .isub64 hU 0 (.slot 22) 0, .imul64 hU 0 (.slot 20) 0, .mov64 hU 0 (.slot 22), .ldg hU 0 (.slot 20) .plain .relaxed .normal, .prf hU (.slot 22) .normal,
    .cvtq hU 0 (.slot 20) 0x35, .cvtq hU 0 (.slot 22) 0x36, .qhop hU 0 (.slot 20) 0, .sadd64 hU 0 (.sp 12) (.s 0), .ssub64 hU 0 (.s 0) (.sp 14), .sldg hU 0 (.sp 12) .plain .relaxed 0, .sprf hU (.sp 14) 0] : List Instr).any
    Instr.wf = false := by decide +kernel

/-- Two literals (R93, R106), and a literal where none may stand (R92). -/
theorem test_wf_literals : ([.sadd hU 0 (.lit 1) (.lit 1), .smad hU 0 (.lit 0) (.lit 1), .scmp hU 1 .eq (.lit 0) (.lit 0), .ssel hU 0 (.lit 0) (.lit 0), .qhop hU 0 (.lit 0) 0] : List Instr).any
    Instr.wf = false := by decide +kernel

/-- Predicate 0 as a destination, and predicate 7 for HCMP2 (R90). -/
theorem test_wf_predicates : ([.icmp hU 0 .eq (.v 0) 0, .ncmp hU 0 .ge (.v 0) 0, .fcmp hU 0 .ord (.v 0) 0, .hcmp2 hU 0 .eq (.v 0) 0, .hcmp2 hU 7 .eq (.v 0) 0, .vote hU 0 0 false .all,
    .pset hU 0 1 2 .and false false, .qpset hU 0 1 2 .or false false, .scmp hU 0 .eq (.s 0) (.s 0), .sncmp hU 0 .lt (.s 0) (.s 0), .sfcmp hU 0 .ne (.s 0) (.s 0)] : List Instr).any Instr.wf = false := by decide +kernel

/-- Conversion codes that the instruction is not assigned (R121). -/
theorem test_wf_conversions : ([.cvt hU 0 (.v 0) 0x22, .cvt hU 0 (.v 0) 0x30, .cvtq hU 0 (.v 0) 0x2F, .cvtq hU 0 (.v 0) 0x38, .cvtq hU 0 (.v 0) 0, .scvt hU 0 0x22 (.s 0)] : List Instr).any
    Instr.wf = false := by decide +kernel

/-- The reserved combinations of SCOPE and ORDER (R91, R272). -/
theorem test_wf_orders : ([.ldg hU 0 (.v 0) .plain .acquire .normal, .ldg2 hU 0 (.v 0) .die .release .normal, .ldg4 hU 0 (.v 0) .die .acqRel .normal, .stg hU 0 (.v 0) .plain .release .normal,
    .stg2 hU 0 (.v 0) .die .acquire .normal, .stg4 hU 0 (.v 0) .die .acqRel .normal, .atg hU 0 (.v 0) .plain .relaxed .add, .atgx hU 0 (.v 0) .plain .relaxed .xadd, .satg hU 0 (.s 0) .plain .relaxed .add,
    .sldg2 hU 0 (.s 0) .die .release 0, .sstg hU 0 (.s 0) .die .acquire 0, .fence hU .plain .acqRel, .fence hU .die .relaxed, .sfence hU .plain .release, .sfence hU .system .relaxed] : List Instr).any
    Instr.wf = false := by decide +kernel

/-- DM and scale fields a form does not permit (R96, R165), and the reserved rounding of TDRAIN (R192). -/
theorem test_wf_matrix : ([.mmaFp16 hU ⟨0, 0, 0, false, .expand, 0⟩, .mmaE4 hU ⟨0, 0, 0, false, .absorb, 0⟩, .mmaI8bf hU ⟨0, 0, 0, false, .absorb, 0⟩ ⟨0, 0, 0, true⟩,
    .mmaI8e4 hU ⟨0, 0, 0, false, .dense, 0⟩ ⟨0, 0, 0, false⟩, .mmaBfmx4 hU ⟨0, 0, 0, false, .dense, 0⟩ ⟨4, 0, 0, true⟩, .mmaBfmx4 hU ⟨0, 0, 0, false, .dense, 0⟩ ⟨0, 1, 0, true⟩,
    .mmaI8e4 hU ⟨0, 0, 0, false, .dense, 0⟩ ⟨0, 0, 1, true⟩, .tdrain hU 0 0 (.body .fp32 .rsr 0)] : List Instr).any Instr.wf = false := by decide +kernel

/-! Words written out field by field from the encodings, with the spec's own listings where it gives the word. -/

/-- Class A (R89, R98): set, S, guard, class, OP, D, A, B. -/
theorem test_decode_integer :
    decode 0b0_0_000_00_000000_000111_0000100_000000 0 = .ok (.iadd ⟨false, 0⟩ 7 (.v 4) 0) ∧
    decode 0b0_1_000_00_000000_001001_0001000_000000 0 = .ok (.iadd ⟨true, 0⟩ 9 (.v 8) 0) ∧
    decode 0b0_1_010_00_100010_111111_1011111_000000 0 = .ok (.mov ⟨true, 2⟩ 63 (.s 31)) ∧
    decode 0b0_0_000_00_100000_011_010_0000001_000100 0 = .ok (.icmp ⟨false, 0⟩ 3 .lt (.v 1) 4) ∧
    decode 0b0_0_111_00_000110_000001_1110110_000010 0 = .ok (.imad ⟨false, 7⟩ 1 (.slot 22) 2) ∧
    decode 0b0_0_000_00_001011_000001_1111111_000000 0xDEADBEEF = .ok (.iabs ⟨false, 0⟩ 1 (.lit 0xDEADBEEF)) := by decide +kernel

/-- Class F (R89, R90, R99). -/
theorem test_decode_float :
    decode 0x42190085 0 = .ok (.ffma ⟨true, 0⟩ 8 (.v 2) 5) ∧ decode 0x02D8C241 0 = .ok (.sfn ⟨false, 0⟩ 6 (.v 9) .rsq) ∧
    decode 0x4201024A 0 = .ok (.fadd ⟨true, 0⟩ 8 (.v 9) 10) ∧ decode 0x4201624A 0 = .ok (.fadd ⟨true, 0⟩ 11 (.v 9) 10) ∧
    decode 0b0_0_000_01_011001_000101_0000011_100001 0 = .ok (.cvt ⟨false, 0⟩ 5 (.v 3) 0x21) ∧
    decode 0b0_0_000_01_001101_000101_0000011_000100 0 = .ok (.frnd ⟨false, 0⟩ 5 (.v 3) .fpc) := by decide +kernel

/-- Class M (R91, R100). -/
theorem test_decode_memory :
    decode 0x44C40200 0 = .ok (.ldg ⟨true, 0⟩ 8 (.v 2) .plain .relaxed .normal) ∧ decode 0x0D240600 0 = .ok (.stg ⟨false, 1⟩ 8 (.v 6) .plain .relaxed .normal) ∧
    decode 0x45C104A3 0 = .ok (.atgx ⟨true, 0⟩ 2 (.v 4) .device .relaxed .xadd) ∧
    decode 0b0_0_000_10_0011_000110_0000101_011_00000 0 = .ok (.sts ⟨false, 0⟩ 6 (.v 5) 3 0) ∧
    decode 0b0_0_000_10_1100_000110_0000101_000_00_111 0 = .ok (.ats ⟨false, 0⟩ 6 (.v 5) 0 .cas) ∧
    decode 0b0_0_000_10_1111_000000_0000100_00000_010 0 = .ok (.prf ⟨false, 0⟩ (.v 4) .keep) := by decide +kernel

/-- Class X (R92, R101). -/
theorem test_decode_control :
    decode 0x3E0FFFFD 0 = .ok (.bra ⟨false, 7⟩ 0x7FFFD) ∧ decode 0x46708000 0 = .ok (.dqpop ⟨true, 0⟩ 4) ∧ decode 0x4F400042 0 = .ok (.trap ⟨true, 1⟩ 0x42) ∧
    decode 0x46790200 0 = .ok (.getsr ⟨true, 0⟩ 8 4 none) ∧ decode 0x0678E046 0 = .ok (.getsr ⟨false, 0⟩ 7 0 (some 6)) ∧
    decode 0x06E89001 0 = .ok (.sred ⟨false, 0⟩ 4 .fsum 1) ∧ decode 0x06F0B001 0 = .ok (.sscan ⟨false, 0⟩ 5 .fsum false 1) ∧ decode 0x46D0D041 0 = .ok (.shfld ⟨true, 0⟩ 6 (.imm 1) 1) ∧
    decode 0x07090230 0 = .ok (.tstore ⟨false, 0⟩ 8 1 0 11) ∧ decode 0x070C0060 0 = .ok (.tstore ⟨false, 0⟩ 32 0 1 10) ∧
    decode 0b0_0_000_11_100011_001_010_011_01_1_0_000000 0 = .ok (.pset ⟨false, 0⟩ 1 2 3 .or true false) := by decide +kernel

/-- Classes UA and UM (R93, R94, R102, R103). -/
theorem test_decode_uniform :
    decode 0x8001208A 0 = .ok (.sadd ⟨false, 0⟩ 4 (.sp 0) (.imm 74)) ∧ decode 0x80C94120 0 = .ok (.scmp ⟨false, 0⟩ 1 .ne (.s 1) (.sp 0)) ∧ decode 0x80B5002B 0 = .ok (.smov ⟨false, 0⟩ 20 (.sp 11)) ∧
    decode 0b1_0_000_00_000000_00100_100000_11111111 0x00100100 = .ok (.sadd ⟨false, 0⟩ 4 (.sp 0) (.lit 0x00100100)) ∧
    decode 0xC21652A0 0 = .ok (.sldg ⟨true, 0⟩ 22 (.s 20) .device .acquire 0) ∧ decode 0xC2123800 0 = .ok (.sldg ⟨true, 0⟩ 18 (.s 14) .plain .relaxed 0) ∧
    decode 0b1_0_000_01_1000_00011_000000_000_0000101 0 = .ok (.sldk ⟨false, 0⟩ 3 (.s 0) 5) ∧
    decode 0b1_0_000_01_0111_00011_000010_110_11_110_00 0 = .ok (.satg ⟨false, 0⟩ 3 (.s 2) .system .acqRel .xchg) := by decide +kernel

/-- Class UE (R95, R105). -/
theorem test_decode_engine :
    decode 0x84000800 0 = .ok (.mmaBf16 ⟨false, 0⟩ ⟨0, 1, 0, false, .dense, 0⟩) ∧ decode 0x94380000 0x4000 = .ok (.mmaMx4 ⟨false, 2⟩ ⟨0, 0, 0, false, .dense, 0⟩ ⟨0, 0, 0, true⟩) ∧
    decode 0x84C02000 0 = .ok (.mzero ⟨false, 0⟩ 0 .acw) ∧ decode 0x84C2A000 0 = .ok (.mzero ⟨false, 0⟩ 5 .acw) ∧ decode 0x84C80000 0 = .ok (.mwait ⟨false, 0⟩) ∧
    decode 0x84D4E000 0 = .ok (.mcfg ⟨false, 0⟩ .mcs2 14) ∧ decode 0x84900080 0 = .ok (.mblend ⟨false, 0⟩ 0 0 1) ∧ decode 0x849A8090 0 = .ok (.mblendb ⟨false, 0⟩ 5 0 1 2) ∧
    decode 0x84A2C000 0 = .ok (.mdrain ⟨false, 0⟩ 5 4 .fp32 .rne false) ∧ decode 0x84A83000 0 = .ok (.mspill ⟨false, 0⟩ 0 3) ∧ decode 0x84B83000 0 = .ok (.macc ⟨false, 0⟩ 0 3) ∧
    decode 0x84E00900 0 = .ok (.tload ⟨false, 0⟩ 0 1 1) ∧ decode 0x84D84000 0 = .ok (.wload ⟨false, 0⟩ 0 2 .r64) ∧ decode 0x85221400 0 = .ok (.sortk ⟨false, 0⟩ 8 10 .issuing) ∧
    decode 0x85829600 0 = .ok (.barnew ⟨false, 0⟩ 10 11 false) ∧ decode 0x85929800 0 = .ok (.barexp ⟨false, 0⟩ 10 12) ∧ decode 0x858A8000 0 = .ok (.barfree ⟨false, 0⟩ 10) ∧
    decode 0x85990000 0 = .ok (.sbar ⟨false, 0⟩ 4 .arrive) ∧ decode 0x85B10000 0 = .ok (.dqpush ⟨false, 0⟩ 4) ∧ decode 0x85B80000 0 = .ok (.dqclose ⟨false, 0⟩) := by decide +kernel

/-- Class UX (R97, R104). -/
theorem test_decode_system :
    decode 0xC6400000 0 = .ok (.sexit ⟨true, 0⟩) ∧ decode 0x86660500 0 = .ok (.sgetsr ⟨false, 0⟩ 24 5 none) ∧ decode 0x86800000 0 = .ok (.eret ⟨false, 0⟩) ∧
    decode 0b1_0_101_11_000000_0000000000000000000 0 = .ok (.snop ⟨false, 5⟩) := by decide +kernel

/-- What the table's own numbering gives, the literal above the word; and a word no row has. -/
theorem test_decodeTableWord :
    decodeTableWord 32 0x0000A103 = some (.iadd ⟨false, 0⟩ 5 (.v 4) 3) ∧ decodeTableWord 64 0x0000000700009FC0 = some (.iadd ⟨false, 0⟩ 4 (.lit 7) 0) ∧
    decodeTableWord 32 0x07780000 = none := by decide +kernel

/-- The first failed check of the reserved words (R84): opcode 2, value 3, operand slot 4, literal 5, second literal 6. -/
theorem test_decode_refuses :
    decode 0x07780000 0 = .error 2 ∧ decode 0b0_0_000_01_011011_000110_0001001_001001 0 = .error 3 ∧ decode 0b0_0_000_00_100000_000_010_0000001_000100 0 = .error 3 ∧
    decode 0b1_0_000_00_000000_00100_110000_00000000 0 = .error 4 ∧ decode 0x80003FFF 0 = .error 6 := by decide +kernel

/-! Small steps. Expected values are the spec's, or worked out by hand. -/

/-- A word that ends its segment. -/
def hS : Hdr := ⟨true, 0⟩

/-- The first lane thread after one word, started with some registers. -/
def laneAfter (i : Instr) (l : List (Nat × Word)) : Option Thread :=
  match exec i (wL (wR l)) with
  | .next t => match t.groves with
    | g :: _ => g.lanes.head?
    | [] => none
  | _ => none

/-- The front thread after one word, started with some registers. -/
def frontAfter (i : Instr) (l : List (Nat × Word)) : Option Thread :=
  match exec i (wF (wR l)) with
  | .next t => match t.groves with
    | g :: _ => some g.front
    | [] => none
  | _ => none

/-- A register of the thread and its FLG. -/
def regFlg (n : Nat) (t : Option Thread) : Option (Word × Nat) := t.map fun u => (u.reg n, u.flg)

/-- Sums wrap, and the source may be the destination (R134, R135). -/
theorem test_iadd_wraps : regFlg 3 (laneAfter (.iadd hS 3 (.v 4) 3) [(4, 0xFFFFFFFF), (3, 2)]) = some (1, 0) := by decide +kernel

/-- ISUBR exchanges the operands of ISUB (R135). -/
theorem test_isubr : regFlg 5 (laneAfter (.isubr hS 5 (.v 4) 3) [(4, 3), (3, 1)]) = some (0xFFFFFFFE, 0) := by decide +kernel

/-- 300.0 to FP8E4 (05, the table of RoundOnce results). -/
theorem test_cvt_e4 : regFlg 5 (laneAfter (.cvt hS 5 (.v 4) 0x06) [(4, 0x43960000)]) = some (0x79, 0x10) := by decide +kernel

/-- 500.0 to FP8E5, and 2.5 to FP4E2M1 (the same table). -/
theorem test_cvt_e5 : regFlg 5 (laneAfter (.cvt hS 5 (.v 4) 0x08) [(4, 0x43FA0000)]) = some (0x60, 0x10) := by decide +kernel
theorem test_cvt_f4 : regFlg 5 (laneAfter (.cvt hS 5 (.v 4) 0x0B) [(4, 0x40200000)]) = some (0x4, 0x10) := by decide +kernel

/-- 1.00390625 to BF16 (the same table). -/
theorem test_cvt_bf16 : regFlg 5 (frontAfter (.scvt hS 5 0x01 (.s 4)) [(4, 0x3F808000)]) = some (0x3F80, 0x10) := by decide +kernel

/-- The residue words of 05: −3, and a malformed word. -/
theorem test_cvtq_residue : regFlg 5 (laneAfter (.cvtq hS 5 (.v 4) 0x30) [(4, 0x07FBFBFC)]) = some (0xFFFFFFFD, 0) := by decide +kernel
theorem test_cvtq_malformed : regFlg 5 (laneAfter (.cvtq hS 5 (.v 4) 0x30) [(4, 0x10000000)]) = some (0x80000000, 1) := by decide +kernel

/-- 1.0 + 1.0, and the sum of two infinities of opposite sign is NaN with NV (R115, R118). -/
theorem test_fadd : regFlg 5 (laneAfter (.fadd hS 5 (.v 4) 3) [(4, 0x3F800000), (3, 0x3F800000)]) = some (0x40000000, 0) := by decide +kernel
theorem test_fadd_nan : regFlg 5 (laneAfter (.fadd hS 5 (.v 4) 3) [(4, 0x7F800000), (3, 0xFF800000)]) = some (0x7FC00000, 1) := by decide +kernel

/-- An inline value is the code less 128: code 0x8A is 10 (R93, the kernel of 15). -/
theorem test_sadd_inline : regFlg 4 (frontAfter (.sadd hS 4 (.sp 0) (.imm 74)) []) = some (10, 0) := by decide +kernel

/-- The swizzled scratchpad address of R91's example: 0x2A40 under SW3 is 0x2A10. -/
theorem test_swizzle : scratchEa 0x2A40 0 3 = 0x2A10 ∧ swizzle 3 0x2A40 = 0x2A10 := by decide

/-- A trap: TPC, TCAUSE's code and the handler's word offset (R355, R353). -/
theorem test_trap : (laneAfter (.trap hS 0x42) []).map (fun u => (u.th, u.ctl.pc)) = some (true, 0x80) := by decide +kernel

/-- A branch counts from its own word (R312): −3 from word 5, in 19 bits. -/
theorem test_bra : (match exec (.bra hU 0x7FFFD) (wL { wG with lanes := wG.lanes.map fun t => { t with ctl := { t.ctl with pc := 5 } } }) with
    | .next t => t.groves.map fun g => g.lanes.map fun u => u.ctl.pc
    | _ => []) = [[3, 5]] := by decide +kernel

/-- An exit ends the thread. -/
theorem test_exit : (laneAfter (.exit hU) []).map Thread.life = some .exited := by decide +kernel

/-- A step runs the word placed at the first thread's PC (R82): the program IADD V5, #7, V0. -/
theorem test_step_places : (match step (State.reset.withFetchWord 64 0x000000074000BFC0) with
    | .next t => t.groves.map fun g => g.lanes.head?.map fun u => (u.reg 5, u.ctl.pc)
    | _ => []) = [some (7, 2)] := by decide +kernel
end Sys2Proof.Tests
end

section
/-! PROOFS. Class A words, FABS and FNEG (06 R134-R136, R138): each operation of the model on words is the arithmetic of its row on the operands read as numbers. -/

namespace Sys2Proof.LaneWords

open Sys2Proof.Machine Sys2Proof.Safety

/-! ### Forms of words -/

/-- Writes of which each is of a V or S register, or of 0 or 1, leave predicates 0 or 1. -/
theorem predsOk_of_forall {ws : List (Reg × Word)} (h : ∀ w ∈ ws, (∃ n, w.1 = .gpr n) ∨ w.2 = 0 ∨ w.2 = 1) : predsOk ws := by
  intro n v hl
  obtain ⟨l, r, e, -⟩ := List.lookup_eq_some_iff.1 hl
  rcases h (.pred n, v) (by simp [e]) with ⟨m, hm⟩ | hv
  · cases hm
  · exact hv

theorem predsOk_wr (d : Nat) (v : Word) : predsOk (wr d v) := predsOk_of_forall (by simp [wr])

theorem predsOk_pairOf (d x : Nat) : predsOk (pairOf d x) := predsOk_of_forall (by simp [pairOf])

theorem predsOk_wrP (k : Nat) (b : Bool) : predsOk (wrP k b) := predsOk_of_forall (by cases b <;> simp [wrP])

/-- A lane word that touches only registers and flags of its own threads, never traps and reads what a begun thread shows. -/
theorem standRun_of_lanePure {i : Instr} {row : WordRow} {fixed : Bool} {f : Env → Thread → WordOut}
    (hx : ∀ s, exec i s = lanePure row.sh fixed f s) (hf : ∀ e t, f e t = row.out e t)
    (hb : ∀ e t a, row.out e (t.begin row.sh a) = row.out e t) (ht : ∀ e t, (row.out e t).trap = none)
    (hp : ∀ e t, predsOk (row.out e t).writes) : StandRun i row := by
  obtain rfl : f = row.out := by funext e t; exact hf e t
  intro s gid stand w l g hs hd
  rw [hx]
  exact lanePure_law s gid stand w l g row.sh fixed row.out hs hd (fun u a => hb _ u a) (fun u _ _ _ => ht _ u) (fun u => hp _ u)

section Forms

variable {i : Instr} {h : Hdr} {d b : Fin 64} {a : LaneA} {k : Fin 8}

theorem standRun_bin {f : Word → Word → Word → Word} {F : Nat → Nat → Nat → Nat}
    (hf : ∀ x y z : Word, f x y z = BitVec.ofNat 32 (F x.toNat y.toNat z.toNat)) (hx : ∀ s, exec i s = laneBin h d a b f s) : StandRun i (rowBin h d a b F) :=
  standRun_of_lanePure hx (fun _ _ => by simp only [hf]; rfl) (fun _ _ _ => by simp [rowBin]) (fun _ _ => rfl) (fun _ _ => predsOk_wr _ _)

theorem standRun_un {f : Word → Word} {F : Nat → Nat}
    (hf : ∀ x : Word, f x = BitVec.ofNat 32 (F x.toNat)) (hx : ∀ s, exec i s = laneUn h d a f s) : StandRun i (rowUn h d a F) :=
  standRun_of_lanePure hx (fun _ _ => by simp only [hf]; rfl) (fun _ _ _ => by simp [rowUn]) (fun _ _ => rfl) (fun _ _ => predsOk_wr _ _)

/-- The pair a 64-bit value leaves, from the value as a number. -/
theorem wr64_eq_pairOf (d : Nat) (v : DWord) : wr64 d v = pairOf d v.toNat := rfl

theorem standRun_bin64 {f : DWord → DWord → DWord} {F : Nat → Nat → Nat}
    (hf : ∀ x y : DWord, (f x y).toNat = F x.toNat y.toNat % 2 ^ 64) (hx : ∀ s, exec i s = laneBin64 h d a b f s) : StandRun i (rowBin64 h d a b F) :=
  standRun_of_lanePure hx (fun _ _ => by simp only [wr64_eq_pairOf, hf]; rfl) (fun _ _ _ => by simp [rowBin64]) (fun _ _ => rfl)
    (fun _ _ => predsOk_pairOf _ _)

theorem standRun_shift64 {f : Word → DWord → DWord} {F : Nat → Nat → Nat}
    (hf : ∀ (x : Word) (y : DWord), (f x y).toNat = F x.toNat y.toNat % 2 ^ 64) (hx : ∀ s, exec i s = laneShift64 h d a b f s) : StandRun i (rowShift64 h d a b F) :=
  standRun_of_lanePure hx (fun _ _ => by simp only [wr64_eq_pairOf, hf]; rfl) (fun _ _ _ => by simp [rowShift64]) (fun _ _ => rfl)
    (fun _ _ => predsOk_pairOf _ _)

theorem standRun_pred {f : Word → Word → Bool} {F : Nat → Nat → Bool}
    (hf : ∀ x y : Word, f x y = F x.toNat y.toNat) (hx : ∀ s, exec i s = lanePredI h k a b f s) : StandRun i (rowPred h k a b F) :=
  standRun_of_lanePure hx (fun _ _ => by simp only [hf]; rfl) (fun _ _ _ => by simp [rowPred]) (fun _ _ => rfl) (fun _ _ => predsOk_wrP _ _)

theorem standRun_flags {f F : FEnv → Nat → Nat → Nat → Nat × Nat}
    (hf : ∀ v (x y z : Nat), x < 2 ^ 32 → y < 2 ^ 32 → f v x y z = F v x y z) (hx : ∀ s, exec i s = laneBinF h d a b f s) : StandRun i (rowFlags h d a b F) :=
  standRun_of_lanePure hx (fun _ _ => by rw [hf _ _ _ _ (BitVec.isLt _) (BitVec.isLt _)]; rfl) (fun _ _ _ => by simp [rowFlags])
    (fun _ _ => rfl) (fun _ _ => predsOk_wr _ _)

end Forms

/-! ### Two's complement -/

theorem sintOf_eq_s32 {x : Nat} (h : x < 2 ^ 32) : sintOf 32 x = s32 x := by
  simp only [sintOf, s32, Nat.mod_eq_of_lt h]; rfl

theorem si_eq_s32 (x : Word) : si x = s32 x.toNat := sintOf_eq_s32 x.isLt

theorem s32_toNat_eq_toInt (x : Word) : s32 x.toNat = x.toInt := by
  rw [BitVec.toInt_eq_toNat_cond, s32]; split <;> split <;> omega

theorem ofNat_wrap32 (z : Int) : BitVec.ofNat 32 (wrap32 z) = BitVec.ofInt 32 z := by
  apply BitVec.eq_of_toNat_eq; simp only [wrap32, BitVec.toNat_ofNat, BitVec.toNat_ofInt]; omega

theorem ofNat_wrap32_natCast (n : Nat) : BitVec.ofNat 32 (wrap32 n) = BitVec.ofNat 32 n := by
  apply BitVec.eq_of_toNat_eq; simp only [wrap32, BitVec.toNat_ofNat]; omega

theorem wordOfInt_eq (z : Int) : wordOfInt z = BitVec.ofNat 32 (wrap32 z) := rfl

/-! ### Sums, products and orders -/

theorem add_eq (x y : Word) : x + y = BitVec.ofNat 32 ((x.toNat + y.toNat) % 2 ^ 32) :=
  BitVec.eq_of_toNat_eq (by simp)

theorem sub_eq (x y : Word) : x - y = BitVec.ofNat 32 (wrap32 ((x.toNat : Int) - y.toNat)) := by
  apply BitVec.eq_of_toNat_eq; simp only [wrap32, BitVec.toNat_sub, BitVec.toNat_ofNat]; omega

theorem mul_eq (x y : Word) : x * y = BitVec.ofNat 32 (x.toNat * y.toNat % 2 ^ 32) :=
  BitVec.eq_of_toNat_eq (by simp)

theorem mulAdd_eq (x y z : Word) : x * y + z = BitVec.ofNat 32 ((x.toNat * y.toNat + z.toNat) % 2 ^ 32) :=
  BitVec.eq_of_toNat_eq (by simp)

theorem hiWord_eq (z : Int) : hiWord z = BitVec.ofNat 32 (wrap32 (z / 2 ^ 32)) := by
  apply BitVec.eq_of_toNat_eq; simp only [hiWord, modPow, wrap32, BitVec.toNat_ofNat]; omega

theorem hiWord_natCast (n : Nat) : hiWord n = BitVec.ofNat 32 (n / 2 ^ 32) := by
  rw [hiWord_eq, ← ofNat_wrap32_natCast (n / 2 ^ 32)]; push_cast; rfl

theorem hiWord_signed (x y : Word) : hiWord (si x * si y) = BitVec.ofNat 32 (wrap32 (s32 x.toNat * s32 y.toNat / 2 ^ 32)) := by
  rw [hiWord_eq, si_eq_s32, si_eq_s32]

theorem toNat_sub64 (x y : DWord) : (x - y).toNat = (x.toNat + (2 ^ 64 - y.toNat)) % 2 ^ 64 := by rw [BitVec.toNat_sub, Nat.add_comm]

theorem word_eq (x : Word) : x = BitVec.ofNat 32 x.toNat := by simp

theorem ite_toNat {p : Prop} [Decidable p] (x y : Word) : (if p then x else y) = BitVec.ofNat 32 (if p then x.toNat else y.toNat) := by
  split <;> simp

theorem signedMin_eq (x y : Word) :
    (if si y < si x then y else x) = BitVec.ofNat 32 (if s32 x.toNat ≤ s32 y.toNat then x.toNat else y.toNat) := by
  rw [ite_toNat]; simp only [si_eq_s32, ← not_le, ite_not]

theorem signedMax_eq (x y : Word) :
    (if si x < si y then y else x) = BitVec.ofNat 32 (if s32 x.toNat ≥ s32 y.toNat then x.toNat else y.toNat) := by
  rw [ite_toNat]; simp only [si_eq_s32, ← not_le, ite_not, ge_iff_le]

theorem unsignedMin_eq (x y : Word) : (if y < x then y else x) = BitVec.ofNat 32 (min x.toNat y.toNat) := by
  rw [ite_toNat]; simp only [BitVec.lt_def, ← not_le, ite_not, Nat.min_def]

theorem unsignedMax_eq (x y : Word) : (if x < y then y else x) = BitVec.ofNat 32 (max x.toNat y.toNat) := by
  rw [ite_toNat, max_comm]; simp only [BitVec.lt_def, ← not_le, ite_not, Nat.max_def]

theorem absW_eq (x : Word) : absW x = BitVec.ofNat 32 (s32 x.toNat).natAbs := by
  rw [absW, wordOfInt_eq, si_eq_s32, ofNat_wrap32_natCast]

theorem clamp32_eq (z : Int) : clamp32 z = clampIS z := by
  unfold clamp32 clampIS
  by_cases h : z < -2 ^ 31
  · simp only [h, ↓reduceIte]; rfl
  · simp only [h, ↓reduceIte, ge_iff_le, Int.sub_one_lt_iff]; rfl

theorem clamp32_add {x y : Nat} (hx : x < 2 ^ 32) (hy : y < 2 ^ 32) : clamp32 (sintOf 32 x + sintOf 32 y) = clampIS (s32 x + s32 y) := by
  rw [clamp32_eq, sintOf_eq_s32 hx, sintOf_eq_s32 hy]

theorem clamp32_sub {x y : Nat} (hx : x < 2 ^ 32) (hy : y < 2 ^ 32) : clamp32 (sintOf 32 x - sintOf 32 y) = clampIS (s32 x - s32 y) := by
  rw [clamp32_eq, sintOf_eq_s32 hx, sintOf_eq_s32 hy]

theorem icond_eq_condI (c : ICond) (x y : Int) : icond c x y = condI c x y := by
  cases c <;> simp [icond, condI, bne, Bool.beq_eq_decide_eq]

theorem icond_si (c : ICond) (x y : Word) : icond c (si x) (si y) = condI c (s32 x.toNat) (s32 y.toNat) := by
  rw [icond_eq_condI, si_eq_s32, si_eq_s32]

/-! ### Logic and shifts -/

theorem and_eq (x y : Word) : x &&& y = BitVec.ofNat 32 (x.toNat &&& y.toNat) := by simp [← BitVec.toNat_and]
theorem or_eq (x y : Word) : x ||| y = BitVec.ofNat 32 (x.toNat ||| y.toNat) := by simp [← BitVec.toNat_or]
theorem xor_eq (x y : Word) : x ^^^ y = BitVec.ofNat 32 (x.toNat ^^^ y.toNat) := by simp [← BitVec.toNat_xor]

theorem andNot_eq (x y : Word) : x &&& ~~~y = BitVec.ofNat 32 (x.toNat &&& (2 ^ 32 - 1 - y.toNat)) := by
  rw [and_eq, BitVec.toNat_not]

/-- A shift left by a count at or above the width leaves nothing. -/
theorem mul_two_pow_mod_of_le {n c : Nat} (y : Nat) (h : n ≤ c) : y * 2 ^ c % 2 ^ n = 0 :=
  Nat.mod_eq_zero_of_dvd ((pow_dvd_pow 2 h).mul_left y)

theorem toNat_shl_ite {n : Nat} (y : BitVec n) (c : Nat) :
    (y <<< c).toNat = (if c < n then y.toNat * 2 ^ c else 0) % 2 ^ n := by
  rw [BitVec.toNat_shiftLeft, Nat.shiftLeft_eq]
  split
  · rfl
  · rw [mul_two_pow_mod_of_le _ (by omega), Nat.zero_mod]

theorem toNat_shr_mod {n : Nat} (y : BitVec n) (c : Nat) : (y >>> c).toNat = y.toNat / 2 ^ c % 2 ^ n := by
  rw [BitVec.toNat_ushiftRight, Nat.shiftRight_eq_div_pow, Nat.mod_eq_of_lt ((Nat.div_le_self ..).trans_lt y.isLt)]

theorem shlW_eq (x y : Word) : shlW x y = BitVec.ofNat 32 (if x.toNat % 256 < 32 then y.toNat * 2 ^ (x.toNat % 256) % 2 ^ 32 else 0) := by
  apply BitVec.eq_of_toNat_eq
  rw [shlW, toNat_shl_ite, cnt, BitVec.toNat_ofNat]
  split <;> simp

theorem shrW_eq (x y : Word) : shrW x y = BitVec.ofNat 32 (y.toNat / 2 ^ (x.toNat % 256)) := by
  rw [← Nat.shiftRight_eq_div_pow]; simp [shrW, cnt, ← BitVec.toNat_ushiftRight]

theorem sarW_eq (x y : Word) : sarW x y = BitVec.ofNat 32
    (if x.toNat % 256 < 32 then wrap32 (s32 y.toNat / 2 ^ (x.toNat % 256)) else if 2 ^ 31 ≤ y.toNat then 2 ^ 32 - 1 else 0) := by
  have hs : sarW x y = BitVec.ofNat 32 (wrap32 (s32 y.toNat / 2 ^ (x.toNat % 256))) := by
    rw [ofNat_wrap32, s32_toNat_eq_toInt, sarW, cnt, ← BitVec.ofInt_toInt (x := y.sshiftRight _), BitVec.toInt_sshiftRight,
      Int.shiftRight_eq_div_pow]
    push_cast; rfl
  rw [hs]
  split
  · rfl
  · rename_i hc
    have hp : (2 : Int) ^ 32 ≤ 2 ^ (x.toNat % 256) := pow_le_pow_right₀ (by norm_num) (by omega)
    have hy := y.isLt
    generalize (2 : Int) ^ (x.toNat % 256) = p at hp
    by_cases h : y.toNat < 2 ^ 31
    · rw [s32, if_pos h, if_neg (by omega), Int.ediv_eq_zero_of_lt (by omega) (by omega)]; rfl
    · have hneg : ((y.toNat : Int) - 2 ^ 32) / p = -1 := by
        apply le_antisymm
        · have : ((y.toNat : Int) - 2 ^ 32) / p < 0 := Int.ediv_neg_of_neg_of_pos (by omega) (by omega)
          omega
        · exact (Int.le_ediv_iff_mul_le (by omega)).2 (by omega)
      rw [s32, if_neg h, if_pos (by omega), hneg]; rfl

theorem rotateLeft_eq (x y : Word) : y.rotateLeft (x.toNat % 32) =
    BitVec.ofNat 32 ((y.toNat * 2 ^ (x.toNat % 32) + y.toNat / 2 ^ (32 - x.toNat % 32)) % 2 ^ 32) := by
  have hk : x.toNat % 32 < 32 := Nat.mod_lt _ (by norm_num)
  generalize x.toNat % 32 = k at hk
  have hpow : 2 ^ 32 = 2 ^ (32 - k) * 2 ^ k := by rw [← Nat.pow_add]; congr 1; omega
  have hlow : y.toNat / 2 ^ (32 - k) < 2 ^ k := Nat.div_lt_of_lt_mul (hpow ▸ y.isLt)
  have hmul : y.toNat * 2 ^ k % 2 ^ 32 = (y.toNat % 2 ^ (32 - k)) * 2 ^ k := by rw [hpow, Nat.mul_mod_mul_right]
  have hlt : y.toNat % 2 ^ (32 - k) * 2 ^ k + y.toNat / 2 ^ (32 - k) < 2 ^ 32 := by
    have := Nat.mul_le_mul_right (2 ^ k) (Nat.mod_lt y.toNat (Nat.two_pow_pos (32 - k)))
    rw [Nat.succ_mul, ← hpow] at this
    omega
  have hsum : (y.toNat * 2 ^ k + y.toNat / 2 ^ (32 - k)) % 2 ^ 32 = y.toNat % 2 ^ (32 - k) * 2 ^ k + y.toNat / 2 ^ (32 - k) := by
    rw [Nat.add_mod, hmul, Nat.mod_eq_of_lt ((Nat.le_add_left ..).trans_lt hlt), Nat.mod_eq_of_lt hlt]
  apply BitVec.eq_of_toNat_eq
  rw [BitVec.toNat_rotateLeft, Nat.mod_eq_of_lt hk, Nat.shiftLeft_eq, hmul, Nat.shiftRight_eq_div_pow, BitVec.toNat_ofNat, Nat.mod_mod,
    hsum, ← Nat.shiftLeft_eq, Nat.shiftLeft_add_eq_or_of_lt hlow]

/-! ### Fields -/

/-- The bits of a number with a field replaced. -/
theorem testBit_setNatBits (x hi lo v j : Nat) (h : lo ≤ hi) :
    (setNatBits x hi lo v).testBit j = if lo ≤ j ∧ j ≤ hi then v.testBit (j - lo) else x.testBit j := by
  have hp : 2 ^ (hi + 1) = 2 ^ lo * 2 ^ (hi + 1 - lo) := by rw [← Nat.pow_add]; congr 1; omega
  have e : setNatBits x hi lo v = 2 ^ lo * (2 ^ (hi + 1 - lo) * (x / 2 ^ (hi + 1)) + v % 2 ^ (hi + 1 - lo)) + x % 2 ^ lo := by
    rw [setNatBits, Nat.mul_add, ← Nat.mul_assoc, ← hp]; omega
  rw [e, Nat.testBit_two_pow_mul_add _ (Nat.mod_lt _ (Nat.two_pow_pos _)), Nat.testBit_two_pow_mul_add _ (Nat.mod_lt _ (Nat.two_pow_pos _))]
  by_cases h1 : j < lo
  · simp [h1, show ¬ lo ≤ j by omega]
  · by_cases h2 : j ≤ hi
    · simp [h1, h2, show lo ≤ j by omega, show j - lo < hi + 1 - lo by omega]
    · rw [if_neg h1, if_neg (by omega), if_neg (by omega), ← Nat.shiftRight_eq_div_pow, Nat.testBit_shiftRight]; congr 1; omega

/-- A field exclusive-or'd in place. -/
theorem setNatBits_xor (x hi lo v : Nat) (h : lo ≤ hi) (hv : v < 2 ^ (hi + 1 - lo)) :
    setNatBits x hi lo (natBits x hi lo ^^^ v) = x ^^^ (v * 2 ^ lo) := by
  apply Nat.eq_of_testBit_eq
  intro j
  rw [testBit_setNatBits _ _ _ _ _ h, Nat.testBit_xor (x := x), Nat.mul_comm, Nat.testBit_two_pow_mul]
  by_cases h1 : lo ≤ j
  · by_cases h2 : j ≤ hi
    · rw [if_pos ⟨h1, h2⟩, Nat.testBit_xor, natBits, Nat.testBit_mod_two_pow, ← Nat.shiftRight_eq_div_pow, Nat.testBit_shiftRight]
      simp [h1, show j - lo < hi + 1 - lo by omega]
    · have : v.testBit (j - lo) = false := Nat.testBit_lt_two_pow (hv.trans_le (Nat.pow_le_pow_right (by norm_num) (by omega)))
      simp [h2, this]
  · simp [h1]

theorem fieldOf_eq (x : Word) : Machine.fieldOf x = (x.toNat % 32, min (x.toNat / 2 ^ 8 % 2 ^ 6) (32 - x.toNat % 32)) := rfl

theorem bfxW_eq (x y : Word) : bfxW x y = BitVec.ofNat 32 (bfxN x.toNat y.toNat) := rfl

/-- A field of n bits, sign-extended. -/
theorem wordOfInt_sintOf {n v : Nat} (hf : v < 2 ^ n) : (if n = 0 then 0 else wordOfInt (sintOf n v)) =
    BitVec.ofNat 32 (if 0 < n ∧ 2 ^ (n - 1) ≤ v then wrap32 ((v : Int) - 2 ^ n) else v) := by
  by_cases h0 : n = 0
  · subst h0; obtain rfl : v = 0 := by simpa using hf
    rfl
  · rw [if_neg h0, sintOf, Nat.mod_eq_of_lt hf, wordOfInt_eq]
    by_cases h1 : v < 2 ^ (n - 1)
    · rw [if_pos h1, if_neg (by omega), ofNat_wrap32_natCast]
    · rw [if_neg h1, if_pos ⟨by omega, by omega⟩]; push_cast; rfl

theorem bfxsW_eq (x y : Word) : bfxsW x y = BitVec.ofNat 32 (bfxsN x.toNat y.toNat) :=
  wordOfInt_sintOf (Nat.mod_lt _ (Nat.two_pow_pos _))

/-- Replacing a field of a number of which that field is a part. -/
theorem bfiN_eq_setNatBits (x y z : Nat) (h : min (x / 2 ^ 8 % 2 ^ 6) (32 - x % 32) ≠ 0) :
    bfiN x y z = setNatBits z (x % 32 + min (x / 2 ^ 8 % 2 ^ 6) (32 - x % 32) - 1) (x % 32) y := by
  unfold bfiN setNatBits
  generalize min (x / 2 ^ 8 % 2 ^ 6) (32 - x % 32) = n at h
  generalize x % 32 = p
  simp only
  rw [show p + n - 1 + 1 = p + n by omega, show p + n - p = n by omega, Nat.pow_add, ← Nat.div_div_eq_div_mul]
  have h1 := Nat.div_add_mod z (2 ^ p)
  have h2 := Nat.div_add_mod (z / 2 ^ p) (2 ^ n)
  have h3 : 2 ^ p * (z / 2 ^ p) = 2 ^ p * 2 ^ n * (z / 2 ^ p / 2 ^ n) + z / 2 ^ p % 2 ^ n * 2 ^ p := by
    conv_lhs => rw [← h2]
    ring
  rw [Nat.mul_comm (y % 2 ^ n)]
  omega

theorem bfiW_eq (x y z : Word) : bfiW x y z = BitVec.ofNat 32 (bfiN x.toNat y.toNat z.toNat) := by
  have hb : x.toNat % 32 + min (x.toNat / 2 ^ 8 % 2 ^ 6) (32 - x.toNat % 32) ≤ 32 := by omega
  by_cases h0 : min (x.toNat / 2 ^ 8 % 2 ^ 6) (32 - x.toNat % 32) = 0
  · simp only [bfiW, fieldOf_eq, bfiN, h0]
    simp only [w32, Nat.mod_one, Nat.pow_zero, Nat.sub_self, Nat.zero_mul, Nat.sub_zero, Nat.add_zero, BitVec.ofNat_toNat, BitVec.setWidth_eq]
    simp only [BitVec.and_zero, BitVec.or_zero]
    exact BitVec.and_allOnes
  · rw [bfiN_eq_setNatBits _ _ _ h0]
    simp only [bfiW, fieldOf_eq]
    generalize min (x.toNat / 2 ^ 8 % 2 ^ 6) (32 - x.toNat % 32) = n at h0 hb
    generalize x.toNat % 32 = p at hb
    apply BitVec.eq_of_getLsbD_eq
    intro j hj
    simp only [w32, BitVec.getLsbD_or, BitVec.getLsbD_and, BitVec.getLsbD_not, BitVec.getLsbD_shiftLeft, BitVec.getLsbD_ofNat,
      Nat.mul_comm _ (2 ^ p), Nat.testBit_two_pow_mul, Nat.testBit_two_pow_sub_one,
      testBit_setNatBits _ _ _ _ _ (show p ≤ p + n - 1 by omega), hj, decide_true, Bool.true_and]
    simp only [BitVec.getLsbD]
    by_cases h1 : p ≤ j
    · by_cases h2 : j - p < n
      · simp [h1, h2, show j ≤ p + n - 1 by omega, show ¬ j < p by omega]
      · simp [h1, h2, show ¬ j ≤ p + n - 1 by omega]
    · simp [h1]

/-! ### Counting and reversing bits -/

theorem b2n_natBit (x i : Nat) : b2n (natBit x i) = x / 2 ^ i % 2 := by
  unfold natBit b2n
  rcases Nat.mod_two_eq_zero_or_one (x / 2 ^ i) with h | h <;> simp [h]

theorem length_filter_natBit (x : Nat) (l : List Nat) : (l.filter fun i => natBit x i).length = (l.map fun i => x / 2 ^ i % 2).sum := by
  induction l with
  | nil => rfl
  | cons i l ih =>
    rw [List.map_cons, List.sum_cons, ← ih, ← b2n_natBit]
    cases h : natBit x i <;> simp [h, b2n, Nat.add_comm]

theorem popcW_eq (x : Word) : popcW x = BitVec.ofNat 32 ((List.range 32).map fun i => x.toNat / 2 ^ i % 2).sum := by
  rw [popcW, length_filter_natBit]; rfl

theorem length_filter_lt_range (k n : Nat) : ((List.range n).filter fun i => decide (k < i)).length = n - 1 - k := by
  induction n with
  | zero => simp
  | succ n ih =>
    rw [List.range_succ, List.filter_append, List.length_append, ih, List.filter_singleton]
    by_cases h : k < n
    · simp only [h, decide_true, cond_true, List.length_singleton]; omega
    · simp only [h, decide_false, cond_false, List.length_nil]; omega

theorem clzW_eq (x : Word) : clzW x = BitVec.ofNat 32 ((List.range 32).filter fun i => x.toNat < 2 ^ i).length := by
  unfold clzW
  by_cases h : x = 0
  · subst h; rfl
  · have hx : x.toNat ≠ 0 := fun e => h (BitVec.eq_of_toNat_eq e)
    simp only [if_neg h, ← Nat.log2_lt hx, length_filter_lt_range]; rfl

/-- The trailing zeros of a number among its n low bits, counted and searched for. -/
theorem find?_natBit_range (x n : Nat) :
    (x % 2 ^ n = 0 ∧ ((List.range n).find? fun i => natBit x i) = none ∧ ((List.range n).filter fun i => x % 2 ^ (i + 1) = 0).length = n) ∨
    (x % 2 ^ n ≠ 0 ∧ ((List.range n).find? fun i => natBit x i) = some ((List.range n).filter fun i => x % 2 ^ (i + 1) = 0).length) := by
  induction n with
  | zero => left; simp [Nat.mod_one]
  | succ n ih =>
    have hm : x % 2 ^ (n + 1) = x % 2 ^ n + 2 ^ n * (x / 2 ^ n % 2) := by rw [Nat.pow_succ, Nat.mod_mul]
    have hb : natBit x n = decide (x / 2 ^ n % 2 = 1) := rfl
    simp only [List.range_succ, List.find?_append, List.filter_append, List.length_append, List.filter_singleton, List.find?_singleton]
    rcases ih with ⟨h0, h1, h2⟩ | ⟨h0, h1⟩
    · rw [h1, h2, hm, h0, hb]
      have := Nat.two_pow_pos n
      rcases Nat.mod_two_eq_zero_or_one (x / 2 ^ n) with h | h
      · left; simp [h]
      · right; simp [h]
    · right
      have : x % 2 ^ (n + 1) ≠ 0 := by rw [hm]; omega
      simp [h1, this]

theorem ctzW_eq (x : Word) : ctzW x = BitVec.ofNat 32 ((List.range 32).filter fun i => x.toNat % 2 ^ (i + 1) = 0).length := by
  unfold ctzW
  rcases find?_natBit_range x.toNat 32 with ⟨-, h1, h2⟩ | ⟨-, h1⟩
  · rw [h1, h2]; rfl
  · rw [h1]; rfl

theorem foldl_bits_eq_sum (b : Nat → Nat) (n : Nat) :
    (List.range (n + 1)).foldl (fun a i => 2 * a + b i) 0 = ((List.range (n + 1)).map fun i => b i * 2 ^ (n - i)).sum := by
  induction n with
  | zero => simp
  | succ n ih =>
    rw [List.range_succ, List.foldl_append, ih, List.map_append, List.sum_append]
    simp only [List.foldl_cons, List.foldl_nil, List.map_cons, List.map_nil, List.sum_cons, List.sum_nil, Nat.sub_self, Nat.pow_zero, Nat.mul_one, Nat.add_zero,
      ← List.sum_map_mul_left]
    congr 2
    apply List.map_congr_left
    intro i hi
    rw [List.mem_range] at hi
    rw [show n + 1 - i = (n - i) + 1 by omega, Nat.pow_succ]; ring

theorem brevW_eq (x : Word) : brevW x = BitVec.ofNat 32 ((List.range 32).map fun i => x.toNat / 2 ^ i % 2 * 2 ^ (31 - i)).sum := by
  simp only [brevW, b2n_natBit]
  rw [foldl_bits_eq_sum (fun i => x.toNat / 2 ^ i % 2) 31]; rfl

/-! ### Bytes -/

theorem byteW_eq (x : Word) (i : Nat) : byteW x i = byteN x.toNat i := rfl

theorem sintOf_byteW (x : Word) (i : Nat) : sintOf 8 (byteW x i) = byteI x.toNat i := by
  have : byteN x.toNat i < 2 ^ 8 := Nat.mod_lt _ (by norm_num)
  rw [byteW_eq, sintOf, byteI, Nat.mod_eq_of_lt this]; rfl

theorem dot4_signed_eq (x y z : Word) : dot4 true x y z = BitVec.ofNat 32 (wrap32 (z.toNat + byteI x.toNat 0 * byteI y.toNat 0 +
    byteI x.toNat 1 * byteI y.toNat 1 + byteI x.toNat 2 * byteI y.toNat 2 + byteI x.toNat 3 * byteI y.toNat 3)) := by
  simp only [dot4, ↓reduceIte, sintOf_byteW]; rfl

theorem dot4_unsigned_eq (x y z : Word) : dot4 false x y z = BitVec.ofNat 32 ((z.toNat + byteN x.toNat 0 * byteN y.toNat 0 +
    byteN x.toNat 1 * byteN y.toNat 1 + byteN x.toNat 2 * byteN y.toNat 2 + byteN x.toNat 3 * byteN y.toNat 3) % 2 ^ 32) := by
  rw [← BitVec.toNat_ofNat, BitVec.ofNat_toNat, BitVec.setWidth_eq, ← ofNat_wrap32_natCast]; push_cast; rfl

theorem packW_eq (x y : Word) : packW x y = BitVec.ofNat 32 (x.toNat % 2 ^ 16 + y.toNat % 2 ^ 16 * 2 ^ 16) := by
  rw [packW, Nat.mul_comm]; rfl

/-- The top bit of a number of n + 1 bits. -/
theorem natBit_top {x n : Nat} (h : x < 2 ^ (n + 1)) : natBit x n = decide (2 ^ n ≤ x) := by
  have h1 : x / 2 ^ n < 2 := Nat.div_lt_of_lt_mul (by rwa [← Nat.pow_succ])
  have h2 := Nat.le_div_iff_mul_le (x := 1) (y := x) (Nat.two_pow_pos n)
  rw [natBit, Bool.eq_iff_iff, beq_iff_eq, decide_eq_true_iff]
  generalize x / 2 ^ n = q at h1 h2
  omega

theorem permbByte_eq (x y : Word) (i : Nat) : (let s := elemAt 4 i y.toNat
    if natBit s 3 then 0 else if natBit s 2 then (if natBit (byteW x (s % 4)) 7 then 255 else 0) else byteW x (s % 4)) = permbByte x.toNat y.toNat i := by
  have hs : elemAt 4 i y.toNat = y.toNat / 2 ^ (4 * i) % 16 := rfl
  simp only [permbByte, hs, byteW_eq]
  have h1 : y.toNat / 2 ^ (4 * i) % 16 < 16 := Nat.mod_lt _ (by norm_num)
  generalize y.toNat / 2 ^ (4 * i) % 16 = s at h1
  have h2 : byteN x.toNat (s % 4) < 2 ^ 8 := Nat.mod_lt _ (by norm_num)
  generalize byteN x.toNat (s % 4) = b at h2
  have h3 : natBit s 3 = decide (8 ≤ s) := natBit_top (n := 3) h1
  have h7 : natBit b 7 = decide (128 ≤ b) := natBit_top (n := 7) h2
  by_cases h : 8 ≤ s
  · simp [h3, h]
  · have h4 : natBit s 2 = decide (4 ≤ s) := natBit_top (n := 2) (by omega)
    simp [h3, h4, h7, h]

theorem permbW_eq (x y : Word) : permbW x y = BitVec.ofNat 32
    (permbByte x.toNat y.toNat 0 + permbByte x.toNat y.toNat 1 * 2 ^ 8 + permbByte x.toNat y.toNat 2 * 2 ^ 16 + permbByte x.toNat y.toNat 3 * 2 ^ 24) := by
  simp only [permbW, permbByte_eq, w32]
  congr 1; ring

/-! ### The scratchpad swizzle and the sign bit -/

theorem swizzle_eq_xswzN (x y : Nat) : swizzle (x % 8) y = xswzN x y := by
  unfold swizzle xswzN
  split
  · rfl
  · have hn : natBits y (x % 8 + 8) (x % 8 + 6) = y / 2 ^ (x % 8 + 6) % 8 := by
      rw [natBits, show x % 8 + 8 + 1 - (x % 8 + 6) = 3 by omega]; rfl
    rw [hn]
    exact setNatBits_xor y 6 4 _ (by norm_num) (Nat.mod_lt _ (by norm_num))

theorem swizzleW_eq (x y : Word) : w32 (swizzle (x.toNat % 8) y.toNat) = BitVec.ofNat 32 (xswzN x.toNat y.toNat) := by
  rw [swizzle_eq_xswzN]; rfl

theorem clearSign_eq (x : Word) : x &&& 0x7FFFFFFF = BitVec.ofNat 32 (x.toNat % 2 ^ 31) := by
  rw [and_eq, ← Nat.and_two_pow_sub_one_eq_mod]; rfl

theorem flipSign_eq (x : Word) : x ^^^ 0x80000000 = BitVec.ofNat 32 ((x.toNat + 2 ^ 31) % 2 ^ 32) := by
  have hx := x.isLt
  have e : x.toNat ^^^ (1 * 2 ^ 31) = (x.toNat + 2 ^ 31) % 2 ^ 32 := by
    rw [← setNatBits_xor x.toNat 31 31 1 (by norm_num) (by norm_num), setNatBits]
    have hb : natBits x.toNat 31 31 = x.toNat / 2 ^ 31 % 2 := rfl
    rw [hb]
    rcases Nat.mod_two_eq_zero_or_one (x.toNat / 2 ^ 31) with h | h
    · rw [h, Nat.zero_xor]; omega
    · rw [h, Nat.xor_self]; omega
  rw [xor_eq, ← e]; rfl

/-! ### The class -/

/-- Settles O1: each class A word, FABS and FNEG runs in the frame of its form, and its operation on words is the row's arithmetic on numbers. -/
theorem integerWords : Obligations.IntegerWords := by
  intro h d a b k c
  refine ⟨?iadd, ?isub, ?isubr, ?imul, ?imulhi, ?nmulhi, ?imad, ?imin, ?imax, ?nmin, ?nmax, ?iabs, ?and, ?or, ?xor, ?andn, ?shl, ?shr, ?sar, ?rotl,
    ?bfx, ?bfxs, ?bfi, ?popc, ?clz, ?ctz, ?brev, ?iadd64, ?isub64, ?imul64, ?shl64, ?shr64, ?icmp, ?ncmp, ?mov, ?mov64, ?iadds, ?isubs,
    ?dot4i, ?dot4n, ?pack, ?permb, ?xswz, ?fabs, ?fneg⟩
  case iadd => exact standRun_bin (fun x y _ => add_eq x y) fun _ => rfl
  case isub => exact standRun_bin (fun x y _ => sub_eq x y) fun _ => rfl
  case isubr => exact standRun_bin (fun x y _ => sub_eq y x) fun _ => rfl
  case imul => exact standRun_bin (fun x y _ => mul_eq x y) fun _ => rfl
  case imulhi => exact standRun_bin (fun x y _ => hiWord_signed x y) fun _ => rfl
  case nmulhi => exact standRun_bin (fun x y _ => hiWord_natCast (x.toNat * y.toNat)) fun _ => rfl
  case imad => exact standRun_bin mulAdd_eq fun _ => rfl
  case imin => exact standRun_bin (fun x y _ => signedMin_eq x y) fun _ => rfl
  case imax => exact standRun_bin (fun x y _ => signedMax_eq x y) fun _ => rfl
  case nmin => exact standRun_bin (fun x y _ => unsignedMin_eq x y) fun _ => rfl
  case nmax => exact standRun_bin (fun x y _ => unsignedMax_eq x y) fun _ => rfl
  case iabs => exact standRun_un absW_eq fun _ => rfl
  case and => exact standRun_bin (fun x y _ => and_eq x y) fun _ => rfl
  case or => exact standRun_bin (fun x y _ => or_eq x y) fun _ => rfl
  case xor => exact standRun_bin (fun x y _ => xor_eq x y) fun _ => rfl
  case andn => exact standRun_bin (fun x y _ => andNot_eq x y) fun _ => rfl
  case shl => exact standRun_bin (fun x y _ => shlW_eq x y) fun _ => rfl
  case shr => exact standRun_bin (fun x y _ => shrW_eq x y) fun _ => rfl
  case sar => exact standRun_bin (fun x y _ => sarW_eq x y) fun _ => rfl
  case rotl => exact standRun_bin (fun x y _ => rotateLeft_eq x y) fun _ => rfl
  case bfx => exact standRun_bin (fun x y _ => bfxW_eq x y) fun _ => rfl
  case bfxs => exact standRun_bin (fun x y _ => bfxsW_eq x y) fun _ => rfl
  case bfi => exact standRun_bin bfiW_eq fun _ => rfl
  case popc => exact standRun_un popcW_eq fun _ => rfl
  case clz => exact standRun_un clzW_eq fun _ => rfl
  case ctz => exact standRun_un ctzW_eq fun _ => rfl
  case brev => exact standRun_un brevW_eq fun _ => rfl
  case iadd64 => exact standRun_bin64 BitVec.toNat_add fun _ => rfl
  case isub64 => exact standRun_bin64 toNat_sub64 fun _ => rfl
  case imul64 => exact standRun_bin64 BitVec.toNat_mul fun _ => rfl
  case shl64 => exact standRun_shift64 (fun x y => toNat_shl_ite y (cnt x)) fun _ => rfl
  case shr64 => exact standRun_shift64 (fun x y => toNat_shr_mod y (cnt x)) fun _ => rfl
  case icmp => exact standRun_pred (icond_si c) fun _ => rfl
  case ncmp => exact standRun_pred (fun x y => icond_eq_condI c x.toNat y.toNat) fun _ => rfl
  case mov => exact standRun_un word_eq fun _ => rfl
  case mov64 =>
    exact standRun_of_lanePure (fixed := true) (f := fun e t => .of (wr64 d.val (readA64 e t a))) (fun _ => rfl) (fun _ _ => rfl)
      (fun _ _ _ => by simp) (fun _ _ => rfl) fun _ _ => predsOk_pairOf _ _
  case iadds => exact standRun_flags (fun _ _ _ _ hx hy => clamp32_add hx hy) fun _ => rfl
  case isubs => exact standRun_flags (fun _ _ _ _ hx hy => clamp32_sub hx hy) fun _ => rfl
  case dot4i => exact standRun_bin dot4_signed_eq fun _ => rfl
  case dot4n => exact standRun_bin dot4_unsigned_eq fun _ => rfl
  case pack => exact standRun_bin (fun x y _ => packW_eq x y) fun _ => rfl
  case permb => exact standRun_bin (fun x y _ => permbW_eq x y) fun _ => rfl
  case xswz => exact standRun_bin (fun x y _ => swizzleW_eq x y) fun _ => rfl
  case fabs => exact standRun_un clearSign_eq fun _ => rfl
  case fneg => exact standRun_un flipSign_eq fun _ => rfl

end Sys2Proof.LaneWords
end

section
/-! PROOFS. The cross-lane words of a stand that is one gathering (06 R149-R159): the stand waits at the word, its gathering forms at once, and its completion gives each contributor what the word's row says. -/

namespace Sys2Proof.LaneWords

open Sys2Proof.Machine Sys2Proof.Safety

/-! ### A thread that waits at a cross-lane word -/

/-- A thread that has issued a cross-lane word with header h and waits there for its gathering, a contributor where its guard is true. -/
def reached (sh : Shape) (a : List (Nat × Word)) (i : Instr) (h : Hdr) (gt : Nat) (u : Thread) : Thread :=
  { (u.begin sh a).finish sh with wait := .gather i (u.guard h) gt }

section Reached

variable (sh : Shape) (a : List (Nat × Word)) (i : Instr) (h : Hdr) (gt : Nat) (u : Thread)

@[simp] theorem reached_wait : (reached sh a i h gt u).wait = .gather i (u.guard h) gt := rfl
@[simp] theorem reached_gathering : (reached sh a i h gt u).gathering = some (i, u.guard h) := rfl
@[simp] theorem reached_tid : (reached sh a i h gt u).tid = u.tid := Thread.begin_tid sh a u
@[simp] theorem reached_strand : (reached sh a i h gt u).strand = u.strand := begin_strand sh a u
@[simp] theorem reached_lane : (reached sh a i h gt u).lane = u.lane := begin_lane sh a u
@[simp] theorem reached_width : (reached sh a i h gt u).width = u.width := begin_width sh a u
@[simp] theorem reached_core : (reached sh a i h gt u).core = u.core := begin_core sh a u
@[simp] theorem reached_life : (reached sh a i h gt u).life = u.life := begin_life sh a u
@[simp] theorem reached_ctl : (reached sh a i h gt u).ctl = u.ctl := begin_ctl sh a u
@[simp] theorem reached_fpc : (reached sh a i h gt u).fpc = u.fpc := begin_fpc sh a u

/-- The end of a word leaves what a source register reads as it was. -/
theorem endWord_src (n : Nat) (e : Bool) (t : Thread) (r : Reg) : (t.endWord n e).src r = t.src r := by
  have hr : (t.endWord n e).arch r = t.arch r := Thread.arch_congr _ _ rfl rfl r
  have hs : (t.endWord n e).seg.map Seg.results = t.seg.map Seg.results := by
    unfold Thread.endWord Thread.modSeg
    cases t.seg with
    | none => rfl
    | some x =>
      simp only [Option.map_some]
      split
      · rfl
      · cases e <;> simp only [Bool.false_eq_true, ↓reduceIte] <;>
          cases endTest (x.pcs.headD 0) n false x.ctl.frames x.ctl <;> cases x.moved <;> rfl
  unfold Thread.src
  rw [hr]
  cases h : t.seg <;> cases h' : (t.endWord n e).seg <;> simp_all

@[simp] theorem reached_src (r : Reg) : (reached sh a i h gt u).src r = u.src r :=
  (endWord_src sh.len _ (u.begin sh a) r).trans (begin_src sh a u r)

/-- The wait of a thread says nothing of what its segment leaves. -/
theorem ended_withWait (t : Thread) (w : Wait) : ended { t with wait := w } = ended t := by
  rcases t.seg.eq_none_or_eq_some with h | ⟨x, h⟩
  · exact (ended_closed { t with wait := w } h).trans (ended_closed t h).symm
  · exact (ended_open { t with wait := w } x h).trans (ended_open t x h).symm

variable {u} in
/-- The segment of a thread that waits at a word: the word counted, the PC past it, nothing added. -/
theorem reached_seg (hi : (∀ x, u.seg = some x → x.fin = .running) ∧ u.stopped = false) :
    ∃ z, (reached sh a i h gt u).seg = some { u.begunSeg sh a with ctl := past u sh.len, fin := z } :=
  (endWord_added sh a u (u.begin sh a) _ hi (begin_begunSeg sh a u) rfl).2

variable {u} in
theorem reached_plainEnd (hi : (∀ x, u.seg = some x → x.fin = .running) ∧ u.stopped = false) : (reached sh a i h gt u).plainEnd = true :=
  (endWord_added sh a u (u.begin sh a) _ hi (begin_begunSeg sh a u) rfl).1

variable {u} in
theorem reached_wordPc (hi : (∀ x, u.seg = some x → x.fin = .running) ∧ u.stopped = false) : (reached sh a i h gt u).wordPc = u.now.pc := by
  obtain ⟨z, hz⟩ := reached_seg sh a i h gt hi
  unfold Thread.wordPc
  rw [hz, ← segOf_ctl a u]; rfl

variable {u} in
theorem ended_reached (hi : (∀ x, u.seg = some x → x.fin = .running) ∧ u.stopped = false) :
    ended (reached sh a i h gt u) = { ended u with ctl := past u sh.len } := by
  obtain ⟨z, hz⟩ := reached_seg sh a i h gt hi
  have hf : (u.begin sh a).finish sh = { u.begin sh a with seg := some { u.begunSeg sh a with ctl := past u sh.len, fin := z } } := by
    rw [← hz]; rfl
  rw [reached, ended_withWait, ended_open' _ _ (begin_begunSeg sh a u) _ z _ hf, ended_begin]

end Reached

/-- A thread that waits does not commit. -/
theorem commitReady_of_waiting {t : Thread} (h : t.waiting = true) : t.commitReady = false := by
  unfold Thread.commitReady
  cases t.seg <;> simp [h]

/-! ### The stand issues the word -/

/-- Threads listed by distinct TIDs, each found again changed by M: the list is changed by M. -/
theorem lanes_eq_map {l l' : List Thread} (M : Thread → Thread) (hn : (l.map Thread.tid).Nodup) (ht : l'.map Thread.tid = l.map Thread.tid)
    (hM : ∀ v ∈ l, (M v).tid = v.tid ∧ M v ∈ l') : l' = l.map M := by
  have hlen : l'.length = l.length := by simpa using congrArg List.length ht
  refine List.ext_getElem (by simpa using hlen) fun k h1 h2 => ?_
  have hk : k < l.length := hlen ▸ h1
  have htid : (l'[k]).tid = (l[k]).tid := by
    have := List.getElem_of_eq ht (i := k) (by simpa using h1)
    simpa using this
  obtain ⟨e, hm⟩ := hM l[k] (List.getElem_mem hk)
  rw [List.getElem_map]
  exact eq_of_tid l' (ht ▸ hn) _ _ (List.getElem_mem h1) hm (htid.trans e.symm)

/-- A grove with each thread of a stand changed by M. -/
def changed (g : Grove) (stand : Nat) (M : Thread → Thread) : Grove :=
  { g with lanes := g.lanes.map fun v => if v.stand = stand then M v else v }

/-- A state in which only threads of a stand have changed, each by M. -/
theorem standLeaves_of_changed {s t : State} {gid stand : Nat} {g : Grove} {P : Thread → Thread → Prop} (M : Thread → Thread)
    (ho : OnlyGroves s t) (hj : ∀ j, j ≠ gid → t.grove? j = s.grove? j) (hg : t.grove? gid = some (changed g stand M))
    (hM : ∀ u, (M u).tid = u.tid) (hP : ∀ u ∈ g.lanes, u.stand = stand → P u (M u)) : StandLeaves s t gid stand g P := by
  refine ⟨ho, hj, _, hg, rfl, ?_, fun u hu => ⟨_, List.mem_map_of_mem hu, ?_, ?_⟩⟩
  · rw [changed, List.map_map]
    apply List.map_congr_left
    intro u _; simp only [Function.comp_apply]; split <;> simp [hM]
  · split <;> simp [hM]
  · by_cases h : u.stand = stand
    · simp only [h, ↓reduceIte]; exact hP u hu h
    · simp only [h, ↓reduceIte]

/-- With no home-side check open, a stand's word is not held at issue (R88). -/
theorem standHeld_eq_false (s : State) {g : Grove} {stand : Nat} (ho : NoneOpen g stand) (h : Hdr) :
    standHeld s g stand (activeOf g stand h) = false := by
  rw [standHeld, List.any_eq_false]
  intro u hu
  obtain ⟨hu, hst, -⟩ : u ∈ g.lanes ∧ u.stand = stand ∧ u.guard h = true := by simpa [activeOf] using hu
  rw [Bool.not_eq_true, Grove.unanswered, List.any_eq_false]
  intro v hv
  by_cases e : v.team = u.team
  · cases hx : v.seg with
    | none => simp
    | some x => simp [ho u hu v hv hst (.inr e) x hx]
  · simp [e]

/-- What a cross-lane word does in each thread of its stand: the thread waits there, a contributor where its guard is true (R149, R150). -/
def waitsAt (i : Instr) (h : Hdr) (gt : Nat) (t : Thread) : Thread := { t with wait := .gather i (t.guard h) gt }

/-- A thread of a stand after a cross-lane word's effect. -/
def waitsMid (sh : Shape) (a : List (Nat × Word)) (stand : Nat) (i : Instr) (h : Hdr) (gt : Nat) (v : Thread) : Thread :=
  if v.stand = stand then waitsAt i h gt (v.begin sh a) else v

theorem waitsMid_finish (sh : Shape) (a : List (Nat × Word)) (i : Instr) (h : Hdr) (gt : Nat) {stand : Nat} {v : Thread} (hv : v.stand = stand) :
    (waitsMid sh a stand i h gt v).finish sh = reached sh a i h gt v := by
  rw [waitsMid, if_pos hv, waitsAt, begin_guard]; rfl

/-- Under a header with no guard every thread of the stand acts. -/
theorem mem_activeOf_tids {s : State} {gid stand : Nat} {w l : Word} {g : Grove} (hs : StandAt s gid stand w l g) {h : Hdr} (hh : h.g = 0)
    {v : Thread} (hv : v ∈ g.lanes) : ((activeOf g stand h).map Thread.tid).contains v.tid = true ↔ v.stand = stand := by
  have : (standOf g stand).filter (fun t => t.guard h) = standOf g stand := by
    rw [List.filter_eq_self]; intro u _; simp [Thread.guard, Thread.predSrc, hh]
  rw [← standOf_tids hs v hv, ← activeOf_eq hs, this]

/-- The waits begun, thread by thread: the grove with each thread of the stand in the word. -/
theorem waitsMid_grove {s : State} {gid stand : Nat} {w l : Word} {g : Grove} (hs : StandAt s gid stand w l g) (sh : Shape) (hh : sh.h.g = 0)
    (i : Instr) (h : Hdr) :
    ((s.begunLane gid stand g sh).modGrove gid fun g' => g'.modLanes (fun t => ((activeOf g stand sh.h).map Thread.tid).contains t.tid)
      (waitsAt i h s.gt)).grove? gid = some { g with lanes := g.lanes.map (waitsMid sh (s.srStart g) stand i h s.gt) } := by
  rw [State.grove?_modGrove_same _ _ _ (by intro _; rfl), begunLane_grove? sh hs, Option.map_some]
  simp only [Grove.modLanes, Grove.begun, List.map_map]
  congr 2
  apply List.map_congr_left
  intro v hv
  have hc := mem_activeOf_tids hs hh hv
  by_cases e : v.stand = stand
  · simp only [Function.comp_apply, waitsMid, if_pos e, Thread.begin_tid, if_pos (hc.2 e)]
  · simp only [Function.comp_apply, waitsMid, if_neg e, if_neg (fun k => e (hc.1 k))]

/-- A thread of a stand that issues is in a running segment or in none, and has not stopped. -/
theorem runs_of_standAt {s : State} {gid stand : Nat} {w l : Word} {g : Grove} (hs : StandAt s gid stand w l g) {u : Thread} (hu : u ∈ g.lanes)
    (hst : u.stand = stand) : (∀ x, u.seg = some x → x.fin = .running) ∧ u.stopped = false :=
  ⟨running_of_issuing u stand (hs.whole u hu hst).1, (hs.whole u hu hst).2⟩

/-- A cross-lane word of a stand with no home-side check open: each of its threads waits at the word, and nothing else changes (R88, R149, R150). -/
theorem crossWord_law {s : State} {gid stand : Nat} {w l : Word} {g : Grove} (hs : StandAt s gid stand w l g) (h : Hdr) (sh : Shape)
    (hsh : sh.h = { h with g := 0 }) (i : Instr) (hd : LaneDecodes sh g stand) (ho : NoneOpen g stand) :
    ∃ t, laneIssue sh standHeld (fun gid tid s => s.modThread gid (some tid) (waitsAt i h s.gt)) s = .next t ∧ OnlyGroves s t ∧
      (∀ j, j ≠ gid → t.grove? j = s.grove? j) ∧
      t.grove? gid = some (changed g stand (reached sh (s.srStart g) i h s.gt)) := by
  have hh : sh.h.g = 0 := by rw [hsh]
  have hfold := fold_modThread gid (waitsAt i h s.gt) (fun _ => rfl) (fun gid tid s => s.modThread gid (some tid) (waitsAt i h s.gt)) s
    (fun s' hs' k => by rw [show s'.gt = s.gt by rw [hs']]) ((activeOf g stand sh.h).map Thread.tid)
    (List.Nodup.sublist (List.filter_sublist.map _) hs.distinct) _ (begunLane_only (gid := gid) (stand := stand) (g := g) sh)
  obtain ⟨t, ht, h1, h2, g'', h3, h4, h5, h6⟩ := laneIssue_each s gid stand w l g sh standHeld
    (fun gid tid s => s.modThread gid (some tid) (waitsAt i h s.gt)) hs hd (standHeld_eq_false s ho _)
    _ g (waitsMid sh (s.srStart g) stand i h s.gt) hfold (waitsMid_grove hs sh hh i h)
    (fun v _ => by by_cases e : v.stand = stand <;> simp [waitsMid, waitsAt, e])
    (fun v hv hst => by rw [waitsMid_finish _ _ _ _ _ hst]; exact reached_plainEnd _ _ _ _ _ (runs_of_standAt hs hv hst))
  refine ⟨t, ht, onlyGroves_trans (begunLane_only sh) (onlyGroves_trans (onlyGroves_modGrove ..) h1), fun j hj => ?_, ?_⟩
  · rw [h2 j hj, State.grove?_modGrove_other _ _ _ _ (by intro _; rfl) hj, begunLane_other sh j hj]
  · rw [h3, h4, lanes_eq_map _ hs.distinct h5]
    · rfl
    intro v hv
    obtain ⟨v', m1, m2, m3⟩ := h6 v hv
    by_cases e : v.stand = stand
    · rw [if_pos e, waitsMid_finish _ _ _ _ _ e] at m3
      have hv' : v' = reached sh (s.srStart g) i h s.gt v := m3.resolve_right fun hc => by
        rw [commitReady_of_waiting rfl] at hc; exact Bool.noConfusion hc.1
      rw [if_pos e, ← hv']; exact ⟨m2, m1⟩
    · rw [if_neg e] at m3 ⊢
      exact ⟨rfl, m3 ▸ m1⟩

/-! ### The gathering forms and completes -/

/-- The threads of a stand. -/
def members (g : Grove) (stand : Nat) : List Thread := g.lanes.filter fun v => v.stand = stand

theorem mem_members {g : Grove} {stand : Nat} {v : Thread} : v ∈ members g stand ↔ v ∈ g.lanes ∧ v.stand = stand := by simp [members]

section Gathering

variable {s : State} {gid stand : Nat} {w l : Word} {g : Grove} (hs : StandAt s gid stand w l g) (hg : Gathers g stand)
  (sh : Shape) (a : List (Nat × Word)) (i : Instr) (h : Hdr) (gt : Nat)

include hg in
/-- A waiting thread's participants are its stand, waiting (R149). -/
theorem participants_changed {u : Thread} (hu : u ∈ g.lanes) (hst : u.stand = stand) :
    (changed g stand (reached sh a i h gt)).participants (reached sh a i h gt u) = (members g stand).map (reached sh a i h gt) := by
  have hN : ∀ v : Thread, (if v.stand = stand then reached sh a i h gt v else v).strand = v.strand ∧
      (if v.stand = stand then reached sh a i h gt v else v).alive = v.alive ∧
      (if v.stand = stand then reached sh a i h gt v else v).lane = v.lane := by
    intro v; split <;> simp [Thread.alive]
  rw [members, ← hg.participants u hu hst]
  simp only [Grove.participants, changed, List.filter_map, Function.comp_def, hN, reached_strand, reached_ctl]
  apply List.map_congr_left
  intro v hv
  rw [show g.lanes.filter _ = members g stand from hg.participants u hu hst, mem_members] at hv
  rw [if_pos hv.2]

include hs hg in
/-- The gathering of a waiting stand has formed: it is the stand (R149). -/
theorem gatheringOf_changed {u : Thread} (hu : u ∈ g.lanes) (hst : u.stand = stand) :
    (changed g stand (reached sh a i h gt)).gatheringOf (reached sh a i h gt u) = some ((members g stand).map (reached sh a i h gt)) := by
  unfold Grove.gatheringOf
  rw [participants_changed hg sh a i h gt hu hst, if_pos]
  simp only [reached_gathering, Option.isSome_some, Bool.true_and, List.all_map, List.all_eq_true, Function.comp_apply]
  intro v hv
  obtain ⟨hv, hvs⟩ := mem_members.1 hv
  rw [participants_changed hg sh a i h gt hv hvs, reached_wordPc _ _ _ _ _ (runs_of_standAt hs hv hvs),
    reached_wordPc _ _ _ _ _ (runs_of_standAt hs hu hst), hg.together u hu v hv hst hvs]
  simp

end Gathering

theorem mem_byLane {l : List Thread} {v : Thread} : v ∈ byLane l ↔ v ∈ l ∧ v.lane < 64 := by
  simp only [byLane, List.mem_flatMap, List.mem_range, List.mem_filter, beq_iff_eq]
  exact ⟨fun ⟨k, hk, hv, e⟩ => ⟨hv, e ▸ hk⟩, fun ⟨hv, hk⟩ => ⟨_, hk, hv, rfl⟩⟩

theorem byLane_map (M : Thread → Thread) (hM : ∀ v, (M v).lane = v.lane) (l : List Thread) : byLane (l.map M) = (byLane l).map M := by
  simp only [byLane, List.map_flatMap, List.filter_map, Function.comp_def, hM]

section Completion

variable (sh : Shape) (a : List (Nat × Word)) (i : Instr) (h : Hdr) (gt : Nat)

/-- A waiting thread once its gathering has completed with the contributors cs: a contributor takes its results, and each leaves the word (R149, R150). -/
def delivered (cs : List Thread) (u : Thread) : Thread :=
  { (if u.guard h then (reached sh a i h gt u).apply false (crossResult i cs (reached sh a i h gt u)) else reached sh a i h gt u) with wait := .none }

@[simp] theorem delivered_tid (cs : List Thread) (u : Thread) : (delivered sh a i h gt cs u).tid = u.tid := by
  unfold delivered; split <;> simp

/-- The completion of a waiting stand's gathering reaches its threads and no other. -/
theorem gatherDone_changed {g : Grove} (hn : (g.lanes.map Thread.tid).Nodup) (stand : Nat) :
    (changed g stand (reached sh a i h gt)).gatherDone ((members g stand).map (reached sh a i h gt)) =
      changed g stand (delivered sh a i h gt ((contributors g stand h).map (reached sh a i h gt))) := by
  have hcs : byLane (((members g stand).map (reached sh a i h gt)).filter fun t => (t.gathering.map Prod.snd).getD false) =
      (contributors g stand h).map (reached sh a i h gt) := by
    rw [List.filter_map, byLane_map _ (reached_lane sh a i h gt), contributors, members, List.filter_filter]
    congr 2
    apply List.filter_congr
    intro v _
    simp [Bool.and_comm]
  have hmem : ∀ v ∈ g.lanes, (((members g stand).map (reached sh a i h gt)).any fun u => u.tid == v.tid) = true ↔ v.stand = stand := by
    intro v hv
    simp only [List.any_map, List.any_eq_true, Function.comp_apply, reached_tid, beq_iff_eq, mem_members]
    exact ⟨fun ⟨u, ⟨hu, hst⟩, e⟩ => eq_of_tid _ hn u v hu hv e ▸ hst, fun hst => ⟨v, ⟨hv, hst⟩, rfl⟩⟩
  unfold Grove.gatherDone
  simp only [hcs, Grove.modLanes, changed, List.map_map]
  congr 1
  apply List.map_congr_left
  intro v hv
  by_cases e : v.stand = stand
  · have hm := (hmem v hv).2 e
    rw [← reached_tid sh a i h gt v] at hm
    simp only [Function.comp_apply, if_pos e, if_pos hm, reached_gathering, delivered]
    cases v.guard h <;> simp only [Bool.false_eq_true, ↓reduceIte]
  · simp only [Function.comp_apply, if_neg e, if_neg (fun k => e ((hmem v hv).1 k))]

/-- What the completion leaves in a thread of the stand: its results and flags, and all else kept (R72, R86, R150). -/
theorem wrote_delivered {u : Thread} (hi : (∀ x, u.seg = some x → x.fin = .running) ∧ u.stopped = false) {cs : List Thread} {o : Thread → WordOut}
    (he : crossResult i cs (reached sh a i h gt u) = o u) (ht : (o u).trap = none) (hp : predsOk (o u).writes) :
    Wrote h o u (delivered sh a i h gt cs u) := by
  have hadv : Advanced u (reached sh a i h gt u) := by unfold Advanced; rw [ended_reached sh a i h gt hi]
  obtain ⟨z, hz⟩ := reached_seg sh a i h gt hi
  obtain ⟨k1, k2, k3, -⟩ := apply_law false (o u) ht hp _ _ hz
  have hend : ended (delivered sh a i h gt cs u) =
      ended (if u.guard h then (reached sh a i h gt u).apply false (o u) else reached sh a i h gt u) := by
    rw [delivered, ended_withWait, he]
  refine ⟨rfl, keepsRest_of_ended hend ?_, fun r => (due_of_ended _ _ hend r).trans ?_, fun hf => ?_⟩
  · split
    · exact keepsRest_trans (advanced_keepsRest hadv) k2
    · exact advanced_keepsRest hadv
  · split
    · rw [k1 r, dueAfter, dueAfter, advanced_due hadv]
    · exact advanced_due hadv r
  · rw [hend]
    split
    · have hw : (o u).flags = 0 ∨ ((u.begunSeg sh a).writes.find? fun y => y.sr == 1) = none := hf.imp id fun q => by
        rw [List.find?_eq_none]
        show ∀ y ∈ (u.segOf a).writes, _
        unfold Thread.segOf
        cases hx : u.seg with
        | none => simp [Seg.new]
        | some x => intro y hy; simpa using q x hx y hy
      rw [k3 hw, flg_ctl hadv]
    · rw [flg_ctl hadv, Nat.or_zero]

end Completion

/-- Where only groves differ, the same cores may run. -/
theorem mayRun_changed {s t : State} (ho : OnlyGroves s t) (g : Grove) (stand : Nat) (M : Thread → Thread) (core : Nat) :
    t.mayRun (changed g stand M) core = s.mayRun g core := by
  unfold OnlyGroves at ho
  generalize t.groves = gs at ho
  subst ho; rfl

/-- GATHERING_COMPLETE for a thread of a stand that waits as one gathering (R149, R150). -/
theorem gatheringComplete_law {s t : State} {gid stand : Nat} {w l : Word} {g : Grove} (hs : StandAt s gid stand w l g) (hg : Gathers g stand)
    (sh : Shape) (a : List (Nat × Word)) (i : Instr) (h : Hdr) (gt : Nat) (ho : OnlyGroves s t)
    (hj : ∀ j, j ≠ gid → t.grove? j = s.grove? j) (ht : t.grove? gid = some (changed g stand (reached sh a i h gt)))
    {u : Thread} (hu : u ∈ g.lanes) (hst : u.stand = stand) (hr : s.mayRun g u.core = true) :
    ∃ t', exec (.gatheringComplete gid u.tid) t = .next t' ∧ OnlyGroves s t' ∧ (∀ j, j ≠ gid → t'.grove? j = s.grove? j) ∧
      t'.grove? gid = some (changed g stand (delivered sh a i h gt ((contributors g stand h).map (reached sh a i h gt)))) := by
  have hthread : t.thread? gid (some u.tid) = some (reached sh a i h gt u) := by
    rw [State.thread?, ht, Option.bind_some]
    have hn : ((changed g stand (reached sh a i h gt)).lanes.map Thread.tid).Nodup := by
      rw [changed, List.map_map]
      convert hs.distinct using 1
      apply List.map_congr_left
      intro v _; simp only [Function.comp_apply]; split <;> simp
    have hm : reached sh a i h gt u ∈ (changed g stand (reached sh a i h gt)).lanes :=
      List.mem_map.2 ⟨u, hu, by rw [if_pos hst]⟩
    have := find?_of_nodup _ hn _ hm
    rwa [reached_tid] at this
  have hx : exec (.gatheringComplete gid u.tid) t = .next (t.modGrove gid fun g' => g'.gatherDone ((members g stand).map (reached sh a i h gt))) := by
    show execGatheringComplete gid u.tid t = _
    simp only [execGatheringComplete, ht, hthread, reached_core, mayRun_changed ho, hr, Bool.not_true, Bool.false_eq_true, ↓reduceIte,
      gatheringOf_changed hs hg sh a i h gt hu hst]
  refine ⟨_, hx, onlyGroves_trans ho (onlyGroves_modGrove ..), fun j hne => ?_, ?_⟩
  · rw [State.grove?_modGrove_other _ _ _ _ (by intro _; rfl) hne, hj j hne]
  · rw [State.grove?_modGrove_same _ _ _ (by intro _; rfl), ht, Option.map_some, gatherDone_changed _ _ _ _ _ hs.distinct]

/-! ### What a contributor receives depends on what the threads read -/

/-- Two threads alike in lane, width and FPC that read the same from every register. -/
structure ReadsLike (u v : Thread) : Prop where
  lane : v.lane = u.lane
  width : v.width = u.width
  fpc : v.fpc = u.fpc
  src : ∀ r, v.src r = u.src r

theorem readsLike_reached (sh : Shape) (a : List (Nat × Word)) (i : Instr) (h : Hdr) (gt : Nat) (u : Thread) : ReadsLike u (reached sh a i h gt u) :=
  ⟨by simp, by simp, by simp, by simp⟩

/-- A result that depends on the threads through what they read alone. -/
def ByReads (out : List Thread → Thread → WordOut) : Prop :=
  ∀ M : Thread → Thread, (∀ u, ReadsLike u (M u)) → ∀ cs u, out (cs.map M) (M u) = out cs u

/-- A cross-lane word in the frame of all of them: its result depends on what the threads read, traps nothing and writes predicates well. -/
theorem crossRun_of {i : Instr} {h : Hdr} {ends : Bool} {nvar : Nat} {needs : List Need} {out : List Thread → Thread → WordOut}
    (hx : ∀ s, exec i s = crossWord h ends nvar needs i s) (ho : ∀ cs u, (∀ v ∈ cs, v.lane < 64) → crossResult i cs u = out cs u)
    (hr : ByReads out) (ht : ∀ cs u, (out cs u).trap = none) (hp : ∀ cs u, predsOk (out cs u).writes) :
    CrossRun i ⟨h, 1, ends, nvar, needs⟩ out := by
  intro s gid stand w l g hs hd hg hn hm
  have hM := readsLike_reached (wordShape { h with g := 0 } ends nvar needs) (s.srStart g) i h s.gt
  obtain ⟨t, ht1, ht2, ht3, ht4⟩ := crossWord_law hs h (wordShape { h with g := 0 } ends nvar needs) rfl i hd hn
  refine ⟨t, (hx s).trans ht1, ?_, fun u hu hst => ?_⟩
  · exact standLeaves_of_changed _ ht2 ht3 ht4 (by simp) fun u hu hst => ⟨rfl, ended_reached _ _ _ _ _ (runs_of_standAt hs hu hst)⟩
  · obtain ⟨t', h1, h2, h3, h4⟩ := gatheringComplete_law hs hg _ _ i h s.gt ht2 ht3 ht4 hu hst (hm u hu hst)
    refine ⟨t', h1, standLeaves_of_changed _ h2 h3 h4 (by simp) fun v hv hvs => wrote_delivered _ _ _ _ _ (runs_of_standAt hs hv hvs) ?_ (ht _ _) (hp _ _)⟩
    rw [ho _ _ ?_, hr _ hM]
    intro x hx
    obtain ⟨y, hy, rfl⟩ := List.mem_map.1 hx
    rw [reached_lane]; exact (mem_byLane.1 hy).2

/-! ### The results of the words -/

/-- Entry j of a row of D in the float forms of CMMAB and CMMAQ (R159). -/
def floatEntry (f : Fmt) (d a b : Nat) (cs : List Thread) (t : Thread) (j : Nat) : Rounded :=
  let row := (List.range 16).map fun k => t.fenv.read f (matElem f.width a k t)
  let col := match cs.find? fun u => u.lane == t.lane / 16 * 16 + j with
    | some u => (List.range 16).map fun k => u.fenv.read f (matElem f.width b k u)
    | none => List.replicate 16 (f.unpack 0)
  let c := t.fenv.read .fp32 (t.reg (d + j)).toNat
  exactSum t.fenv .fp32 (row ++ col ++ [c]) (c.term ++ (row.zip col).flatMap fun p => prodTerm p.1 p.2)

/-- A row of D of 16 rounded entries, their flags merged. -/
def rowOut (d : Nat) (e : Nat → Rounded) : WordOut :=
  let rs := (List.range 16).map fun j => (j, e j)
  ⟨rs.map fun r => (.gpr (d + r.1), w32 r.2.1), rs.foldl (fun x r => x ||| r.2.2) 0, none⟩

theorem cmmaFloat_eq_rowOut (f : Fmt) (d a b : Nat) (cs : List Thread) (t : Thread) : cmmaFloat f d a b cs t = rowOut d (floatEntry f d a b cs t) := rfl

/-- Entry j of a row of D of CMMAQ.I8 (R159). -/
def intEntry (d a b : Nat) (cs : List Thread) (t : Thread) (j : Nat) : Word :=
  let row := (List.range 16).map fun k => sintOf 8 (matElem 8 a k t)
  let col := match cs.find? fun u => u.lane == t.lane / 16 * 16 + j with
    | some u => (List.range 16).map fun k => sintOf 8 (matElem 8 b k u)
    | none => List.replicate 16 0
  wordOfInt ((t.reg (d + j)).toInt + ((row.zip col).map fun p => p.1 * p.2).sum)

theorem cmmaInt_eq (d a b : Nat) (cs : List Thread) (t : Thread) :
    cmmaInt d a b cs t = .of ((List.range 16).map fun j => (.gpr (d + j), intEntry d a b cs t j)) := rfl

namespace ReadsLike

variable {u v : Thread} (k : ReadsLike u v)

include k

theorem reg (n : Nat) : v.reg n = u.reg n := k.src _

theorem pair (n : Nat) : v.pair n = u.pair n := by simp only [Thread.pair, k.reg]

theorem predSrc (n : Nat) : v.predSrc n = u.predSrc n := by simp only [Thread.predSrc, k.src]

theorem fenv : v.fenv = u.fenv := by simp only [Thread.fenv, k.fpc]

theorem shufArg (c : ShufSrc) : Safety.shufArg c v = Safety.shufArg c u := by
  cases c with
  | imm c => rfl
  | reg c => simp only [Safety.shufArg, k.reg]

theorem ballotBit (q : Fin 8) (n : Bool) : Safety.ballotBit q n v = Safety.ballotBit q n u := by simp only [Safety.ballotBit, k.predSrc]

theorem matElem (w base n : Nat) : Machine.matElem w base n v = Machine.matElem w base n u := by simp only [Machine.matElem, k.reg]

end ReadsLike

section Reads

variable {M : Thread → Thread} (hM : ∀ u, ReadsLike u (M u))

include hM

theorem find?_lane_map (cs : List Thread) (k : Nat) : ((cs.map M).find? fun v => v.lane == k) = (cs.find? fun v => v.lane == k).map M := by
  simp only [List.find?_map, Function.comp_def, (hM _).lane]

theorem fetched_map (b : Fin 64) (cs : List Thread) (u : Thread) (k : Option Nat) : fetched b (cs.map M) (M u) k = fetched b cs u k := by
  cases k with
  | none => exact (hM u).reg _
  | some k =>
    simp only [fetched, find?_lane_map hM]
    cases cs.find? fun v => v.lane == k <;> exact (hM _).reg _

theorem reduce_map (f : RedFn) (b : Nat) (cs : List Thread) (u : Thread) : reduce f b (cs.map M) (M u) = reduce f b cs u := by
  cases f <;> simp only [reduce, List.foldl_map, List.map_map, List.isEmpty_map, Function.comp_def, (hM _).reg, (hM _).pair, (hM _).fenv]

theorem floatEntry_map (f : Fmt) (d a b : Nat) (cs : List Thread) (u : Thread) (j : Nat) :
    floatEntry f d a b (cs.map M) (M u) j = floatEntry f d a b cs u j := by
  simp only [floatEntry, (hM u).lane, find?_lane_map hM, (hM _).fenv, (hM _).matElem, (hM _).reg]
  cases cs.find? fun v => v.lane == u.lane / 16 * 16 + j with
  | none => rfl
  | some v => simp only [Option.map_some, (hM _).fenv, (hM _).matElem]

theorem intEntry_map (d a b : Nat) (cs : List Thread) (u : Thread) (j : Nat) : intEntry d a b (cs.map M) (M u) j = intEntry d a b cs u j := by
  simp only [intEntry, (hM u).lane, find?_lane_map hM, (hM _).matElem, (hM _).reg]
  cases cs.find? fun v => v.lane == u.lane / 16 * 16 + j with
  | none => rfl
  | some v => simp only [Option.map_some, (hM _).matElem]

end Reads

theorem shuffle_eq_fetched (b : Fin 64) (cs : List Thread) (u : Thread) (k : Option Nat) : shuffle cs u k b.val = fetched b cs u k := by
  cases k with
  | none => rfl
  | some k =>
    simp only [shuffle, fetched, Option.bind_some]
    cases cs.find? fun v => v.lane == k <;> rfl

theorem shufC_eq_shufArg (u : Thread) (c : ShufSrc) : shufC u c = shufArg c u := by cases c <;> rfl

theorem allEqual_eq (l : List Bool) : allEqual l = (l.all id || !l.any id) := by
  cases l with
  | nil => rfl
  | cons x l => cases x <;> simp [allEqual, List.all_eq_not_any_not, Function.id_def]

/-! ### The results depend on reads alone, trap nothing and write predicates well -/

theorem predsOk_rowOut (d : Nat) (e : Nat → Rounded) : predsOk (rowOut d e).writes := predsOk_of_forall (by simp [rowOut])

theorem crossRun_shuffle {i : Instr} {h : Hdr} {d b : Fin 64} {c : ShufSrc} {lane : Thread → Option Nat}
    (hx : ∀ s, exec i s = crossWord h false 1 (v1 d ++ shufNeed c ++ v1 b) i s)
    (hi : ∀ cs u, crossResult i cs u = .of (wr d.val (shuffle cs u (lane u) b.val)))
    (hl : ∀ u v, ReadsLike u v → lane v = lane u) :
    CrossRun i ⟨h, 1, false, 1, v1 d ++ shufNeed c ++ v1 b⟩
      (fun cs u => WordOut.of [(.gpr d.val, fetched b cs u (lane u))]) := by
  refine crossRun_of hx (fun cs u _ => ?_) (fun M hM cs u => ?_) (fun _ _ => rfl) (fun _ _ => predsOk_wr _ _)
  · rw [hi, shuffle_eq_fetched]; rfl
  · rw [hl u (M u) (hM u), fetched_map hM]

theorem crossRun_vote (h : Hdr) (k q : Fin 8) (n : Bool) (f : VoteFn) (F : List Bool → Bool)
    (hi : ∀ cs u, crossResult (.vote h k q n f) cs u = .of (wrP k.val (F (cs.map (voteBit q n))))) :
    CrossRun (.vote h k q n f) ⟨h, 1, false, 1, []⟩
      (fun cs _ => WordOut.of [(.pred k.val, if F (cs.map (ballotBit q n)) then 1 else 0)]) := by
  refine crossRun_of (fun _ => rfl) (fun cs u _ => hi cs u) (fun M hM cs u => ?_) (fun _ _ => rfl) (fun _ _ => predsOk_wrP _ _)
  have hb : ballotBit q n ∘ M = ballotBit q n := by funext v; exact (hM v).ballotBit q n
  rw [List.map_map, hb]

theorem crossRun_row {i : Instr} {h : Hdr} {needs : List Need} (f : Fmt) (d a b : Nat) (hx : ∀ s, exec i s = crossWord h false 16 needs i s)
    (hi : ∀ cs u, crossResult i cs u = cmmaFloat f d a b cs u) : CrossRun i ⟨h, 1, false, 16, needs⟩ (cmmaFloat f d a b) := by
  refine crossRun_of hx (fun cs u _ => hi cs u) (fun M hM cs u => ?_) (fun _ _ => rfl) (fun cs u => ?_)
  · rw [cmmaFloat_eq_rowOut, cmmaFloat_eq_rowOut, funext (floatEntry_map hM f d a b cs u)]
  · rw [cmmaFloat_eq_rowOut]; exact predsOk_rowOut _ _

theorem predsOk_redOut (f : RedFn) (d : Nat) (r : Rounded) : predsOk (redOut f d r).writes := by
  unfold redOut
  split
  · exact predsOk_pairOf d _
  · exact predsOk_wr d _

theorem lane_split (x : Bool) (u v : Thread) :
    (decide (v.lane < u.lane) || (!x && v.lane == u.lane)) = if x then decide (v.lane < u.lane) else decide (v.lane ≤ u.lane) := by
  cases x
  · simp [Nat.le_iff_lt_or_eq, Bool.beq_eq_decide_eq]
  · simp

/-! ### BALLOT -/

theorem testBit_foldl_or (cs : List Thread) (x j : Nat) :
    (cs.foldl (fun x u => x ||| 2 ^ u.lane) x).testBit j = (x.testBit j || cs.any fun v => v.lane == j) := by
  induction cs generalizing x with
  | nil => simp
  | cons v cs ih => rw [List.foldl_cons, ih, Nat.testBit_or, Nat.testBit_two_pow, List.any_cons, Bool.or_assoc]; rfl

/-- The number of n bits whose bit j is p j. -/
def sumBits (p : Nat → Bool) (n : Nat) : Nat := (List.range n).foldl (fun x j => if p j then x + 2 ^ j else x) 0

theorem sumBits_succ (p : Nat → Bool) (n : Nat) : sumBits p (n + 1) = 2 ^ n * b2n (p n) + sumBits p n := by
  simp only [sumBits, List.range_succ, List.foldl_append, List.foldl_cons, List.foldl_nil]
  cases p n <;> simp [b2n, Nat.add_comm]

theorem sumBits_lt (p : Nat → Bool) (n : Nat) : sumBits p n < 2 ^ n := by
  induction n with
  | zero => simp [sumBits]
  | succ n ih =>
    have hb : b2n (p n) < 2 := b2n_lt _
    rw [sumBits_succ, Nat.pow_succ]; nlinarith

theorem testBit_sumBits (p : Nat → Bool) (n j : Nat) : (sumBits p n).testBit j = (decide (j < n) && p j) := by
  induction n with
  | zero => simp [sumBits]
  | succ n ih =>
    rw [sumBits_succ, Nat.testBit_two_pow_mul_add _ (sumBits_lt p n), ih]
    rcases Nat.lt_trichotomy j n with e | e | e
    · simp [e, show j < n + 1 by omega]
    · subst e; cases p j <;> simp [b2n]
    · have : (b2n (p n)).testBit (j - n) = false := Nat.testBit_lt_two_pow ((b2n_lt _).trans_le (Nat.le_self_pow (by omega) 2))
      simp [this, show ¬ j < n by omega, show ¬ j < n + 1 by omega]

/-- The bits of BALLOT gathered thread by thread are those gathered lane by lane. -/
theorem ballot_eq (q : Fin 8) (n : Bool) (cs : List Thread) (hl : ∀ v ∈ cs, v.lane < 64) :
    (cs.filter (voteBit q n)).foldl (fun x u => x ||| 2 ^ u.lane) 0 =
      sumBits (fun j => cs.any fun v => v.lane == j && ballotBit q n v) 64 := by
  apply Nat.eq_of_testBit_eq
  intro j
  rw [testBit_foldl_or, testBit_sumBits, List.any_filter, Nat.zero_testBit, Bool.false_or]
  by_cases h : j < 64
  · simp only [h, decide_true, Bool.true_and, Bool.and_comm]; rfl
  · simp only [h, decide_false, Bool.false_and, List.any_eq_false]
    intro v hv
    have := hl v hv
    simp; omega

theorem wr64_ofNat {x : Nat} (d : Nat) (h : x < 2 ^ 64) : wr64 d (BitVec.ofNat 64 x) = pairOf d x := by
  rw [wr64_eq_pairOf, BitVec.toNat_ofNat, Nat.mod_eq_of_lt h]

/-! ### Reductions of integers -/

theorem foldl_addMod (m : Nat) (xs : List Nat) (x : Nat) : xs.foldl (fun x y => (x + y) % m) (x % m) = (x + xs.sum) % m := by
  induction xs generalizing x with
  | nil => simp
  | cons y xs ih => rw [List.foldl_cons, Nat.mod_add_mod, ih, List.sum_cons, Nat.add_assoc]

/-- The element of least key among a list and a first choice. -/
theorem foldl_leastKey (key : Nat → Int) (xs : List Nat) (x : Nat) :
    let z := xs.foldl (fun x y => if key y < key x then y else x) x
    (z = x ∨ z ∈ xs) ∧ key z ≤ key x ∧ ∀ y ∈ xs, key z ≤ key y := by
  induction xs generalizing x with
  | nil => simp
  | cons y xs ih =>
    obtain ⟨h1, h2, h3⟩ := ih (if key y < key x then y else x)
    simp only [List.foldl_cons, List.mem_cons, forall_eq_or_imp]
    by_cases h : key y < key x
    · simp only [if_pos h] at h1 h2 h3 ⊢
      exact ⟨.inr h1, h2.trans h.le, h2, h3⟩
    · simp only [if_neg h] at h1 h2 h3 ⊢
      exact ⟨h1.imp id .inr, h2, h2.trans (not_lt.1 h), h3⟩

theorem testBit_foldl_and (xs : List Nat) (x j : Nat) : (xs.foldl (fun x y => x &&& y) x).testBit j = (x.testBit j && xs.all fun y => y.testBit j) := by
  induction xs generalizing x with
  | nil => simp
  | cons y xs ih => rw [List.foldl_cons, ih, Nat.testBit_and, List.all_cons, Bool.and_assoc]

theorem testBit_foldl_lor (xs : List Nat) (x j : Nat) : (xs.foldl (fun x y => x ||| y) x).testBit j = (x.testBit j || xs.any fun y => y.testBit j) := by
  induction xs generalizing x with
  | nil => simp
  | cons y xs ih => rw [List.foldl_cons, ih, Nat.testBit_or, List.any_cons, Bool.or_assoc]

theorem testBit_foldl_xor (xs : List Nat) (x j : Nat) : (xs.foldl (fun x y => x ^^^ y) x).testBit j =
    xor (x.testBit j) (decide ((xs.filter fun y => y.testBit j).length % 2 = 1)) := by
  induction xs generalizing x with
  | nil => simp
  | cons y xs ih =>
    rw [List.foldl_cons, ih, Nat.testBit_xor]
    cases h : y.testBit j
    · simp [h]
    · rcases Nat.mod_two_eq_zero_or_one (xs.filter fun y => y.testBit j).length with e | e <;> cases x.testBit j <;> simp [h, e, Nat.add_mod]

/-- An integer reduction of 32 bits folds its function over the contributors' registers (R155). -/
theorem reduce_fold {f : RedFn} (hf : f ∈ [RedFn.add, .min, .max, .nmin, .nmax, .and, .or, .xor]) (b : Nat) (cs : List Thread) (u : Thread) :
    reduce f b cs u = ((cs.map fun v => (v.reg b).toNat).foldl (redInt f).1 (redInt f).2, 0) := by
  rw [List.foldl_map]
  fin_cases hf <;> rfl

theorem reduce_add64 (b : Nat) (cs : List Thread) (u : Thread) : (reduce .add64 b cs u).1 = (cs.map fun v => (v.pair b).toNat).sum % 2 ^ 64 := by
  have : (reduce .add64 b cs u).1 = (cs.map fun v => (v.pair b).toNat).foldl (fun x y => (x + y) % 2 ^ 64) (0 % 2 ^ 64) := by
    rw [List.foldl_map]; rfl
  rw [this, foldl_addMod, Nat.zero_add]

/-- An integer reduction raises no flag (R155). -/
theorem reduce_flags {f : RedFn} (hf : f ∉ [RedFn.fsum, .fmin, .fmax]) (b : Nat) (cs : List Thread) (u : Thread) : (reduce f b cs u).2 = 0 := by
  cases f
  case fsum | fmin | fmax => simp at hf
  all_goals rfl

/-- An element chosen from a list of codes, or a code chosen in its place, is a code of 32 bits. -/
theorem lt_of_chosen {z x : Nat} {xs : List Nat} (hz : z = x ∨ z ∈ xs) (hx : x < 2 ^ 32) (hxs : ∀ y ∈ xs, y < 2 ^ 32) : z < 2 ^ 32 :=
  hz.elim (fun e => e ▸ hx) (hxs z)

theorem regs_lt (b : Nat) (cs : List Thread) : ∀ y ∈ cs.map fun v => (v.reg b).toNat, y < 2 ^ 32 := by
  intro y hy
  obtain ⟨v, -, rfl⟩ := List.mem_map.1 hy
  exact (v.reg b).isLt

/-- MIN chooses the least of the contributors' values read as signed, or its identity (R155). -/
theorem reduce_min (b : Nat) (cs : List Thread) (u : Thread) :
    (∀ y ∈ cs.map fun v => (v.reg b).toNat, s32 (reduce .min b cs u).1 ≤ s32 y) ∧
      ((reduce .min b cs u).1 = 2 ^ 31 - 1 ∨ (reduce .min b cs u).1 ∈ cs.map fun v => (v.reg b).toNat) := by
  have hxs := regs_lt b cs
  have hf : (redInt .min).1 = fun x y => if sintOf 32 y < sintOf 32 x then y else x := by funext x y; simp [redInt]
  rw [reduce_fold (by decide), hf]
  generalize (cs.map fun v => (v.reg b).toNat) = xs at hxs
  obtain ⟨h1, -, h3⟩ := foldl_leastKey (sintOf 32) xs (redInt .min).2
  refine ⟨fun y hy => ?_, h1⟩
  rw [← sintOf_eq_s32 (hxs y hy), ← sintOf_eq_s32 (lt_of_chosen h1 (by decide) hxs)]
  exact h3 y hy

/-- MAX chooses the greatest (R155). -/
theorem reduce_max (b : Nat) (cs : List Thread) (u : Thread) :
    (∀ y ∈ cs.map fun v => (v.reg b).toNat, s32 y ≤ s32 (reduce .max b cs u).1) ∧
      ((reduce .max b cs u).1 = 2 ^ 31 ∨ (reduce .max b cs u).1 ∈ cs.map fun v => (v.reg b).toNat) := by
  have hxs := regs_lt b cs
  have hf : (redInt .max).1 = fun x y => if -sintOf 32 y < -sintOf 32 x then y else x := by funext x y; simp [redInt]
  rw [reduce_fold (by decide), hf]
  generalize (cs.map fun v => (v.reg b).toNat) = xs at hxs
  obtain ⟨h1, -, h3⟩ := foldl_leastKey (fun y => -sintOf 32 y) xs (redInt .max).2
  refine ⟨fun y hy => ?_, h1⟩
  rw [← sintOf_eq_s32 (hxs y hy), ← sintOf_eq_s32 (lt_of_chosen h1 (by decide) hxs)]
  exact neg_le_neg_iff.1 (h3 y hy)

theorem reduce_add (b : Nat) (cs : List Thread) (u : Thread) : (reduce .add b cs u).1 = (cs.map fun v => (v.reg b).toNat).sum % 2 ^ 32 := by
  rw [reduce_fold (by decide)]
  exact (foldl_addMod (2 ^ 32) _ 0).trans (by rw [Nat.zero_add])

theorem reduce_nmin (b : Nat) (cs : List Thread) (u : Thread) :
    (reduce .nmin b cs u).1 = (cs.map fun v => (v.reg b).toNat).foldl min (2 ^ 32 - 1) := by
  have hf : (redInt .nmin).1 = min := by
    funext x y; simp only [redInt, decide_eq_true_eq, Nat.min_def, ← not_le, ite_not]
  rw [reduce_fold (by decide), hf]; rfl

theorem reduce_nmax (b : Nat) (cs : List Thread) (u : Thread) :
    (reduce .nmax b cs u).1 = (cs.map fun v => (v.reg b).toNat).foldl max 0 := by
  have hf : (redInt .nmax).1 = max := by
    funext x y; rw [max_comm]; simp only [redInt, decide_eq_true_eq, Nat.max_def, ← not_le, ite_not]
  rw [reduce_fold (by decide), hf]; rfl

theorem testBit_reduce_and (b : Nat) (cs : List Thread) (u : Thread) {j : Nat} (hj : j < 32) :
    (reduce .and b cs u).1.testBit j = (cs.map fun v => (v.reg b).toNat).all fun y => y.testBit j := by
  have hid : (redInt .and).2 = 2 ^ 32 - 1 := rfl
  rw [reduce_fold (by decide)]
  refine (testBit_foldl_and _ _ j).trans ?_
  rw [hid, Nat.testBit_two_pow_sub_one, decide_eq_true hj, Bool.true_and]

theorem testBit_reduce_or (b : Nat) (cs : List Thread) (u : Thread) (j : Nat) :
    (reduce .or b cs u).1.testBit j = (cs.map fun v => (v.reg b).toNat).any fun y => y.testBit j := by
  have hid : (redInt .or).2 = 0 := rfl
  rw [reduce_fold (by decide)]
  refine (testBit_foldl_lor _ _ j).trans ?_
  rw [hid, Nat.zero_testBit, Bool.false_or]

theorem testBit_reduce_xor (b : Nat) (cs : List Thread) (u : Thread) (j : Nat) : (reduce .xor b cs u).1.testBit j =
    decide (((cs.map fun v => (v.reg b).toNat).filter fun y => y.testBit j).length % 2 = 1) := by
  have hid : (redInt .xor).2 = 0 := rfl
  rw [reduce_fold (by decide)]
  refine (testBit_foldl_xor _ _ j).trans ?_
  rw [hid, Nat.zero_testBit, Bool.false_xor]

/-! ### The class -/

theorem crossRun_ballot (h : Hdr) (d : Fin 64) (q : Fin 8) (n : Bool) :
    CrossRun (.ballot h d q n) ⟨h, 1, false, 2, v2 d⟩ (fun cs _ => .of (pairOf d.val
      (sumBits (fun j => cs.any fun v => v.lane == j && ballotBit q n v) 64))) := by
  refine crossRun_of (fun _ => rfl) (fun cs u hl => ?_) (fun M hM cs u => ?_) (fun _ _ => rfl) (fun _ _ => predsOk_pairOf _ _)
  · rw [← wr64_ofNat d.val (sumBits_lt _ 64), ← ballot_eq q n cs hl]; rfl
  · simp only [List.any_map, Function.comp_def, (hM _).lane, (hM _).ballotBit]

theorem crossRun_sred (h : Hdr) (d b : Fin 64) (f : RedFn) :
    CrossRun (.sred h d f b) ⟨h, 1, false, if f = .add64 then 2 else 1, redNeeds f d b⟩ (fun cs u => redOut f d.val (reduce f b.val cs u)) :=
  crossRun_of (fun _ => rfl) (fun _ _ _ => rfl) (fun M hM cs u => by rw [reduce_map hM]) (fun _ _ => rfl) (fun _ _ => predsOk_redOut _ _ _)

theorem crossRun_sscan (h : Hdr) (d b : Fin 64) (f : RedFn) (x : Bool) :
    CrossRun (.sscan h d f x b) ⟨h, 1, false, if f = .add64 then 2 else 1, redNeeds f d b⟩
      (fun cs u => redOut f d.val (reduce f b.val (cs.filter fun v => if x then decide (v.lane < u.lane) else decide (v.lane ≤ u.lane)) u)) := by
  refine crossRun_of (fun _ => rfl) (fun cs u _ => ?_) (fun M hM cs u => ?_) (fun _ _ => rfl) (fun _ _ => predsOk_redOut _ _ _)
  · simp only [← lane_split]; rfl
  · simp only [List.filter_map, Function.comp_def, (hM _).lane, reduce_map hM]

theorem crossRun_cmmaInt (h : Hdr) (e : Fin 4) (a b : Fin 16) :
    CrossRun (.cmmaq h e a b .i8) ⟨h, 1, false, 16, [.v (16 * e.val) 16 16, .v (4 * a.val) 4 4, .v (4 * b.val) 4 4]⟩
      (cmmaInt (16 * e.val) (4 * a.val) (4 * b.val)) := by
  refine crossRun_of (fun _ => rfl) (fun _ _ _ => rfl) (fun M hM cs u => ?_) (fun _ _ => rfl) (fun cs u => ?_)
  · simp only [cmmaInt_eq, intEntry_map hM]
  · rw [cmmaInt_eq]; exact predsOk_of_forall (by simp [WordOut.of])

/-- Settles O11: the frame of a gathering is one for all cross-lane words; each word's result is the model's, in the row's terms, and each integer reduction is a fold. -/
theorem crossLaneWords : Obligations.CrossLaneWords := by
  refine ⟨fun h d b c k q n => ⟨?shfl, ?shflx, ?shflu, ?shfld, ?all, ?any, ?eq, ?ballot, ?sred, ?sscan, ?cmmab, ?cmmaq, ?syncm⟩, fun b cs u => ?reductions⟩
  case shfl => exact crossRun_shuffle (fun _ => rfl) (fun _ u => by rw [← shufC_eq_shufArg]; rfl) fun u v k => by rw [k.shufArg, k.width]
  case shflx => exact crossRun_shuffle (fun _ => rfl) (fun _ u => by rw [← shufC_eq_shufArg]; rfl) fun u v k => by rw [k.shufArg, k.width, k.lane]
  case shflu =>
    exact crossRun_shuffle (fun _ => rfl) (fun _ u => by simp only [← shufC_eq_shufArg, ← not_lt, ite_not]; rfl) fun u v k => by rw [k.shufArg, k.lane]
  case shfld =>
    exact crossRun_shuffle (fun _ => rfl) (fun _ u => by simp only [← shufC_eq_shufArg, ← not_le, ite_not]; rfl)
      fun u v k => by rw [k.shufArg, k.width, k.lane]
  case all => exact crossRun_vote h k q n _ (fun l => l.all id) fun _ _ => rfl
  case any => exact crossRun_vote h k q n _ (fun l => l.any id) fun _ _ => rfl
  case eq => exact crossRun_vote h k q n _ (fun l => l.all id || !l.any id) fun _ _ => by rw [← allEqual_eq]; rfl
  case ballot => exact crossRun_ballot h d q n
  case sred => exact crossRun_sred h d b
  case sscan => exact crossRun_sscan h d b
  case cmmab =>
    intro e a b t
    cases t
    · exact crossRun_row _ _ _ _ (fun _ => rfl) fun _ _ => rfl
    · exact crossRun_row _ _ _ _ (fun _ => rfl) fun _ _ => rfl
  case cmmaq =>
    intro e a b t
    cases t
    · exact crossRun_row _ _ _ _ (fun _ => rfl) fun _ _ => rfl
    · exact crossRun_row _ _ _ _ (fun _ => rfl) fun _ _ => rfl
    · exact crossRun_cmmaInt h e a b
  case syncm => exact crossRun_of (fun _ => rfl) (fun _ _ _ => rfl) (fun _ _ _ _ => rfl) (fun _ _ => rfl) fun _ _ => predsOk_of_forall (by simp [WordOut.of])
  case reductions =>
    obtain ⟨hmin, hmin'⟩ := reduce_min b cs u
    obtain ⟨hmax, hmax'⟩ := reduce_max b cs u
    exact ⟨reduce_add b cs u, reduce_add64 b cs u, reduce_nmin b cs u, reduce_nmax b cs u, hmin, hmin', hmax, hmax',
      fun j hj => testBit_reduce_and b cs u hj, fun j _ => testBit_reduce_or b cs u j, fun j _ => testBit_reduce_xor b cs u j,
      fun f hf => reduce_flags hf b cs u⟩

end Sys2Proof.LaneWords
end
